-- ==== Sys2Proof/Word.lean ====
section
/-! DEFINITION. The word types of the Nirdal 7260 and their plainest arithmetic (00_scope.md R1, R8, R9). -/

namespace Sys2Proof

/-- One byte of memory. -/
abbrev Byte := BitVec 8
/-- A parcel, the 16-bit unit of instruction streams (R72). -/
abbrev Parcel := BitVec 16
/-- A scalar register, a CSR or an address register (R110). -/
abbrev Word := BitVec 64
/-- A handle, 256 bits (R115). -/
abbrev Handle := BitVec 256
/-- A vector register, 4,096 bits (R150). -/
abbrev VReg := BitVec 4096
/-- A write or post signature, 1,024 bits (R249). -/
abbrev Sig := BitVec 1024

/-- x[hi:lo] read as an unsigned integer (R1), over a natural number. -/
def bits (x hi lo : Nat) : Nat := (x >>> lo) % 2 ^ (hi + 1 - lo)

/-- The field of `n` bits from bit `lo` of a bit vector (R1). -/
abbrev fld {w : Nat} (x : BitVec w) (lo n : Nat) : BitVec n := x.extractLsb' lo n

/-- SignExtend(x, n) of R9 over a natural number. -/
def signExt (n x : Nat) : Int :=
  let y := x % 2 ^ n
  if 2 * y < 2 ^ n then (y : Int) else (y : Int) - (2 : Int) ^ n

/-- Trunc(x, n) of R9 over an integer. -/
def trunc (n : Nat) (x : Int) : Nat := (x % ((2 : Int) ^ n)).toNat

/-- Ceiling division of naturals. -/
def ceilDiv (a b : Nat) : Nat := (a + b - 1) / b

end Sys2Proof
end

