-- ==== Sys2Proof/Config.lean ====
section
/-! DEFINITION. What one module fixes, the numbers the spec leaves to the part (fused values, log 3), and the FREE
VALUES: constants with no body, of which nothing can be proved, one for each value the spec leaves open (NOTES.md lists them
with their log entries). -/

namespace Sys2Proof.Config

/-- Bytes of HBM (R190). -/
def hbmBytes : Nat := 0x60_0000_0000
/-- First byte above HBM's range and range of the capacity tier (R190). -/
def capBase : Nat := 0x100_0000_0000
def capEnd : Nat := 0x280_0000_0000
/-- MMIO range (R190). -/
def mmioBase : Nat := 0x3000_0000_0000
def mmioEnd : Nat := 0x4000_0000_0000
/-- Bytes of the Latent Store (R181). -/
def lstBytes : Nat := 0x1_8000_0000
/-- Bytes of one core's scratchpad (R181). -/
def spBytes : Nat := 0xC_0000

/-- DESIGN CHOICE, unsafe (log 3): the fused power values, those of the worked example of 21_power_counters.md. -/
def rBase : Nat := 96_000
def rFull : Nat := 384_000
def rFloor : Nat := 24_000
def cap : Nat := 400_000
def rMax : Nat := 420_000
def slew : Nat := 16_000

/-- FREE VALUE (log 8): the carry word of the n-th free split of a slot element's canonical sum (R67). -/
opaque freeCarry : Nat → BitVec 64
/-- FREE VALUE (log 11): which line of a full L1 set a fill replaces (R186). -/
opaque freeVictim : Nat → Nat
/-- FREE VALUE (log 7): the encoding of a special-function result that the enclosure could not decide. -/
opaque freeSpecial : Nat → Nat → BitVec 32
/-- FREE VALUE (log 14): whether the NoC order of clusters puts one before another for an LST slice (R29, AFFINITY):
the distance in hops from cluster c to slice s. -/
opaque freeHops : Nat → Nat → Nat
/-- FREE VALUE (log 18): which of the free brick tags a BPOP gives (R31). -/
opaque freeTag : Nat → Nat
/-- FREE VALUE (log 20): the reuse entry, modulo 4,096, that an OB's RIDX of 4,096-65,534 names (R382). -/
opaque freeEntry : Nat → Nat
/-- FREE VALUE (log 28): a byte that an inbound request reads of a poisoned sector. -/
opaque freeByte : Nat → Nat → Byte
/-- FREE VALUE (log 30): which item of the health store an 8-byte place of its MMIO window holds (R461, R478). -/
opaque healthPlace : Nat → Nat
/-- FREE VALUE (log 15): the lines or frames in use in an L2 slice, for its number and the event (R189, R460). -/
opaque freeL2Level : Nat → Nat → Nat → Nat
/-- FREE VALUE (log 42): the link sequence number of the n-th flit or message sent (R356, R362). -/
opaque freeLseq : Nat → BitVec 14
/-- FREE VALUE (log 49): what LEVEL holds after a debit that takes it below its 32 bits (R440, R442). -/
opaque freeLevel : Nat → BitVec 32
/-- FREE VALUE (log 9): cycles of a cluster's clock in the n-th passing of time (R460 event 0x01). -/
opaque freeCycles : Nat → Nat → Nat
/-- FREE VALUE (log 9): the bin of the hottest sensor's temperature, modulo 24 (R461). -/
opaque freeBin : Nat → Nat
/-- FREE VALUE (log 10): the signature of the module identity key over a message (R477), 96 bytes as a number. -/
opaque identitySign : List Byte → BitVec 768
/-- FREE VALUE (log 10): the vendor key fused into the boot ROM (R475). -/
opaque vendorKey : BitVec 768
/-- FREE VALUE (log 10): Dzinar's HOF release key, slot 0 of the shipped key store (R476). -/
opaque hofReleaseKey : BitVec 768

end Sys2Proof.Config
end

