-- ==== Sys2Proof/Machine/SMap.lean ====
section
/-! DEFINITION. Sparse tables: plain lists of key and value pairs in one canonical form (keys strictly rising,
no entry equal to what an unlisted key reads as), so that equal tables are equal data. Memory, register files and
every table of the machine are held so. -/

namespace Sys2Proof.Machine

/-- A sparse table of values by key. -/
abbrev SMap (V : Type) := List (Nat × V)

namespace SMap

variable {V : Type}

/-- What key `k` reads as; `d` is what an unlisted key reads as. -/
def get (d : V) : SMap V → Nat → V
  | [], _ => d
  | (j, v) :: m, k => if j = k then v else get d m k

/-- The table without key `k`. -/
def erase : SMap V → Nat → SMap V
  | [], _ => []
  | (j, v) :: m, k => if j = k then erase m k else (j, v) :: erase m k

/-- Insert a pair before the first larger key. -/
def insert (k : Nat) (v : V) : SMap V → SMap V
  | [] => [(k, v)]
  | (j, w) :: m => if k < j then (k, v) :: (j, w) :: m else (j, w) :: insert k v m

/-- Write value `v` at key `k`, keeping the canonical form: writing the default removes the entry. -/
def set [DecidableEq V] (d : V) (m : SMap V) (k : Nat) (v : V) : SMap V :=
  if v = d then erase m k else insert k v (erase m k)

/-- Every key is above `b`, the keys rise strictly and no value is the default. -/
def wfFrom [DecidableEq V] (d : V) (b : Option Nat) : SMap V → Bool
  | [] => true
  | (j, v) :: m =>
    (match b with | none => true | some a => decide (a < j)) && decide (v ≠ d) && wfFrom d (some j) m

/-- The canonical form. -/
def wf [DecidableEq V] (d : V) (m : SMap V) : Bool := wfFrom d none m

end SMap
end Sys2Proof.Machine
end

