-- ==== Sys2Proof/Syntax.lean ====
section
/-! DEFINITION. The instruction set: one constructor of `Instr` per row of spec/opcode_table.json. Operand fields have
the widths of their encodings (04_encoding_and_opcode_map.md R80-R96); the limits that R97 checks at decode stand in
WellFormed.lean. The rows that are events of the part carry, as operands, what the event brings from outside or which
unit, core or entry it acts on. -/

namespace Sys2Proof

/-- Guard fields G and GN (R82). -/
structure Guard where
  g : BitVec 3
  n : Bool
  deriving DecidableEq, Repr

/-- Reg form with three registers and the `.w` bit (R81, R126). -/
structure RegOp where
  gd : Guard
  w : Bool
  d : BitVec 5
  a : BitVec 5
  b : BitVec 5
  deriving DecidableEq, Repr

/-- Reg form with one source and the `.w` bit. -/
structure UnOp where
  gd : Guard
  w : Bool
  d : BitVec 5
  a : BitVec 5
  deriving DecidableEq, Repr

/-- Imm form (R81). -/
structure ImmOp where
  gd : Guard
  d : BitVec 5
  a : BitVec 5
  imm : BitVec 10
  deriving DecidableEq, Repr

/-- Mem form (R84). -/
structure MemOp where
  gd : Guard
  d : BitVec 5
  a : BitVec 5
  imm : BitVec 16
  sc : BitVec 3
  sz : BitVec 3
  cls : BitVec 4
  deriving DecidableEq, Repr

/-- Atomic form (R84). -/
structure AtomOp where
  gd : Guard
  d : BitVec 5
  a : BitVec 5
  b : BitVec 5
  imm : BitVec 7
  op : BitVec 4
  sc : BitVec 3
  sz : BitVec 3
  cls : BitVec 4
  deriving DecidableEq, Repr

/-- Common fields of vector and Press instructions (R87, R91). -/
structure VCom where
  tk : BitVec 3
  stg : BitVec 3
  fl : BitVec 2
  deriving DecidableEq, Repr

/-- Vec form with two sources (R87). -/
structure VBin where
  c : VCom
  m : Bool
  vd : BitVec 5
  va : BitVec 5
  vb : BitVec 5
  deriving DecidableEq, Repr

/-- Vec form with one source. -/
structure VUn where
  c : VCom
  m : Bool
  vd : BitVec 5
  va : BitVec 5
  deriving DecidableEq, Repr

/-- VecLong form of the fused multiply-add family (R168). -/
structure VFma where
  c : VCom
  m : Bool
  vd : BitVec 5
  va : BitVec 5
  vb : BitVec 5
  vc : BitVec 5
  t : BitVec 4
  rm : BitVec 3
  deriving DecidableEq, Repr

/-- VecMem form without an index register (R87). -/
structure VMem where
  c : VCom
  m : Bool
  vd : BitVec 5
  hs : BitVec 2
  cls : BitVec 4
  off : BitVec 11
  deriving DecidableEq, Repr

/-- VecMem form with an index or mask register VB. -/
structure VMemX where
  c : VCom
  m : Bool
  vd : BitVec 5
  hs : BitVec 2
  cls : BitVec 4
  off : BitVec 11
  vb : BitVec 5
  deriving DecidableEq, Repr

/-- VRED and VSCAN fields (R90, R176). -/
structure VFold where
  c : VCom
  m : Bool
  vd : BitVec 5
  va : BitVec 5
  vc : BitVec 5
  t : BitVec 4
  op : BitVec 3
  row : Bool
  bw : BitVec 2
  deriving DecidableEq, Repr

/-- Flags and counters of a hod entry, bytes 1-7 (R93, R94). -/
structure HodHdr where
  sc : BitVec 3
  pk : Bool
  wk : Bool
  pe : Bool
  we : Bool
  wctr : BitVec 8
  pctr : BitVec 8
  wval : BitVec 16
  pamt : BitVec 16
  deriving DecidableEq, Repr

/-- A hod descriptor (R95). -/
structure Desc where
  base : BitVec 52
  fmt : BitVec 5
  rank : BitVec 2
  size0 : BitVec 16
  size1 : BitVec 16
  size2 : BitVec 16
  stride0 : BitVec 24
  stride1 : BitVec 24
  stride2 : BitVec 24
  deriving DecidableEq, Repr

/-- An engine of a core, in the order of 20_sync_counters.md R436. -/
inductive Eng where
  | ve | px | hl | hs
  deriving DecidableEq, Repr

/-- What a hardware error hits (R32, R178, R192, R408): a detection site of the part. -/
inductive ErrorSite where
  /-- a core's work is lost: its restartable bricks are aborted (R32, R40) -/
  | core (core : Nat)
  /-- a register-file parity error that replay cannot clear (R178, R192) -/
  | register (core : Nat) (eng : Option Eng)
  /-- an uncorrectable error in a memory sector, named by a home key of its bytes (R192) -/
  | sector (key : Nat)
  /-- a tile-table entry (R363 card, R192) -/
  | tile (cluster tid : Nat)
  /-- storage of a queue of a core or lookup core, an entry of a cluster's brick queue, or the context table (R192) -/
  | queue (core : Nat)
  | brickQueue (cluster entry : Nat)
  | contextTable (ctx : Nat)
  /-- a region or reuse entry (R408) -/
  | region (ctx rgn : Nat)
  | reuse (ctx entry : Nat)
  /-- an accumulator element's residue no longer matches (R192): slot of a Press, row, column, residue read -/
  | accumulator (cluster slot row col : Nat) (res : BitVec 2)
  /-- a charge bucket (21, R439 card), a burst declaration, a performance counter, a signature half, a signature slot -/
  | bucket (cluster : Nat)
  | burst (core : Nat)
  | perf (cluster k : Nat)
  | signature (core : Nat) (post prv : Bool)
  | sigSlot (home key : Nat)
  | transCache (asid vpn : Nat)
  | trace (cluster slot : Nat)
  /-- an L1 sector or a corrected error of an array class: refetched or written back, only counted (R192) -/
  | l1 (core vsec : Nat)
  | corrected (cluster cls : Nat)
  /-- a register-file parity error that replay clears (R178, 22 R460) -/
  | replay (core : Nat)
  deriving DecidableEq, Repr

/-- A request flit of another module (R356): its source core, group, class and target. -/
structure FlitHdr where
  snode : Nat
  gid : BitVec 12
  score : BitVec 8
  cls : BitVec 4
  port : Nat
  deriving DecidableEq, Repr

/-- A request that arrives on a queue pair, and whether a packet of it carries the ECN mark (16 R350). -/
structure RoceHdr where
  q : Nat
  ecn : Bool
  deriving DecidableEq, Repr, Inhabited

/-- The bytes of a write from another module; with a mask, one byte of which the bits named are merged (09 R211). -/
structure WriteData where
  bytes : List Byte
  mask : Option (BitVec 8)
  deriving DecidableEq, Repr, Inhabited

/-- Operation of an atomic request, and its element type where it is one of VSCA (09 R203, R214). -/
structure AtomicOp where
  op : BitVec 4
  ty : BitVec 4
  deriving DecidableEq, Repr, Inhabited

/-- A failed cluster, whose brick queue storage may have failed too (15 R348). -/
structure ClusterLoss where
  cluster : Nat
  queueLost : Bool
  deriving DecidableEq, Repr, Inhabited

/-- The instructions and events of the Nirdal 7260: the encoded instructions in the order of spec/opcode_table.json,
then the events. -/
inductive Instr where
  -- 16-bit forms (R80, R125)
  | ill (d a : BitVec 5)
  | nop
  | mov (d a : BitVec 5)
  | addC (d a : BitVec 5)
  | subC (d a : BitVec 5)
  | addiC (d i : BitVec 5)
  | liC (d i : BitVec 5)
  | shliC (d i : BitVec 5)
  | shriC (d i : BitVec 5)
  | andC (d a : BitVec 5)
  | orC (d a : BitVec 5)
  | xorC (d a : BitVec 5)
  | brs (r : BitVec 10)
  | brp (k : BitVec 3) (r : BitVec 5)
  | retC
  -- 32-bit forms (R81, R83)
  | add (o : RegOp) | sub (o : RegOp) | and (o : RegOp) | or (o : RegOp) | xor (o : RegOp) | andn (o : RegOp)
  | shl (o : RegOp) | shr (o : RegOp) | sra (o : RegOp) | rol (o : RegOp)
  | min (o : RegOp) | max (o : RegOp) | minz (o : RegOp) | maxz (o : RegOp) | absd (o : RegOp)
  | mul (o : RegOp) | mulh (o : RegOp) | mulhz (o : RegOp)
  | div (o : RegOp) | divz (o : RegOp) | rem (o : RegOp) | remz (o : RegOp)
  | clz (o : UnOp) | ctz (o : UnOp) | popc (o : UnOp) | brev (o : UnOp) | bswap (o : UnOp)
  | addi (o : ImmOp) | andi (o : ImmOp) | ori (o : ImmOp) | xori (o : ImmOp)
  | shli (o : ImmOp) | shri (o : ImmOp) | srai (o : ImmOp) | muli (o : ImmOp)
  | lea (gd : Guard) (d a b : BitVec 5) (sh : BitVec 4)
  | cmp (gd : Guard) (w : Bool) (p : BitVec 3) (a b : BitVec 5) (c : BitVec 4)
  | cmpi (gd : Guard) (p : BitVec 3) (a : BitVec 5) (imm : BitVec 6) (c : BitVec 4)
  | pand (gd : Guard) (d a b : BitVec 3)
  | por (gd : Guard) (d a b : BitVec 3)
  | pxor (gd : Guard) (d a b : BitVec 3)
  | pandn (gd : Guard) (d a b : BitVec 3)
  | pnot (gd : Guard) (d a : BitVec 3)
  | pmov (gd : Guard) (d a : BitVec 3)
  | pset (gd : Guard) (d : BitVec 3)
  | pclr (gd : Guard) (d : BitVec 3)
  | pget (gd : Guard) (d : BitVec 5)
  | pput (gd : Guard) (a : BitVec 5)
  | br (gd : Guard) (r : BitVec 16) (hint : Bool)
  | call (gd : Guard) (r : BitVec 16)
  | jmp (gd : Guard) (a : BitVec 5)
  | callr (gd : Guard) (a : BitVec 5)
  | ret (gd : Guard)
  | push (gd : Guard) (q : Bool) (a : BitVec 5)
  | pop (gd : Guard) (x : Bool) (b : BitVec 3) (d : BitVec 5) (f : BitVec 4)
  | semp (gd : Guard) (n : BitVec 6) (a : BitVec 5)
  | semw (gd : Guard) (n : BitVec 6) (a : BitVec 5)
  | mark (gd : Guard) (d : BitVec 5) (e : BitVec 2)
  | markWait (gd : Guard) (a : BitVec 5) (e : BitVec 2)
  | rdvw (gd : Guard) (d a : BitVec 5) (k : BitVec 3)
  | bpop (gd : Guard) (d : BitVec 5)
  | bget (gd : Guard) (d a : BitVec 5) (f : BitVec 4)
  | bdone (gd : Guard) (a : BitVec 5)
  | lease (gd : Guard)
  | unlease (gd : Guard)
  | leaseq (gd : Guard) (d : BitVec 5)
  | exit (gd : Guard)
  | exitA (gd : Guard)
  | trap (gd : Guard) (n : BitVec 10)
  | eret (gd : Guard)
  | drain (gd : Guard) (m : BitVec 4)
  -- 48-bit control-core forms (R84, R85)
  | ld (o : MemOp)
  | st (o : MemOp)
  | amo (o : AtomOp)
  | fence (gd : Guard) (sc : BitVec 3) (mask : BitVec 16)
  | strel (o : MemOp)
  | ldacq (o : MemOp)
  | waitaddr (o : MemOp)
  | li (gd : Guard) (d : BitVec 5) (imm : BitVec 27)
  | lih (gd : Guard) (d : BitVec 5) (imm : BitVec 27)
  | brl (gd : Guard) (r : BitVec 32) (hint : Bool)
  | addpc (gd : Guard) (d : BitVec 5) (imm : BitVec 27)
  | bfx (gd : Guard) (d a : BitVec 5) (pos len : BitVec 6)
  | bfxs (gd : Guard) (d a : BitVec 5) (pos len : BitVec 6)
  | bfi (gd : Guard) (d a : BitVec 5) (pos len : BitVec 6)
  | csrr (gd : Guard) (d : BitVec 5) (n : BitVec 12)
  | csrw (gd : Guard) (a : BitVec 5) (n : BitVec 12)
  | csrx (gd : Guard) (d a : BitVec 5) (n : BitVec 12)
  | csrs (gd : Guard) (d a : BitVec 5) (n : BitVec 12)
  | csrc (gd : Guard) (d a : BitVec 5) (n : BitVec 12)
  | tlbinvRange (gd : Guard) (a b : BitVec 5) (n : BitVec 16)
  | tlbinvAsid (gd : Guard) (b : BitVec 5)
  | tlbinvAll (gd : Guard)
  | hmk (gd : Guard) (d : BitVec 4) (a : BitVec 5) (fmt : BitVec 5) (rank : BitVec 3) (cls : BitVec 4) (scaled : Bool)
  | hset (gd : Guard) (d : BitVec 4) (sel : BitVec 4) (a : BitVec 5)
  | hget (gd : Guard) (d : BitVec 5) (a : BitVec 4) (sel : BitVec 4)
  | hadv (gd : Guard) (d a : BitVec 4) (b : BitVec 5) (dim : BitVec 2)
  | hsub (gd : Guard) (d a : BitVec 4) (b : BitVec 5)
  | hmov (gd : Guard) (d a : BitVec 4)
  | hld (gd : Guard) (d : BitVec 4) (a : BitVec 5) (imm : BitVec 16) (cls : BitVec 4)
  | hst (gd : Guard) (d : BitVec 4) (a : BitVec 5) (imm : BitVec 16) (cls : BitVec 4)
  | kickVe (gd : Guard) (d : BitVec 4) (a : BitVec 5) (nb : BitVec 10) (n : BitVec 3)
  | kickPx (gd : Guard) (d : BitVec 4) (a : BitVec 5) (nb : BitVec 10) (n : BitVec 3)
  | kickHl (gd : Guard) (a : BitVec 5) (push pop : BitVec 4)
  | kickHs (gd : Guard) (a : BitVec 5) (push pop : BitVec 4)
  | nest (gd : Guard) (px : Bool) (a b : BitVec 5) (lvl : BitVec 3)
  | link (gd : Guard) (hs : Bool) (a b : BitVec 5)
  | scmdPmmg (gd : Guard) (d a b : BitVec 4) (carry : Bool) (s : BitVec 4) (e : BitVec 10)
  | scmdLk (gd : Guard) (a b : BitVec 5) (rid : BitVec 8)
  | obsub (gd : Guard) (d a : BitVec 5)
  | seqstart (gd : Guard) (d a b : BitVec 5) (step : Bool)
  | seqstop (gd : Guard) (d : BitVec 5)
  | seqwait (gd : Guard) (d : BitVec 5)
  | seqstep (gd : Guard) (d a : BitVec 5)
  | rgndef (gd : Guard) (d a b : BitVec 5)
  | rgnrd (gd : Guard) (d b : BitVec 5) (sel : BitVec 4)
  | rgnclr (gd : Guard) (d b : BitVec 5) (undef : Bool)
  | reuseq (gd : Guard) (d a : BitVec 5) (sel : BitVec 4)
  | reuseforce (gd : Guard) (d a : BitVec 5) (all : Bool)
  | reuseset (gd : Guard) (d a b : BitVec 5) (smax : BitVec 8) (resid rst : Bool)
  | fqpop (gd : Guard) (d a : BitVec 5)
  | fqresume (gd : Guard) (d a : BitVec 5)
  | fqdrop (gd : Guard) (d a : BitVec 5)
  | rdvset (gd : Guard) (d a : BitVec 5) (k : BitVec 3)
  | semrd (gd : Guard) (d : BitVec 5) (kind : BitVec 2) (n : BitVec 8)
  | semset (gd : Guard) (d a : BitVec 5) (kind : BitVec 2) (n : BitVec 8)
  | scw (gd : Guard) (d a : BitVec 5) (sc : BitVec 3) (c : BitVec 8)
  | scp (gd : Guard) (a b : BitVec 5) (sc : BitVec 3) (c : BitVec 8)
  | phase (gd : Guard) (a b : BitVec 5) (i : BitVec 4)
  | pace (gd : Guard) (d a : BitVec 5) (mask : BitVec 4)
  | quota (gd : Guard) (d : BitVec 5) (sel : BitVec 2)
  -- lookup cores (R306, R309)
  | popJob (gd : Guard) (x : Bool) (b : BitVec 3) (d : BitVec 5)
  | pushDone (gd : Guard) (a : BitVec 5)
  | lkaq (gd : Guard) (d : BitVec 5) (a : BitVec 4) (b : BitVec 5) (pois : Bool) (n : BitVec 13)
  | lkaqOne (gd : Guard) (d : BitVec 5) (a : BitVec 4) (b : BitVec 5) (pois : Bool)
  | lkdq (gd : Guard) (d : BitVec 5)
  | lkddp (gd : Guard) (d a b : BitVec 5) (n : BitVec 13)
  | lkpool (gd : Guard) (b : BitVec 5) (bag : BitVec 4) (bf one clr : Bool)
  | lkput (gd : Guard) (a : BitVec 4) (rm : BitVec 4) (bag : BitVec 4)
  | lkputRow (gd : Guard) (a : BitVec 4) (rm : BitVec 4)
  | kbag (gd : Guard) (a : BitVec 5) (rid : BitVec 8)
  -- vector engine (R88, R89)
  | vadd (o : VBin) | vsub (o : VBin) | vmul (o : VBin) | vmin (o : VBin) | vmax (o : VBin)
  | vminz (o : VBin) | vmaxz (o : VBin) | vabs (o : VUn) | vneg (o : VUn)
  | vaddsat (o : VBin) | vsubsat (o : VBin) | vand (o : VBin) | vor (o : VBin) | vxor (o : VBin)
  | vshl (o : VBin) | vshr (o : VBin) | vsra (o : VBin) | vclz (o : VUn) | vpopc (o : VUn)
  | vrcp (o : VUn) | vrsq (o : VUn) | vsqrt (o : VUn) | vex2 (o : VUn) | vlg2 (o : VUn)
  | vsinp (o : VUn) | vcosp (o : VUn) | vsig (o : VUn) | verf (o : VUn)
  | vmov (o : VUn)
  | vsel (c : VCom) (vd va vb : BitVec 5)
  | vtrn (c : VCom) (vd va : BitVec 5)
  | vperm (o : VBin)
  | vbcl (c : VCom) (m : Bool) (vd : BitVec 5) (k : BitVec 4)
  | vbcs (c : VCom) (m : Bool) (vd : BitVec 5)
  | mpop (c : VCom)
  | minv (c : VCom)
  | mset (c : VCom) (va : BitVec 5)
  | mget (c : VCom) (vd : BitVec 5)
  | vbrz (c : VCom) (count : BitVec 5)
  | vext (c : VCom) (va : BitVec 5) (idx : BitVec 10)
  | vdiv (o : VBin)
  | vfma (o : VFma) | vfms (o : VFma) | vfnma (o : VFma)
  | vcmp (c : VCom) (va vb : BitVec 5) (t cond : BitVec 4)
  | vcvt (c : VCom) (m : Bool) (vd va : BitVec 5) (noo : Bool) (t s : BitVec 4) (rm : BitVec 3)
  | vfsh (c : VCom) (m : Bool) (vd va vb vc : BitVec 5) (t : BitVec 4) (left : Bool)
  | vred (o : VFold)
  | vscan (o : VFold)
  | vshape (c : VCom) (t : BitVec 4) (imm : BitVec 15)
  | vqblk (c : VCom) (vd va vc : BitVec 5) (t s : BitVec 4) (rm : BitVec 3)
  | viota (c : VCom) (m : Bool) (vd : BitVec 5) (t : BitVec 4) (kind : BitVec 2)
  | vli (c : VCom) (m : Bool) (vd : BitVec 5) (imm : BitVec 16)
  | vsprSet (c : VCom) (en val : BitVec 7)
  | vsprShift (c : VCom) (b : Bool)
  | vrrbSet (c : VCom) (n : BitVec 4)
  | vrrbAdd (c : VCom) (n : BitVec 4)
  | vld (o : VMem) | vst (o : VMem) | vldu (o : VMem) | vstb (o : VMemX) | vgth (o : VMemX) | vsct (o : VMemX)
  | vsca (o : VMemX) | vldl (o : VMemX) | vstl (o : VMemX)
  | vlda (c : VCom) (m : Bool) (vd : BitVec 5) (s : BitVec 4) (row0 : BitVec 7) (col : BitVec 2)
  | blk (lvl : BitVec 3) (len : BitVec 10) (await raise : BitVec 6) (rep : BitVec 10)
  -- Press (R91)
  | pmm (c : VCom) (slot : BitVec 4) (ha hb : BitVec 2) (carry : Bool) (e : BitVec 10)
  | pmmg (c : VCom) (slot : BitVec 4) (ha hb hc : BitVec 2) (carry : Bool) (e : BitVec 10)
  | pres (c : VCom) (slot : BitVec 4) (hc : BitVec 2) (rm : BitVec 3) (noo ovn : Bool) (p : BitVec 10)
  | prel (c : VCom) (slot : BitVec 4)
  | pstr (c : VCom) (slot : BitVec 4) (hc : BitVec 2)
  | pldr (c : VCom) (slot : BitVec 4) (hc : BitVec 2) (carry : Bool) (e : BitVec 10)
  | pscl (c : VCom) (slot : BitVec 4) (d : BitVec 10)
  | padd (c : VCom) (slot : BitVec 4) (src : BitVec 4) (carry : Bool) (e : BitVec 10)
  -- hod entries (R93-R96, R295)
  | hcpy (h : HodHdr) (src dst : Desc) (rm : BitVec 3) (stile dtile : BitVec 12)
  | hcpyd (h : HodHdr) (src dst : Desc) (rm : BitVec 3) (stile dtile : BitVec 12) (rgn : BitVec 10)
  | hmcs (h : HodHdr) (key dst : Desc) (rm : BitVec 3) (dtile : BitVec 12)
  | hmsrc (h : HodHdr) (src : Desc) (count : BitVec 52) (stile : BitVec 12)
  | hfill (h : HodHdr) (pattern : BitVec 52) (dst : Desc) (dtile : BitVec 12)
  | hgath (h : HodHdr) (table dst : Desc) (rm : BitVec 3) (stile dtile : BitVec 12)
  | hhalo (h : HodHdr) (src dst : Desc) (rm : BitVec 3) (stile : BitVec 12) (rgn : BitVec 10)
  | hwait (h : HodHdr)
  | hpost (h : HodHdr) (target : Option (BitVec 52))
  | hlink (h : HodHdr) (next : BitVec 52)
  | htile (h : HodHdr) (event : BitVec 52) (dtile : BitVec 12)
  | hend (h : HodHdr)
  -- waits that run out, and the Press at an instruction boundary (R207, R429, R280)
  /-- the wait.limit of the WAITADDR a core is in runs out -/
  | waitaddrTimeout (core : Nat)
  /-- the wait.limit of the SCW a core is in runs out -/
  | scwTimeout (core : Nat)
  | gatheredCommand (cluster : Nat)
  -- micro-steps of engines (R270-R275, R291-R293, R432)
  | hodChainStart (core : Nat) (hs : Bool)
  | hodPost (core : Nat) (hs : Bool)
  | engineDequeue (core : Nat) (px : Bool)
  | blockRaise (core : Nat) (px : Bool)
  | tokenPush (core : Nat) (e : Eng)
  | pacingGapExpiry (core : Nat) (e : Eng)
  | markerComplete (core : Nat) (e : Eng)
  -- memory and posts
  | storeAck (core : Nat)
  | postApply (i : Nat)
  -- Press lease, bricks, Mason
  | leaseRelease (cluster : Nat)
  | brickRetire (core : Nat) (tag : BitVec 3)
  | dependencyZero (ctx graph ob : Nat)
  | brickPlacement (cluster : Nat)
  | dispatchSelection (core : Nat)
  | idleCoreStart (core : Nat)
  | stepBoundary (seq : Nat)
  | rendezvousTimeout (seq : Nat)
  | regionDelivery (i : Nat)
  | brickOverrun (core : Nat) (tag : BitVec 3)
  | contextSuspended (ctx : Nat)
  -- commands of system software
  | create (ctx : Nat)
  | suspend (ctx : Nat)
  | resume (ctx : Nat)
  | destroy (ctx : Nat)
  | launchObsub (ctx : Nat)
  | launchSeqstart (ctx : Nat) (n : BitVec 20) (stepped : Bool)
  | launchSeqstop (ctx : Nat)
  | launchSeqstep (ctx : Nat)
  | preemptionGo (ctx : Nat)
  | hardPreemption (ctx : Nat)
  | lookupAssign (k : Nat) (v : BitVec 32)
  -- lookup rows and bags
  | rowFetchIssue (k : Nat)
  | rowArrival (k : Nat) (i : Nat)
  | kbagReply (k : Nat)
  -- tables and module registers
  | capacityDirectoryWrite (t : Nat) (hi : Bool) (v : BitVec 64)
  | queuePairWrite (q : Nat) (hi : Bool) (v : BitVec 64)
  | weightCommit (cluster : Nat)
  | quotaGrant (ctx : Nat) (g : BitVec 64)
  | watchdogPet
  | fallbackForce
  | watchdogExpiry
  | registerWrite (pa : Nat) (wide : Bool) (v : BitVec 64)
  | checkpoint
  | checkpointComplete
  | restore
  /-- power on; the management controller applies its set-up (BringUp of State.lean) -/
  | powerOnReset
  | moduleReset
  | firmwareRecovery (image sig : List Byte)
  | attestationReport (nonce : BitVec 256)
  | hofLoad (ctx : Nat) (file : List Byte)
  | spareTakeover (c : ClusterLoss)
  -- power and time
  | refillBoundary
  | clampEnd (cluster : Nat)
  | burstDeclarationExpiry (core : Nat)
  | thermalTrip
  | thermalTripEnd
  | signatureRotation
  | l1SectorExpiry (core : Nat) (vsec : Nat)
  | signatureSlotExpiry (home : Nat) (key : Nat)
  | scrub (key : Nat) (corrected : Bool)
  -- mortar links (R356-R363)
  | flitRead (h : FlitHdr) (pa n : Nat)
  /-- a write: its bytes, the signature a release carries, whether they come from a poisoned sector (R193, R252) -/
  | flitWrite (h : FlitHdr) (pa : Nat) (data : WriteData) (sig : Option Sig) (poison : Bool)
  /-- an atomic of n bytes: operation and element type, operands (09 R203, R214) -/
  | flitAtomic (h : FlitHdr) (pa : Nat) (n : BitVec 4) (op : AtomicOp) (b e : BitVec 64)
  /-- response to the i-th access outstanding: data, signature of the sector's slot at its home (none: full window, R254), and
  0 performed, 1 refused (R355), 2 performed with poisoned data (R193), 3 and 4 a halo outside its region or over a poisoned
  old value (R404, R193) -/
  | flitResponse (i : Nat) (data : List Byte) (sig : Option Sig) (st : BitVec 3)
  | postFlit (h : FlitHdr) (core ctr : Nat) (amount : BitVec 32) (sig : Sig) (mark : Option (BitVec 10))
  /-- n consecutive elements from bit `off` of the byte at pa, whose virtual address is va; without data only the region's checks
  are asked for (13 R296) -/
  | haloFlit (h : FlitHdr) (pa : Nat) (va : BitVec 52) (off : BitVec 3) (fmt : BitVec 5) (n : Nat) (data : List Byte)
      (rgn : BitVec 10) (poison : Bool)
  | rendezvousFlit (h : FlitHdr) (seq : Nat) (step : BitVec 32) (answer : Bool)
  | timeFlit (port : Nat) (master : BitVec 64)
  | linkControlFlit (port : Nat) (arg : BitVec 32)
  | flitReservedType (port : Nat) (type : BitVec 4)
  | flitReplay (port : Nat) (lseq : BitVec 14)
  | laneSparing (port lane : Nat)
  | nodeUnreachable (node : Nat)
  | timeOutOfBound
  -- RoCEv2 (R350-R354)
  | rdmaWrite (h : RoceHdr) (rkey : BitVec 32) (addr : BitVec 52) (data : List Byte)
  | rdmaWriteWithImmediate (h : RoceHdr) (rkey : BitVec 32) (addr : BitVec 52) (data : List Byte) (imm : BitVec 32)
  | rdmaRead (h : RoceHdr) (rkey : BitVec 32) (addr : BitVec 52) (n : Nat)
  | send (h : RoceHdr) (data : List Byte)
  | sendWithImmediate (h : RoceHdr) (data : List Byte) (imm : BitVec 32)
  | fetchAdd (h : RoceHdr) (rkey : BitVec 32) (addr : BitVec 52) (v : BitVec 64)
  | compareSwap (h : RoceHdr) (rkey : BitVec 32) (addr : BitVec 52) (cmp new : BitVec 64)
  | invalidRequest (h : RoceHdr)
  | roceAcknowledgement (q : Nat)
  | rdmaReadResponse (q : Nat) (data : List Byte)
  -- errors and management
  | hardwareError (site : ErrorSite)
  | powerLoss
  | firmwareUpdate (image sig : List Byte) (keys : Option (List (Option (BitVec 768))))
  | requesterError (q : Nat)
  | priorityFlowControl (port prio : Nat) (pause : Bool)
  | congestionNotification (q : Nat)
  | healthStoreFlush
  | ageingMonitor (cluster : Nat) (ppm : BitVec 16) (eol : BitVec 32)
  deriving DecidableEq, Repr

end Sys2Proof
end

