-- ==== Sys2Proof/Machine/State.lean ====
section
/-! DEFINITION. The state of one module: everything the spec names, as plain data. Tables and register files are sparse
tables (SMap) whose unlisted entries read as the reset value of their state card. INVENTORY.md lists every field with
its rule. Fields marked OWN are the model's: the agenda of turns, the actor, the counter that the free values are read
with, the messages the module has sent. -/

namespace Sys2Proof.Machine

/-- A unit that takes turns. `cc p`: p 0-255 is the control core of that global number, 256-271 lookup core p - 256. -/
inductive Agent where
  | cc (p : Nat)
  | ve (core : Nat)
  | px (cluster : Nat)
  | hod (core : Nat) (hs : Bool)
  deriving DecidableEq, Repr, Inhabited

/-- What the management controller sets at bring-up: SAFESZ (08 R191), NODE (16 R355), path MTU (0 1,024, 1 2,048, 2 4,096 bytes)
and whether the host ports run as two 400 Gb/s ports each (16 R350). -/
structure BringUp where
  safesz : BitVec 9
  node : BitVec 10
  mtu : BitVec 2
  split : Bool
  deriving DecidableEq, Repr, Inhabited

/-- What one step does (OWN, log 1): a unit's turn, an event of the opcode table, or time passing. -/
inductive Act where
  | turn (u : Agent)
  | event (i : Instr)
  | tick (ns : Nat)
  /-- a core fetches a parcel ahead of its execution (04 R78) -/
  | ahead (core va : Nat)
  /-- the outside sets the management controller up for the next bring-up (28 R480) -/
  | setUp (b : BringUp)
  deriving DecidableEq, Repr, Inhabited

/-! ## Cores -/

/-- Control-core registers (06 R110-R124); one live set per core, one saved set per context. -/
structure CCRegs where
  /-- s1-s31; s0 reads as zero (R110) -/
  s : SMap Word
  /-- p7-p0, bit 0 is p0 and reads as one (R110) -/
  p : BitVec 8
  h : SMap Handle
  pc : Word
  status : Word
  cause : Word
  epc : Word
  faddr : Word
  tvec : Word
  escratch : Word
  /-- ctx.mode.MODE: 1 is SYS (R121) -/
  sys : Bool
  /-- ctx.savemode.RSV -/
  rsv : Bool
  rm : BitVec 3
  seed : Word
  limit : Word
  rowprog : Word
  /-- GAP of pace.ve, pace.hl, pace.hs, pace.px at keys 0-3 (R122) -/
  pace : SMap (BitVec 16)
  /-- bank.fmt0-bank.fmt23 -/
  fmt : SMap (BitVec 5)
  /-- parcels fetched ahead of their execution since the last control transfer, by address (04 R78) -/
  ahead : SMap (Option (BitVec 16))
  deriving DecidableEq, Repr

def CCRegs.reset : CCRegs := ⟨[], 1, [], 0, 0, 0, 0, 0, 0, 0, false, false, 0, 0, 0, 0, [], [], []⟩

/-- A control transfer drops what was fetched ahead (04 R78). -/
def CCRegs.transfer (r : CCRegs) : CCRegs := { r with ahead := [] }

/-- One level of nest registers (12 R272). -/
structure Nest where
  bound : BitVec 17
  strides : BitVec 64
  deriving DecidableEq, Repr

def Nest.reset : Nest := ⟨1, 0⟩

/-- Vector-engine registers, Press handle slots, ring descriptors and nest registers (07, 10, 12 R269, R272). -/
structure VERegs where
  v : SMap VReg
  vsh : BitVec 32
  rrb : BitVec 4
  /-- mask-stack entries 1-15; entry 0 is all ones (R158) -/
  mask : SMap (BitVec 1024)
  depth : BitVec 5
  sp : BitVec 7
  vh : SMap Handle
  ph : SMap Handle
  vring : BitVec 32
  pring : BitVec 32
  /-- nest registers by level, of the VE and of the Press -/
  vnest : SMap Nest
  pnest : SMap Nest
  deriving DecidableEq, Repr

def VERegs.reset : VERegs := ⟨[], 0x00061FC0, 0, [], 1, 0x7F, [], [], 0, 0, [], []⟩

/-- A rendezvous register with its hidden signature (20 R433). -/
structure Rdv where
  gen : BitVec 16
  cnt : BitVec 9
  exp : BitVec 9
  sig : Sig
  deriving DecidableEq, Repr

def Rdv.reset : Rdv := ⟨0, 0, 0, 0⟩

/-- Marker counters MI and MC of one engine queue (20 R432). -/
structure Marker where
  mi : BitVec 32
  mc : BitVec 32
  deriving DecidableEq, Repr

def Marker.reset : Marker := ⟨0, 0⟩

/-- The arrival of an RDVW in progress (20 R435, R438), and the signature delivered once its generation completes. -/
structure Arrival where
  host : Nat
  k : Nat
  gen : BitVec 16
  sig : Option Sig
  deriving DecidableEq, Repr

/-- Semaphores (key 0-63, SAT in bit 16), slot counters, rendezvous registers, marker counters (key 0-3: VE, Press,
HL, HS), and the arrival of an RDVW in progress (20). -/
structure Sync where
  sem : SMap (BitVec 17)
  sc : SMap (BitVec 32)
  rdv : SMap Rdv
  mark : SMap Marker
  arrival : Option Arrival
  deriving DecidableEq, Repr

def Sync.reset : Sync := ⟨[], [], [], [], none⟩

/-- What a core holds of one context and a context save keeps (15 R345). -/
structure Image where
  cc : CCRegs
  ve : VERegs
  sync : Sync
  deriving DecidableEq, Repr

def Image.reset : Image := ⟨CCRegs.reset, VERegs.reset, Sync.reset⟩

/-- A brick queue entry (12 R281). -/
structure Brick where
  egts : Word
  coord : BitVec 96
  eidx : BitVec 24
  obn : BitVec 16
  ctx : BitVec 4
  prio : BitVec 3
  rst : Bool
  nslot : BitVec 4
  maxd : BitVec 8
  /-- window address of its graph's OB table and of the OB that runs, number of the OB it counts for (18 R388, R390) -/
  graph : Nat
  ob : Nat
  primary : Nat
  /-- the signature BPOP acquires (11 R261) -/
  sig : Sig
  deriving DecidableEq, Repr

/-- States of a brick register (R281, R32). -/
inductive BrickState where
  | running | retiring
  /-- parked, with its tag not yet freed (R32) -/
  | parked
  deriving DecidableEq, Repr

/-- A brick register of a core (R281): ST, PM, and what the device keeps beside it. -/
structure BrickReg where
  b : Brick
  st : BrickState
  pm : Bool
  /-- accumulator slots still reserved for it (10 R222) -/
  resv : Nat
  /-- GTS of the BPOP that took it, and whether its overrun has been counted (R39) -/
  since : Word
  traced : Bool
  /-- regions named by HCPYD or HHALO entries whose body has begun (19 R407) -/
  regions : List Nat
  /-- an HHALO's remote regions: destination node and region -/
  halos : List (Nat × Nat)
  deriving DecidableEq, Repr

/-- Values captured at a push (06 R123), with the pushing core, its context and the brick tag (R31). -/
structure Capture where
  core : Nat
  ctx : Nat
  tag : BitVec 3
  rm : BitVec 3
  seed : Word
  fmt : SMap (BitVec 5)
  deriving DecidableEq, Repr

/-- Commands of the engine queues (12 R270, R272, R286; 20 R432). -/
inductive Cmd where
  | kick (c : Capture) (entry nb : Nat) (hs : List Handle)
  | nest (c : Capture) (lvl : Nat) (n : Nest)
  | chain (c : Capture) (addr : Nat) (qpop qpush : Option Nat)
  /-- a marker; gathered commands of the core with a number below `g` were pushed before it (20 R432) -/
  | marker (g : Nat)
  /-- release point of UNLEASE, `g` as for a marker (12 R286) -/
  | release (g : Nat)
  deriving DecidableEq, Repr

/-- Bank formats as a command finds them when it starts (08 R196, 17 R378): the bank format table, and the bank.fmt
registers of every core for the command's context. -/
structure Formats where
  table : SMap (BitVec 5)
  cores : SMap (SMap (BitVec 5))
  deriving DecidableEq, Repr

def Formats.reset : Formats := ⟨[], []⟩

/-- A gathered command (12 R279). -/
structure Gathered where
  /-- its number among the pushes into the Press's gathered queue -/
  no : Nat
  cap : Capture
  /-- bank formats as it started (08 R196, 17 R378) -/
  fmts : Option Formats
  carry : Bool
  slot : Nat
  e : BitVec 10
  a : Handle
  b : Handle
  list : Handle
  deriving DecidableEq, Repr

/-- How far the instruction at the head of an engine has come: nothing, waiting for charge in the cluster's order,
dequeued and paid (12 R275, 21 R442). -/
inductive Phase where
  | fresh | charging | paid
  deriving DecidableEq, Repr

/-- A block being run (12 R273): header, body copy, position of the next parcel, iteration number, slot bases. -/
structure Block where
  lvl : Nat
  rep : Nat
  raise : Nat
  /-- none: a poisoned parcel -/
  body : List (Option Parcel)
  /-- parcel offset in the ring of the body's first parcel -/
  start : Nat
  pos : Nat
  it : Nat
  dims : List Nat
  bases : List (BitVec 52)
  skip : Nat
  deriving DecidableEq, Repr

/-- The block sequencer of a VE or of a core's Press stream (12 R270-R275). -/
structure Sequencer where
  cap : Option Capture
  /-- TK descriptors 1-7 of the command's stream record; none when no record is selected (R271) -/
  tks : Option (List (BitVec 16))
  fmts : Formats
  pc : Nat
  blocks : Nat
  block : Option Block
  phase : Phase
  /-- the token that the instruction at the head has popped, and its queue (R268) -/
  popped : Option (BitVec 16 × Nat)
  /-- token queue owed a push (R268), and semaphore owed a raise (R273) -/
  push : Option Nat
  raise : Option Nat
  /-- stopped on a page fault: SEQ of the record (15 R332) -/
  stop : Option (BitVec 32)
  /-- GTS of the previous dequeue (R275) -/
  last : Option Word
  /-- gathered command that the Press runs before the next instruction of the stream (R280); phase and stop are its own -/
  serving : Option Gathered
  /-- row groups that the Press instruction at the head has completed (10 R245), and the slot it has begun to write -/
  rows : Nat
  writing : Option Nat
  /-- the instruction at the head, outside a block: read once, as it starts (04 R79) -/
  word : Option (BitVec 48)
  /-- DETAIL of a record about the instruction at the head (15 R336) -/
  note : BitVec 24
  /-- the instruction at the head was resumed after a stop, so that px.rowprog.V clears when it completes (10 R245) -/
  resumed : Bool
  deriving DecidableEq, Repr

def Sequencer.reset : Sequencer :=
  ⟨none, none, Formats.reset, 0, 0, none, .fresh, none, none, none, none, none, none, 0, none, none, 0, false⟩

/-- Phases of a hod entry (13 R291). -/
inductive HodPhase where
  /-- the chain start's token pop is still to come (12 R270) -/
  | token
  /-- at an entry; the entry's Wait, STILE wait and body follow -/
  | entry
  /-- Wait and STILE wait done; the DTILE claim and the rest of the body follow -/
  | body
  /-- body done: the post follows -/
  | post
  /-- the last entry is done: the token push of the chain follows -/
  | finish
  deriving DecidableEq, Repr

/-- Hod chain state (13 card). -/
structure Hod where
  cap : Option Capture
  addr : Nat
  /-- the entry as read, once (R93), an HGATH's index slot (R298), and the bank formats as the entry started (08 R196) -/
  entry : Option (BitVec 512)
  islot : Option (BitVec 512)
  fmts : Option Formats
  waitdone : Bool
  hphase : HodPhase
  phase : Phase
  qpop : Option Nat
  qpush : Option Nat
  /-- the post owed after the body (R293): its header, target core and node -/
  post : Option (HodHdr × Nat × Option Nat)
  /-- the FILLING claim made, whose READY is owed with the post (R295): tile cluster and id -/
  tile : Option (Nat × Nat)
  /-- the delivery owed with the post (R296): region, D, Nw -/
  delta : Option (Nat × Nat × Nat)
  /-- an HMSRC has taken its subscribers (R297) -/
  served : Bool
  /-- next entry after the post; none ends the chain -/
  next : Option Nat
  stop : Option (BitVec 32)
  last : Option Word
  deriving DecidableEq, Repr

def Hod.reset : Hod :=
  ⟨none, 0, none, none, none, false, .entry, .fresh, none, none, none, none, none, false, none, none, none⟩

/-- A waiter of a semaphore of the core (20 R426): the CC or an engine, in the order the waits began. -/
structure SemWaiter where
  sem : Nat
  /-- none: the control core in SEMW; else an engine with its core, which differs for a chain of a LINK -/
  who : Option (Nat × Eng)
  amount : Nat
  granted : Bool
  deriving DecidableEq, Repr

/-- Memory kinds (08 R186, 09 R200, 17 R372). -/
inductive MKind where
  | window | hbm | capacity | host | remote | mmio
  deriving DecidableEq, Repr

/-- A sector held by the L1 (08 R186): its data, physical sector number (11 R251), GTS of fill, and the memory kind and
physical address that translation returned at the fill; `stale`: the core has stored to the sector through another virtual
address since, so that the next acquire drops this copy (R187). -/
structure L1Sector where
  data : BitVec 1024
  x : Nat
  fill : Word
  kind : MKind
  peer : Nat
  pa : Nat
  stale : Bool
  deriving DecidableEq, Repr

/-- What a core does (02 R486, 12 R289, 15 R332). -/
inductive RunState where
  | idle
  | running (ctx : Nat)
  /-- stopped on a page fault, SEQ of the record -/
  | stopped (ctx : Nat) (seq : BitVec 32)
  /-- EXIT or EXIT.A waits for its queues and bricks -/
  | exiting (ctx : Nat)
  /-- aborted by a hard pre-emption; the save waits for the core's accesses (15 R343, R346) -/
  | aborted (ctx : Nat)
  deriving DecidableEq, Repr

/-- A declared burst (21 R444). -/
structure Burst where
  onset : Nat
  stop : Nat
  i : Nat
  ctx : Nat
  start : Nat
  deriving DecidableEq, Repr

/-- An element of a scalar or reply queue with its producer's signature (11 R261). -/
structure Elem64 where
  v : Word
  sig : Sig
  deriving DecidableEq, Repr

/-- The answer to a remote access: its bytes, the signature of the sector's slot at its home (none: the home's full window
is open, 11 R254), and whether the sector is poisoned there (08 R193). -/
structure Answer where
  data : List Byte
  sig : Option Sig
  poison : Bool
  deriving DecidableEq, Repr

/-- Signatures and caches of a core (11 R249-R251, 08 R186). -/
structure Coh where
  wsCur : Sig
  wsPrv : Sig
  psCur : Sig
  psPrv : Sig
  /-- sector numbers of stores whose acknowledgement has not returned, oldest first (R250) -/
  acks : List Nat
  /-- L1 sectors by ASID * 2^45 + VA[51:7] -/
  l1 : SMap (Option L1Sector)
  /-- accesses to other modules and the host of a unit's instruction in progress (none the CC): access tag and the
  answer, none when the owner refused it (R355, R356) -/
  rbuf : List (Option Eng × Nat × Option Answer)
  deriving DecidableEq, Repr

def Coh.reset : Coh := ⟨0, 0, 0, 0, [], [], []⟩

/-- Queues of a core (12). -/
structure Queues where
  veq : List Cmd
  pxq : List Cmd
  hlq : List Cmd
  hsq : List Cmd
  toVe : List Elem64
  toCc : List Elem64
  reply : List Elem64
  tq : SMap (List (BitVec 16))
  deriving DecidableEq, Repr

def Queues.reset : Queues := ⟨[], [], [], [], [], [], [], []⟩

/-- Engines of a core. -/
structure Engines where
  ve : Sequencer
  px : Sequencer
  hl : Hod
  hs : Hod
  deriving DecidableEq, Repr

def Engines.reset : Engines := ⟨Sequencer.reset, Sequencer.reset, Hod.reset, Hod.reset⟩

/-- A WAITADDR or SCW in progress (09 R207, 20 R429): t0, an SCW's destination and counter, a WAITADDR's operands. -/
structure Waiting where
  since : Word
  scw : Option (BitVec 5 × BitVec 8)
  op : Option MemOp
  deriving DecidableEq, Repr

/-- A control core with its engines, or a lookup core (keys 256-271). -/
structure Proc where
  run : RunState
  img : Image
  coh : Coh
  q : Queues
  eng : Engines
  bricks : SMap (Option BrickReg)
  /-- the current brick's tag (12 R285) -/
  cur : Option (BitVec 3)
  /-- a brick selected for the core and not yet returned by BPOP, with its reservation (02 R486) -/
  heldBrick : Option Brick
  semq : List SemWaiter
  /-- a WAITADDR or SCW in progress -/
  t0 : Option Waiting
  burst : Option Burst
  /-- floor-throttled (21 R449) -/
  throttled : Bool
  /-- the wait each unit's last turn ended in, by unit (0 CC, 1 VE, 2 Press, 3 HL, 4 HS): 1 + the event code of R460 -/
  stall : SMap Nat
  deriving DecidableEq, Repr

def Proc.reset : Proc :=
  ⟨.idle, Image.reset, Coh.reset, Queues.reset, Engines.reset, [], none, none, [], none, none, false, []⟩

/-! ## Lookup cores (14) -/

structure Job where
  egts : BitVec 32
  rid : BitVec 8
  ctx : Nat
  rcore : Nat
  btag : BitVec 3
  daddr : BitVec 52
  /-- the requester's signature at the push (11 R259) -/
  sig : Sig
  /-- the requester's brick was aborted: the reply is discarded (R305) -/
  orphan : Bool
  deriving DecidableEq, Repr

/-- A row request (R310, R311): index, row address and the runs of its bytes at their homes (key, length), element
format and count, policy, sequence number; once arrived, the bytes of the row and whether it was uncorrectable. -/
structure RowReq where
  idx : BitVec 32
  va : Nat
  runs : List (Nat × Nat)
  fmt : BitVec 5
  elems : Nat
  pois : Bool
  seq : BitVec 16
  data : Option (List Byte × Bool)
  deriving DecidableEq, Repr

/-- The row register PR (R312). -/
structure RowReg where
  elems : Nat
  fmt : BitVec 5
  data : List Byte
  nul : Bool
  sub : Bool
  psn : Bool
  deriving DecidableEq, Repr

/-- One element of a bag: the exact sum in units of 2^-48 and the tag of R65 (R315). -/
structure BagElem where
  sum : Int
  tag : BitVec 2
  deriving DecidableEq, Repr

structure Bag where
  elems : Nat
  count : Nat
  psn : Bool
  el : SMap BagElem
  deriving DecidableEq, Repr

def Bag.empty : Bag := ⟨0, 0, false, []⟩

/-- A KBAG in progress (R321): its request as read and checked. -/
structure KReq where
  rid : BitVec 8
  ctx : Nat
  /-- the directory entry as checked -/
  entry : BitVec 128
  pois : Bool
  wbf : Bool
  sum : Bool
  rm : BitVec 3
  ofmt : BitVec 8
  off : List Nat
  idx : List Nat
  wgt : List Nat
  /-- per bag and element, the home keys of the output's bytes -/
  outs : List (List (List Nat))
  /-- address of the KBAG, LOC of its records (R323) -/
  loc : Nat
  /-- its outputs are written, and whether a row was uncorrectable; the reply follows (R322) -/
  written : Option Bool
  /-- its reply is discarded (R307, R330) -/
  drop : Bool
  deriving DecidableEq, Repr

structure Lookup where
  v : Bool
  ctx : BitVec 4
  jobs : List Job
  cur : Option Job
  aq : List RowReq
  dq : List RowReq
  seq : BitVec 16
  pr : Option RowReg
  bags : SMap Bag
  kbags : List KReq
  /-- rows fetched, null indices, loss-of-decoupling stalls, their ns, data-queue stall ns, data-queue stalls (R313) -/
  stats : SMap Word
  /-- the LKDQ wait in progress: its start and whether it loses decoupling -/
  stall : Option (Word × Bool)
  /-- the program restarts from its image once it has ended (R330) -/
  restart : Bool
  deriving DecidableEq, Repr

def Lookup.reset : Lookup := ⟨false, 0, [], none, [], [], 0, none, [], [], [], none, false⟩

/-! ## Clusters -/

/-- The carry word of an element: a value the spec fixes, or the n-th free split of its sum (03 R67, log 8). -/
inductive Carry where
  | fixed (c : BitVec 64)
  | free (n : Nat)
  deriving DecidableEq, Repr

/-- An accumulator element (10 R218): S + C, the split, TAG, RES, OVF. -/
structure Acc where
  sum : BitVec 64
  carry : Carry
  tag : BitVec 2
  res : BitVec 2
  ovf : Bool
  deriving DecidableEq, Repr

def Acc.zero : Acc := ⟨0, .fixed 0, 0, 0, false⟩

/-- A bound physical slot: its binding entry (10 R219) and its elements at row * 128 + column. -/
structure Slot where
  core : Nat
  ctx : Nat
  lslot : Nat
  carried : Bool
  pz : Bool
  btag : BitVec 3
  e : BitVec 10
  cnt : Nat
  el : SMap Acc
  deriving DecidableEq, Repr

/-- A tile entry (17 R365): state 0 EMPTY, 1 FILLING, 2 READY, 3 DRAINING. -/
structure Tile where
  st : BitVec 2
  ctx : Nat
  fcnt : Nat
  ocnt : Nat
  deriving DecidableEq, Repr

def Tile.empty : Tile := ⟨0, 0, 0, 0⟩

/-- A held tile event (17 R367): who waits (a hod or a lookup core), the event (1 FILLING, 3 DRAINING) and what
became of it. -/
structure HeldTile where
  tile : Nat
  ev : Nat
  ctx : Nat
  who : Agent
  /-- none: held; true: applied; false: refused with TILEWAIT -/
  res : Option Bool
  deriving DecidableEq, Repr

/-- An OB being expanded by a Walker (18 R391). -/
structure WalkJob where
  ctx : Nat
  graph : Nat
  primary : Nat
  ob : Nat
  next : Nat
  total : Nat
  deriving DecidableEq, Repr

/-- The Press of a cluster: slots, lease table, gathered queue (10, 12). -/
structure Press where
  slots : SMap (Option Slot)
  /-- core 0-3 that is HELD or RELEASING -/
  holder : Option Nat
  releasing : Bool
  reqs : List Nat
  gathered : List Gathered
  /-- number of the next gathered command -/
  pushes : Nat
  /-- GTS of the Press's previous dequeue (12 R275) -/
  last : Option Word
  deriving DecidableEq, Repr

def Press.reset : Press := ⟨[], none, false, [], [], 0, none⟩

/-- The power block of a cluster (21 R440-R450). -/
structure Power where
  /-- LEVEL, signed, within 32 bits -/
  level : Int
  r : Nat
  rtgt : Nat
  rbase : Nat
  rfull : Nat
  rfloor : Nat
  cap : Nat
  /-- RCFG0 and RCFG1 written and not yet in effect -/
  cfg0 : Option Word
  cfg1 : Option Word
  /-- charge waiters: core and engine, oldest first (R442) -/
  waiters : List (Nat × Eng)
  /-- debits of the current interval by context -/
  debit : SMap Nat
  /-- the run of over intervals: allowance and debits of each (R446) -/
  overs : List (Nat × SMap Nat)
  /-- 1 + the boundaries that a clamp still holds; 0 without a clamp (R447) -/
  clamp : Nat
  tl : Int
  /-- the highest rate of a declaration whose burst window overlaps the current interval (R446) -/
  allow : Nat
  deriving DecidableEq, Repr

/-- RTGT too has no number of its own in R440 ('fused'): it starts at RFLOOR, as R does (DESIGN CHOICE, log 3). -/
def Power.reset : Power :=
  ⟨0, Config.rFloor, Config.rFloor, Config.rBase, Config.rFull, Config.rFloor, Config.cap, none, none, [], [], [], 0, 0, 0⟩

/-- Weight tables of a cluster (17 R379): entries that differ from the defaults of R487 are listed. -/
structure Weights where
  live : SMap (Option (BitVec 16))
  shadow : SMap (Option (BitVec 16))
  ccnt : BitVec 32
  deriving DecidableEq, Repr

/-- A trace record being written: its slot, what the slot is to hold, and whether the body is written (22 R457). -/
structure TraceWrite where
  slot : Nat
  val : BitVec 1024
  body : Bool
  deriving DecidableEq, Repr

/-- Performance counters and trace buffer of a cluster (22). -/
structure Observe where
  perf : SMap Word
  sel : SMap Word
  trace : SMap (BitVec 1024)
  nseq : BitVec 32
  traceEn : Bool
  writing : Option TraceWrite
  deriving DecidableEq, Repr

structure Cluster where
  press : Press
  brickq : List Brick
  walk : List WalkJob
  credit : SMap Int
  tiles : SMap Tile
  heldTiles : List HeldTile
  wt : Weights
  pow : Power
  obs : Observe
  absent : Bool
  /-- CLMAP: served by a spare (28 R477) -/
  spared : Bool
  deriving DecidableEq, Repr

def Cluster.reset : Cluster :=
  ⟨Press.reset, [], [], [], [], [], ⟨[], [], 0⟩, Power.reset, ⟨[], [], [], 0, true, none⟩, false, false⟩

/-! ## Contexts -/

/-- STATE of a context descriptor (02 R17). -/
inductive CtxState where
  | free | idle | active | suspended
  deriving DecidableEq, Repr

/-- The context descriptor (02 R17); CMD reads 0, since a command is accepted or rejected in the step of its write. -/
structure Desc17 where
  part : BitVec 64
  ptroot : BitVec 30
  asid : BitVec 16
  lstb : BitVec 13
  lstq : BitVec 13
  share : BitVec 8
  prio : BitVec 3
  fmode : Bool
  seqv : Bool
  seq : BitVec 3
  err : Bool
  st : CtxState
  deriving DecidableEq, Repr

def Desc17.reset : Desc17 := ⟨0, 0, 0, 0, 0, 0, 0, false, false, 0, false, .free⟩

/-- What a pending PARK or STOP record acts on (15 R332, R338). -/
inductive Actionable where
  /-- a parked brick, its queue entry kept -/
  | park (cluster : Nat) (b : Brick)
  | stopCc (p : Nat)
  | stopEng (core : Nat) (e : Eng)
  deriving DecidableEq, Repr

/-- The fault queue of a context (15 R333-R337). -/
structure FaultQ where
  nen : Bool
  ncore : BitVec 8
  nsc : BitVec 8
  lost : BitVec 8
  count : Nat
  /-- position of the oldest record -/
  head : Nat
  seq : BitVec 32
  /-- the SEQ the Mason keeps for each of the 256 positions -/
  seqs : SMap (BitVec 32)
  pend : List (BitVec 32 × Actionable × BitVec 512)
  deriving DecidableEq, Repr

def FaultQ.reset : FaultQ := ⟨false, 0, 0, 0, 0, 0, 0, [], []⟩

/-- A region entry (19 R403). -/
structure Region where
  cr : Word
  nr : Word
  base : BitVec 52
  len : BitVec 47
  nep : BitVec 32
  tgen : BitVec 16
  dscale : BitVec 8
  nbad : Bool
  pzn : Bool
  v : Bool
  deriving DecidableEq, Repr

def Region.reset : Region := ⟨0, 0, 0, 0, 0, 0, 0, false, false, false⟩

/-- A reuse entry (19 R409); lists hold input 0 first. -/
structure Reuse where
  snap : SMap Word
  br : SMap Word
  tg : SMap (BitVec 16)
  rgn : List (BitVec 10)
  prgn : List (BitVec 10)
  theta : BitVec 16
  ptheta : BitVec 16
  lstep : BitVec 32
  smax : BitVec 8
  psmax : BitVec 8
  skc : BitVec 8
  pend : Bool
  prst : Bool
  pact : Bool
  act : Bool
  frc : Bool
  cv : Bool
  deriving DecidableEq, Repr

def Reuse.reset : Reuse :=
  ⟨[], [], [], [0x3FF, 0x3FF, 0x3FF, 0x3FF], [0x3FF, 0x3FF, 0x3FF, 0x3FF], 0, 0, 0, 0, 0, 0, false, false, false, false,
    false, false⟩

/-- STATUS of an OB (18 R384). -/
inductive ObStatus where
  | pending | ready | running | done | skipped | poisoned | parked
  deriving DecidableEq, Repr

/-- An OB in flight (18 R384, R386, R388): counts, the copies of bytes 0-183 of itself and of its alternate, its
successors as read at submission (R386), the OR of its predecessors' signatures and its own (11 R261). -/
structure Ob where
  status : ObStatus
  indeg : Nat
  succ : List Nat
  dep : Nat
  pf : Bool
  altr : Bool
  left : Nat
  parked : Nat
  anyPoison : Bool
  computed : Bool
  retired : Bool
  copy : List Byte
  alt : List Byte
  inSig : Sig
  sig : Sig
  stepl : BitVec 16
  deriving DecidableEq, Repr

def Ob.reset : Ob := ⟨.done, 0, [], 0, false, false, 0, 0, false, false, true, [], [], 0, 0, 0⟩

/-- A graph in flight (18 R381, R397); its OB table names it. -/
structure Graph where
  nob : Nat
  nedge : Nat
  obt : Nat
  edt : Nat
  sched : Nat
  nrow : Nat
  /-- released by the context's sequencer -/
  ofSeq : Bool
  /-- accepted by OBSUB after the open step's last retirement: released at the next boundary (02 R23) -/
  held : Bool
  /-- counted into the open step (R23) -/
  counted : Bool
  obs : SMap Ob
  deriving DecidableEq, Repr

/-- The quota block of a context (21 R448). -/
structure Quota where
  qbal : Word
  grant : Word
  und : BitVec 32
  thr : Bool
  exh : Bool
  pol : Bool
  en : Bool
  qused : Word
  qovd : Word
  /-- a floor-throttle is still to come at the cores' boundaries (R449) -/
  act : Bool
  /-- the record of a suspension by exhaustion is still to come, at SUSPENDED (R449) -/
  sus : Bool
  deriving DecidableEq, Repr

def Quota.reset : Quota := ⟨0, 0, 0, false, false, false, false, 0, 0, false, false⟩

/-- What the loader keeps of a HOF (05 R106-R109). -/
structure Hof where
  ccpc : Word
  lkpc : Option Word
  /-- stream records: Press?, first parcel offset, TK descriptors 1-7, in ascending order of offset (12 R271) -/
  streams : List (Bool × Nat × List (BitVec 16))
  sems : SMap (BitVec 16)
  vring : BitVec 32
  pring : BitVec 32
  deriving DecidableEq, Repr

structure Ctx where
  d : Desc17
  arg : Word
  cmdN : BitVec 20
  sts : BitVec 8
  stp : Bool
  fq : FaultQ
  hard : Bool
  busy : Bool
  /-- SUSPEND accepted, STATE still ACTIVE (02 R19) -/
  suspending : Bool
  saveb : Word
  gid : BitVec 12
  member : BitVec 768
  loops : SMap Word
  regions : SMap Region
  reuse : SMap Reuse
  graphs : List Graph
  quota : Quota
  hof : Option Hof
  /-- tile copies of a suspended context: cluster * 4096 + id (17 R371) -/
  tileCopies : SMap Tile
  /-- OR of the OB signatures of the step being run and of the last completed step (11 R261) -/
  stepSig : Sig
  prevSig : Sig
  deriving DecidableEq, Repr

def Ctx.reset : Ctx :=
  ⟨Desc17.reset, 0, 0, 0, false, FaultQ.reset, false, false, false, 0, 0, 0, [], [], [], [], Quota.reset, none, [], 0, 0⟩

/-- A context save of one core (15 R345, R346). -/
structure Saved where
  img : Image
  slots : List Slot
  leased : Bool
  sig : Sig
  deriving DecidableEq, Repr

/-- A step sequencer (18 R393 card, R394). -/
inductive SeqState where
  | idle | run | pause | halt
  deriving DecidableEq, Repr

structure Stepper where
  st : SeqState
  srq : Bool
  graph : Nat
  n : Nat
  done : Nat
  gr : Nat
  ctx : Nat
  /-- the step's OBs are released and not all retired -/
  stepOpen : Bool
  /-- the schedule row read for the coming step, 16 words -/
  row : Option (List Word)
  /-- the row of the open step had LAST, FORCE, and its GOFF -/
  ctl : Word
  /-- waiting for a rendezvous answer since (16 R360) -/
  rdvSince : Option Word
  deriving DecidableEq, Repr

def Stepper.reset : Stepper := ⟨.idle, false, 0, 0, 0, 0, 0, false, none, 0, none⟩

/-! ## Module -/

/-- A leaf in the translation cache (17 R374). -/
structure Trans where
  asid : BitVec 16
  vpn : Nat
  /-- log2 of the page size -/
  sz : Nat
  pte : Word
  deriving DecidableEq, Repr

/-- A signature slot (11 R252): home, key, signature, GTS of last attach. -/
structure SigSlot where
  home : Nat
  key : Nat
  sig : Sig
  at_ : Word
  deriving DecidableEq, Repr

/-- Where a post comes from (20 R428): a core, a hod of a core, a core of another node, or the device itself (15 R334, 16 R354). -/
inductive PostSource where
  | core (p : Nat)
  | hod (core : Nat) (hs : Bool)
  | remote (node core : Nat)
  | device
  deriving DecidableEq, Repr

/-- A post in flight (20 R428, 16 R359): source, target core and context, counter, amount, signature. -/
structure Post where
  src : PostSource
  core : Nat
  ctx : Nat
  ctr : Nat
  amount : BitVec 32
  sig : Sig
  deriving DecidableEq, Repr

/-- A region delivery on its way to the Mason (19 R405). -/
structure Delivery where
  core : Nat
  ctx : Nat
  rgn : Nat
  d : Nat
  nw : Nat
  deriving DecidableEq, Repr

/-- An access outstanding at another module or at the host (16 R352, R358). -/
structure Remote where
  core : Nat
  /-- the core the unit belongs to -/
  q : Nat
  /-- none: the control core or lookup core itself -/
  eng : Option Eng
  /-- queue pair of a host access, or node -/
  host : Bool
  peer : Nat
  cls : BitVec 4
  /-- 0 read, 1 write (a halo element too), 2 atomic, 4 post -/
  kind : Nat
  /-- access tag (Machine/Mem.lean), home key there, virtual address and bytes of the access -/
  tag : Nat
  key : Nat
  va : Nat
  n : Nat
  /-- brick of the command, for its fate when the access ends in LINKERR (R363) -/
  btag : Option (BitVec 3)
  /-- LOC and DETAIL of a record about the access (15 R335, R336) -/
  loc : Nat
  detail : BitVec 24
  /-- sector number to fold when the acknowledgement returns (11 R250); a CAS folds it only where the old value is `cas` -/
  x : Option Nat
  cas : Option Nat
  deriving DecidableEq, Repr

/-- A multicast subscriber (13 R297): an HMCS entry with its key, the width it gives untyped source elements (08 R197) and its
time of arrival, the HMSRC that took it, the source's elements once read (format, bits, the poisoned sector's address), its
writes done, the cause and address that end it. -/
structure Subscriber where
  core : Nat
  hs : Bool
  ctx : Nat
  key : Desc
  wd : Nat
  since : Word
  by_ : Option (Nat × Bool)
  vals : Option (List (Nat × Nat × Option Nat))
  done : Bool
  failed : Option (BitVec 8 × Nat)
  deriving DecidableEq, Repr

/-- Messages the module has sent (OWN, log 1): request flits, answers, RoCE messages, reports. -/
inductive Msg where
  /-- a flit with its header fields (R356); LSEQ is free (log 42) -/
  | flit (dnode snode type : Nat) (gid : BitVec 12) (score : Nat) (cls : BitVec 4) (lseq : BitVec 14) (arg : BitVec 32)
      (data : List Byte)
  /-- a request on a queue pair, to DQPN under RKEY (R351), in packets of the path MTU (R350) -/
  | roce (q : Nat) (dqpn : BitVec 24) (rkey : BitVec 32) (op : Nat) (addr : Nat) (packets : Nat) (data : List Byte)
  | nak (q : Nat) (kind : Nat)
  /-- a congestion notification of the device as notification point (R350) -/
  | cnp (q : Nat)
  | answer (q : Nat) (data : List Byte)
  /-- a time flit of a port with the module's GTS (R361) -/
  | time (port : Nat) (gts : Word)
  | report (bytes : List Byte)
  | loaderStatus (ctx : Nat) (st : BitVec 8)
  deriving DecidableEq, Repr

/-- The health store (22 R461). -/
structure Health where
  /-- corrected and uncorrectable errors at 2 * class and 2 * class + 1 -/
  errors : SMap (BitVec 32)
  histogram : SMap (BitVec 32)
  powered : Word
  trips : BitVec 32
  ageing : SMap (BitVec 16)
  eol : BitVec 32
  hflag : BitVec 64
  deriving DecidableEq, Repr

def Health.reset : Health := ⟨[], [], 0, 0, [], 0, 0⟩

/-- A mortar-link port (16 R356, R362). -/
structure Port where
  lanes : Nat
  /-- lanes past their error limit, bit i: lane i -/
  bad : BitVec 4
  down : Bool
  replays : Nat
  dropped : Nat
  deriving DecidableEq, Repr

def Port.reset : Port := ⟨4, 0, false, 0, 0⟩

/-- A checkpoint image (28 R481). -/
structure Checkpoint where
  mem : SMap Byte
  poison : SMap Bool
  /-- the safe tier's bytes as the checkpoint completed (08 R191) -/
  safe : SMap Byte
  ctxs : SMap Ctx
  steppers : SMap Stepper
  qps : SMap (BitVec 128)
  wins : SMap (BitVec 128)
  saved : SMap (Option Saved)
  startTvec : SMap (Option Word)
  /-- queued bricks and Walkers' work by cluster -/
  bricks : SMap (List Brick)
  walks : SMap (List WalkJob)
  safesz : BitVec 9
  seq : BitVec 32
  deriving DecidableEq, Repr

/-- Memories: bytes and poison by home key (log 2, Machine/Mem.lean), the tables that serve accesses. -/
structure Memory where
  bytes : SMap Byte
  /-- poisoned sectors, by home key div 128 (08 R193) -/
  poison : SMap Bool
  trans : List Trans
  slots : List SigSlot
  fullto : SMap Word
  /-- bank format table (17 R377) by offset from 0x3000_0010_0000 -/
  bankfmt : SMap (BitVec 5)
  deriving DecidableEq, Repr

def Memory.reset : Memory := ⟨[], [], [], [], [], []⟩

/-- Work between units that is on its way. -/
structure Flight where
  posts : List Post
  deliveries : List Delivery
  remotes : List Remote
  subs : List Subscriber
  /-- rendezvous arrivals at this leader: sequencer, step, member (16 R360) -/
  arrivals : List (Nat × BitVec 32 × Nat)
  deriving DecidableEq, Repr

/-- Module control, power, time, firmware and management (28, 21 R453, 22). -/
structure Module where
  gts : Word
  spares : BitVec 3
  safesz : BitVec 9
  node : BitVec 10
  ckseq : BitVec 32
  ckerr : Bool
  ckbusy : Bool
  /-- GTS at which the last checkpoint was taken -/
  ckgts : Word
  /-- refill boundaries and signature rotations performed (21 R441, 11 R249) -/
  refills : Nat
  rotations : Nat
  image : Option Checkpoint
  force : Bool
  fallback : Bool
  pet : Word
  trip : Bool
  health : Health
  flashHealth : Health
  flash : List Byte
  flashSig : List Byte
  keys : SMap (Option (BitVec 768))
  /-- powered and out of reset; recovery keeps the device in reset (28 R475) -/
  up : Bool
  powered : Bool
  recovery : Bool
  /-- the controller's set-up for the next bring-up -/
  bring : BringUp
  deriving DecidableEq, Repr

/-- Links (16). -/
structure Links where
  qps : SMap (BitVec 128)
  /-- messages received since RTR, per queue pair (R354) -/
  recv : SMap Nat
  wins : SMap (BitVec 128)
  dir : SMap (BitVec 128)
  ports : SMap Port
  /-- paused priorities: logical port * 8 + priority (R350) -/
  paused : SMap Bool
  /-- congestion notifications taken per queue pair (R350) -/
  cnps : SMap Nat
  /-- offset of the master's time seen last, and GTS since which the bound is exceeded (R361) -/
  toobSince : Option Word
  joined : Bool
  /-- path MTU: 0 1,024, 1 2,048, 2 4,096 bytes; ports run as two 400 Gb/s ports each (R350) -/
  mtu : BitVec 2
  split : Bool
  /-- GTS of the last correction, and ns still to be left out for a slew backward (R361) -/
  slewAt : Word
  behind : Nat
  /-- nodes that have stayed unreachable (16 R363) -/
  lost : SMap Bool
  deriving DecidableEq, Repr

/-- The state of the module. -/
structure State where
  procs : SMap Proc
  lookups : SMap Lookup
  clusters : SMap Cluster
  ctxs : SMap Ctx
  /-- saved images by context * 512 + core (15 R345) -/
  saved : SMap (Option Saved)
  /-- cc.tvec of the start image, by context * 512 + core, once the core has run the context (06 R112) -/
  startTvec : SMap (Option Word)
  steppers : SMap Stepper
  mem : Memory
  fl : Flight
  mod : Module
  links : Links
  /-- OWN: turns to come; when empty the next is freeAct of Step.lean (log 1) -/
  agenda : List Act
  /-- OWN: the unit whose instruction runs -/
  actor : Agent
  /-- OWN: the index of the next free value -/
  free : Nat
  /-- OWN: messages sent, newest first -/
  out : List Msg
  deriving DecidableEq, Repr

/-- Faults of a step. The spec's own faults are next states; these are raised only by a turn or an event that names
something the machine does not have, so stopping there is safe. -/
inductive Fault where
  /-- a turn or event names a core, cluster, context, sequencer, queue pair or port the module does not have (01 R10,
  R11); raised by the meanings of the events and by step; safe -/
  | noSuchUnit
  /-- an instruction run by a unit whose streams cannot hold it (04 R73); step never does that; safe -/
  | wrongUnit
  deriving DecidableEq, Repr

/-- Refusals of a step. -/
inductive Refusal where
  /-- an instruction without a meaning yet; raised by exec's arms only; safe -/
  | notModelled (mnemonic : String)
  deriving DecidableEq, Repr

/-- The machine after the reset sequence of 28 R480: every context FREE, MMIO open, powered. -/
def State.reset : State :=
  { procs := [], lookups := [], clusters := [], ctxs := [], saved := [], startTvec := [], steppers := []
    mem := Memory.reset
    fl := ⟨[], [], [], [], []⟩
    mod := { gts := 0, spares := 4, safesz := 0, node := 0, ckseq := 0, ckerr := false, ckbusy := false, ckgts := 0, refills := 0, rotations := 0,
             image := none, force := false, fallback := false, pet := 0, trip := false, health := Health.reset,
             flashHealth := Health.reset, flash := [], flashSig := [], keys := [(0, some Config.hofReleaseKey)],
             up := true, powered := true, recovery := false, bring := ⟨0, 0, 0, false⟩ }
    links := ⟨[], [], [], [], [], [], [], none, false, 0, false, 0, 0, []⟩
    agenda := [], actor := .cc 0, free := 0, out := [] }

end Sys2Proof.Machine
end

