-- ==== Sys2Proof/Machine/Access.lean ====
section
/-! DEFINITION. Access to the parts of State, cause codes, the monad of meanings, scalar registers and messages. -/

namespace Sys2Proof.Machine

/-- Cause codes (15_faults_preemption_context.md R325). -/
inductive Cause where
  | illop | priv | fetch | xlate | perm | align | window | fmtmismatch | tilewait | mstk | shape | engill | hodill | eccu
  | acclim | accerr | linkerr | trapi | abandon | preempt | quota | watchdog | timer
  deriving DecidableEq, Repr

def Cause.code : Cause → BitVec 8
  | illop => 0x01 | priv => 0x02 | fetch => 0x03 | xlate => 0x04 | perm => 0x05 | align => 0x06 | window => 0x07
  | fmtmismatch => 0x08 | tilewait => 0x09 | mstk => 0x0A | shape => 0x0B | engill => 0x0C | hodill => 0x0D
  | eccu => 0x0E | acclim => 0x0F | accerr => 0x10 | linkerr => 0x11 | trapi => 0x12 | abandon => 0x13
  | preempt => 0x20 | quota => 0x21 | watchdog => 0x22 | timer => 0x23

/-- FETCH, XLATE and PERM take the stop path (R325). -/
def Cause.stops : Cause → Bool
  | fetch => true | xlate => true | perm => true | _ => false

/-- Why an operation of a unit does not go on: a fault with its address (straddle bit, DETAIL), or a wait, with the event
code that counts its time (22 R460, 0 none). -/
inductive Stop where
  | fault (c : Cause) (addr : Nat) (straddle : Bool := false) (detail : BitVec 24 := 0)
  | wait (ev : Nat := 0)
  deriving DecidableEq, Repr

/-- Operations on the machine that may end in a fault or a wait; what was done before stands. -/
abbrev M := EStateM Stop State

abbrev Out := Host.Outcome State Fault Refusal

def faultM {α : Type} (c : Cause) (addr : Nat := 0) : M α := throw (.fault c addr)
def waitM {α : Type} (ev : Nat := 0) : M α := throw (.wait ev)
/-- Continue only when `b` holds; otherwise the fault. -/
def need (b : Bool) (c : Cause) (addr : Nat := 0) : M Unit := if b then pure () else faultM c addr
/-- Continue only when `b` holds; otherwise wait. -/
def await (b : Bool) (ev : Nat := 0) : M Unit := if b then pure () else waitM ev

/-- The state an operation leaves, whatever way it ends. -/
def M.after {α : Type} (x : M α) (s : State) : State :=
  match x s with
  | .ok _ t => t
  | .error _ t => t

/-- An operation whose wait and fault outcomes are both dropped. -/
def M.value {α : Type} (x : M α) (s : State) : Option α :=
  match x s with
  | .ok a _ => some a
  | .error _ _ => none

/-! ## Parts of State -/

namespace State

def proc (s : State) (p : Nat) : Proc := SMap.get Proc.reset s.procs p
def setProc (s : State) (p : Nat) (x : Proc) : State := { s with procs := SMap.set Proc.reset s.procs p x }
def modProc (s : State) (p : Nat) (f : Proc → Proc) : State := s.setProc p (f (s.proc p))

def cc (s : State) (p : Nat) : CCRegs := (s.proc p).img.cc
def modCC (s : State) (p : Nat) (f : CCRegs → CCRegs) : State :=
  s.modProc p fun x => { x with img := { x.img with cc := f x.img.cc } }
def ve (s : State) (p : Nat) : VERegs := (s.proc p).img.ve
def modVE (s : State) (p : Nat) (f : VERegs → VERegs) : State :=
  s.modProc p fun x => { x with img := { x.img with ve := f x.img.ve } }
def sync (s : State) (p : Nat) : Sync := (s.proc p).img.sync
def modSync (s : State) (p : Nat) (f : Sync → Sync) : State :=
  s.modProc p fun x => { x with img := { x.img with sync := f x.img.sync } }
def modCoh (s : State) (p : Nat) (f : Coh → Coh) : State := s.modProc p fun x => { x with coh := f x.coh }
def modQ (s : State) (p : Nat) (f : Queues → Queues) : State := s.modProc p fun x => { x with q := f x.q }
def modEng (s : State) (p : Nat) (f : Engines → Engines) : State := s.modProc p fun x => { x with eng := f x.eng }
def brick (s : State) (p : Nat) (tag : BitVec 3) : Option BrickReg := SMap.get none (s.proc p).bricks tag.toNat
def setBrick (s : State) (p : Nat) (tag : BitVec 3) (b : Option BrickReg) : State :=
  s.modProc p fun x => { x with bricks := SMap.set none x.bricks tag.toNat b }

def lookup (s : State) (k : Nat) : Lookup := SMap.get Lookup.reset s.lookups k
def modLookup (s : State) (k : Nat) (f : Lookup → Lookup) : State :=
  { s with lookups := SMap.set Lookup.reset s.lookups k (f (s.lookup k)) }
def cluster (s : State) (c : Nat) : Cluster := SMap.get Cluster.reset s.clusters c
def modCluster (s : State) (c : Nat) (f : Cluster → Cluster) : State :=
  { s with clusters := SMap.set Cluster.reset s.clusters c (f (s.cluster c)) }
def modPress (s : State) (c : Nat) (f : Press → Press) : State := s.modCluster c fun x => { x with press := f x.press }
def ctx (s : State) (x : Nat) : Ctx := SMap.get Ctx.reset s.ctxs x
def modCtx (s : State) (x : Nat) (f : Ctx → Ctx) : State :=
  { s with ctxs := SMap.set Ctx.reset s.ctxs x (f (s.ctx x)) }
def stepper (s : State) (q : Nat) : Stepper := SMap.get Stepper.reset s.steppers q
def modStepper (s : State) (q : Nat) (f : Stepper → Stepper) : State :=
  { s with steppers := SMap.set Stepper.reset s.steppers q (f (s.stepper q)) }
def modMem (s : State) (f : Memory → Memory) : State := { s with mem := f s.mem }
def modMod (s : State) (f : Module → Module) : State := { s with mod := f s.mod }
def modLinks (s : State) (f : Links → Links) : State := { s with links := f s.links }
def modFl (s : State) (f : Flight → Flight) : State := { s with fl := f s.fl }
def gts (s : State) : Nat := s.mod.gts.toNat
def send (s : State) (m : Msg) : State := { s with out := m :: s.out }
/-- A flit of this module (16 R356); its LSEQ is free (log 42). -/
def sendFlit (s : State) (dnode type : Nat) (gid : BitVec 12) (score : Nat) (cls : BitVec 4) (arg : Nat) (data : List Byte) : State :=
  s.send (.flit dnode s.mod.node.toNat type gid score cls (Config.freeLseq s.out.length) (BitVec.ofNat 32 arg) data)
/-- A payload as flits of at most 240 bytes each, with fuel (R356). -/
def sendFlits (s : State) (dnode type : Nat) (gid : BitVec 12) (score : Nat) (cls : BitVec 4) (arg : Nat) : Nat → List Byte → State
  | 0, _ => s
  | k + 1, data =>
    let s := s.sendFlit dnode type gid score cls arg (data.take 240)
    if data.length ≤ 240 then s else sendFlits s dnode type gid score cls arg k (data.drop 240)
/-- A fresh index for a free value (log 1). -/
def bump (s : State) : State := { s with free := s.free + 1 }
/-- The image of `core` saved for a context. -/
def savedOf (s : State) (x core : Nat) : Option Saved := SMap.get none s.saved (x * 512 + core)
def setSaved (s : State) (x core : Nat) (v : Option Saved) : State :=
  { s with saved := SMap.set none s.saved (x * 512 + core) v }

/-- Change every core or every cluster that the state lists; one at its reset value is not listed. -/
def mapProcs (s : State) (f : Proc → Proc) : State :=
  let l := (s.procs.map fun e => (e.1, f e.2)).filter fun e => e.2 != Proc.reset
  { s with procs := l }
def mapClusters (s : State) (f : Cluster → Cluster) : State :=
  let l := (s.clusters.map fun e => (e.1, f e.2)).filter fun e => e.2 != Cluster.reset
  { s with clusters := l }

/-- A logical cluster that is present (R13). -/
def present (s : State) (c : Nat) : Bool := !(s.cluster c).absent
/-- A cluster of the context's partition that is present (R20, R185). -/
def inPart (s : State) (x c : Nat) : Bool := decide (c < 64) && (s.ctx x).d.part.getLsbD c && s.present c

end State

/-- The cluster of a global core (R12). -/
def clusterOf (core : Nat) : Nat := core / 4

/-- The context a core runs, stopped and exiting programs included. -/
def Proc.ctxOf (x : Proc) : Option Nat :=
  match x.run with
  | .idle => none
  | .running c => some c
  | .stopped c _ => some c
  | .exiting c => some c
  | .aborted c => some c

/-- A brick that has neither retired nor parked (R32). -/
def BrickReg.live (b : BrickReg) : Bool :=
  match b.st with
  | .running => true | .retiring => true | .parked => false

/-- The unretired bricks of a core with their tags. -/
def Proc.liveBricks (x : Proc) : List (BitVec 3 × BrickReg) :=
  x.bricks.filterMap fun e => e.2.bind fun b => if b.live then some (BitVec.ofNat 3 e.1, b) else none

/-! ## Registers of a control core (R110, R115) -/

namespace CCRegs

/-- s0 reads as zero (R110). -/
def readS (c : CCRegs) (r : BitVec 5) : Word := if r = 0 then 0 else SMap.get 0 c.s r.toNat
def writeS (c : CCRegs) (r : BitVec 5) (v : Word) : CCRegs :=
  if r = 0 then c else { c with s := SMap.set 0 c.s r.toNat v }
/-- p0 reads as one (R110). -/
def readP (c : CCRegs) (k : BitVec 3) : Bool := k == 0 || c.p.getLsbD k.toNat
def writeP (c : CCRegs) (k : BitVec 3) (b : Bool) : CCRegs :=
  if k = 0 then c
  else { c with p := if b then c.p ||| (1#8 <<< k.toNat) else c.p &&& ~~~(1#8 <<< k.toNat) }
def readH (c : CCRegs) (k : BitVec 4) : Handle := SMap.get 0 c.h k.toNat
def writeH (c : CCRegs) (k : BitVec 4) (v : Handle) : CCRegs := { c with h := SMap.set 0 c.h k.toNat v }
/-- Whether the guard lets the instruction run (R82). -/
def guard (c : CCRegs) (g : Guard) : Bool := c.readP g.g != g.n
/-- INTRAP and PMODE of cc.status (R120). -/
def intrap (c : CCRegs) : Bool := c.status.getLsbD 1

end CCRegs

/-- A state change that never stops. -/
def doS (f : State → State) : M Unit := modify f

/-- The scalar register of a core. -/
def getS (p : Nat) (r : BitVec 5) : M Word := do return ((← get).cc p).readS r
def putS (p : Nat) (r : BitVec 5) (v : Word) : M Unit := doS fun s => s.modCC p fun c => c.writeS r v
def putP (p : Nat) (k : BitVec 3) (b : Bool) : M Unit := doS fun s => s.modCC p fun c => c.writeP k b

end Sys2Proof.Machine
end

