-- ==== Sys2Proof/Machine/Perf.lean ====
section
/-! DEFINITION. Performance counters and trace buffers (22_time_and_health_counters.md R456-R460). -/

namespace Sys2Proof.Machine

/-- Events that belong to no core or context (R460). -/
def perfUnowned (ev : Nat) : Bool :=
  ev == 0x01 || ev == 0x02 || ev == 0x21 || ev == 0x22 || ev == 0x40 || (decide (0x30 ≤ ev) && decide (ev ≤ 0x34))

/-- Whether a select word counts an event of a core and context (R459); `lk` is the lookup core of events 0x30-0x34. -/
def perfMatches (sel : Word) (ev core ctx lk : Nat) : Bool :=
  sel.getLsbD 31 && (fld sel 0 8).toNat == ev &&
  (if decide (0x30 ≤ ev) && decide (ev ≤ 0x34) then (fld sel 18 4).toNat == lk
   else perfUnowned ev ||
    ((!sel.getLsbD 30 || (fld sel 26 4).toNat == ctx) &&
     (ev == 0x19 || fld sel 22 4 == 0 || sel.getLsbD (22 + core % 4))))

def Observe.add (o : Observe) (ev core ctx lk n : Nat) : Observe :=
  o.sel.foldl (fun o e =>
    if perfMatches e.2 ev core ctx lk then
      { o with perf := SMap.set 0 o.perf e.1 (SMap.get 0 o.perf e.1 + BitVec.ofNat 64 n) }
    else o) o

/-- Add to the counters of a cluster (R460). -/
def perfAdd (s : State) (cl ev core ctx n : Nat) : State :=
  if (s.cluster cl).obs.sel.isEmpty then s
  else s.modCluster cl fun c => { c with obs := c.obs.add ev core ctx 0 n }

/-- Add to the lookup core's own counts (14 R313) and to every cluster's counters that select it. -/
def perfLookup (s : State) (k ev n : Nat) : State :=
  let s := s.modLookup k fun l =>
    { l with stats := SMap.set 0 l.stats (ev - 0x30) (SMap.get 0 l.stats (ev - 0x30) + BitVec.ofNat 64 n) }
  { s with clusters := s.clusters.map fun e => (e.1, { e.2 with obs := e.2.obs.add ev 0 0 k n }) }

/-- SEQ of a slot that is being written (R456). -/
def seqBusy : BitVec 1024 := BitVec.ofNat 1024 ((2 ^ 32 - 1) * 2 ^ 32)

/-- The next step of the record being written: the body and the rest of the header, then SEQ (R457). -/
def Observe.writeOn (o : Observe) : Observe :=
  match o.writing with
  | none => o
  | some w =>
    if w.body then { o with trace := SMap.set 0 o.trace w.slot w.val, writing := none }
    else { o with trace := SMap.set 0 o.trace w.slot (w.val ||| seqBusy), writing := some { w with body := true } }

/-- A record is written once the one before it is: the slot's SEQ is set to 0xFFFF_FFFF first (R457). Its further steps come
with the next record or as GTS goes on (DESIGN CHOICE, log 15). -/
def Observe.record (o : Observe) (val : BitVec 1024) : Observe :=
  let o := o.writeOn.writeOn
  let slot := o.nseq.toNat % 128
  let o := if o.traceEn then { o with
      trace := SMap.set 0 o.trace slot (SMap.get 0 o.trace slot ||| seqBusy), writing := some ⟨slot, val, false⟩ } else o
  { o with nseq := o.nseq + 1 }

/-- A trace record of a cluster (R456, R457). -/
def traceRec (s : State) (cl type core ctx : Nat) (ms : Bool) (body : Nat) : State :=
  s.modCluster cl fun c =>
    let o := c.obs
    let hdr : Nat := s.gts * 2 ^ 64 + o.nseq.toNat * 2 ^ 32 + type * 2 ^ 24 +
      (if ms then 0 else core % 256) * 2 ^ 16 + ctx * 2 ^ 12 + (if ms then 2 ^ 11 else 0)
    { c with obs := o.record (BitVec.ofNat 1024 (hdr + (body % 2 ^ 896) * 2 ^ 128)) }

/-- Key of a unit in Proc.stall. -/
def unitKey : Option Eng → Nat
  | none => 0 | some .ve => 1 | some .px => 2 | some .hl => 3 | some .hs => 4

/-- Note the wait a unit's turn ended in; 0 for progress. -/
def setStall (s : State) (p : Nat) (u : Option Eng) (n : Nat) : State :=
  if SMap.get 0 (s.proc p).stall (unitKey u) = n then s
  else s.modProc p fun x => { x with stall := SMap.set 0 x.stall (unitKey u) n }

end Sys2Proof.Machine
end

