-- ==== Sys2Proof/Machine/Mem.lean ====
section
/-! DEFINITION. Memory: homes, windows, translation, L1, signatures, and the accesses of every unit
(08_memory_levels.md, 09_memory_access_instructions.md R198-R204, 11_consistency_model.md, 16 R352-R358, 17 R372-R375).

Home keys: a local physical address; an on-chip window address with the unit written out; 2^52 + core * 2^17 +
lane * 2^10 + offset for lane slices. Keys of different memories never meet. -/

namespace Sys2Proof.Machine

/-! ## Bytes at their homes -/

namespace Memory

/-- n bytes from a home key, little-endian (R1); an unlisted byte reads 0 (DESIGN CHOICE, log 2). -/
def read (m : Memory) (key : Nat) : Nat → Nat
  | 0 => 0
  | n + 1 => (SMap.get 0 m.bytes key).toNat + 256 * read m (key + 1) n

def write (m : Memory) (key : Nat) : Nat → Nat → Memory
  | 0, _ => m
  | n + 1, v => write { m with bytes := SMap.set 0 m.bytes key (BitVec.ofNat 8 v) } (key + 1) n (v / 256)

/-- Some sector of the n bytes is poisoned (R193). -/
def poisoned (m : Memory) (key n : Nat) : Bool :=
  SMap.get false m.poison (key / 128) || SMap.get false m.poison ((key + n - 1) / 128)

def setPoison (m : Memory) (sector : Nat) (b : Bool) : Memory :=
  { m with poison := SMap.set false m.poison sector b }

/-- Clear the poison of every sector all of whose bytes were written: the runs are home keys with lengths (R193;
DEDUCED, log 16, that the writes of one instruction or entry count together). -/
def clearFull (m : Memory) (runs : List (Nat × Nat)) : Memory :=
  m.poison.foldl (fun m e =>
    let full := (List.range 128).all fun b => runs.any fun r =>
      decide (r.1 ≤ e.1 * 128 + b) && decide (e.1 * 128 + b < r.1 + r.2)
    if full then m.setPoison e.1 false else m) m

end Memory

/-- Lane-slice home key (R181). -/
def laneKey (core lane off : Nat) : Nat := 2 ^ 52 + core * 2 ^ 17 + lane * 2 ^ 10 + off

/-! ## Units and places -/

/-- The unit that makes an access: the core it works for (256 + k for lookup core k), engine (none: the core itself),
context, and the core it belongs to, which differs for a chain of a LINK (13 R301). -/
structure Who where
  p : Nat
  eng : Option Eng
  ctx : Nat
  q : Nat
  deriving DecidableEq, Repr

/-- Kinds of access (R373). -/
inductive Access where
  | read | write | exec | atomic
  deriving DecidableEq, Repr

/-- Where an access goes: kind, node or queue pair, home key there, cacheable in L1, virtual address. -/
structure Place where
  kind : MKind
  peer : Nat
  key : Nat
  cache : Bool
  va : Nat
  deriving DecidableEq, Repr

def Place.isLocal (pl : Place) : Bool :=
  match pl.kind with
  | .window => true | .hbm => true | .capacity => true | _ => false

/-! ## On-chip windows (R183-R185) -/

def lstBase : Nat := 0xFF00000000000
def shBase : Nat := 0xFF80000000000
def shOwn : Nat := 0xFFC0000000000
def spBase : Nat := 0xFFD0000000000
def spOwn : Nat := 0xFFE0000000000
def laneBase : Nat := 0xFFF0000000000
def windowMin : Nat := 0xF000000000000

/-- An access of n bytes at offset o of the cluster-shared window (R185 checks 3, 5). -/
def shKey (s : State) (x o n : Nat) : Option Nat :=
  let c := o / 2 ^ 22
  if o % 2 ^ 22 + n ≤ 2 ^ 22 && s.inPart x c then some (shBase + o) else none

/-- An access of n bytes at offset o of the core-scratchpad window (R185 checks 2, 3, 5). -/
def spKey (s : State) (x o n : Nat) : Option Nat :=
  if o % 2 ^ 20 + n ≤ Config.spBytes && s.inPart x (clusterOf (o / 2 ^ 20)) then some (spBase + o) else none

/-- The home key of an n-byte on-chip access, none for WINDOW (R185). -/
def windowKey (s : State) (w : Who) (va n : Nat) : Option Nat :=
  if lstBase ≤ va && va + n ≤ lstBase + Config.lstBytes then
    let d := (s.ctx w.ctx).d
    let o := va - lstBase
    if d.lstb.toNat * 2 ^ 20 ≤ o && o + n ≤ (d.lstb.toNat + d.lstq.toNat) * 2 ^ 20 then some va else none
  else if shBase ≤ va && va < shBase + 2 ^ 28 then shKey s w.ctx (va - shBase) n
  else if shOwn ≤ va && va < shOwn + 2 ^ 22 then
    let o := va - shOwn
    if w.p < 256 && o + n ≤ 2 ^ 22 then shKey s w.ctx (clusterOf w.p * 2 ^ 22 + o) n else none
  else if spBase ≤ va && va < spBase + 2 ^ 28 then spKey s w.ctx (va - spBase) n
  else if spOwn ≤ va && va < spOwn + 2 ^ 20 then
    let o := va - spOwn
    if w.p < 256 && o + n ≤ Config.spBytes then spKey s w.ctx (w.p * 2 ^ 20 + o) n else none
  else none

/-! ## Translation (R372-R374) -/

/-- A physical address of HBM or of the capacity tier (R190). -/
def inHbm (pa : Nat) : Bool := decide (pa < Config.hbmBytes)
def inCap (pa : Nat) : Bool := decide (Config.capBase ≤ pa) && decide (pa < Config.capEnd)
def inMmio (pa : Nat) : Bool := decide (Config.mmioBase ≤ pa) && decide (pa < Config.mmioEnd)

/-- Fields of a page-table entry (R372). -/
abbrev pteV (e : Word) : Bool := e.getLsbD 63
abbrev pteLeaf (e : Word) : Bool := e.getLsbD 62
abbrev pteR (e : Word) : Bool := e.getLsbD 61
abbrev pteW (e : Word) : Bool := e.getLsbD 60
abbrev pteX (e : Word) : Bool := e.getLsbD 59
abbrev pteC (e : Word) : Bool := e.getLsbD 58
abbrev pteKind (e : Word) : Nat := (fld e 55 3).toNat
abbrev pteNode (e : Word) : Nat := (fld e 45 10).toNat
abbrev pteFrame (e : Word) : Nat := (fld e 0 45).toNat

/-- A pointer within its limits (R372). -/
def ptePointerOk (e : Word) : Bool :=
  fld e 45 17 == 0 && decide (pteFrame e < 2 ^ 30) && (inHbm (pteFrame e * 2 ^ 16) || inCap (pteFrame e * 2 ^ 16))

/-- The fields of a leaf of page size 2^sz are within their limits (R372, R373), for the address it gives. -/
def pteLeafOk (e : Word) (sz va : Nat) : Bool :=
  let a := pteFrame e * 2 ^ 16 + va % 2 ^ sz
  decide (pteFrame e % 2 ^ (sz - 16) = 0) &&
  match pteKind e with
  | 0 => pteNode e == 0 && inHbm a
  | 1 => pteNode e == 0 && inCap a
  | 2 => true
  | 3 => decide (pteNode e ≤ 767) && (inHbm a || inCap a)
  | 4 => pteNode e == 0 && inMmio a
  | _ => false

/-- The walk from the table at `t`, levels counted down from 3; the leaf with log2 of its page size. -/
def walk (m : Memory) (va : Nat) : Nat → Nat → Except Cause (Nat × Word)
  | 0, _ => .error .xlate
  | n + 1, t =>
    if !(inHbm (t * 2 ^ 16) || inCap (t * 2 ^ 16)) then .error .xlate
    else
      let sz := 16 + 12 * n
      let key := t * 2 ^ 16 + 8 * (va / 2 ^ sz % 2 ^ 12)
      if m.poisoned key 8 then .error .eccu
      else
        let e : Word := BitVec.ofNat 64 (m.read key 8)
        if !pteV e then .error .xlate
        else if pteLeaf e then (if pteLeafOk e sz va then .ok (sz, e) else .error .xlate)
        else if ptePointerOk e then walk m va n (pteFrame e) else .error .xlate

/-- Rights of a leaf for an access (R373). -/
def pteAllows (e : Word) : Access → Bool
  | .read => pteR e
  | .write => pteW e
  | .exec => pteX e
  | .atomic => pteR e && pteW e

/-- The place a leaf gives an address (R373). -/
def leafPlace (e : Word) (sz va : Nat) : Place :=
  let a := pteFrame e * 2 ^ 16 + va % 2 ^ sz
  let k := match pteKind e with
    | 0 => MKind.hbm | 1 => .capacity | 2 => .host | 3 => .remote | _ => .mmio
  ⟨k, pteNode e, a, pteC e && k != .mmio, va⟩

/-- STATE and CTX of a queue pair entry (R351). -/
def qpState (q : BitVec 128) : Nat := (fld q 8 3).toNat
def qpCtx (q : BitVec 128) : Nat := (fld q 16 4).toNat

/-- Entries of the translation cache of the module (R374). -/
def transMax : Nat := 131072

/-- Install a leaf, replacing an entry of the model's free choice in a full cache (R374, log 11). -/
def cacheLeaf (s : State) (t : Trans) : State :=
  if s.mem.trans.length < transMax then s.modMem fun m => { m with trans := t :: m.trans }
  else (s.modMem fun m => { m with trans := t :: m.trans.eraseIdx (Config.freeVictim s.free % transMax) }).bump

/-- Translation of a global address (R373-R375, R352); a cached leaf serves until a TLBINV covers it. -/
def translate (w : Who) (va : Nat) (k : Access) : M Place := do
  let s ← get
  let d := (s.ctx w.ctx).d
  let hit := s.mem.trans.find? fun t => t.asid == d.asid && t.vpn == va / 2 ^ t.sz
  let (sz, e) ← match hit with
    | some t => if pteLeafOk t.pte t.sz va then pure (t.sz, t.pte) else faultM .xlate va
    | none => match walk s.mem va 3 d.ptroot.toNat with
      | .error c => faultM c va
      | .ok r => pure r
  need (pteAllows e k) .perm va
  let pl := leafPlace e sz va
  if pl.kind = .host then
    let q := SMap.get 0 s.links.qps pl.peer
    need (qpCtx q == w.ctx && qpState q == 3) .perm va
  if hit.isNone then doS fun s => cacheLeaf s ⟨d.asid, va / 2 ^ sz, sz, e⟩
  return pl

/-- The valid sector of a core's L1 that serves an address: not yet expired (R186, R249). -/
def l1Key (asid : BitVec 16) (va : Nat) : Nat := asid.toNat * 2 ^ 45 + va / 128 % 2 ^ 45

def l1Hit (s : State) (p : Nat) (asid : BitVec 16) (va : Nat) : Option L1Sector :=
  match SMap.get none (s.proc p).coh.l1 (l1Key asid va) with
  | some t => if s.gts < t.fill.toNat + 65536 then some t else none
  | none => none

/-- The ASID of the accessing context. -/
def Who.asid (w : Who) (s : State) : BitVec 16 := (s.ctx w.ctx).d.asid

/-- The place a valid sector was filled from, for an address in it. -/
def L1Sector.place (t : L1Sector) (va : Nat) : Place := ⟨t.kind, t.peer, t.pa + va % 128, true, va⟩

/-- Where an n-byte access goes: window checks, then the page tables (R185, R198 step 3). -/
def resolve (w : Who) (va n : Nat) (k : Access) : M Place := do
  if va < windowMin then translate w va k
  else match windowKey (← get) w va n with
    | some key => return ⟨.window, 0, key, false, va⟩
    | none => faultM .window va

/-- Where a plain load of n bytes goes: a valid L1 sector serves it without translation (R186), unless it is served at the
home (R202). -/
def resolveLoad (w : Who) (va n : Nat) (home : Bool) : M Place := do
  let s ← get
  match (if home || decide (windowMin ≤ va) then none else l1Hit s w.p (w.asid s) va) with
  | some t => return t.place va
  | none => resolve w va n .read

/-! ## Signatures (R249-R254) -/

/-- Fold and Rot of R251 over 49-bit numbers. -/
def sigFold (y : Nat) : Nat :=
  (y % 1024) ^^^ (y / 2 ^ 10 % 1024) ^^^ (y / 2 ^ 20 % 1024) ^^^ (y / 2 ^ 30 % 1024) ^^^ (y / 2 ^ 40 % 512)
def rot49 (y n : Nat) : Nat := ((y <<< n) ||| (y >>> (49 - n))) % 2 ^ 49

/-- The three hash bits of a sector number. -/
def sigBits (x : Nat) : List Nat := [sigFold x, sigFold (rot49 x 17), sigFold (rot49 x 33)]

def sigAdd (g : Sig) (x : Nat) : Sig := (sigBits x).foldl (fun g b => g ||| (1#1024 <<< b)) g

/-- Whether a sector matches a signature (R251). -/
def sigMatch (g : Sig) (x : Nat) : Bool := (sigBits x).all fun b => g.getLsbD b

/-- The sector number of a global place (R251); 2^49 stands for sectors that are never folded. -/
def sectorNumber (node : Nat) (pl : Place) : Nat :=
  match pl.kind with
  | .hbm => node * 2 ^ 39 + pl.key / 128 % 2 ^ 39
  | .capacity => node * 2 ^ 39 + pl.key / 128 % 2 ^ 39
  | .remote => pl.peer * 2 ^ 39 + pl.key / 128 % 2 ^ 39
  | _ => 2 ^ 49

/-- Home with signature slots of a place on this module: L2 slices 0-31, LST slices from 32, cluster-shared memories
from 96, core scratchpads from 160 (R188, R252). -/
def slotHome (pl : Place) : Nat :=
  let a := pl.key
  match pl.kind with
  | .window =>
    if a < shBase then 32 + (a - lstBase) / (96 * 2 ^ 20)
    else if a < spBase then 96 + (a - shBase) / 2 ^ 22
    else 160 + (a - spBase) / 2 ^ 20
  | _ => (a / 2 ^ 10 % 32) ^^^ (a / 2 ^ 15 % 32) ^^^ (a / 2 ^ 20 % 32)

def slotKey (node : Nat) (pl : Place) : Nat :=
  match pl.kind with
  | .window => pl.key / 128
  | _ => sectorNumber node pl

def slotMax (home : Nat) : Nat := if home < 32 then 256 else 16

/-- A slot that has not expired (R252). -/
def SigSlot.valid (t : SigSlot) (now : Nat) : Bool := decide (now < t.at_.toNat + 65536)

/-- The oldest of a home's slots. -/
def oldestSlot : List SigSlot → Option SigSlot
  | [] => none
  | t :: ts => match oldestSlot ts with
    | none => some t
    | some u => if u.at_.toNat < t.at_.toNat then some u else some t

/-- A release to a sector attaches its signature at the home (R252). -/
def attachSig (s : State) (home key : Nat) (g : Sig) : State :=
  let now := s.gts
  let live := s.mem.slots.filter fun t => t.valid now
  let mine := live.filter fun t => t.home == home
  let new (old : Sig) : SigSlot := ⟨home, key, old ||| g, s.mod.gts⟩
  let rest := live.filter fun t => !(t.home == home && t.key == key)
  match mine.find? fun t => t.key == key with
  | some t => s.modMem fun m => { m with slots := new t.sig :: rest }
  | none =>
    if mine.length < slotMax home then s.modMem fun m => { m with slots := new 0 :: rest }
    else match oldestSlot mine with
      | none => s
      | some o => s.modMem fun m =>
        { m with slots := new 0 :: rest.filter (fun t => !(t.home == home && t.key == o.key)),
                 fullto := SMap.set 0 m.fullto home
                   (BitVec.ofNat 64 (max (SMap.get 0 m.fullto home).toNat (now + 65536))) }

/-- The slot signature of a sector at its home; none while the full window is open (R254). -/
def slotSig (s : State) (home key : Nat) : Option Sig :=
  match s.mem.slots.find? fun t => t.home == home && t.key == key && t.valid s.gts with
  | some t => some t.sig
  | none => if s.gts < (SMap.get 0 s.mem.fullto home).toNat then none else some 0

def allOnes : Sig := BitVec.allOnes 1024

def Coh.ws (c : Coh) : Sig := c.wsCur ||| c.wsPrv

/-- Invalidate the L1 sectors that match a signature, and those the core itself has stored to through another virtual
address (R187, R258). -/
def Coh.invalidate (c : Coh) (g : Sig) : Coh :=
  { c with l1 := c.l1.filter fun e => match e.2 with
      | some t => !(sigMatch g t.x || t.stale)
      | none => false }

def Coh.flush (c : Coh) : Coh := { c with l1 := [] }

/-- Acquire(.co) and Acquire(.sy) (R254). -/
def acquireCo (s : State) (p : Nat) : State :=
  s.modCoh p fun c => c.invalidate (c.ws ||| c.psCur ||| c.psPrv)
def acquireSy (s : State) (p : Nat) : State := s.modCoh p fun c => { c.flush with wsCur := allOnes }

/-- Acquire at .cl, .dv or .dm with the signature received; none is a full window (R254). -/
def acquireSlot (s : State) (p : Nat) : Option Sig → State
  | none => acquireSy s p
  | some g => s.modCoh p fun c =>
    { c.invalidate (g ||| c.psCur ||| c.psPrv) with wsCur := c.wsCur ||| g }

/-- Acquire of a hand-off whose wait names a scope (R260). -/
def acquireWait (s : State) (p : Nat) (sc : BitVec 3) : State := if sc = 4 then acquireSy s p else acquireCo s p

/-- OR a signature into PS (R260, R261). -/
def mergePs (s : State) (p : Nat) (g : Sig) : State := s.modCoh p fun c => { c with psCur := c.psCur ||| g }

/-- Accesses of a core outstanding at other modules or, with `host`, also at the host. -/
def outstanding (s : State) (p : Nat) (host : Bool) : Bool :=
  s.fl.remotes.any fun r => r.core == p && (host || !r.host)

/-- Everything Release(sc) waits for has performed and is folded (R253). -/
def released (s : State) (p : Nat) (sc : BitVec 3) : Bool :=
  (s.proc p).coh.acks.isEmpty &&
  (if sc = 3 then !outstanding s p false else if sc = 4 then !outstanding s p true else true)

/-- Release(sc): waits; the signature carried, none at .co (R253). -/
def release (p : Nat) (sc : BitVec 3) : M (Option Sig) := do
  let s ← get
  await (released s p sc)
  return if sc = 0 then none else some (s.proc p).coh.ws

/-! ## L1 (R186) -/

/-- Copies of a place's sector held under another virtual address become stale (R187); until the next acquire they still
serve loads (DESIGN CHOICE, log 11). -/
def l1Alias (s : State) (p : Nat) (asid : BitVec 16) (pl : Place) : State :=
  let other (e : Nat × Option L1Sector) : Bool := match e.2 with
    | some t => e.1 != l1Key asid pl.va && t.kind == pl.kind && t.peer == pl.peer && t.pa == pl.key / 128 * 128
    | none => false
  if (s.proc p).coh.l1.any other then
    s.modCoh p fun c => { c with l1 := c.l1.map fun e => if other e then (e.1, e.2.map fun t => { t with stale := true }) else e }
  else s

def l1Drop (s : State) (p : Nat) (asid : BitVec 16) (va : Nat) : State :=
  s.modCoh p fun c => { c with l1 := SMap.set none c.l1 (l1Key asid va) none }

/-- Fill a sector; in a set whose 8 lines are taken the line replaced is a free choice (log 11). -/
def l1Fill (s : State) (p : Nat) (asid : BitVec 16) (va : Nat) (t : L1Sector) : State :=
  let k := l1Key asid va
  let l1 := (s.proc p).coh.l1
  let lines := ((l1.map fun e => e.1 / 8).filter fun l => l % 16 == k / 8 % 16).eraseDups
  if lines.contains (k / 8) || lines.length < 8 then
    s.modCoh p fun c => { c with l1 := SMap.set none c.l1 k (some t) }
  else
    let victim := lines.getD (Config.freeVictim s.free % 8) 0
    (s.modCoh p fun c =>
      { c with l1 := SMap.set none (c.l1.filter fun e => e.1 / 8 != victim) k (some t) }).bump

/-- A store updates the valid sector's bytes in the same step (R186). Another virtual address of the sector goes on reading the
old bytes until the next acquire, where R187 also allows the new ones (DESIGN CHOICE, log 11). -/
def l1Update (s : State) (p : Nat) (asid : BitVec 16) (va n v : Nat) : State :=
  match l1Hit s p asid va with
  | none => s
  | some t =>
    let o := 8 * (va % 128)
    let mask : BitVec 1024 := BitVec.ofNat 1024 ((2 ^ (8 * n) - 1) <<< o)
    let d := (t.data &&& ~~~mask) ||| BitVec.ofNat 1024 ((v % 2 ^ (8 * n)) <<< o)
    s.modCoh p fun c => { c with l1 := SMap.set none c.l1 (l1Key asid va) (some { t with data := d }) }

/-- A store of some bits of a byte. -/
def l1Merge (s : State) (p : Nat) (asid : BitVec 16) (va v mask : Nat) : State :=
  match l1Hit s p asid va with
  | none => s
  | some t =>
    let old := (t.data.toNat >>> (8 * (va % 128))) % 256
    l1Update s p asid va 1 ((old &&& (255 - mask)) ||| v)

/-! ## Accesses to other modules and to the host (R352, R356, R358) -/

/-- A sector fill of a core's L1 is counted (22 R460). -/
def countMiss (s : State) (w : Who) : State := if w.p < 256 then perfAdd s (clusterOf w.p) 0x20 w.p w.ctx 1 else s

/-- The tag of a unit's brick that a command carries. -/
def Who.btag (w : Who) (s : State) : Option (BitVec 3) :=
  let x := s.proc w.q
  match w.eng with
  | none => x.cur
  | some .ve => x.eng.ve.cap.map (·.tag)
  | some .px => ((x.eng.px.serving.map (·.cap)).or x.eng.px.cap).map (·.tag)
  | some .hl => x.eng.hl.cap.map (·.tag)
  | some .hs => x.eng.hs.cap.map (·.tag)

/-- The tag of a read whose instruction has ended: no access has it. -/
def deadTag : Nat := 2 ^ 200

/-- An outstanding access of the unit that an access of class `cls` to n bytes at `va` may not overtake (R248): one of its class
that is not on its own path `dest` (R358), or one to a common byte through the same virtual address (R199). -/
def Remote.bars (r : Remote) (w : Who) (cls : BitVec 4) (va n : Nat) (dest : Option (Bool × Nat)) : Bool :=
  r.core == w.p && r.q == w.q && r.eng == w.eng && r.tag != deadTag && r.kind != 4 &&
  ((r.cls == cls && dest != some (r.host, r.peer)) || (r.cls != cls && decide (r.va < va + n) && decide (va < r.va + r.n)))

/-- Wait until no outstanding access of the unit bars this one. -/
def inOrder (w : Who) (cls : BitVec 4) (va n : Nat) (dest : Option (Bool × Nat) := none) : M Unit := do
  let s ← get
  await (!(s.fl.remotes.any fun r => r.bars w cls va n dest))

/-! Rings (12 R269, 04 R74), which records about a stream name by address. -/

def ringDesc (s : State) (p : Nat) (px : Bool) : BitVec 32 := if px then (s.ve p).pring else (s.ve p).vring
def ringSize (d : BitVec 32) : Nat := (fld d 0 4).toNat
/-- Scratchpad offset of parcel offset n. -/
def ringOffset (d : BitVec 32) (n : Nat) : Nat := (fld d 4 10).toNat * 1024 + 2 * n % 2 ^ (ringSize d + 9)
/-- Its home key, which is also its address in the scratchpad window by global core number; 0 without a ring (DEDUCED,
log 23: LOC of a record names it so). -/
def ringKey (s : State) (p : Nat) (px : Bool) (n : Nat) : Nat :=
  let d := ringDesc s p px
  if ringSize d = 0 then 0 else spBase + p * 2 ^ 20 + ringOffset d n

/-- Ring offset of the next instruction's first parcel. -/
def Sequencer.here (q : Sequencer) : Nat :=
  match q.block with
  | some b => b.start + b.pos
  | none => q.pc

/-- LOC and DETAIL of a record about what a unit does (15 R335, R336). -/
structure Site where
  loc : Nat
  detail : BitVec 24
  deriving DecidableEq, Repr

def siteOf (s : State) (w : Who) : Site :=
  let x := s.proc w.q
  let hod (h : Hod) : Site := ⟨h.addr, BitVec.ofNat 24 ((h.entry.getD 0).toNat % 256)⟩
  match w.eng with
  | none => ⟨x.img.cc.pc.toNat % 2 ^ 52, 0⟩
  | some .ve => ⟨ringKey s w.q false x.eng.ve.here, 0⟩
  | some .px => match x.eng.px.serving with
    | some g => ⟨0, BitVec.ofNat 24 (g.slot * 2 ^ 18)⟩
    | none => ⟨ringKey s w.q true x.eng.px.here, x.eng.px.note⟩
  | some .hl => hod x.eng.hl
  | some .hs => hod x.eng.hs

/-- A new entry of the accesses outstanding. -/
def newRemote (s : State) (w : Who) (pl : Place) (kind tag n : Nat) (cls : BitVec 4) (x cas : Option Nat) : Remote :=
  let at_ := siteOf s w
  { core := w.p, q := w.q, eng := w.eng, host := decide (pl.kind = .host), peer := pl.peer, cls := cls, kind := kind, tag := tag,
    key := pl.key, va := pl.va, n := n, btag := w.btag s, loc := at_.loc, detail := at_.detail, x := x, cas := cas }

/-- One access of n bytes to another module or to the host. `tag` names it within the instruction, so that an instruction that
waits and runs again neither repeats it nor mistakes its answer. A read or atomic waits for its answer; a write waits
only for the accesses it may not overtake (R248, R358), for a paused priority and for the 16 reads and atomics a
queue pair may have outstanding (R350). `send` puts the request on its way; `code`: a fetch of code, which overtakes data. -/
def remoteAccess (w : Who) (pl : Place) (kind tag n : Nat) (cls : BitVec 4) (x cas : Option Nat) (send : State → State)
    (code : Bool := false) : M (Option Answer) := do
  let s ← get
  let host := pl.kind = .host
  match (s.proc w.q).coh.rbuf.find? fun r => r.1 == w.eng && r.2.1 == tag with
  | some (_, _, none) => faultM .perm pl.va
  | some (_, _, some a) => return some a
  | none =>
    await (!(s.fl.remotes.any fun r => r.core == w.p && r.q == w.q && r.eng == w.eng && r.tag == tag))
    if !code then inOrder w cls pl.va n (some (host, pl.peer))
    if host then
      let q := SMap.get 0 s.links.qps pl.peer
      await (!(SMap.get false s.links.paused ((fld q 14 2).toNat * 8 + (fld q 11 3).toNat)))
      await (kind == 1 || decide ((s.fl.remotes.filter fun r => r.host && r.peer == pl.peer && r.kind != 1).length < 16))
    doS fun s => send (s.modFl fun f => { f with remotes := f.remotes ++ [newRemote s w pl kind tag n cls x cas] })
    if kind == 1 then
      doS fun s => s.modCoh w.q fun c => { c with rbuf := c.rbuf ++ [(w.eng, tag, some ⟨[], some 0, false⟩)] }
      return none
    else waitM

/-- A read or atomic still waited for by unit u of core p. -/
def Remote.awaited (r : Remote) (p : Nat) (u : Option Eng) : Bool := r.q == p && r.eng == u && r.kind != 1 && r.kind != 4 && r.tag != deadTag

/-- When a unit's instruction ends its answers are dropped, and those still to come concern nobody. -/
def clearAnswers (p : Nat) (u : Option Eng) (s : State) : State :=
  let s :=
    if (s.proc p).coh.rbuf.any fun r => r.1 == u then
      s.modCoh p fun c => { c with rbuf := c.rbuf.filter fun r => r.1 != u }
    else s
  if s.fl.remotes.any fun r => r.awaited p u then
    s.modFl fun f => { f with remotes := f.remotes.map fun r => if r.awaited p u then { r with tag := deadTag } else r }
  else s

def leN : List Byte → Nat
  | [] => 0
  | b :: bs => b.toNat + 256 * leN bs
def bytesN : Nat → Nat → List Byte
  | 0, _ => []
  | n + 1, v => BitVec.ofNat 8 v :: bytesN n (v / 256)

/-- Bytes of a packet (R350). -/
def mtuBytes (l : Links) : Nat := 1024 * 2 ^ min l.mtu.toNat 2

/-- The request a place's owner receives: on a queue pair to DQPN under RKEY (R351), else flits whose payload begins with the
address; ARG is a byte count or, for an atomic, its operation (R356). -/
def request (w : Who) (pl : Place) (kind n arg : Nat) (cls : BitVec 4) (data : List Byte) (s : State) : State :=
  if pl.kind = .host then
    let v := SMap.get 0 s.links.qps pl.peer
    s.send (.roce pl.peer (fld v 104 24) (fld v 48 32) kind pl.key ((n + mtuBytes s.links - 1) / mtuBytes s.links)
      (if kind = 0 then bytesN 4 n else data))
  else s.sendFlits pl.peer kind (s.ctx w.ctx).gid (w.p % 256) cls arg (data.length / 240 + 2) (bytesN 8 pl.key ++ data)

/-! ## Loads, stores, atomics -/

/-- The effective attributes of an access: class, scope, its number within the instruction, the signature a release
carries. -/
structure Attr where
  cls : BitVec 4 := 0
  sc : BitVec 3 := 0
  idx : Nat := 0
  sig : Option Sig := none
  deriving DecidableEq, Repr

def Attr.tag (a : Attr) (kind : Nat) (pl : Place) : Nat := ((a.idx * 4 + kind) * 1024 + pl.peer) * 2 ^ 64 + pl.key

/-- The bytes of a release's signature, which travel with its write to another module (R252). -/
def Attr.sigBytes (a : Attr) : List Byte := match a.sig with
  | none => []
  | some g => bytesN 128 g.toNat

/-- ECCU with the sector's first byte (R193). -/
def checkPoison (pl : Place) (n : Nat) : M Unit := do
  need (!((← get).mem.poisoned pl.key n)) .eccu (pl.va / 128 * 128)

/-- n bytes of another module or of the host, and whether their sector is poisoned there. -/
def remoteRead (w : Who) (pl : Place) (n : Nat) (a : Attr) (code : Bool := false) : M (Nat × Bool) := do
  let r ← remoteAccess w pl 0 (a.tag 0 pl) n a.cls none none (request w pl 0 n n a.cls []) code
  return (leN ((r.map (·.data)).getD []) % 2 ^ (8 * n), (r.map (·.poison)).getD false)

/-- The sector a fill records. A copy filled while a store of the core to the sector is still on its way to another module
or the host is stale at the next acquire (R187). -/
def newSector (s : State) (w : Who) (pl : Place) (v : Nat) : L1Sector :=
  { data := BitVec.ofNat 1024 v, x := sectorNumber s.mod.node.toNat pl, fill := s.mod.gts, kind := pl.kind, peer := pl.peer,
    pa := pl.key / 128 * 128,
    stale := s.fl.remotes.any fun r => r.core == w.p && r.kind == 1 && r.host == decide (pl.kind = .host) && r.peer == pl.peer &&
      r.key / 128 == pl.key / 128 }

/-- A load of n bytes, which lie in one sector unless on-chip; `home`: served at the home (R186, R202); `code`: a fetch,
which no order of data accesses holds back (R78, R248). -/
def load (w : Who) (pl : Place) (n : Nat) (home : Bool) (a : Attr := {}) (code : Bool := false) : M Nat := do
  let s ← get
  let order : M Unit := if code then pure () else inOrder w a.cls pl.va n
  let asid := w.asid s
  let hit := if home || !pl.cache then none else l1Hit s w.p asid pl.va
  match pl.kind, hit with
  | .mmio, _ => faultM .perm pl.va
  | .host, none => remoteLoad asid
  | .remote, none => remoteLoad asid
  | .window, _ => order; checkPoison pl n; return s.mem.read pl.key n
  | _, some t => order; return (t.data.toNat >>> (8 * (pl.va % 128))) % 2 ^ (8 * n)
  | _, none =>
    order
    checkPoison pl n
    if pl.cache then
      doS fun s => l1Fill (countMiss s w) w.p asid pl.va (newSector s w pl (s.mem.read (pl.key / 128 * 128) 128))
    return s.mem.read pl.key n
where
  remoteLoad (asid : BitVec 16) : M Nat := do
    -- a cacheable sector is fetched whole (R186)
    let pl' := if pl.cache then { pl with key := pl.key / 128 * 128 } else pl
    let (v, bad) ← remoteRead w pl' (if pl.cache then 128 else n) a code
    need (!bad) .eccu (pl.va / 128 * 128)
    if pl.cache then
      doS fun s => l1Fill (countMiss s w) w.p asid pl.va (newSector s w pl v)
      return (v >>> (8 * (pl.va % 128))) % 2 ^ (8 * n)
    else return v % 2 ^ (8 * n)

/-- A store of n bytes: performed at its home in this step on this module (log 6), sent as a write to another module
or the host; the acknowledgement folds the sector later (R250). `poison`: the bytes come from a poisoned sector (R193). -/
def store (w : Who) (pl : Place) (n v : Nat) (a : Attr := {}) (poison : Bool := false) : M Unit := do
  let s ← get
  let asid := w.asid s
  let x := sectorNumber s.mod.node.toNat pl
  match pl.kind with
  | .window => inOrder w a.cls pl.va n; doS fun s => s.modMem fun m => m.write pl.key n v
  | .mmio => faultM .perm pl.va
  | .host =>
    let _ ← remoteAccess w pl 1 (a.tag 1 pl) n a.cls none none (request w pl 1 n n a.cls (bytesN n v))
    doS fun s => l1Alias (l1Update s w.p asid pl.va n v) w.p asid pl
  | .remote =>
    let _ ← remoteAccess w pl 1 (a.tag 1 pl) n a.cls (some x) none
      (request w pl 1 n n a.cls (bytesN 1 (if poison then 1 else 0) ++ bytesN n v ++ a.sigBytes))
    doS fun s => l1Alias (l1Update s w.p asid pl.va n v) w.p asid pl
  | _ =>
    inOrder w a.cls pl.va n
    doS fun s => l1Alias (l1Update ((s.modMem fun m => m.write pl.key n v).modCoh w.p
      fun c => { c with acks := c.acks ++ [x] }) w.p asid pl.va n v) w.p asid pl

/-- A store of the bits of `mask` to one byte of another module, merged with the others at its home in one step (R211). -/
def storeMerge (w : Who) (pl : Place) (v mask : Nat) (a : Attr := {}) (poison : Bool := false) : M Unit := do
  let s ← get
  let asid := w.asid s
  let _ ← remoteAccess w pl 1 (a.tag 1 pl) 1 a.cls (some (sectorNumber s.mod.node.toNat pl)) none
    (request w pl 1 1 1 a.cls (bytesN 1 (2 + if poison then 1 else 0) ++ bytesN 1 v ++ bytesN 1 mask))
  doS fun s => l1Alias (l1Merge s w.p asid pl.va v mask) w.p asid pl

/-- What a remote owner is asked for by an atomic: the operation of an AMO (R203), its bytes, and the element type that a
floating sum rounds to (R214); these fill ARG (R356; DESIGN CHOICE, log 42). -/
def atomicArg (op : BitVec 4) (n : Nat) (ty : BitVec 4) : Nat := op.toNat + 16 * n + 256 * ty.toNat

/-- An indivisible update at the home (R203, R204, R214): the old value; `f` gives the new one, if any. The issuing
core's copy of the sector is invalidated (R186). `op` and `ty` are what a remote owner is asked for. -/
def atomically (w : Who) (pl : Place) (n : Nat) (f : Nat → Option Nat) (op : BitVec 4) (b e : Nat) (a : Attr := {})
    (ty : BitVec 4 := 6) : M Nat := do
  let s ← get
  doS fun s => l1Alias (l1Drop s w.p (w.asid s) pl.va) w.p (w.asid s) pl
  let x := sectorNumber s.mod.node.toNat pl
  match pl.kind with
  | .mmio => faultM .perm pl.va
  | .host => remoteAtomic s none
  | .remote => remoteAtomic s (some x)
  | k =>
    inOrder w a.cls pl.va n
    checkPoison pl n
    let old := s.mem.read pl.key n
    match f old with
    | none => return old
    | some new =>
      doS fun s => s.modMem fun m => m.write pl.key n new
      if k != .window then doS fun s => s.modCoh w.p fun c => { c with acks := c.acks ++ [x] }
      return old
where
  remoteAtomic (s : State) (x : Option Nat) : M Nat := do
    let r ← remoteAccess w pl 2 (a.tag 2 pl) n a.cls x (if op = 9 then some e else none)
      (request w pl 2 n (atomicArg op n ty) a.cls (bytesN 1 op.toNat ++ bytesN n b ++ bytesN n e))
    need (!(r.map (·.poison)).getD false) .eccu (pl.va / 128 * 128)
    return leN ((r.map (·.data)).getD []) % 2 ^ (8 * n)

/-- Acquire(sc, sector of pl) after a read at its home (R254); `g` is what a remote home returned. -/
def acquire (w : Who) (sc : BitVec 3) (pl : Place) (g : Option Sig := none) : M Unit := do
  let s ← get
  if sc = 4 then set (acquireSy s w.p)
  else if sc = 0 then set (acquireCo s w.p)
  else
    let got := if pl.isLocal then slotSig s (slotHome pl) (slotKey s.mod.node.toNat pl) else g
    set (acquireSlot s w.p got)

/-- The signature an answered remote read brought with it (R254). -/
def answerSig (w : Who) (pl : Place) (a : Attr := {}) : M (Option Sig) := do
  let s ← get
  let pl' := if pl.cache then { pl with key := pl.key / 128 * 128 } else pl
  match (s.proc w.q).coh.rbuf.find? fun r => r.1 == w.eng && r.2.1 == a.tag 0 pl' with
  | some (_, _, some ans) => return ans.sig
  | _ => return none

/-- Attach a release's signature at a local home (R252). -/
def attach (pl : Place) (g : Option Sig) : M Unit := do
  match g with
  | none => pure ()
  | some g =>
    if pl.isLocal then doS fun s => attachSig s (slotHome pl) (slotKey s.mod.node.toNat pl) g

end Sys2Proof.Machine
end

