-- ==== Sys2Proof/Machine/SyncOps.lean ====
section
/-! DEFINITION. Start images and saved images of a context, semaphores, slot counters, posts and rendezvous registers
(06 R112, 20_sync_counters.md R425-R436). -/

namespace Sys2Proof.Machine

/-! ## Images -/

/-- First byte of core p's image in a context's save area (28 R479). -/
def imageBase (s : State) (x p : Nat) : Nat := (s.ctx x).saveb.toNat + p * 2 ^ 22

/-- cc.tvec of the start image: what system software wrote into the save area before the core's first run (06 R112). -/
def startVector (s : State) (x p : Nat) : Word :=
  match SMap.get none s.startTvec (x * 512 + p) with
  | some v => v
  | none => if p < 256 then BitVec.ofNat 64 (s.mem.read (imageBase s x p + 0x1020) 8) &&& ~~~0xFFF#64 else 0

/-- The control-core part of the image of R112. -/
def startCC (s : State) (x p : Nat) : CCRegs :=
  let hof := (s.ctx x).hof
  let pc := match hof with
    | none => 0
    | some h => if p < 256 then h.ccpc else h.lkpc.getD 0
  { CCRegs.reset with pc := pc, tvec := startVector s x p }

/-- The loader's semaphore values (05 R109). -/
def loaderSems (s : State) (x : Nat) : SMap (BitVec 17) :=
  match (s.ctx x).hof with
  | none => []
  | some h => h.sems.map fun e => (e.1, e.2.setWidth 17)

/-- What a core holds for a context that has not run on it (R112; rings and semaphores from the loader, 05 R107, R109). -/
def startImage (s : State) (x p : Nat) : Image :=
  let ve := match (s.ctx x).hof with
    | none => VERegs.reset
    | some h => { VERegs.reset with vring := h.vring, pring := h.pring }
  ⟨startCC s x p, ve, { Sync.reset with sem := loaderSems s x }⟩

/-- The saved image of a context on a core, which is the start image until a save (R112, R345). -/
def savedImage (s : State) (x p : Nat) : Saved := (s.savedOf x p).getD ⟨startImage s x p, [], false, 0⟩

/-- Whether a core holds a context live. -/
def liveOn (s : State) (x p : Nat) : Bool := (s.proc p).ctxOf == some x

/-- The counters of a context on a core, live or saved (R431). -/
def syncOf (s : State) (x p : Nat) : Sync := if liveOn s x p then s.sync p else (savedImage s x p).img.sync

def modSyncOf (s : State) (x p : Nat) (f : Sync → Sync) : State :=
  if liveOn s x p then s.modSync p f
  else
    let v := savedImage s x p
    s.setSaved x p (some { v with img := { v.img with sync := f v.img.sync } })

/-! ## Semaphores (R425, R426) -/

namespace Sync

def semWord (y : Sync) (n : Nat) : BitVec 17 := if n = 0 then 0 else SMap.get 0 y.sem n
def semVal (y : Sync) (n : Nat) : Nat := (fld (y.semWord n) 0 16).toNat
def setSem (y : Sync) (n : Nat) (v : BitVec 17) : Sync := if n = 0 then y else { y with sem := SMap.set 0 y.sem n v }

/-- Addition with saturation. -/
def semAdd (y : Sync) (n a : Nat) : Sync :=
  let v := y.semVal n + a
  let sat := (y.semWord n).getLsbD 16 || decide (v > 0xFFFF)
  y.setSem n (BitVec.ofNat 17 (min v 0xFFFF + if sat then 0x10000 else 0))

/-- Subtraction of a take that fits. -/
def semSub (y : Sync) (n a : Nat) : Sync := y.setSem n (y.semWord n - BitVec.ofNat 17 a)

def scVal (y : Sync) (c : Nat) : BitVec 32 := SMap.get 0 y.sc c
def scAdd (y : Sync) (c : Nat) (a : BitVec 32) : Sync := { y with sc := SMap.set 0 y.sc c (y.scVal c + a) }

end Sync

/-- Grant waiters of semaphore n in order while the oldest one's amount fits (R426): the counters and queue after. -/
def semServe (n : Nat) (y : Sync) : List SemWaiter → Sync × List SemWaiter
  | [] => (y, [])
  | w :: ws =>
    if w.sem = n && !w.granted then
      if w.amount ≤ y.semVal n then
        let r := semServe n (y.semSub n w.amount) ws
        (r.1, { w with granted := true } :: r.2)
      else (y, w :: ws)
    else
      let r := semServe n y ws
      (r.1, w :: r.2)

/-- Change a core's live semaphore n and serve its waiters. -/
def semChange (s : State) (p n : Nat) (f : Sync → Sync) : State :=
  s.modProc p fun x =>
    let r := semServe n (f x.img.sync) x.semq
    { x with img := { x.img with sync := r.1 }, semq := r.2 }

/-- A raise or post of a units of credit by a unit of the core (R425). -/
def semRaise (s : State) (p n a : Nat) : State := semChange s p n fun y => y.semAdd n a

/-- A take as a waiter of the semaphore (R426): waits in order; what a unit has been granted it consumes once. -/
def semTake (p : Nat) (who : Option (Nat × Eng)) (n a : Nat) : M Unit := do
  let s ← get
  let q := (s.proc p).semq
  match q.find? fun w => w.who == who with
  | some w =>
    await w.granted 0x14
    doS fun s => s.modProc p fun x => { x with semq := x.semq.filter fun w => w.who != who }
  | none =>
    if a ≤ (s.sync p).semVal n && !(q.any fun w => w.sem == n && !w.granted) then
      doS fun s => s.modSync p fun y => y.semSub n a
    else
      doS fun s => s.modProc p fun x => { x with semq := x.semq ++ [⟨n, who, a, false⟩] }
      waitM 0x14

/-- A unit's wait ends without a take, as in an abort or a save; younger waiters are considered afresh. -/
def semLeave (s : State) (p : Nat) (who : Option (Nat × Eng)) : State :=
  match (s.proc p).semq.find? fun w => w.who == who with
  | none => s
  | some w =>
    let s := s.modProc p fun x => { x with semq := x.semq.filter fun w => w.who != who }
    semChange s p w.sem fun y => if w.granted then y.semAdd w.sem w.amount else y

/-! ## Posts (R428, R431) -/

/-- Send a post to a core of this module; it is applied in its source's order (R428). -/
def sendPost (s : State) (src : PostSource) (x core ctr : Nat) (amount : BitVec 32) (g : Sig) : State :=
  s.modFl fun f => { f with posts := f.posts ++ [⟨src, core, x, ctr, amount, g⟩] }

/-- A post reaches its counter, live or saved, and merges its signature (R428, R431). -/
def applyPost (s : State) (q : Post) : State :=
  mergePs (modSyncOf s q.ctx q.core fun y => y.scAdd q.ctr q.amount) q.core q.sig

/-! ## Rendezvous registers (R433-R435) -/

def rdvOf (y : Sync) (k : Nat) : Rdv := SMap.get Rdv.reset y.rdv k

/-- Deliver a completed generation's signature to one image's arrival. -/
def Sync.deliver (y : Sync) (host k : Nat) (gen : BitVec 16) (g : Sig) : Sync :=
  match y.arrival with
  | some a => if a.host = host && a.k = k && a.gen = gen && a.sig.isNone then { y with arrival := some { a with sig := some g } } else y
  | none => y

/-- Completion of a generation: delivery to every waiting arrival of the context, live or saved, and the next
generation (R433, R438). -/
def rdvComplete (s : State) (x host k : Nat) : State :=
  let r := rdvOf (syncOf s x host) k
  let s := { s with
    procs := s.procs.map fun e =>
      if e.2.ctxOf == some x then
        (e.1, { e.2 with img := { e.2.img with sync := e.2.img.sync.deliver host k r.gen r.sig } })
      else e
    saved := s.saved.map fun e =>
      if e.1 / 512 = x then
        (e.1, e.2.map fun v => { v with img := { v.img with sync := v.img.sync.deliver host k r.gen r.sig } })
      else e }
  modSyncOf s x host fun y => { y with rdv := SMap.set Rdv.reset y.rdv k { r with gen := r.gen + 1, cnt := 0, sig := 0 } }

/-- Complete when CNT > 0 and CNT >= EXP (R433). -/
def rdvSettle (s : State) (x host k : Nat) : State :=
  let r := rdvOf (syncOf s x host) k
  if r.cnt != 0 && decide (r.exp.toNat ≤ r.cnt.toNat) then rdvComplete s x host k else s

end Sys2Proof.Machine
end

