-- ==== Sys2Proof/Machine/Tiles.lean ====
section
/-! DEFINITION. Tile-table events, held events and read waits (17_tile_translation_weight_tables.md R363-R371). -/

namespace Sys2Proof.Machine

/-- Tile events (R366, R300): EMPTY, FILLING, READY, DRAINING, withdrawal. -/
inductive TileEvent where
  | empty | filling | ready | draining | withdraw
  deriving DecidableEq, Repr

def TileEvent.code : TileEvent → Nat
  | empty => 0 | filling => 1 | ready => 2 | draining => 3 | withdraw => 4
def TileEvent.ofCode : Nat → TileEvent
  | 1 => filling | 2 => ready | 3 => draining | 4 => withdraw | _ => empty

/-- What an event does to an entry: the next entry, a wait, or TILEWAIT. -/
inductive TileRes where
  | ok (t : Tile)
  | wait
  | refused
  deriving DecidableEq, Repr

/-- The table of R367. -/
def tileStep (t : Tile) (ctx : Nat) (ev : TileEvent) : TileRes :=
  let fill : Tile := ⟨1, ctx, 1, 0⟩
  if t.st != 0 && t.ctx != ctx then (if ev = .withdraw then .ok t else .refused)
  else match t.st.toNat, ev with
    | 0, .filling => .ok fill
    | 0, .ready => .refused
    | 0, .draining => .wait
    | 0, _ => .ok t
    | 1, .filling =>
      if t.ocnt > 0 then .ok { t with ocnt := t.ocnt - 1 }
      else if t.fcnt = 255 then .refused else .ok { t with fcnt := t.fcnt + 1 }
    | 1, .ready =>
      if t.fcnt = t.ocnt then .refused
      else if t.fcnt = 1 then .ok ⟨2, t.ctx, 0, t.ocnt⟩ else .ok { t with fcnt := t.fcnt - 1 }
    | 1, .withdraw => .ok { t with ocnt := t.ocnt + 1 }
    | 1, .draining => .wait
    | _, .empty => .ok Tile.empty
    | _, .withdraw => .ok t
    | 2, .filling => .wait
    | 2, .ready => .refused
    | 2, .draining => .ok { t with st := 3 }
    | _, .filling => .wait
    | _, .ready => .refused
    | _, .draining => .wait

def State.tile (s : State) (cl tid : Nat) : Tile := SMap.get Tile.empty (s.cluster cl).tiles tid
def State.setTile (s : State) (cl tid : Nat) (t : Tile) : State :=
  s.modCluster cl fun c => { c with tiles := SMap.set Tile.empty c.tiles tid t }

/-- A copy of the entry, kept at SUSPENDED, that a resumed context still waits to have restored (R371). -/
def copyPending (s : State) (x cl tid : Nat) : Option Tile :=
  let c := s.ctx x
  if c.d.st = .suspended then none
  else (c.tileCopies.find? fun e => e.1 == cl * 4096 + tid).map (·.2)

/-- Restore the lowest-numbered context's waiting copy into an empty entry (R371). -/
def restoreCopy (s : State) (cl tid : Nat) : List Nat → State
  | [] => s
  | x :: xs => match copyPending s x cl tid with
    | some t =>
      (s.setTile cl tid t).modCtx x fun c =>
        { c with tileCopies := SMap.erase c.tileCopies (cl * 4096 + tid) }
    | none => restoreCopy s cl tid xs

/-- The state a held event waits for has come: EMPTY for FILLING, READY for DRAINING (R367). -/
def HeldTile.due (h : HeldTile) (t : Tile) : Bool := if h.ev = 1 then t.st == 0 else t.st == 2

/-- One held event whose state has come, in order of arrival (R367). -/
def settleOne (t : Tile) (tid : Nat) : List HeldTile → Option (Tile × List HeldTile)
  | [] => none
  | h :: hs =>
    let skip := (settleOne t tid hs).map fun r => (r.1, h :: r.2)
    if h.tile = tid && h.res.isNone && h.due t then
      match tileStep t h.ctx (TileEvent.ofCode h.ev) with
      | .ok t' => some (t', { h with res := some true } :: hs)
      | .refused => some (t, { h with res := some false } :: hs)
      | .wait => skip
    else skip

/-- Apply held events until none fits, and restore a waiting copy when the entry is EMPTY (R367, R371). -/
def settleTile (s : State) (cl tid : Nat) : Nat → State
  | 0 => s
  | n + 1 =>
    let s := if (s.tile cl tid).st = 0 then restoreCopy s cl tid (List.range 16) else s
    match settleOne (s.tile cl tid) tid (s.cluster cl).heldTiles with
    | none => s
    | some (t, hs) => settleTile ((s.setTile cl tid t).modCluster cl fun c => { c with heldTiles := hs }) cl tid n

/-- The entry changes; held events are examined afresh. -/
def tileChange (s : State) (cl tid : Nat) (t : Tile) : State :=
  let s := s.setTile cl tid t
  settleTile s cl tid ((s.cluster cl).heldTiles.length + 1)

/-- A tile event of a unit (R367): applied, held (a tile stall) or TILEWAIT. -/
def tileEvent (who : Agent) (x cl tid : Nat) (ev : TileEvent) : M Unit := do
  let s ← get
  match (s.cluster cl).heldTiles.find? fun h => h.who == who with
  | some h =>
    match h.res with
    | none => waitM 0x12
    | some good =>
      doS fun s => s.modCluster cl fun c => { c with heldTiles := c.heldTiles.filter fun h => h.who != who }
      need good .tilewait
  | none =>
    await (copyPending s x cl tid).isNone 0x12
    match tileStep (s.tile cl tid) x ev with
    | .ok t => doS fun s => tileChange s cl tid t
    | .refused => faultM .tilewait
    | .wait =>
      doS fun s => s.modCluster cl fun c => { c with heldTiles := c.heldTiles ++ [⟨tid, ev.code, x, who, none⟩] }
      waitM 0x12

/-- A withdrawal of a claim (R366, R367). -/
def withdrawTile (s : State) (x cl tid : Nat) : State :=
  match tileStep (s.tile cl tid) x .withdraw with
  | .ok t => tileChange s cl tid t
  | _ => s

/-- A held event ends without effect when its unit is stopped (R368); a FILLING that has been applied, though its unit has not
gone on, is a claim that is withdrawn (R366). -/
def dropHeld (s : State) (cl : Nat) (who : Agent) : State :=
  match (s.cluster cl).heldTiles.find? fun h => h.who == who with
  | none => s
  | some h =>
    let s := s.modCluster cl fun c => { c with heldTiles := c.heldTiles.filter fun h => h.who != who }
    if h.ev = 1 && h.res == some true then withdrawTile s h.ctx cl h.tile else s

/-- A read wait or STILE wait (R369). -/
def tileReadWait (x cl tid : Nat) : M Unit := do
  let s ← get
  if tid = 0xFFF then pure ()
  else
    await (copyPending s x cl tid).isNone 0x12
    let t := s.tile cl tid
    if t.st != 0 && t.ctx != x then faultM .tilewait
    else await (t.st == 2 || t.st == 3) 0x12

/-- The tile cluster of a tensor whose first byte is at va, for the issuing core (R364). -/
def tileCluster (core va : Nat) : Nat :=
  if shBase ≤ va && va < shBase + 2 ^ 28 then (va - shBase) / 2 ^ 22
  else if spBase ≤ va && va < spBase + 2 ^ 28 then clusterOf ((va - spBase) / 2 ^ 20)
  else clusterOf core

end Sys2Proof.Machine
end

