-- ==== Sys2Proof/Machine/Mason.lean ====
section
/-! DEFINITION. Fault records, and the Mason's accounts of operator blocks and regions (15 R333-R337,
18_task_tables_and_mason.md R382-R390, 19 R405-R413, 02 R25-R33). -/

namespace Sys2Proof.Machine

/-! ## Fault records -/

/-- KIND of a record (R335). -/
inductive RecKind where
  | poison | park | stop | note
  deriving DecidableEq, Repr

def RecKind.code : RecKind → Nat
  | poison => 0 | park => 1 | stop => 2 | note => 3

/-- What a record says, beside GTS, SEQ, CTX and KIND (R335). -/
structure Rec where
  cause : Cause
  unit : Nat
  core : Nat := 0
  faddr : Nat := 0
  loc : Nat := 0
  detail : BitVec 24 := 0
  st : Bool := false
  sub : Bool := false
  col : Bool := false
  dbl : Bool := false
  brick : Option (BitVec 256) := none
  deriving DecidableEq, Repr

/-- The 512 bits of a record (R335). -/
def Rec.word (r : Rec) (gts : Nat) (x : Nat) (kind : RecKind) (seq : BitVec 32) : BitVec 512 :=
  let b (c : Bool) (i : Nat) : Nat := if c then 2 ^ i else 0
  BitVec.ofNat 512
    (gts % 2 ^ 64 * 2 ^ 448 + seq.toNat * 2 ^ 416 + r.faddr % 2 ^ 52 * 2 ^ 364 + r.loc % 2 ^ 52 * 2 ^ 312 +
     r.detail.toNat * 2 ^ 288 + r.cause.code.toNat * 2 ^ 280 + r.core % 256 * 2 ^ 272 + r.unit % 16 * 2 ^ 268 +
     kind.code * 2 ^ 265 + b r.st 264 + b r.sub 263 + b r.brick.isSome 262 + x % 16 * 2 ^ 258 + b r.col 257 +
     b r.dbl 256 + (r.brick.getD 0).toNat)

/-- Home key of position `pos` of a context's fault queue (R333). -/
def recordKey (s : State) (x pos : Nat) : Nat :=
  let d := (s.ctx x).d
  lstBase + (d.lstb.toNat + d.lstq.toNat) * 2 ^ 20 - 16384 + 64 * pos

/-- A new actionable record would be dropped or find the pending table full (R337). -/
def recordFull (s : State) (x : Nat) : Bool :=
  let q := (s.ctx x).fq
  decide (q.count ≥ 256) || decide (q.pend.length ≥ 256)

/-- Write a record (R337), with the notification of R334. -/
def writeRecord (s : State) (x : Nat) (kind : RecKind) (r : Rec) : State :=
  let q := (s.ctx x).fq
  if q.count ≥ 256 then
    s.modCtx x fun c => { c with fq := { q with
      seq := q.seq + 1, lost := if q.lost = 255 then 255 else q.lost + 1 } }
  else
    let pos := (q.head + q.count) % 256
    let w := r.word s.gts x kind q.seq
    let s := s.modMem fun m => m.write (recordKey s x pos) 64 w.toNat
    let s := s.modCtx x fun c => { c with fq := { q with
      seq := q.seq + 1, count := q.count + 1, seqs := SMap.set 0 q.seqs pos q.seq } }
    if q.nen && s.inPart x (clusterOf q.ncore.toNat) then sendPost s .device x q.ncore.toNat q.nsc.toNat 1 0 else s

/-- Write a PARK or STOP record and enter it in the pending table; the caller has tested recordFull. -/
def writeActionable (s : State) (x : Nat) (kind : RecKind) (r : Rec) (a : Actionable) : State :=
  let seq := (s.ctx x).fq.seq
  let w := r.word s.gts x kind seq
  (writeRecord s x kind r).modCtx x fun c => { c with fq := { c.fq with pend := c.fq.pend ++ [(seq, a, w)] } }

/-- Drop pending entries that a predicate names (R332, R338). -/
def dropPending (s : State) (x : Nat) (f : Actionable → Bool) : State :=
  s.modCtx x fun c => { c with fq := { c.fq with pend := c.fq.pend.filter fun e => !f e.2.1 } }

/-- A brick register or queue entry as 256 bits (R281); `st` 0 is a queue entry. -/
def Brick.word (b : Brick) (st : Nat) (pm cur : Bool) : BitVec 256 :=
  let bit (c : Bool) (i : Nat) : Nat := if c then 2 ^ i else 0
  BitVec.ofNat 256
    (b.egts.toNat * 2 ^ 192 + b.coord.toNat * 2 ^ 96 + b.eidx.toNat * 2 ^ 72 + b.obn.toNat * 2 ^ 56 +
     b.ctx.toNat * 2 ^ 52 + b.prio.toNat * 2 ^ 49 + bit b.rst 48 + b.nslot.toNat * 2 ^ 44 + b.maxd.toNat * 2 ^ 36 +
     st * 2 ^ 34 + bit pm 33 + bit cur 32)

/-- ST of a brick register: a parked brick's register reads free (R32, R283). -/
def BrickState.code : BrickState → Nat
  | running => 1 | retiring => 2 | parked => 0

def brickRegWord (s : State) (p : Nat) (tag : BitVec 3) : Option (BitVec 256) :=
  (s.brick p tag).map fun b => b.b.word b.st.code b.pm ((s.proc p).cur == some tag)

/-! ## Regions and reuse entries -/

def Ctx.region (c : Ctx) (r : Nat) : Region := SMap.get Region.reset c.regions r
def modRegion (s : State) (x r : Nat) (f : Region → Region) : State :=
  if r = 0x3FF then s
  else s.modCtx x fun c => { c with regions := SMap.set Region.reset c.regions r (f (c.region r)) }
def Ctx.reuseOf (c : Ctx) (e : Nat) : Reuse := SMap.get Reuse.reset c.reuse e
def modReuse (s : State) (x e : Nat) (f : Reuse → Reuse) : State :=
  s.modCtx x fun c => { c with reuse := SMap.set Reuse.reset c.reuse e (f (c.reuseOf e)) }

/-- The marks of an aborted brick on one region (R407). -/
def markAborted (s : State) (x r : Nat) : State :=
  modRegion s x r fun g => { g with tgen := g.tgen + 1, nbad := true }

/-! ## OB bytes (R382, R383) -/

/-- A field of the copy of an OB's bytes. -/
def obField (c : List Byte) (lo n : Nat) : Nat := leN ((c.drop lo).take n)
def obCtl (c : List Byte) : Nat := obField c 160 8
/-- RGN of each operand whose OUTM bit is set. -/
def obOutRegions (c : List Byte) : List Nat :=
  (List.range 4).filterMap fun k =>
    if (obCtl c).testBit (44 + k) then some (bits (obField c (32 * k) 32) 221 212) else none
/-- Brick-loop bounds (R28). -/
def obBounds (c : List Byte) : List Nat :=
  (List.range 6).map fun k => let b := obField c (128 + 2 * k) 2; if b = 0 then 65536 else b
def obRidx (c : List Byte) : Nat := obField c 170 2
/-- The reuse entry of a RIDX; none for 0xFFFF. What a RIDX of 4,096-65,534 names is not given (log 20). -/
def reuseIndex (r : Nat) : Option Nat :=
  if r = 0xFFFF then none else if r < 4096 then some r else some (Config.freeEntry r % 4096)

/-! ## Graphs and OBs in flight -/

def Graph.ob (g : Graph) (k : Nat) : Ob := SMap.get Ob.reset g.obs k
/-- A graph in flight is named by its OB table, which no two graphs of a context share (R396, status 6). -/
def State.graph (s : State) (x obt : Nat) : Option Graph := (s.ctx x).graphs.find? fun g => g.obt == obt
def modGraph (s : State) (x obt : Nat) (f : Graph → Graph) : State :=
  s.modCtx x fun c => { c with graphs := c.graphs.map fun g => if g.obt = obt then f g else g }
def State.ob (s : State) (x obt k : Nat) : Ob := ((s.graph x obt).map fun g => g.ob k).getD Ob.reset

def ObStatus.code : ObStatus → Nat
  | pending => 0 | ready => 1 | running => 2 | done => 3 | skipped => 4 | poisoned => 5 | parked => 6

/-- The STAT word (R384). -/
def Ob.stat (o : Ob) : Nat :=
  o.stepl.toNat * 2 ^ 48 + min o.left (2 ^ 24 - 1) * 2 ^ 24 + o.dep % 2 ^ 16 * 2 ^ 8 + (if o.pf then 2 ^ 7 else 0) +
  (if o.altr then 2 ^ 6 else 0) + o.status.code

/-- Change an OB's account and store its STAT (R384). -/
def modOb (s : State) (x obt k : Nat) (f : Ob → Ob) : State :=
  match s.graph x obt with
  | none => s
  | some g =>
    let o := f (g.ob k)
    (modGraph s x obt fun g => { g with obs := SMap.set Ob.reset g.obs k o }).modMem
      fun m => m.write (g.obt + 256 * k + 184) 8 o.stat

/-- The context's step sequencer, when it owns one (R17). -/
def seqOf (s : State) (x : Nat) : Option Nat :=
  let d := (s.ctx x).d
  if d.seqv && d.st != .free then some d.seq.toNat else none

/-- A sequencer of the context is running in the sense of R19 (R394). -/
def seqRunning (s : State) (x : Nat) : Bool :=
  match seqOf s x with
  | none => false
  | some q => (s.stepper q).st != .idle

def Graph.allRetired (g : Graph) : Bool := (List.range g.nob).all fun k => (g.ob k).retired

/-- Graphs of OBSUB leave flight when all their OBs have retired; the context falls IDLE without work (R19, R397). -/
def settleCtx (s : State) (x : Nat) : State :=
  let s := s.modCtx x fun c =>
    { c with graphs := c.graphs.filter fun g => g.ofSeq || g.held || !g.allRetired }
  let c := s.ctx x
  if c.d.st = .active && !c.suspending && c.graphs.isEmpty && !seqRunning s x then
    s.modCtx x fun c => { c with d := { c.d with st := .idle } }
  else s

/-- One predecessor's retirement reaches a successor (R25, R388). -/
def decrement (s : State) (x obt k : Nat) (poisoned : Bool) (g : Sig) : State :=
  modOb s x obt k fun o => { o with dep := o.dep - 1, pf := o.pf || poisoned, inSig := o.inSig ||| g }

/-- An OB retires (R388): regions (R389, R406), its reuse entry (R413), its signature (R261), its successors. The copy of
its alternate is held only when the alternate ran (R390). -/
def retireOb (s : State) (x obt k : Nat) (st : ObStatus) : State :=
  let o := s.ob x obt k
  let poisoned := st = .poisoned
  let mark (b : Bool) (s : State) (rs : List Nat) : State :=
    rs.foldl (fun s r => modRegion s x r fun g => { g with pzn := b }) s
  let s := if poisoned then mark true s (obOutRegions o.copy ++ obOutRegions o.alt)
    else if st = .done then mark false s (obOutRegions o.copy)
    else mark false s (obOutRegions o.alt)
  let s := match reuseIndex (obRidx o.copy) with
    | some e => if poisoned && (o.computed || o.altr) then modReuse s x e fun e => { e with cv := false, skc := 0 } else s
    | none => s
  let g := if o.status = .running || o.status = .parked || o.altr then o.sig else o.inSig
  let s := modOb s x obt k fun o => { o with status := st, retired := true, sig := g }
  let s := s.modCtx x fun c => { c with stepSig := c.stepSig ||| g }
  settleCtx (o.succ.foldl (fun s t => decrement s x obt t poisoned g) s) x

/-- Bricks of an OB leave for good (R33): when none is left the OB retires. -/
def bricksGone (s : State) (x obt k n : Nat) (poisoned : Bool) (g : Sig) : State :=
  let s := modOb s x obt k fun o =>
    { o with left := o.left - n, anyPoison := o.anyPoison || poisoned, sig := o.sig ||| g }
  let o := s.ob x obt k
  if o.left = 0 && !o.retired && n > 0 then
    retireOb s x obt k (if o.anyPoison then .poisoned else if o.altr then .skipped else .done)
  else s

/-- In SERVICE mode the first poisoned brick of an OB removes its queued bricks, one selected and not yet returned by a BPOP
among them (R32, R33). -/
def poisonObBricks (s : State) (x obt k : Nat) : State :=
  if (s.ctx x).d.fmode then s
  else
    let mine (b : Brick) : Bool := b.ctx.toNat == x && b.graph == obt && b.primary == k
    let n := s.clusters.foldl (fun n e => n + (e.2.brickq.filter mine).length) 0 +
      (s.procs.filter fun e => e.2.heldBrick.any mine).length
    let s := s.mapProcs fun p => if p.heldBrick.any mine then { p with heldBrick := none } else p
    let s := { s with clusters := (s.clusters.map fun e =>
      (e.1, { e.2 with brickq := e.2.brickq.filter fun b => !mine b })).filter fun e => e.2 != Cluster.reset }
    let s := modOb s x obt k fun o => { o with anyPoison := true }
    bricksGone s x obt k n true 0

/-- A brick becomes PARKED, or a parked one is resolved (R33, R388). -/
def obParked (s : State) (x obt k : Nat) : State :=
  modOb s x obt k fun o => { o with parked := o.parked + 1, status := .parked }
def obUnparked (s : State) (x obt k : Nat) : State :=
  modOb s x obt k fun o =>
    { o with parked := o.parked - 1, status := if o.parked ≤ 1 then (if o.altr then .skipped else .running) else .parked }

end Sys2Proof.Machine
end

