-- ==== Sys2Proof/Machine/Cores.lean ====
section
/-! DEFINITION. The fates of bricks and cores: discards, brick faults, stops, retirement, requeueing, leases, context
save and restore, exit, abort (02 R30-R41, R486; 12 R282-R290; 15 R329-R347). -/

namespace Sys2Proof.Machine

/-! ## Commands -/

/-- The capture a command carries; markers and release points carry none. -/
def Cmd.cap : Cmd → Option Capture
  | .kick c _ _ _ => some c
  | .nest c _ _ => some c
  | .chain c _ _ _ => some c
  | .marker _ => none
  | .release _ => none

def Cmd.isMarker : Cmd → Bool
  | .marker _ => true
  | _ => false
def Cmd.isRelease : Cmd → Bool
  | .release _ => true
  | _ => false

def Cmd.ofBrick (c : Cmd) (core : Nat) (tag : BitVec 3) : Bool :=
  match c.cap with
  | some k => k.core == core && k.tag == tag
  | none => false

/-- Keep the commands of every queue of every core, and the gathered commands, that a predicate on captures keeps. -/
def filterCommands (s : State) (keep : Capture → Bool) : State :=
  let k (c : Cmd) : Bool := match c.cap with
    | some c => keep c
    | none => true
  let f (q : Queues) : Queues :=
    { q with veq := q.veq.filter k, pxq := q.pxq.filter k, hlq := q.hlq.filter k, hsq := q.hsq.filter k }
  { s with
    procs := (s.procs.map fun e => (e.1, { e.2 with q := f e.2.q })).filter fun e => e.2 != Proc.reset
    clusters := (s.clusters.map fun e => (e.1, { e.2 with press := { e.2.press with
      gathered := e.2.press.gathered.filter fun g => keep g.cap } })).filter fun e => e.2 != Cluster.reset }

/-- Discard a brick's commands not yet dequeued, wherever they wait (R98, R331). -/
def discardTag (s : State) (core : Nat) (tag : BitVec 3) : State :=
  filterCommands s fun c => !(c.core == core && c.tag == tag)

/-- The capture an engine works under; a gathered command goes before the stream (R280). -/
def engineCap (x : Proc) : Eng → Option Capture
  | .ve => x.eng.ve.cap
  | .px => (x.eng.px.serving.map (·.cap)).or x.eng.px.cap
  | .hl => x.eng.hl.cap
  | .hs => x.eng.hs.cap

def engineQueue (q : Queues) : Eng → List Cmd
  | .ve => q.veq | .px => q.pxq | .hl => q.hlq | .hs => q.hsq
def setEngineQueue (q : Queues) (e : Eng) (l : List Cmd) : Queues :=
  match e with
  | .ve => { q with veq := l } | .px => { q with pxq := l } | .hl => { q with hlq := l } | .hs => { q with hsq := l }

def engines : List Eng := [.ve, .px, .hl, .hs]

/-- A unit works on, or a queue holds, a command for which `f` holds (R36). -/
def anyCommand (s : State) (f : Capture → Bool) : Bool :=
  (s.procs.any fun e => engines.any fun u =>
    ((engineCap e.2 u).any f) || e.2.eng.px.cap.any f || (engineQueue e.2.q u).any fun c => c.cap.any f) ||
  (s.clusters.any fun e => e.2.press.gathered.any fun g => f g.cap)

/-- Some lookup job of the brick has not been answered (14 R305). -/
def anyJob (s : State) (core : Nat) (tag : BitVec 3) : Bool :=
  s.lookups.any fun e =>
    (e.2.jobs ++ e.2.cur.toList).any fun j => j.rcore == core && j.btag == tag && !j.orphan

/-- Commands carrying the brick's tag, or their writes and deliveries, are not complete (R32, R36, 19 R411). -/
def brickBusy (s : State) (p : Nat) (tag : BitVec 3) : Bool :=
  anyCommand s (fun c => c.core == p && c.tag == tag) || anyJob s p tag || !(s.proc p).coh.acks.isEmpty ||
  (s.fl.remotes.any fun r => r.core == p && r.btag == some tag) || s.fl.deliveries.any fun d => d.core == p

/-! ## Stopping dequeued commands (R39, R343) -/

/-- A waiter leaves without paying: its command was discarded or stopped. -/
def dropWaiter (s : State) (p : Nat) (e : Eng) : State :=
  let cl := clusterOf p
  if (s.cluster cl).pow.waiters.contains (p, e) then
    s.modCluster cl fun c => { c with pow := { c.pow with waiters := c.pow.waiters.filter fun v => v != (p, e) } }
  else s

/-- The stream's command ends; a gathered command in service stays as it is. -/
def Sequencer.halt (q : Sequencer) : Sequencer :=
  if q.serving.isSome then { Sequencer.reset with last := q.last, serving := q.serving, phase := q.phase, stop := q.stop, writing := q.writing }
  else { Sequencer.reset with last := q.last }
/-- The gathered command in service ends. -/
def Sequencer.endServing (q : Sequencer) : Sequencer :=
  { q with serving := none, phase := .fresh, stop := none, writing := none, rows := 0, note := 0 }
def Hod.halt (h : Hod) : Hod := { Hod.reset with last := h.last }

/-- A hod leaves a multicast (R297): its own subscription ends; subscribers it has taken and not served are pending again,
those it has served go on alone. -/
def leaveMulticast (core : Nat) (hs : Bool) (l : List Subscriber) : List Subscriber :=
  (l.filter fun u => !(u.core == core && u.hs == hs) && !(u.by_ == some (core, hs) && u.done)).map fun u =>
    if u.by_ = some (core, hs) then { u with by_ := none } else u

/-- Abandon a hod's chain: its FILLING claim is withdrawn, held events and subscriptions end (R302, R343, R366, R368). -/
def haltHod (s : State) (core : Nat) (hs : Bool) : State :=
  let h := if hs then (s.proc core).eng.hs else (s.proc core).eng.hl
  let issuer := (h.cap.map (·.core)).getD core
  let x := (h.cap.map (·.ctx)).getD 0
  let s := match h.tile with
    | some (cl, tid) => withdrawTile s x cl tid
    | none => s
  let s := (List.range 64).foldl (fun s c => dropHeld s c (.hod core hs)) s
  let s := semLeave s issuer (some (core, if hs then .hs else .hl))
  let s := s.modFl fun f => { f with subs := leaveMulticast core hs f.subs }
  (dropWaiter (clearAnswers core (some (if hs then .hs else .hl)) s) core (if hs then .hs else .hl)).modEng core fun e => if hs then { e with hs := e.hs.halt } else { e with hl := e.hl.halt }

/-- Abandon the chains, on whatever core's hods, that work under a capture `mine` (R302); their STOP records stop being
actionable. -/
def haltChains (s : State) (mine : Capture → Bool) : State :=
  s.procs.foldl (fun s e =>
    let one (s : State) (hs : Bool) (c : Option Capture) : State := match c with
      | some c => if mine c then haltHod (dropPending s c.ctx (· == .stopEng e.1 (if hs then .hs else .hl))) e.1 hs else s
      | none => s
    one (one s false e.2.eng.hl.cap) true e.2.eng.hs.cap) s

/-- px.rowprog.RG (06 R122). -/
def rowGroup (v : Word) : Nat := (fld v 0 4).toNat

/-- px.rowprog.V is cleared (10 R244, R245). -/
def clearRowprog (s : State) (core : Nat) : State :=
  s.modCC core fun c => { c with rowprog := c.rowprog &&& BitVec.ofNat 64 (2 ^ 63 - 1) }

/-- A carried slot that the Press's instruction for a core has begun to write is poisoned (R39). -/
def poisonWritten (s : State) (core : Nat) (x : Proc) : State :=
  match x.eng.px.writing with
  | none => s
  | some k => s.modPress (clusterOf core) fun pr => { pr with slots := pr.slots.map fun e =>
      (e.1, e.2.map fun sl =>
        if sl.core = core % 4 && some sl.ctx == x.ctxOf && sl.lslot = k && sl.carried then { sl with pz := true } else sl) }

/-- Stop the dequeued commands of a core's bricks (all of them, or one tag's) at once (R39, R343 step 2). `pz` marks the
carried slot a stopped Press instruction was writing (R39). -/
def haltCommands (s : State) (core : Nat) (tag : Option (BitVec 3)) (pz : Bool) : State :=
  let mine (c : Option Capture) : Bool := c.any fun c => c.core == core && (tag.isNone || tag == some c.tag)
  let s := [Eng.ve, Eng.px].foldl (fun s u => match engineCap (s.proc core) u with
    | some c => if mine (some c) then dropPending s c.ctx (· == .stopEng core u) else s
    | none => s) s
  let s := haltChains s fun c => mine (some c)
  let x := s.proc core
  let s := if mine x.eng.ve.cap then
      dropWaiter (clearAnswers core (some .ve) (semLeave (s.modEng core fun e => { e with ve := e.ve.halt }) core (some (core, .ve)))) core .ve
    else s
  let s := if pz && mine (engineCap x .px) then poisonWritten s core x else s
  let s := if mine (x.eng.px.serving.map (·.cap)) then
      dropWaiter (clearAnswers core (some .px) (s.modEng core fun e => { e with px := e.px.endServing })) core .px
    else s
  if mine x.eng.px.cap then
    (if x.eng.px.stop.isSome then (clearRowprog · core) else id) (dropWaiter (clearAnswers core (some .px) (semLeave (s.modEng core fun e => { e with px := e.px.halt }) core (some (core, .px)))) core .px)
  else s

/-! ## Slots (10 R220, R222) -/

/-- Free the bindings of a core that a predicate names. -/
def freeSlots (s : State) (cl : Nat) (f : Slot → Bool) : State :=
  s.modPress cl fun pr => { pr with slots := pr.slots.filter fun e => match e.2 with
    | some sl => !f sl
    | none => false }

/-- Brick-local slots of a brick go free (R220). -/
def freeBrickSlots (s : State) (p : Nat) (tag : BitVec 3) : State :=
  freeSlots s (clusterOf p) fun sl => sl.core == p % 4 && !sl.carried && sl.btag == tag

/-- Free physical slots of a Press not reserved for any brick (R222). -/
def freeUnreserved (s : State) (cl : Nat) : Nat :=
  let bound := ((s.cluster cl).press.slots.filter fun e => e.2.isSome).length
  let resv := (List.range 4).foldl (fun n k =>
    let x := s.proc (cl * 4 + k)
    x.bricks.foldl (fun n e => n + (e.2.map (·.resv)).getD 0) n + (x.heldBrick.map (·.nslot.toNat)).getD 0) 0
  12 - bound - resv

/-! ## Leaving of bricks -/

/-- The brick register of a tag empties; the current brick is none when it was this one. -/
def dropBrick (s : State) (p : Nat) (tag : BitVec 3) : State :=
  s.modProc p fun x => { x with
    bricks := SMap.set none x.bricks tag.toNat none, cur := if x.cur = some tag then none else x.cur }

/-- The marks of R407 for a brick that leaves other than by retirement; an HHALO's mark is sent to its node. -/
def markRegions (s : State) (p : Nat) (b : BrickReg) : State :=
  let s := b.regions.foldl (fun s r => markAborted s b.b.ctx.toNat r) s
  b.halos.foldl (fun s h => s.sendFlit h.1 4 (s.ctx b.b.ctx.toNat).gid (p % 256) 0 h.2 [1]) s

/-- The brick has run past its declared maximum (R39). -/
def BrickReg.late (b : BrickReg) (gts : Nat) : Bool := b.live && decide (b.b.maxd.toNat * 1000 < gts - b.since.toNat)

/-- An overrun without a pending pre-emption is counted once in the trace buffer (R39, 22 R458). -/
def countOverrun (s : State) (p : Nat) (tag : BitVec 3) : State :=
  match s.brick p tag with
  | some b =>
    if b.late s.gts && !b.traced && !(s.ctx b.b.ctx.toNat).suspending then
      (traceRec s (clusterOf p) 3 p b.b.ctx.toNat false ((brickRegWord s p tag).getD 0).toNat).setBrick p tag (some { b with traced := true })
    else s
  | none => s

/-- A Press instruction that has stopped ends when its brick leaves RUNNING, so that it keeps the lease no longer (10 R225). -/
def endStoppedPress (s : State) (p : Nat) (tag : BitVec 3) : State :=
  let q := (s.proc p).eng.px
  match engineCap (s.proc p) .px with
  | some c =>
    if q.stop.isSome && c.core == p && c.tag == tag then
      (dropPending s c.ctx (· == .stopEng p .px)).modEng p fun e => { e with px := if q.serving.isSome then e.px.endServing else e.px.halt }
    else s
  | none => s

/-- A brick that leaves RUNNING by a fault: its commands not yet dequeued are discarded, its hod chains end (13 R291), its stopped
Press instruction ends. -/
def endBrickWork (s : State) (p : Nat) (tag : BitVec 3) : State :=
  endStoppedPress (haltChains (discardTag s p tag) fun c => c.core == p && c.tag == tag) p tag

/-- A brick fault (R98, R331, R338): RETIRING marked poisoned, or PARKED in MAINT mode. `force` poisons in either mode. -/
def brickFault (s : State) (p : Nat) (tag : BitVec 3) (r : Rec) (force : Bool := false) : State :=
  match s.brick p tag with
  | none => s
  | some b =>
    let x := b.b.ctx.toNat
    let r := { r with brick := brickRegWord s p tag }
    let uncur (s : State) : State := s.modProc p fun v => { v with cur := if v.cur = some tag then none else v.cur }
    if !b.live || b.pm then writeRecord s x .poison r
    else
    let s := countOverrun s p tag
    let b := (s.brick p tag).getD b
    if (s.ctx x).d.fmode && !force && !recordFull s x then
      let s := writeActionable s x .park r (.park (clusterOf p) b.b)
      let s := markRegions (s.setBrick p tag (some { b with st := .parked, regions := [], halos := [] })) p b
      obParked (endBrickWork (uncur s) p tag) x b.b.graph b.b.primary
    else
      let s := writeRecord s x .poison r
      let s := uncur (s.setBrick p tag (some { b with st := .retiring, pm := true }))
      poisonObBricks (endBrickWork s p tag) x b.b.graph b.b.primary

/-- Retirement, or the freeing of a parked brick's tag (R32, R33, 10 R220). -/
def retireBrick (s : State) (p : Nat) (tag : BitVec 3) : State :=
  match s.brick p tag with
  | none => s
  | some b =>
    let x := b.b.ctx.toNat
    let s := dropBrick (freeBrickSlots (countOverrun s p tag) p tag) p tag
    if b.st = .parked then s
    else
      bricksGone s x b.b.graph b.b.primary 1 b.pm (s.proc p).coh.ws

/-! ## Placement of a brick (02 R29, 18 R391) -/

/-- Present clusters of a context's partition, ascending. -/
def partClusters (s : State) (x : Nat) : List Nat := (List.range 64).filter fun c => s.inPart x c

/-- The LST slice that holds operand 0's brick region, if it lies in the LST window (R391). -/
def affinitySlice (op0 : Nat) (coord : BitVec 96) : Option Nat :=
  let rank := bits op0 59 57
  if rank = 0 || rank > 4 then none
  else
    let c (d : Nat) : Int := ((fld coord (16 * d) 16).toNat : Nat)
    let size (d : Nat) : Int := let v := bits op0 (79 + 16 * d) (64 + 16 * d); ((if v = 0 then 65536 else v : Nat) : Int)
    let stride (d : Nat) : Int := if d = 0 then 1 else signExt 24 (bits op0 (127 + 24 * d) (104 + 24 * d))
    let n : Int := (List.range rank).foldl (fun a d => a + c d * size d * stride d) 0
    let w : Nat := match bits op0 56 52 with
      | 0 => 8 | 20 => 128 | 14 => 6 | 15 => 6 | 18 => 6 | 16 => 4
      | 5 => 32 | 6 => 32 | 9 => 32 | 7 => 64 | 8 => 64 | 3 => 16 | 4 => 16 | 10 => 16 | 11 => 16 | _ => 8
    let a : Int := (bits op0 51 0 : Nat) + Int.fdiv (n * w) 8
    if (lstBase : Int) ≤ a && a < (lstBase + Config.lstBytes : Nat) then some (((a.toNat - lstBase) / (96 * 2 ^ 20))) else none

/-- The distance of a cluster to an LST slice: slice s lies above cluster s (R29); the other distances are not given
(log 14). -/
def hops (c slice : Nat) : Nat := if c = slice then 0 else 1 + Config.freeHops c slice

/-- The nearest of an ascending list of clusters to an LST slice, the lowest on a tie (R29). -/
def nearest (slice : Nat) : List Nat → Option Nat
  | [] => none
  | c :: cs => match nearest slice cs with
    | none => some c
    | some d => if hops d slice < hops c slice then some d else some c

/-- The cluster of a brick by its OB's policy; none when PINNED names no cluster of P (R29). -/
def placeCluster (s : State) (x : Nat) (ctl op0 : Nat) (coord : BitVec 96) (j : Nat) : Option Nat :=
  let ps := partClusters s x
  let spread := ps[j % max ps.length 1]?
  match bits ctl 37 36 with
  | 2 => if ps.contains (bits ctl 43 38) then some (bits ctl 43 38) else none
  | 0 => match affinitySlice op0 coord with
    | some sl => nearest sl ps
    | none => spread
  | _ => spread

/-- The bytes of the OB a brick runs: the alternate's under RESID (R386, R390). -/
def brickCopy (s : State) (b : Brick) : List Byte :=
  let o := s.ob b.ctx.toNat b.graph b.primary
  if o.altr then o.alt else o.copy

/-- Requeue a brick (R40). An entry past the 512th of a cluster's list is a brick that the Mason still holds, until the
queue has room for it (DEDUCED from R37, log 19). A brick whose OB has been poisoned in SERVICE mode leaves without running,
whatever state it comes from, as a QUEUED one does (DEDUCED from R32, log 19). -/
def requeue (s : State) (cl : Nat) (b : Brick) : State :=
  let x := b.ctx.toNat
  let put (s : State) (c : Nat) : State := s.modCluster c fun k => { k with brickq := k.brickq ++ [b] }
  if !(s.ctx x).d.fmode && (s.ob x b.graph b.primary).anyPoison then bricksGone s x b.graph b.primary 1 true 0
  else if s.present cl then put s cl
  else
    let c := brickCopy s b
    match placeCluster s x (obCtl c) (obField c 0 32) b.coord b.eidx.toNat with
    | some c => put s c
    | none =>
      let s := writeRecord s x .poison
        { cause := .window, unit := 6, loc := b.ob, brick := some (b.word 0 false false) }
      bricksGone (poisonObBricks s x b.graph b.primary) x b.graph b.primary 1 true 0

/-- A brick is aborted and requeued (R32, R343 step 7): marks, slots, job replies (R305), tag. -/
def abortBrick (s : State) (p : Nat) (tag : BitVec 3) : State :=
  match s.brick p tag with
  | none => s
  | some b =>
    let s := markRegions (countOverrun s p tag) p b
    let s := { s with lookups := s.lookups.map fun e =>
      let f (j : Job) : Job := if j.rcore = p && j.btag = tag then { j with orphan := true } else j
      (e.1, { e.2 with jobs := e.2.jobs.map f, cur := e.2.cur.map f }) }
    requeue (dropBrick (freeBrickSlots s p tag) p tag) (clusterOf p) b.b

/-! ## The lease (12 R286) -/

/-- The lease passes to the oldest request. -/
def leasePass (s : State) (cl : Nat) : State :=
  s.modPress cl fun pr => match pr.reqs with
    | [] => { pr with holder := none, releasing := false }
    | k :: ks => { pr with holder := some k, releasing := false, reqs := ks }

/-- UNLEASE (R286): HELD places a release point, REQ withdraws, else nothing. -/
def unlease (s : State) (p : Nat) : State :=
  let cl := clusterOf p
  let pr := (s.cluster cl).press
  if pr.holder = some (p % 4) && !pr.releasing then
    (s.modPress cl fun pr => { pr with releasing := true }).modQ p fun q => { q with pxq := q.pxq ++ [.release pr.pushes] }
  else if pr.reqs.contains (p % 4) then s.modPress cl fun pr => { pr with reqs := pr.reqs.filter (· != p % 4) }
  else s

/-- The lease of a core is released at once, or its request withdrawn: context save, hard pre-emption, DESTROY. -/
def leaseDrop (s : State) (p : Nat) : State :=
  let cl := clusterOf p
  let pr := (s.cluster cl).press
  let s := s.modQ p fun q => { q with pxq := q.pxq.filter fun c => !c.isRelease }
  if pr.holder = some (p % 4) then leasePass s cl
  else s.modPress cl fun pr => { pr with reqs := pr.reqs.filter (· != p % 4) }

/-- A request (R286): granted at once when nobody holds or waits. -/
def leaseRequest (s : State) (p : Nat) : State :=
  s.modPress (clusterOf p) fun pr =>
    if pr.holder.isNone && pr.reqs.isEmpty then { pr with holder := some (p % 4), releasing := false }
    else { pr with reqs := pr.reqs ++ [p % 4] }

/-! ## Emptying a core's queues (R290, R343 step 5) -/

/-- The elements of the scalar, reply and token queues with their queue ids (22 R458). -/
def auxElements (q : Queues) : List (Nat × Nat) :=
  (q.toVe ++ q.toCc).map (fun e => (0, e.v.toNat)) ++ q.reply.map (fun e => (1, e.v.toNat)) ++
  q.tq.flatMap fun t => t.2.map fun v => (2 + t.1, v.toNat)

/-- Discard them, with a trace record each. -/
def emptyAux (s : State) (p x : Nat) : State :=
  let s := (auxElements (s.proc p).q).foldl
    (fun s e => traceRec s (clusterOf p) 2 p x false (e.1 + e.2 * 2 ^ 64)) s
  s.modQ p fun q => { q with toVe := [], toCc := [], reply := [], tq := [] }

/-- MC of each engine after `n` markers of its queue completed (R432). -/
def markDone (s : State) (p : Nat) (u : Eng) (n : Nat) : State :=
  s.modSync p fun y =>
    let m := SMap.get Marker.reset y.mark (unitKey (some u) - 1)
    { y with mark := SMap.set Marker.reset y.mark (unitKey (some u) - 1) { m with mc := m.mc + BitVec.ofNat 32 n } }

/-- Markers left in a core's queues complete (R290). -/
def completeMarkers (s : State) (p : Nat) : State :=
  engines.foldl (fun s u =>
    let q := engineQueue (s.proc p).q u
    let s := markDone s p u (q.filter (·.isMarker)).length
    s.modQ p fun v => setEngineQueue v u (q.filter fun c => !c.isMarker)) s

/-- Markers of a core are discarded with its commands, and MC is set to MI (R432). -/
def discardMarkers (s : State) (p : Nat) : State :=
  let s := s.modQ p fun q => engines.foldl (fun q u =>
    setEngineQueue q u ((engineQueue q u).filter fun c => !c.isMarker)) q
  s.modSync p fun y => { y with mark := y.mark.map fun e => (e.1, { e.2 with mc := e.2.mi }) }

/-! ## Context save and restore (R345, 10 R240) -/

/-- Residue of a sum of the carry-save pair (R63). -/
def residue (v : BitVec 64) : BitVec 2 := BitVec.ofNat 2 ((v.toInt % 3).toNat)

/-- A slot resolved for a save with RSV = 1 (R240, R243); the first failing element, if any. -/
def resolveSlot (sl : Slot) : Slot × Option Nat :=
  if sl.pz then
    ({ sl with el := (List.range 16384).map fun k => (k, { SMap.get Acc.zero sl.el k with carry := .fixed 0, tag := 3 }) }, none)
  else
    let bad := sl.el.filter fun e => e.2.res != residue e.2.sum
    ({ sl with el := (sl.el.map fun e =>
        (e.1, if e.2.res != residue e.2.sum then { e.2 with carry := .fixed 0, tag := 3, res := residue e.2.sum }
          else { e.2 with carry := .fixed 0 })).filter fun e => e.2 != Acc.zero },
     bad.head?.map (·.1))

/-- A brick selected for a core that leaves its context before a BPOP returns it goes back to its queue (DEDUCED from
R40, log 19). -/
def returnHeld (s : State) (p : Nat) : State :=
  match (s.proc p).heldBrick with
  | none => s
  | some b => requeue (s.modProc p fun x => { x with heldBrick := none }) (clusterOf p) b

/-- The CSRs of an image with their numbers (28 R479). -/
def imageCsrs (c : CCRegs) : List (Nat × Word) :=
  [(0x000, c.status), (0x001, c.cause), (0x002, c.epc), (0x003, c.faddr), (0x004, c.tvec), (0x005, c.escratch),
   (0x013, if c.rsv then 1 else 0), (0x020, c.rm.setWidth 64), (0x021, c.seed), (0x022, c.limit), (0x030, c.rowprog)] ++
  (List.range 4).map (fun k => (0x31 + k, (SMap.get 0 c.pace k).setWidth 64)) ++
  (List.range 24).map fun k => (0x80 + k, (SMap.get 0 c.fmt k).setWidth 64)

/-- Bytes of an image before its carried slots, and of a carried slot raw or resolved (R346; DESIGN CHOICE, log 22, that the
slots follow in order). -/
def imageHead : Nat := 2 ^ 16
def imageSlot (rsv : Bool) : Nat := if rsv then 144 * 1024 else 272 * 1024

/-- The image of core p is written whole: its CSRs stand in the save area, and no sector of it is poisoned (R193, R479). -/
def storeImage (s : State) (x p : Nat) (v : Saved) : State :=
  let b := imageBase s x p
  s.modMem fun m =>
    let m := (imageCsrs v.img.cc).foldl (fun m e => m.write (b + 0x1000 + 8 * e.1) 8 e.2.toNat) m
    m.clearFull [(b, imageHead + v.slots.length * imageSlot v.img.cc.rsv)]

/-- Save the context a core runs and leave it without a program (R41, R345). `fresh` replaces the control-core image by
that of R112 and the semaphores by the loader's values (R343). -/
def saveCore (s : State) (p : Nat) (fresh : Bool) : State :=
  match (s.proc p).ctxOf with
  | none => s
  | some x =>
    let s := completeMarkers (emptyAux (returnHeld s p) p x) p
    let s := semLeave s p none
    let cl := clusterOf p
    let pr := (s.cluster cl).press
    let leased := pr.holder == some (p % 4) && !pr.releasing && !fresh
    let img := (s.proc p).img
    let rsv := img.cc.rsv
    let mine (sl : Slot) : Bool := sl.core == p % 4 && sl.carried && sl.ctx == x
    let raw := pr.slots.filterMap fun e => e.2.bind fun sl => if mine sl then some sl else none
    let done := if rsv then raw.map resolveSlot else raw.map fun sl => (sl, none)
    let s := done.foldl (fun s d => match d.2 with
      | some k => writeRecord s x .note { cause := .accerr, unit := 8, core := p, detail := BitVec.ofNat 24 (d.1.lslot * 2 ^ 18 + k) }
      | none => s) s
    let s := leaseDrop (freeSlots s cl mine) p
    let img := if fresh then { img with cc := startCC s x p, sync := { img.sync with sem := loaderSems s x, arrival := none } } else img
    let v : Saved := ⟨img, done.map (·.1), leased, (s.proc p).coh.ws⟩
    let s := storeImage (s.setSaved x p (some v)) x p v
    s.modProc p fun v => { v with
      run := .idle, img := Image.reset, semq := [], t0 := none, cur := none, stall := [], throttled := false }

/-- The physical slots of a Press that bind nothing, ascending. -/
def freePhysical (pr : Press) : List Nat :=
  (List.range 12).filter fun k => (SMap.get none pr.slots k).isNone

/-- Some sector of the n bytes from byte o of an image is poisoned. -/
def imagePoisoned (s : State) (x p o n : Nat) : Bool :=
  let b := imageBase s x p + o
  s.mem.poison.any fun e => e.2 && decide (b < e.1 * 128 + 128) && decide (e.1 * 128 < b + n)

/-- What a restore takes from a saved image that may have met poison: the program starts from the image of R112, the other
registers are restored as saved, PZ stands in a slot whose image was poisoned (R347; log 22); and whether there was any. -/
def readImage (s : State) (x p : Nat) (v : Saved) : Saved × Bool :=
  let size := imageSlot v.img.cc.rsv
  let head := imagePoisoned s x p 0 imageHead
  let bad (k : Nat) : Bool := imagePoisoned s x p (imageHead + k * size) size
  let any := head || (List.range v.slots.length).any bad
  ({ v with
     img := if any then { v.img with cc := startCC s x p } else v.img
     slots := (List.zip (List.range v.slots.length) v.slots).map fun e => if bad e.1 then { e.2 with pz := true } else e.2 },
   any)

/-- A core takes a context from its saved image, or from the start image (R345, R347, R486). -/
def restoreCore (s : State) (p x : Nat) : State :=
  let r := match s.savedOf x p with
    | some v => readImage s x p v
    | none => (⟨startImage s x p, [], false, 0⟩, false)
  let first := (SMap.get none s.startTvec (x * 512 + p)).isNone
  let v := if first then { r.1 with img := { r.1.img with cc := startCC s x p } } else r.1
  let s := if r.2 then writeRecord s x .note { cause := .eccu, unit := 8, core := p } else s
  let tv := startVector s x p
  let s := s.setSaved x p none
  let s := { s with startTvec := SMap.set none s.startTvec (x * 512 + p) (some tv) }
  let s := s.modProc p fun c => { c with run := .running x, img := { v.img with cc := v.img.cc.transfer }, coh := { c.coh with wsCur := c.coh.wsCur ||| v.sig } }
  let s := s.modPress (clusterOf p) fun pr =>
    { pr with slots := (List.zip (freePhysical pr) v.slots).foldl (fun m e => SMap.set none m e.1 (some e.2)) pr.slots }
  if v.leased then s.modPress (clusterOf p) fun pr => { pr with reqs := pr.reqs ++ [p % 4] } else s

/-- The core holds no RUNNING or RETIRING brick: a brick boundary (R208). -/
def atBoundary (s : State) (p : Nat) : Bool := (s.proc p).liveBricks.isEmpty

/-- Every earlier access of a core has performed and is folded (15 R346). -/
def quiet (s : State) (p : Nat) : Bool :=
  (s.proc p).coh.acks.isEmpty && !(s.fl.remotes.any fun r => r.core == p)

/-! ## Exit and abandon (R289, R329) -/

/-- Discard every command of a core not yet dequeued, its gathered commands and its markers. -/
def discardCore (s : State) (p : Nat) : State :=
  discardMarkers (filterCommands s fun c => c.core != p) p

/-- EXIT.A and core fault (R289, R329): every live brick is marked poisoned or, for a core fault in MAINT mode, parked, its hod
chains are abandoned (13 R302) and the core drains. `r` is the record's content. -/
def abandonCore (s : State) (p : Nat) (r : Rec) (coreFault force : Bool) : State :=
  match (s.proc p).ctxOf with
  | none => s
  | some x =>
    let cur := (s.proc p).cur
    let live := (s.proc p).liveBricks
    let s := if coreFault && !(live.any fun e => some e.1 == cur) then writeRecord s x .poison r else s
    let s := live.foldl (fun s e =>
      let r := { r with col := coreFault && some e.1 != cur }
      if coreFault && !force then brickFault s p e.1 r else brickFault s p e.1 r true) s
    let s := haltChains (discardCore s p) fun c => c.core == p
    let s := clearAnswers p none (semLeave s p none)
    s.modProc p fun v => { v with run := .exiting x, cur := none, t0 := none }

/-- The core's queues and gathered commands have drained, chains that other cores started on it among them, and every brick
has retired (R289). -/
def drained (s : State) (p : Nat) : Bool :=
  atBoundary s p && !anyCommand s (fun c => c.core == p) &&
  engines.all fun u => (engineCap (s.proc p) u).isNone && (engineQueue (s.proc p).q u).all (·.isRelease)

/-- The end of EXIT, EXIT.A and a core fault: UNLEASE, and the image from which the program starts afresh (R289). What the
scalar, reply and token queues still hold is discarded (R290), and a brick that no BPOP returned is requeued (log 19). -/
def finishExit (s : State) (p x : Nat) : State :=
  let s := unlease (emptyAux (returnHeld s p) p x) p
  let img := (s.proc p).img
  let s := s.setSaved x p (some ⟨{ img with cc := startCC s x p, sync := { img.sync with arrival := none } }, [], false, 0⟩)
  s.modProc p fun v => { v with run := .idle, img := Image.reset, semq := [], t0 := none, stall := [], throttled := false }

/-! ## Stops (R332) -/

/-- A core stops (R332); the caller has tested recordFull. -/
def stopCore (s : State) (p : Nat) (r : Rec) : State :=
  match (s.proc p).ctxOf with
  | none => s
  | some x =>
    let r := { r with brick := (s.proc p).cur.bind fun t => brickRegWord s p t }
    let seq := (s.ctx x).fq.seq
    (writeActionable s x .stop r (.stopCc p)).modProc p fun v => { v with run := .stopped x seq }

/-- SEQ of the stop an engine is in. -/
def setStop (s : State) (core : Nat) (e : Eng) (q : Option (BitVec 32)) : State :=
  s.modEng core fun g => match e with
    | .ve => { g with ve := { g.ve with stop := q } }
    | .px => { g with px := { g.px with stop := q } }
    | .hl => { g with hl := { g.hl with stop := q } }
    | .hs => { g with hs := { g.hs with stop := q } }

/-- The command of an engine ends without effect: a faulting stream or chain. -/
def endCommand (s : State) (core : Nat) (e : Eng) : State :=
  match e with
  | .ve => s.modEng core fun g => { g with ve := g.ve.halt }
  | .px => s.modEng core fun g => { g with px := g.px.halt }
  | .hl => haltHod s core false
  | .hs => haltHod s core true

/-- A fault of an engine's instruction or entry (R331): a stop, or a brick fault that ends the command. -/
def engineFault (s : State) (core : Nat) (e : Eng) (c : Capture) (r : Rec) : State :=
  let stop := r.cause.stops
  let r := { r with brick := brickRegWord s c.core c.tag }
  if stop && !recordFull s c.ctx then
    let seq := (s.ctx c.ctx).fq.seq
    setStop (writeActionable s c.ctx .stop r (.stopEng core e)) core e (some seq)
  else brickFault (endCommand s core e) c.core c.tag r stop

/-! ## Hard abort of a core (R343, R348) -/

/-- The engine queues of a core are emptied, of commands that other cores put there by LINK too, and chains of other cores on
its hods are abandoned (R343 steps 2 and 5). -/
def emptyEngines (s : State) (p : Nat) : State :=
  let one (s : State) (hs : Bool) (c : Option Capture) : State := match c with
    | some c => haltHod (dropPending s c.ctx (· == .stopEng p (if hs then .hs else .hl))) p hs
    | none => s
  let x := s.proc p
  (one (one s false x.eng.hl.cap) true x.eng.hs.cap).modQ p fun q => { q with veq := [], pxq := [], hlq := [], hsq := [] }

/-- Steps 1 to 7 of R343, without the save. -/
def abortCore (s : State) (p : Nat) : State :=
  match (s.proc p).ctxOf with
  | none => s
  | some x =>
    let s := emptyEngines (haltCommands (discardCore s p) p none false) p
    let s := leaseDrop s p
    let s := emptyAux s p x
    let s := dropPending s x fun a => match a with
      | .stopCc q => q == p
      | .stopEng q _ => q == p
      | .park _ _ => false
    let s := (s.proc p).liveBricks.foldl (fun s e => abortBrick s p e.1) s
    (clearAnswers p none s).modProc p fun v => { v with t0 := none, semq := [] }

/-- A hard pre-emption of a core (R343): the save waits for its earlier accesses (R346). -/
def hardPreemptCore (s : State) (p : Nat) : State :=
  let s := abortCore s p
  if quiet s p then saveCore s p true
  else match (s.proc p).ctxOf with
    | some x => s.modProc p fun v => { v with run := .aborted x }
    | none => s

/-- A core of the context is aborted by a hard pre-emption only when it holds a brick and every one is restartable. -/
def hardEligible (s : State) (p : Nat) : Bool :=
  let l := (s.proc p).liveBricks
  !l.isEmpty && l.all fun e => e.2.b.rst

end Sys2Proof.Machine
end

