-- ==== Sys2Proof/Machine/Flags.lean ====
section
/-! DEFINITION. The flags of the machine are its predicates; every value an instruction computes for one is here
(06_control_core_registers.md R131). No arithmetic operation sets a flag (R126). -/

namespace Sys2Proof.Machine

/-- The conditions of CMP and CMPI over two w-bit operands (R131). -/
def cond (f : BitVec 4) (w : Nat) (a b : BitVec w) : Bool :=
  match f.toNat with
  | 0 => a == b
  | 1 => a != b
  | 2 => a.slt b
  | 3 => !a.slt b
  | 4 => a.ult b
  | 5 => !a.ult b
  | 6 => a &&& b != 0
  | 7 => a &&& b == 0
  | _ => !(a - b).msb

/-- The immediate of CMPI as a 64-bit operand: signed for EQ, NE, LT, GE and SGE (R131). -/
def cmpiImm (f : BitVec 4) (imm : BitVec 6) : BitVec 64 :=
  if f.toNat ≤ 3 || f = 8 then imm.signExtend 64 else imm.setWidth 64

end Sys2Proof.Machine
end

