-- ==== Sys2Proof/Machine/Numeric.lean ====
section
/-! DEFINITION. Number formats and exact arithmetic (03_number_formats.md): exact values, decoding, Round, integer
conversion, SRBits, contributions and pooling. -/

namespace Sys2Proof.Machine

/-- An exact value: NaN, an infinity, or (-1)^neg * m * 2^e; m = 0 is the zero of that sign. -/
inductive XVal where
  | nan
  | inf (neg : Bool)
  | fin (neg : Bool) (m : Nat) (e : Int)
  deriving DecidableEq, Repr

/-- The floating storage formats (R47, R49, R50, R51). -/
inductive FFmt where
  | fp32 | fp16 | bf16 | e4m3 | e5m2 | e3m2 | e2m3 | e2m1 | t8 | t6 | e8m0
  deriving DecidableEq, Repr

namespace FFmt

/-- Bits of an element. -/
def width : FFmt → Nat
  | fp32 => 32 | fp16 => 16 | bf16 => 16 | e4m3 => 8 | e5m2 => 8 | e3m2 => 6 | e2m3 => 6 | e2m1 => 4 | t8 => 8
  | t6 => 6 | e8m0 => 8
/-- Fraction bits M of an untapered format. -/
def frac : FFmt → Nat
  | fp32 => 23 | fp16 => 10 | bf16 => 7 | e4m3 => 3 | e5m2 => 2 | e3m2 => 2 | e2m3 => 3 | e2m1 => 1 | _ => 0
def bias : FFmt → Nat
  | fp32 => 127 | fp16 => 15 | bf16 => 127 | e4m3 => 7 | e5m2 => 15 | e3m2 => 3 | e2m3 => 1 | e2m1 => 1 | e8m0 => 127
  | _ => 0
/-- The magnitude code of the largest finite value. -/
def maxCode : FFmt → Nat
  | fp32 => 0x7F7FFFFF | fp16 => 0x7BFF | bf16 => 0x7F7F | e4m3 => 0x7E | e5m2 => 0x7B | e3m2 => 0x1F | e2m3 => 0x1F
  | e2m1 => 7 | t8 => 0x7F | t6 => 0x1F | e8m0 => 0xFE
def tapered : FFmt → Bool
  | t8 => true | t6 => true | _ => false
/-- The lattice has one point above the largest finite value (R59); its code is maxCode + 1. -/
def extended : FFmt → Bool
  | fp32 => true | fp16 => true | bf16 => true | e5m2 => true | _ => false

end FFmt

/-- Length of the run of bits equal to `b` at the top of an n-bit field (R51). -/
def regimeRun (b : Bool) (x : Nat) : Nat → Nat
  | 0 => 0
  | n + 1 => if x.testBit n = b then 1 + regimeRun b x n else 0

/-- Magnitude m * 2^e of a non-zero tapered magnitude field of n bits; T8 carries an exponent bit (R51). -/
def taperedMag (n : Nat) (expBit : Bool) (x : Nat) : Nat × Int :=
  let b := x.testBit (n - 1)
  let r := regimeRun b x n
  let k : Int := if b then (r : Int) - 1 else -(r : Int)
  let rest := n - (r + 1)
  if expBit then
    let ebit : Nat := if rest = 0 then 0 else (x >>> (rest - 1)) % 2
    let f := rest - 1
    (2 ^ f + x % 2 ^ f, 2 * k + ebit - f)
  else (2 ^ rest + x % 2 ^ rest, k - rest)

/-- The lattice point of a magnitude code as m * 2^e (R47, R49, R50, R51); code 0 is zero but for E8M0. -/
def FFmt.point (f : FFmt) (c : Nat) : Nat × Int :=
  match f with
  | .t8 => if c = 0 then (0, 0) else taperedMag 7 true c
  | .t6 => if c = 0 then (0, 0) else taperedMag 5 false c
  | .e8m0 => (1, (c : Int) - 127)
  | f =>
    let m := c % 2 ^ f.frac
    let e := c / 2 ^ f.frac
    if e = 0 then (m, 1 - (f.bias : Int) - f.frac) else (2 ^ f.frac + m, (e : Int) - f.bias - f.frac)

/-- The exact value of an encoding (R47-R53). -/
def decodeF (f : FFmt) (x : Nat) : XVal :=
  let x := x % 2 ^ f.width
  match f with
  | .e8m0 => if x = 0xFF then .nan else .fin false 1 ((x : Int) - 127)
  | f =>
    let neg := x.testBit (f.width - 1)
    let c := x % 2 ^ (f.width - 1)
    if f.tapered then
      if c = 0 then (if neg then .nan else .fin false 0 0)
      else let p := f.point c; .fin neg p.1 p.2
    else if c > f.maxCode then
      (if f.extended && c = f.maxCode + 1 then .inf neg else .nan)
    else let p := f.point c; .fin neg p.1 p.2

/-! ## Dyadic arithmetic -/

/-- m * 2^e over 2^c, for c at most e. -/
def scaleTo (c : Int) (m : Nat) (e : Int) : Nat := m <<< (e - c).toNat

/-- a < b for magnitudes. -/
def magLt (a b : Nat × Int) : Bool :=
  let c := min a.2 b.2
  decide (scaleTo c a.1 a.2 < scaleTo c b.1 b.2)

/-- floor (log2 (m * 2^e)) for m not 0. -/
def magLog (m : Nat) (e : Int) : Int := (Nat.log2 m : Int) + e

namespace XVal

def isNeg : XVal → Bool
  | nan => false | inf n => n | fin n _ _ => n

def isNaN : XVal → Bool
  | nan => true | _ => false

def neg : XVal → XVal
  | nan => nan | inf n => inf (!n) | fin n m e => fin (!n) m e

def isZero : XVal → Bool
  | fin _ 0 _ => true | _ => false

/-- The exact product. -/
def mul : XVal → XVal → XVal
  | nan, _ => nan
  | _, nan => nan
  | inf a, inf b => inf (a != b)
  | inf a, fin b m _ => if m = 0 then nan else inf (a != b)
  | fin a m _, inf b => if m = 0 then nan else inf (a != b)
  | fin a m e, fin b n f => fin (a != b) (m * n) (e + f)

/-- The integer (-1)^n * m. -/
def signed (n : Bool) (m : Nat) : Int := if n then -(m : Int) else m

/-- The exact sum; an exact zero takes its sign by R59: the sign common to both terms, or minus under RDN only. -/
def add (rdn : Bool) : XVal → XVal → XVal
  | nan, _ => nan
  | _, nan => nan
  | inf a, inf b => if a = b then inf a else nan
  | inf a, _ => inf a
  | _, inf b => inf b
  | fin a m e, fin b n f =>
    let c := min e f
    let t := signed a (scaleTo c m e) + signed b (scaleTo c n f)
    if t = 0 then fin (if a = b then a else rdn) 0 0
    else fin (decide (t < 0)) t.natAbs c

/-- x * 2^k. -/
def scale (k : Int) : XVal → XVal
  | fin n m e => fin n m (e + k)
  | x => x

/-- An integer as an exact value. -/
def ofInt (i : Int) : XVal := fin (decide (i < 0)) i.natAbs 0

/-- Order key of comparisons of numbers, -0 equal to +0. -/
def lt : XVal → XVal → Bool
  | nan, _ => false
  | _, nan => false
  | inf a, inf b => a && !b
  | inf a, _ => a
  | _, inf b => !b
  | fin a m e, fin b n f =>
    let c := min e f
    decide (signed a (scaleTo c m e) < signed b (scaleTo c n f))

/-- Numbers of equal value. -/
def eqv (x y : XVal) : Bool := !x.isNaN && !y.isNaN && !lt x y && !lt y x

end XVal

/-! ## Rounding (R58-R60, R485) -/

/-- Rounding modes after DYN is resolved (R58). -/
inductive RMode where
  | rne | rtz | rdn | rup | rna | sr
  deriving DecidableEq, Repr

/-- The mode of a field whose DYN reads `fprm` (R58); code 7 is refused before. -/
def RMode.of (field fprm : Nat) : RMode :=
  let k := if field = 6 then fprm else field
  match k with
  | 1 => .rtz | 2 => .rdn | 3 => .rup | 4 => .rna | 5 => .sr | _ => .rne

/-- The mode where SR cannot be asked (R62). -/
def RMode.noSr : RMode → RMode
  | .sr => .rne | m => m

/-- Whether a magnitude between two neighbours goes to the upper one: `a` above the lower, `d` the distance between
them, in one unit (R59). -/
def takeHi (rm : RMode) (neg loEven : Bool) (u a d : Nat) : Bool :=
  match rm with
  | .rne => decide (2 * a > d) || (decide (2 * a = d) && !loEven)
  | .rna => decide (2 * a ≥ d)
  | .rtz => false
  | .rup => !neg
  | .rdn => neg
  | .sr => decide (u * d < a * 2 ^ 32)

/-- The code of the largest lattice point at most m * 2^e, m not 0; may pass the end of the lattice. -/
def FFmt.floorCode (f : FFmt) (m : Nat) (e : Int) : Nat :=
  if f.tapered then
    (List.range (f.maxCode + 1)).foldl (fun best c => if magLt (m, e) (f.point c) then best else c) 0
  else
    let top := max (magLog m e) (1 - (f.bias : Int))
    let q := top - f.frac
    let n := if e ≥ q then m <<< (e - q).toNat else m >>> (q - e).toNat
    (top + f.bias - 1).toNat * 2 ^ f.frac + n

/-- The encoding of a sign and magnitude code. -/
def FFmt.enc (f : FFmt) (neg : Bool) (c : Nat) : Nat :=
  if neg && !(f.tapered && c = 0) then 2 ^ (f.width - 1) + c else c

/-- NaNResult (R60). -/
def FFmt.nanResult : FFmt → Nat
  | .fp32 => 0x7FC00000 | .fp16 => 0x7E00 | .bf16 => 0x7FC0 | .e5m2 => 0x7E | .e4m3 => 0x7F
  | .t8 => 0x80 | .t6 => 0x20 | .e8m0 => 0xFF | _ => 0

/-- Overflow (R60). -/
def FFmt.overflow (f : FFmt) (neg noo : Bool) (rm : RMode) (isInf : Bool) : Nat :=
  let largest := f.enc neg f.maxCode
  let infinity := f.enc neg (f.maxCode + 1)
  match f with
  | .e5m2 => if isInf || noo then infinity else largest
  | .e4m3 => if noo then 0x7F else largest
  | .e3m2 => largest | .e2m3 => largest | .e2m1 => largest
  | .t8 => if noo then 0x80 else largest
  | .t6 => if noo then 0x20 else largest
  | .e8m0 => if neg || noo then 0xFF else 0xFE
  | _ =>
    if isInf then infinity
    else match rm with
      | .rtz => largest
      | .rdn => if neg then infinity else largest
      | .rup => if neg then largest else infinity
      | _ => infinity

/-- TaperedUnderflow (R54): the code of a non-zero magnitude below the smallest value. -/
def taperedUnderflow (neg : Bool) : RMode → Nat
  | .rtz => 0
  | .rdn => if neg then 1 else 0
  | .rup => if neg then 0 else 1
  | _ => 1

/-- Round to E8M0 (R485), of a positive finite value. -/
def roundE8 (rm : RMode) (noo : Bool) (u m : Nat) (e : Int) : Nat :=
  if magLt (1, 127) (m, e) then (if noo then 0xFF else 0xFE)
  else if magLt (m, e) (1, -127) then 0
  else
    let l := magLog m e
    let lo := (l + 127).toNat
    let c := min e l
    let a := scaleTo c m e - scaleTo c 1 l
    if a = 0 then lo
    else if takeHi rm false (lo % 2 = 0) u a (scaleTo c 1 l) then lo + 1 else lo

/-- Round(x, fmt, rm, noo, u) (R59, R485). -/
def roundF (f : FFmt) (rm : RMode) (noo : Bool) (u : Nat) (x : XVal) : Nat :=
  match x with
  | .nan => f.nanResult
  | .inf neg => f.overflow neg noo rm true
  | .fin neg m e =>
    if f = .e8m0 then (if m = 0 || neg then 0xFF else roundE8 rm noo u m e)
    else if m = 0 then f.enc neg 0
    else
      let top := if f.extended then f.maxCode + 1 else f.maxCode
      let lo := min (f.floorCode m e) top
      let p := f.point lo
      let exact := !magLt p (m, e)
      if exact then (if lo > f.maxCode then f.overflow neg noo rm false else f.enc neg lo)
      else if lo = top then f.overflow neg noo rm false
      else if lo = 0 && f.tapered then f.enc neg (taperedUnderflow neg rm)
      else
        let h := f.point (lo + 1)
        let c := min e (min p.2 h.2)
        let l := scaleTo c p.1 p.2
        let r := if takeHi rm neg (lo % 2 = 0) u (scaleTo c m e - l) (scaleTo c h.1 h.2 - l) then lo + 1 else lo
        if r > f.maxCode then f.overflow neg noo rm false else f.enc neg r

/-- Round to an integer by a mode (R46, R63): magnitude of m * 2^e. -/
def roundMag (rm : RMode) (neg : Bool) (u m : Nat) (e : Int) : Nat :=
  if e ≥ 0 then m <<< e.toNat
  else
    let d := 2 ^ (-e).toNat
    let lo := m / d
    let a := m % d
    if a = 0 then lo else if takeHi rm neg (lo % 2 = 0) u a d then lo + 1 else lo

/-- Clamp to a range. -/
def clampInt (lo hi x : Int) : Int := if x < lo then lo else if x > hi then hi else x

/-- The range of an integer of n bits. -/
def intMin (sgn : Bool) (n : Nat) : Int := if sgn then -((2 : Int) ^ (n - 1)) else 0
def intMax (sgn : Bool) (n : Nat) : Int := if sgn then (2 : Int) ^ (n - 1) - 1 else (2 : Int) ^ n - 1

/-- Conversion to an integer of n bits (R46). -/
def toIntSat (sgn : Bool) (n : Nat) (rm : RMode) (u : Nat) (x : XVal) : Int :=
  match x with
  | .nan => 0
  | .inf neg => if neg then intMin sgn n else intMax sgn n
  | .fin neg m e => clampInt (intMin sgn n) (intMax sgn n) (XVal.signed neg (roundMag rm neg u m e))

/-- IEEE maximum and minimum with -0 below +0 (R68); a NaN operand gives NaN. -/
def XVal.maxIeee (x y : XVal) : XVal :=
  if x.isNaN || y.isNaN then .nan
  else if x.lt y then y else if y.lt x then x else if x.isNeg then y else x
def XVal.minIeee (x y : XVal) : XVal :=
  if x.isNaN || y.isNaN then .nan
  else if x.lt y then x else if y.lt x then y else if x.isNeg then x else y

/-- The total order of R69 as a pair of a class and a value: whether x is strictly before y. -/
def XVal.totalLt (x y : XVal) : Bool :=
  match x, y with
  | .nan, _ => false
  | _, .nan => true
  | x, y => x.lt y || (!y.lt x && x.isNeg && !y.isNeg)

/-! ## SRBits (R61) -/

def srMix (x : Nat) : Nat :=
  let x := (x + 0x8B5AD4CE3F219A67) % 2 ^ 64
  let x := ((x ^^^ (x >>> 29)) * 0xD6E8FEB86659FD93) % 2 ^ 64
  let x := ((x ^^^ (x >>> 32)) * 0xA3B195354A39B70D) % 2 ^ 64
  x ^^^ (x >>> 29)

def srBits (seed tile coord step : Nat) : Nat :=
  let x := seed ^^^ ((tile % 2 ^ 12) <<< 52) ^^^ (step % 2 ^ 32)
  srMix (srMix x ^^^ coord) >>> 32

/-! ## Exact division and square root, to a grid fine enough for any later rounding to nearest -/

/-- a / b (not 0) as a dyadic with 70 or more significant bits and a sticky last bit. -/
def divDyadic (neg : Bool) (a : Nat) (ea : Int) (b : Nat) (eb : Int) : XVal :=
  if a = 0 then .fin neg 0 0
  else
    let k := 70 + Nat.log2 b
    let n := a <<< k
    let q := n / b
    .fin neg (2 * q + (if n % b = 0 then 0 else 1)) (ea - eb - k - 1)

/-- Integer square root by bits from the top: the largest r with r * r at most n. -/
def isqrtLoop (n : Nat) : Nat → Nat → Nat
  | 0, r => r
  | k + 1, r => let c := r + 2 ^ k; isqrtLoop n k (if c * c ≤ n then c else r)
def isqrt (n : Nat) : Nat := isqrtLoop n (Nat.log2 n / 2 + 1) 0

/-- The square root of m * 2^e as a dyadic with 70 or more significant bits and a sticky last bit. -/
def sqrtDyadic (m : Nat) (e : Int) : XVal :=
  if m = 0 then .fin false 0 0
  else
    let k : Nat := if e % 2 = 0 then 140 else 141
    let n := m <<< k
    let r := isqrt n
    .fin false (2 * r + (if r * r = n then 0 else 1)) ((e - k) / 2 - 1)

/-! ## Pooling (R70) -/

/-- A product on the grid 2^-48, as an integer number of units. -/
def poolUnits (neg : Bool) (m : Nat) (e : Int) : Int := XVal.signed neg (roundMag .rne neg 0 m (e + 48))

/-- Tags of sums of terms (R65): 0 normal, 1 +inf, 2 -inf, 3 NaN. -/
def tagAdd (t : BitVec 2) (x : XVal) : BitVec 2 :=
  match x with
  | .nan => 3
  | .inf neg =>
    let k : BitVec 2 := if neg then 2 else 1
    if t = 0 || t = k then k else 3
  | .fin _ _ _ => t

/-- The value of a sum with its tag: the tag's special, or the sum in units of 2^e. -/
def tagValue (t : BitVec 2) (sum : Int) (e : Int) : XVal :=
  match t.toNat with
  | 1 => .inf false | 2 => .inf true | 3 => .nan
  | _ => .fin (decide (sum < 0)) sum.natAbs e

/-- A pooled sum before rounding (R70 step 3). The grid has no signed zero: a zero sum is +0 (DESIGN CHOICE, log 8). -/
def poolValue (t : BitVec 2) (sum : Int) : XVal :=
  if t = 0 && sum.natAbs ≥ 2 ^ 95 then .inf (decide (sum < 0)) else tagValue t sum (-48)

/-- Add one term w * x to a sum in units of 2^-48 with its tag (R70); a product of 2^47 or more is an infinity (R315). -/
def poolTerm (t : BitVec 2) (sum : Int) (w x : XVal) : BitVec 2 × Int :=
  match w.mul x with
  | .fin neg m e =>
    if m ≠ 0 && !magLt (m, e) (1, 47) then (tagAdd t (.inf neg), sum) else (t, sum + poolUnits neg m e)
  | p => (tagAdd t p, sum)

/-! ## Storage formats (R56) -/

/-- The floating format of a storage code. -/
def FFmt.ofCode : Nat → Option FFmt
  | 9 => some .fp32 | 10 => some .fp16 | 11 => some .bf16 | 12 => some .e4m3 | 13 => some .e5m2 | 14 => some .e3m2
  | 15 => some .e2m3 | 16 => some .e2m1 | 17 => some .t8 | 18 => some .t6 | 19 => some .e8m0 | _ => none

/-- Signedness and width of an integer storage code. -/
def intOfCode : Nat → Option (Bool × Nat)
  | 1 => some (true, 8) | 2 => some (false, 8) | 3 => some (true, 16) | 4 => some (false, 16)
  | 5 => some (true, 32) | 6 => some (false, 32) | 7 => some (true, 64) | 8 => some (false, 64) | _ => none

/-- Bits of an element of a storage code; 0 where the code names no packed element (RAW, XA, reserved). -/
def fmtBits (code : Nat) : Nat :=
  match FFmt.ofCode code, intOfCode code with
  | some f, _ => f.width
  | _, some p => p.2
  | _, _ => 0

/-- The exact value of a stored element. -/
def decodeElem (code x : Nat) : XVal :=
  match FFmt.ofCode code, intOfCode code with
  | some f, _ => decodeF f x
  | _, some (sgn, n) => .ofInt (if sgn then signExt n x else (x % 2 ^ n : Nat))
  | _, _ => .fin false 0 0

/-- An exact value encoded into a storage format (R46, R59). -/
def encodeElem (code : Nat) (rm : RMode) (noo : Bool) (u : Nat) (x : XVal) : Nat :=
  match FFmt.ofCode code, intOfCode code with
  | some f, _ => roundF f rm noo u x
  | _, some (sgn, n) => trunc n (toIntSat sgn n rm u x)
  | _, _ => 0

end Sys2Proof.Machine
end

