-- ==== Sys2Proof/Machine/Operands.lean ====
section
/-! DEFINITION. Operand forms of the control core: the Reg and Imm operations as functions of words (R125-R130, R136-R138),
effective addresses (R198), handle fields and views (R115, R143-R147). -/

namespace Sys2Proof.Machine

/-! ## Integer operations (R126-R129), over a width w of 32 or 64 -/

def bvMin (w : Nat) (a b : BitVec w) : BitVec w := if a.slt b then a else b
def bvMax (w : Nat) (a b : BitVec w) : BitVec w := if a.slt b then b else a
def bvMinz (w : Nat) (a b : BitVec w) : BitVec w := if a.ult b then a else b
def bvMaxz (w : Nat) (a b : BitVec w) : BitVec w := if a.ult b then b else a
/-- |sa - sb|, wrapping (R127). -/
def bvAbsd (w : Nat) (a b : BitVec w) : BitVec w := BitVec.ofInt w ((a.toInt - b.toInt).natAbs : Nat)
/-- The shift count: the second operand modulo the width. -/
def shiftCount (w : Nat) (b : BitVec w) : Nat := b.toNat % w
def bvMulh (w : Nat) (a b : BitVec w) : BitVec w := BitVec.ofInt w ((a.toInt * b.toInt) / (2 : Int) ^ w)
def bvMulhz (w : Nat) (a b : BitVec w) : BitVec w := BitVec.ofNat w ((a.toNat * b.toNat) / 2 ^ w)
/-- Quotient toward zero; all ones for a divisor of zero (R128). -/
def bvDiv (w : Nat) (a b : BitVec w) : BitVec w :=
  if b = 0 then BitVec.allOnes w else BitVec.ofInt w (a.toInt.tdiv b.toInt)
def bvDivz (w : Nat) (a b : BitVec w) : BitVec w := if b = 0 then BitVec.allOnes w else BitVec.ofNat w (a.toNat / b.toNat)
/-- Remainder with the sign of the dividend; the dividend for a divisor of zero. -/
def bvRem (w : Nat) (a b : BitVec w) : BitVec w := if b = 0 then a else BitVec.ofInt w (a.toInt.tmod b.toInt)
def bvRemz (w : Nat) (a b : BitVec w) : BitVec w := if b = 0 then a else BitVec.ofNat w (a.toNat % b.toNat)

/-- Leading zeros of the low n bits. -/
def lzCount (x : Nat) : Nat → Nat
  | 0 => 0
  | n + 1 => if x.testBit n then 0 else 1 + lzCount x n
/-- Trailing zeros, up to n. -/
def tzCount (x : Nat) : Nat → Nat
  | 0 => 0
  | n + 1 => if x.testBit 0 then 0 else 1 + tzCount (x / 2) n
/-- 1 bits of the low n bits. -/
def popCount (x : Nat) : Nat → Nat
  | 0 => 0
  | n + 1 => (if x.testBit n then 1 else 0) + popCount x n
/-- The low n bits in reverse order. -/
def bitRev (x : Nat) : Nat → Nat
  | 0 => 0
  | n + 1 => (if x.testBit 0 then 2 ^ n else 0) + bitRev (x / 2) n
/-- The low n bytes in reverse order. -/
def byteRev (x : Nat) : Nat → Nat
  | 0 => 0
  | n + 1 => (x % 256) * 256 ^ n + byteRev (x / 256) n

/-- A two-operand operation at the width of X, sign-extended (R126). -/
def regResult (x : Bool) (op : (w : Nat) → BitVec w → BitVec w → BitVec w) (a b : Word) : Word :=
  if x then (op 32 (a.setWidth 32) (b.setWidth 32)).signExtend 64 else op 64 a b

/-- A one-operand operation at the width of X. -/
def unResult (x : Bool) (op : Nat → Nat → Nat) (a : Word) : Word :=
  if x then (BitVec.ofNat 32 (op 32 (a.toNat % 2 ^ 32))).signExtend 64 else BitVec.ofNat 64 (op 64 a.toNat)

/-- The signed immediate of the Imm form (R129). -/
def immV (imm : BitVec 10) : Word := imm.signExtend 64

/-! ## Bit fields (R138) -/

def bfMask (pos len : BitVec 6) : Word := BitVec.ofNat 64 ((2 ^ (len.toNat + 1) - 1) <<< pos.toNat)
def bfExtract (a : Word) (pos len : BitVec 6) : Nat := (a.toNat >>> pos.toNat) % 2 ^ (len.toNat + 1)
def bfExtractS (a : Word) (pos len : BitVec 6) : Word := BitVec.ofInt 64 (signExt (len.toNat + 1) (a.toNat >>> pos.toNat))
def bfInsert (d a : Word) (pos len : BitVec 6) : Word :=
  let m := bfMask pos len
  (d &&& ~~~m) ||| ((a <<< pos.toNat) &&& m)

/-! ## Effective addresses (R198) -/

/-- Form Mem: Trunc(s[A] + SignExtend(imm16, 16), 52). -/
def memAddr (a : Word) (imm : BitVec 16) : Nat := (a + imm.signExtend 64).toNat % 2 ^ 52
/-- Form Atomic: the offset counts elements of n bytes. -/
def atomAddr (a : Word) (imm : BitVec 7) (n : Nat) : Nat := (a + imm.signExtend 64 * BitVec.ofNat 64 n).toNat % 2 ^ 52

/-! ## Handles (R115, R143) -/

namespace H

def base (h : Handle) : BitVec 52 := fld h 0 52
def fmt (h : Handle) : Nat := (fld h 52 5).toNat
def rank (h : Handle) : Nat := (fld h 57 3).toNat
def cls (h : Handle) : BitVec 4 := fld h 60 4
/-- Size of dim d; a field of 0 means 65,536. -/
def size (h : Handle) (d : Nat) : Nat := let v := (fld h (64 + 16 * d) 16).toNat; if v = 0 then 65536 else v
/-- Element stride of dim d; dim 0 is contiguous. -/
def stride (h : Handle) (d : Nat) : Int := if d = 0 then 1 else (fld h (128 + 24 * (d - 1)) 24).toInt
def tile (h : Handle) : Nat := (fld h 200 12).toNat
def rgn (h : Handle) : Nat := (fld h 212 10).toNat
def scaled (h : Handle) : Bool := h.getLsbD 228
def soff (h : Handle) : Nat := (fld h 229 27).toNat
/-- RANK 1-4 (R117). -/
def rankOk (h : Handle) : Bool := decide (1 ≤ rank h) && decide (rank h ≤ 4)
def fmtOk (h : Handle) : Bool := decide (fmt h ≤ 20)

/-- Replace the n-bit field at lo. -/
def put (h : Handle) (lo n v : Nat) : Handle :=
  (h &&& ~~~(BitVec.ofNat 256 ((2 ^ n - 1) <<< lo))) ||| BitVec.ofNat 256 ((v % 2 ^ n) <<< lo)

/-- Place and width of the field of a selector (R143). -/
def selField (sel : Nat) : Nat × Nat :=
  match sel with
  | 0 => (0, 52) | 1 => (52, 5) | 2 => (57, 3) | 3 => (60, 4)
  | 4 => (64, 16) | 5 => (80, 16) | 6 => (96, 16) | 7 => (112, 16)
  | 8 => (128, 24) | 9 => (152, 24) | 10 => (176, 24)
  | 11 => (200, 12) | 12 => (212, 10) | 13 => (228, 1) | _ => (229, 27)

/-- HGET's value (R143). -/
def getSel (h : Handle) (sel : Nat) : Word :=
  let p := selField sel
  let v := (h.toNat >>> p.1) % 2 ^ p.2
  if 4 ≤ sel && sel ≤ 7 then BitVec.ofNat 64 (if v = 0 then 65536 else v)
  else if 8 ≤ sel && sel ≤ 10 then BitVec.ofInt 64 (signExt 24 v)
  else BitVec.ofNat 64 v

/-- HMK's handle (R144). -/
def make (a : Word) (fmt : BitVec 5) (rank : BitVec 3) (cls : BitVec 4) (scaled : Bool) : Handle :=
  BitVec.ofNat 256 (a.toNat % 2 ^ 52 + fmt.toNat * 2 ^ 52 + rank.toNat * 2 ^ 57 + cls.toNat * 2 ^ 60 +
    2 ^ 64 + 2 ^ 80 + 2 ^ 96 + 2 ^ 112 + 0xFFF * 2 ^ 200 + 0x3FF * 2 ^ 212 + (if scaled then 2 ^ 228 else 0))

/-- ElemBits: bits of an element of a storage code, RAW 8 and XA 128 (R146). -/
def elemBits (fmt : Nat) : Nat := if fmt = 0 then 8 else if fmt = 20 then 128 else fmtBits fmt

/-- BASE moved by a number of bits, a multiple of 8. -/
def moveBase (h : Handle) (bits : Int) : Handle := put h 0 52 (trunc 52 ((base h).toNat + bits / 8))

/-- HADV's handle, or its fault (R146). -/
def adv (h : Handle) (n : Word) (dim : Nat) : Except Cause Handle :=
  if !rankOk h || dim ≥ rank h then .error .shape
  else if !fmtOk h then .error .fmtmismatch
  else
    let bits := n.toInt * stride h dim * elemBits (fmt h)
    if bits % 8 ≠ 0 then .error .shape else .ok (moveBase h bits)

/-- Coordinate d of HSUB's operand. -/
def coord (b : Word) (d : Nat) : Nat := (b.toNat >>> (16 * d)) % 65536

/-- HSUB's handle, or its fault (R147). -/
def sub (h : Handle) (b : Word) : Except Cause Handle :=
  if !rankOk h then .error .shape
  else if !fmtOk h then .error .fmtmismatch
  else if (List.range 4).any fun d => if d < rank h then decide (coord b d ≥ size h d) else decide (coord b d ≠ 0) then .error .shape
  else
    let ds := List.range (rank h)
    let off := ds.foldl (fun (o : Int) d => o + coord b d * stride h d) 0
    let bits := off * elemBits (fmt h)
    if bits % 8 ≠ 0 then .error .shape
    else .ok (ds.foldl (fun g d => put g (64 + 16 * d) 16 (size h d - coord b d)) (moveBase h bits))

end H
end Sys2Proof.Machine
end

