-- ==== Sys2Proof/Machine/Ops.lean ====
section
/-! DEFINITION. How a core's instruction ends: retirement, a wait, a fault with its trap entry, stop or core fault, and the
return from a trap (06_control_core_registers.md R111, R140, R142; 15_faults_preemption_context.md R326-R332). -/

namespace Sys2Proof.Machine

/-! ## Registers the trap path writes -/

/-- cc.cause (R120). -/
def causeWord (c : Cause) (straddle : Bool) (tnum : BitVec 24) : Word :=
  BitVec.ofNat 64 (c.code.toNat + (tnum.toNat % 1024) * 2 ^ 16 + (if straddle then 2 ^ 31 else 0))

/-- TNUM is written for TRAPI only (R140). -/
def trapNumber (c : Cause) (detail : BitVec 24) : BitVec 24 := if c = .trapi then detail else 0

/-- cc.epc of a fault: the faulting instruction, or the one after a TRAP (R140, R141). -/
def faultEpc (c : Cause) (pc : Word) : Word := if c = .trapi then pc + 4 else pc

/-- Trap entry's register values (R140). -/
def CCRegs.trapEntry (r : CCRegs) (c : Cause) (addr : Nat) (straddle : Bool) (detail : BitVec 24) : CCRegs :=
  { r with
    cause := causeWord c straddle (trapNumber c detail)
    epc := faultEpc c r.pc
    faddr := BitVec.ofNat 64 addr
    status := if r.sys then 3 else 2
    sys := true
    ahead := if c = .trapi then [] else r.ahead
    pc := (r.tvec >>> 12 <<< 12) + BitVec.ofNat 64 (16 * c.code.toNat) }

/-- A stop keeps PC and the straddle bit, with the fault's registers (R332; DEDUCED, log 13). -/
def CCRegs.stopEntry (r : CCRegs) (c : Cause) (addr : Nat) (straddle : Bool) : CCRegs :=
  { r with cause := causeWord c straddle 0, epc := r.pc, faddr := BitVec.ofNat 64 addr }

/-- ERET's register values (R142). -/
def CCRegs.eretTo (r : CCRegs) : CCRegs :=
  { r with sys := r.status.getLsbD 0, status := r.status &&& ~~~2#64, pc := r.epc }

/-- No WAITADDR or SCW is in progress any more. -/
def dropWait (s : State) (p : Nat) : State :=
  if (s.proc p).t0.isNone then s else s.modProc p fun x => { x with t0 := none }

/-- The stall code of a wait at which a core without a brick is at a brick boundary: WAITADDR, SCW, MARK.WAIT, RDVW and
SEQWAIT (R208, R400, R438); SEMW has its event's. No performance event has this code. -/
def boundaryWait : Nat := 0x101

/-- Begin a WAITADDR or SCW, or go on with it: its t0 (R207, R429). -/
def beginWait (p : Nat) (scw : Option (BitVec 5 × BitVec 8)) (op : Option MemOp := none) : M Word := do
  let s ← get
  match (s.proc p).t0 with
  | some w => return w.since
  | none =>
    doS fun s => s.modProc p fun x => { x with t0 := some ⟨s.mod.gts, scw, op⟩ }
    return s.mod.gts

/-- wait.limit has run out since t0 (R207, R429). -/
def limitOver (s : State) (p : Nat) (t0 : Word) : Bool :=
  let lim := (s.cc p).limit
  lim != 0 && decide (lim.toNat ≤ s.gts - t0.toNat)

/-- Causes a control core's handler takes (R325). -/
def Cause.traps : Cause → Bool
  | .illop => true | .priv => true | .align => true | .window => true | .fmtmismatch => true | .tilewait => true
  | .shape => true | .eccu => true | .acclim => true | .trapi => true
  | _ => false

/-! ## Core faults -/

/-- The record of a core's fault (R335, R336); LOC is cc.epc, which a double fault leaves as it stands (R328). -/
def ccRecord (s : State) (p : Nat) (c : Cause) (addr : Nat) (straddle : Bool) (detail : BitVec 24) (dbl : Bool) : Rec :=
  { cause := c, unit := if p < 256 then 0 else 5, core := if p < 256 then p else p - 256, faddr := addr,
    loc := (if dbl then (s.cc p).epc else faultEpc c (s.cc p).pc).toNat % 2 ^ 52, detail := trapNumber c detail, st := straddle, dbl := dbl }

/-- A lookup core's program ends by EXIT.A or a core fault (R307, R330): the requester's brick and the own record; the
reply with 0xFFFF is still to be pushed. Replies of its outstanding KBAGs are discarded (DEDUCED for the core fault,
log 17). -/
def lookupAbandon (s : State) (p : Nat) (r : Rec) (coreFault force : Bool) : State :=
  match (s.proc p).ctxOf with
  | none => s
  | some x =>
    let k := p - 256
    let s := if coreFault then writeRecord s x .note r else s
    let s := match (s.lookup k).cur with
      | some j => if j.orphan then s else brickFault s j.rcore j.btag r force
      | none => s
    let s := (List.range 64).foldl (fun s c => dropHeld s c (.cc p)) s
    let s := s.modLookup k fun l =>
      { l with aq := [], dq := [], bags := [], pr := none, stall := none, restart := coreFault, kbags := l.kbags.map fun q => { q with drop := true } }
    (clearAnswers p none s).modProc p fun v => { v with run := .exiting x, t0 := none }

/-- A core fault of a control core (R329) or of a lookup core (R330); `force` poisons in either mode. -/
def coreFault (s : State) (p : Nat) (r : Rec) (force : Bool := false) : State :=
  if p < 256 then abandonCore s p r true force else lookupAbandon s p r true force

/-! ## Faults, waits and retirement of an instruction -/

/-- Taking a fault of a core's instruction (R327-R330, R332). -/
def takeFault (s : State) (p : Nat) (c : Cause) (addr : Nat := 0) (straddle : Bool := false) (detail : BitVec 24 := 0) : State :=
  let r := s.cc p
  let s := dropWait (clearAnswers p none (setStall s p none 0)) p
  if c.stops && !r.intrap && recordFull s (((s.proc p).ctxOf).getD 0) then
    coreFault s p (ccRecord s p c addr straddle detail false) true
  else if c.stops && !r.intrap then
    stopCore (s.modCC p fun r => r.stopEntry c addr straddle) p (ccRecord s p c addr straddle detail false)
  else if c.traps && !r.intrap && fld r.tvec 12 52 != 0 then
    s.modCC p fun r => r.trapEntry c addr straddle detail
  else coreFault s p (ccRecord s p c addr straddle detail r.intrap)

/-- The instruction has completed; execution goes on at `pc`. -/
def retireCC (s : State) (p : Nat) (pc : Word) : State :=
  clearAnswers p none (setStall (s.modCC p fun r => { r with pc := pc }) p none 0)

/-- Which kind of core an instruction belongs to (R73, R86). -/
inductive Kind where
  | any | control | lookup
  deriving DecidableEq, Repr

def Kind.admits (k : Kind) (p : Nat) : Bool :=
  match k with
  | .any => true
  | .control => decide (p < 256)
  | .lookup => decide (256 ≤ p)

/-- Where an instruction leaves PC: after itself, at a target, or at itself because the core no longer runs it. -/
inductive Flow where
  | next
  | jump (pc : Word)
  | stay
  deriving DecidableEq, Repr

/-- Run one instruction of a core, `len` bytes long (R77): defined for the kind of core, PRIV, guard, operands. A wait
leaves PC at the instruction, which runs again at the core's next turn. -/
def ccRun (k : Kind) (priv : Bool) (gd : Guard) (len : Nat) (body : Nat → M Flow) (s : State) : Out :=
  match s.actor with
  | .cc p =>
    let r := s.cc p
    if !k.admits p then .next (takeFault s p .illop)
    else if priv && !r.sys then .next (takeFault s p .priv)
    else if !r.guard gd then .next (retireCC s p (r.pc + BitVec.ofNat 64 len))
    else match body p s with
      | .ok .next t => .next (retireCC t p (r.pc + BitVec.ofNat 64 len))
      | .ok (.jump pc) t => .next (retireCC t p pc)
      | .ok .stay t => .next (clearAnswers p none (setStall t p none 0))
      | .error (.fault c a st d) t => .next (takeFault t p c a st d)
      | .error (.wait ev) t => .next (setStall t p none (ev + 1))
  | _ => .fault .wrongUnit

/-- The guard of an instruction that has none. -/
def always : Guard := ⟨0, false⟩

/-- An instruction that only computes registers from registers. -/
def ccReg (gd : Guard) (len : Nat) (f : CCRegs → CCRegs) (s : State) : Out :=
  ccRun .any false gd len (fun p => do doS fun s => s.modCC p f; return .next) s

/-- A PC-relative transfer (R134): PC and the registers after it; none where it is not taken. -/
def ccBranch (gd : Guard) (len : Nat) (f : CCRegs → Option (Word × CCRegs)) (s : State) : Out :=
  ccRun .any false gd len (fun p => do
    match f ((← get).cc p) with
    | none => return .next
    | some v =>
      doS fun s => s.modCC p fun _ => v.2.transfer
      return .jump v.1) s

/-- A transfer to a register's target, or its ALIGN (R135). -/
def ccJump (gd : Guard) (len : Nat) (f : CCRegs → Word × CCRegs) (s : State) : Out :=
  ccRun .any false gd len (fun p => do
    let v := f ((← get).cc p)
    need (!v.1.getLsbD 0) .align v.1.toNat
    doS fun s => s.modCC p fun _ => v.2.transfer
    return .jump v.1) s

/-- The core's unit and context, for its own accesses. -/
def ccWho (p : Nat) : M Who := do return ⟨p, none, ((← get).proc p).ctxOf.getD 0, p⟩

/-- The tag of the current brick; ILLOP when none is current (R285). -/
def currentTag (p : Nat) : M (BitVec 3) := do
  match ((← get).proc p).cur with
  | some t => return t
  | none => faultM .illop

end Sys2Proof.Machine
end

