-- ==== Sys2Proof/Machine/Alu.lean ====
section
/-! DEFINITION. Meanings of the register-only instructions of the control core: 16-bit forms, integer and logic operations,
compares, predicates, constants and bit fields (06_control_core_registers.md R125-R138). -/

namespace Sys2Proof.Machine

/-! ## 16-bit forms (R125) -/

/-- ILL raises ILLOP. -/
def execIll (_d _a : BitVec 5) (s : State) : Out := ccRun .any false always 2 (fun _ => faultM .illop) s
def execNop (s : State) : Out := ccReg always 2 (fun r => r) s
def execMov (d a : BitVec 5) (s : State) : Out := ccReg always 2 (fun r => r.writeS d (r.readS a)) s
def execAddC (d a : BitVec 5) (s : State) : Out := ccReg always 2 (fun r => r.writeS d (r.readS d + r.readS a)) s
def execSubC (d a : BitVec 5) (s : State) : Out := ccReg always 2 (fun r => r.writeS d (r.readS d - r.readS a)) s
def execAddiC (d i : BitVec 5) (s : State) : Out := ccReg always 2 (fun r => r.writeS d (r.readS d + i.signExtend 64)) s
def execLiC (d i : BitVec 5) (s : State) : Out := ccReg always 2 (fun r => r.writeS d (i.signExtend 64)) s
def execShliC (d i : BitVec 5) (s : State) : Out := ccReg always 2 (fun r => r.writeS d (r.readS d <<< i.toNat)) s
def execShriC (d i : BitVec 5) (s : State) : Out := ccReg always 2 (fun r => r.writeS d (r.readS d >>> i.toNat)) s
def execAndC (d a : BitVec 5) (s : State) : Out := ccReg always 2 (fun r => r.writeS d (r.readS d &&& r.readS a)) s
def execOrC (d a : BitVec 5) (s : State) : Out := ccReg always 2 (fun r => r.writeS d (r.readS d ||| r.readS a)) s
def execXorC (d a : BitVec 5) (s : State) : Out := ccReg always 2 (fun r => r.writeS d (r.readS d ^^^ r.readS a)) s

/-! ## Reg form (R126-R128) -/

def execAdd (o : RegOp) (s : State) : Out :=
  ccReg o.gd 4 (fun r => r.writeS o.d (regResult o.w (fun _ a b => a + b) (r.readS o.a) (r.readS o.b))) s
def execSub (o : RegOp) (s : State) : Out :=
  ccReg o.gd 4 (fun r => r.writeS o.d (regResult o.w (fun _ a b => a - b) (r.readS o.a) (r.readS o.b))) s
def execAnd (o : RegOp) (s : State) : Out :=
  ccReg o.gd 4 (fun r => r.writeS o.d (regResult o.w (fun _ a b => a &&& b) (r.readS o.a) (r.readS o.b))) s
def execOr (o : RegOp) (s : State) : Out :=
  ccReg o.gd 4 (fun r => r.writeS o.d (regResult o.w (fun _ a b => a ||| b) (r.readS o.a) (r.readS o.b))) s
def execXor (o : RegOp) (s : State) : Out :=
  ccReg o.gd 4 (fun r => r.writeS o.d (regResult o.w (fun _ a b => a ^^^ b) (r.readS o.a) (r.readS o.b))) s
def execAndn (o : RegOp) (s : State) : Out :=
  ccReg o.gd 4 (fun r => r.writeS o.d (regResult o.w (fun _ a b => a &&& ~~~b) (r.readS o.a) (r.readS o.b))) s
def execShl (o : RegOp) (s : State) : Out :=
  ccReg o.gd 4 (fun r => r.writeS o.d (regResult o.w (fun w a b => a <<< shiftCount w b) (r.readS o.a) (r.readS o.b))) s
def execShr (o : RegOp) (s : State) : Out :=
  ccReg o.gd 4 (fun r => r.writeS o.d (regResult o.w (fun w a b => a >>> shiftCount w b) (r.readS o.a) (r.readS o.b))) s
def execSra (o : RegOp) (s : State) : Out :=
  ccReg o.gd 4 (fun r => r.writeS o.d (regResult o.w (fun w a b => a.sshiftRight (shiftCount w b)) (r.readS o.a) (r.readS o.b))) s
def execRol (o : RegOp) (s : State) : Out :=
  ccReg o.gd 4 (fun r => r.writeS o.d (regResult o.w (fun w a b => a.rotateLeft (shiftCount w b)) (r.readS o.a) (r.readS o.b))) s
def execMin (o : RegOp) (s : State) : Out :=
  ccReg o.gd 4 (fun r => r.writeS o.d (regResult o.w (bvMin) (r.readS o.a) (r.readS o.b))) s
def execMax (o : RegOp) (s : State) : Out :=
  ccReg o.gd 4 (fun r => r.writeS o.d (regResult o.w (bvMax) (r.readS o.a) (r.readS o.b))) s
def execMinz (o : RegOp) (s : State) : Out :=
  ccReg o.gd 4 (fun r => r.writeS o.d (regResult o.w (bvMinz) (r.readS o.a) (r.readS o.b))) s
def execMaxz (o : RegOp) (s : State) : Out :=
  ccReg o.gd 4 (fun r => r.writeS o.d (regResult o.w (bvMaxz) (r.readS o.a) (r.readS o.b))) s
def execAbsd (o : RegOp) (s : State) : Out :=
  ccReg o.gd 4 (fun r => r.writeS o.d (regResult o.w (bvAbsd) (r.readS o.a) (r.readS o.b))) s
def execMul (o : RegOp) (s : State) : Out :=
  ccReg o.gd 4 (fun r => r.writeS o.d (regResult o.w (fun _ a b => a * b) (r.readS o.a) (r.readS o.b))) s
def execMulh (o : RegOp) (s : State) : Out :=
  ccReg o.gd 4 (fun r => r.writeS o.d (regResult o.w (bvMulh) (r.readS o.a) (r.readS o.b))) s
def execMulhz (o : RegOp) (s : State) : Out :=
  ccReg o.gd 4 (fun r => r.writeS o.d (regResult o.w (bvMulhz) (r.readS o.a) (r.readS o.b))) s
def execDiv (o : RegOp) (s : State) : Out :=
  ccReg o.gd 4 (fun r => r.writeS o.d (regResult o.w (bvDiv) (r.readS o.a) (r.readS o.b))) s
def execDivz (o : RegOp) (s : State) : Out :=
  ccReg o.gd 4 (fun r => r.writeS o.d (regResult o.w (bvDivz) (r.readS o.a) (r.readS o.b))) s
def execRem (o : RegOp) (s : State) : Out :=
  ccReg o.gd 4 (fun r => r.writeS o.d (regResult o.w (bvRem) (r.readS o.a) (r.readS o.b))) s
def execRemz (o : RegOp) (s : State) : Out :=
  ccReg o.gd 4 (fun r => r.writeS o.d (regResult o.w (bvRemz) (r.readS o.a) (r.readS o.b))) s
def execClz (o : UnOp) (s : State) : Out := ccReg o.gd 4 (fun r => r.writeS o.d (unResult o.w (fun w a => lzCount a w) (r.readS o.a))) s
def execCtz (o : UnOp) (s : State) : Out := ccReg o.gd 4 (fun r => r.writeS o.d (unResult o.w (fun w a => tzCount a w) (r.readS o.a))) s
def execPopc (o : UnOp) (s : State) : Out := ccReg o.gd 4 (fun r => r.writeS o.d (unResult o.w (fun w a => popCount a w) (r.readS o.a))) s
def execBrev (o : UnOp) (s : State) : Out := ccReg o.gd 4 (fun r => r.writeS o.d (unResult o.w (fun w a => bitRev a w) (r.readS o.a))) s
def execBswap (o : UnOp) (s : State) : Out := ccReg o.gd 4 (fun r => r.writeS o.d (unResult o.w (fun w a => byteRev a (w / 8)) (r.readS o.a))) s

/-! ## Imm form (R129) and LEA (R130) -/

def execAddi (o : ImmOp) (s : State) : Out := ccReg o.gd 4 (fun r => r.writeS o.d (r.readS o.a + immV o.imm)) s
def execAndi (o : ImmOp) (s : State) : Out := ccReg o.gd 4 (fun r => r.writeS o.d (r.readS o.a &&& immV o.imm)) s
def execOri (o : ImmOp) (s : State) : Out := ccReg o.gd 4 (fun r => r.writeS o.d (r.readS o.a ||| immV o.imm)) s
def execXori (o : ImmOp) (s : State) : Out := ccReg o.gd 4 (fun r => r.writeS o.d (r.readS o.a ^^^ immV o.imm)) s
def execShli (o : ImmOp) (s : State) : Out := ccReg o.gd 4 (fun r => r.writeS o.d (r.readS o.a <<< o.imm.toNat)) s
def execShri (o : ImmOp) (s : State) : Out := ccReg o.gd 4 (fun r => r.writeS o.d (r.readS o.a >>> o.imm.toNat)) s
def execSrai (o : ImmOp) (s : State) : Out := ccReg o.gd 4 (fun r => r.writeS o.d ((r.readS o.a).sshiftRight o.imm.toNat)) s
def execMuli (o : ImmOp) (s : State) : Out := ccReg o.gd 4 (fun r => r.writeS o.d (r.readS o.a * immV o.imm)) s
def execLea (gd : Guard) (d a b : BitVec 5) (sh : BitVec 4) (s : State) : Out :=
  ccReg gd 4 (fun r => r.writeS d (r.readS a + (r.readS b <<< sh.toNat))) s

/-! ## Compares and predicates (R131-R133) -/

def execCmp (gd : Guard) (w : Bool) (p : BitVec 3) (a b : BitVec 5) (c : BitVec 4) (s : State) : Out :=
  ccReg gd 4 (fun r => r.writeP p
    (if w then cond c 32 ((r.readS a).setWidth 32) ((r.readS b).setWidth 32) else cond c 64 (r.readS a) (r.readS b))) s
def execCmpi (gd : Guard) (p : BitVec 3) (a : BitVec 5) (imm : BitVec 6) (c : BitVec 4) (s : State) : Out :=
  ccReg gd 4 (fun r => r.writeP p (cond c 64 (r.readS a) (cmpiImm c imm))) s
def execPand (gd : Guard) (d a b : BitVec 3) (s : State) : Out := ccReg gd 4 (fun r => r.writeP d (r.readP a && r.readP b)) s
def execPor (gd : Guard) (d a b : BitVec 3) (s : State) : Out := ccReg gd 4 (fun r => r.writeP d (r.readP a || r.readP b)) s
def execPxor (gd : Guard) (d a b : BitVec 3) (s : State) : Out := ccReg gd 4 (fun r => r.writeP d (r.readP a != r.readP b)) s
def execPandn (gd : Guard) (d a b : BitVec 3) (s : State) : Out := ccReg gd 4 (fun r => r.writeP d (r.readP a && !r.readP b)) s
def execPnot (gd : Guard) (d a : BitVec 3) (s : State) : Out := ccReg gd 4 (fun r => r.writeP d (!r.readP a)) s
def execPmov (gd : Guard) (d a : BitVec 3) (s : State) : Out := ccReg gd 4 (fun r => r.writeP d (r.readP a)) s
def execPset (gd : Guard) (d : BitVec 3) (s : State) : Out := ccReg gd 4 (fun r => r.writeP d true) s
def execPclr (gd : Guard) (d : BitVec 3) (s : State) : Out := ccReg gd 4 (fun r => r.writeP d false) s
/-- The predicates as a byte, p0 reading as one (R133). -/
def execPget (gd : Guard) (d : BitVec 5) (s : State) : Out := ccReg gd 4 (fun r => r.writeS d ((r.p ||| 1).setWidth 64)) s
def execPput (gd : Guard) (a : BitVec 5) (s : State) : Out :=
  ccReg gd 4 (fun r => { r with p := (r.readS a).setWidth 8 ||| 1 }) s

/-! ## Transfers of control (R125, R134, R135) -/

def execBrs (r : BitVec 10) (s : State) : Out := ccBranch always 2 (fun c => some (c.pc + (r.signExtend 64 <<< 1), c)) s
def execBrp (k : BitVec 3) (r : BitVec 5) (s : State) : Out :=
  ccBranch always 2 (fun c => if c.readP k then some (c.pc + (r.signExtend 64 <<< 1), c) else none) s
def execRetC (s : State) : Out := ccJump always 2 (fun c => (c.readS 31, c)) s
def execBr (gd : Guard) (r : BitVec 16) (_hint : Bool) (s : State) : Out :=
  ccBranch gd 4 (fun c => some (c.pc + (r.signExtend 64 <<< 1), c)) s
/-- The link is PC + 4 (R134). -/
def execCall (gd : Guard) (r : BitVec 16) (s : State) : Out :=
  ccBranch gd 4 (fun c => some (c.pc + (r.signExtend 64 <<< 1), c.writeS 31 (c.pc + 4))) s
def execJmp (gd : Guard) (a : BitVec 5) (s : State) : Out := ccJump gd 4 (fun c => (c.readS a, c)) s
/-- The target is read before the link is written (R135). -/
def execCallr (gd : Guard) (a : BitVec 5) (s : State) : Out :=
  ccJump gd 4 (fun c => (c.readS a, c.writeS 31 (c.pc + 4))) s
def execRet (gd : Guard) (s : State) : Out := ccJump gd 4 (fun c => (c.readS 31, c)) s
def execBrl (gd : Guard) (r : BitVec 32) (_hint : Bool) (s : State) : Out :=
  ccBranch gd 6 (fun c => some (c.pc + (r.signExtend 64 <<< 1), c)) s

/-! ## Constants and bit fields (R136-R138) -/

def execLi (gd : Guard) (d : BitVec 5) (imm : BitVec 27) (s : State) : Out :=
  ccReg gd 6 (fun r => r.writeS d (imm.signExtend 64)) s
def execLih (gd : Guard) (d : BitVec 5) (imm : BitVec 27) (s : State) : Out :=
  ccReg gd 6 (fun r => r.writeS d ((r.readS d <<< 27) ||| imm.setWidth 64)) s
def execAddpc (gd : Guard) (d : BitVec 5) (imm : BitVec 27) (s : State) : Out :=
  ccReg gd 6 (fun r => r.writeS d (r.pc + imm.signExtend 64)) s
def execBfx (gd : Guard) (d a : BitVec 5) (pos len : BitVec 6) (s : State) : Out :=
  ccReg gd 6 (fun r => r.writeS d (BitVec.ofNat 64 (bfExtract (r.readS a) pos len))) s
def execBfxs (gd : Guard) (d a : BitVec 5) (pos len : BitVec 6) (s : State) : Out :=
  ccReg gd 6 (fun r => r.writeS d (bfExtractS (r.readS a) pos len)) s
def execBfi (gd : Guard) (d a : BitVec 5) (pos len : BitVec 6) (s : State) : Out :=
  ccReg gd 6 (fun r => r.writeS d (bfInsert (r.readS d) (r.readS a) pos len)) s

end Sys2Proof.Machine
end

