-- ==== Sys2Proof/Machine/CcMem.lean ====
section
/-! DEFINITION. Atomics, fences, releases, acquires, WAITADDR and handle transfers of a core
(09_memory_access_instructions.md R198-R209). LD and ST, which also reach the registers of MMIO, stand in LoadStore.lean. -/

namespace Sys2Proof.Machine

/-- Bytes of an LD size (R201). -/
def ldBytes (sz : BitVec 3) : Nat := 2 ^ (sz.toNat / 2)
/-- LD's extension of n bytes (R201). -/
def ldExtend (sz : BitVec 3) (v : Nat) : Word :=
  if sz = 0 || sz = 2 || sz = 4 then BitVec.ofInt 64 (signExt (8 * ldBytes sz) v) else BitVec.ofNat 64 v
/-- Bytes of an ST size. -/
def stBytes (sz : BitVec 3) : Nat := 2 ^ sz.toNat

/-- The effective address of form Mem, aligned, and its place (R198 steps 2, 3). -/
def memPlace (w : Who) (a : BitVec 5) (imm : BitVec 16) (n : Nat) (k : Access) : M Place := do
  let ea := memAddr (← getS w.p a) imm
  need (ea % n == 0) .align ea
  resolve w ea n k

/-- The place of a plain load of form Mem, which a valid L1 sector serves without translation unless it is served at the
home (R186, R202). -/
def loadPlace (w : Who) (a : BitVec 5) (imm : BitVec 16) (n : Nat) (home : Bool) : M Place := do
  let ea := memAddr (← getS w.p a) imm
  need (ea % n == 0) .align ea
  resolveLoad w ea n home

/-- FP32 addition of FADD (R203). -/
def fadd32 (a b : Nat) : Nat := roundF .fp32 .rne false 0 ((decodeF .fp32 a).add false (decodeF .fp32 b))

/-- The new value of an AMO over w bits; none where nothing is written (R203). -/
def amoOp (op w b e old : Nat) : Option Nat :=
  let sx (v : Nat) : Int := signExt w v
  match op with
  | 0 => some ((old + b) % 2 ^ w)
  | 1 => some (old &&& b) | 2 => some (old ||| b) | 3 => some (old ^^^ b)
  | 4 => some (if sx b < sx old then b else old) | 5 => some (if sx old < sx b then b else old)
  | 6 => some (min old b) | 7 => some (max old b)
  | 8 => some b
  | 9 => if old = e then some b else none
  | _ => some (fadd32 old b)

def execAmo (o : AtomOp) (s : State) : Out :=
  ccRun .any false o.gd 6 (fun p => do
    let w ← ccWho p
    let n := if o.sz = 2 then 4 else 8
    let ea := atomAddr (← getS p o.a) o.imm n
    need (ea % n == 0) .align ea
    let pl ← resolve w ea n .atomic
    need (pl.kind != .mmio && (pl.kind != .host || (n == 8 && (o.op == 0 || o.op == 9)))) .perm ea
    let b := (← getS p o.b).toNat % 2 ^ (8 * n)
    let e := (← getS p o.d).toNat % 2 ^ (8 * n)
    let old ← atomically w pl n (amoOp o.op.toNat (8 * n) b e) o.op b e ⟨o.cls, o.sc, 0, none⟩
    putS p o.d (if n == 4 && (o.op == 4 || o.op == 5) then BitVec.ofInt 64 (signExt 32 old) else BitVec.ofNat 64 old)
    return .next) s

/-- Accesses of this module have performed when their instruction ends (log 6), so a FENCE waits only for writes to
other modules and the host, in the classes of its mask (R205). -/
def execFence (gd : Guard) (_sc : BitVec 3) (mask : BitVec 16) (s : State) : Out :=
  ccRun .any false gd 6 (fun p => do
    let s ← get
    await (!(s.fl.remotes.any fun r => r.core == p && r.eng.isNone && mask.getLsbD r.cls.toNat))
    return .next) s

/-- The issuing core's copy of the sector is invalidated (R186). -/
def dropCopy (w : Who) (pl : Place) : M Unit := doS fun s => l1Drop s w.p (w.asid s) pl.va

/-- A place as an access at its home reaches it, past the L1. -/
def Place.bare (pl : Place) : Place := { pl with cache := false }

/-- A read of LDACQ or WAITADDR, at the home; the core's own copy is invalidated (R186). -/
def loadHome (w : Who) (pl : Place) (n : Nat) (a : Attr) : M Nat := do
  let v ← load w pl.bare n true a
  dropCopy w pl
  return v

def execStrel (o : MemOp) (s : State) : Out :=
  ccRun .any false o.gd 6 (fun p => do
    let w ← ccWho p
    let n := stBytes o.sz
    let pl ← memPlace w o.a o.imm n .write
    need (pl.kind != .mmio) .perm pl.va
    let g ← release p o.sc
    store w pl n ((← getS p o.d).toNat % 2 ^ (8 * n)) ⟨o.cls, o.sc, 0, g⟩
    dropCopy w pl
    attach pl g
    return .next) s

def execLdacq (o : MemOp) (s : State) : Out :=
  ccRun .any false o.gd 6 (fun p => do
    let w ← ccWho p
    let pl ← memPlace w o.a o.imm (ldBytes o.sz) .read
    need (pl.kind != .mmio) .perm pl.va
    let a : Attr := ⟨o.cls, o.sc, 0, none⟩
    let v ← loadHome w pl (ldBytes o.sz) a
    acquire w o.sc pl (← answerSig w pl.bare a)
    putS p o.d (ldExtend o.sz v)
    return .next) s

/-- The condition of a WAITADDR (R207): its SZ code over the word read and s[D]. -/
def waitCond (sz : BitVec 3) (x v : BitVec 32) : Bool :=
  match sz.toNat with
  | 0 => cond 0 32 x v | 1 => cond 1 32 x v | 2 => cond 3 32 x v | 3 => cond 5 32 x v
  | 4 => cond 2 32 x v | 5 => cond 4 32 x v | _ => cond 8 32 x v

def execWaitaddr (o : MemOp) (s : State) : Out :=
  ccRun .any false o.gd 6 (fun p => do
    let w ← ccWho p
    let pl ← memPlace w o.a o.imm 4 .read
    need (pl.kind != .mmio && pl.kind != .host) .perm pl.va
    let t0 ← beginWait p none (some o)
    let a : Attr := ⟨o.cls, o.sc, 0, none⟩
    let x ← loadHome w pl 4 a
    let v : BitVec 32 := (← getS p o.d).setWidth 32
    if waitCond o.sz (BitVec.ofNat 32 x) v then
      acquire w o.sc pl (← answerSig w pl.bare a)
      putP p 7 true
      doS fun s => dropWait s p
      return .next
    else if limitOver (← get) p t0 then
      putP p 7 false
      doS fun s => dropWait s p
      return .next
    else
      doS fun s => clearAnswers p none s
      waitM boundaryWait) s

/-- The limit of a WAITADDR runs out (R207, R208): the word is read and tested once more, and then p7 is 0 and no acquire is
made. Without a WAITADDR whose limit has run out nothing happens. -/
def execWaitaddrTimeout (core : Nat) (s : State) : Out :=
  if core < 272 then
    match (s.proc core).t0 with
    | some ⟨t0, none, some o⟩ =>
      if limitOver s core t0 then execWaitaddr o { s with actor := .cc core } else .next s
    | _ => .next s
  else .fault .noSuchUnit

def execHld (gd : Guard) (d : BitVec 4) (a : BitVec 5) (imm : BitVec 16) (cls : BitVec 4) (s : State) : Out :=
  ccRun .any false gd 6 (fun p => do
    let w ← ccWho p
    let pl ← loadPlace w a imm 32 false
    need (pl.kind != .mmio) .perm pl.va
    let v ← load w pl 32 false ⟨cls, 0, 0, none⟩
    doS fun s => s.modCC p fun r => r.writeH d (BitVec.ofNat 256 v)
    return .next) s

def execHst (gd : Guard) (d : BitVec 4) (a : BitVec 5) (imm : BitVec 16) (cls : BitVec 4) (s : State) : Out :=
  ccRun .any false gd 6 (fun p => do
    let w ← ccWho p
    let pl ← memPlace w a imm 32 .write
    need (pl.kind != .mmio) .perm pl.va
    store w pl 32 (((← get).cc p).readH d).toNat ⟨cls, 0, 0, none⟩
    return .next) s

end Sys2Proof.Machine
end

