-- ==== Sys2Proof/Machine/Reuse.lean ====
section
/-! DEFINITION. Reuse regions and the skip rule (19_reuse_table.md R403-R424). -/

namespace Sys2Proof.Machine

/-- l0[31:0] of a context's step (R405, R412). -/
def stepNumber (s : State) (x : Nat) : BitVec 32 := (SMap.get 0 (s.ctx x).loops 0).setWidth 32

/-- The row control word of the context's open step; 0 without one (R393, R412). -/
def rowCtl (s : State) (x : Nat) : Word :=
  match seqOf s x with
  | some q => if (s.stepper q).stepOpen then (s.stepper q).ctl else 0
  | none => 0

/-! ## Deliveries (R405) -/

/-- The lowest present cluster of a context's partition takes the Mason's trace records (R417). -/
def masonTrace (s : State) (x type body : Nat) : State :=
  match partClusters s x with
  | c :: _ => traceRec s c type 0 x true body
  | [] => s

/-- A region after a delivery in the epoch of step n. -/
def Region.deliver (g : Region) (n : BitVec 32) (d nw : Nat) : Region :=
  let g := if g.nep = n then g else { g with nr := 0, nbad := false, nep := n }
  { g with cr := g.cr + BitVec.ofNat 64 d, nr := BitVec.ofNat 64 (min (g.nr.toNat + nw) (2 ^ 64 - 1)) }

def deliver (s : State) (x r d nw : Nat) : State :=
  if ((s.ctx x).region r).v then modRegion s x r fun g => g.deliver (stepNumber s x) d nw
  else masonTrace s x 5 (r + d % 2 ^ 64 * 2 ^ 64 + nw % 2 ^ 64 * 2 ^ 128)

/-- The i-th delivery on its way reaches the Mason. Without one nothing happens. -/
def execRegionDelivery (i : Nat) (s : State) : Out :=
  match s.fl.deliveries[i]? with
  | some e => .next (deliver (s.modFl fun f => { f with deliveries := f.deliveries.eraseIdx i }) e.ctx e.rgn e.d e.nw)
  | none => .next s

/-! ## The skip rule (R412) -/

/-- What one input says: A, its WHY bits, whether its threshold failed. -/
def inputCheck (c : Ctx) (e : Reuse) (i : Nat) : Nat × Nat × Bool :=
  let r := (e.rgn.getD i 0x3FF).toNat
  if r = 0x3FF then (0, 0, false)
  else
    let g := c.region r
    let a := (g.cr - SMap.get 0 e.snap i).toNat
    let br := (SMap.get 0 e.br i).toNat
    let bad := if br = 0 then a != 0 else decide (a * 65536 > e.theta.toNat * br)
    (a, (if g.v then 0 else 16) + (if g.pzn then 32 else 0) + (if g.tgen == SMap.get 0 e.tg i then 0 else 64) +
      (if bad then 128 else 0), bad)

/-- The entry after a COMPUTE in step n. -/
def Reuse.computed (e : Reuse) (c : Ctx) (n : BitVec 32) : Reuse :=
  let e := (List.range 4).foldl (fun e i =>
    let r := (e.rgn.getD i 0x3FF).toNat
    if r = 0x3FF then e
    else
      let g := c.region r
      { e with snap := SMap.set 0 e.snap i g.cr, tg := SMap.set 0 e.tg i g.tgen,
               br := SMap.set 0 e.br i (if g.nbad then 0 else g.nr) }) e
  { e with skc := 0, cv := true, frc := false, lstep := n }

/-- Bits that forced COMPUTE (R417). -/
def whyBits (e : Reuse) (force : Bool) (ins : List (Nat × Nat × Bool)) : Nat :=
  ins.foldl (fun w v => w ||| v.2.1)
    ((if e.cv then 0 else 1) + (if e.frc then 2 else 0) + (if e.skc.toNat < e.smax.toNat then 0 else 4) + (if force then 8 else 0))

/-- The body of a decision record (R417). -/
def decisionBody (s : State) (obn ridx out why : Nat) (n : BitVec 32) (e f : Reuse) (ins : List (Nat × Nat × Bool)) : Nat :=
  let word (k : Nat) (v : Nat) : Nat := v * 2 ^ (8 * k)
  s.gts % 2 ^ 64 + word 8 (obn % 65536) + word 10 ridx + word 12 n.toNat + word 16 out + word 17 why +
  word 18 ((List.range 4).foldl (fun m i => m + if (ins.getD i (0, 0, false)).2.2 then 2 ^ i else 0) 0) + word 19 f.skc.toNat +
  (List.range 4).foldl (fun m i => m + word (20 + 2 * i) (e.rgn.getD i 0x3FF).toNat +
    word (32 + 16 * i) (ins.getD i (0, 0, false)).1 + word (40 + 16 * i) (SMap.get 0 e.br i).toNat) 0

/-- Decide and update the entry (R412): 0 COMPUTE, 1 HOLD, 2 RESID, with the decision record. -/
def decideReuse (s : State) (x obn ridx : Nat) : Nat × State :=
  let c := s.ctx x
  let e := c.reuseOf ridx
  let n := stepNumber s x
  let ins := (List.range 4).map (inputCheck c e)
  let why := whyBits e ((rowCtl s x).getLsbD 0) ins
  let out := if why = 0 then (if e.act then 2 else 1) else 0
  let f := if why = 0 then { e with skc := e.skc + 1 } else e.computed c n
  let s := modReuse s x ridx fun _ => f
  (out, masonTrace s x 1 (decisionBody s obn ridx out why n e f ins))

/-! ## Pending changes (R410) -/

def Reuse.applied (e : Reuse) : Reuse :=
  if !e.pend then e
  else
    let clear := e.prst || e.prgn != e.rgn
    { e with
      theta := e.ptheta, smax := e.psmax, act := e.pact, rgn := e.prgn, pend := false, prst := false
      cv := !clear && e.cv, skc := if clear then 0 else e.skc, frc := !clear && e.frc }

/-- ApplyPendingReuseThresholds (R21, R410). -/
def applyPending (s : State) (x : Nat) : State :=
  s.modCtx x fun c => { c with reuse := (c.reuse.map fun e => (e.1, e.2.applied)).filter fun e => e.2 != Reuse.reset }

/-! ## Region instructions (R418-R421) -/

/-- A declaration within R419 and within the address space. -/
def declOk (v : Nat) : Bool :=
  let base := v % 2 ^ 64
  let len := v / 2 ^ 64 % 2 ^ 64
  decide (base < 2 ^ 52) && decide (1 ≤ len) && decide (len ≤ 2 ^ 46) && decide (v / 2 ^ 136 = 0) && decide (base + len ≤ 2 ^ 52)

/-- The region number of an instruction. -/
def rgnNumber (w : Word) : Nat := (fld w 0 10).toNat

def execRgndef (gd : Guard) (d a b : BitVec 5) (s : State) : Out :=
  ccRun .any false gd 6 (fun p => do
    let w ← ccWho p
    let _ ← release p 2
    let va := (← getS p a).toNat
    need (va % 32 == 0) .align va
    let pl ← resolve w (va % 2 ^ 52) 32 .read
    let v ← load w pl 32 true
    let r := rgnNumber (← getS p b)
    if r = 0x3FF then putS p d 2
    else if !declOk v then putS p d 1
    else
      doS fun s => modRegion s w.ctx r fun g =>
        { g with base := BitVec.ofNat 52 v, len := BitVec.ofNat 47 (v / 2 ^ 64), dscale := BitVec.ofNat 8 (v / 2 ^ 128),
                 cr := 0, nr := 0, nep := 0, pzn := false, nbad := false, tgen := g.tgen + 1, v := true }
      putS p d 0
    return .next) s

def execRgnclr (gd : Guard) (d b : BitVec 5) (undef : Bool) (s : State) : Out :=
  ccRun .any false gd 6 (fun p => do
    let w ← ccWho p
    let _ ← release p 2
    let r := rgnNumber (← getS p b)
    if r = 0x3FF then putS p d 2
    else
      doS fun s => modRegion s w.ctx r fun g =>
        { g with cr := 0, nr := 0, nep := 0, pzn := false, nbad := false, tgen := g.tgen + 1, v := g.v && !undef }
      putS p d 0
    return .next) s

/-- RGNRD's values (R421). -/
def rgnValue (g : Region) (sel : Nat) : Word :=
  match sel with
  | 0 => g.cr
  | 1 => g.nr
  | 2 => BitVec.ofNat 64 ((if g.v then 2 ^ 63 else 0) + (if g.pzn then 2 ^ 62 else 0) + (if g.nbad then 2 ^ 61 else 0) +
      g.dscale.toNat * 2 ^ 48 + g.tgen.toNat * 2 ^ 32 + g.nep.toNat)
  | 3 => g.base.setWidth 64
  | _ => g.len.setWidth 64

def execRgnrd (gd : Guard) (d b : BitVec 5) (sel : BitVec 4) (s : State) : Out :=
  ccRun .any false gd 6 (fun p => do
    let w ← ccWho p
    let r := rgnNumber (← getS p b)
    let c := (← get).ctx w.ctx
    putS p d (if r = 0x3FF then 0 else rgnValue (c.region r) sel.toNat)
    return .next) s

/-! ## Reuse instructions (R422-R424) -/

/-- The entry number of an instruction. -/
def entryNumber (w : Word) : Nat := (fld w 0 12).toNat

/-- The context's sequencer holds changes back to its next boundary (R410). -/
def changesWait (s : State) (x : Nat) : Bool := seqRunning s x

def execReuseset (gd : Guard) (d a b : BitVec 5) (smax : BitVec 8) (resid rst : Bool) (s : State) : Out :=
  ccRun .any false gd 6 (fun p => do
    let w ← ccWho p
    let s ← get
    let cfg := (s.cc p).readS b
    let rs : List (BitVec 10) := (List.range 4).map fun i => fld cfg (16 + 10 * i) 10
    if rs.any fun r => r != 0x3FF && !((s.ctx w.ctx).region r.toNat).v then putS p d 1
    else
      let wait := changesWait s w.ctx
      doS fun s => modReuse s w.ctx (entryNumber ((s.cc p).readS a)) fun e =>
        let e := { e with prgn := rs, ptheta := fld cfg 0 16, psmax := smax, pact := resid, prst := rst, pend := true }
        if wait then e else e.applied
      putS p d 0
    return .next) s

/-- Every entry 0 to n - 1 with FRC set. -/
def forceAll (m : SMap Reuse) (n : Nat) : SMap Reuse :=
  (List.range n).map fun k => (k, { SMap.get Reuse.reset m k with frc := true })

def execReuseforce (gd : Guard) (d a : BitVec 5) (all : Bool) (s : State) : Out :=
  ccRun .any false gd 6 (fun p => do
    let w ← ccWho p
    if all then doS fun s => s.modCtx w.ctx fun c => { c with reuse := forceAll c.reuse 4096 }
    else doS fun s => modReuse s w.ctx (entryNumber ((s.cc p).readS a)) fun e => { e with frc := true }
    putS p d 0
    return .next) s

/-- Four 10-bit region numbers, input 0 lowest. -/
def rgnList (l : List (BitVec 10)) : Nat := l.foldr (fun r n => r.toNat + 2 ^ 10 * n) 0

/-- REUSEQ's values (R424). -/
def reuseValue (e : Reuse) (sel : Nat) : Word :=
  let b (c : Bool) (i : Nat) : Nat := if c then 2 ^ i else 0
  match sel with
  | 0 => BitVec.ofNat 64 (e.theta.toNat * 2 ^ 48 + e.smax.toNat * 2 ^ 40 + e.skc.toNat * 2 ^ 32 + e.lstep.toNat)
  | 1 => BitVec.ofNat 64 (e.ptheta.toNat * 2 ^ 48 + e.psmax.toNat * 2 ^ 40 + b e.pend 5 + b e.prst 4 + b e.pact 3 + b e.act 2 +
      b e.frc 1 + b e.cv 0)
  | 2 => BitVec.ofNat 64 (rgnList e.rgn)
  | 3 => BitVec.ofNat 64 (rgnList e.prgn)
  | 4 => BitVec.ofNat 64 ((List.range 4).foldl (fun n i => n + (SMap.get 0 e.tg i).toNat * 2 ^ (16 * i)) 0)
  | n => if n < 9 then SMap.get 0 e.snap (n - 5) else SMap.get 0 e.br (n - 9)

def execReuseq (gd : Guard) (d a : BitVec 5) (sel : BitVec 4) (s : State) : Out :=
  ccRun .any false gd 6 (fun p => do
    let w ← ccWho p
    let c := (← get).ctx w.ctx
    putS p d (reuseValue (c.reuseOf (entryNumber (← getS p a))) sel.toNat)
    return .next) s

end Sys2Proof.Machine
end

