-- ==== Sys2Proof/Machine/Select.lean ====
section
/-! DEFINITION. The Mason's dispatch of bricks to cores (02_execution_model.md R30, R31, R41, R486; 10 R222;
18_task_tables_and_mason.md R392). -/

namespace Sys2Proof.Machine

/-- Carried slots of a context's image on a core. -/
def savedSlots (s : State) (x p : Nat) : Nat := (savedImage s x p).slots.length

/-- The core can be saved: at a brick boundary, none of its commands in progress, every access performed (R41, R290, 15 R346). -/
def canSwitch (s : State) (p : Nat) : Bool := atBoundary s p && !anyCommand s (fun c => c.core == p) && quiet s p

/-- A brick may be selected for core p (R392, R222, R282). -/
def eligible (s : State) (p : Nat) (b : Brick) : Bool :=
  let x := b.ctx.toNat
  let same := (s.proc p).ctxOf == some x
  (s.ctx x).d.st == .active && !(s.ctx x).suspending && s.inPart x (clusterOf p) &&
  (same || canSwitch s p) &&
  decide (b.nslot.toNat + (if same then 0 else savedSlots s x p) ≤ freeUnreserved s (clusterOf p))

/-- Effective priority (R30): raised by one per 64 us of age, to at most 7. -/
def effPrio (s : State) (b : Brick) : Nat :=
  min 7 (max b.prio.toNat (s.ctx b.ctx.toNat).d.prio.toNat + (s.gts - b.egts.toNat) / 64000)

/-- Whether a is chosen before b (R30 points 2, 3). -/
def before (s : State) (a b : Brick) : Bool :=
  let k (c : Brick) : Nat := ((7 - effPrio s c) * 2 ^ 64 + c.egts.toNat) * 2 ^ 24 + c.eidx.toNat
  decide (k a < k b) || (k a == k b && decide (a.ob < b.ob))

/-- The brick chosen. Of two that agree in everything R30 compares (one OB run both as a node and as an alternate) the earlier in
the queue is taken (DESIGN CHOICE, log 18). -/
def bestBrick (s : State) : List Brick → Option Brick
  | [] => none
  | b :: bs => match bestBrick s bs with
    | none => some b
    | some c => if before s c b then some c else some b

/-- The context with the highest credit, the lower number on a tie. -/
def bestCtx (credit : SMap Int) : List Nat → Option Nat
  | [] => none
  | x :: xs => match bestCtx credit xs with
    | none => some x
    | some y => if SMap.get 0 credit x < SMap.get 0 credit y then some y else some x

/-- Remove the first occurrence of a brick. -/
def dropFirst (b : Brick) : List Brick → List Brick
  | [] => []
  | c :: cs => if c = b then cs else c :: dropFirst b cs

/-- Entries of a brick queue; what stands in the list after them waits for room (R11, log 19). -/
def brickMax : Nat := 512

/-- The Mason selects a brick for core p and the core holds it, after a switch of context where it needs one (R30, R41,
R486); none when no brick is eligible. -/
def selectBrick (s : State) (p : Nat) : Option State :=
  let cl := clusterOf p
  let cands := ((s.cluster cl).brickq.take brickMax).filter (eligible s p)
  let xs := (List.range 16).filter fun x => cands.any fun b => b.ctx.toNat == x
  let share (x : Nat) : Int := (s.ctx x).d.share.toNat
  let credit := xs.foldl (fun m x => SMap.set 0 m x (SMap.get 0 m x + share x)) (s.cluster cl).credit
  match bestCtx credit xs with
  | none => none
  | some x =>
    match bestBrick s (cands.filter fun b => b.ctx.toNat == x) with
    | none => none
    | some b =>
      let total := xs.foldl (fun (n : Int) x => n + share x) 0
      let s := s.modCluster cl fun c => { c with
        credit := SMap.set 0 credit x (SMap.get 0 credit x - total), brickq := dropFirst b c.brickq }
      let s := perfAdd (perfAdd s cl 0x16 p x 1) cl 0x17 p x (s.gts - b.egts.toNat)
      let s := if (s.proc p).ctxOf = some x then s else restoreCore (saveCore s p false) p x
      some (s.modProc p fun v => { v with heldBrick := some b })

/-- The tags of free brick registers. -/
def freeTags (s : State) (p : Nat) : List Nat := (List.range 8).filter fun t => (s.brick p (BitVec.ofNat 3 t)).isNone

/-- BPOP's result: the held brick moves into a brick register and becomes current (R282); the tag is one of the free
ones (log 18). -/
def takeBrick (p : Nat) (d : BitVec 5) (b : Brick) : M Unit := do
  let s ← get
  let free := freeTags s p
  let tag : BitVec 3 := BitVec.ofNat 3 (free.getD (Config.freeTag s.free % free.length) 0)
  doS fun s => ((s.setBrick p tag (some ⟨b, .running, false, b.nslot.toNat, s.mod.gts, false, [], []⟩)).modProc p
    fun v => { v with cur := some tag, heldBrick := none }).bump
  putS p d (tag.setWidth 64)
  doS fun s => acquireCo (mergePs s p b.sig) p

/-- The stall code of a core blocked in BPOP; no performance event has it. -/
def bpopWait : Nat := 0x100

/-- A core waits for a brick: blocked in BPOP, or idle in a present cluster (R486). -/
def wantsBrick (s : State) (p : Nat) : Bool :=
  (s.proc p).heldBrick.isNone &&
  match (s.proc p).run with
  | .running _ => SMap.get 0 (s.proc p).stall 0 == bpopWait + 1
  | .idle => s.present (clusterOf p)
  | _ => false

/-- The Mason selects a brick for a core blocked in BPOP (R30, R41). Where the core does not wait in BPOP or no brick is
eligible nothing happens. -/
def execDispatchSelection (core : Nat) (s : State) : Out :=
  if core < 256 then
    if (s.proc core).ctxOf.isSome && wantsBrick s core then .next ((selectBrick s core).getD s) else .next s
  else .fault .noSuchUnit

/-- A brick is selected for an idle core, which starts its context's program (R486). -/
def execIdleCoreStart (core : Nat) (s : State) : Out :=
  if core < 256 then
    if (s.proc core).ctxOf.isNone && wantsBrick s core then .next ((selectBrick s core).getD s) else .next s
  else .fault .noSuchUnit

end Sys2Proof.Machine
end

