-- ==== Sys2Proof/Machine/Graphs.lean ====
section
/-! DEFINITION. Operator blocks, graphs, Walkers and step sequencers: OBSUB, SEQSTART, SEQSTOP, SEQWAIT, SEQSTEP, their
launch-register forms, and the events of the Mason (18_task_tables_and_mason.md R381-R401; 02 R21-R29). -/

namespace Sys2Proof.Machine

/-! ## Checking a graph (R381, R385, R396) -/

/-- Every one of the n bytes lies in the context's LST range; no bytes always do. -/
def inLst (s : State) (x a n : Nat) : Bool :=
  let d := (s.ctx x).d
  n == 0 || (decide (lstBase + d.lstb.toNat * 2 ^ 20 ≤ a) && decide (a + n ≤ lstBase + (d.lstb.toNat + d.lstq.toNat) * 2 ^ 20))

/-- Some sector of the n bytes is poisoned. -/
def rangePoisoned (m : Memory) (a n : Nat) : Bool :=
  n != 0 && m.poison.any fun e => e.2 && decide (a < e.1 * 128 + 128) && decide (e.1 * 128 < a + n)

/-- The fields of a graph header. -/
structure Header where
  nob : Nat
  nedge : Nat
  obt : Nat
  edt : Nat
  sched : Nat
  nrow : Nat
  /-- the fields that R381 gives as 0 are 0 -/
  zeros : Bool

def readHeader (m : Memory) (a : Nat) : Header :=
  { nob := m.read a 2, nedge := m.read (a + 4) 4, obt := m.read (a + 8) 8, edt := m.read (a + 16) 8
    sched := m.read (a + 24) 8, nrow := m.read (a + 32) 4, zeros := m.read (a + 2) 2 == 0 && m.read (a + 36) 28 == 0 }

/-- ESTART and ECNT of OB k. -/
def edgesOf (m : Memory) (h : Header) (k : Nat) : Nat × Nat :=
  (m.read (h.obt + 256 * k + 172) 4, m.read (h.obt + 256 * k + 176) 2)

/-- The edge entries an OB names lie below NEDGE. -/
def edgesIn (h : Header) (e : Nat × Nat) : Bool := e.2 == 0 || decide (e.1 + e.2 ≤ h.nedge)

/-- Successors of OB k. -/
def successors (m : Memory) (h : Header) (k : Nat) : List Nat :=
  let e := edgesOf m h k
  (List.range e.2).map fun i => m.read (h.edt + 2 * (e.1 + i)) 2

/-- The header's ranges and alignments (status 1). -/
def rangesOk (s : State) (x : Nat) (h : Header) : Bool :=
  h.obt % 256 == 0 && h.edt % 2 == 0 && h.sched % 128 == 0 && inLst s x h.obt (256 * h.nob) && inLst s x h.edt (2 * h.nedge) &&
  inLst s x h.sched (if h.sched = 0 then 0 else 128 * h.nrow)

/-- A sector that the check reads is poisoned (status 8). -/
def tablesPoisoned (m : Memory) (h : Header) : Bool :=
  (List.range h.nob).any fun k =>
    let e := edgesOf m h k
    rangePoisoned m (h.obt + 256 * k + 172) 6 || (edgesIn h e && rangePoisoned m (h.edt + 2 * e.1) (2 * e.2))

def limitsOk (m : Memory) (h : Header) (succ : List (List Nat)) : Bool :=
  h.nob != 0 && h.zeros && decide (h.nedge ≤ 2 ^ 24) && decide (h.nrow < 2 ^ 20) &&
  ((List.range h.nob).all fun k => edgesIn h (edgesOf m h k)) &&
  (succ.all fun l => l.all fun t => decide (t < h.nob)) &&
  (List.range h.nob).all fun k => decide ((succ.foldl (fun n l => n + l.count k) 0) ≤ 65535)

/-- In-degrees of every OB. -/
def inDegrees (n : Nat) (succ : List (List Nat)) : List Nat :=
  (List.range n).map fun k => succ.foldl (fun d l => d + l.count k) 0

/-- One round of removing OBs of in-degree 0: what is left, as pairs of OB and successors. -/
def peel (g : List (Nat × List Nat)) : List (Nat × List Nat) :=
  g.filter fun e => g.any fun f => f.2.contains e.1

def peelAll (g : List (Nat × List Nat)) : Nat → List (Nat × List Nat)
  | 0 => g
  | n + 1 => peelAll (peel g) n

/-- The edges form no cycle (R25). -/
def acyclic (n : Nat) (succ : List (List Nat)) : Bool := (peelAll (List.zip (List.range n) succ) n).isEmpty

/-- The check of a graph by OBSUB and SEQSTART: its status, 0 with the header and the successors (R396); `n` is a
SEQSTART's N. -/
def checkGraph (s : State) (x hdr : Nat) (n : Option Nat) : Nat × Header × List (List Nat) :=
  let h := readHeader s.mem hdr
  let no : Header := ⟨0, 0, 0, 0, 0, 0, true⟩
  if hdr % 64 ≠ 0 || !inLst s x hdr 64 then (1, no, [])
  else if rangePoisoned s.mem hdr 64 then (8, no, [])
  else if !rangesOk s x h then (1, no, [])
  else if tablesPoisoned s.mem h then (8, no, [])
  else
    let succ := (List.range h.nob).map fun k => if edgesIn h (edgesOf s.mem h k) then successors s.mem h k else []
    if !limitsOk s.mem h succ then (2, no, [])
    else if n.any fun n => n == 0 || decide (h.nrow < n) || h.sched == 0 then (5, no, [])
    else if !acyclic h.nob succ then (3, no, [])
    else (0, h, succ)

/-! ## Graphs in flight (R397) -/

/-- A graph as accepted, before its OBs become PENDING. -/
def newGraph (h : Header) (succ : List (List Nat)) (ofSeq held counted : Bool) : Graph :=
  let deg := inDegrees h.nob succ
  { nob := h.nob, nedge := h.nedge, obt := h.obt, edt := h.edt, sched := h.sched, nrow := h.nrow
    ofSeq := ofSeq, held := held, counted := counted
    obs := (List.range h.nob).map fun k => (k, { Ob.reset with indeg := deg.getD k 0, succ := succ.getD k [] }) }

/-- An OB becomes PENDING (R388); a root takes the signature of the previous step (R261). -/
def Ob.pend (o : Ob) (stepl : BitVec 16) (root : Sig) : Ob :=
  { Ob.reset with
    status := .pending, indeg := o.indeg, succ := o.succ, dep := o.indeg, retired := false, stepl := stepl
    inSig := if o.indeg = 0 then root else 0 }

/-- Every OB of a graph becomes PENDING (R21, R388). -/
def pendGraph (s : State) (x : Nat) (g : Graph) : State :=
  let c := s.ctx x
  let l : BitVec 16 := (SMap.get 0 c.loops 0).setWidth 16
  (List.range g.nob).foldl (fun s k => modOb s x g.obt k fun o => o.pend l c.prevSig) s

/-- The step of the context's sequencer is open (R23). -/
def stepIsOpen (s : State) (x q : Nat) : Bool :=
  (s.stepper q).stepOpen && (s.ctx x).graphs.any fun g => g.counted && !g.allRetired

/-- Status 6. -/
def flightFull (s : State) (x obt : Nat) : Bool :=
  decide (64 ≤ (s.ctx x).graphs.length) || (s.ctx x).graphs.any fun g => g.obt == obt

/-- Work was accepted: IDLE becomes ACTIVE (R19). -/
def makeActive (s : State) (x : Nat) : State :=
  if (s.ctx x).d.st = .idle then s.modCtx x fun c => { c with d := { c.d with st := .active } } else s

def addGraph (s : State) (x : Nat) (g : Graph) : State :=
  makeActive (s.modCtx x fun c => { c with graphs := c.graphs ++ [g] }) x

/-- OBSUB (R23, R396, R397): its status. -/
def obsubOp (s : State) (x hdr : Nat) : Nat × State :=
  match (s.ctx x).d.st with
  | .free => (9, s)
  | .suspended => (7, s)
  | _ =>
    let r := checkGraph s x hdr none
    if r.1 ≠ 0 then (r.1, s)
    else if flightFull s x r.2.1.obt then (6, s)
    else
      let wait := match seqOf s x with
        | some q => (s.stepper q).st != .idle && !stepIsOpen s x q
        | none => false
      let inStep := match seqOf s x with
        | some q => stepIsOpen s x q
        | none => false
      let g := newGraph r.2.1 r.2.2 false wait inStep
      let s := addGraph s x g
      (0, pendGraph s x g)

/-- SEQSTART (R394, R398). -/
def seqstartOp (s : State) (x hdr n : Nat) (stepped : Bool) : Nat × State :=
  match (s.ctx x).d.st with
  | .free => (9, s)
  | .suspended => (7, s)
  | _ =>
    match seqOf s x with
    | none => (4, s)
    | some q =>
      if (s.stepper q).st ≠ .idle then (4, s)
      else
        let r := checkGraph s x hdr (some n)
        if r.1 ≠ 0 then (r.1, s)
        else if flightFull s x r.2.1.obt then (6, s)
        else
          let s := addGraph s x (newGraph r.2.1 r.2.2 true false false)
          (0, s.modStepper q fun _ =>
            { Stepper.reset with st := .run, graph := r.2.1.obt, n := n, gr := if stepped then 0 else n, ctx := x })

/-! ## The life of an OB (R386-R390) -/

/-- The Mason's read of an OB's bytes 0-183; none where it meets poison (R386, R387). -/
def readOb (m : Memory) (a : Nat) : Option (List Byte) :=
  if rangePoisoned m a 184 then none else some (bytesN 184 (m.read a 184))

/-- The checks of R387 fail. -/
def obBad (c : List Byte) : Bool :=
  let ctl := obCtl c
  bits ctl 31 1 != 0 || obField c 178 6 != 0 || bits ctl 37 36 == 3 || decide (12 < bits ctl 55 52) ||
  bits ctl 63 56 == 0 || decide (200 < bits ctl 63 56) || decide (2 ^ 24 < (obBounds c).foldl (· * ·) 1) ||
  bits (obField c 144 8) 63 52 != 0 || bits (obField c 152 8) 63 52 != 0 || (bits ctl 43 38 != 0 && bits ctl 37 36 != 2)

/-- An OB retires POISONED with a record of the Walker's unit. -/
def poisonOb (s : State) (x obt k : Nat) (c : Cause) (loc : Nat) : State :=
  retireOb (writeRecord s x .poison { cause := c, unit := 6, loc := loc }) x obt k .poisoned

/-- Bricks a Walker has still to place. -/
def walkLoad (c : Cluster) : Nat := c.walk.foldl (fun n j => n + (j.total - j.next)) 0

/-- The Walker with the fewest bricks left, the lowest cluster on a tie (R26). -/
def bestWalker (s : State) : List Nat → Option Nat
  | [] => none
  | c :: cs => match bestWalker s cs with
    | none => some c
    | some d => if walkLoad (s.cluster d) < walkLoad (s.cluster c) then some d else some c

/-- OB `run` of the graph (the OB itself, or its alternate) is checked and retires EMPTY or goes to a Walker (R27, R28,
R387, R390). -/
def expandOb (s : State) (x obt k run : Nat) (c : List Byte) (alt : Bool) (loc : Nat) : State :=
  if obBad c then poisonOb s x obt k .shape loc
  else
    let ran (s : State) : State := if alt then modOb s x obt k fun o => { o with alt := c } else s
    if (obCtl c).testBit 0 then retireOb (ran s) x obt k (if alt then .skipped else .done)
    else match bestWalker s (partClusters s x) with
      | none => poisonOb s x obt k .window loc
      | some w =>
        let n := (obBounds c).foldl (· * ·) 1
        let s := modOb (ran s) x obt k fun o => { o with left := n, sig := 0, status := if alt then o.status else .ready }
        s.modCluster w fun v => { v with walk := v.walk ++ [⟨x, obt, k, run, 0, n⟩] }

/-- RESID: the alternate runs in the OB's place (R390). -/
def runAlternate (s : State) (x : Nat) (g : Graph) (k : Nat) (c : List Byte) : State :=
  let s := modOb s x g.obt k fun o => { o with status := .skipped, altr := true, sig := o.inSig }
  let alt := obField c 168 2
  let a := g.obt + 256 * alt
  if alt = 0xFFFF || g.nob ≤ alt || alt = k then poisonOb s x g.obt k .shape (g.obt + 256 * k)
  else match readOb s.mem a with
    | none => poisonOb s x g.obt k .eccu a
    | some c' => expandOb s x g.obt k alt c' true a

/-- The counter of OB k has reached 0 (R386-R388). -/
def obReady (s : State) (x : Nat) (g : Graph) (k : Nat) : State :=
  let a := g.obt + 256 * k
  let o := g.ob k
  let copy := readOb s.mem a
  let s := modGraph s x g.obt fun g => { g with obs := SMap.set Ob.reset g.obs k { g.ob k with copy := copy.getD [] } }
  if o.pf then retireOb s x g.obt k .poisoned
  else match copy with
    | none => poisonOb s x g.obt k .eccu a
    | some c =>
      if (rowCtl s x).getLsbD (16 + bits (obCtl c) 51 48) then retireOb s x g.obt k .skipped
      else
        let go (s : State) : State := expandOb s x g.obt k k c false a
        match reuseIndex (obRidx c) with
        | none => go s
        | some e =>
          match decideReuse s x k e with
          | (0, s) => go (modGraph s x g.obt fun g => { g with obs := SMap.set Ob.reset g.obs k { g.ob k with computed := true } })
          | (1, s) => retireOb s x g.obt k .skipped
          | (_, s) => runAlternate s x g k c

/-- An OB is PENDING with DEP 0, and its context is not SUSPENDED. -/
def obWaits (s : State) (x : Nat) (g : Graph) (k : Nat) : Bool :=
  let o := g.ob k
  (s.ctx x).d.st == .active && !g.held && decide (k < g.nob) && o.status == .pending && !o.retired && o.dep == 0

/-- DEPENDENCY_ZERO of OB `ob` of the graph whose OB table is at `graph` (R26). Where its counter is not 0 nothing happens. -/
def execDependencyZero (ctx graph ob : Nat) (s : State) : Out :=
  if ctx < 16 then
    match s.graph ctx graph with
    | some g => if obWaits s ctx g ob then .next (obReady s ctx g ob) else .next s
    | none => .next s
  else .fault .noSuchUnit

/-! ## Walkers (R28, R29, R391) -/

/-- The coordinates of brick j, c0 slowest, 16 bits each (R28). -/
def brickCoord (bs : List Nat) (j : Nat) : BitVec 96 :=
  BitVec.ofNat 96 ((List.range 6).foldr (fun k (a : Nat × Nat) =>
    let b := bs.getD k 1
    (a.1 / b, a.2 + a.1 % b * 2 ^ (16 * k))) (j, 0)).2

/-- Brick j of a Walker's OB (R281). -/
def makeBrick (s : State) (w : WalkJob) (c : List Byte) (g : Graph) : Brick :=
  let ctl := obCtl c
  { egts := s.mod.gts, coord := brickCoord (obBounds c) w.next, eidx := BitVec.ofNat 24 w.next, obn := BitVec.ofNat 16 w.ob
    ctx := BitVec.ofNat 4 w.ctx, prio := BitVec.ofNat 3 (bits ctl 35 33), rst := ctl.testBit 32
    nslot := BitVec.ofNat 4 (bits ctl 55 52), maxd := BitVec.ofNat 8 (bits ctl 63 56), graph := w.graph
    ob := g.obt + 256 * w.ob, primary := w.primary, sig := (g.ob w.primary).inSig }

/-- A Walker goes on to its next brick, or to its next OB. -/
def advanceWalk (s : State) (cl : Nat) : State :=
  s.modCluster cl fun c => { c with walk := match c.walk with
    | [] => []
    | j :: js => if j.next + 1 < j.total then { j with next := j.next + 1 } :: js else js }

/-- A brick of a Walker leaves it: READY becomes RUNNING with the first (R388). -/
def brickEmitted (s : State) (cl : Nat) (w : WalkJob) : State :=
  let s := advanceWalk s cl
  if (s.ob w.ctx w.graph w.primary).status = .ready then
    modOb s w.ctx w.graph w.primary fun o => { o with status := .running }
  else s

/-- A Walker places its next brick, or stalls on a full queue (R29). In SERVICE mode the bricks that an already poisoned OB
has still to place leave without running (R33). -/
def placeBrick (s : State) (cl : Nat) (w : WalkJob) (g : Graph) : State :=
  let o := g.ob w.primary
  let c := if o.altr then o.alt else o.copy
  let b := makeBrick s w c g
  match placeCluster s w.ctx (obCtl c) (obField c 0 32) b.coord w.next with
  | none =>
    let s := writeRecord (brickEmitted s cl w) w.ctx .poison
      { cause := .window, unit := 6, loc := b.ob, brick := some (b.word 0 false false) }
    bricksGone (poisonObBricks s w.ctx w.graph w.primary) w.ctx w.graph w.primary 1 true 0
  | some t =>
    if o.anyPoison && !(s.ctx w.ctx).d.fmode then bricksGone (brickEmitted s cl w) w.ctx w.graph w.primary 1 true 0
    else if 512 ≤ (s.cluster t).brickq.length then s
    else (brickEmitted s cl w).modCluster t fun k => { k with brickq := k.brickq ++ [b] }

/-- BRICK_PLACEMENT by the Walker of a cluster (R29). Without work nothing happens. -/
def execBrickPlacement (cluster : Nat) (s : State) : Out :=
  if cluster < 64 then
    match (s.cluster cluster).walk with
    | [] => .next s
    | w :: _ => match s.graph w.ctx w.graph with
      | some g => .next (placeBrick s cluster w g)
      | none => .next (advanceWalk s cluster)
  else .fault .noSuchUnit

/-! ## Step sequencers (R21-R24, R393-R395) -/

/-- No brick of the context is running or queued, and no Walker has one to place. -/
def contextQuiet (s : State) (x : Nat) : Bool :=
  (s.clusters.all fun e => (e.2.brickq.all fun b => b.ctx.toNat != x) && e.2.walk.all fun w => w.ctx != x) &&
  s.procs.all fun e => (e.2.heldBrick.all fun b => b.ctx.toNat != x) &&
    (e.2.liveBricks.all fun b => b.2.b.ctx.toNat != x)

/-- The context has members on other modules (R24, 16 R360). -/
def spansModules (s : State) (x : Nat) : Bool :=
  let c := s.ctx x
  (List.range 768).any fun n => c.member.getLsbD n && n != s.mod.node.toNat

/-- A group's leader: its lowest-numbered present member (16 R360). -/
def leaderOf (s : State) (x : Nat) : Nat :=
  (((List.range 768).filter fun n => (s.ctx x).member.getLsbD n && !(SMap.get false s.links.lost n)).head?).getD s.mod.node.toNat

/-- The graphs held for the next step become PENDING, those of `seq` too where `withSeq` (R23). -/
def releaseGraphs (s : State) (x : Nat) (withSeq : Bool) : State :=
  let go (g : Graph) : Bool := g.held || (withSeq && g.ofSeq)
  let gs := (s.ctx x).graphs.filter go
  let take (g : Graph) : Graph := if go g then { g with held := false, counted := withSeq } else g
  let s := s.modCtx x fun c => { c with graphs := c.graphs.map take }
  gs.foldl (fun s g => pendGraph s x g) s

/-- The step opens: its OBs become PENDING and its roots are released (R21). -/
def openStep (s : State) (q x : Nat) : State :=
  let r := (s.stepper q).row.getD []
  let s := s.modStepper q fun t => { t with stepOpen := true, ctl := r.getD 0 0, row := none, rdvSince := none }
  releaseGraphs (s.modCtx x fun c => { c with stepSig := 0 }) x true

/-- Loop registers of step n of N (R21). -/
def loopValues (n total : Nat) (row : List Word) : SMap Word :=
  (List.range 14).foldl (fun m i => SMap.set 0 m (i + 2) (row.getD (i + 2) 0))
    (SMap.set 0 (SMap.set 0 [] 0 (BitVec.ofNat 64 n)) 1 (BitVec.ofNat 64 (total - 1 - n)))

/-- Loop registers and pending reuse changes of the coming step (R21). -/
def enterStep (s : State) (q x : Nat) : State :=
  let t := s.stepper q
  applyPending (s.modCtx x fun c => { c with loops := loopValues t.done t.n (t.row.getD []) }) x

/-- The rendezvous arrivals that a sequencer holds as a leader end with its run (16 R360). -/
def dropArrivals (s : State) (q : Nat) : State := s.modFl fun f => { f with arrivals := f.arrivals.filter fun a => a.1 != q }

/-- The sequencer returns to IDLE: its graph leaves flight, held graphs are released as OBSUB to an IDLE sequencer is, and
the context falls IDLE without work (R394, R397; DEDUCED for the held graphs, log 21). -/
def seqEnd (s : State) (q x : Nat) : State :=
  let t := s.stepper q
  let s := if t.srq || t.st != .run then dropArrivals s q else s
  let s := s.modStepper q fun t => { t with st := .idle, stepOpen := false, row := none, ctl := 0, rdvSince := none }
  let s := s.modCtx x fun c => { c with graphs := (c.graphs.filter fun g => !g.ofSeq).map fun g => { g with counted := false } }
  settleCtx (releaseGraphs s x false) x

/-- Every OB counted into the open step has retired. -/
def stepDone (s : State) (x : Nat) : Bool := (s.ctx x).graphs.all fun g => !g.counted || g.allRetired

/-- The step has ended (R394). -/
def closeStep (s : State) (q x : Nat) : State :=
  let t := s.stepper q
  let last := t.done + 1 == t.n || t.ctl.getLsbD 1 || t.srq
  let s := s.modStepper q fun t => { t with done := t.done + 1, stepOpen := false, ctl := 0 }
  let s := s.modCtx x fun c => { c with prevSig := c.stepSig, stepSig := 0, graphs := c.graphs.map fun g => { g with counted := false } }
  if last then seqEnd s q x else settleCtx s x

/-- A row within R393. -/
def rowOk (row : List Word) : Bool := row.getD 1 0 == 0 && fld (row.getD 0 0) 32 32 == 0 && fld (row.getD 0 0) 3 13 == 0

/-- The sequencer halts with a NOTE record (R393, R394). -/
def seqHalt (s : State) (q x : Nat) (c : Cause) (loc : Nat) : State :=
  (dropArrivals (writeRecord s x .note { cause := c, unit := 7, loc := loc }) q).modStepper q fun t => { t with st := .halt, row := none, rdvSince := none }

/-- The boundary before the next step: the row is read, and the step is entered or the sequencer pauses (R395). -/
def readRow (s : State) (q x : Nat) : State :=
  let t := s.stepper q
  let a := ((s.graph x t.graph).map (·.sched)).getD 0 + 128 * t.done
  if t.srq then seqEnd s q x
  else if rangePoisoned s.mem a 128 then seqHalt s q x .eccu a
  else
    let row : List Word := (List.range 16).map fun i => BitVec.ofNat 64 (s.mem.read (a + 8 * i) 8)
    if !rowOk row then seqHalt s q x .shape a
    else s.modStepper q fun t =>
      if (row.getD 0 0).getLsbD 2 || t.gr = 0 then { t with st := .pause, row := some row }
      else { t with gr := t.gr - 1, row := some row }

/-- The context's accesses to other modules have performed (16 R360). -/
def contextRemotesDone (s : State) (x : Nat) : Bool :=
  s.fl.remotes.all fun r => r.host || (s.proc r.core).ctxOf != some x

/-- The arrival of member `node` at step n is recorded at the leader (16 R360). -/
def recordArrival (s : State) (q node : Nat) (n : BitVec 32) : State :=
  if s.fl.arrivals.any fun a => a == (q, n, node) then s
  else s.modFl fun f => { f with arrivals := f.arrivals ++ [(q, n, node)] }

/-- Every member has arrived; one that is lost keeps the step from beginning (R24). -/
def allArrived (s : State) (q x : Nat) (n : BitVec 32) : Bool :=
  (List.range 768).all fun m => !(s.ctx x).member.getLsbD m || s.fl.arrivals.any fun a => a == (q, n, m)

/-- Acquire at .dm by every core of the context, live or saved (16 R360). -/
def acquireContext (s : State) (x : Nat) : State :=
  let s := s.procs.foldl (fun s e => if e.2.ctxOf == some x then acquireSy s e.1 else s) s
  { s with saved := s.saved.map fun e => if e.1 / 512 = x then (e.1, e.2.map fun v => { v with sig := allOnes }) else e }

/-- The payload that tells a rendezvous answer from an arrival (DESIGN CHOICE, log 42). -/
def rdvAnswer : List Byte := [1]

/-- The leader's answer to every member but itself, and its own (16 R360). -/
def answerMembers (s : State) (q x : Nat) (n : BitVec 32) : State :=
  let s := (List.range 768).foldl (fun s m =>
    if (s.ctx x).member.getLsbD m && m != s.mod.node.toNat then s.sendFlit m 6 (s.ctx x).gid q 0 n.toNat rdvAnswer else s) s
  let s := s.modFl fun f => { f with arrivals := f.arrivals.filter fun a => !(a.1 == q && a.2.1 == n) }
  if (s.stepper q).rdvSince.isSome && (s.stepper q).st = .run then openStep (acquireContext s x) q x else s

/-- This module's sequencer arrives: at itself when it leads the group, else by a flit to the leader (16 R360). -/
def arriveAt (s : State) (q x : Nat) : State :=
  let t := s.stepper q
  let n : BitVec 32 := BitVec.ofNat 32 t.done
  if leaderOf s x = s.mod.node.toNat then
    let s := recordArrival s q s.mod.node.toNat n
    if allArrived s q x n then answerMembers s q x n else s
  else s.sendFlit (leaderOf s x) 6 (s.ctx x).gid q 0 n.toNat []

/-- The first arrival of a boundary, from which the 10 ms count. -/
def arrive (s : State) (q x : Nat) : State := arriveAt (s.modStepper q fun t => { t with rdvSince := some s.mod.gts }) q x

/-- STEP_BOUNDARY, one stage of it: a step ends, the next row is read, or the step read is entered and opened (R21, R395).
Where the sequencer cannot go on nothing happens. A SUSPENDED context's sequencer waits. -/
def execStepBoundary (seq : Nat) (s : State) : Out :=
  if seq < 8 then
    let t := s.stepper seq
    let x := t.ctx
    if (s.ctx x).d.st ≠ .active then .next s
    else match t.st with
      | .run =>
        if t.stepOpen then (if stepDone s x then .next (closeStep s seq x) else .next s)
        else if t.row.isNone then .next (readRow s seq x)
        else if t.rdvSince.isSome || !contextQuiet s x then .next s
        else if spansModules s x then
          (if contextRemotesDone s x then .next (arrive (enterStep s seq x) seq x) else .next s)
        else .next (openStep (enterStep s seq x) seq x)
      | .halt => if t.srq && stepDone s x then .next (seqEnd s seq x) else .next s
      | _ => .next s
  else .fault .noSuchUnit

/-- 10 ms of GTS (16 R360). -/
def rendezvousLimit : Nat := 10000000

/-- No rendezvous answer has come within 10 ms: the sequencer halts (R24). Otherwise nothing happens. -/
def execRendezvousTimeout (seq : Nat) (s : State) : Out :=
  if seq < 8 then
    match (s.stepper seq).rdvSince with
    | some t =>
      if (s.stepper seq).st = .run && decide (rendezvousLimit ≤ s.gts - t.toNat) then
        .next (seqHalt s seq (s.stepper seq).ctx .linkerr 0)
      else .next s
    | none => .next s
  else .fault .noSuchUnit

/-! ## SEQSTOP, SEQSTEP, SEQWAIT (R394, R399, R400) -/

def seqstopOp (s : State) (x : Nat) : Nat × State :=
  if (s.ctx x).d.st = .free then (9, s)
  else match seqOf s x with
    | none => (1, s)
    | some q => match (s.stepper q).st with
      | .idle => (1, s)
      | .run => (0, s.modStepper q fun t => { t with srq := true })
      | .pause => (0, seqEnd s q x)
      | .halt => (0, if stepDone s x then seqEnd s q x else s.modStepper q fun t => { t with srq := true })

def seqstepOp (s : State) (x k : Nat) : Nat × State :=
  if (s.ctx x).d.st = .free then (9, s)
  else match seqOf s x with
    | none => (1, s)
    | some q =>
      let more (n : Nat) : Nat := min (n + k) (2 ^ 20 - 1)
      if k = 0 then (1, s)
      else match (s.stepper q).st with
        | .run => (0, s.modStepper q fun t => { t with gr := more t.gr })
        | .pause => (0, s.modStepper q fun t => { t with st := .run, gr := more t.gr - 1 })
        | _ => (1, s)

def SeqState.code : SeqState → Nat
  | idle => 0 | run => 1 | pause => 2 | halt => 3

/-- The status word (R400). -/
def Stepper.word (t : Stepper) : Word :=
  BitVec.ofNat 64 (t.done * 2 ^ 28 + t.n * 2 ^ 8 + (if t.srq then 8 else 0) + t.st.code)

/-- An instruction that gives the Mason a command and writes its status. -/
def masonOp (gd : Guard) (d : BitVec 5) (rel : Bool) (f : Nat → Nat → State → Nat × State) (s : State) : Out :=
  ccRun .any false gd 6 (fun p => do
    let w ← ccWho p
    if rel then let _ ← release p 2
    let r := f p w.ctx (← get)
    set r.2
    putS p d (BitVec.ofNat 64 r.1)
    return .next) s

def execObsub (gd : Guard) (d a : BitVec 5) (s : State) : Out :=
  masonOp gd d true (fun p x s => obsubOp s x ((s.cc p).readS a).toNat) s

def execSeqstart (gd : Guard) (d a b : BitVec 5) (step : Bool) (s : State) : Out :=
  masonOp gd d true (fun p x s => seqstartOp s x ((s.cc p).readS a).toNat (((s.cc p).readS b).toNat % 2 ^ 20) step) s

def execSeqstop (gd : Guard) (d : BitVec 5) (s : State) : Out := masonOp gd d false (fun _ x s => seqstopOp s x) s

def execSeqstep (gd : Guard) (d a : BitVec 5) (s : State) : Out :=
  masonOp gd d false (fun p x s => seqstepOp s x (((s.cc p).readS a).toNat % 2 ^ 20)) s

def execSeqwait (gd : Guard) (d : BitVec 5) (s : State) : Out :=
  ccRun .any false gd 6 (fun p => do
    let w ← ccWho p
    let s ← get
    match seqOf s w.ctx with
    | none => putS p d 0
    | some q =>
      let t := s.stepper q
      if p < 256 && !(s.proc p).liveBricks.isEmpty then putS p d t.word
      else
        await (t.st != .run) boundaryWait
        doS fun s => acquireCo (mergePs s p (s.ctx w.ctx).prevSig) p
        putS p d t.word
    return .next) s

end Sys2Proof.Machine
end

