-- ==== Sys2Proof/Machine/Formats.lean ====
section
/-! DEFINITION. Bank formats and effective formats (08_memory_levels.md R195, R196; 17 R377, R378), and rounding modes of a
unit. -/

namespace Sys2Proof.Machine

/-- The bank.fmt registers of core m for context x: live where it runs the context, else its saved image's (R196). -/
def coreFmt (s : State) (x m : Nat) : SMap (BitVec 5) :=
  if liveOn s x m then (s.cc m).fmt else (savedImage s x m).img.cc.fmt

/-- What a command or entry reads when it starts (R378). Cores that hold and save nothing of the context read RAW. -/
def snapFormats (s : State) (x : Nat) : Formats :=
  let live := s.procs.filterMap fun e => if e.2.ctxOf == some x && !e.2.img.cc.fmt.isEmpty then some (e.1, e.2.img.cc.fmt) else none
  let kept := s.saved.filterMap fun e => e.2.bind fun v =>
    if e.1 / 512 = x && !liveOn s x (e.1 % 512) && !v.img.cc.fmt.isEmpty then some (e.1 % 512, v.img.cc.fmt) else none
  ⟨s.mem.bankfmt, live ++ kept⟩

/-- The bank format at a home key for a command of core p with captured registers `own`; none: no bank format. -/
def bankAt (f : Formats) (p : Nat) (own : SMap (BitVec 5)) (key : Nat) : Option Nat :=
  if lstBase ≤ key && key < lstBase + Config.lstBytes then some (SMap.get 0 f.table (0x1000 + (key - lstBase) / 2 ^ 20)).toNat
  else if shBase ≤ key && key < shBase + 2 ^ 28 then
    let o := key - shBase
    some (SMap.get 0 f.table (64 * (o / 2 ^ 22) + o % 2 ^ 22 / 2 ^ 16)).toNat
  else if spBase ≤ key && key < spBase + 2 ^ 28 then
    let o := key - spBase
    let m := o / 2 ^ 20
    some (SMap.get 0 (if m = p then own else SMap.get [] f.cores m) (o % 2 ^ 20 / 2 ^ 15)).toNat
  else none

/-- The effective format of one bank for a handle's format: none is FMTMISMATCH, code 0 untyped bytes (R195). -/
def effOf (fmt : Nat) (bank : Option Nat) : Option Nat :=
  match bank with
  | none => some fmt
  | some b => if b = 0 then some fmt else if fmt = 0 || fmt = b then some b else none

/-- The effective format of the n bytes at a key, the same in every bank they touch. -/
def effAt (f : Formats) (p : Nat) (own : SMap (BitVec 5)) (fmt key n : Nat) : Option Nat :=
  match effOf fmt (bankAt f p own key), effOf fmt (bankAt f p own (key + n - 1)) with
  | some a, some b => if a = b then some a else none
  | _, _ => none

/-- The context a unit formats and rounds under: a command's captured registers. -/
structure Captured where
  fmts : Formats
  p : Nat
  own : SMap (BitVec 5)

/-- The effective format of a place's n bytes, or FMTMISMATCH. -/
def effFormat (c : Captured) (fmt : Nat) (pl : Place) (n : Nat) : M Nat :=
  match (if pl.kind = .window then effAt c.fmts c.p c.own fmt pl.key n else some fmt) with
  | some k => pure k
  | none => faultM .fmtmismatch

end Sys2Proof.Machine
end

