-- ==== Sys2Proof/Machine/Quota.lean ====
section
/-! DEFINITION. What an exhausted energy quota does at a boundary (21_power_counters.md R448, R449). -/

namespace Sys2Proof.Machine

/-- QOVD and the QUOTA record of an exhaustion action (R448, R449). -/
def quotaRecord (s : State) (x : Nat) : State :=
  let overs : Nat := (-(s.ctx x).quota.qbal.toInt).toNat
  let s := s.modCtx x fun c => { c with quota := { c.quota with qovd := BitVec.ofNat 64 overs } }
  writeRecord s x .note { cause := .quota, unit := 9, detail := BitVec.ofNat 24 (min (ceilDiv overs 1024) (2 ^ 24 - 1)) }

/-- At a brick boundary a core of a context whose quota was exhausted under the floor-throttle policy enters throttle while QBAL
is negative; the first one records it (R449). -/
def throttleAt (s : State) (p : Nat) : State :=
  match (s.proc p).ctxOf with
  | none => s
  | some x =>
    let q := (s.ctx x).quota
    if q.act && q.qbal.msb && !(s.proc p).throttled && atBoundary s p then
      let s := if q.thr then s else quotaRecord (s.modCtx x fun c => { c with quota := { c.quota with thr := true } }) x
      s.modProc p fun v => { v with throttled := true }
    else s

/-- The throttle of every core of the context ends. -/
def endThrottle (s : State) (x : Nat) : State :=
  (s.modCtx x fun c => { c with quota := { c.quota with thr := false, act := false } }).mapProcs fun p =>
    if p.ctxOf == some x then { p with throttled := false } else p

/-- GRANT (R448, R449). -/
def grantOp (s : State) (x : Nat) (g : Word) : State :=
  let s := s.modCtx x fun c => { c with quota := { c.quota with qbal := c.quota.qbal + g, grant := g } }
  if (s.ctx x).quota.qbal.msb then s else endThrottle s x

def execQuotaGrant (ctx : Nat) (g : BitVec 64) (s : State) : Out :=
  if ctx < 16 then .next (grantOp s ctx g) else .fault .noSuchUnit

end Sys2Proof.Machine
end

