-- ==== Sys2Proof/Machine/Queues.lean ====
section
/-! DEFINITION. Queue, brick, lease and exit instructions of the control core (12_engine_queues_and_streams.md R266-R289;
13_hod_chains.md R301). -/

namespace Sys2Proof.Machine

/-! ## Captures and pushes (R123, R285) -/

/-- The capture of a push; ILLOP when no brick is current. -/
def capture (p : Nat) : M Capture := do
  let tag ← currentTag p
  let s ← get
  let r := s.cc p
  return ⟨p, ((s.proc p).ctxOf).getD 0, tag, r.rm, r.seed, r.fmt⟩

/-- Push a command onto an engine input queue, waiting while it is full (R266). -/
def pushCmd (q : Nat) (e : Eng) (c : Cmd) : M Unit := do
  let s ← get
  await (decide ((engineQueue (s.proc q).q e).length < 64))
  doS fun s => s.modQ q fun v => setEngineQueue v e (engineQueue v e ++ [c])

/-- The signature a core's elements carry (R261). -/
def wsOf (s : State) (p : Nat) : Sig := (s.proc p).coh.ws

/-- Token queue n of a core (R267). -/
def tokens (q : Queues) (n : Nat) : List (BitVec 16) := SMap.get [] q.tq n
def setTokens (q : Queues) (n : Nat) (l : List (BitVec 16)) : Queues := { q with tq := SMap.set [] q.tq n l }

def execPush (gd : Guard) (q : Bool) (a : BitVec 5) (s : State) : Out :=
  ccRun .control false gd 4 (fun p => do
    let _ ← currentTag p
    let v ← getS p a
    let s ← get
    let k := (s.proc p).q
    if q then
      await (decide ((tokens k 4).length < 64))
      doS fun s => mergePs (s.modQ p fun k => setTokens k 4 (tokens k 4 ++ [v.setWidth 16])) p (wsOf s p)
    else
      await (decide (k.toVe.length < 32))
      doS fun s => s.modQ p fun k => { k with toVe := k.toVe ++ [⟨v, wsOf s p⟩] }
    return .next) s

/-- The oldest element of a queue POP names, with the queues after its removal (R277). -/
def popElem (q : Queues) (f : Nat) : Option (Elem64 × Queues) :=
  match f with
  | 0 => match q.toCc with
    | [] => none
    | e :: es => some (e, { q with toCc := es })
  | 1 => match q.reply with
    | [] => none
    | e :: es => some (e, { q with reply := es })
  | _ => match tokens q (f + 3) with
    | [] => none
    | v :: vs => some (⟨v.setWidth 64, 0⟩, setTokens q (f + 3) vs)

def execPop (gd : Guard) (x : Bool) (b : BitVec 3) (d : BitVec 5) (f : BitVec 4) (s : State) : Out :=
  ccRun .any false gd 4 (fun p => do
    need (p < 256 || f == 1) .illop
    match popElem ((← get).proc p).q f.toNat with
    | some (e, q) =>
      doS fun s => acquireCo (mergePs (s.modQ p fun _ => q) p e.sig) p
      putS p d e.v
      if x then putP p b true
    | none => if x then putP p b false else waitM 0x15
    return .next) s

/-! ## Stream starts (R270-R272, R301) -/

/-- A KICK to the VE or the Press: entry offset above 65,535 raises SHAPE. -/
def kickStream (e : Eng) (gd : Guard) (d : BitVec 4) (a : BitVec 5) (nb : BitVec 10) (n : BitVec 3) (s : State) : Out :=
  ccRun .control false gd 6 (fun p => do
    need (decide (n.toNat ≤ 4) && decide (d.toNat + n.toNat ≤ 16)) .illop
    let c ← capture p
    let v := (← getS p a).toNat
    need (decide (v ≤ 65535)) .shape
    let r := (← get).cc p
    let hs := (List.range n.toNat).map fun k => r.readH (d + BitVec.ofNat 4 k)
    pushCmd p e (.kick c v (if nb = 0 then 1024 else nb.toNat) hs)
    return .next) s

def execKickVe (gd : Guard) (d : BitVec 4) (a : BitVec 5) (nb : BitVec 10) (n : BitVec 3) (s : State) : Out :=
  kickStream .ve gd d a nb n s
def execKickPx (gd : Guard) (d : BitVec 4) (a : BitVec 5) (nb : BitVec 10) (n : BitVec 3) (s : State) : Out :=
  kickStream .px gd d a nb n s

/-- A token queue field {V, Q}. -/
def tokenOf (x : BitVec 4) : Option Nat := if x.getLsbD 3 then some (x.toNat % 8) else none

/-- A KICK to a hod; the chain address is checked by the hod (R301). -/
def kickChain (e : Eng) (gd : Guard) (a : BitVec 5) (push pop : BitVec 4) (s : State) : Out :=
  ccRun .control false gd 6 (fun p => do
    let c ← capture p
    let v := (← getS p a).toNat
    pushCmd p e (.chain c v (tokenOf pop) (tokenOf push))
    return .next) s

def execKickHl (gd : Guard) (a : BitVec 5) (push pop : BitVec 4) (s : State) : Out := kickChain .hl gd a push pop s
def execKickHs (gd : Guard) (a : BitVec 5) (push pop : BitVec 4) (s : State) : Out := kickChain .hs gd a push pop s

def execNest (gd : Guard) (px : Bool) (a b : BitVec 5) (lvl : BitVec 3) (s : State) : Out :=
  ccRun .control false gd 6 (fun p => do
    let c ← capture p
    let v := (← getS p a).toNat
    need (decide (1 ≤ v) && decide (v ≤ 65536)) .shape
    let st ← getS p b
    pushCmd p (if px then .px else .ve) (.nest c lvl.toNat ⟨BitVec.ofNat 17 v, st⟩)
    return .next) s

def execLink (gd : Guard) (hs : Bool) (a b : BitVec 5) (s : State) : Out :=
  ccRun .control false gd 6 (fun p => do
    let c ← capture p
    let t := (← getS p b).toNat % 256
    need ((← get).inPart c.ctx (clusterOf t)) .window
    let v := (← getS p a).toNat
    pushCmd t (if hs then .hs else .hl) (.chain c v none none)
    return .next) s

/-! ## Sparse commands (R279, 14 R305) -/

def execScmdPmmg (gd : Guard) (d a b : BitVec 4) (carry : Bool) (sl : BitVec 4) (e : BitVec 10) (s : State) : Out :=
  ccRun .control false gd 6 (fun p => do
    need (decide (sl.toNat ≤ 11)) .illop
    let c ← capture p
    let s ← get
    let cl := clusterOf p
    await (decide ((s.cluster cl).press.gathered.length < 64))
    let r := s.cc p
    doS fun s => s.modPress cl fun pr =>
      { pr with
        gathered := pr.gathered ++ [⟨pr.pushes, c, none, carry, sl.toNat, e, r.readH d, r.readH a, r.readH b⟩]
        pushes := pr.pushes + 1 }
    return .next) s

/-- The lookup core serves context x with a program (14 R303, R305). -/
def servesLookup (s : State) (k x : Nat) : Bool :=
  let l := s.lookup k
  l.v && l.ctx.toNat == x && (((s.ctx x).hof).bind (·.lkpc)).isSome

def execScmdLk (gd : Guard) (a b : BitVec 5) (rid : BitVec 8) (s : State) : Out :=
  ccRun .control false gd 6 (fun p => do
    let c ← capture p
    let s ← get
    let da := ((s.cc p).readS a).toNat % 2 ^ 52
    let k := ((s.cc p).readS b).toNat % 16
    need (da % 64 == 0) .align da
    need (servesLookup s k c.ctx) .window
    await (decide ((s.lookup k).jobs.length < 64))
    let j : Job := ⟨s.mod.gts.setWidth 32, rid, c.ctx, p, c.tag, BitVec.ofNat 52 da, wsOf s p, false⟩
    doS fun s => s.modLookup k fun l => { l with jobs := l.jobs ++ [j] }
    return .next) s

/-! ## Bricks (R282-R285) -/

/-- BPOP waits for a brick of the core, its tag and its slots; where the Mason selects a brick of another context the core
goes on with that context's program (R41, R282). -/
def execBpop (gd : Guard) (d : BitVec 5) (s : State) : Out :=
  ccRun .control false gd 4 (fun p => do
    doS fun s => throttleAt s p
    let s ← get
    need (decide ((s.proc p).liveBricks.length < 8)) .illop
    await (!(freeTags s p).isEmpty)
    match (s.proc p).heldBrick with
    | some b => takeBrick p d b; return .next
    | none =>
      match selectBrick s p with
      | none => waitM bpopWait
      | some t =>
        set t
        match (t.proc p).heldBrick with
        | some b => if (t.proc p).ctxOf = (s.proc p).ctxOf then takeBrick p d b; return .next else return .stay
        | none => return .stay) s

/-- A live brick register (R283). -/
def liveBrick (p : Nat) (tag : BitVec 3) : M BrickReg := do
  match (← get).brick p tag with
  | some b => if b.live then return b else faultM .illop
  | none => faultM .illop

def execBget (gd : Guard) (d a : BitVec 5) (f : BitVec 4) (s : State) : Out :=
  ccRun .control false gd 4 (fun p => do
    let tag : BitVec 3 := (← getS p a).setWidth 3
    let b ← liveBrick p tag
    let s ← get
    let c := brickCopy s b.b
    let n (v : Nat) : Word := BitVec.ofNat 64 v
    let k := f.toNat
    if k = 12 then
      need (b.st == .running) .illop
      putS p d (match (s.proc p).cur with | some t => t.setWidth 64 | none => 8)
      doS fun s => s.modProc p fun v => { v with cur := some tag }
    else
      putS p d (match k with
        | 6 => n b.b.eidx.toNat
        | 7 => n b.b.ob
        | 8 => n p
        | 9 => n (obField c 142 2 * 65536 + obField c 140 2)
        | 10 => n (obField c 144 8)
        | 11 => n (obField c 152 8)
        | 13 => n (b.b.nslot.toNat * 256 + b.b.prio.toNat * 2 + (if b.b.rst then 1 else 0))
        | _ => (fld b.b.coord (16 * k) 16).setWidth 64)
    return .next) s

def execBdone (gd : Guard) (a : BitVec 5) (s : State) : Out :=
  ccRun .control false gd 4 (fun p => do
    let tag : BitVec 3 := (← getS p a).setWidth 3
    let b ← liveBrick p tag
    need (b.st == .running) .illop
    doS fun s => (s.setBrick p tag (some { b with st := .retiring })).modProc p fun v =>
      { v with cur := if v.cur = some tag then none else v.cur }
    return .next) s

/-- Retirement of a RETIRING brick whose commands have completed, or the freeing of a parked brick's tag (R32, R36).
Otherwise nothing happens. -/
def execBrickRetire (core : Nat) (tag : BitVec 3) (s : State) : Out :=
  if core < 256 then
    match s.brick core tag with
    | some b => if b.st != .running && !brickBusy s core tag then .next (throttleAt (retireBrick s core tag) core) else .next s
    | none => .next s
  else .fault .noSuchUnit

/-! ## The lease (R286, R287) -/

/-- Lease state of a core: 0 NONE, 1 REQ, 2 HELD, 3 RELEASING. -/
def leaseState (s : State) (p : Nat) : Nat :=
  let pr := (s.cluster (clusterOf p)).press
  if pr.holder = some (p % 4) then (if pr.releasing then 3 else 2)
  else if pr.reqs.contains (p % 4) then 1 else 0

def execLease (gd : Guard) (s : State) : Out :=
  ccRun .control false gd 4 (fun p => do
    if leaseState (← get) p = 0 then doS fun s => leaseRequest s p
    await (leaseState (← get) p == 2) 0x18
    return .next) s

def execUnlease (gd : Guard) (s : State) : Out :=
  ccRun .control false gd 4 (fun p => do doS fun s => unlease s p; return .next) s

def execLeaseq (gd : Guard) (d : BitVec 5) (s : State) : Out :=
  ccRun .control false gd 4 (fun p => do
    let s ← get
    let pr := (s.cluster (clusterOf p)).press
    putS p d (BitVec.ofNat 64 (pr.reqs.length % 8 * 32 + (if pr.holder.isSome then 16 else 0) +
      pr.holder.getD 0 % 4 * 4 + leaseState s p))
    return .next) s

/-- A gathered command of the core with a number below g waits or is in service. -/
def gatheredBefore (s : State) (p g : Nat) : Bool :=
  ((s.cluster (clusterOf p)).press.gathered ++ (s.proc p).eng.px.serving.toList).any fun c => c.cap.core == p && decide (c.no < g)

/-- Writes of the core's Press to another module or the host have not performed (10 R224). -/
def pressWrites (s : State) (p : Nat) : Bool := s.fl.remotes.any fun r => r.q == p && r.eng == some .px

/-- The oldest point of a core's Press queue is its release point, nothing runs, every write of the Press for the core has
performed (10 R224), and no gathered command that was pushed before UNLEASE remains: the lease passes on (R286). Otherwise
nothing happens. -/
def execLeaseRelease (cluster : Nat) (s : State) : Out :=
  if cluster < 64 then
    let pr := (s.cluster cluster).press
    match pr.holder with
    | some k =>
      let p := cluster * 4 + k
      let x := s.proc p
      match x.q.pxq with
      | .release g :: rest =>
        if pr.releasing && (engineCap x .px).isNone && !pressWrites s p && !gatheredBefore s p g then
          .next (leasePass (s.modQ p fun q => { q with pxq := rest }) cluster)
        else .next s
      | _ => .next s
    | none => .next s
  else .fault .noSuchUnit

/-! ## DRAIN, EXIT (R288, R289, 14 R307) -/

/-- Queue and engine e of core p hold no command; for the Press its gathered commands too (R288). -/
def engineDrained (s : State) (p : Nat) (e : Eng) : Bool :=
  let x := s.proc p
  (engineQueue x.q e).isEmpty && (engineCap x e).isNone &&
  (if e = .px then !((s.cluster (clusterOf p)).press.gathered.any fun g => g.cap.core == p) else true)

/-- Engines of a DRAIN mask. -/
def maskEngines (m : BitVec 4) : List Eng := engines.filter fun e => m.getLsbD (unitKey (some e) - 1)

/-- A brick has commands on this core's engines outside the mask, on other cores, or at a lookup core. -/
def brickElsewhere (s : State) (p : Nat) (tag : BitVec 3) (es : List Eng) : Bool :=
  let f (c : Capture) : Bool := c.core == p && c.tag == tag
  anyJob s p tag || (!es.contains .px && (s.clusters.any fun e => e.2.press.gathered.any fun g => f g.cap)) ||
  s.procs.any fun e => engines.any fun u => (e.1 != p || !es.contains u) &&
    (((engineCap e.2 u).any f) || (u == .px && e.2.eng.px.cap.any f) || (engineQueue e.2.q u).any fun c => c.cap.any f)

def execDrain (gd : Guard) (m : BitVec 4) (s : State) : Out :=
  ccRun .control false gd 4 (fun p => do
    need (m != 0) .illop
    let s ← get
    let es := maskEngines m
    await (es.all fun e => engineDrained s p e)
    await ((s.proc p).coh.acks.isEmpty && !(s.fl.remotes.any fun r => r.core == p && r.eng.any es.contains))
    await (!((s.proc p).liveBricks.any fun b => b.2.st == .retiring && !brickElsewhere s p b.1 es))
    doS fun s => acquireCo (mergePs s p (wsOf s p)) p
    return .next) s

/-- The record of EXIT.A (R289, R307). -/
def abandonRec (s : State) (p : Nat) : Rec := { ccRecord s p .abandon 0 false 0 false with faddr := 0 }

/-- The program of a lookup core stops (14 R307); it stays assigned. -/
def stopLookup (s : State) (p : Nat) : State :=
  (s.modProc p fun v => { v with run := .idle, img := Image.reset, stall := [], t0 := none }).modLookup (p - 256)
    fun l => { l with pr := none }

def execExit (gd : Guard) (s : State) : Out :=
  ccRun .any false gd 4 (fun p => do
    let s ← get
    if p < 256 then
      doS fun s => s.modProc p fun v => { v with
        bricks := v.bricks.map fun e => (e.1, e.2.map fun b => if b.st = .running then { b with st := .retiring } else b)
        cur := none
        run := match v.ctxOf with | some x => .exiting x | none => v.run }
    else
      let l := s.lookup (p - 256)
      need (l.cur.isNone && l.aq.isEmpty && l.dq.isEmpty) .illop
      await (l.kbags.isEmpty && quiet s p)
      doS fun s => stopLookup s p
    return .stay) s

def execExitA (gd : Guard) (s : State) : Out :=
  ccRun .any false gd 4 (fun p => do
    doS fun s => if p < 256 then abandonCore s p (abandonRec s p) false true
      else lookupAbandon s p (abandonRec s p) false true
    return .stay) s

end Sys2Proof.Machine
end

