-- ==== Sys2Proof/Machine/Lookup.lean ====
section
/-! DEFINITION. Lookup cores and capacity-tier bags (14_lookup_and_capacity.md). -/

namespace Sys2Proof.Machine

/-! ## Replies (12 R278) -/

def replyWord (s : State) (src : Nat) (btag : BitVec 3) (rid : Nat) (v : Nat) : Word :=
  BitVec.ofNat 64 (s.gts % 2 ^ 32 * 2 ^ 32 + src * 2 ^ 28 + btag.toNat * 2 ^ 25 + rid % 256 * 2 ^ 16 + v % 65536)

/-- Entries of a reply queue. -/
def replyMax : Nat := 64

/-- The reply of a job: pushed, or discarded with a trace record when the brick was aborted (R305); none when the reply
queue is full. -/
def answerJob (s : State) (j : Job) (v : Nat) (g : Sig) : Option State :=
  let w := replyWord s 3 j.btag j.rid.toNat v
  if j.orphan then some (traceRec s (clusterOf j.rcore) 4 j.rcore j.ctx false w.toNat)
  else if (s.proc j.rcore).q.reply.length < replyMax then
    some (s.modQ j.rcore fun q => { q with reply := q.reply ++ [⟨w, g⟩] })
  else none

/-! ## Jobs (R306, R308) -/

/-- Every earlier access of a pushing core itself has performed, and its stores are folded (11 R259). -/
def pusherDone (s : State) (core : Nat) : Bool :=
  (s.proc core).coh.acks.isEmpty && !(s.fl.remotes.any fun r => r.core == core && r.eng.isNone)

/-- The oldest job, once the accesses of its requester before the push have performed (R308). -/
def readyJob (s : State) (k : Nat) : Option (Job × List Job) :=
  match (s.lookup k).jobs with
  | j :: js => if pusherDone s j.rcore then some (j, js) else none
  | [] => none

def execPopJob (gd : Guard) (x : Bool) (b : BitVec 3) (d : BitVec 5) (s : State) : Out :=
  ccRun .lookup false gd 4 (fun p => do
    let s ← get
    need (s.lookup (p - 256)).cur.isNone .illop
    match readyJob s (p - 256) with
    | some (j, js) =>
      doS fun s => acquireCo (mergePs (s.modLookup (p - 256) fun l => { l with jobs := js, cur := some j }) p (j.sig ||| wsOf s j.rcore)) p
      putS p d (j.daddr.setWidth 64)
      if x then putP p b true
    | none => if x then putP p b false else waitM
    return .next) s

def execPushDone (gd : Guard) (a : BitVec 5) (s : State) : Out :=
  ccRun .lookup false gd 4 (fun p => do
    let s ← get
    match (s.lookup (p - 256)).cur with
    | none => faultM .illop
    | some j =>
      await (quiet s p)
      match answerJob s j ((s.cc p).readS a).toNat (wsOf s p) with
      | none => waitM
      | some t => set (t.modLookup (p - 256) fun l => { l with cur := none })
    return .next) s

/-! ## Rows (R310-R313) -/

/-- Runs of n bytes at va at their homes, page by page, of HBM or the capacity tier (R311). -/
def globalRuns (w : Who) (va : Nat) (k : Access) : Nat → Nat → M (List (Nat × Nat))
  | 0, _ => pure []
  | fuel + 1, n => do
    if n = 0 then return []
    need (decide (va < windowMin)) .perm va
    let pl ← translate w va k
    need (pl.kind == .hbm || pl.kind == .capacity) .perm va
    let m := min n (65536 - va % 65536)
    let rest ← globalRuns w (va + m) k fuel (n - m)
    return (pl.key, m) :: rest

/-- Bytes of runs. -/
def readRuns (m : Memory) (runs : List (Nat × Nat)) : List Byte := runs.flatMap fun r => bytesN r.2 (m.read r.1 r.2)
/-- Some sector of the runs is poisoned. -/
def runsPoisoned (m : Memory) (runs : List (Nat × Nat)) : Bool :=
  runs.any fun r => (List.range ((r.1 + r.2 - 1) / 128 - r.1 / 128 + 1)).any fun k => SMap.get false m.poison (r.1 / 128 + k)

def nullIndex : Nat := 0xFFFFFFFF

/-- A table handle of LKAQ (R311). -/
def tableOk (h : Handle) : Bool :=
  H.rank h == 2 && (H.fmt h == 10 || H.fmt h == 11 || H.fmt h == 12) && decide (H.size h 0 ≤ 1024)

/-- The row requests of a list of indices; every check precedes the first enqueue (R311). -/
def rowRequests (w : Who) (h : Handle) (pois : Bool) (seq : BitVec 16) : List Nat → M (List RowReq)
  | [] => pure []
  | i :: is => do
    let bytes := H.size h 0 * fmtBits (H.fmt h) / 8
    let off : Int := (i : Int) * H.stride h 1 * (fmtBits (H.fmt h) / 8 : Nat)
    let va := trunc 52 ((H.base h).toNat + off)
    let runs ← if i = nullIndex then pure [] else globalRuns w va .read 8 bytes
    let rest ← rowRequests w h pois (seq + 1) is
    return ⟨BitVec.ofNat 32 i, va, runs, BitVec.ofNat 5 (H.fmt h), H.size h 0, pois, seq, none⟩ :: rest

/-- n elements of b bytes at va as plain loads (class c0, scope .co). -/
def loadList (w : Who) (va b : Nat) (idx : Nat) : Nat → M (List Nat)
  | 0 => pure []
  | n + 1 => do
    let pl ← resolveLoad w va b false
    need (pl.kind != .mmio) .perm va
    let v ← load w pl b false ⟨0, 0, idx, none⟩
    let vs ← loadList w ((va + b) % 2 ^ 52) b (idx + 1) n
    return v :: vs

/-- LKAQ's checks and enqueue (R311). -/
def enqueueRows (p : Nat) (w : Who) (h : Handle) (pois : Bool) (d : BitVec 5) (idx : List Nat) : M Unit := do
  need (idx.all fun i => i == nullIndex || decide (i < H.size h 1)) .shape
  let l := (← get).lookup (p - 256)
  let rs ← rowRequests w h pois l.seq idx
  let k := min rs.length (512 - l.aq.length)
  doS fun s => s.modLookup (p - 256) fun l => { l with aq := l.aq ++ rs.take k, seq := l.seq + BitVec.ofNat 16 k }
  putS p d (BitVec.ofNat 64 k)

def execLkaq (gd : Guard) (d : BitVec 5) (a : BitVec 4) (b : BitVec 5) (pois : Bool) (n : BitVec 13) (s : State) : Out :=
  ccRun .lookup false gd 6 (fun p => do
    let w ← ccWho p
    let h := ((← get).cc p).readH a
    need (H.rankOk h) .shape
    need (H.fmtOk h) .fmtmismatch
    need (tableOk h) .shape
    let va := (← getS p b).toNat % 2 ^ 52
    need (va % 4 == 0) .align va
    let idx ← loadList w va 4 0 n.toNat
    enqueueRows p w h pois d idx
    return .next) s

def execLkaqOne (gd : Guard) (d : BitVec 5) (a : BitVec 4) (b : BitVec 5) (pois : Bool) (s : State) : Out :=
  ccRun .lookup false gd 6 (fun p => do
    let w ← ccWho p
    let h := ((← get).cc p).readH a
    need (H.rankOk h) .shape
    need (H.fmtOk h) .fmtmismatch
    need (tableOk h) .shape
    enqueueRows p w h pois d [(← getS p b).toNat % 2 ^ 32]
    return .next) s

/-- Staging units of a row (R310). -/
def RowReq.units (r : RowReq) : Nat := if r.runs.isEmpty then 0 else ceilDiv (r.elems * fmtBits r.fmt.toNat / 8) 128

/-- The oldest row request issues when a data-queue entry and its staging are free (R310). Otherwise nothing happens. -/
def execRowFetchIssue (k : Nat) (s : State) : Out :=
  if k < 16 then
    let l := s.lookup k
    match l.aq with
    | r :: rs =>
      if l.dq.length < 512 && (l.dq.foldl (fun n e => n + e.units) 0) + r.units ≤ 2048 then
        .next (perfLookup (s.modLookup k fun l => { l with aq := rs, dq := l.dq ++ [r] }) k
          (if r.idx.toNat = nullIndex then 0x31 else 0x30) 1)
      else .next s
    | [] => .next s
  else .fault .noSuchUnit

/-- The record of an uncorrectable row; `loc`: the LKDQ that popped it, or the KBAG (R323, 15 R335). -/
def rowRecord (k : Nat) (va loc : Nat) (sub : Bool) : Rec := { cause := .eccu, unit := 5, core := k, faddr := va, loc := loc, sub := sub }

/-- The i-th row of the data queue arrives: its bytes as they stand at their homes, or an uncorrectable row (R310, R323), whose
record follows when it is popped. Where there is none to arrive nothing happens. -/
def execRowArrival (k : Nat) (i : Nat) (s : State) : Out :=
  if k < 16 then
    let l := s.lookup k
    match l.dq[i]? with
    | some r =>
      if r.data.isSome then .next s
      else
        let bad := runsPoisoned s.mem r.runs
        .next (s.modLookup k fun l => { l with dq := l.dq.set i { r with data := some (if bad then [] else readRuns s.mem r.runs, bad) } })
    | none => .next s
  else .fault .noSuchUnit

/-- The status word of a popped row (R312). -/
def RowReq.status (r : RowReq) (bad : Bool) : Word :=
  BitVec.ofNat 64 (r.idx.toNat * 2 ^ 32 + r.seq.toNat * 2 ^ 16 + 2 ^ 15 + (if r.idx.toNat = nullIndex then 2 ^ 14 else 0) +
    (if bad && !r.pois then 2 ^ 13 else 0) + (if bad && r.pois then 2 ^ 12 else 0) + r.elems)

/-- A data-queue stall is counted (R313); no performance event has this count. -/
def countDataStall (s : State) (k : Nat) : State :=
  s.modLookup k fun l => { l with stats := SMap.set 0 l.stats 5 (SMap.get 0 l.stats 5 + 1) }

/-- The end of an LKDQ wait adds its time (R313). -/
def endStall (s : State) (k : Nat) : State :=
  match (s.lookup k).stall with
  | none => s
  | some (t, lossy) =>
    perfLookup (s.modLookup k fun l => { l with stall := none }) k (if lossy then 0x33 else 0x34) (s.gts - t.toNat)

def execLkdq (gd : Guard) (d : BitVec 5) (s : State) : Out :=
  ccRun .lookup false gd 6 (fun p => do
    let k := p - 256
    let s ← get
    let l := s.lookup k
    if l.aq.isEmpty && l.dq.isEmpty then putS p d 0
    else
      let ready := l.dq.head?.bind fun r => r.data.map fun v => (r, v)
      match ready with
      | some (r, data, bad) =>
        if bad then doS fun s => writeRecord s l.ctx.toNat .note (rowRecord k r.va ((s.cc p).pc.toNat % 2 ^ 52) (!r.pois))
        doS fun s => (endStall s k).modLookup k fun l => { l with
          dq := l.dq.drop 1
          pr := some ⟨r.elems, r.fmt, data, r.idx.toNat == nullIndex, bad && !r.pois, bad && r.pois⟩ }
        putS p d (r.status bad)
      | none =>
        if l.stall.isNone then
          let lossy := l.aq.length + l.dq.length = 1
          doS fun s => s.modLookup k fun l => { l with stall := some (s.mod.gts, lossy) }
          doS fun s => if lossy then perfLookup s k 0x32 1 else countDataStall s k
        waitM
    return .next) s

/-! ## Deduplication (R314) -/

/-- Store a list of values of b bytes from va upward (class c0). -/
def storeList (w : Who) (va b : Nat) (idx : Nat) : List Nat → M Unit
  | [] => pure ()
  | v :: vs => do
    let pl ← resolve w va b .write
    store w pl b v ⟨0, 0, idx, none⟩
    storeList w ((va + b) % 2 ^ 52) b (idx + 1) vs

/-- Every element of a range translates for writing, before any write. -/
def checkRange (w : Who) (va b : Nat) : Nat → M Unit
  | 0 => pure ()
  | n + 1 => do
    let pl ← resolve w va b .write
    need (pl.kind != .mmio) .perm va
    checkRange w ((va + b) % 2 ^ 52) b n

def execLkddp (gd : Guard) (d a b : BitVec 5) (n : BitVec 13) (s : State) : Out :=
  ccRun .lookup false gd 6 (fun p => do
    let w ← ccWho p
    let src := (← getS p a).toNat % 2 ^ 52
    let dst := (← getS p b).toNat % 2 ^ 52
    need (src % 4 == 0) .align src
    need (dst % 4 == 0) .align dst
    let xs ← loadList w src 4 0 n.toNat
    let uniq := (xs.filter fun x => x != nullIndex).eraseDups
    let map := xs.map fun x => if x = nullIndex then 0xFFFF else uniq.findIdx fun y => y == x
    checkRange w dst 4 uniq.length
    let mdst := (dst + 4 * n.toNat) % 2 ^ 52
    checkRange w mdst 2 xs.length
    storeList w dst 4 0x10000 uniq
    storeList w mdst 2 0x20000 map
    putS p d (BitVec.ofNat 64 uniq.length)
    return .next) s

/-! ## Pooling (R315-R317) -/

/-- Element e of a row's bytes as an exact value. -/
def rowElem (fmt : Nat) (data : List Byte) (e : Nat) : XVal :=
  let b := fmtBits fmt / 8
  decodeElem fmt (leN ((data.drop (e * b)).take b))

/-- Add a row with its weight to a bag (R316). -/
def Bag.addRow (g : Bag) (r : RowReg) (w : XVal) : Bag :=
  { g with
    count := g.count + 1
    el := (List.range r.elems).foldl (fun m e =>
      let o : BagElem := SMap.get ⟨0, 0⟩ m e
      let v := poolTerm o.tag o.sum w (rowElem r.fmt.toNat r.data e)
      SMap.set ⟨0, 0⟩ m e ⟨v.2, v.1⟩) g.el }

def execLkpool (gd : Guard) (b : BitVec 5) (bag : BitVec 4) (bf one clr : Bool) (s : State) : Out :=
  ccRun .lookup false gd 6 (fun p => do
    let k := p - 256
    let s ← get
    let l := s.lookup k
    match l.pr with
    | none => faultM .shape
    | some r =>
      let g := if clr then Bag.empty else SMap.get Bag.empty l.bags bag.toNat
      need (g.elems == 0 || g.elems == r.elems) .shape
      let g := { g with elems := r.elems }
      let out ← if r.nul || r.sub then pure g
        else if r.psn then pure { g with psn := true }
        else do
          need (g.count != 65536) .acclim
          let v := ((s.cc p).readS b).toNat % 65536
          pure (g.addRow r (if one then .fin false 1 0 else decodeF (if bf then .bf16 else .fp16) v))
      doS fun s => s.modLookup k fun l => { l with bags := SMap.set Bag.empty l.bags bag.toNat out }
    return .next) s

/-- The checks and writes of LKPUT and LKPUT.ROW: the values, whether the output is poisoned (R317). -/
def putVector (p : Nat) (w : Who) (h : Handle) (rm : BitVec 4) (vals : List XVal) (psn : Bool) : M Unit := do
  let s ← get
  need (H.rank h == 1 && H.size h 0 == vals.length && !vals.isEmpty) .shape
  need (H.fmtOk h) .fmtmismatch
  let base := (H.base h).toNat
  let cap : Captured := ⟨snapFormats s w.ctx, p, []⟩
  let inWin (va : Nat) : Bool := (shBase ≤ va && va < shBase + 2 ^ 28) || (spBase ≤ va && va < spBase + 2 ^ 28)
  need (inWin base) .window base
  let pl0 ← resolve w base 1 .write
  let code ← effFormat cap (H.fmt h) pl0 1
  need (code != 0) .fmtmismatch
  need (code == 9 || code == 10 || code == 11 || code == 12) .shape
  let b := fmtBits code / 8
  let places ← (List.range vals.length).mapM fun e => do
    let va := (base + e * b) % 2 ^ 52
    need (inWin va && inWin (va + b - 1)) .window va
    let pl ← resolve w va b .write
    let c ← effFormat cap (H.fmt h) pl b
    need (c == code) .fmtmismatch
    pure pl
  let cl := tileCluster p base
  if H.tile h != 0xFFF then tileEvent (.cc p) w.ctx cl (H.tile h) .filling
  let mode := (RMode.of rm.toNat (s.cc p).rm.toNat).noSr
  for (pl, x) in List.zip places vals do
    store w pl b (encodeElem code mode false 0 x)
  let runs := places.map fun pl => (pl.key, b)
  if psn then doS fun s => s.modMem fun m => runs.foldl (fun m r => (m.setPoison (r.1 / 128) true).setPoison ((r.1 + r.2 - 1) / 128) true) m
  else doS fun s => s.modMem fun m => m.clearFull runs
  if H.tile h != 0xFFF then tileEvent (.cc p) w.ctx cl (H.tile h) .ready

def execLkput (gd : Guard) (a : BitVec 4) (rm : BitVec 4) (bag : BitVec 4) (s : State) : Out :=
  ccRun .lookup false gd 6 (fun p => do
    let w ← ccWho p
    let s ← get
    let g := SMap.get Bag.empty (s.lookup (p - 256)).bags bag.toNat
    need (g.elems != 0) .shape
    let vals := (List.range g.elems).map fun e => let o : BagElem := SMap.get ⟨0, 0⟩ g.el e; poolValue o.tag o.sum
    putVector p w ((s.cc p).readH a) rm vals g.psn
    doS fun s => s.modLookup (p - 256) fun l => { l with bags := SMap.set Bag.empty l.bags bag.toNat Bag.empty }
    return .next) s

def execLkputRow (gd : Guard) (a : BitVec 4) (rm : BitVec 4) (s : State) : Out :=
  ccRun .lookup false gd 6 (fun p => do
    let w ← ccWho p
    let s ← get
    match (s.lookup (p - 256)).pr with
    | none => faultM .shape
    | some r =>
      let vals := (List.range r.elems).map fun e =>
        if r.nul || r.sub || r.psn then XVal.fin false 0 0 else rowElem r.fmt.toNat r.data e
      putVector p w ((s.cc p).readH a) rm vals r.psn
    return .next) s

/-! ## Capacity-tier bags (R318-R323) -/

/-- Fields of a directory entry (R318). -/
def dirV (e : BitVec 128) : Bool := e.getLsbD 127
def dirCtx (e : BitVec 128) : Nat := (fld e 120 4).toNat
def dirFmt (e : BitVec 128) : Nat := 10 + (fld e 118 2).toNat
def dirElems (e : BitVec 128) : Nat := (fld e 108 10).toNat + 1
def dirStride (e : BitVec 128) : Nat := (fld e 96 12).toNat * 128
def dirRows (e : BitVec 128) : Nat := (fld e 64 32).toNat
def dirBase (e : BitVec 128) : Nat := (fld e 0 46).toNat
def dirRowBytes (e : BitVec 128) : Nat := dirElems e * fmtBits (dirFmt e) / 8

/-- The home key of n bytes at va in HBM, the capacity tier or an on-chip window. -/
def outKey (w : Who) (va n : Nat) : M Nat := do
  let pl ← resolve w va n .write
  need pl.isLocal .perm va
  return pl.key

/-- Home keys of the bytes of a b-byte element, which may lie in two pages. -/
def outElem (w : Who) (va b : Nat) : M (List Nat) := do
  if va < windowMin && 65536 < va % 65536 + b then (List.range b).mapM fun i => outKey w ((va + i) % 2 ^ 52) 1
  else
    let k ← outKey w va b
    return (List.range b).map fun i => k + i

/-- The bytes of an output vector of n elements (R321). -/
def outElems (w : Who) (va b : Nat) : Nat → M (List (List Nat))
  | 0 => pure []
  | n + 1 => do
    let e ← outElem w va b
    return e :: (← outElems w ((va + b) % 2 ^ 52) b n)

/-- Ascending offsets from 0, the last at most 65,536 (R321). -/
def offsetsOk (off : List Nat) : Bool :=
  off.head? == some 0 && decide (off.getLast?.getD 0 ≤ 65536) && (List.zip off (off.drop 1)).all fun p => decide (p.1 ≤ p.2)

def execKbag (gd : Guard) (a : BitVec 5) (rid : BitVec 8) (s : State) : Out :=
  ccRun .lookup false gd 6 (fun p => do
    let w ← ccWho p
    let k := p - 256
    let va := (← getS p a).toNat % 2 ^ 52
    need (va % 64 == 0) .align va
    let pl ← resolveLoad w va 64 false
    need (pl.kind != .mmio) .perm va
    let q := bytesN 64 (← load w pl 64 false ⟨0, 0, 0, none⟩)
    let f (lo n : Nat) : Nat := obField q lo n
    let addr (lo : Nat) : Nat := f lo 8 % 2 ^ 52
    let flags := f 2 1
    let wsum := f 1 1 == 1
    let nbag := f 4 2
    need (decide (f 1 1 ≤ 1) && decide (flags < 32) && decide (bits flags 4 2 ≤ 5) && (f 3 1 == 9 || f 3 1 == 10 || f 3 1 == 11) &&
      decide (1 ≤ nbag) && decide (nbag ≤ 4096) && f 6 2 == 0 && f 48 16 == 0) .shape
    let e := SMap.get 0 (← get).links.dir (f 0 1)
    need (dirV e && dirCtx e == w.ctx) .perm
    need (addr 8 % 4 == 0) .align (addr 8)
    need (addr 24 % 4 == 0) .align (addr 24)
    need (!wsum || addr 16 % 2 == 0) .align (addr 16)
    let off ← loadList w (addr 24) 4 0x10000 (nbag + 1)
    need (offsetsOk off) .shape
    let total := off.getLast?.getD 0
    let idx ← loadList w (addr 8) 4 0x20000 total
    let wgt ← if wsum then loadList w (addr 16) 2 0x40000 total else pure []
    need (idx.all fun i => i == nullIndex || decide (i < dirRows e)) .shape
    let b := fmtBits (f 3 1) / 8
    need (decide (dirElems e * b ≤ f 40 8)) .shape
    let outs ← (List.range nbag).mapM fun n => outElems w ((addr 32 + n * f 40 8) % 2 ^ 52) b (dirElems e)
    await (decide (((← get).lookup k).kbags.length < 16))
    let r : KReq := ⟨rid, w.ctx, e, flags % 2 == 1, bits flags 1 1 == 1, !wsum, BitVec.ofNat 3 (bits flags 4 2), BitVec.ofNat 8 (f 3 1),
      off, idx, wgt, outs, ((← get).cc p).pc.toNat % 2 ^ 52, none, false⟩
    doS fun s => s.modLookup k fun l => { l with kbags := l.kbags ++ [r] }
    return .next) s

/-- One bag of a request in progress: its terms so far, whether a row was uncorrectable, and the records written. -/
structure BagRun where
  el : SMap BagElem
  psn : Bool
  err : Bool
  s : State

/-- The i-th term of a request (R321, R323). -/
def kbagTerm (k : Nat) (r : KReq) (a : BagRun) (i : Nat) : BagRun :=
  let row := r.idx.getD i nullIndex
  if row = nullIndex then a
  else
    let pa := dirBase r.entry + row * dirStride r.entry
    let runs := [(pa, dirRowBytes r.entry)]
    if runsPoisoned a.s.mem runs then
      { a with err := true, psn := a.psn || r.pois, s := writeRecord a.s r.ctx .note (rowRecord k pa r.loc (!r.pois)) }
    else
      let data := readRuns a.s.mem runs
      let w := if r.sum then .fin false 1 0 else decodeF (if r.wbf then .bf16 else .fp16) (r.wgt.getD i 0)
      { a with el := (List.range (dirElems r.entry)).foldl (fun m e =>
          let o : BagElem := SMap.get ⟨0, 0⟩ m e
          let v := poolTerm o.tag o.sum w (rowElem (dirFmt r.entry) data e)
          SMap.set ⟨0, 0⟩ m e ⟨v.2, v.1⟩) a.el }

/-- One bag: its terms, and its output vector written or poisoned. -/
def kbagBag (k : Nat) (r : KReq) (a : State × Bool) (b : Nat) : State × Bool :=
  let lo := r.off.getD b 0
  let hi := r.off.getD (b + 1) 0
  let g := ((List.range (hi - lo)).map fun i => lo + i).foldl (kbagTerm k r) ⟨[], false, false, a.1⟩
  let out := r.outs.getD b []
  let keys := out.flatten
  let mode := (RMode.of r.rm.toNat 0).noSr
  let m := (List.zip (List.range out.length) out).foldl (fun (m : Memory) e =>
    let o : BagElem := SMap.get ⟨0, 0⟩ g.el e.1
    (List.zip e.2 (bytesN e.2.length (encodeElem r.ofmt.toNat mode false 0 (poolValue o.tag o.sum)))).foldl
      (fun m y => m.write y.1 1 y.2.toNat) m) g.s.mem
  let m := if g.psn then keys.foldl (fun m k => m.setPoison (k / 128) true) m else m.clearFull (keys.map fun k => (k, 1))
  ({ g.s with mem := m }, a.2 || g.err)

/-- The sectors of HBM and the capacity tier that a request's outputs touch, one acknowledgement each (11 R250). -/
def kbagSectors (s : State) (r : KReq) : List Nat :=
  ((r.outs.flatMap fun o => o.flatMap fun e => e.filterMap fun k => if k < 2 ^ 46 then some (k / 128) else none).eraseDups).map
    fun x => s.mod.node.toNat * 2 ^ 39 + x % 2 ^ 39

/-- Its outputs are written: stores of the lookup core, whose acknowledgements follow (11 R250, R255). -/
def kbagWrite (s : State) (k : Nat) (r : KReq) (rs : List KReq) : State :=
  let (t, err) := (List.range (r.off.length - 1)).foldl (kbagBag k r) (s, false)
  (t.modCoh (256 + k) fun c => { c with acks := c.acks ++ kbagSectors s r }).modLookup k
    fun l => { l with kbags := { r with written := some err } :: rs }

/-- The oldest KBAG of a lookup core goes on: its outputs are written once the earlier accesses of the core have performed; then,
once the writes have, its reply with the core's signature enters the reply queue, or is discarded (R321-R323, R307). Without
room for the reply, or with accesses still to perform, nothing happens. -/
def execKbagReply (k : Nat) (s : State) : Out :=
  if k < 16 then
    match (s.lookup k).kbags with
    | r :: rs =>
      let p := 256 + k
      match r.written with
      | none => .next (if s.fl.remotes.any fun e => e.core == p then s else kbagWrite s k r rs)
      | some err =>
        if !quiet s p || (!r.drop && replyMax ≤ (s.proc p).q.reply.length) then .next s
        else
          let t := s.modLookup k fun l => { l with kbags := rs }
          if r.drop then .next t
          else
            let v := (if err then 32768 else 0) + (r.off.length - 1)
            .next (t.modQ p fun q => { q with reply := q.reply ++ [⟨replyWord t 4 0 r.rid.toNat v, wsOf t p⟩] })
    | [] => .next s
  else .fault .noSuchUnit

/-! ## Assignment, start and end of a lookup core's program (R303, R307, R330) -/

def lookupIdle (s : State) (k : Nat) : Bool :=
  let l := s.lookup k
  l.cur.isNone && l.jobs.isEmpty && l.aq.isEmpty && l.dq.isEmpty && l.kbags.isEmpty

/-- The program of a lookup core starts from its image, when its context has one (R303). -/
def startLookup (s : State) (k : Nat) : State :=
  let x := (s.lookup k).ctx.toNat
  let p := 256 + k
  if servesLookup s k x then
    s.modProc p fun v => { v with run := .running x, img := startImage s x p, stall := [], t0 := none }
  else stopLookup s p

/-- A write of an assignment register (R303). -/
def assignLookup (s : State) (k : Nat) (v : BitVec 32) : State :=
  if lookupIdle s k then
    startLookup ((stopLookup s (256 + k)).modLookup k fun l => { l with v := v.getLsbD 31, ctx := fld v 0 4, seq := 0 }) k
  else s

def execLookupAssign (k : Nat) (v : BitVec 32) (s : State) : Out :=
  if k < 16 then .next (assignLookup s k v) else .fault .noSuchUnit

/-- A turn of a lookup core whose program has ended by EXIT.A or a core fault: the current job's reply with 0xFFFF, then the
stop once its KBAGs have completed (R307, R330). -/
def lookupExit (s : State) (p : Nat) : State :=
  let k := p - 256
  match (s.lookup k).cur with
  | some j => match answerJob s j 0xFFFF (wsOf s p) with
    | some t => t.modLookup k fun l => { l with cur := none }
    | none => s
  | none =>
    if (s.lookup k).restart then startLookup (s.modLookup k fun l => { l with restart := false }) k
    else if (s.lookup k).kbags.isEmpty then stopLookup s p else s

end Sys2Proof.Machine
end

