-- ==== Sys2Proof/Machine/Contexts.lean ====
section
/-! DEFINITION. Context descriptors and commands, soft and hard pre-emption, overruns, and the launch registers
(02 R17-R19, R38-R41; 15 R342-R349; 17 R371; 18 R401; 28 R479). -/

namespace Sys2Proof.Machine

def setErr (s : State) (x : Nat) (e : Bool) : State := s.modCtx x fun c => { c with d := { c.d with err := e } }

/-! ## CREATE (R18, R19) -/

/-- Another context that is not FREE. -/
def otherCtx (s : State) (x : Nat) (f : Ctx → Bool) : Bool :=
  (List.range 16).any fun y => y != x && (s.ctx y).d.st != .free && f (s.ctx y)

/-- CREATE of a FREE context is rejected (R18, R479). -/
def createBad (s : State) (x : Nat) : Bool :=
  let c := s.ctx x
  let d := c.d
  d.part == 0 || d.lstq == 0 || decide (6144 < d.lstb.toNat + d.lstq.toNat) || d.share == 0 ||
  otherCtx s x (fun o => o.d.asid == d.asid) || (d.seqv && otherCtx s x fun o => o.d.seqv && o.d.seq == d.seq) ||
  decide (Config.hbmBytes < c.saveb.toNat + 2 ^ 30)

/-- What CREATE leaves of a context: its descriptor and configuration registers, and the notification fields of its fault
queue (R334), and the HOF loaded for it (06 R112; DEDUCED, log 31); everything else at its reset value. -/
def Ctx.created (c : Ctx) : Ctx :=
  { Ctx.reset with
    d := { c.d with st := .idle, err := false }, arg := c.arg, cmdN := c.cmdN, sts := c.sts, stp := c.stp
    fq := { FaultQ.reset with nen := c.fq.nen, ncore := c.fq.ncore, nsc := c.fq.nsc }
    hard := c.hard, saveb := c.saveb, gid := c.gid, member := c.member, hof := c.hof }

/-- The saved images of a context hold their reset values, CSRs in the save area among them (06 R112, 28 R479), counters that
posts reached while it was FREE too (20, card of R428). -/
def resetImages (s : State) (x : Nat) : State :=
  let b := (s.ctx x).saveb.toNat
  let csr (a : Nat) : Bool := decide (b ≤ a) && decide (a < b + 2 ^ 30) && decide ((a - b) % 2 ^ 22 / 2 ^ 11 = 2)
  let saved := s.saved.filter fun e => e.1 / 512 != x
  let tvec := s.startTvec.filter fun e => e.1 / 512 != x
  { s with saved := saved, startTvec := tvec, mem := { s.mem with bytes := s.mem.bytes.filter fun e => !csr e.1 } }

/-- The Mason's credits of a context are 0 in every cluster (R392). -/
def clearCredit (s : State) (x : Nat) : State :=
  s.mapClusters fun c => { c with credit := SMap.erase c.credit x }

def createOp (s : State) (x : Nat) : State :=
  if (s.ctx x).d.st ≠ .free || createBad s x then setErr s x true
  else resetImages (clearCredit (s.modCtx x Ctx.created) x) x

/-! ## SUSPEND and hard pre-emption (R19, R342, R343) -/

/-- Control cores that run a context. -/
def coresOf (s : State) (x : Nat) : List Nat := (List.range 256).filter fun p => (s.proc p).ctxOf == some x

/-- SUSPEND: bricks selected and not yet returned by a BPOP go back; STATE reads ACTIVE until the last running brick has
reached a boundary (R19). -/
def suspendOp (s : State) (x : Nat) : State :=
  if (s.ctx x).d.st ≠ .active then setErr s x true
  else
    let s := s.modCtx x fun c => { c with suspending := true, busy := true, d := { c.d with err := false } }
    (coresOf s x).foldl returnHeld s

/-- Hard pre-emption: SUSPEND, and the eligible cores are aborted (R343). -/
def hardSuspendOp (s : State) (x : Nat) : State :=
  if (s.ctx x).d.st ≠ .active then setErr s x true
  else
    let s := suspendOp s x
    (coresOf s x).foldl (fun s p => if hardEligible s p then hardPreemptCore s p else s) s

/-- The unit waits where a core without a brick is at a brick boundary (R208, R400, R438), or in BPOP. -/
def atWait (s : State) (p : Nat) : Bool :=
  let n := SMap.get 0 (s.proc p).stall 0
  n == bpopWait + 1 || n == boundaryWait + 1 || n == 0x15

/-- A core of a suspending context can be saved softly (R343, R346). -/
def coreReady (s : State) (p : Nat) : Bool :=
  canSwitch s p && match (s.proc p).run with
    | .running _ => atWait s p
    | _ => false

/-- STATE becomes SUSPENDED; the tile entries of the context are copied and set EMPTY (R371). -/
def saveTiles (s : State) (x : Nat) : State :=
  let copies := (partClusters s x).flatMap fun c => (s.cluster c).tiles.filterMap fun e =>
    if e.2.ctx = x && e.2.st != 0 then some (c * 4096 + e.1, e.2) else none
  let s := s.modCtx x fun c =>
    { c with d := { c.d with st := .suspended }, tileCopies := copies.foldl (fun m e => SMap.set Tile.empty m e.1 e.2) c.tileCopies }
  copies.foldl (fun s e => tileChange s (e.1 / 4096) (e.1 % 4096) Tile.empty) s

/-- No core holds the context any more: its tiles are saved and STATE becomes SUSPENDED. -/
def becomeSuspended (s : State) (x : Nat) : State :=
  let s := saveTiles s x
  let s := s.modCtx x fun c => { c with suspending := false, busy := false }
  if (s.ctx x).quota.sus then
    quotaRecord (s.modCtx x fun c => { c with quota := { c.quota with sus := false } }) x
  else s

/-- A core that a hard pre-emption has aborted, its earlier accesses performed (R343, R346). -/
def abortedReady (s : State) (p : Nat) : Bool :=
  quiet s p && match (s.proc p).run with
    | .aborted _ => true
    | _ => false

/-- The cores of a suspending context that are at a boundary, or aborted, are saved (R343, R345). -/
def saveReady (s : State) (x : Nat) : State :=
  (coresOf s x).foldl (fun s p => if abortedReady s p then saveCore s p true else if coreReady s p then saveCore s p false else s) s

/-- CONTEXT_SUSPENDED: cores at a boundary are saved, and with the last of them STATE becomes SUSPENDED. For a context that is
not suspending nothing happens. -/
def execContextSuspended (ctx : Nat) (s : State) : Out :=
  if ctx < 16 then
    if (s.ctx ctx).suspending then
      let t := saveReady s ctx
      .next (if (coresOf t ctx).isEmpty then becomeSuspended t ctx else t)
    else .next s
  else .fault .noSuchUnit

/-! ## RESUME (R19, R371) -/

/-- Copies whose entries are EMPTY are restored; the others wait. -/
def restoreTiles (s : State) (x : Nat) : State :=
  (s.ctx x).tileCopies.foldl (fun s e =>
    let c := e.1 / 4096
    let t := e.1 % 4096
    if (s.tile c t).st = 0 then
      tileChange (s.modCtx x fun v => { v with tileCopies := SMap.erase v.tileCopies e.1 }) c t e.2
    else s) s

def resumeOp (s : State) (x : Nat) : State :=
  if (s.ctx x).d.st ≠ .suspended then setErr s x true
  else
    let s := s.modCtx x fun c => { c with d := { c.d with st := .active, err := false } }
    settleCtx (restoreTiles s x) x

/-! ## DESTROY (R19, R220, R303, R318, R353, R371, R375, R486) -/

/-- A core that runs a destroyed context becomes idle: its commands, queues, bricks and slots are gone. -/
def destroyCore (s : State) (x p : Nat) : State :=
  let s := leaseDrop (haltCommands (discardCore s p) p none false) p
  let s := s.modQ p fun _ => Queues.reset
  let s := s.modFl fun f => { f with remotes := (f.remotes.filter fun r => r.core != p || r.kind == 1 || r.kind == 4).map fun r =>
    if r.core = p then { r with tag := deadTag, btag := none } else r }
  let other (b : Option BrickReg) : Bool := match b with
    | some b => b.b.ctx.toNat != x
    | none => false
  s.modProc p fun v => { v with
    run := .idle, img := Image.reset, semq := [], t0 := none, cur := none, stall := [], heldBrick := none, throttled := false
    bricks := v.bricks.filter fun e => other e.2
    coh := { v.coh with rbuf := [] } }

/-- The lookup cores assigned to a context lose their assignment, jobs, rows and bags (R303). -/
def destroyLookup (s : State) (x k : Nat) : State :=
  let l := s.lookup k
  if l.v && l.ctx.toNat = x then
    let s := (List.range 64).foldl (fun s c => dropHeld s c (.cc (256 + k))) s
    let s := s.modProc (256 + k) fun v => { v with coh := { v.coh with rbuf := [] } }
    (stopLookup s (256 + k)).modLookup k fun l => { Lookup.reset with ctx := l.ctx, stats := l.stats }
  else s

/-- Entries of a 128-bit table whose CTX is x lose V. -/
def clearValid (m : SMap (BitVec 128)) (lo x : Nat) : SMap (BitVec 128) :=
  m.foldl (fun m e => if (fld e.2 lo 4).toNat = x then SMap.set 0 m e.1 (e.2 &&& ~~~(1#128 <<< 127)) else m) m

/-- CTX of a capacity directory entry (14 R318) and of an inbound window (16 R353). -/
def dirCtxAt : Nat := 120
def winCtxAt : Nat := 120

def destroyClusters (s : State) (x : Nat) : State :=
  s.mapClusters fun c =>
    let slots := c.press.slots.filter fun t => match t.2 with
      | some sl => sl.ctx != x
      | none => false
    { c with
      brickq := c.brickq.filter fun b => b.ctx.toNat != x
      walk := c.walk.filter fun w => w.ctx != x
      credit := SMap.erase c.credit x
      heldTiles := c.heldTiles.filter fun h => h.ctx != x
      press := { c.press with slots := slots } }

def clearTiles (s : State) (x : Nat) : State :=
  let own := s.clusters.flatMap fun e => e.2.tiles.filterMap fun t => if t.2.st != 0 && t.2.ctx = x then some (e.1, t.1) else none
  own.foldl (fun s e => tileChange s e.1 e.2 Tile.empty) s

/-- Drop the translations and L1 sectors of the ASID (R375). -/
def dropAsid (s : State) (a : BitVec 16) : State :=
  (s.modMem fun m => { m with trans := m.trans.filter fun t => t.asid != a }).mapProcs fun p =>
    { p with coh := { p.coh with l1 := p.coh.l1.filter fun l => l.1 / 2 ^ 45 != a.toNat } }

/-- Burst declarations of a context are emptied (21, state card of R444). -/
def dropBursts (s : State) (x : Nat) : State :=
  s.mapProcs fun p => match p.burst with
    | some b => if b.ctx = x then { p with burst := none } else p
    | none => p

def destroyOp (s : State) (x : Nat) : State :=
  let d := (s.ctx x).d
  if d.st ≠ .idle && d.st ≠ .suspended then setErr s x true
  else
    let s := (coresOf s x).foldl (fun s p => destroyCore s x p) s
    let s := (List.range 16).foldl (fun s k => destroyLookup s x k) s
    let s := clearTiles (destroyClusters s x) x
    let s := dropBursts (dropAsid s d.asid) x
    let s := s.modLinks fun l => { l with wins := clearValid l.wins winCtxAt x, dir := clearValid l.dir dirCtxAt x }
    let s := s.modFl fun f =>
      { f with posts := f.posts.filter fun q => q.ctx != x, deliveries := f.deliveries.filter fun q => q.ctx != x }
    let saved := s.saved.filter fun e => e.1 / 512 != x
    let tvec := s.startTvec.filter fun e => e.1 / 512 != x
    let s := { s with saved := saved, startTvec := tvec }
    let s := match seqOf s x with
      | some q => dropArrivals (s.modStepper q fun _ => Stepper.reset) q
      | none => s
    s.modCtx x fun c => { c.created with d := { c.d with st := .free, err := false }, fq := FaultQ.reset, quota := c.quota }

/-! ## The commands as steps -/

def ctxCommand (x : Nat) (f : State → Nat → State) (s : State) : Out := if x < 16 then .next (f s x) else .fault .noSuchUnit

def execCreate (ctx : Nat) (s : State) : Out := ctxCommand ctx createOp s
def execSuspend (ctx : Nat) (s : State) : Out := ctxCommand ctx suspendOp s
def execResume (ctx : Nat) (s : State) : Out := ctxCommand ctx resumeOp s
def execDestroy (ctx : Nat) (s : State) : Out := ctxCommand ctx destroyOp s

def execPreemptionGo (ctx : Nat) (s : State) : Out :=
  ctxCommand ctx (fun s x => suspendOp (s.modCtx x fun c => { c with hard := false }) x) s

def execHardPreemption (ctx : Nat) (s : State) : Out :=
  ctxCommand ctx (fun s x => hardSuspendOp (s.modCtx x fun c => { c with hard := true }) x) s

/-! ## The launch registers (R401) -/

/-- A launch command with its status in STS. -/
def launchOp (x : Nat) (n : BitVec 20) (stp : Bool) (f : State → Nat × State) (s : State) : State :=
  let r := f (s.modCtx x fun c => { c with cmdN := n, stp := stp })
  r.2.modCtx x fun c => { c with sts := BitVec.ofNat 8 r.1 }

/-- A launch by OP code: 1 OBSUB, 2 SEQSTART, 3 SEQSTOP, 4 SEQSTEP; others are ignored. -/
def launchCode (x op : Nat) (n : BitVec 20) (stp : Bool) (s : State) : State :=
  let arg := (s.ctx x).arg.toNat
  match op with
  | 1 => launchOp x n stp (fun s => obsubOp s x arg) s
  | 2 => launchOp x n stp (fun s => seqstartOp s x arg n.toNat stp) s
  | 3 => launchOp x n stp (fun s => seqstopOp s x) s
  | 4 => launchOp x n stp (fun s => seqstepOp s x (arg % 2 ^ 20)) s
  | _ => s.modCtx x fun c => { c with cmdN := n, stp := stp }

def execLaunchObsub (ctx : Nat) (s : State) : Out :=
  ctxCommand ctx (fun s x => launchCode x 1 (s.ctx x).cmdN (s.ctx x).stp s) s
def execLaunchSeqstart (ctx : Nat) (n : BitVec 20) (stepped : Bool) (s : State) : Out :=
  ctxCommand ctx (fun s x => launchCode x 2 n stepped s) s
def execLaunchSeqstop (ctx : Nat) (s : State) : Out :=
  ctxCommand ctx (fun s x => launchCode x 3 (s.ctx x).cmdN (s.ctx x).stp s) s
def execLaunchSeqstep (ctx : Nat) (s : State) : Out :=
  ctxCommand ctx (fun s x => launchCode x 4 (s.ctx x).cmdN (s.ctx x).stp s) s

/-! ## Overruns (R39) -/

/-- BRICK_OVERRUN: without a pending pre-emption it is counted in the trace buffer, once; under one the core is aborted with a
TIMER note, or the brick alone is stopped with PREEMPT (R39, R349, 22 R458). Without an overrun nothing happens. -/
def execBrickOverrun (core : Nat) (tag : BitVec 3) (s : State) : Out :=
  if core < 256 then
    match s.brick core tag with
    | some b =>
      if !b.late s.gts || (b.pm && !anyCommand s fun c => c.core == core && c.tag == tag) then .next s
      else if !(s.ctx b.b.ctx.toNat).suspending then .next (countOverrun s core tag)
      else if (s.proc core).liveBricks.all fun e => e.2.b.rst then
        let r : Rec := { cause := .timer, unit := 7, core := core, loc := b.b.ob, brick := brickRegWord s core tag }
        .next (hardPreemptCore (writeRecord s b.b.ctx.toNat .note r) core)
      else .next (brickFault (haltCommands (discardTag s core tag) core (some tag) true) core tag
        { cause := .preempt, unit := 7, core := core, loc := b.b.ob } true)
    | none => .next s
  else .fault .noSuchUnit

end Sys2Proof.Machine
end

