-- ==== Sys2Proof/WellFormed.lean ====
section
/-! DEFINITION. Which terms of `Instr` an encoding can carry: the field limits of R82, R83, R85, R87-R97 and of the home
entries, which decode checks before anything runs (R77 step 3). Events carry no encoding and no limit. -/

namespace Sys2Proof

/-- The pair G = 0, GN = 1 is reserved (R82). -/
def Guard.wf (g : Guard) : Bool := !(g.g == 0 && g.n)

/-- FL = 0b11 is reserved (R87). -/
def VCom.wf (c : VCom) : Bool := c.fl != 3

/-- CSR numbers of R118. -/
def csrDefined (n : BitVec 12) : Bool :=
  let k := n.toNat
  decide (k ≤ 5) || (decide (0x10 ≤ k) && decide (k ≤ 0x13)) || (decide (0x20 ≤ k) && decide (k ≤ 0x22))
    || (decide (0x30 ≤ k) && decide (k ≤ 0x34)) || (decide (0x40 ≤ k) && decide (k ≤ 0x4F))
    || (decide (0x80 ≤ k) && decide (k ≤ 0x97)) || k == 0xC0

/-- Scopes 5-7 are reserved (R85). -/
def scopeOk (sc : BitVec 3) : Bool := decide (sc.toNat ≤ 4)

/-- Width in bits of a vector type code (R150, R151). -/
def vtypeBits (t : BitVec 4) : Nat :=
  match t.toNat with
  | 0 | 1 => 8
  | 2 | 3 => 16
  | 4 | 5 | 6 => 32
  | 7 | 8 => 16
  | 9 | 10 => 8
  | 11 | 12 => 6
  | 13 => 4
  | 14 => 8
  | _ => 6

/-- Type classes of R157. -/
def vtypeInt (t : BitVec 4) : Bool := decide (t.toNat ≤ 5)
def vtypeFp (t : BitVec 4) : Bool := decide (6 ≤ t.toNat) && decide (t.toNat ≤ 8)

/-- Counter fields of a hod entry (R94, R292, R293). -/
def HodHdr.wf (h : HodHdr) : Bool :=
  scopeOk h.sc
  && (if h.we then h.wk || (h.wctr != 0 && decide (h.wctr.toNat ≤ 63)) else h.wctr == 0 && h.wval == 0 && !h.wk)
  && (if h.pe then h.pk || (h.pctr != 0 && decide (h.pctr.toNat ≤ 63)) else h.pctr == 0 && h.pamt == 0 && !h.pk)

/-- A descriptor's reserved codes (R95). -/
def Desc.wf (x : Desc) : Bool := decide (x.fmt.toNat ≤ 20) && x.rank != 0

/-- Hod token queues (R267, R270): V in bit 3, Q in bits 2-0. -/
def tokenField (allowed : List Nat) (x : BitVec 4) : Bool :=
  if x.getLsbD 3 then allowed.contains (x.toNat % 8) else x == 0

/-- The well-formed instructions. VB of a VRED or VSCAN that is not bitwise, and RM of a VSCAN, belong to no operand of R176 and R177:
the encoding has 0 there (DEDUCED, log 35). -/
def Instr.wf : Instr → Bool
  | .ill _ _ => true | .nop => true | .mov _ _ => true | .addC _ _ => true | .subC _ _ => true
  | .addiC _ _ => true | .liC _ _ => true | .shliC _ _ => true | .shriC _ _ => true
  | .andC _ _ => true | .orC _ _ => true | .xorC _ _ => true
  | .brs _ => true | .brp _ _ => true | .retC => true
  | .add o => o.gd.wf | .sub o => o.gd.wf | .and o => o.gd.wf | .or o => o.gd.wf | .xor o => o.gd.wf
  | .andn o => o.gd.wf | .shl o => o.gd.wf | .shr o => o.gd.wf | .sra o => o.gd.wf | .rol o => o.gd.wf
  | .min o => o.gd.wf | .max o => o.gd.wf | .minz o => o.gd.wf | .maxz o => o.gd.wf | .absd o => o.gd.wf
  | .mul o => o.gd.wf | .mulh o => o.gd.wf | .mulhz o => o.gd.wf
  | .div o => o.gd.wf | .divz o => o.gd.wf | .rem o => o.gd.wf | .remz o => o.gd.wf
  | .clz o => o.gd.wf | .ctz o => o.gd.wf | .popc o => o.gd.wf | .brev o => o.gd.wf | .bswap o => o.gd.wf
  | .addi o => o.gd.wf | .andi o => o.gd.wf | .ori o => o.gd.wf | .xori o => o.gd.wf
  | .shli o => o.gd.wf && decide (o.imm.toNat ≤ 63)
  | .shri o => o.gd.wf && decide (o.imm.toNat ≤ 63)
  | .srai o => o.gd.wf && decide (o.imm.toNat ≤ 63)
  | .muli o => o.gd.wf
  | .lea gd _ _ _ _ => gd.wf
  | .cmp gd _ _ _ _ c => gd.wf && decide (c.toNat ≤ 8)
  | .cmpi gd _ _ _ c => gd.wf && decide (c.toNat ≤ 8)
  | .pand gd _ _ _ => gd.wf | .por gd _ _ _ => gd.wf | .pxor gd _ _ _ => gd.wf | .pandn gd _ _ _ => gd.wf
  | .pnot gd _ _ => gd.wf | .pmov gd _ _ => gd.wf | .pset gd _ => gd.wf | .pclr gd _ => gd.wf
  | .pget gd _ => gd.wf | .pput gd _ => gd.wf
  | .br gd _ _ => gd.wf | .call gd _ => gd.wf | .jmp gd _ => gd.wf | .callr gd _ => gd.wf | .ret gd => gd.wf
  | .push gd _ _ => gd.wf
  | .pop gd x b _ f => gd.wf && (x || b == 0) && decide (f.toNat ≤ 4)
  | .semp gd n _ => gd.wf && n != 0
  | .semw gd n _ => gd.wf && n != 0
  | .mark gd _ _ => gd.wf | .markWait gd _ _ => gd.wf | .rdvw gd _ _ _ => gd.wf
  | .bpop gd _ => gd.wf
  | .bget gd _ _ f => gd.wf && decide (f.toNat ≤ 13)
  | .bdone gd _ => gd.wf | .lease gd => gd.wf | .unlease gd => gd.wf | .leaseq gd _ => gd.wf
  | .exit gd => gd.wf | .exitA gd => gd.wf | .trap gd _ => gd.wf | .eret gd => gd.wf
  | .drain gd m => gd.wf && m != 0
  | .ld o => o.gd.wf && scopeOk o.sc && decide (o.sz.toNat ≤ 6)
  | .st o => o.gd.wf && scopeOk o.sc && decide (o.sz.toNat ≤ 3)
  | .amo o => o.gd.wf && scopeOk o.sc && decide (o.op.toNat ≤ 10) && (o.sz == 2 || (o.sz == 3 && o.op != 10))
  | .fence gd sc _ => gd.wf && scopeOk sc
  | .strel o => o.gd.wf && scopeOk o.sc && decide (o.sz.toNat ≤ 3)
  | .ldacq o => o.gd.wf && scopeOk o.sc && decide (o.sz.toNat ≤ 6)
  | .waitaddr o => o.gd.wf && scopeOk o.sc && decide (o.sz.toNat ≤ 6)
  | .waitaddrTimeout _ => true
  | .li gd _ _ => gd.wf | .lih gd _ _ => gd.wf | .brl gd _ _ => gd.wf | .addpc gd _ _ => gd.wf
  | .bfx gd _ _ pos len => gd.wf && decide (pos.toNat + len.toNat + 1 ≤ 64)
  | .bfxs gd _ _ pos len => gd.wf && decide (pos.toNat + len.toNat + 1 ≤ 64)
  | .bfi gd _ _ pos len => gd.wf && decide (pos.toNat + len.toNat + 1 ≤ 64)
  | .csrr gd _ n => gd.wf && csrDefined n
  | .csrw gd _ n => gd.wf && csrDefined n
  | .csrx gd _ _ n => gd.wf && csrDefined n
  | .csrs gd _ _ n => gd.wf && csrDefined n
  | .csrc gd _ _ n => gd.wf && csrDefined n
  | .tlbinvRange gd _ _ _ => gd.wf | .tlbinvAsid gd _ => gd.wf | .tlbinvAll gd => gd.wf
  | .hmk gd _ _ fmt rank _ _ => gd.wf && decide (fmt.toNat ≤ 20) && decide (1 ≤ rank.toNat) && decide (rank.toNat ≤ 4)
  | .hset gd _ sel _ => gd.wf && sel != 15
  | .hget gd _ _ sel => gd.wf && sel != 15
  | .hadv gd _ _ _ _ => gd.wf | .hsub gd _ _ _ => gd.wf | .hmov gd _ _ => gd.wf
  | .hld gd _ _ _ _ => gd.wf | .hst gd _ _ _ _ => gd.wf
  | .kickVe gd d _ _ n => gd.wf && decide (n.toNat ≤ 4) && decide (d.toNat + n.toNat ≤ 16)
  | .kickPx gd d _ _ n => gd.wf && decide (n.toNat ≤ 4) && decide (d.toNat + n.toNat ≤ 16)
  | .kickHl gd _ qs qp => gd.wf && tokenField [0, 1] qs && tokenField [] qp
  | .kickHs gd _ qs qp => gd.wf && tokenField [7] qs && tokenField [3] qp
  | .nest gd _ _ _ lvl => gd.wf && lvl != 0 && lvl != 7
  | .link gd _ _ _ => gd.wf
  | .scmdPmmg gd _ _ _ _ s _ => gd.wf && decide (s.toNat ≤ 11)
  | .scmdLk gd _ _ _ => gd.wf
  | .obsub gd _ _ => gd.wf | .seqstart gd _ _ _ _ => gd.wf | .seqstop gd _ => gd.wf | .seqwait gd _ => gd.wf
  | .seqstep gd _ _ => gd.wf
  | .rgndef gd _ _ _ => gd.wf
  | .rgnrd gd _ _ sel => gd.wf && decide (sel.toNat ≤ 4)
  | .rgnclr gd _ _ _ => gd.wf
  | .reuseq gd _ _ sel => gd.wf && decide (sel.toNat ≤ 12)
  | .reuseforce gd _ a all => gd.wf && (!all || a == 0)
  | .reuseset gd _ _ _ _ _ _ => gd.wf
  | .fqpop gd _ _ => gd.wf | .fqresume gd _ _ => gd.wf | .fqdrop gd _ _ => gd.wf
  | .rdvset gd _ _ _ => gd.wf
  | .semrd gd _ kind n => gd.wf && (match kind.toNat with
      | 0 => decide (n.toNat < 64) | 1 => true | 2 => decide (n.toNat < 4) | _ => decide (n.toNat < 8))
  | .semset gd _ _ kind n => gd.wf && (match kind.toNat with
      | 0 => decide (n.toNat < 64) | 1 => true | _ => false)
  | .scw gd _ _ sc _ => gd.wf && scopeOk sc
  | .scwTimeout _ => true
  | .scp gd _ _ sc _ => gd.wf && scopeOk sc
  | .phase gd _ _ _ => gd.wf | .pace gd _ _ _ => gd.wf | .quota gd _ _ => gd.wf
  | .popJob gd x b _ => gd.wf && (x || b == 0)
  | .pushDone gd _ => gd.wf
  | .lkaq gd _ _ _ _ n => gd.wf && decide (n.toNat ≤ 4096)
  | .lkaqOne gd _ _ _ _ => gd.wf
  | .lkdq gd _ => gd.wf
  | .lkddp gd _ _ _ n => gd.wf && decide (1 ≤ n.toNat) && decide (n.toNat ≤ 4096)
  | .lkpool gd b _ _ one _ => gd.wf && (!one || b == 0)
  | .lkput gd _ rm _ => gd.wf && decide (rm.toNat ≤ 6)
  | .lkputRow gd _ rm => gd.wf && decide (rm.toNat ≤ 6)
  | .kbag gd _ _ => gd.wf
  | .vadd o => o.c.wf | .vsub o => o.c.wf | .vmul o => o.c.wf | .vmin o => o.c.wf | .vmax o => o.c.wf
  | .vminz o => o.c.wf | .vmaxz o => o.c.wf | .vabs o => o.c.wf | .vneg o => o.c.wf
  | .vaddsat o => o.c.wf | .vsubsat o => o.c.wf | .vand o => o.c.wf | .vor o => o.c.wf | .vxor o => o.c.wf
  | .vshl o => o.c.wf | .vshr o => o.c.wf | .vsra o => o.c.wf | .vclz o => o.c.wf | .vpopc o => o.c.wf
  | .vrcp o => o.c.wf | .vrsq o => o.c.wf | .vsqrt o => o.c.wf | .vex2 o => o.c.wf | .vlg2 o => o.c.wf
  | .vsinp o => o.c.wf | .vcosp o => o.c.wf | .vsig o => o.c.wf | .verf o => o.c.wf
  | .vmov o => o.c.wf
  | .vsel c _ _ _ => c.wf | .vtrn c _ _ => c.wf | .vperm o => o.c.wf
  | .vbcl c _ _ _ => c.wf | .vbcs c _ _ => c.wf
  | .mpop c => c.wf | .minv c => c.wf | .mset c _ => c.wf | .mget c _ => c.wf
  | .vbrz c count => c.wf && count != 0
  | .vext c _ _ => c.wf | .vdiv o => o.c.wf
  | .vfma o => o.c.wf && decide (o.t.toNat ≤ 8) && o.rm != 7 && (!vtypeInt o.t || o.rm == 0)
  | .vfms o => o.c.wf && decide (o.t.toNat ≤ 8) && o.rm != 7 && (!vtypeInt o.t || o.rm == 0)
  | .vfnma o => o.c.wf && decide (o.t.toNat ≤ 8) && o.rm != 7 && (!vtypeInt o.t || o.rm == 0)
  | .vcmp c _ _ t cond => c.wf && decide (t.toNat ≤ 8)
      && (decide (cond.toNat ≤ 5) || (vtypeFp t && decide (cond.toNat ≤ 7)))
  | .vcvt c _ _ _ _ _ _ rm => c.wf && rm != 7
  | .vfsh c _ _ _ _ _ t _ => c.wf && vtypeInt t
  | .vred o => o.c.wf && (match o.op.toNat with
      | 0 | 1 | 2 | 3 => decide (o.t.toNat ≤ 8) && o.vc == 0 && o.bw == 0
      | 4 | 5 => o.vc != o.vd && o.bw == 0
      | 6 => o.vc == 0 && o.bw != 3
      | _ => false)
  | .vscan o => o.c.wf && o.vc == 0 && (match o.op.toNat with
      | 0 | 1 | 2 | 3 => decide (o.t.toNat ≤ 8) && o.bw == 0
      | 6 => o.bw != 3
      | _ => false)
  | .vshape c t imm => c.wf
      && decide ((imm.toNat % 64 + 1) * (imm.toNat / 64 + 1) * vtypeBits t ≤ 4096)
  | .vqblk c vd _ vc t s rm => c.wf && decide (9 ≤ t.toNat) && decide (t.toNat ≤ 13) && vtypeFp s && vc != vd && rm != 7
  | .viota c _ _ t kind => c.wf && decide (t.toNat ≤ 7) && kind != 3
  | .vli c _ _ _ => c.wf
  | .vsprSet c _ _ => c.wf | .vsprShift c _ => c.wf | .vrrbSet c _ => c.wf | .vrrbAdd c _ => c.wf
  | .vld o => o.c.wf | .vst o => o.c.wf | .vldu o => o.c.wf
  | .vstb o => o.c.wf && !o.m
  | .vgth o => o.c.wf | .vsct o => o.c.wf | .vsca o => o.c.wf | .vldl o => o.c.wf | .vstl o => o.c.wf
  | .vlda c _ _ s _ _ => c.wf && decide (s.toNat ≤ 11)
  | .blk lvl len _ _ rep => lvl != 7 && len != 0 && (lvl == 0 || rep == 0)
  | .pmm c slot _ _ _ _ => c.wf && decide (slot.toNat ≤ 11)
  | .pmmg c slot _ _ _ _ _ => c.wf && decide (slot.toNat ≤ 11)
  | .pres c slot _ rm _ _ _ => c.wf && decide (slot.toNat ≤ 11) && rm != 7
  | .prel c slot => c.wf && decide (slot.toNat ≤ 11)
  | .pstr c slot _ => c.wf && decide (slot.toNat ≤ 11)
  | .pldr c slot _ _ _ => c.wf && decide (slot.toNat ≤ 11)
  | .pscl c slot _ => c.wf && decide (slot.toNat ≤ 11)
  | .padd c slot src _ _ => c.wf && decide (slot.toNat ≤ 11) && decide (src.toNat ≤ 11)
  | .gatheredCommand _ => true
  | .hcpy h src dst rm _ _ => h.wf && src.wf && dst.wf && rm != 7
  | .hcpyd h src dst rm _ _ rgn => h.wf && src.wf && dst.wf && rm != 7 && rgn != 0x3FF
  | .hmcs h key dst rm _ => h.wf && key.wf && dst.wf && rm != 7
  | .hmsrc h src count _ => h.wf && src.wf && decide (1 ≤ count.toNat) && decide (count.toNat ≤ 256)
  | .hfill h _ dst _ => h.wf && dst.wf
  | .hgath h table dst rm _ _ => h.wf && table.wf && dst.wf && rm != 7
  | .hhalo h src dst rm _ _ => h.wf && src.wf && dst.wf && rm != 7 && (h.sc == 3 || h.sc == 4)
  | .hwait h => h.wf && h.we
  | .hpost h _ => h.wf && h.pe
  | .hlink h next => h.wf && next.toNat % 64 == 0
  | .htile h event dtile => h.wf && decide (event.toNat ≤ 3) && dtile != 0xFFF
  | .hend h => h.wf
  | .hodChainStart _ _ => true | .hodPost _ _ => true | .engineDequeue _ _ => true | .blockRaise _ _ => true
  | .tokenPush _ _ => true | .pacingGapExpiry _ _ => true | .markerComplete _ _ => true
  | .storeAck _ => true | .postApply _ => true | .leaseRelease _ => true | .brickRetire _ _ => true
  | .dependencyZero _ _ _ => true | .brickPlacement _ => true | .dispatchSelection _ => true
  | .idleCoreStart _ => true | .stepBoundary _ => true | .rendezvousTimeout _ => true | .regionDelivery _ => true
  | .brickOverrun _ _ => true | .contextSuspended _ => true
  | .create _ => true | .suspend _ => true | .resume _ => true | .destroy _ => true
  | .launchObsub _ => true | .launchSeqstart _ _ _ => true | .launchSeqstop _ => true | .launchSeqstep _ => true
  | .preemptionGo _ => true | .hardPreemption _ => true | .lookupAssign _ _ => true
  | .rowFetchIssue _ => true | .rowArrival _ _ => true | .kbagReply _ => true
  | .capacityDirectoryWrite _ _ _ => true | .queuePairWrite _ _ _ => true | .weightCommit _ => true
  | .quotaGrant _ _ => true | .watchdogPet => true | .fallbackForce => true | .watchdogExpiry => true
  | .registerWrite _ _ _ => true | .checkpoint => true | .checkpointComplete => true | .restore => true
  | .powerOnReset => true | .moduleReset => true | .firmwareRecovery _ _ => true | .attestationReport _ => true
  | .hofLoad _ _ => true | .spareTakeover _ => true | .refillBoundary => true | .clampEnd _ => true
  | .burstDeclarationExpiry _ => true | .thermalTrip => true | .thermalTripEnd => true | .signatureRotation => true
  | .l1SectorExpiry _ _ => true | .signatureSlotExpiry _ _ => true | .scrub _ _ => true
  | .flitRead _ _ _ => true | .flitWrite _ _ _ _ _ => true | .flitAtomic _ _ _ _ _ _ => true | .flitResponse _ _ _ _ => true
  | .postFlit _ _ _ _ _ _ => true | .haloFlit _ _ _ _ _ _ _ _ _ => true | .rendezvousFlit _ _ _ _ => true
  | .timeFlit _ _ => true | .linkControlFlit _ _ => true | .flitReservedType _ _ => true | .flitReplay _ _ => true
  | .laneSparing _ _ => true | .nodeUnreachable _ => true | .timeOutOfBound => true
  | .rdmaWrite _ _ _ _ => true | .rdmaWriteWithImmediate _ _ _ _ _ => true | .rdmaRead _ _ _ _ => true
  | .send _ _ => true | .sendWithImmediate _ _ _ => true | .fetchAdd _ _ _ _ => true | .compareSwap _ _ _ _ _ => true
  | .invalidRequest _ => true | .roceAcknowledgement _ => true | .rdmaReadResponse _ _ => true
  | .hardwareError _ => true | .powerLoss => true | .firmwareUpdate _ _ _ => true | .requesterError _ => true
  | .priorityFlowControl _ _ _ => true | .congestionNotification _ => true | .healthStoreFlush => true
  | .ageingMonitor _ _ _ => true

end Sys2Proof
end

