-- ==== Sys2Proof/Decode.lean ====
section
/-! DEFINITION. Decoding and encoding (04_encoding_and_opcode_map.md R72-R97). An instruction is one form of a
stream; a form is a record of bit fields, in the places R80-R96 give them. Decoding reads the fields, names the
instruction by its major and sub-code, and accepts it only when every field the instruction does not use is zero (its
own encoding gives the same fields back) and every field limit holds (`Instr.wf`). Everything else is rejected by the
name of the fault that R97 gives the stream. -/

namespace Sys2Proof

/-- The kinds of stream (R73). -/
inductive Stream where
  | cc | lk | ve | px
  deriving DecidableEq, Repr

/-- Why a decoder gives no instruction: the fault names of R97, or too few bytes. -/
inductive Reject where
  | illop | engill | hodill | short
  deriving DecidableEq, Repr

/-- 16-bit form (R80). -/
structure F16 where
  op5 : BitVec 5
  d : BitVec 5
  a : BitVec 5
  deriving DecidableEq, Repr

/-- 32-bit control-core forms (R81); Imm, CmpImm and Branch join fields of Reg. -/
structure F32 where
  x : BitVec 1
  b : BitVec 5
  a : BitVec 5
  d : BitVec 5
  maj : BitVec 6
  g : BitVec 3
  gn : BitVec 1
  f : BitVec 4
  deriving DecidableEq, Repr

/-- 48-bit control-core forms (R84); Mem, Atomic and Const join fields of Ext. -/
structure F48 where
  imm : BitVec 16
  x : BitVec 1
  b : BitVec 5
  a : BitVec 5
  d : BitVec 5
  maj : BitVec 6
  g : BitVec 3
  gn : BitVec 1
  f : BitVec 4
  deriving DecidableEq, Repr

/-- Vec form (R87). -/
structure V32 where
  m : BitVec 1
  vb : BitVec 5
  va : BitVec 5
  vd : BitVec 5
  maj : BitVec 6
  tk : BitVec 3
  stg : BitVec 3
  fl : BitVec 2
  deriving DecidableEq, Repr

/-- VecLong and VecMem forms (R87): `imm` is AUX, RM, T, VC or imm11, VB; CLS and HS stand in VB and VA. -/
structure V48 where
  imm : BitVec 16
  m : BitVec 1
  vb : BitVec 5
  va : BitVec 5
  vd : BitVec 5
  maj : BitVec 6
  tk : BitVec 3
  stg : BitVec 3
  fl : BitVec 2
  deriving DecidableEq, Repr

/-- Press form (R91). -/
structure P48 where
  imm : BitVec 16
  aux : BitVec 6
  hc : BitVec 2
  hb : BitVec 2
  ha : BitVec 2
  slot : BitVec 4
  maj : BitVec 6
  tk : BitVec 3
  stg : BitVec 3
  fl : BitVec 2
  deriving DecidableEq, Repr

/-- Block header (R92). -/
structure B48 where
  rep : BitVec 10
  raise : BitVec 6
  await : BitVec 6
  len : BitVec 10
  lvl : BitVec 3
  z : BitVec 5
  deriving DecidableEq, Repr

/-- Hod entry (R93), its flags split as R94 gives them and its tail as R96. -/
structure HEntry where
  op : BitVec 8
  z7 : BitVec 1
  sc : BitVec 3
  pk : BitVec 1
  wk : BitVec 1
  pe : BitVec 1
  we : BitVec 1
  wctr : BitVec 8
  pctr : BitVec 8
  wval : BitVec 16
  pamt : BitVec 16
  src : BitVec 192
  dst : BitVec 192
  stile : BitVec 12
  dtile : BitVec 12
  rm : BitVec 3
  rgn : BitVec 10
  z : BitVec 27
  deriving DecidableEq, Repr

/-! ## Words of the forms -/

/-- Joined fields, the most significant first, as a vector of the width their widths add up to. -/
abbrev cat {n w : Nat} (x : BitVec n) (h : n = w := by rfl) : BitVec w := x.cast h


def F16.word (y : F16) : BitVec 16 :=
  cat (0#1 ++ y.op5 ++ y.d ++ y.a)
def F16.of (w : BitVec 16) : F16 := ⟨fld w 10 5, fld w 5 5, fld w 0 5⟩

def F32.word (y : F32) : BitVec 32 :=
  cat (y.x ++ y.b ++ y.a ++ y.d ++ 0b10#2 ++ y.maj ++ y.g ++ y.gn ++ y.f)
def F32.of (w : BitVec 32) : F32 :=
  ⟨fld w 31 1, fld w 26 5, fld w 21 5, fld w 16 5, fld w 8 6, fld w 5 3, fld w 4 1, fld w 0 4⟩

def F48.word (y : F48) : BitVec 48 :=
  cat (y.imm ++ y.x ++ y.b ++ y.a ++ y.d ++ 0b11#2 ++ y.maj ++ y.g ++ y.gn ++ y.f)
def F48.of (w : BitVec 48) : F48 :=
  ⟨fld w 32 16, fld w 31 1, fld w 26 5, fld w 21 5, fld w 16 5, fld w 8 6, fld w 5 3, fld w 4 1, fld w 0 4⟩

def V32.word (y : V32) : BitVec 32 :=
  cat (y.m ++ y.vb ++ y.va ++ y.vd ++ 0b10#2 ++ y.maj ++ y.tk ++ y.stg ++ y.fl)
def V32.of (w : BitVec 32) : V32 :=
  ⟨fld w 31 1, fld w 26 5, fld w 21 5, fld w 16 5, fld w 8 6, fld w 5 3, fld w 2 3, fld w 0 2⟩

def V48.word (y : V48) : BitVec 48 :=
  cat (y.imm ++ y.m ++ y.vb ++ y.va ++ y.vd ++ 0b11#2 ++ y.maj ++ y.tk ++ y.stg ++ y.fl)
def V48.of (w : BitVec 48) : V48 :=
  ⟨fld w 32 16, fld w 31 1, fld w 26 5, fld w 21 5, fld w 16 5, fld w 8 6, fld w 5 3, fld w 2 3, fld w 0 2⟩

def P48.word (y : P48) : BitVec 48 :=
  cat (y.imm ++ y.aux ++ y.hc ++ y.hb ++ y.ha ++ y.slot ++ 0b11#2 ++ y.maj ++ y.tk ++ y.stg ++ y.fl)
def P48.of (w : BitVec 48) : P48 :=
  ⟨fld w 32 16, fld w 26 6, fld w 24 2, fld w 22 2, fld w 20 2, fld w 16 4, fld w 8 6, fld w 5 3, fld w 2 3,
    fld w 0 2⟩

def B48.word (y : B48) : BitVec 48 :=
  cat (y.rep ++ y.raise ++ y.await ++ y.len ++ 0b11#2 ++ 0x3E#6 ++ y.lvl ++ y.z)
def B48.of (w : BitVec 48) : B48 := ⟨fld w 38 10, fld w 32 6, fld w 26 6, fld w 16 10, fld w 5 3, fld w 0 5⟩

def HEntry.word (y : HEntry) : BitVec 512 :=
  cat (y.z ++ y.rgn ++ y.rm ++ y.dtile ++ y.stile ++ y.dst ++ y.src ++ y.pamt ++ y.wval ++ y.pctr ++ y.wctr
    ++ y.z7 ++ y.sc ++ y.pk ++ y.wk ++ y.pe ++ y.we ++ y.op)
def HEntry.of (w : BitVec 512) : HEntry :=
  { op := fld w 0 8, we := fld w 8 1, pe := fld w 9 1, wk := fld w 10 1, pk := fld w 11 1, sc := fld w 12 3,
    z7 := fld w 15 1, wctr := fld w 16 8, pctr := fld w 24 8, wval := fld w 32 16, pamt := fld w 48 16,
    src := fld w 64 192, dst := fld w 256 192, stile := fld w 448 12, dtile := fld w 460 12, rm := fld w 472 3,
    rgn := fld w 475 10, z := fld w 485 27 }

/-! ## Descriptors (R95, R294) -/

def Desc.word (y : Desc) : BitVec 192 :=
  cat (0#8 ++ y.stride2 ++ y.stride1 ++ y.stride0 ++ y.size2 ++ y.size1 ++ y.size0 ++ 0#5 ++ y.rank ++ y.fmt ++ y.base)
def Desc.of (w : BitVec 192) : Desc :=
  ⟨fld w 0 52, fld w 52 5, fld w 57 2, fld w 64 16, fld w 80 16, fld w 96 16, fld w 112 24, fld w 136 24,
    fld w 160 24⟩
/-- The scalar form of R294, which holds a value or an address. -/
def Desc.scalar (v : BitVec 52) : Desc := ⟨v, 0, 1, 1, 0, 0, 0, 0, 0⟩

/-! ## Small field helpers -/

/-- A one-bit field read as a truth value. -/
abbrev bit (v : BitVec 1) : Bool := v == 1#1
/-- A truth value as a one-bit field. -/
abbrev bool (c : Bool) : BitVec 1 := if c then 1#1 else 0#1

def F32.gd (y : F32) : Guard := ⟨y.g, bit y.gn⟩
def F48.gd (y : F48) : Guard := ⟨y.g, bit y.gn⟩
def V32.vcom (y : V32) : VCom := ⟨y.tk, y.stg, y.fl⟩
def V48.vcom (y : V48) : VCom := ⟨y.tk, y.stg, y.fl⟩
def P48.vcom (y : P48) : VCom := ⟨y.tk, y.stg, y.fl⟩
def F32.reg (y : F32) : RegOp := ⟨y.gd, bit y.x, y.d, y.a, y.b⟩
def F32.un (y : F32) : UnOp := ⟨y.gd, bit y.x, y.d, y.a⟩
def F32.immOp (y : F32) : ImmOp := ⟨y.gd, y.d, y.a, cat (y.x ++ y.b ++ y.f)⟩
def F32.rel16 (y : F32) : BitVec 16 := cat (y.x ++ y.b ++ y.a ++ y.d)
def F48.mem (y : F48) : MemOp := ⟨y.gd, y.d, y.a, y.imm, cat (y.x ++ fld y.b 3 2), fld y.b 0 3, y.f⟩
def F48.atom (y : F48) : AtomOp :=
  ⟨y.gd, y.d, y.a, fld y.imm 0 5, fld y.imm 9 7, fld y.imm 5 4, cat (y.x ++ fld y.b 3 2), fld y.b 0 3, y.f⟩
def F48.imm27 (y : F48) : BitVec 27 := cat (y.imm ++ y.x ++ y.b ++ y.a)
/-- Four-bit handle register of a five-bit field. -/
abbrev hreg (v : BitVec 5) : BitVec 4 := fld v 0 4

/-! ## 16-bit decoding (R80) -/

def F16.instr (y : F16) : Option Instr :=
  match y.op5.toNat with
  | 0 => some (.ill y.d y.a)
  | 1 => some .nop
  | 2 => some (.mov y.d y.a)
  | 3 => some (.addC y.d y.a)
  | 4 => some (.subC y.d y.a)
  | 5 => some (.addiC y.d y.a)
  | 6 => some (.liC y.d y.a)
  | 7 => some (.shliC y.d y.a)
  | 8 => some (.shriC y.d y.a)
  | 9 => some (.andC y.d y.a)
  | 10 => some (.orC y.d y.a)
  | 11 => some (.xorC y.d y.a)
  | 12 => some (.brs (cat (y.d ++ y.a)))
  | 13 => some (.brp (fld y.d 0 3) y.a)
  | 14 => some .retC
  | _ => none

/-! ## 32-bit control-core decoding (R83, R86, R276-R289, R306, R437) -/

def F32.alu0 (y : F32) : Option Instr :=
  match y.f.toNat with
  | 0 => some (.add y.reg) | 1 => some (.sub y.reg) | 2 => some (.and y.reg) | 3 => some (.or y.reg)
  | 4 => some (.xor y.reg) | 5 => some (.andn y.reg) | 6 => some (.shl y.reg) | 7 => some (.shr y.reg)
  | 8 => some (.sra y.reg) | 9 => some (.rol y.reg) | 10 => some (.min y.reg) | 11 => some (.max y.reg)
  | 12 => some (.minz y.reg) | 13 => some (.maxz y.reg) | 14 => some (.absd y.reg)
  | _ => none

def F32.alu1 (y : F32) : Option Instr :=
  match y.f.toNat with
  | 0 => some (.mul y.reg) | 1 => some (.mulh y.reg) | 2 => some (.mulhz y.reg) | 3 => some (.div y.reg)
  | 4 => some (.divz y.reg) | 5 => some (.rem y.reg) | 6 => some (.remz y.reg) | 7 => some (.clz y.un)
  | 8 => some (.ctz y.un) | 9 => some (.popc y.un) | 10 => some (.brev y.un) | 11 => some (.bswap y.un)
  | _ => none

def F32.plog (y : F32) : Option Instr :=
  let d := fld y.d 0 3; let a := fld y.a 0 3; let b := fld y.b 0 3
  match y.f.toNat with
  | 0 => some (.pand y.gd d a b) | 1 => some (.por y.gd d a b) | 2 => some (.pxor y.gd d a b)
  | 3 => some (.pandn y.gd d a b) | 4 => some (.pnot y.gd d a) | 5 => some (.pmov y.gd d a)
  | 6 => some (.pset y.gd d) | 7 => some (.pclr y.gd d)
  | _ => none

/-- The majors both kinds of core decode alike. -/
def F32.shared (y : F32) : Option Instr :=
  match y.maj.toNat with
  | 0x00 => y.alu0
  | 0x01 => y.alu1
  | 0x02 => some (.addi y.immOp) | 0x03 => some (.andi y.immOp) | 0x04 => some (.ori y.immOp)
  | 0x05 => some (.xori y.immOp) | 0x06 => some (.shli y.immOp) | 0x07 => some (.shri y.immOp)
  | 0x08 => some (.srai y.immOp) | 0x09 => some (.muli y.immOp)
  | 0x0A => some (.lea y.gd y.d y.a y.b y.f)
  | 0x0B => some (.cmp y.gd (bit y.x) (fld y.d 0 3) y.a y.b y.f)
  | 0x0C => some (.cmpi y.gd (fld y.d 0 3) y.a (cat (y.x ++ y.b)) y.f)
  | 0x0D => y.plog
  | 0x0E => match y.f.toNat with
    | 0 => some (.pget y.gd y.d) | 1 => some (.pput y.gd y.a) | _ => none
  | 0x0F => some (.br y.gd y.rel16 (bit (fld y.f 0 1)))
  | 0x10 => some (.call y.gd y.rel16)
  | 0x11 => match y.f.toNat with
    | 0 => some (.jmp y.gd y.a) | 1 => some (.callr y.gd y.a) | 2 => some (.ret y.gd) | _ => none
  | 0x1C => match y.f.toNat with
    | 0 => some (.exit y.gd) | 1 => some (.exitA y.gd) | _ => none
  | 0x1D => some (.trap y.gd (cat (y.x ++ y.b ++ y.f)))
  | 0x1E => some (.eret y.gd)
  | _ => none

/-- The majors a control core alone decodes (R86, R276, R277, 20_sync_counters.md). -/
def F32.ccOnly (y : F32) : Option Instr :=
  match y.maj.toNat with
  | 0x12 => some (.push y.gd (bit (fld y.f 0 1)) y.a)
  | 0x13 => some (.pop y.gd (bit y.x) (fld y.b 0 3) y.d y.f)
  | 0x14 => some (.semp y.gd (cat (fld y.f 0 1 ++ y.d)) y.a)
  | 0x15 => some (.semw y.gd (cat (fld y.f 0 1 ++ y.d)) y.a)
  | 0x16 => if bit (fld y.f 2 1) then some (.markWait y.gd y.a (fld y.f 0 2)) else some (.mark y.gd y.d (fld y.f 0 2))
  | 0x17 => some (.rdvw y.gd y.d y.a (fld y.f 0 3))
  | 0x18 => some (.bpop y.gd y.d)
  | 0x19 => some (.bget y.gd y.d y.a y.f)
  | 0x1A => some (.bdone y.gd y.a)
  | 0x1B => match y.f.toNat with
    | 0 => some (.lease y.gd) | 1 => some (.unlease y.gd) | 2 => some (.leaseq y.gd y.d) | _ => none
  | 0x1F => some (.drain y.gd y.f)
  | _ => none

/-- The selectors of PUSH and POP on a lookup core (R306). -/
def F32.lkOnly (y : F32) : Option Instr :=
  match y.maj.toNat, y.f.toNat with
  | 0x12, 0 => some (.pushDone y.gd y.a)
  | 0x13, 0 => some (.popJob y.gd (bit y.x) (fld y.b 0 3) y.d)
  | 0x13, 1 => some (.pop y.gd (bit y.x) (fld y.b 0 3) y.d 1)
  | _, _ => none

/-! ## 48-bit control-core decoding (R85, and the home entries of each) -/

def F48.shared (y : F48) : Option Instr :=
  match y.maj.toNat with
  | 0x00 => some (.ld y.mem)
  | 0x01 => some (.st y.mem)
  | 0x02 => some (.amo y.atom)
  | 0x03 => some (.fence y.gd (cat (y.x ++ fld y.b 3 2)) y.imm)
  | 0x04 => some (.strel y.mem)
  | 0x05 => some (.ldacq y.mem)
  | 0x06 => some (.waitaddr y.mem)
  | 0x07 => match y.f.toNat with
    | 0 => some (.li y.gd y.d y.imm27) | 1 => some (.lih y.gd y.d y.imm27) | _ => none
  | 0x08 => some (.brl y.gd (cat (y.imm ++ y.x ++ y.b ++ y.a ++ y.d)) (bit (fld y.f 0 1)))
  | 0x09 => some (.addpc y.gd y.d y.imm27)
  | 0x0A => if bit (fld y.imm 12 1) then some (.bfxs y.gd y.d y.a (fld y.imm 0 6) (fld y.imm 6 6))
    else some (.bfx y.gd y.d y.a (fld y.imm 0 6) (fld y.imm 6 6))
  | 0x0B => some (.bfi y.gd y.d y.a (fld y.imm 0 6) (fld y.imm 6 6))
  | 0x0C => match y.f.toNat with
    | 0 => some (.csrr y.gd y.d (fld y.imm 0 12)) | 1 => some (.csrw y.gd y.a (fld y.imm 0 12))
    | 2 => some (.csrx y.gd y.d y.a (fld y.imm 0 12)) | 3 => some (.csrs y.gd y.d y.a (fld y.imm 0 12))
    | 4 => some (.csrc y.gd y.d y.a (fld y.imm 0 12)) | _ => none
  | 0x0D => match y.f.toNat with
    | 0 => some (.tlbinvRange y.gd y.a y.b y.imm) | 1 => some (.tlbinvAsid y.gd y.b) | 2 => some (.tlbinvAll y.gd)
    | _ => none
  | 0x10 => some (.hmk y.gd (hreg y.d) y.a (fld y.imm 0 5) (fld y.imm 5 3) (fld y.imm 8 4) (bit (fld y.imm 12 1)))
  | 0x11 => some (.hset y.gd (hreg y.d) (fld y.imm 0 4) y.a)
  | 0x12 => some (.hget y.gd y.d (hreg y.a) (fld y.imm 0 4))
  | 0x13 => some (.hadv y.gd (hreg y.d) (hreg y.a) y.b (fld y.imm 0 2))
  | 0x14 => some (.hsub y.gd (hreg y.d) (hreg y.a) y.b)
  | 0x15 => some (.hmov y.gd (hreg y.d) (hreg y.a))
  | 0x16 => some (.hld y.gd (hreg y.d) y.a y.imm y.f)
  | 0x17 => some (.hst y.gd (hreg y.d) y.a y.imm y.f)
  | 0x20 => some (.obsub y.gd y.d y.a)
  | 0x21 => match y.f.toNat with
    | 0 => some (.seqstart y.gd y.d y.a y.b (bit (fld y.imm 0 1))) | 1 => some (.seqstop y.gd y.d)
    | 2 => some (.seqwait y.gd y.d) | 3 => some (.seqstep y.gd y.d y.a) | _ => none
  | 0x22 => match y.f.toNat with
    | 0 => some (.rgndef y.gd y.d y.a y.b) | 1 => some (.rgnrd y.gd y.d y.b (fld y.imm 0 4))
    | 2 => some (.rgnclr y.gd y.d y.b (bit (fld y.imm 0 1))) | _ => none
  | 0x23 => match y.f.toNat with
    | 0 => some (.reuseq y.gd y.d y.a (fld y.imm 0 4)) | 1 => some (.reuseforce y.gd y.d y.a (bit (fld y.imm 0 1)))
    | 2 => some (.reuseset y.gd y.d y.a y.b (fld y.imm 0 8) (bit (fld y.imm 8 1)) (bit (fld y.imm 9 1)))
    | _ => none
  | 0x24 => match y.f.toNat with
    | 0 => some (.fqpop y.gd y.d y.a) | 1 => some (.fqresume y.gd y.d y.a) | 2 => some (.fqdrop y.gd y.d y.a)
    | _ => none
  | 0x2C => some (.scp y.gd y.a y.b (fld y.imm 8 3) (fld y.imm 0 8))
  | 0x30 => some (.phase y.gd y.a y.b (fld y.imm 0 4))
  | 0x32 => some (.quota y.gd y.d (fld y.imm 0 2))
  | _ => none

def F48.ccOnly (y : F48) : Option Instr :=
  match y.maj.toNat with
  | 0x18 => match y.f.toNat with
    | 0 => some (.kickVe y.gd (hreg y.d) y.a (fld y.imm 6 10) (fld y.imm 0 3))
    | 1 => some (.kickPx y.gd (hreg y.d) y.a (fld y.imm 6 10) (fld y.imm 0 3))
    | 2 => some (.kickHl y.gd y.a (fld y.imm 10 4) (fld y.imm 6 4))
    | 3 => some (.kickHs y.gd y.a (fld y.imm 10 4) (fld y.imm 6 4))
    | _ => none
  | 0x19 => match y.f.toNat with
    | 0 => some (.nest y.gd false y.a y.b (fld y.imm 0 3)) | 1 => some (.nest y.gd true y.a y.b (fld y.imm 0 3))
    | _ => none
  | 0x1A => match y.f.toNat with
    | 0 => some (.link y.gd false y.a y.b) | 1 => some (.link y.gd true y.a y.b) | _ => none
  | 0x1B => match y.f.toNat with
    | 0 => some (.scmdPmmg y.gd (hreg y.d) (hreg y.a) (hreg y.b) (bit y.x) (fld y.imm 10 4) (fld y.imm 0 10))
    | 1 => some (.scmdLk y.gd y.a y.b (fld y.imm 0 8)) | _ => none
  | 0x28 => some (.rdvset y.gd y.d y.a (fld y.imm 0 3))
  | 0x29 => some (.semrd y.gd y.d (fld y.imm 8 2) (fld y.imm 0 8))
  | 0x2A => some (.semset y.gd y.d y.a (fld y.imm 8 2) (fld y.imm 0 8))
  | 0x2B => some (.scw y.gd y.d y.a (fld y.imm 8 3) (fld y.imm 0 8))
  | 0x31 => some (.pace y.gd y.d y.a (fld y.imm 0 4))
  | _ => none

def F48.lkOnly (y : F48) : Option Instr :=
  match y.maj.toNat with
  | 0x38 => if bit (fld y.f 1 1) then some (.lkaqOne y.gd y.d (hreg y.a) y.b (bit (fld y.f 0 1)))
    else some (.lkaq y.gd y.d (hreg y.a) y.b (bit (fld y.f 0 1)) (fld y.imm 0 13))
  | 0x39 => some (.lkdq y.gd y.d)
  | 0x3A => some (.lkddp y.gd y.d y.a y.b (fld y.imm 0 13))
  | 0x3B => some (.lkpool y.gd y.b (fld y.imm 0 4) (bit (fld y.imm 4 1)) (bit (fld y.imm 5 1)) (bit (fld y.imm 6 1)))
  | 0x3C => if bit y.x then some (.lkputRow y.gd (hreg y.a) y.f)
    else some (.lkput y.gd (hreg y.a) y.f (fld y.imm 0 4))
  | 0x3D => some (.kbag y.gd y.a (fld y.imm 0 8))
  | _ => none

/-- CSR numbers a lookup core does not have (R124). -/
def lkCsr (n : BitVec 12) : Bool := decide (n.toNat < 0x30) || n == 0xC0

/-- Instructions that name a CSR a lookup core lacks are undefined there (R124). -/
def Instr.lkOk : Instr → Bool
  | .csrr _ _ n => lkCsr n | .csrw _ _ n => lkCsr n | .csrx _ _ _ n => lkCsr n
  | .csrs _ _ _ n => lkCsr n | .csrc _ _ _ n => lkCsr n
  | _ => true

/-! ## Vector-engine decoding (R88-R90) -/

def V32.bin (y : V32) : VBin := ⟨y.vcom, bit y.m, y.vd, y.va, y.vb⟩
def V32.un (y : V32) : VUn := ⟨y.vcom, bit y.m, y.vd, y.va⟩

def V32.instr (y : V32) : Option Instr :=
  match y.maj.toNat with
  | 0x00 => some (.vadd y.bin) | 0x01 => some (.vsub y.bin) | 0x02 => some (.vmul y.bin) | 0x03 => some (.vmin y.bin)
  | 0x04 => some (.vmax y.bin) | 0x05 => some (.vminz y.bin) | 0x06 => some (.vmaxz y.bin) | 0x07 => some (.vabs y.un)
  | 0x08 => some (.vneg y.un) | 0x09 => some (.vaddsat y.bin) | 0x0A => some (.vsubsat y.bin)
  | 0x0B => some (.vand y.bin) | 0x0C => some (.vor y.bin) | 0x0D => some (.vxor y.bin) | 0x0E => some (.vshl y.bin)
  | 0x0F => some (.vshr y.bin) | 0x10 => some (.vsra y.bin) | 0x11 => some (.vclz y.un) | 0x12 => some (.vpopc y.un)
  | 0x13 => some (.vrcp y.un) | 0x14 => some (.vrsq y.un) | 0x15 => some (.vsqrt y.un) | 0x16 => some (.vex2 y.un)
  | 0x17 => some (.vlg2 y.un) | 0x18 => some (.vsinp y.un) | 0x19 => some (.vcosp y.un) | 0x1A => some (.vsig y.un)
  | 0x1B => some (.verf y.un) | 0x1C => some (.vmov y.un)
  | 0x1D => some (.vsel y.vcom y.vd y.va y.vb)
  | 0x1E => some (.vtrn y.vcom y.vd y.va)
  | 0x1F => some (.vperm y.bin)
  | 0x20 => some (.vbcl y.vcom (bit y.m) y.vd (hreg y.va))
  | 0x21 => some (.vbcs y.vcom (bit y.m) y.vd)
  | 0x22 => some (.mpop y.vcom) | 0x23 => some (.minv y.vcom)
  | 0x24 => some (.mset y.vcom y.va) | 0x25 => some (.mget y.vcom y.vd)
  | 0x26 => some (.vbrz y.vcom y.vd)
  | 0x27 => some (.vext y.vcom y.va (cat (y.vd ++ y.vb)))
  | 0x28 => some (.vdiv y.bin)
  | _ => none

def V48.aux (y : V48) : BitVec 4 := fld y.imm 12 4
def V48.rm (y : V48) : BitVec 3 := fld y.imm 9 3
def V48.t (y : V48) : BitVec 4 := fld y.imm 5 4
def V48.vc (y : V48) : BitVec 5 := fld y.imm 0 5
def V48.fma (y : V48) : VFma := ⟨y.vcom, bit y.m, y.vd, y.va, y.vb, y.vc, y.t, y.rm⟩
def V48.fold (y : V48) : VFold :=
  ⟨y.vcom, bit y.m, y.vd, y.va, y.vc, y.t, fld y.imm 12 3, bit (fld y.imm 15 1), fld y.vb 0 2⟩
def V48.memOp (y : V48) : VMem :=
  ⟨y.vcom, bit y.m, y.vd, fld y.va 0 2, cat (fld y.vb 0 1 ++ fld y.va 2 3), fld y.imm 5 11⟩
def V48.memX (y : V48) : VMemX :=
  ⟨y.vcom, bit y.m, y.vd, fld y.va 0 2, cat (fld y.vb 0 1 ++ fld y.va 2 3), fld y.imm 5 11, y.vc⟩

def V48.instr (y : V48) : Option Instr :=
  match y.maj.toNat with
  | 0x00 => some (.vfma y.fma) | 0x01 => some (.vfms y.fma) | 0x02 => some (.vfnma y.fma)
  | 0x03 => some (.vcmp y.vcom y.va y.vb y.t y.aux)
  | 0x04 => some (.vcvt y.vcom (bit y.m) y.vd y.va (bit (fld y.vb 0 1)) y.t y.aux y.rm)
  | 0x05 => some (.vfsh y.vcom (bit y.m) y.vd y.va y.vb y.vc y.t (bit (fld y.imm 12 1)))
  | 0x06 => some (.vred y.fold) | 0x07 => some (.vscan y.fold)
  | 0x08 => some (.vld y.memOp) | 0x09 => some (.vldu y.memOp) | 0x0A => some (.vgth y.memX)
  | 0x0B => some (.vldl y.memX)
  | 0x0C => some (.vlda y.vcom (bit y.m) y.vd (fld y.imm 5 4) (fld y.imm 9 7) (fld y.va 0 2))
  | 0x0D => some (.vst y.memOp) | 0x0E => some (.vstb y.memX) | 0x0F => some (.vsct y.memX)
  | 0x10 => some (.vsca y.memX) | 0x11 => some (.vstl y.memX)
  | 0x12 => some (.vshape y.vcom (hreg y.vd) (fld y.imm 0 15))
  | 0x13 => some (.vqblk y.vcom y.vd y.va y.vc y.t y.aux y.rm)
  | 0x14 => some (.viota y.vcom (bit y.m) y.vd y.t (fld y.imm 12 2))
  | 0x15 => some (.vli y.vcom (bit y.m) y.vd y.imm)
  | 0x16 => if bit (fld y.imm 15 1) then some (.vsprShift y.vcom (bit (fld y.imm 0 1)))
    else some (.vsprSet y.vcom (fld y.imm 8 7) (fld y.imm 0 7))
  | 0x17 => if bit (fld y.imm 4 1) then some (.vrrbAdd y.vcom (fld y.imm 0 4))
    else some (.vrrbSet y.vcom (fld y.imm 0 4))
  | _ => none

/-! ## Press and block decoding (R91, R92, and 10_accumulators_and_press.md) -/

def P48.instr (y : P48) : Option Instr :=
  match y.maj.toNat with
  | 0x00 => some (.pmm y.vcom y.slot y.ha y.hb (bit (fld y.aux 0 1)) (fld y.imm 0 10))
  | 0x01 => some (.pmmg y.vcom y.slot y.ha y.hb y.hc (bit (fld y.aux 0 1)) (fld y.imm 0 10))
  | 0x02 => some (.pres y.vcom y.slot y.hc (fld y.aux 0 3) (bit (fld y.aux 3 1)) (bit (fld y.aux 4 1))
      (fld y.imm 0 10))
  | 0x03 => some (.prel y.vcom y.slot)
  | 0x04 => some (.pstr y.vcom y.slot y.hc)
  | 0x05 => some (.pldr y.vcom y.slot y.hc (bit (fld y.aux 0 1)) (fld y.imm 0 10))
  | 0x06 => some (.pscl y.vcom y.slot (fld y.imm 0 10))
  | 0x07 => some (.padd y.vcom y.slot (fld y.aux 0 4) (bit (fld y.aux 4 1)) (fld y.imm 0 10))
  | _ => none

def B48.instr (y : B48) : Option Instr := some (.blk y.lvl y.len y.await y.raise y.rep)

/-! ## Hod decoding (R93-R96, R295) -/

def HEntry.hdr (y : HEntry) : HodHdr :=
  ⟨y.sc, bit y.pk, bit y.wk, bit y.pe, bit y.we, y.wctr, y.pctr, y.wval, y.pamt⟩

def HEntry.instr (y : HEntry) : Option Instr :=
  let h := y.hdr; let s := Desc.of y.src; let t := Desc.of y.dst
  match y.op.toNat with
  | 0x01 => some (.hcpy h s t y.rm y.stile y.dtile)
  | 0x02 => some (.hcpyd h s t y.rm y.stile y.dtile y.rgn)
  | 0x03 => some (.hmcs h s t y.rm y.dtile)
  | 0x04 => some (.hmsrc h s t.base y.stile)
  | 0x05 => some (.hfill h s.base t y.dtile)
  | 0x06 => some (.hgath h s t y.rm y.stile y.dtile)
  | 0x07 => some (.hhalo h s t y.rm y.stile y.rgn)
  | 0x08 => some (.hwait h)
  | 0x09 => some (.hpost h (if y.dst = 0 then none else some t.base))
  | 0x0A => some (.hlink h s.base)
  | 0x0B => some (.htile h s.base y.dtile)
  | 0x0C => some (.hend h)
  | _ => none

/-! ## The encoder, from the same tables -/

/-- An encoding: one form of a stream or a hod entry. -/
inductive Form where
  | c16 (y : F16) | c32 (y : F32) | c48 (y : F48) | v32 (y : V32) | v48 (y : V48) | p48 (y : P48) | b48 (y : B48)
  | hod (y : HEntry)
  deriving DecidableEq, Repr

namespace Form

def s16 (op d a : BitVec 5) : Form := .c16 ⟨op, d, a⟩
/-- Reg form. -/
def reg (gd : Guard) (maj : BitVec 6) (f : BitVec 4) (d a b : BitVec 5) (x : Bool := false) : Form :=
  .c32 ⟨bool x, b, a, d, maj, gd.g, bool gd.n, f⟩
def regOp (maj : BitVec 6) (f : BitVec 4) (o : RegOp) : Form := reg o.gd maj f o.d o.a o.b o.w
def unOp (f : BitVec 4) (o : UnOp) : Form := reg o.gd 0x01 f o.d o.a 0 o.w
/-- Imm form. -/
def immOp (maj : BitVec 6) (o : ImmOp) : Form :=
  .c32 ⟨fld o.imm 9 1, fld o.imm 4 5, o.a, o.d, maj, o.gd.g, bool o.gd.n, fld o.imm 0 4⟩
def plog (gd : Guard) (f : BitVec 4) (d a b : BitVec 3) : Form := reg gd 0x0D f (cat (0#2 ++ d)) (cat (0#2 ++ a)) (cat (0#2 ++ b))
/-- Branch form. -/
def branch (gd : Guard) (maj : BitVec 6) (r : BitVec 16) (hint : Bool) : Form :=
  .c32 ⟨fld r 15 1, fld r 10 5, fld r 5 5, fld r 0 5, maj, gd.g, bool gd.n, cat (0#3 ++ bool hint)⟩
/-- Ext form. -/
def ext (gd : Guard) (maj : BitVec 6) (f : BitVec 4) (d a b : BitVec 5) (imm : BitVec 16) (x : Bool := false) : Form :=
  .c48 ⟨imm, bool x, b, a, d, maj, gd.g, bool gd.n, f⟩
/-- Mem form. -/
def mem (maj : BitVec 6) (o : MemOp) : Form :=
  .c48 ⟨o.imm, fld o.sc 2 1, cat (fld o.sc 0 2 ++ o.sz), o.a, o.d, maj, o.gd.g, bool o.gd.n, o.cls⟩
/-- Const form. -/
def const27 (gd : Guard) (maj : BitVec 6) (f : BitVec 4) (d : BitVec 5) (v : BitVec 27) : Form :=
  .c48 ⟨fld v 11 16, fld v 10 1, fld v 5 5, fld v 0 5, d, maj, gd.g, bool gd.n, f⟩
def h5 (v : BitVec 4) : BitVec 5 := cat (0#1 ++ v)
def csr (gd : Guard) (f : BitVec 4) (d a : BitVec 5) (n : BitVec 12) : Form := ext gd 0x0C f d a 0 (cat (0#4 ++ n))

/-- Vec form. -/
def vec (c : VCom) (maj : BitVec 6) (m : Bool) (vd va vb : BitVec 5) : Form :=
  .v32 ⟨bool m, vb, va, vd, maj, c.tk, c.stg, c.fl⟩
def vbin (maj : BitVec 6) (o : VBin) : Form := vec o.c maj o.m o.vd o.va o.vb
def vun (maj : BitVec 6) (o : VUn) : Form := vec o.c maj o.m o.vd o.va 0
/-- VecLong form with imm16. -/
def vimm (c : VCom) (maj : BitVec 6) (m : Bool) (vd va vb : BitVec 5) (imm : BitVec 16) : Form :=
  .v48 ⟨imm, bool m, vb, va, vd, maj, c.tk, c.stg, c.fl⟩
/-- VecLong form. -/
def vlong (c : VCom) (maj : BitVec 6) (m : Bool) (vd va vb vc : BitVec 5) (t : BitVec 4) (rm : BitVec 3)
    (aux : BitVec 4) : Form := vimm c maj m vd va vb (cat (aux ++ rm ++ t ++ vc))
def vfma (maj : BitVec 6) (o : VFma) : Form := vlong o.c maj o.m o.vd o.va o.vb o.vc o.t o.rm 0
def vfold (maj : BitVec 6) (o : VFold) : Form :=
  vlong o.c maj o.m o.vd o.va (cat (0#3 ++ o.bw)) o.vc o.t 0 (cat (bool o.row ++ o.op))
/-- VecMem form. -/
def vmemX (maj : BitVec 6) (o : VMemX) : Form :=
  vimm o.c maj o.m o.vd (cat (fld o.cls 0 3 ++ o.hs)) (cat (0#4 ++ fld o.cls 3 1)) (cat (o.off ++ o.vb))
def vmem (maj : BitVec 6) (o : VMem) : Form := vmemX maj ⟨o.c, o.m, o.vd, o.hs, o.cls, o.off, 0⟩
/-- Press form. -/
def press (c : VCom) (maj : BitVec 6) (slot : BitVec 4) (ha hb hc : BitVec 2) (aux : BitVec 6) (e : BitVec 10) : Form :=
  .p48 ⟨cat (0#6 ++ e), aux, hc, hb, ha, slot, maj, c.tk, c.stg, c.fl⟩

/-- Hod entry with neutral parts where the caller names none (R96). -/
def entry (op : BitVec 8) (h : HodHdr) (src dst : BitVec 192 := 0) (rm : BitVec 3 := 0)
    (stile dtile : BitVec 12 := 0xFFF) (rgn : BitVec 10 := 0x3FF) : Form :=
  .hod { op := op, z7 := 0, sc := h.sc, pk := bool h.pk, wk := bool h.wk, pe := bool h.pe, we := bool h.we,
         wctr := h.wctr, pctr := h.pctr, wval := h.wval, pamt := h.pamt, src := src, dst := dst, stile := stile,
         dtile := dtile, rm := rm, rgn := rgn, z := 0 }

end Form

open Form in
/-- The form of each instruction; an event has none. -/
def Instr.form : Instr → Option Form
  | .ill d a => some (s16 0 d a) | .nop => some (s16 1 0 0) | .mov d a => some (s16 2 d a)
  | .addC d a => some (s16 3 d a) | .subC d a => some (s16 4 d a) | .addiC d i => some (s16 5 d i)
  | .liC d i => some (s16 6 d i) | .shliC d i => some (s16 7 d i) | .shriC d i => some (s16 8 d i)
  | .andC d a => some (s16 9 d a) | .orC d a => some (s16 10 d a) | .xorC d a => some (s16 11 d a)
  | .brs r => some (s16 12 (fld r 5 5) (fld r 0 5))
  | .brp k r => some (s16 13 (cat (0#2 ++ k)) r)
  | .retC => some (s16 14 0 0)
  | .add o => some (regOp 0 0 o) | .sub o => some (regOp 0 1 o) | .and o => some (regOp 0 2 o)
  | .or o => some (regOp 0 3 o) | .xor o => some (regOp 0 4 o) | .andn o => some (regOp 0 5 o)
  | .shl o => some (regOp 0 6 o) | .shr o => some (regOp 0 7 o) | .sra o => some (regOp 0 8 o)
  | .rol o => some (regOp 0 9 o) | .min o => some (regOp 0 10 o) | .max o => some (regOp 0 11 o)
  | .minz o => some (regOp 0 12 o) | .maxz o => some (regOp 0 13 o) | .absd o => some (regOp 0 14 o)
  | .mul o => some (regOp 1 0 o) | .mulh o => some (regOp 1 1 o) | .mulhz o => some (regOp 1 2 o)
  | .div o => some (regOp 1 3 o) | .divz o => some (regOp 1 4 o) | .rem o => some (regOp 1 5 o)
  | .remz o => some (regOp 1 6 o) | .clz o => some (unOp 7 o) | .ctz o => some (unOp 8 o)
  | .popc o => some (unOp 9 o) | .brev o => some (unOp 10 o) | .bswap o => some (unOp 11 o)
  | .addi o => some (immOp 0x02 o) | .andi o => some (immOp 0x03 o) | .ori o => some (immOp 0x04 o)
  | .xori o => some (immOp 0x05 o) | .shli o => some (immOp 0x06 o) | .shri o => some (immOp 0x07 o)
  | .srai o => some (immOp 0x08 o) | .muli o => some (immOp 0x09 o)
  | .lea gd d a b sh => some (reg gd 0x0A sh d a b)
  | .cmp gd w p a b c => some (reg gd 0x0B c (cat (0#2 ++ p)) a b w)
  | .cmpi gd p a imm c => some (reg gd 0x0C c (cat (0#2 ++ p)) a (fld imm 0 5) (bit (fld imm 5 1)))
  | .pand gd d a b => some (plog gd 0 d a b) | .por gd d a b => some (plog gd 1 d a b)
  | .pxor gd d a b => some (plog gd 2 d a b) | .pandn gd d a b => some (plog gd 3 d a b)
  | .pnot gd d a => some (plog gd 4 d a 0) | .pmov gd d a => some (plog gd 5 d a 0)
  | .pset gd d => some (plog gd 6 d 0 0) | .pclr gd d => some (plog gd 7 d 0 0)
  | .pget gd d => some (reg gd 0x0E 0 d 0 0) | .pput gd a => some (reg gd 0x0E 1 0 a 0)
  | .br gd r hint => some (branch gd 0x0F r hint) | .call gd r => some (branch gd 0x10 r false)
  | .jmp gd a => some (reg gd 0x11 0 0 a 0) | .callr gd a => some (reg gd 0x11 1 0 a 0)
  | .ret gd => some (reg gd 0x11 2 0 0 0)
  | .push gd q a => some (reg gd 0x12 (cat (0#3 ++ bool q)) 0 a 0)
  | .pop gd x b d f => some (reg gd 0x13 f d 0 (cat (0#2 ++ b)) x)
  | .semp gd n a => some (reg gd 0x14 (cat (0#3 ++ fld n 5 1)) (fld n 0 5) a 0)
  | .semw gd n a => some (reg gd 0x15 (cat (0#3 ++ fld n 5 1)) (fld n 0 5) a 0)
  | .mark gd d e => some (reg gd 0x16 (cat (0#2 ++ e)) d 0 0)
  | .markWait gd a e => some (reg gd 0x16 (cat (0b01#2 ++ e)) 0 a 0)
  | .rdvw gd d a k => some (reg gd 0x17 (cat (0#1 ++ k)) d a 0)
  | .bpop gd d => some (reg gd 0x18 0 d 0 0)
  | .bget gd d a f => some (reg gd 0x19 f d a 0)
  | .bdone gd a => some (reg gd 0x1A 0 0 a 0)
  | .lease gd => some (reg gd 0x1B 0 0 0 0) | .unlease gd => some (reg gd 0x1B 1 0 0 0)
  | .leaseq gd d => some (reg gd 0x1B 2 d 0 0)
  | .exit gd => some (reg gd 0x1C 0 0 0 0) | .exitA gd => some (reg gd 0x1C 1 0 0 0)
  | .trap gd n => some (immOp 0x1D ⟨gd, 0, 0, n⟩)
  | .eret gd => some (reg gd 0x1E 0 0 0 0)
  | .drain gd m => some (reg gd 0x1F m 0 0 0)
  | .ld o => some (mem 0x00 o) | .st o => some (mem 0x01 o)
  | .amo o => some (mem 0x02 ⟨o.gd, o.d, o.a, cat (o.imm ++ o.op ++ o.b), o.sc, o.sz, o.cls⟩)
  | .fence gd sc mask => some (mem 0x03 ⟨gd, 0, 0, mask, sc, 0, 0⟩)
  | .strel o => some (mem 0x04 o) | .ldacq o => some (mem 0x05 o) | .waitaddr o => some (mem 0x06 o)
  | .waitaddrTimeout _ => none
  | .li gd d imm => some (const27 gd 0x07 0 d imm) | .lih gd d imm => some (const27 gd 0x07 1 d imm)
  | .brl gd r hint => some (const27 gd 0x08 (cat (0#3 ++ bool hint)) (fld r 0 5) (fld r 5 27))
  | .addpc gd d imm => some (const27 gd 0x09 0 d imm)
  | .bfx gd d a pos len => some (ext gd 0x0A 0 d a 0 (cat (0b0000#4 ++ len ++ pos)))
  | .bfxs gd d a pos len => some (ext gd 0x0A 0 d a 0 (cat (0b0001#4 ++ len ++ pos)))
  | .bfi gd d a pos len => some (ext gd 0x0B 0 d a 0 (cat (0b0000#4 ++ len ++ pos)))
  | .csrr gd d n => some (csr gd 0 d 0 n) | .csrw gd a n => some (csr gd 1 0 a n) | .csrx gd d a n => some (csr gd 2 d a n)
  | .csrs gd d a n => some (csr gd 3 d a n) | .csrc gd d a n => some (csr gd 4 d a n)
  | .tlbinvRange gd a b n => some (ext gd 0x0D 0 0 a b n)
  | .tlbinvAsid gd b => some (ext gd 0x0D 1 0 0 b 0)
  | .tlbinvAll gd => some (ext gd 0x0D 2 0 0 0 0)
  | .hmk gd d a fmt rank cls scaled => some (ext gd 0x10 0 (h5 d) a 0 (cat (0#3 ++ bool scaled ++ cls ++ rank ++ fmt)))
  | .hset gd d sel a => some (ext gd 0x11 0 (h5 d) a 0 (cat (0#12 ++ sel)))
  | .hget gd d a sel => some (ext gd 0x12 0 d (h5 a) 0 (cat (0#12 ++ sel)))
  | .hadv gd d a b dim => some (ext gd 0x13 0 (h5 d) (h5 a) b (cat (0#14 ++ dim)))
  | .hsub gd d a b => some (ext gd 0x14 0 (h5 d) (h5 a) b 0)
  | .hmov gd d a => some (ext gd 0x15 0 (h5 d) (h5 a) 0 0)
  | .hld gd d a imm cls => some (ext gd 0x16 cls (h5 d) a 0 imm)
  | .hst gd d a imm cls => some (ext gd 0x17 cls (h5 d) a 0 imm)
  | .kickVe gd d a nb n => some (ext gd 0x18 0 (h5 d) a 0 (cat (nb ++ 0#3 ++ n)))
  | .kickPx gd d a nb n => some (ext gd 0x18 1 (h5 d) a 0 (cat (nb ++ 0#3 ++ n)))
  | .kickHl gd a qs qp => some (ext gd 0x18 2 0 a 0 (cat (0#2 ++ qs ++ qp ++ 0#6)))
  | .kickHs gd a qs qp => some (ext gd 0x18 3 0 a 0 (cat (0#2 ++ qs ++ qp ++ 0#6)))
  | .nest gd px a b lvl => some (ext gd 0x19 (cat (0#3 ++ bool px)) 0 a b (cat (0#13 ++ lvl)))
  | .link gd hs a b => some (ext gd 0x1A (cat (0#3 ++ bool hs)) 0 a b 0)
  | .scmdPmmg gd d a b carry s e => some (ext gd 0x1B 0 (h5 d) (h5 a) (h5 b) (cat (0#2 ++ s ++ e)) carry)
  | .scmdLk gd a b rid => some (ext gd 0x1B 1 0 a b (cat (0#8 ++ rid)))
  | .obsub gd d a => some (ext gd 0x20 0 d a 0 0)
  | .seqstart gd d a b stepped => some (ext gd 0x21 0 d a b (cat (0#15 ++ bool stepped)))
  | .seqstop gd d => some (ext gd 0x21 1 d 0 0 0)
  | .seqwait gd d => some (ext gd 0x21 2 d 0 0 0)
  | .seqstep gd d a => some (ext gd 0x21 3 d a 0 0)
  | .rgndef gd d a b => some (ext gd 0x22 0 d a b 0)
  | .rgnrd gd d b sel => some (ext gd 0x22 1 d 0 b (cat (0#12 ++ sel)))
  | .rgnclr gd d b undef => some (ext gd 0x22 2 d 0 b (cat (0#15 ++ bool undef)))
  | .reuseq gd d a sel => some (ext gd 0x23 0 d a 0 (cat (0#12 ++ sel)))
  | .reuseforce gd d a all => some (ext gd 0x23 1 d a 0 (cat (0#15 ++ bool all)))
  | .reuseset gd d a b smax resid rst => some (ext gd 0x23 2 d a b (cat (0#6 ++ bool rst ++ bool resid ++ smax)))
  | .fqpop gd d a => some (ext gd 0x24 0 d a 0 0)
  | .fqresume gd d a => some (ext gd 0x24 1 d a 0 0)
  | .fqdrop gd d a => some (ext gd 0x24 2 d a 0 0)
  | .rdvset gd d a k => some (ext gd 0x28 0 d a 0 (cat (0#13 ++ k)))
  | .semrd gd d kind n => some (ext gd 0x29 0 d 0 0 (cat (0#6 ++ kind ++ n)))
  | .semset gd d a kind n => some (ext gd 0x2A 0 d a 0 (cat (0#6 ++ kind ++ n)))
  | .scw gd d a sc c => some (ext gd 0x2B 0 d a 0 (cat (0#5 ++ sc ++ c)))
  | .scwTimeout _ => none
  | .scp gd a b sc c => some (ext gd 0x2C 0 0 a b (cat (0#5 ++ sc ++ c)))
  | .phase gd a b i => some (ext gd 0x30 0 0 a b (cat (0#12 ++ i)))
  | .pace gd d a mask => some (ext gd 0x31 0 d a 0 (cat (0#12 ++ mask)))
  | .quota gd d sel => some (ext gd 0x32 0 d 0 0 (cat (0#14 ++ sel)))
  | .popJob gd x b d => some (reg gd 0x13 0 d 0 (cat (0#2 ++ b)) x)
  | .pushDone gd a => some (reg gd 0x12 0 0 a 0)
  | .lkaq gd d a b pois n => some (ext gd 0x38 (cat (0#3 ++ bool pois)) d (h5 a) b (cat (0#3 ++ n)))
  | .lkaqOne gd d a b pois => some (ext gd 0x38 (cat (0b001#3 ++ bool pois)) d (h5 a) b 0)
  | .lkdq gd d => some (ext gd 0x39 0 d 0 0 0)
  | .lkddp gd d a b n => some (ext gd 0x3A 0 d a b (cat (0#3 ++ n)))
  | .lkpool gd b bag bf one clr => some (ext gd 0x3B 0 0 0 b (cat (0#9 ++ bool clr ++ bool one ++ bool bf ++ bag)))
  | .lkput gd a rm bag => some (ext gd 0x3C rm 0 (h5 a) 0 (cat (0#12 ++ bag)))
  | .lkputRow gd a rm => some (ext gd 0x3C rm 0 (h5 a) 0 0 true)
  | .kbag gd a rid => some (ext gd 0x3D 0 0 a 0 (cat (0#8 ++ rid)))
  | .vadd o => some (vbin 0x00 o) | .vsub o => some (vbin 0x01 o) | .vmul o => some (vbin 0x02 o)
  | .vmin o => some (vbin 0x03 o) | .vmax o => some (vbin 0x04 o) | .vminz o => some (vbin 0x05 o)
  | .vmaxz o => some (vbin 0x06 o) | .vabs o => some (vun 0x07 o) | .vneg o => some (vun 0x08 o)
  | .vaddsat o => some (vbin 0x09 o) | .vsubsat o => some (vbin 0x0A o) | .vand o => some (vbin 0x0B o)
  | .vor o => some (vbin 0x0C o) | .vxor o => some (vbin 0x0D o) | .vshl o => some (vbin 0x0E o)
  | .vshr o => some (vbin 0x0F o) | .vsra o => some (vbin 0x10 o) | .vclz o => some (vun 0x11 o)
  | .vpopc o => some (vun 0x12 o) | .vrcp o => some (vun 0x13 o) | .vrsq o => some (vun 0x14 o)
  | .vsqrt o => some (vun 0x15 o) | .vex2 o => some (vun 0x16 o) | .vlg2 o => some (vun 0x17 o)
  | .vsinp o => some (vun 0x18 o) | .vcosp o => some (vun 0x19 o) | .vsig o => some (vun 0x1A o)
  | .verf o => some (vun 0x1B o) | .vmov o => some (vun 0x1C o)
  | .vsel c vd va vb => some (vec c 0x1D false vd va vb)
  | .vtrn c vd va => some (vec c 0x1E false vd va 0)
  | .vperm o => some (vbin 0x1F o)
  | .vbcl c m vd k => some (vec c 0x20 m vd (h5 k) 0)
  | .vbcs c m vd => some (vec c 0x21 m vd 0 0)
  | .mpop c => some (vec c 0x22 false 0 0 0) | .minv c => some (vec c 0x23 false 0 0 0)
  | .mset c va => some (vec c 0x24 false 0 va 0) | .mget c vd => some (vec c 0x25 false vd 0 0)
  | .vbrz c count => some (vec c 0x26 false count 0 0)
  | .vext c va idx => some (vec c 0x27 false (fld idx 5 5) va (fld idx 0 5))
  | .vdiv o => some (vbin 0x28 o)
  | .vfma o => some (Form.vfma 0x00 o) | .vfms o => some (Form.vfma 0x01 o) | .vfnma o => some (Form.vfma 0x02 o)
  | .vcmp c va vb t cond => some (vlong c 0x03 false 0 va vb 0 t 0 cond)
  | .vcvt c m vd va noo t s rm => some (vlong c 0x04 m vd va (cat (0#4 ++ bool noo)) 0 t rm s)
  | .vfsh c m vd va vb vc t left => some (vlong c 0x05 m vd va vb vc t 0 (cat (0#3 ++ bool left)))
  | .vred o => some (vfold 0x06 o) | .vscan o => some (vfold 0x07 o)
  | .vshape c t imm => some (vimm c 0x12 false (h5 t) 0 0 (cat (0#1 ++ imm)))
  | .vqblk c vd va vc t s rm => some (vlong c 0x13 false vd va 0 vc t rm s)
  | .viota c m vd t kind => some (vlong c 0x14 m vd 0 0 0 t 0 (cat (0#2 ++ kind)))
  | .vli c m vd imm => some (vimm c 0x15 m vd 0 0 imm)
  | .vsprSet c en val => some (vimm c 0x16 false 0 0 0 (cat (0#1 ++ en ++ 0#1 ++ val)))
  | .vsprShift c b => some (vimm c 0x16 false 0 0 0 (cat (1#1 ++ 0#14 ++ bool b)))
  | .vrrbSet c n => some (vimm c 0x17 false 0 0 0 (cat (0#12 ++ n)))
  | .vrrbAdd c n => some (vimm c 0x17 false 0 0 0 (cat (0#11 ++ 1#1 ++ n)))
  | .vld o => some (vmem 0x08 o) | .vst o => some (vmem 0x0D o) | .vldu o => some (vmem 0x09 o)
  | .vstb o => some (vmemX 0x0E o) | .vgth o => some (vmemX 0x0A o) | .vsct o => some (vmemX 0x0F o)
  | .vsca o => some (vmemX 0x10 o) | .vldl o => some (vmemX 0x0B o) | .vstl o => some (vmemX 0x11 o)
  | .vlda c m vd s row0 col => some (vimm c 0x0C m vd (cat (0#3 ++ col)) 0 (cat (row0 ++ s ++ 0#5)))
  | .blk lvl len await raise rep => some (.b48 ⟨rep, raise, await, len, lvl, 0⟩)
  | .pmm c slot ha hb carry e => some (press c 0x00 slot ha hb 0 (cat (0#5 ++ bool carry)) e)
  | .pmmg c slot ha hb hc carry e => some (press c 0x01 slot ha hb hc (cat (0#5 ++ bool carry)) e)
  | .pres c slot hc rm noo ovn p => some (press c 0x02 slot 0 0 hc (cat (0#1 ++ bool ovn ++ bool noo ++ rm)) p)
  | .prel c slot => some (press c 0x03 slot 0 0 0 0 0)
  | .pstr c slot hc => some (press c 0x04 slot 0 0 hc 0 0)
  | .pldr c slot hc carry e => some (press c 0x05 slot 0 0 hc (cat (0#5 ++ bool carry)) e)
  | .pscl c slot d => some (press c 0x06 slot 0 0 0 0 d)
  | .padd c slot src carry e => some (press c 0x07 slot 0 0 0 (cat (0#1 ++ bool carry ++ src)) e)
  | .gatheredCommand _ => none
  | .hcpy h src dst rm stile dtile => some (entry 0x01 h src.word dst.word rm stile dtile)
  | .hcpyd h src dst rm stile dtile rgn => some (entry 0x02 h src.word dst.word rm stile dtile rgn)
  | .hmcs h key dst rm dtile => some (entry 0x03 h key.word dst.word rm 0xFFF dtile)
  | .hmsrc h src count stile => some (entry 0x04 h src.word (Desc.scalar count).word 0 stile)
  | .hfill h pattern dst dtile => some (entry 0x05 h (Desc.scalar pattern).word dst.word 0 0xFFF dtile)
  | .hgath h table dst rm stile dtile => some (entry 0x06 h table.word dst.word rm stile dtile)
  | .hhalo h src dst rm stile rgn => some (entry 0x07 h src.word dst.word rm stile 0xFFF rgn)
  | .hwait h => some (entry 0x08 h)
  | .hpost h target => some (entry 0x09 h 0 (match target with | none => 0 | some t => (Desc.scalar t).word))
  | .hlink h next => some (entry 0x0A h (Desc.scalar next).word)
  | .htile h event dtile => some (entry 0x0B h (Desc.scalar event).word 0 0 0xFFF dtile)
  | .hend h => some (entry 0x0C h)
  | _ => none

/-! ## Decoding a form, a word, bytes -/

/-- The instruction whose fields a form holds, before any check. -/
def Form.raw : Stream → Form → Option Instr
  | .cc, .c16 y => y.instr
  | .lk, .c16 y => y.instr
  | .cc, .c32 y => y.shared <|> y.ccOnly
  | .lk, .c32 y => y.shared <|> y.lkOnly
  | .cc, .c48 y => y.shared <|> y.ccOnly
  | .lk, .c48 y => y.shared <|> y.lkOnly
  | .ve, .v32 y => y.instr
  | .ve, .v48 y => y.instr
  | .px, .p48 y => y.instr
  | .ve, .b48 y => y.instr
  | .px, .b48 y => y.instr
  | _, .hod y => y.instr
  | _, _ => none

/-- The instruction of a form: its fields are exactly those of the instruction's encoding and every limit holds
(R97). -/
def Form.decode (st : Stream) (y : Form) : Option Instr :=
  (y.raw st).filter fun i => i.wf && decide (i.form = some y) && (st != .lk || i.lkOk)

/-- The form a stream reads in a word of `len` parcels (R72, R73); none where the stream does not admit it. -/
def formOf (st : Stream) (len : Nat) (w : BitVec 48) : Option Form :=
  match st, len with
  | .cc, 1 => some (.c16 (F16.of (fld w 0 16)))
  | .lk, 1 => some (.c16 (F16.of (fld w 0 16)))
  | .cc, 2 => some (.c32 (F32.of (fld w 0 32)))
  | .lk, 2 => some (.c32 (F32.of (fld w 0 32)))
  | .cc, 3 => some (.c48 (F48.of w))
  | .lk, 3 => some (.c48 (F48.of w))
  | .ve, 2 => some (.v32 (V32.of (fld w 0 32)))
  | .ve, 3 => if fld w 8 6 = 0x3E#6 then some (.b48 (B48.of w)) else some (.v48 (V48.of w))
  | .px, 3 => if fld w 8 6 = 0x3E#6 then some (.b48 (B48.of w)) else some (.p48 (P48.of w))
  | _, _ => none

/-- Parcels of the instruction whose first parcel is `p` (R72). -/
def parcels (p : Parcel) : Nat :=
  if fld p 14 2 = 3#2 then 3 else if fld p 14 2 = 2#2 then 2 else 1

/-- Decode a word whose low 16 bits are its first parcel. -/
def decodeWord (st : Stream) (w : BitVec 48) : Option Instr :=
  match formOf st (parcels (fld w 0 16)) w with
  | some y => y.decode st
  | none => none

/-- Decode a hod entry (R93). -/
def decodeHod (w : BitVec 512) : Option Instr := (Form.hod (HEntry.of w)).decode .cc

/-- A little-endian number of bytes (R1). -/
def leNat : List Byte → Nat
  | [] => 0
  | b :: bs => b.toNat + 256 * leNat bs

/-- `n` bytes of a number, the least significant first (R1). -/
def leBytes : Nat → Nat → List Byte
  | 0, _ => []
  | n + 1, v => BitVec.ofNat 8 v :: leBytes n (v / 256)

/-- The fault a stream raises for a malformed encoding (R97). -/
def Stream.reject : Stream → Reject
  | .cc => .illop | .lk => .illop | .ve => .engill | .px => .engill

/-- Decode the first instruction of a list of bytes of a stream; total on any bytes. -/
def decode (st : Stream) (bs : List Byte) : Except Reject (Instr × List Byte) :=
  if bs.length < 2 then .error .short else
  let n := 2 * parcels (BitVec.ofNat 16 (leNat (bs.take 2)))
  if bs.length < n then .error .short else
  match decodeWord st (BitVec.ofNat 48 (leNat (bs.take n))) with
  | some i => .ok (i, bs.drop n)
  | none => .error st.reject

/-- The bytes of a form, as memory holds them. -/
def Form.bytes : Form → List Byte
  | .c16 y => leBytes 2 y.word.toNat
  | .c32 y => leBytes 4 y.word.toNat
  | .c48 y => leBytes 6 y.word.toNat
  | .v32 y => leBytes 4 y.word.toNat
  | .v48 y => leBytes 6 y.word.toNat
  | .p48 y => leBytes 6 y.word.toNat
  | .b48 y => leBytes 6 y.word.toNat
  | .hod y => leBytes 64 y.word.toNat

/-- The bytes of an instruction; an event has none. -/
def encode (i : Instr) : List Byte :=
  match i.form with
  | some y => y.bytes
  | none => []

/-- The stream an instruction stands in; lookup-core instructions need a lookup core. -/
def Instr.stream : Instr → Stream
  | .popJob _ _ _ _ => .lk | .pushDone _ _ => .lk | .lkaq _ _ _ _ _ _ => .lk | .lkaqOne _ _ _ _ _ => .lk
  | .lkdq _ _ => .lk | .lkddp _ _ _ _ _ => .lk | .lkpool _ _ _ _ _ _ => .lk | .lkput _ _ _ _ => .lk
  | .lkputRow _ _ _ => .lk | .kbag _ _ _ => .lk
  | i => match i.form with
    | some (.v32 _) => .ve | some (.v48 _) => .ve | some (.b48 _) => .ve | some (.p48 _) => .px | _ => .cc

/-- The decoder's answer on a word of the opcode table (log 4): as control-core code, then lookup-core code, then a
vector-engine stream, then a Press stream, and a word longer than 48 bits as a hod entry. -/
def decodeTableWord (nbits w : Nat) : Option Instr :=
  if nbits > 48 then decodeHod (BitVec.ofNat 512 w) else
  let v := BitVec.ofNat 48 w
  decodeWord .cc v <|> decodeWord .lk v <|> decodeWord .ve v <|> decodeWord .px v

end Sys2Proof
end

