-- ==== Sys2Proof/Machine/Csr.lean ====
section
/-! DEFINITION. CSR access, TLBINV, traps and handle instructions (06_control_core_registers.md R118-R124, R139-R148;
17_tile_translation_weight_tables.md R376). -/

namespace Sys2Proof.Machine

/-! ## CSRs (R118-R122) -/

/-- The value of CSR n of core p (R118). -/
def csrRead (s : State) (p n : Nat) : Word :=
  let r := s.cc p
  let x := ((s.proc p).ctxOf).getD 0
  let d := (s.ctx x).d
  match n with
  | 0x000 => r.status | 0x001 => r.cause | 0x002 => r.epc | 0x003 => r.faddr | 0x004 => r.tvec | 0x005 => r.escratch
  | 0x010 => d.asid.setWidth 64
  | 0x011 => if r.sys then 1 else 0
  | 0x012 => if d.fmode then 1 else 0
  | 0x013 => if r.rsv then 1 else 0
  | 0x020 => r.rm.setWidth 64
  | 0x021 => r.seed
  | 0x022 => r.limit
  | 0x030 => r.rowprog
  | 0x0C0 => s.mod.gts
  | _ =>
    if 0x31 ≤ n && n ≤ 0x34 then (SMap.get 0 r.pace (n - 0x31)).setWidth 64
    else if 0x40 ≤ n && n ≤ 0x4F then SMap.get 0 (s.ctx x).loops (n - 0x40)
    else if 0x80 ≤ n && n ≤ 0x97 then (SMap.get 0 r.fmt (n - 0x80)).setWidth 64
    else 0

/-- Fields of cc.cause and px.rowprog that SYS writes (R120, R122). -/
def causeMask : Word := 0x83FF00FF
def rowprogMask : Word := 0x80000000000F000F

/-- The writable fields of CSR n after a write (R119-R122). -/
def csrWrite (r : CCRegs) (n : Nat) (v : Word) : CCRegs :=
  match n with
  | 0x000 => if r.sys then { r with status := v &&& 3 } else r
  | 0x001 => if r.sys then { r with cause := v &&& causeMask } else r
  | 0x002 => if r.sys then { r with epc := v } else r
  | 0x003 => if r.sys then { r with faddr := v } else r
  | 0x004 => if r.sys then { r with tvec := v &&& ~~~0xFFF#64 } else r
  | 0x005 => if r.sys then { r with escratch := v } else r
  | 0x013 => { r with rsv := v.getLsbD 0 }
  | 0x020 => { r with rm := v.setWidth 3 }
  | 0x021 => { r with seed := v }
  | 0x022 => { r with limit := v }
  | 0x030 => if r.sys then { r with rowprog := v &&& rowprogMask } else r
  | _ =>
    if 0x31 ≤ n && n ≤ 0x34 then { r with pace := SMap.set 0 r.pace (n - 0x31) (v.setWidth 16) }
    else if 0x80 ≤ n && n ≤ 0x97 then
      if (fld v 0 5).toNat ≤ 20 then { r with fmt := SMap.set 0 r.fmt (n - 0x80) (fld v 0 5) } else r
    else r

/-- One CSR instruction (R139): `new` gives the value written, if any; `rd` the destination, if any. -/
def csrOp (gd : Guard) (n : BitVec 12) (rd : Option (BitVec 5)) (new : CCRegs → Word → Option Word) (s : State) : Out :=
  ccRun .any (n == 5) gd 6 (fun p => do
    need (csrDefined n && (p < 256 || lkCsr n)) .illop
    let s ← get
    let old := csrRead s p n.toNat
    match new (s.cc p) old with
    | some v => doS fun s => s.modCC p fun r => csrWrite r n.toNat v
    | none => pure ()
    match rd with
    | some d => putS p d old
    | none => pure ()
    return .next) s

def execCsrr (gd : Guard) (d : BitVec 5) (n : BitVec 12) (s : State) : Out := csrOp gd n (some d) (fun _ _ => none) s
def execCsrw (gd : Guard) (a : BitVec 5) (n : BitVec 12) (s : State) : Out :=
  csrOp gd n none (fun r _ => some (r.readS a)) s
def execCsrx (gd : Guard) (d a : BitVec 5) (n : BitVec 12) (s : State) : Out :=
  csrOp gd n (some d) (fun r _ => some (r.readS a)) s
def execCsrs (gd : Guard) (d a : BitVec 5) (n : BitVec 12) (s : State) : Out :=
  csrOp gd n (some d) (fun r old => some (old ||| r.readS a)) s
def execCsrc (gd : Guard) (d a : BitVec 5) (n : BitVec 12) (s : State) : Out :=
  csrOp gd n (some d) (fun r old => some (old &&& ~~~r.readS a)) s

/-! ## TLBINV (17 R376) -/

/-- Pages of 64 KiB lo to hi of an ASID; every page with `all`. -/
structure PageRange where
  asid : Option (BitVec 16)
  lo : Nat
  hi : Nat

def PageRange.hitsLeaf (g : PageRange) (t : Trans) : Bool :=
  let lo := t.vpn * 2 ^ (t.sz - 16)
  (g.asid.isNone || g.asid == some t.asid) && decide (lo ≤ g.hi) && decide (g.lo ≤ lo + 2 ^ (t.sz - 16) - 1)

def PageRange.hitsL1 (g : PageRange) (key : Nat) : Bool :=
  let page := key % 2 ^ 45 / 2 ^ 9
  (g.asid.isNone || g.asid == some (BitVec.ofNat 16 (key / 2 ^ 45))) && decide (g.lo ≤ page) && decide (page ≤ g.hi)

/-- Invalidate the matching leaves of the translation cache and the matching sectors of every L1 (R376). -/
def tlbInvalidate (s : State) (g : PageRange) : State :=
  { s with
    mem := { s.mem with trans := s.mem.trans.filter fun t => !g.hitsLeaf t }
    procs := (s.procs.map fun e =>
      (e.1, { e.2 with coh := { e.2.coh with l1 := e.2.coh.l1.filter fun l => !g.hitsL1 l.1 } })).filter
        fun e => e.2 != Proc.reset }

/-- The ASID in s[B] is not the running context's (R376). -/
def foreignAsid (b : BitVec 5) (s : State) : Bool :=
  match s.actor with
  | .cc p => ((s.cc p).readS b).setWidth 16 != (s.ctx (((s.proc p).ctxOf).getD 0)).d.asid
  | _ => false

/-- Wait for the unit's earlier accesses, then invalidate. -/
def tlbOp (priv : Bool) (gd : Guard) (g : CCRegs → PageRange) (s : State) : Out :=
  ccRun .any priv gd 6 (fun p => do
    let s ← get
    await (!(s.fl.remotes.any fun r => r.core == p && r.eng.isNone))
    doS fun s => tlbInvalidate s (g (s.cc p))
    return .next) s

def execTlbinvRange (gd : Guard) (a b : BitVec 5) (n : BitVec 16) (s : State) : Out :=
  tlbOp (foreignAsid b s) gd (fun r =>
    let lo := (r.readS a).toNat / 2 ^ 16 % 2 ^ 36
    ⟨some ((r.readS b).setWidth 16), lo, min (lo + n.toNat) (2 ^ 36 - 1)⟩) s
def execTlbinvAsid (gd : Guard) (b : BitVec 5) (s : State) : Out :=
  tlbOp (foreignAsid b s) gd (fun r => ⟨some ((r.readS b).setWidth 16), 0, 2 ^ 36 - 1⟩) s
def execTlbinvAll (gd : Guard) (s : State) : Out := tlbOp true gd (fun _ => ⟨none, 0, 2 ^ 36 - 1⟩) s

/-! ## TRAP and ERET (R141, R142) -/

/-- TRAP raises TRAPI with its number, in either mode (R141). -/
def execTrap (gd : Guard) (n : BitVec 10) (s : State) : Out :=
  ccRun .any false gd 4 (fun _ => throw (.fault .trapi 0 false (n.setWidth 24))) s

def execEret (gd : Guard) (s : State) : Out :=
  ccRun .any true gd 4 (fun p => do
    let r := (← get).cc p
    need (!r.epc.getLsbD 0) .align r.epc.toNat
    doS fun s => s.modCC p fun r => r.eretTo.transfer
    return .jump r.epc) s

/-! ## Handles (R143-R148) -/

def execHmk (gd : Guard) (d : BitVec 4) (a : BitVec 5) (fmt : BitVec 5) (rank : BitVec 3) (cls : BitVec 4) (scaled : Bool)
    (s : State) : Out := ccReg gd 6 (fun r => r.writeH d (H.make (r.readS a) fmt rank cls scaled)) s
def execHset (gd : Guard) (d : BitVec 4) (sel : BitVec 4) (a : BitVec 5) (s : State) : Out :=
  ccReg gd 6 (fun r =>
    let f := H.selField sel.toNat
    r.writeH d (H.put (r.readH d) f.1 f.2 (r.readS a).toNat)) s
def execHget (gd : Guard) (d : BitVec 5) (a : BitVec 4) (sel : BitVec 4) (s : State) : Out :=
  ccReg gd 6 (fun r => r.writeS d (H.getSel (r.readH a) sel.toNat)) s

/-- An instruction that computes a handle or faults (R146, R147). -/
def handleOp (gd : Guard) (d : BitVec 4) (f : CCRegs → Except Cause Handle) (s : State) : Out :=
  ccRun .any false gd 6 (fun p => do
    match f ((← get).cc p) with
    | .error c => faultM c
    | .ok h => doS fun s => s.modCC p fun r => r.writeH d h
    return .next) s

def execHadv (gd : Guard) (d a : BitVec 4) (b : BitVec 5) (dim : BitVec 2) (s : State) : Out :=
  handleOp gd d (fun r => H.adv (r.readH a) (r.readS b) dim.toNat) s
def execHsub (gd : Guard) (d a : BitVec 4) (b : BitVec 5) (s : State) : Out :=
  handleOp gd d (fun r => H.sub (r.readH a) (r.readS b)) s
def execHmov (gd : Guard) (d a : BitVec 4) (s : State) : Out := ccReg gd 6 (fun r => r.writeH d (r.readH a)) s

end Sys2Proof.Machine
end

