-- ==== Sys2Proof/Machine/Power.lean ====
section
/-! DEFINITION. Charge buckets, pacing, declared and undeclared bursts, quota debits, fallback and thermal trips
(21_power_counters.md R439-R453; 17 R379, R380, R487). -/

namespace Sys2Proof.Machine

/-! ## Weights (R379, R380, R487) -/

/-- The default weight of a class (R487). -/
def weightDefault (k : Nat) : BitVec 16 :=
  match k with
  | 0 => 3600 | 1 => 1100 | 2 => 700 | 3 => 160 | 4 => 600 | 16 => 32 | 17 => 96 | 18 => 48 | 19 => 64 | 20 => 40
  | 32 => 320 | 33 => 640 | 34 => 8 | _ => 0

/-- Entry k of a live or shadow table. -/
def weightOf (t : SMap (Option (BitVec 16))) (k : Nat) : BitVec 16 := (SMap.get none t k).getD (weightDefault k)

/-- A commit (R379); ignored in fallback (R453). -/
def commitWeights (s : State) (cl : Nat) : State :=
  if s.mod.fallback then s
  else s.modCluster cl fun c => { c with wt := { c.wt with live := c.wt.shadow, ccnt := c.wt.ccnt + 1 } }

def execWeightCommit (cluster : Nat) (s : State) : Out :=
  if cluster < 64 then .next (commitWeights s cluster) else .fault .noSuchUnit

/-! ## Debits (R439, R442, R448-R450) -/

/-- A context is charged n cu: QUSED, QBAL, and the exhaustion of its quota (R448, R449). -/
def quotaDebit (s : State) (x n : Nat) : State :=
  let q := (s.ctx x).quota
  let bal := if q.en then q.qbal - BitVec.ofNat 64 n else q.qbal
  let out := q.en && !q.exh && bal.msb
  let susp := out && !q.pol
  let s := s.modCtx x fun c =>
    { c with quota := { c.quota with
        qused := c.quota.qused + BitVec.ofNat 64 n, qbal := bal, exh := q.exh || out, act := q.act || (out && q.pol) } }
  if !susp then s
  else match (s.ctx x).d.st with
    | .active => suspendOp (s.modCtx x fun c => { c with quota := { c.quota with sus := true } }) x
    | .suspended => quotaRecord s x
    | _ => s

/-- LEVEL after a debit: a value that its 32 bits cannot hold is not given (log 49). -/
def levelFits (v : Int) : Bool := decide (-(2 ^ 31) ≤ v) && decide (v < 2 ^ 31)
def levelOf (n : Nat) (v : Int) : Int := if levelFits v then v else (Config.freeLevel n).toInt

/-- A work item pays (R442, R450). -/
def debit (s : State) (cl x cost : Nat) (throttled : Bool) : State :=
  let fits := levelFits ((s.cluster cl).pow.level - cost)
  let s := s.modCluster cl fun c => { c with pow := { c.pow with
    level := levelOf s.free (c.pow.level - cost)
    tl := if throttled then c.pow.tl - cost else c.pow.tl
    debit := SMap.set 0 c.pow.debit x (SMap.get 0 c.pow.debit x + cost) } }
  quotaDebit (if fits then s else s.bump) x cost

/-- The oldest waiter is admitted (R442, R450). -/
def admits (w : Power) (cost : Nat) (throttled : Bool) : Bool :=
  (decide ((cost : Int) ≤ w.level) || w.level == w.cap) &&
  (!throttled || decide ((cost : Int) ≤ w.tl) || w.tl == w.rfloor)

/-- A work item of engine e of core p, charged to context x, waits in its cluster's order and pays (R442); it is throttled as
the core that pushed it is (R450). -/
def charge (p : Nat) (e : Eng) (x cost : Nat) : M Unit := do
  let cl := clusterOf p
  let s ← get
  let w := (s.cluster cl).pow
  if !w.waiters.contains (p, e) then
    doS fun s => s.modCluster cl fun c => { c with pow := { c.pow with waiters := c.pow.waiters ++ [(p, e)] } }
  let s ← get
  let w := (s.cluster cl).pow
  let thr := ((engineCap (s.proc p) e).map fun c => (s.proc c.core).throttled).getD false
  await (w.waiters.head? == some (p, e) && admits w cost thr) 0x10
  doS fun s => debit (s.modCluster cl fun c => { c with pow := { c.pow with waiters := c.pow.waiters.tail } }) cl x cost thr

/-! ## Refill boundaries (R441, R445-R447) -/

/-- The rate of a declared intensity (R441). -/
def declRate (w : Power) (i : Nat) : Nat := w.rfull * (i + 1) / 16

def burstsOf (s : State) (cl : Nat) : List Burst := (List.range 4).filterMap fun k => (s.proc (cl * 4 + k)).burst

/-- The highest rate of the declarations a predicate names, 0 without one. -/
def maxRate (w : Power) (l : List Burst) (f : Burst → Bool) : Nat :=
  (l.filter f).foldl (fun n b => max n (declRate w b.i)) 0

/-- The context with the largest debits, the lower number on a tie (R447). -/
def largestDebit (m : SMap Nat) : Nat :=
  (m.foldl (fun (b : Nat × Nat) e => if b.2 < e.2 then e else b) (0, 0)).1

def sumDebits (m : SMap Nat) : Nat := m.foldl (fun n e => n + e.2) 0

/-- An undeclared burst over three intervals: the clamp, but not in fallback, and the penalty (R447). -/
def undeclared (s : State) (cl : Nat) (overs : List (Nat × SMap Nat)) : State :=
  let all := overs.foldl (fun m o => o.2.foldl (fun m e => SMap.set 0 m e.1 (SMap.get 0 m e.1 + e.2)) m) []
  let pen := overs.foldl (fun n o => n + (sumDebits o.2 - o.1)) 0
  let x := largestDebit all
  let clamp := if s.mod.fallback then 0 else 51
  let s := s.modCluster cl fun c => { c with pow := { c.pow with clamp := max c.pow.clamp clamp } }
  quotaDebit (s.modCtx x fun c => { c with quota := { c.quota with
    und := if c.quota.und = BitVec.allOnes 32 then c.quota.und else c.quota.und + 1 } }) x pen

/-- Detection for the interval just ended (R446). -/
def detectBurst (s : State) (cl : Nat) : State :=
  let w := (s.cluster cl).pow
  let a := max w.rbase w.allow
  let overs := if a < sumDebits w.debit then w.overs ++ [(a, w.debit)] else []
  let s := s.modCluster cl fun c => { c with pow := { c.pow with debit := [], overs := if overs.length < 3 then overs else [] } }
  if overs.length < 3 then s else undeclared s cl overs

/-- Configuration written since the last boundary (R440). -/
def Power.configured (w : Power) : Power :=
  let w := match w.cfg0 with
    | some v => { w with rbase := (fld v 32 28).toNat, rfull := (fld v 0 28).toNat, cfg0 := none }
    | none => w
  match w.cfg1 with
  | some v => { w with rfloor := (fld v 32 28).toNat, cap := (fld v 0 30).toNat, cfg1 := none }
  | none => w

/-- R at a boundary (R441, R447, R453). -/
def nextRate (w : Power) (trip fallback : Bool) : Nat :=
  if trip then 0
  else if fallback then min w.rbase Config.rMax
  else if 1 < w.clamp then w.rfloor
  else if w.r < w.rtgt then min w.rtgt (w.r + Config.slew)
  else max w.rtgt (w.r - Config.slew)

/-- One cluster at the boundary `b` (R441). -/
def refillCluster (b : Nat) (s : State) (cl : Nat) : State :=
  let s := detectBurst s cl
  let l := burstsOf s cl
  s.modCluster cl fun c =>
    let w := c.pow.configured
    let w := { w with rtgt := min Config.rMax (max w.rbase (maxRate w l fun d => decide (d.start ≤ b) && decide (b < d.stop))) }
    let w := { w with r := nextRate w s.mod.trip s.mod.fallback, clamp := w.clamp - 1 }
    let w := { w with
      level := min (w.level + w.r) w.cap, tl := min (w.tl + w.rfloor) w.rfloor
      allow := maxRate w l fun d => decide (d.onset < b + 1000) && decide (b < d.stop) }
    { c with pow := w }

/-- GTS of the next refill boundary and of the next rotation (R441, 11 R249). -/
def nextRefill (s : State) : Nat := 1000 * (s.mod.refills + 1)
def nextRotation (s : State) : Nat := 65536 * (s.mod.rotations + 1)

/-- REFILL_BOUNDARY when GTS has reached it; before that nothing happens. -/
def execRefillBoundary (s : State) : Out :=
  let b := nextRefill s
  if s.gts < b then .next s
  else
    let s := s.modMod fun m => { m with refills := m.refills + 1 }
    .next (((List.range 64).filter s.present).foldl (refillCluster b) s)

/-- The boundaries of a clamp have passed: R slews again (R447). Before that nothing happens. -/
def execClampEnd (cluster : Nat) (s : State) : Out :=
  if cluster < 64 then
    if (s.cluster cluster).pow.clamp = 1 then .next (s.modCluster cluster fun c => { c with pow := { c.pow with clamp := 0 } })
    else .next s
  else .fault .noSuchUnit

/-- A declaration reaches its end GTS (R444). Before that nothing happens. -/
def execBurstDeclarationExpiry (core : Nat) (s : State) : Out :=
  if core < 256 then
    match (s.proc core).burst with
    | some b => if b.stop ≤ s.gts then .next (s.modProc core fun v => { v with burst := none }) else .next s
    | none => .next s
  else .fault .noSuchUnit

/-! ## PHASE, PACE, QUOTA (R443, R444, R451) -/

/-- The declaration PHASE makes at GTS t (R444). -/
def phaseBurst (w : Power) (t lead len i x : Nat) : Burst :=
  let d := declRate w i - w.rbase
  let ramp := ceilDiv d Config.slew * 1000
  ⟨t + lead, t + lead + len, i, x, max t (t + lead - ramp)⟩

def execPhase (gd : Guard) (a b : BitVec 5) (i : BitVec 4) (s : State) : Out :=
  ccRun .control false gd 6 (fun p => do
    let w ← ccWho p
    let lead := (← getS p a).toNat
    let len := (← getS p b).toNat
    need (decide (lead ≤ 10000000) && decide (len ≤ 10000000)) .shape
    if len = 0 then doS fun s => s.modProc p fun v => { v with burst := none }
    else
      let s ← get
      let pw := (s.cluster (clusterOf p)).pow
      let d := phaseBurst pw s.gts lead len i.toNat w.ctx
      doS fun s => s.modProc p fun v => { v with burst := some d }
      if d.onset < nextRefill s then
        doS fun s => s.modCluster (clusterOf p) fun c => { c with pow := { c.pow with allow := max c.pow.allow (declRate pw d.i) } }
    return .next) s

def execPace (gd : Guard) (d a : BitVec 5) (mask : BitVec 4) (s : State) : Out :=
  ccRun .control false gd 6 (fun p => do
    let r := (← get).cc p
    let v := r.readS a
    let old := (List.range 4).foldl (fun n i => n + (SMap.get 0 r.pace i).toNat * 2 ^ (16 * i)) 0
    let new := (List.range 4).foldl (fun m i => if mask.getLsbD i then SMap.set 0 m i (fld v (16 * i) 16) else m) r.pace
    doS fun s => s.modCC p fun r => { r with pace := new }
    putS p d (BitVec.ofNat 64 old)
    return .next) s

/-- The word at QB + 0x10 (R448). -/
def Quota.ctl (q : Quota) : Word :=
  let b (c : Bool) (i : Nat) : Nat := if c then 2 ^ i else 0
  BitVec.ofNat 64 (q.und.toNat * 2 ^ 32 + b q.thr 7 + b q.exh 6 + b q.pol 3 + b q.en 0)

def execQuota (gd : Guard) (d : BitVec 5) (sel : BitVec 2) (s : State) : Out :=
  ccRun .any false gd 6 (fun p => do
    let w ← ccWho p
    let q := ((← get).ctx w.ctx).quota
    putS p d (match sel.toNat with
      | 0 => q.qbal
      | 1 => q.qused
      | 2 => q.qovd
      | _ => q.ctl)
    return .next) s

/-! ## Watchdog, fallback, thermal trips (R452, R453) -/

def petOp (s : State) : State := s.modMod fun m => { m with pet := m.gts, fallback := m.fallback && m.force }
def forceOp (s : State) : State := s.modMod fun m => { m with force := true, fallback := true }

def execWatchdogPet (s : State) : Out := .next (petOp s)
def execFallbackForce (s : State) : Out := .next (forceOp s)

/-- 2 ms of GTS. -/
def watchdogLimit : Nat := 2000000

/-- 2 ms have passed without a PET: fallback begins, with a record in every context not FREE (R349, R453). Before that, or
in fallback, nothing happens. -/
def execWatchdogExpiry (s : State) : Out :=
  if s.mod.fallback || s.gts < s.mod.pet.toNat + watchdogLimit then .next s
  else
    let s := s.modMod fun m => { m with fallback := true }
    .next ((List.range 16).foldl (fun s x =>
      if (s.ctx x).d.st = .free then s else writeRecord s x .note { cause := .watchdog, unit := 9 }) s)

/-- A sensor reaches 105 C (R452): the trip is counted and its flag set (22 R461). A trip in progress goes on. -/
def execThermalTrip (s : State) : Out :=
  if s.mod.trip then .next s
  else .next (s.modMod fun m =>
    let h := m.health
    { m with trip := true, health := { h with trips := h.trips + 1, hflag := h.hflag ||| 2 } })

/-- Every sensor reads below 100 C: R restarts at RFLOOR (R452). Without a trip nothing happens. -/
def execThermalTripEnd (s : State) : Out :=
  if s.mod.trip then
    .next (((List.range 64).filter s.present).foldl (fun s c =>
      s.modCluster c fun v => { v with pow := { v.pow with r := v.pow.rfloor } }) (s.modMod fun m => { m with trip := false }))
  else .next s

end Sys2Proof.Machine
end

