-- ==== Sys2Proof/Machine/Engine.lean ====
section
/-! DEFINITION. The vector engine and the Press as stream engines: dequeue of commands, the block sequencer, stage and FL
tests, pacing, charge, token actions, raises, markers (12_engine_queues_and_streams.md R268-R275; 20 R432; 04 R92, R97,
R98). -/

namespace Sys2Proof.Machine

/-! ## Sequencers -/

def streamEng (px : Bool) : Eng := if px then .px else .ve
def seqr (s : State) (p : Nat) (px : Bool) : Sequencer := if px then (s.proc p).eng.px else (s.proc p).eng.ve
def modSeqr (s : State) (p : Nat) (px : Bool) (f : Sequencer → Sequencer) : State :=
  s.modEng p fun g => if px then { g with px := f g.px } else { g with ve := f g.ve }

/-- Handle slots of the VE or of the Press stream of a core (R270). -/
def VERegs.slots (v : VERegs) (px : Bool) : SMap Handle := if px then v.ph else v.vh
def VERegs.slot (v : VERegs) (px : Bool) (k : Nat) : Handle := SMap.get 0 (v.slots px) k
def VERegs.setSlot (v : VERegs) (px : Bool) (k : Nat) (h : Handle) : VERegs :=
  if px then { v with ph := SMap.set 0 v.ph k h } else { v with vh := SMap.set 0 v.vh k h }

/-! ## Rings (R269, R74) -/

/-- One parcel; none when its sector is poisoned. -/
def ringParcel (s : State) (p : Nat) (px : Bool) (n : Nat) : Option Parcel :=
  let k := ringKey s p px n
  if s.mem.poisoned k 2 then none else some (BitVec.ofNat 16 (s.mem.read k 2))

/-- The parcel after n in the stream: of the block's copy inside a block, of the ring outside. -/
def streamParcel (s : State) (p : Nat) (px : Bool) (q : Sequencer) (k : Nat) : Option (Option Parcel) :=
  match q.block with
  | some b => b.body[b.pos + k]?
  | none => some (ringParcel s p px (q.pc + k))

/-! ## Ends of items -/

/-- A command whose blocks have run, raised and pushed is complete. -/
def Sequencer.settle (q : Sequencer) : Sequencer :=
  if q.block.isNone && q.push.isNone && q.raise.isNone && q.blocks == 0 then q.halt else q

/-- Go past an instruction of n parcels. -/
def Sequencer.advance (q : Sequencer) (n : Nat) : Sequencer :=
  let q := { q with phase := .fresh, popped := none, rows := 0, writing := none, word := none, note := 0, resumed := false }
  match q.block with
  | some b => { q with block := some { b with pos := b.pos + n } }
  | none => { q with pc := q.pc + n, blocks := q.blocks - 1 }

/-- Every write of an engine of the core has performed and is folded (R260). -/
def writesDone (s : State) (p : Nat) (e : Eng) : Bool :=
  (s.proc p).coh.acks.isEmpty && !(s.fl.remotes.any fun r => r.q == p && r.eng == some e)

/-- A fault of a stream's instruction: the token it popped returns, no token action is left (R178, R268), and the command
stops or ends (R331). -/
def streamFault (s : State) (p : Nat) (px : Bool) (cap : Capture) (c : Cause) (addr loc : Nat) (detail : BitVec 24) : State :=
  let e := streamEng px
  let q := seqr s p px
  let desc := match q.popped with
    | some (v, n) => s.modQ p fun k => setTokens k n (v :: tokens k n)
    | none => s
  let s := modSeqr desc p px fun q => { q with popped := none }
  let s := dropWaiter (clearAnswers p (some e) (setStall s p (some e) 0)) p e
  engineFault s p e cap { cause := c, unit := if px then 2 else 1, core := p, faddr := addr, loc := loc, detail := detail }

/-! ## An instruction of a stream -/

/-- The core whose stream a unit runs: for the Press, the lease holder. -/
def streamCore (s : State) (px : Bool) : Option Nat :=
  match s.actor with
  | .ve p => if px then none else some p
  | .px c => if px then (s.cluster c).press.holder.map fun k => c * 4 + k else none
  | _ => none

/-- What an instruction of a stream runs under: core, engine, captured values, iteration, parcel offset in its body. -/
structure Item where
  p : Nat
  px : Bool
  cap : Capture
  it : Nat
  off : Nat
  deriving DecidableEq, Repr

def Item.who (t : Item) : Who := ⟨t.p, some (streamEng t.px), t.cap.ctx, t.p⟩

/-- The token-action descriptor of a TK field; none: TK names an undefined one (R97, R271). TK 0 has no action. -/
def Sequencer.token (q : Sequencer) (tk : BitVec 3) : Option (BitVec 16) :=
  if tk = 0 then some 0
  else match q.tks with
    | none => none
    | some l => let d := l.getD (tk.toNat - 1) 0; if d.getLsbD 15 then some d else none

/-- First and last iterations of the innermost level (R273). -/
def Sequencer.firstLast (q : Sequencer) : Bool × Bool :=
  match q.block with
  | none => (true, true)
  | some b => let d := b.dims.getLastD 1; (b.it % d == 0, b.it % d == d - 1)

/-- The STG and FL tests and the VBRZ skip let the instruction run (R77 check 5). They are made once, before its dequeue
(R162). -/
def streamRuns (s : State) (p : Nat) (q : Sequencer) (c : VCom) : Bool :=
  let fl := q.firstLast
  q.phase != .fresh ||
  (match q.block with | some b => b.skip == 0 | none => true) &&
  !(c.fl == 1 && !fl.1) && !(c.fl == 2 && !fl.2) &&
  (c.stg == 0 || (s.ve p).sp.getLsbD (c.stg.toNat - 1))

/-- A skipped instruction (R160, R273). -/
def Sequencer.skipOver (q : Sequencer) (n : Nat) : Sequencer :=
  let q := q.advance n
  { q with block := q.block.map fun b => { b with skip := b.skip - 1 } }

/-- Key of an engine's pacing register (R122, R443). -/
def paceKey : Eng → Nat
  | .ve => 0 | .hl => 1 | .hs => 2 | .px => 3

/-- The gap of the pushing core, or of the lease holder for the Press, has passed since the last dequeue (R275). -/
def paceOver (s : State) (core : Nat) (e : Eng) (last : Option Word) : Bool :=
  match last with
  | none => true
  | some t => decide (t.toNat + (SMap.get 0 (s.cc core).pace (paceKey e)).toNat ≤ s.gts)

/-- The live weight of a class in the core's cluster (R379, R439). -/
def classWeight (s : State) (p k : Nat) : Nat := (weightOf (s.cluster (clusterOf p)).wt.live k).toNat

/-- GTS of an engine's previous dequeue; the Press's is its own, whoever held the lease (R275). -/
def lastDequeue (s : State) (p : Nat) (px : Bool) : Option Word :=
  if px then (s.cluster (clusterOf p)).press.last else (seqr s p false).last
def noteDequeue (s : State) (p : Nat) (px : Bool) : State :=
  if px then s.modPress (clusterOf p) fun pr => { pr with last := some s.mod.gts }
  else modSeqr s p false fun q => { q with last := some s.mod.gts }

/-- The Press has writes outstanding for another core of its cluster, a former holder (10 R224). -/
def formerWrites (s : State) (p : Nat) : Bool :=
  s.fl.remotes.any fun r => r.eng == some .px && r.q != p && clusterOf r.q == clusterOf p

/-- Dequeue of an instruction: pacing, then charge (R275). -/
def streamDequeue (p : Nat) (px : Bool) (x cost : Nat) : M Unit := do
  let s ← get
  let e := streamEng px
  match (seqr s p px).phase with
  | .paid => pure ()
  | ph =>
    await (!px || !formerWrites s p)
    await (ph == .charging || paceOver s p e (lastDequeue s p px)) 0x11
    doS fun s => modSeqr s p px fun q => { q with phase := .charging }
    charge p e x cost
    doS fun s => noteDequeue (modSeqr s p px fun q => { q with phase := .paid }) p px

/-- The token queue that the CC's PUSH fills, and so releases the CC's earlier accesses to whoever pops it (R276, R259). -/
def pushedQueue : Nat := 4

/-- The pop of a token-action descriptor (R268, R260). -/
def streamPop (p : Nat) (px : Bool) (d : BitVec 16) : M Unit := do
  let s ← get
  if d.getLsbD 14 && (seqr s p px).popped.isNone then
    let n := (fld d 11 3).toNat
    await (n != pushedQueue || !(s.fl.remotes.any fun r => r.q == p && r.eng.isNone))
    match tokens (s.proc p).q n with
    | [] => waitM 0x13
    | v :: vs =>
      doS fun s => acquireCo (s.modQ p fun k => setTokens k n vs) p
      doS fun s => modSeqr s p px fun q => { q with popped := some (v, n) }

/-- Run one instruction of a stream, `len` parcels long: descriptor check, tests, dequeue at `cost`, token pop, body; the
token push is owed (R77, R268). A wait leaves the instruction at the head of its engine. -/
def streamRun (px : Bool) (c : VCom) (len : Nat) (cost : State → Nat → Nat) (body : Item → M Unit) (s : State) : Out :=
  match streamCore s px with
  | none => .fault .wrongUnit
  | some p =>
    let q := seqr s p px
    let e := streamEng px
    match q.cap with
    | none => .fault .wrongUnit
    | some cap =>
      let loc := ringKey s p px q.here
      match q.token c.tk with
      | none => .next (streamFault s p px cap .engill 0 loc 0)
      | some d =>
        if !streamRuns s p q c then
          .next (setStall (modSeqr s p px fun q => (q.skipOver len).settle) p (some e) 0)
        else
          let t : Item := ⟨p, px, cap, (q.block.map (·.it)).getD 0, (q.block.map (·.pos)).getD 0⟩
          match (do streamDequeue p px cap.ctx (cost s p); streamPop p px d; body t : M Unit) s with
          | .ok _ s =>
            let push := if d.getLsbD 10 then some (fld d 7 3).toNat else none
            let s := modSeqr s p px fun q => ({ (q.advance len) with push := push }).settle
            .next (clearAnswers p (some e) (setStall s p (some e) 0))
          | .error (.fault c a _ dt) s => .next (streamFault s p px cap c a loc dt)
          | .error (.wait ev) s => .next (setStall s p (some e) (ev + 1))

/-- The registers of the core whose engine runs. -/
def Item.regs (t : Item) : M VERegs := do return (← get).ve t.p
def Item.modRegs (t : Item) (f : VERegs → VERegs) : M Unit := doS fun s => s.modVE t.p f
def Item.formats (t : Item) : M Captured := do
  let q := seqr (← get) t.p t.px
  return ⟨q.fmts, t.cap.core, t.cap.fmt⟩

/-! ## SRBits of an engine (R61, R62) -/

/-- The seed under a capture: sr.seed as captured, or l9 when it is 0. -/
def srSeed (s : State) (c : Capture) : Nat :=
  if c.seed = 0 then (SMap.get 0 (s.ctx c.ctx).loops 9).toNat else c.seed.toNat
/-- The step: l0. -/
def srStep (s : State) (c : Capture) : Nat := (SMap.get 0 (s.ctx c.ctx).loops 0).toNat
/-- The expansion index of the command's brick. -/
def srBrick (s : State) (c : Capture) : Nat := ((s.brick c.core c.tag).map (·.b.eidx.toNat)).getD 0

/-- u of element i of a vector instruction. -/
def Item.sr (t : Item) (s : State) (i : Nat) : Nat :=
  srBits (srSeed s t.cap) (H.tile ((s.ve t.p).slot false 0))
    (srBrick s t.cap * 2 ^ 40 + t.it % 2 ^ 20 * 2 ^ 20 + t.off % 2 ^ 10 * 2 ^ 10 + i) (srStep s t.cap)

/-- The rounding mode of a field under a capture (R58). -/
def capMode (c : Capture) (rm : BitVec 3) : RMode := RMode.of rm.toNat c.rm.toNat

/-! ## Block headers (R92, R273, R274) -/

/-- The body a block copies (R79). -/
def bodyParcels (s : State) (p : Nat) (px : Bool) (start len : Nat) : List (Option Parcel) :=
  (List.range len).map fun k => ringParcel s p px (start + k)

/-- Loop bounds of a block: REP, or the bounds of its levels. -/
def blockDims (nest : SMap Nest) (lvl rep : Nat) : List Nat :=
  if lvl = 0 then [rep] else (List.range lvl).map fun l => (SMap.get Nest.reset nest (l + 1)).bound.toNat

def VERegs.nest (v : VERegs) (px : Bool) : SMap Nest := if px then v.pnest else v.vnest

/-- A block header: its await is a waiter of the semaphore and an acquire (R274); the body is copied as the block starts. -/
def execBlk (lvl : BitVec 3) (len : BitVec 10) (await raise : BitVec 6) (rep : BitVec 10) (s : State) : Out :=
  let px := match s.actor with | .px _ => true | _ => false
  match streamCore s px with
  | none => .fault .wrongUnit
  | some p =>
    let q := seqr s p px
    let e := streamEng px
    match q.cap with
    | none => .fault .wrongUnit
    | some cap =>
      if q.block.isSome then .next (streamFault s p px cap .engill 0 (ringKey s p px q.here) 0)
      else match (do
          if await != 0 then
            semTake p (some (p, e)) await.toNat 1
            doS fun s => acquireCo s p : M Unit) s with
        | .ok _ s =>
          let v := s.ve p
          let b : Block := ⟨lvl.toNat, rep.toNat, raise.toNat, bodyParcels s p px (q.pc + 3) len.toNat, q.pc + 3, 0, 0,
            blockDims (v.nest px) lvl.toNat rep.toNat, (List.range 4).map fun k => H.base (v.slot px k), 0⟩
          .next (setStall (modSeqr s p px fun q => { q with block := some b, word := none }) p (some e) 0)
        | .error (.wait ev) s => .next (setStall s p (some e) (ev + 1))
        | .error (.fault c a _ dt) s => .next (streamFault s p px cap c a (ringKey s p px q.here) dt)

/-- Iterations of a block. -/
def Block.total (b : Block) : Nat := b.dims.foldl (· * ·) 1

/-- Element offset of slot k at iteration `it`: innermost bound first, with its level (R273). -/
def strideSum (nest : SMap Nest) (k : Nat) : List Nat → Nat → Nat → Int
  | [], _, _ => 0
  | d :: ds, l, it =>
    ((it % d : Nat) : Int) * (fld (SMap.get Nest.reset nest l).strides (16 * k) 16).toInt + strideSum nest k ds (l - 1) (it / d)

/-- Move the handle slots to an iteration; false: SHAPE at the first slot that cannot move (R273). -/
def moveSlots (px : Bool) (b : Block) (it : Nat) : List Nat → VERegs → VERegs × Bool
  | [], v => (v, true)
  | k :: ks, v =>
    let n := strideSum (v.nest px) k b.dims.reverse b.lvl it
    let h := v.slot px k
    let bits := n * H.elemBits (H.fmt h)
    if n ≠ 0 && (!H.fmtOk h || bits % 8 ≠ 0) then (v, false)
    else moveSlots px b it ks (v.setSlot px k (H.put h 0 52 (trunc 52 (((b.bases.getD k 0).toNat : Int) + bits / 8))))

/-- The slots' bases as the block found them. -/
def restoreSlots (px : Bool) (b : Block) (v : VERegs) : VERegs :=
  (List.range 4).foldl (fun v k => v.setSlot px k (H.put (v.slot px k) 0 52 (b.bases.getD k 0).toNat)) v

/-- The end of a block: bases restored, its raise owed (R273). A block without a raise (0) still waits for its writes. -/
def endBlock (s : State) (p : Nat) (px : Bool) (b : Block) : State :=
  let owed := if b.raise = 0 && writesDone s p (streamEng px) then none else some b.raise
  modSeqr (s.modVE p (restoreSlots px b)) p px fun q =>
    ({ q with block := none, pc := b.start + b.body.length, blocks := q.blocks - 1, raise := owed }).settle

/-- A block whose body has run goes on to its next iteration, or ends; one without iterations ends. -/
def nextIteration (s : State) (p : Nat) (px : Bool) (cap : Capture) (b : Block) : State :=
  if b.total ≤ b.it + 1 then endBlock s p px b
  else
    let (v, ok) := if b.lvl = 0 then (s.ve p, true) else moveSlots px b (b.it + 1) (List.range 4) (s.ve p)
    let s := s.modVE p fun _ => v
    if ok then modSeqr s p px fun q => { q with block := some { b with it := b.it + 1, pos := 0, skip := 0 } }
    else streamFault s p px cap .shape 0 (ringKey s p px (b.start - 3)) 0

/-- The sequencer is between two iterations or at the end of a block. -/
def Sequencer.atBoundary (q : Sequencer) : Bool :=
  match q.block with
  | some b => decide (b.total ≤ b.it) || decide (b.body.length ≤ b.pos)
  | none => false

/-! ## Events of the stream engines -/

/-- The core exists, and for its Press stream the lease is its own. -/
def streamHeld (s : State) (core : Nat) (px : Bool) : Bool :=
  !px || (s.cluster (clusterOf core)).press.holder == some (core % 4)

/-- The pushing core's earlier accesses to other modules and the host have performed (R259). -/
def pushReleased (s : State) (c : Capture) : Bool := !(s.fl.remotes.any fun r => r.core == c.core && r.eng.isNone)

/-- The stream record of a command (R271): the one with the largest first offset not above the entry. -/
def selectRecord (s : State) (x : Nat) (px : Bool) (entry : Nat) : Option (List (BitVec 16)) :=
  match (s.ctx x).hof with
  | none => none
  | some h => h.streams.foldl (fun b r => if r.1 == px && decide (r.2.1 ≤ entry) then some r.2.2 else b) none

/-- The handles a KICK carries go to the slots (R270). -/
def loadSlots (px : Bool) : Nat → List Handle → VERegs → VERegs
  | _, [], v => v
  | k, h :: hs, v => loadSlots px (k + 1) hs (v.setSlot px k h)

/-- A stream start, whose ring must exist (R270). -/
def startStream (s : State) (core : Nat) (px : Bool) (c : Capture) (entry nb : Nat) (hs : List Handle) : State :=
  let s := s.modVE core (loadSlots px 0 hs)
  let fmts := snapFormats s c.ctx
  let tks := selectRecord s c.ctx px entry
  let s := modSeqr s core px fun q => { Sequencer.reset with last := q.last, cap := some c, tks := tks, fmts := fmts, pc := entry, blocks := nb }
  if ringSize (ringDesc s core px) = 0 then streamFault s core px c .engill 0 0 0 else s

/-- A NEST command takes effect (R272). -/
def setNest (s : State) (core : Nat) (px : Bool) (lvl : Nat) (n : Nest) : State :=
  s.modVE core fun v =>
    if px then { v with pnest := SMap.set Nest.reset v.pnest lvl n } else { v with vnest := SMap.set Nest.reset v.vnest lvl n }

/-- An idle VE or Press takes the oldest stream start or NEST of its queue (R270-R272). Where there is none to take nothing
happens. -/
def execEngineDequeue (core : Nat) (px : Bool) (s : State) : Out :=
  if core < 256 then
    let q := seqr s core px
    let l := engineQueue (s.proc core).q (streamEng px)
    let rest (s : State) : State := s.modQ core fun k => setEngineQueue k (streamEng px) l.tail
    if q.cap.isSome || q.serving.isSome || !streamHeld s core px then .next s
    else match l.head? with
      | some (.kick c entry nb hs) =>
        if pushReleased s c then .next (startStream (rest s) core px c entry nb hs) else .next s
      | some (.nest c lvl n) => if pushReleased s c then .next (setNest (rest s) core px lvl n) else .next s
      | _ => .next s
  else .fault .noSuchUnit

/-- The end of a block, with its raise, once its writes have performed (R273, R260). Before that, or with none owed, nothing
happens. -/
def execBlockRaise (core : Nat) (px : Bool) (s : State) : Out :=
  if core < 256 then
    match (seqr s core px).raise with
    | some n =>
      if writesDone s core (streamEng px) then
        let s := if n = 0 then s else mergePs (semRaise s core n 1) core (wsOf s core)
        .next (modSeqr s core px fun q => ({ q with raise := none }).settle)
      else .next s
    | none => .next s
  else .fault .noSuchUnit

/-- Entries of a token queue. -/
def tokenMax : Nat := 64

/-- A token of value 0 enters queue n of the core, with its release (R268, R260). -/
def pushToken (s : State) (p n : Nat) : State :=
  mergePs (s.modQ p fun k => setTokens k n (tokens k n ++ [0])) p (wsOf s p)

/-- The hods of a core. -/
def hodOf (s : State) (core : Nat) (hs : Bool) : Hod := if hs then (s.proc core).eng.hs else (s.proc core).eng.hl
def modHod (s : State) (core : Nat) (hs : Bool) (f : Hod → Hod) : State :=
  s.modEng core fun g => if hs then { g with hs := f g.hs } else { g with hl := f g.hl }

/-- The token an engine owes: a stream instruction's (R268), or that of a hod chain whose last entry is done (R270). -/
def owedToken (s : State) (core : Nat) : Eng → Option Nat
  | .ve => (seqr s core false).push
  | .px => (seqr s core true).push
  | .hl => let h := hodOf s core false; if h.hphase = .finish then h.qpush else none
  | .hs => let h := hodOf s core true; if h.hphase = .finish then h.qpush else none

/-- The push owed is made. -/
def paidToken (s : State) (core : Nat) (e : Eng) : State :=
  match e with
  | .ve => modSeqr s core false fun q => ({ q with push := none }).settle
  | .px => modSeqr s core true fun q => ({ q with push := none }).settle
  | .hl => modHod s core false fun h => h.halt
  | .hs => modHod s core true fun h => h.halt

/-- The token push an engine owes, once its writes have performed and the queue has room (R268, R266). Before that, or with
none owed, nothing happens. -/
def execTokenPush (core : Nat) (e : Eng) (s : State) : Out :=
  if core < 256 then
    match owedToken s core e with
    | some n =>
      if writesDone s core e && decide ((tokens (s.proc core).q n).length < tokenMax) then
        .next (setStall (paidToken (pushToken s core n) core e) core (some e) 0)
      else .next (setStall s core (some e) (if writesDone s core e then 0x14 else 0))
    | none => .next s
  else .fault .noSuchUnit

/-- The item an engine waits with at its pacing gap (R275). -/
def pacedItem (s : State) (core : Nat) (e : Eng) : Option (Phase × Option Word × Nat) :=
  match e with
  | .ve => some ((seqr s core false).phase, lastDequeue s core false, core)
  | .px => some ((seqr s core true).phase, lastDequeue s core true, core)
  | .hl => let h := hodOf s core false; h.cap.map fun c => (h.phase, h.last, c.core)
  | .hs => let h := hodOf s core true; h.cap.map fun c => (h.phase, h.last, c.core)

/-- The gap an engine waits for has passed: its item joins the waiters for charge (R275, R442). Otherwise nothing
happens. -/
def execPacingGapExpiry (core : Nat) (e : Eng) (s : State) : Out :=
  if core < 256 then
    match pacedItem s core e with
    | some (.fresh, last, pacer) =>
      if SMap.get 0 (s.proc core).stall (unitKey (some e)) = 0x12 && paceOver s pacer e last then
        let s := match e with
          | .ve => modSeqr s core false fun q => { q with phase := .charging }
          | .px => modSeqr s core true fun q => { q with phase := .charging }
          | .hl => modHod s core false fun h => { h with phase := .charging }
          | .hs => modHod s core true fun h => { h with phase := .charging }
        .next (setStall (s.modCluster (clusterOf core) fun c =>
          { c with pow := { c.pow with waiters := c.pow.waiters ++ [(core, e)] } }) core (some e) 0x11)
      else .next s
    | _ => .next s
  else .fault .noSuchUnit

/-- A post on this module by an engine of the core: only hods post (13 R293). -/
def engPosts (core : Nat) (e : Eng) (q : Post) : Bool :=
  match e with
  | .hl => q.src == .hod core false
  | .hs => q.src == .hod core true
  | _ => false

/-- A marker at the head of an idle engine's queue completes once the writes and posts of the commands ahead have performed;
a Press marker needs the lease and no gathered command that was pushed before it (R432). Otherwise nothing happens. -/
def execMarkerComplete (core : Nat) (e : Eng) (s : State) : Out :=
  if core < 256 then
    let x := s.proc core
    match engineQueue x.q e with
    | .marker g :: rest =>
      if (engineCap x e).isNone && writesDone s core e &&
          !(s.fl.posts.any (engPosts core e)) &&
          (e != .px || (streamHeld s core true && !gatheredBefore s core g))
      then .next (markDone (s.modQ core fun k => setEngineQueue k e rest) core e 1)
      else .next s
    | _ => .next s
  else .fault .noSuchUnit

end Sys2Proof.Machine
end

