-- ==== Sys2Proof/Machine/FaultQueue.lean ====
section
/-! DEFINITION. FQPOP, FQRESUME and FQDROP (15_faults_preemption_context.md R338-R341). -/

namespace Sys2Proof.Machine

/-- The cause of a code (R325). -/
def Cause.ofCode (c : Nat) : Cause :=
  match c with
  | 0x01 => illop | 0x02 => priv | 0x03 => fetch | 0x04 => xlate | 0x05 => perm | 0x06 => align | 0x07 => window
  | 0x08 => fmtmismatch | 0x09 => tilewait | 0x0A => mstk | 0x0B => shape | 0x0C => engill | 0x0D => hodill | 0x0E => eccu
  | 0x0F => acclim | 0x10 => accerr | 0x11 => linkerr | 0x12 => trapi | 0x13 => abandon | 0x20 => preempt | 0x21 => quota
  | 0x22 => watchdog | _ => timer

/-- What a record says, read back from its bits (R335). -/
def Rec.ofWord (w : BitVec 512) : Rec :=
  { cause := Cause.ofCode (fld w 280 8).toNat, unit := (fld w 268 4).toNat, core := (fld w 272 8).toNat
    faddr := (fld w 364 52).toNat, loc := (fld w 312 52).toNat, detail := fld w 288 24, st := w.getLsbD 264
    dbl := w.getLsbD 256 }

/-- FQRESUME of a pending record (R338). -/
def resumeRecord (s : State) (x : Nat) : Actionable → State
  | .park cl b => requeue (obUnparked s x b.graph b.primary) cl b
  | .stopCc p => s.modProc p fun v => { v with run := match v.run with
      | .stopped c _ => .running c
      | r => r }
  | .stopEng core e =>
    let s := setStop s core e none
    -- a Press instruction goes on from row group RG (R332, 10 R245)
    if e = .px && (s.proc core).eng.px.serving.isNone then
      s.modEng core fun v => { v with px := { v.px with rows := rowGroup (s.cc core).rowprog, resumed := true } }
    else s

/-- The brick that a stopped core's fault is about: the current one, or the requester's of a lookup core's job. -/
def stoppedBrick (s : State) (p : Nat) : Option (Nat × BitVec 3) :=
  if p < 256 then (s.proc p).cur.map fun t => (p, t)
  else (s.lookup (p - 256)).cur.bind fun j => if j.orphan then none else some (j.rcore, j.btag)

/-- FQDROP of a pending record: a stop becomes a brick fault with its cause, poisoned in either mode, and a core that had
stopped goes on at its instruction (R332, R338; DEDUCED for the core, log 13). -/
def dropRecord (s : State) (x : Nat) (w : BitVec 512) : Actionable → State
  | .park _ b => bricksGone (obUnparked s x b.graph b.primary) x b.graph b.primary 1 true 0
  | .stopCc p =>
    let t := resumeRecord s x (.stopCc p)
    match stoppedBrick s p with
    | some b => brickFault t b.1 b.2 (Rec.ofWord w) true
    | none => t
  | .stopEng core e =>
    match if e = .px then (s.proc core).eng.px.serving else none with
    | some g => brickFault (s.modEng core fun v => { v with px := v.px.endServing }) core g.cap.tag (Rec.ofWord w) true
    | none =>
    match engineCap (s.proc core) e with
    | some c => brickFault (endCommand s core e) c.core c.tag (Rec.ofWord w) true
    | none => s

def execFqpop (gd : Guard) (d a : BitVec 5) (s : State) : Out :=
  ccRun .any false gd 6 (fun p => do
    let w ← ccWho p
    let va := (← getS p a).toNat
    need (va % 64 == 0) .align va
    let pl ← resolve w (va % 2 ^ 52) 64 .write
    need (pl.kind != .mmio) .perm pl.va
    let s ← get
    let q := (s.ctx w.ctx).fq
    if q.count = 0 then putS p d 0
    else
      let key := recordKey s w.ctx q.head
      let bad := s.mem.poisoned key 64
      let r := if bad then 0 else s.mem.read key 64
      (List.range 8).forM fun i =>
        store w { pl with key := pl.key + 8 * i, va := pl.va + 8 * i } 8 (r / 2 ^ (64 * i) % 2 ^ 64) ⟨0, 0, i, none⟩
      let n := q.count - 1
      doS fun s => s.modCtx w.ctx fun c => { c with fq := { c.fq with count := n, head := (q.head + 1) % 256 } }
      putS p d (BitVec.ofNat 64 (2 ^ 63 + (if bad then 2 ^ 62 else 0) + n * 2 ^ 32 + (SMap.get 0 q.seqs q.head).toNat))
    return .next) s

/-- FQRESUME and FQDROP: act on the pending entry, remove it, status 0; 1 without such an entry (R340). -/
def fqAct (gd : Guard) (d a : BitVec 5) (act : State → Nat → BitVec 512 → Actionable → State) (s : State) : Out :=
  ccRun .any false gd 6 (fun p => do
    let w ← ccWho p
    let _ ← release p 2
    let s ← get
    let seq : BitVec 32 := ((s.cc p).readS a).setWidth 32
    match (s.ctx w.ctx).fq.pend.find? fun e => e.1 == seq with
    | none => putS p d 1
    | some (_, e, r) =>
      putS p d 0
      doS fun s =>
        act (s.modCtx w.ctx fun c => { c with fq := { c.fq with pend := c.fq.pend.filter fun e => e.1 != seq } }) w.ctx r e
    return .next) s

def execFqresume (gd : Guard) (d a : BitVec 5) (s : State) : Out := fqAct gd d a (fun s x _ e => resumeRecord s x e) s
def execFqdrop (gd : Guard) (d a : BitVec 5) (s : State) : Out := fqAct gd d a dropRecord s

end Sys2Proof.Machine
end

