-- ==== Sys2Proof/Machine/VeRegs.lean ====
section
/-! DEFINITION. The registers of a vector engine: element views, shape, rotating base, mask stack, and the form every
computing instruction runs in (07_vector_registers.md R150-R158, R164). -/

namespace Sys2Proof.Machine

/-! ## Types (R151) -/

def vInt (t : BitVec 4) : Bool := decide (t.toNat ≤ 5)
def vFp (t : BitVec 4) : Bool := decide (6 ≤ t.toNat) && decide (t.toNat ≤ 8)
def vSigned (t : BitVec 4) : Bool := vInt t && t.toNat % 2 == 0
/-- Width of an element (R150). -/
def vBits (t : BitVec 4) : Nat :=
  match t.toNat with
  | 0 => 8 | 1 => 8 | 2 => 16 | 3 => 16 | 4 => 32 | 5 => 32 | 6 => 32 | 7 => 16 | 8 => 16 | 9 => 8 | 10 => 8
  | 11 => 6 | 12 => 6 | 13 => 4 | 14 => 8 | _ => 6
/-- The storage code of a vector type (R210). -/
def vCode (t : BitVec 4) : Nat :=
  match t.toNat with
  | 0 => 1 | 1 => 2 | 2 => 3 | 3 => 4 | 4 => 5 | 5 => 6 | 6 => 9 | 7 => 10 | 8 => 11 | 9 => 12 | 10 => 13 | 11 => 14
  | 12 => 15 | 13 => 16 | 14 => 17 | _ => 18
/-- The format of a floating or narrow type. -/
def vFmt (t : BitVec 4) : FFmt :=
  match t.toNat with
  | 7 => .fp16 | 8 => .bf16 | 9 => .e4m3 | 10 => .e5m2 | 11 => .e3m2 | 12 => .e2m3 | 13 => .e2m1 | 14 => .t8 | 15 => .t6
  | _ => .fp32

/-- The exact value of an element. -/
def vVal (t : BitVec 4) (x : Nat) : XVal := decodeElem (vCode t) x
/-- The integer an element holds. -/
def vIntVal (t : BitVec 4) (x : Nat) : Int := if vSigned t then signExt (vBits t) x else (x : Int)

/-! ## Registers and elements (R150, R153) -/

/-- w bits from bit lo of a register. -/
def getBits (r : VReg) (lo w : Nat) : Nat := (r.toNat >>> lo) % 2 ^ w
def putBits (r : VReg) (lo w x : Nat) : VReg :=
  (r &&& ~~~(BitVec.ofNat 4096 ((2 ^ w - 1) <<< lo))) ||| BitVec.ofNat 4096 ((x % 2 ^ w) <<< lo)
/-- Element i of width w. -/
def elem (r : VReg) (w i : Nat) : Nat := getBits r (w * i) w
/-- Write elements of width w. -/
def putElems (w : Nat) : List (Nat × Nat) → VReg → VReg
  | [], r => r
  | (i, x) :: l, r => putElems w l (putBits r (w * i) w x)

namespace VERegs

/-- The physical register a field names (R153). -/
def phys (v : VERegs) (j : BitVec 5) : Nat := if j.toNat < 16 then j.toNat else 16 + (j.toNat - 16 + v.rrb.toNat) % 16
def reg (v : VERegs) (j : BitVec 5) : VReg := SMap.get 0 v.v (v.phys j)
def setReg (v : VERegs) (j : BitVec 5) (x : VReg) : VERegs := { v with v := SMap.set 0 v.v (v.phys j) x }

/-! Shape (R155). -/
def rows (v : VERegs) : Nat := (fld v.vsh 0 6).toNat + 1
def cols (v : VERegs) : Nat := (fld v.vsh 6 9).toNat + 1
def ty (v : VERegs) : BitVec 4 := fld v.vsh 16 4
def count (v : VERegs) : Nat := v.rows * v.cols
/-- N elements of a type fit a register (R156). -/
def fits (v : VERegs) (t : BitVec 4) : Bool := decide (v.count * vBits t ≤ 4096)

/-! Mask stack (R158). -/
def maskAt (v : VERegs) (k : Nat) : BitVec 1024 := if k = 0 then BitVec.allOnes 1024 else SMap.get 0 v.mask k
def top (v : VERegs) : BitVec 1024 := v.maskAt (v.depth.toNat - 1)
def setMask (v : VERegs) (k : Nat) (m : BitVec 1024) : VERegs :=
  if k = 0 then v else { v with mask := SMap.set 0 v.mask k m }
/-- Push an entry, or MSTK. -/
def pushMask (v : VERegs) (m : BitVec 1024) : Except Cause VERegs :=
  if v.depth.toNat ≥ 16 then .error .mstk
  else .ok { v.setMask v.depth.toNat m with depth := v.depth + 1 }

/-- The active elements of an instruction, ascending. -/
def active (v : VERegs) (m : Bool) : List Nat := (List.range v.count).filter fun i => !m || v.top.getLsbD i

/-- Write the active elements of v[VD] in type `t`. -/
def writeActive (v : VERegs) (m : Bool) (vd : BitVec 5) (t : BitVec 4) (f : Nat → Nat) : VERegs :=
  v.setReg vd (putElems (vBits t) ((v.active m).map fun i => (i, f i)) (v.reg vd))

end VERegs

/-- Weight classes of the vector engine (R380). -/
def clsElem : Nat := 16
def clsSpecial : Nat := 17
def clsFma : Nat := 18
def clsFold : Nat := 19
def clsMem : Nat := 20

/-- A computing instruction: a function of the registers, the random bits of each element and the captured values; SHAPE
or MSTK leaves everything as it was (R178). -/
def veCompute (c : VCom) (len cls : Nat) (f : (Nat → Nat) → Capture → VERegs → Except Cause VERegs) (s : State) : Out :=
  streamRun false c len (fun s p => classWeight s p cls) (fun t => do
    let s ← get
    match f (t.sr s) t.cap (s.ve t.p) with
    | .ok v => t.modRegs fun _ => v
    | .error e => faultM e) s

/-- SHAPE unless a condition holds. -/
def shape (b : Bool) (v : VERegs) : Except Cause VERegs := if b then .ok v else .error .shape

end Sys2Proof.Machine
end

