-- ==== Sys2Proof/Machine/Vector.lean ====
section
/-! DEFINITION. The computing instructions of the vector engine but for the special functions (07_vector_registers.md
R154-R161, R164-R177). -/

namespace Sys2Proof.Machine

/-! ## Element operations (R165) -/

/-- An element operation by integer and floating meaning; each gets the type and the patterns. -/
structure ElemOp where
  int : BitVec 4 → Nat → Nat → Nat
  fp : Option (FFmt → Nat → Nat → Nat)
  /-- on narrow types -/
  narrow : Option (BitVec 4 → Nat → Nat → Nat)

/-- The operation on a type; none: SHAPE. -/
def ElemOp.on (o : ElemOp) (t : BitVec 4) : Option (Nat → Nat → Nat) :=
  if vInt t then some (o.int t)
  else if vFp t then o.fp.map fun f => f (vFmt t)
  else o.narrow.map fun f => f t

/-- Round of an exact result under RNE. -/
def rnd (f : FFmt) (x : XVal) : Nat := roundF f .rne false 0 x

/-- An integer operation on the views of the type's signedness, wrapped. -/
def intWrap (g : Int → Int → Int) (t : BitVec 4) (a b : Nat) : Nat := trunc (vBits t) (g (vIntVal t a) (vIntVal t b))
/-- The same, clamped to the type's range. -/
def intSat (g : Int → Int → Int) (t : BitVec 4) (a b : Nat) : Nat :=
  trunc (vBits t) (clampInt (intMin (vSigned t) (vBits t)) (intMax (vSigned t) (vBits t)) (g (vIntVal t a) (vIntVal t b)))
/-- A floating operation, rounded once. -/
def fpRound (g : XVal → XVal → XVal) (f : FFmt) (a b : Nat) : Nat := rnd f (g (decodeF f a) (decodeF f b))

/-- Number-preferring choice (R165). -/
def preferNumber (g : XVal → XVal → XVal) (x y : XVal) : XVal := if x.isNaN then y else if y.isNaN then x else g x y

def opAdd : ElemOp := ⟨intWrap (· + ·), some (fpRound (XVal.add false)), none⟩
def opSub : ElemOp := ⟨intWrap (· - ·), some (fpRound fun x y => x.add false y.neg), none⟩
def opMul : ElemOp := ⟨intWrap (· * ·), some (fpRound XVal.mul), none⟩
def opMin : ElemOp := ⟨intWrap min, some (fpRound XVal.minIeee), none⟩
def opMax : ElemOp := ⟨intWrap max, some (fpRound XVal.maxIeee), none⟩
def opMinz : ElemOp := ⟨fun _ a b => min a b, some (fpRound (preferNumber XVal.minIeee)), none⟩
def opMaxz : ElemOp := ⟨fun _ a b => max a b, some (fpRound (preferNumber XVal.maxIeee)), none⟩
def opAbs : ElemOp := ⟨intWrap fun a _ => (a.natAbs : Int), some fun f a _ => a % 2 ^ (f.width - 1), none⟩
def opNeg : ElemOp := ⟨intWrap fun a _ => -a, some fun f a _ => a ^^^ 2 ^ (f.width - 1), none⟩
def opAddsat : ElemOp := ⟨intSat (· + ·), none, none⟩
def opSubsat : ElemOp := ⟨intSat (· - ·), none, none⟩

/-- A bitwise operation on every type. -/
def opBits (g : Nat → Nat → Nat) : ElemOp := ⟨fun _ => g, some fun _ => g, some fun _ => g⟩

def opShl : ElemOp := ⟨fun t a n => if n ≥ vBits t then 0 else (a <<< n) % 2 ^ vBits t, none, none⟩
def opShr : ElemOp := ⟨fun t a n => if n ≥ vBits t then 0 else a >>> n, none, none⟩
def opSra : ElemOp := ⟨fun t a n => trunc (vBits t) (signExt (vBits t) a / (2 : Int) ^ min n (vBits t)), none, none⟩
def opClz : ElemOp := ⟨fun t a _ => lzCount a (vBits t), none, none⟩
def opPopc : ElemOp := ⟨fun t a _ => popCount a (vBits t), none, none⟩

/-- A division of floats with the IEEE special cases, rounded once (R167). -/
def fpDiv (f : FFmt) (a b : Nat) : Nat :=
  rnd f (match decodeF f a, decodeF f b with
    | .nan, _ => .nan
    | _, .nan => .nan
    | .inf _, .inf _ => .nan
    | .inf s, y => .inf (s != y.isNeg)
    | x, .inf r => .fin (x.isNeg != r) 0 0
    | .fin s m e, .fin r n k =>
      if n = 0 then (if m = 0 then .nan else .inf (s != r)) else divDyadic (s != r) m e n k)

/-- Division by zero and of the least value by -1 as on the control core (R45, R128). -/
def intDiv (t : BitVec 4) (a b : Nat) : Nat :=
  let w := vBits t
  let x := BitVec.ofNat w a
  let y := BitVec.ofNat w b
  (if vSigned t then bvDiv w x y else bvDivz w x y).toNat

def opDiv : ElemOp := ⟨intDiv, some fpDiv, none⟩

/-- Element-wise on VSH.TYPE (R164). -/
def elementwise (o : ElemOp) (m : Bool) (vd va vb : BitVec 5) (v : VERegs) : Except Cause VERegs :=
  match o.on v.ty with
  | none => .error .shape
  | some f =>
    let w := vBits v.ty
    .ok (v.writeActive m vd v.ty fun i => f (elem (v.reg va) w i) (elem (v.reg vb) w i))

def veBin (op : ElemOp) (cls : Nat) (o : VBin) (s : State) : Out :=
  veCompute o.c 2 cls (fun _ _ => elementwise op o.m o.vd o.va o.vb) s
def veUn (op : ElemOp) (cls : Nat) (o : VUn) (s : State) : Out :=
  veCompute o.c 2 cls (fun _ _ => elementwise op o.m o.vd o.va o.va) s

def execVadd (o : VBin) (s : State) : Out := veBin opAdd clsElem o s
def execVsub (o : VBin) (s : State) : Out := veBin opSub clsElem o s
def execVmul (o : VBin) (s : State) : Out := veBin opMul clsElem o s
def execVmin (o : VBin) (s : State) : Out := veBin opMin clsElem o s
def execVmax (o : VBin) (s : State) : Out := veBin opMax clsElem o s
def execVminz (o : VBin) (s : State) : Out := veBin opMinz clsElem o s
def execVmaxz (o : VBin) (s : State) : Out := veBin opMaxz clsElem o s
def execVabs (o : VUn) (s : State) : Out := veUn opAbs clsElem o s
def execVneg (o : VUn) (s : State) : Out := veUn opNeg clsElem o s
def execVaddsat (o : VBin) (s : State) : Out := veBin opAddsat clsElem o s
def execVsubsat (o : VBin) (s : State) : Out := veBin opSubsat clsElem o s
def execVand (o : VBin) (s : State) : Out := veBin (opBits (· &&& ·)) clsElem o s
def execVor (o : VBin) (s : State) : Out := veBin (opBits (· ||| ·)) clsElem o s
def execVxor (o : VBin) (s : State) : Out := veBin (opBits (· ^^^ ·)) clsElem o s
def execVshl (o : VBin) (s : State) : Out := veBin opShl clsElem o s
def execVshr (o : VBin) (s : State) : Out := veBin opShr clsElem o s
def execVsra (o : VBin) (s : State) : Out := veBin opSra clsElem o s
def execVclz (o : VUn) (s : State) : Out := veUn opClz clsElem o s
def execVpopc (o : VUn) (s : State) : Out := veUn opPopc clsElem o s
def execVdiv (o : VBin) (s : State) : Out := veBin opDiv clsSpecial o s

/-! ## Fused multiply-add (R168) -/

/-- One element; `k` 0 VFMA, 1 VFMS, 2 VFNMA. -/
def fmaElem (k : Nat) (t : BitVec 4) (rm : RMode) (u a b c : Nat) : Nat :=
  if vInt t then
    let x := vIntVal t a * vIntVal t b
    let z := vIntVal t c
    trunc (vBits t) (match k with | 0 => x + z | 1 => x - z | _ => z - x)
  else
    let f := vFmt t
    let x := (decodeF f a).mul (decodeF f b)
    let z := decodeF f c
    let r := match k with
      | 0 => x.add (rm == .rdn) z
      | 1 => x.add (rm == .rdn) z.neg
      | _ => x.neg.add (rm == .rdn) z
    roundF f rm false u r

def fused (k : Nat) (o : VFma) (s : State) : Out :=
  veCompute o.c 3 clsFma (fun u cap v => do
    let v ← shape (v.fits o.t) v
    let w := vBits o.t
    let e (r : BitVec 5) (i : Nat) : Nat := elem (v.reg r) w i
    return v.writeActive o.m o.vd o.t fun i => fmaElem k o.t (capMode cap o.rm) (u i) (e o.va i) (e o.vb i) (e o.vc i)) s

def execVfma (o : VFma) (s : State) : Out := fused 0 o s
def execVfms (o : VFma) (s : State) : Out := fused 1 o s
def execVfnma (o : VFma) (s : State) : Out := fused 2 o s

/-! ## Compares and masks (R158-R160, R169) -/

/-- The conditions of VCMP (R90, R169). -/
def vCond (t : BitVec 4) (c : Nat) (a b : Nat) : Bool :=
  let x := vVal t a
  let y := vVal t b
  let un := x.isNaN || y.isNaN
  match c with
  | 0 => x.eqv y
  | 1 => un || !x.eqv y
  | 2 => x.lt y
  | 3 => !un && !y.lt x
  | 4 => y.lt x
  | 5 => !un && !x.lt y
  | 6 => un
  | _ => !un

/-- The mask of the elements below n for which f holds. -/
def maskOf (n : Nat) (f : Nat → Bool) : BitVec 1024 :=
  (List.range n).foldl (fun m i => if f i then m ||| (1#1024 <<< i) else m) 0

def execVcmp (c : VCom) (va vb : BitVec 5) (t cond : BitVec 4) (s : State) : Out :=
  veCompute c 3 clsElem (fun _ _ v => do
    let v ← shape (v.fits t) v
    let w := vBits t
    let n := v.count
    let m := maskOf n fun i => v.top.getLsbD i && vCond t cond.toNat (elem (v.reg va) w i) (elem (v.reg vb) w i)
    v.pushMask (m ||| ((v.top >>> n) <<< n))) s

def execMpop (c : VCom) (s : State) : Out :=
  veCompute c 2 clsElem (fun _ _ v => if v.depth.toNat < 2 then .error .mstk else .ok { v with depth := v.depth - 1 }) s

def execMinv (c : VCom) (s : State) : Out :=
  veCompute c 2 clsElem (fun _ _ v =>
    let d := v.depth.toNat
    if d < 2 then .error .mstk else .ok (v.setMask (d - 1) (~~~v.top &&& v.maskAt (d - 2)))) s

def execMset (c : VCom) (va : BitVec 5) (s : State) : Out :=
  veCompute c 2 clsElem (fun _ _ v => v.pushMask (fld (v.reg va) 0 1024)) s

def execMget (c : VCom) (vd : BitVec 5) (s : State) : Out :=
  veCompute c 2 clsElem (fun _ _ v => .ok (v.setReg vd (v.top.setWidth 4096))) s

/-- No active element: the next `count` instructions of the body are skipped (R160). -/
def execVbrz (c : VCom) (count : BitVec 5) (s : State) : Out :=
  streamRun false c 2 (fun s p => classWeight s p clsElem) (fun t => do
    if ((← t.regs).active true).isEmpty then
      doS fun s => modSeqr s t.p t.px fun q => { q with block := q.block.map fun b => { b with skip := count.toNat } }) s

/-! ## Moves, selects, permutes (R170) -/

def execVmov (o : VUn) (s : State) : Out := veUn (opBits fun a _ => a) clsElem o s

def execVsel (c : VCom) (vd va vb : BitVec 5) (s : State) : Out :=
  veCompute c 2 clsElem (fun _ _ v =>
    let w := vBits v.ty
    .ok (v.writeActive false vd v.ty fun i => elem (v.reg (if v.top.getLsbD i then va else vb)) w i)) s

def execVtrn (c : VCom) (vd va : BitVec 5) (s : State) : Out :=
  veCompute c 2 clsElem (fun _ _ v =>
    let w := vBits v.ty
    .ok (v.writeActive false vd v.ty fun j => elem (v.reg va) w (j % v.rows * v.cols + j / v.rows))) s

def execVperm (o : VBin) (s : State) : Out :=
  veCompute o.c 2 clsElem (fun _ _ v => do
    let v ← shape (decide (v.count ≤ 256)) v
    let w := vBits v.ty
    return v.writeActive o.m o.vd v.ty fun i =>
      let j := elem (v.reg o.vb) 16 i
      if j < v.count then elem (v.reg o.va) w j else 0) s

/-! ## Broadcasts and generators (R171) -/

/-- Bcast; none: SHAPE. -/
def bcast (t : BitVec 4) (x : Word) : Option Nat :=
  let y := x.toNat % 2 ^ 32
  if vInt t then some (x.toNat % 2 ^ vBits t)
  else if t = 6 then some y
  else if vFp t then some (rnd (vFmt t) (decodeF .fp32 y))
  else none

def broadcast (m : Bool) (vd : BitVec 5) (x : Option Nat) (v : VERegs) : Except Cause VERegs :=
  match x with
  | none => .error .shape
  | some x => .ok (v.writeActive m vd v.ty fun _ => x)

def execVbcl (c : VCom) (m : Bool) (vd : BitVec 5) (k : BitVec 4) (s : State) : Out :=
  streamRun false c 2 (fun s p => classWeight s p clsElem) (fun t => do
    let s ← get
    let l := SMap.get 0 (s.ctx t.cap.ctx).loops k.toNat
    match broadcast m vd (bcast (s.ve t.p).ty l) (s.ve t.p) with
    | .ok v => t.modRegs fun _ => v
    | .error e => faultM e) s

/-- One element is popped whatever the mask; the wait is a reply stall (R171). -/
def execVbcs (c : VCom) (m : Bool) (vd : BitVec 5) (s : State) : Out :=
  streamRun false c 2 (fun s p => classWeight s p clsElem) (fun t => do
    let s ← get
    let v := s.ve t.p
    need (bcast v.ty 0).isSome .shape
    match (s.proc t.p).q.toVe with
    | [] => waitM 0x15
    | e :: es =>
      await (pushReleased s t.cap) 0x15
      doS fun s => acquireCo (mergePs (s.modQ t.p fun q => { q with toVe := es }) t.p e.sig) t.p
      match broadcast m vd (bcast v.ty e.v) v with
      | .ok v => t.modRegs fun _ => v
      | .error e => faultM e) s

def execVli (c : VCom) (m : Bool) (vd : BitVec 5) (imm : BitVec 16) (s : State) : Out :=
  veCompute c 3 clsElem (fun _ _ v =>
    let t := v.ty
    broadcast m vd
      (if vInt t then some (if vSigned t then trunc (vBits t) imm.toInt else imm.toNat % 2 ^ vBits t)
       else if t = 6 then some (imm.toNat * 2 ^ 16) else if vFp t then some imm.toNat else none) v) s

def execViota (c : VCom) (m : Bool) (vd : BitVec 5) (t : BitVec 4) (kind : BitVec 2) (s : State) : Out :=
  veCompute c 3 clsElem (fun _ _ v => do
    let v ← shape (v.fits t) v
    return v.writeActive m vd t fun i =>
      let n := match kind.toNat with | 0 => i | 1 => i / v.cols | _ => i % v.cols
      if vInt t then n % 2 ^ vBits t else rnd (vFmt t) (.ofInt n)) s

/-- Entries of a scalar queue (R266). -/
def scalarMax : Nat := 32

/-- VEXT pushes an element once the writes of earlier instructions are released (R172, R261). -/
def execVext (c : VCom) (va : BitVec 5) (idx : BitVec 10) (s : State) : Out :=
  streamRun false c 2 (fun s p => classWeight s p clsElem) (fun t => do
    let s ← get
    let v := s.ve t.p
    need (decide (idx.toNat < v.count)) .shape
    await (decide ((s.proc t.p).q.toCc.length < scalarMax) && writesDone s t.p .ve) 0x15
    let x := elem (v.reg va) (vBits v.ty) idx.toNat
    let y : Word := if vSigned v.ty then BitVec.ofInt 64 (vIntVal v.ty x) else BitVec.ofNat 64 x
    doS fun s => s.modQ t.p fun q => { q with toCc := q.toCc ++ [⟨y, wsOf s t.p⟩] }) s

/-! ## Shape, predicates, rotating base (R154, R156, R161) -/

def execVshape (c : VCom) (t : BitVec 4) (imm : BitVec 15) (s : State) : Out :=
  veCompute c 3 clsElem (fun _ _ v => .ok { v with vsh := BitVec.ofNat 32 (t.toNat * 2 ^ 16 + imm.toNat) }) s

def execVsprSet (c : VCom) (en val : BitVec 7) (s : State) : Out :=
  veCompute c 3 clsElem (fun _ _ v => .ok { v with sp := (v.sp &&& ~~~en) ||| (val &&& en) }) s

def execVsprShift (c : VCom) (b : Bool) (s : State) : Out :=
  veCompute c 3 clsElem (fun _ _ v => .ok { v with sp := (v.sp <<< 1) ||| (if b then 1 else 0) }) s

def execVrrbSet (c : VCom) (n : BitVec 4) (s : State) : Out :=
  veCompute c 3 clsElem (fun _ _ v => .ok { v with rrb := n }) s

def execVrrbAdd (c : VCom) (n : BitVec 4) (s : State) : Out :=
  veCompute c 3 clsElem (fun _ _ v => .ok { v with rrb := v.rrb + n }) s

/-! ## Conversions, quantisation, funnel shift (R173-R175) -/

/-- One converted element. A type converted to itself without noo keeps its bits, IEEE NaNs made canonical (R173). -/
def convert (dt st : BitVec 4) (noo : Bool) (rm : RMode) (u x : Nat) : Nat :=
  if dt = st && !noo then
    (if vFp st && (vVal st x).isNaN then (vFmt st).nanResult else x)
  else encodeElem (vCode dt) rm noo u (vVal st x)

def execVcvt (c : VCom) (m : Bool) (vd va : BitVec 5) (noo : Bool) (t st : BitVec 4) (rm : BitVec 3) (s : State) : Out :=
  veCompute c 3 clsFma (fun u cap v => do
    let v ← shape (v.fits t && v.fits st) v
    return v.writeActive m vd t fun i => convert t st noo (capMode cap rm) (u i) (elem (v.reg va) (vBits st) i)) s

/-- emax of R174. -/
def quantMax (t : BitVec 4) : Int :=
  match t.toNat with
  | 9 => 8 | 10 => 15 | 11 => 4 | _ => 2

/-- The larger magnitude of two values that are no NaN. -/
def magMax (x y : XVal) : XVal :=
  match x, y with
  | .inf _, _ => .inf false
  | _, .inf _ => .inf false
  | .fin _ m e, .fin _ n k => if magLt (m, e) (n, k) then .fin false n k else .fin false m e
  | x, _ => x

/-- The scale of a block (R174). -/
def blockScale (t : BitVec 4) (xs : List XVal) : Nat :=
  if xs.any XVal.isNaN then 0xFF
  else match xs.foldl magMax (.fin false 0 0) with
    | .fin _ m e => if m = 0 then 127 else (clampInt 0 254 (magLog m e - quantMax t + 127)).toNat
    | _ => 254

/-- Element k of a block whose scale is sc. -/
def quantElem (t : BitVec 4) (sc : Nat) (rm : RMode) (u : Nat) (x : XVal) : Nat :=
  if sc = 0xFF then 0 else roundF (vFmt t) rm false u (x.scale (127 - (sc : Int)))

def execVqblk (c : VCom) (vd va vc : BitVec 5) (t st : BitVec 4) (rm : BitVec 3) (s : State) : Out :=
  veCompute c 3 clsFma (fun u cap v => do
    let v ← shape (v.count % 32 == 0 && v.fits t && v.fits st) v
    let x (i : Nat) : XVal := vVal st (elem (v.reg va) (vBits st) i)
    let blocks := (List.range (v.count / 32)).map fun b => (b, blockScale t ((List.range 32).map fun k => x (32 * b + k)))
    let q := blocks.flatMap fun b => (List.range 32).map fun k =>
      (32 * b.1 + k, quantElem t b.2 (capMode cap rm) (u (32 * b.1 + k)) (x (32 * b.1 + k)))
    return (v.setReg vc (putElems 8 blocks (v.reg vc))).setReg vd (putElems (vBits t) q (v.reg vd))) s

def execVfsh (c : VCom) (m : Bool) (vd va vb vc : BitVec 5) (t : BitVec 4) (left : Bool) (s : State) : Out :=
  veCompute c 3 clsFma (fun _ _ v => do
    let v ← shape (v.fits t) v
    let w := vBits t
    return v.writeActive m vd t fun i =>
      let x := elem (v.reg va) w i * 2 ^ w + elem (v.reg vb) w i
      let n := elem (v.reg vc) w i % (2 * w)
      (if left then (x <<< n) >>> w else x >>> n) % 2 ^ w) s

/-! ## Reductions and scans (R68, R69, R176, R177) -/

/-- The fold of VRED.SUM and the others: value of the first element and step, on patterns; integer sums are 32-bit. -/
def foldFirst (op : Nat) (t : BitVec 4) (x : Nat) : Nat :=
  match op with
  | 0 => if vInt t then trunc 32 (vIntVal t x) else x
  | 1 => if vInt t then trunc 32 (vIntVal t x * vIntVal t x) else fpRound XVal.mul (vFmt t) x x
  | _ => x

def foldStep (op : Nat) (bw : Nat) (t : BitVec 4) (acc x : Nat) : Nat :=
  match op with
  | 0 => if vInt t then trunc 32 (acc + vIntVal t x) else fpRound (XVal.add false) (vFmt t) acc x
  | 1 => if vInt t then trunc 32 (acc + vIntVal t x * vIntVal t x) else fmaElem 0 t .rne 0 x x acc
  | 2 => ((opMax.on t).getD fun a _ => a) acc x
  | 3 => ((opMin.on t).getD fun a _ => a) acc x
  | _ => match bw with | 0 => acc &&& x | 1 => acc ||| x | _ => acc ^^^ x

/-- The running values of a fold over a list of elements. -/
def foldRun (op bw : Nat) (t : BitVec 4) : Option Nat → List Nat → List Nat
  | _, [] => []
  | none, x :: xs => let a := foldFirst op t x; a :: foldRun op bw t (some a) xs
  | some a, x :: xs => let a := foldStep op bw t a x; a :: foldRun op bw t (some a) xs

/-- The result of an empty set (R176). -/
def foldEmpty (op bw : Nat) (t : BitVec 4) : Nat :=
  match op with
  | 2 => if vInt t then trunc (vBits t) (intMin (vSigned t) (vBits t)) else (vFmt t).enc true ((vFmt t).maxCode + 1)
  | 3 => if vInt t then trunc (vBits t) (intMax (vSigned t) (vBits t)) else (vFmt t).enc false ((vFmt t).maxCode + 1)
  | 6 => if bw = 0 then 2 ^ vBits t - 1 else 0
  | _ => 0

/-- Strictly before in the order of R69. -/
def keyLt (t : BitVec 4) (a b : Nat) : Bool :=
  if vInt t then decide (vIntVal t a < vIntVal t b) else (vVal t a).totalLt (vVal t b)

/-- The winning element and index of MAXIDX or MINIDX: the lowest index among equal keys. -/
def foldIndex (isMax : Bool) (t : BitVec 4) : List (Nat × Nat) → Nat × Nat → Nat × Nat
  | [], best => best
  | e :: es, best =>
    foldIndex isMax t es (if (if isMax then keyLt t best.2 e.2 else keyLt t e.2 best.2) then e else best)

/-- The sets a fold works on: the rows of the shape, or one set (R176). -/
def foldSets (v : VERegs) (row m : Bool) : List (List Nat) :=
  let act := v.active m
  if row then (List.range v.rows).map fun r => act.filter fun i => i / v.cols == r else [act]

def execVred (o : VFold) (s : State) : Out :=
  veCompute o.c 3 clsFold (fun _ _ v => do
    let v ← shape (v.fits o.t) v
    let w := vBits o.t
    let op := o.op.toNat
    let bw := o.bw.toNat
    let e (i : Nat) : Nat := elem (v.reg o.va) w i
    let sets := foldSets v o.row o.m
    let num {α : Type} (l : List α) : List (Nat × α) := (List.range l.length).zip l
    if op = 4 || op = 5 then
      let r := sets.map fun l => match l with
        | [] => (0xFFFFFFFF, 0)
        | i :: is => foldIndex (op == 4) o.t (is.map fun i => (i, e i)) (i, e i)
      let v' := v.setReg o.vd (putElems w (num (r.map (·.2))) (v.reg o.vd))
      return v'.setReg o.vc (putElems 32 (num (r.map (·.1))) (v.reg o.vc))
    else
      let r := sets.map fun l => ((foldRun op bw o.t none (l.map e)).getLast?).getD (foldEmpty op bw o.t)
      let wd := if vInt o.t && op ≤ 1 then 32 else w
      return v.setReg o.vd (putElems wd (num r) (v.reg o.vd))) s

def execVscan (o : VFold) (s : State) : Out :=
  veCompute o.c 3 clsFold (fun _ _ v => do
    let v ← shape (v.fits o.t) v
    let w := vBits o.t
    let sets := foldSets v o.row o.m
    let r := sets.flatMap fun l => l.zip (foldRun o.op.toNat o.bw.toNat o.t none (l.map fun i => elem (v.reg o.va) w i))
    return v.setReg o.vd (putElems w r (v.reg o.vd))) s

end Sys2Proof.Machine
end

