-- ==== Sys2Proof/Machine/VectorMem.lean ====
section
/-! DEFINITION. The memory instructions of the vector engine (09_memory_access_instructions.md R210-R217), and the element
and byte accesses that hods and the Press share with them. -/

namespace Sys2Proof.Machine

/-! ## Addresses -/

/-- Bit address of element e of width wd from a base. -/
def elemBit (base : Nat) (e : Int) (wd : Nat) : Int := 8 * (base : Int) + e * wd
/-- Virtual address of the byte a bit address lies in, and the bit's place in it. -/
def bitByte (b : Int) : Nat := trunc 52 (b / 8)
def bitOff (b : Int) : Nat := (b % 8).toNat

/-- The bytes an element touches, which the checks of R185 and R195 take together. -/
def elemBytes (b : Int) (wd : Nat) : Nat × Nat :=
  if wd ≥ 8 then (bitByte b, wd / 8)
  else if bitOff b + wd ≤ 8 then (bitByte b, 1) else (bitByte b, 2)

/-! ## Reads -/

/-- A read made once, though the instruction waits for other modules and runs again (R217): its value is kept. -/
def readOnce (w : Who) (mixed : Bool) (tag n : Nat) (act : M Nat) : M Nat := do
  let s ← get
  match (if mixed then (s.proc w.q).coh.rbuf.find? fun r => r.1 == w.eng && r.2.1 == tag else none) with
  | some (_, _, some ans) => return leN ans.data
  | _ =>
    let x ← act
    if mixed then doS fun s => s.modCoh w.q fun c => { c with rbuf := c.rbuf ++ [(w.eng, tag, some ⟨bytesN n x, some 0, false⟩)] }
    return x

/-- A load of n bytes, by address; `mixed`: the instruction also reads from another module or the host. -/
def readAt (w : Who) (home : Bool) (a : Attr) (va n : Nat) (mixed : Bool := false) : M Nat := do
  let pl ← resolveLoad w va n home
  need (pl.kind != .mmio) .perm va
  readOnce w mixed (a.tag 3 pl) n (load w pl n home a)

/-- The pattern of an element at a bit address. -/
def readElem (w : Who) (home : Bool) (a : Attr) (b : Int) (wd : Nat) (mixed : Bool := false) : M Nat := do
  if wd ≥ 8 then readAt w home a (bitByte b) (wd / 8) mixed
  else
    let x ← readAt w home a (bitByte b) 1 mixed
    let y ← if bitOff b + wd ≤ 8 then pure 0 else readAt w home a (bitByte (b + 8)) 1 mixed
    return ((x + 256 * y) >>> bitOff b) % 2 ^ wd

/-- Elements one after the other. -/
def readEach (w : Who) (home : Bool) (a : Attr) (wd : Nat) (mixed : Bool) : List (Nat × Int) → M (List (Nat × Nat))
  | [] => pure []
  | (i, b) :: l => do
    let x ← readElem w home { a with idx := i } b wd mixed
    let xs ← readEach w home a wd mixed l
    return (i, x) :: xs

/-- A byte whose home is another module's or the host's. -/
def farByte (s : State) (w : Who) (va : Nat) : Bool :=
  if windowMin ≤ va then false
  else match (resolve w va 1 .read).value s with
    | some pl => !pl.isLocal
    | none => false

/-- The patterns of a list of elements by index and bit address, ascending. -/
def readElems (w : Who) (home : Bool) (a : Attr) (wd : Nat) (l : List (Nat × Int)) : M (List (Nat × Nat)) := do
  let s ← get
  readEach w home a wd (l.any fun e => farByte s w (bitByte e.2)) l

/-! ## Writes -/

/-- A store of n bytes at an address; of a single byte, only the bits of `mask`. -/
structure Piece where
  idx : Nat
  va : Nat
  n : Nat
  mask : Nat
  val : Nat
  deriving DecidableEq, Repr

def fullMask (n : Nat) : Nat := 2 ^ (8 * n) - 1

/-- Join a byte's bits to the piece before it when both lie in one byte and share no bit; the newest piece is first. -/
def joinPiece : List Piece → Piece → List Piece
  | [], x => [x]
  | y :: l, x =>
    if x.n = 1 && y.n = 1 && x.va = y.va && y.mask &&& x.mask == 0 then { y with mask := y.mask ||| x.mask, val := y.val ||| x.val } :: l
    else x :: y :: l

/-- The pieces of an element's store. -/
def elemPieces (i : Nat) (b : Int) (wd x : Nat) : List Piece :=
  if wd ≥ 8 then [⟨i, bitByte b, wd / 8, fullMask (wd / 8), x % 2 ^ wd⟩]
  else
    let m := (2 ^ wd - 1) <<< bitOff b
    let v := (x % 2 ^ wd) <<< bitOff b
    let lo : Piece := ⟨i, bitByte b, 1, m % 256, v % 256⟩
    if bitOff b + wd ≤ 8 then [lo] else [lo, ⟨i, bitByte (b + 8), 1, m / 256, v / 256⟩]

/-- The pieces of a list of elements, in order. -/
def allPieces (wd : Nat) (l : List (Nat × Int × Nat)) : List Piece :=
  (l.foldl (fun ps e => (elemPieces e.1 e.2.1 wd e.2.2).foldl joinPiece ps) []).reverse

/-- The places of pieces, up to the first that an access check refuses, with that refusal. -/
def resolvePieces (w : Who) : List Piece → M (List (Piece × Place) × Option Stop)
  | [] => pure ([], none)
  | x :: l => fun s =>
    match (do
      let pl ← resolve w x.va x.n .write
      need (pl.kind != .mmio) .perm x.va
      return pl : M Place) s with
    | .error e s => .ok ([], some e) s
    | .ok pl s =>
      match resolvePieces w l s with
      | .ok r s => .ok ((x, pl) :: r.1, r.2) s
      | .error e s => .error e s

/-- Do a local part of an instruction once, though the instruction waits for other modules and runs again. -/
def once (w : Who) (mixed : Bool) (tag : Nat) (act : M Unit) : M Unit := do
  let s ← get
  if mixed && ((s.proc w.q).coh.rbuf.any fun r => r.1 == w.eng && r.2.1 == tag) then pure ()
  else
    act
    if mixed then doS fun s => s.modCoh w.q fun c => { c with rbuf := c.rbuf ++ [(w.eng, tag, none)] }

/-- One piece: a store, or the merge of its bits into the byte as it stands (R211). -/
def storePiece (w : Who) (a : Attr) (mixed : Bool) (x : Piece) (pl : Place) (poison : Bool := false) : M Unit := do
  let a := { a with idx := x.idx }
  if x.mask = fullMask x.n then
    if pl.isLocal then once w mixed (a.tag 3 pl) (store w pl x.n x.val a) else store w pl x.n x.val a poison
  else if pl.isLocal then
    once w mixed (a.tag 3 pl) (do
      let old := (← get).mem.read pl.key 1
      store w pl 1 ((old &&& (255 - x.mask)) ||| x.val) a)
  else if pl.kind = .remote then storeMerge w pl x.val x.mask a poison
  else
    -- a byte of host memory is read and written back merged (DEDUCED, log 25)
    let old ← load w { pl with cache := false } 1 true a
    store w pl 1 ((old &&& (255 - x.mask)) ||| x.val) a poison

/-- Perform pieces in order; sectors written whole lose their poison (R193). -/
def storeResolved (w : Who) (a : Attr) (l : List (Piece × Place)) : M Unit := do
  let mixed := l.any fun e => !e.2.isLocal
  l.forM fun e => storePiece w a mixed e.1 e.2
  let runs := l.filterMap fun e => if e.2.isLocal && e.1.mask == fullMask e.1.n then some (e.2.key, e.1.n) else none
  doS fun s => if s.mem.poison.isEmpty then s else s.modMem fun m => m.clearFull runs

/-- Pieces in order; a refused piece stops the rest. -/
def storePieces (w : Who) (a : Attr) (ps : List Piece) : M Unit := do
  let (l, bad) ← resolvePieces w ps
  storeResolved w a l
  match bad with
  | some e => throw e
  | none => pure ()

/-! ## Checks (R216) -/

/-- The effective format of a run of bytes is untyped or the storage code; Z8 also takes E8M0 (R210). -/
def formatFits (c : Captured) (s : State) (w : Who) (fmt code : Nat) (r : Nat × Nat) : Bool :=
  let ok (e : Option Nat) : Bool := match e with
    | some e => e == 0 || e == code || (code == 2 && e == 19)
    | none => false
  if r.1 < windowMin then ok (some fmt)
  else match windowKey s w r.1 r.2 with
    | some key => ok (effAt c.fmts c.p c.own fmt key r.2)
    | none => true

/-- Some run of an access's bytes fails a window check: the access's first byte (R185). -/
def windowFails (s : State) (w : Who) (l : List (Nat × Nat)) : Option Nat :=
  if l.any fun r => decide (windowMin < r.1 + r.2) && (windowKey s w r.1 r.2).isNone then l.head?.map (·.1) else none

/-- The checks of FMTMISMATCH, ALIGN (the address that fails it) and WINDOW over all bytes touched, in order. -/
def vecChecks (c : Captured) (w : Who) (fmt code : Nat) (align : Option Nat) (l : List (Nat × Nat)) : M Unit := do
  let s ← get
  need (decide (fmt ≤ 20) && l.all fun r => formatFits c s w fmt code r) .fmtmismatch
  match align with
  | some a => faultM .align a
  | none => pure ()
  match windowFails s w l with
  | some a => faultM .window a
  | none => pure ()

/-! ## Vector memory instructions -/

/-- The slot a vector memory instruction uses, its RANK checked (R210). -/
def vecHandle (t : Item) (hs : BitVec 2) : M Handle := do
  let h := (← t.regs).slot false hs.toNat
  need (H.rankOk h) .shape
  return h

/-- The ordering class: CLS, or the handle's (R210). -/
def vecAttr (h : Handle) (cls : BitVec 4) : Attr := ⟨if cls = 0 then H.cls h else cls, 0, 0, none⟩

/-- VE loads through a handle with a tile wait for it (R369). -/
def vecTileWait (t : Item) (h : Handle) : M Unit := tileReadWait t.cap.ctx (tileCluster t.p (H.base h).toNat) (H.tile h)

/-- Active elements of a tile of Rows x Cols with their bit addresses (R211). -/
def tileElems (v : VERegs) (m : Bool) (h : Handle) (off : BitVec 11) : List (Nat × Int) :=
  let rs : Int := if H.rank h ≥ 2 then H.stride h 1 else v.cols
  (v.active m).map fun i =>
    (i, elemBit (H.base h).toNat (off.toInt + (i % v.cols : Nat) + (i / v.cols : Nat) * rs) (vBits v.ty))

/-- Elements that sizes, strides and offsets of a width count in (R56). -/
def widthUnit (wd : Nat) : Int := if wd = 6 then 4 else if wd = 4 then 2 else 1

/-- The dim-0 size and every stride of a handle suit a width (R56). -/
def handleFits (h : Handle) (wd : Nat) : Bool :=
  ((H.size h 0 : Nat) : Int) % widthUnit wd == 0 &&
  ((List.range 3).all fun i => decide (H.rank h ≤ i + 1) || H.stride h (i + 1) % widthUnit wd == 0)

/-- SHAPE limits of VLD and VST for sub-byte elements (R211, R56). -/
def tileShape (v : VERegs) (h : Handle) (off : BitVec 11) : Bool :=
  let k := widthUnit (vBits v.ty)
  let rs : Int := if H.rank h ≥ 2 then H.stride h 1 else v.cols
  off.toInt % k == 0 && rs % k == 0 && (v.cols : Int) % k == 0 && handleFits h (vBits v.ty)

/-- BASE is a multiple of a whole-byte element (R211). -/
def baseAligned (v : VERegs) (h : Handle) : Option Nat :=
  let wd := vBits v.ty
  if wd ≥ 8 && (H.base h).toNat % (wd / 8) ≠ 0 then some (H.base h).toNat else none

/-- The checks of VLD and VST. -/
def tileChecks (t : Item) (o : VMem) : M (Handle × List (Nat × Int)) := do
  let h ← vecHandle t o.hs
  let v ← t.regs
  need (tileShape v h o.off) .shape
  let es := tileElems v o.m h o.off
  vecChecks (← t.formats) t.who (H.fmt h) (vCode v.ty) (baseAligned v h) (es.map fun e => elemBytes e.2 (vBits v.ty))
  return (h, es)

def veMem (c : VCom) (body : Item → M Unit) (s : State) : Out :=
  streamRun false c 3 (fun s p => classWeight s p clsMem) body s

/-- Write loaded elements into v[VD]. -/
def putLoaded (t : Item) (vd : BitVec 5) (l : List (Nat × Nat)) : M Unit :=
  t.modRegs fun v => v.setReg vd (putElems (vBits v.ty) l (v.reg vd))

def execVld (o : VMem) (s : State) : Out :=
  veMem o.c (fun t => do
    let (h, es) ← tileChecks t o
    vecTileWait t h
    let l ← readElems t.who false (vecAttr h o.cls) (vBits (← t.regs).ty) es
    putLoaded t o.vd l) s

def execVst (o : VMem) (s : State) : Out :=
  veMem o.c (fun t => do
    let (h, es) ← tileChecks t o
    let v ← t.regs
    let wd := vBits v.ty
    storePieces t.who (vecAttr h o.cls) (allPieces wd (es.map fun e => (e.1, e.2, elem (v.reg o.vd) wd e.1)))) s

/-! ## Runs of bytes (R212) -/

/-- Address of byte j of a run. -/
def runByte (h : Handle) (off : BitVec 11) (j : Nat) : Nat := trunc 52 (((H.base h).toNat : Int) + off.toInt + j)

/-- Bytes of the N elements; SHAPE unless whole. -/
def runLength (v : VERegs) : Nat := v.count * vBits v.ty / 8
def runWhole (v : VERegs) : Bool := v.count * vBits v.ty % 8 == 0

def execVldu (o : VMem) (s : State) : Out :=
  veMem o.c (fun t => do
    let h ← vecHandle t o.hs
    let v ← t.regs
    let wd := vBits v.ty
    need (runWhole v && handleFits h wd) .shape
    let act := v.active o.m
    let bytes := (List.range (runLength v)).filter fun j => act.any fun i => decide (wd * i < 8 * j + 8) && decide (8 * j < wd * i + wd)
    vecChecks (← t.formats) t.who (H.fmt h) (vCode v.ty) none
      (act.map fun i => (runByte h o.off (wd * i / 8), (wd * i + wd + 7) / 8 - wd * i / 8))
    vecTileWait t h
    let l ← readElems t.who false (vecAttr h o.cls) 8 (bytes.map fun j => (j, 8 * (runByte h o.off j : Int)))
    let run := putElems 8 l 0
    putLoaded t o.vd (act.map fun i => (i, elem run wd i))) s

/-- The bytes that a VSTB writes of each element, from its first to its last (R185 check 5). -/
def writtenRuns (v : VERegs) (bytes : List Nat) : List (Nat × Nat) :=
  let wd := vBits v.ty
  (List.range v.count).filterMap fun i =>
    let l := bytes.filter fun j => decide (wd * i < 8 * j + 8) && decide (8 * j < wd * i + wd)
    match l.head?, l.getLast? with
    | some a, some b => some (a, b + 1 - a)
    | _, _ => none

def execVstb (o : VMemX) (s : State) : Out :=
  veMem o.c (fun t => do
    let h ← vecHandle t o.hs
    let v ← t.regs
    need (runWhole v && handleFits h (vBits v.ty)) .shape
    let bytes := (List.range (runLength v)).filter fun j => (v.reg o.vb).getLsbD j
    vecChecks (← t.formats) t.who (H.fmt h) (vCode v.ty) none ((writtenRuns v bytes).map fun r => (runByte h o.off r.1, r.2))
    storePieces t.who (vecAttr h o.cls) (bytes.map fun j => ⟨j, runByte h o.off j, 1, 255, elem (v.reg o.vd) 8 j⟩)) s

/-! ## Gather, scatter, scatter-add (R213, R214) -/

/-- Active elements with the bit addresses their indices give. -/
def indexElems (v : VERegs) (m : Bool) (h : Handle) (off : BitVec 11) (vb : BitVec 5) : List (Nat × Int) :=
  (v.active m).map fun i => (i, elemBit (H.base h).toNat (off.toInt + signExt 32 (elem (v.reg vb) 32 i)) (vBits v.ty))

/-- The first element whose address is not a multiple of its size. -/
def elemsAligned (wd : Nat) (es : List (Nat × Int)) : Option Nat :=
  if wd ≥ 8 then (es.find? fun e => bitByte e.2 % (wd / 8) != 0).map fun e => bitByte e.2 else none

/-- The checks the three share; `ok` is the type limit. -/
def indexChecks (t : Item) (o : VMemX) (ok : BitVec 4 → Bool) : M (Handle × List (Nat × Int)) := do
  let h ← vecHandle t o.hs
  let v ← t.regs
  need (decide (v.count ≤ 128) && ok v.ty && o.off.toInt % widthUnit (vBits v.ty) == 0 && handleFits h (vBits v.ty)) .shape
  let es := indexElems v o.m h o.off o.vb
  let wd := vBits v.ty
  vecChecks (← t.formats) t.who (H.fmt h) (vCode v.ty) (elemsAligned wd es) (es.map fun e => elemBytes e.2 wd)
  return (h, es)

def execVgth (o : VMemX) (s : State) : Out :=
  veMem o.c (fun t => do
    let (h, es) ← indexChecks t o fun _ => true
    vecTileWait t h
    let l ← readElems t.who false (vecAttr h o.cls) (vBits (← t.regs).ty) es
    putLoaded t o.vd l) s

def execVsct (o : VMemX) (s : State) : Out :=
  veMem o.c (fun t => do
    let (h, es) ← indexChecks t o fun ty => decide (8 ≤ vBits ty)
    let v ← t.regs
    let wd := vBits v.ty
    storePieces t.who (vecAttr h o.cls) (allPieces wd (es.map fun e => (e.1, e.2, elem (v.reg o.vd) wd e.1)))) s

/-- The places of the elements of a VSCA; every one translates before the first update (R216). -/
def resolveAtomics (w : Who) (n : Nat) : List (Nat × Int) → M (List (Nat × Place))
  | [] => pure []
  | (i, b) :: l => do
    let pl ← resolve w (bitByte b) n .atomic
    need (pl.kind != .mmio) .perm (bitByte b)
    let ps ← resolveAtomics w n l
    return (i, pl) :: ps

/-- An element's sum (R214). -/
def scatterSum (ty : BitVec 4) (a old : Nat) : Nat := ((opAdd.on ty).getD fun x _ => x) old a

def execVsca (o : VMemX) (s : State) : Out :=
  veMem o.c (fun t => do
    let (h, es) ← indexChecks t o fun ty => vInt ty || vFp ty
    let v ← t.regs
    let wd := vBits v.ty
    let w := t.who
    let l ← resolveAtomics w (wd / 8) es
    let mixed := l.any fun e => !e.2.isLocal
    l.forM fun e => do
      let x := elem (v.reg o.vd) wd e.1
      let a := { vecAttr h o.cls with idx := e.1 }
      let act : M Unit := do
        let _ ← atomically w e.2 (wd / 8) (fun old => some (scatterSum v.ty x old)) (if vInt v.ty then 0 else 10) x 0 a v.ty
      if e.2.isLocal then once w mixed (a.tag 3 e.2) act else act) s

/-! ## Lane slices (R182, R215) -/

/-- Byte offset of lane l. -/
def laneOffset (h : Handle) (off : BitVec 11) (b : VReg) (l : Nat) : Int :=
  ((H.base h).toNat % 1024 : Nat) + 4 * (off.toInt + (elem b 32 l % 256 : Nat))

/-- The active lanes with their offsets, after the checks of R215. -/
def laneChecks (t : Item) (o : VMemX) : M (List (Nat × Nat)) := do
  let h ← vecHandle t o.hs
  let v ← t.regs
  let ls := ((List.range 128).filter fun l => !o.m || v.top.getLsbD l).map fun l => (l, laneOffset h o.off (v.reg o.vb) l)
  let base := (H.base h).toNat
  need (base % 4 == 0) .align base
  need (decide (laneBase ≤ base) && decide (base < laneBase + 1024)) .window base
  match ls.find? fun e => decide (e.2 < 0) || decide (1020 < e.2) with
  | some e => faultM .window (trunc 52 ((laneBase : Int) + e.2))
  | none => return ls.map fun e => (e.1, e.2.toNat)

def execVldl (o : VMemX) (s : State) : Out :=
  veMem o.c (fun t => do
    let ls ← laneChecks t o
    let s ← get
    match ls.find? fun e => s.mem.poisoned (laneKey t.p e.1 e.2) 4 with
    | some e => faultM .eccu ((laneBase + e.2) / 128 * 128)
    | none => t.modRegs fun v =>
      v.setReg o.vd (putElems 32 (ls.map fun e => (e.1, s.mem.read (laneKey t.p e.1 e.2) 4)) (v.reg o.vd))) s

def execVstl (o : VMemX) (s : State) : Out :=
  veMem o.c (fun t => do
    let ls ← laneChecks t o
    let v ← t.regs
    doS fun s => s.modMem fun m =>
      ls.foldl (fun m e => m.write (laneKey t.p e.1 e.2) 4 (elem (v.reg o.vd) 32 e.1)) m) s

end Sys2Proof.Machine
end

