-- ==== Sys2Proof/Machine/Press.lean ====
section
/-! DEFINITION. The Press: slots, matrix products, resolve, raw store and load, slot arithmetic, gathered commands, VLDA
(10_accumulators_and_press.md R218-R245; 03_number_formats.md R57, R62-R67; 12 R280). -/

namespace Sys2Proof.Machine

/-! ## Elements (R57, R63-R67, R218) -/

/-- The canonical value of an element of a slot with exponent e (R67). -/
def Acc.value (a : Acc) (e : BitVec 10) : XVal := tagValue a.tag a.sum.toInt e.toInt
/-- Its residue matches (R63, R218). -/
def Acc.resOk (a : Acc) : Bool := a.res == residue a.sum
/-- The carry word as it stands (R67). -/
def Carry.word : Carry → BitVec 64
  | .fixed c => c
  | .free n => Config.freeCarry n

/-- Add q exactly; the split of the new sum is left open (R63, R67, log 8). -/
def Acc.plus (a : Acc) (q : Int) (c : Carry) : Acc :=
  { a with sum := a.sum + BitVec.ofInt 64 q, carry := c, res := BitVec.ofNat 2 ((a.res.toNat + (q % 3).toNat) % 3) }

/-- Contribute with the clamp and the tags of R65, R66; V / 2^E is given. -/
def Acc.contribute (a : Acc) (c : Carry) (v : XVal) : Acc :=
  match v with
  | .fin neg m x =>
    let n := roundMag .rne neg 0 m x
    if n ≥ 2 ^ 47 then { a.plus (XVal.signed neg (2 ^ 47 - 1)) c with ovf := true } else a.plus (XVal.signed neg n) c
  | v => { a with tag := tagAdd a.tag v, carry := c }

/-- The special a tag stands for, as a contribution. -/
def tagSpecial (t : BitVec 2) : XVal :=
  match t.toNat with
  | 1 => .inf false | 2 => .inf true | 3 => .nan | _ => .fin false 0 0

/-! ## Slots (R219-R223) -/

/-- Logical slot ls of a core and context. -/
def slotOf (s : State) (core x ls : Nat) : Option Slot :=
  ((s.cluster (clusterOf core)).press.slots.find? fun e => e.2.any fun sl =>
    sl.core == core % 4 && sl.ctx == x && sl.lslot == ls).bind (·.2)

def modSlot (s : State) (core x ls : Nat) (f : Slot → Slot) : State :=
  s.modPress (clusterOf core) fun pr => { pr with slots := pr.slots.map fun e =>
    (e.1, e.2.map fun sl => if sl.core = core % 4 && sl.ctx = x && sl.lslot = ls then f sl else sl) }

def Slot.at_ (sl : Slot) (k : Nat) : Acc := SMap.get Acc.zero sl.el k
/-- Element of a slot that may be unbound (R223). -/
def elemAt (sl : Option Slot) (k : Nat) : Acc := (sl.map (·.at_ k)).getD Acc.zero
/-- Key of element (row, column). -/
def elKey (r c : Nat) : Nat := r * 128 + c

/-- The fates of R221 of a write to a slot. -/
def writeAllowed (s : State) (c : Capture) (sl : Option Slot) (carry : Bool) : Bool :=
  let b := s.brick c.core c.tag
  let rst := (b.map (·.b.rst)).getD false
  match sl with
  | some sl => if sl.carried then !rst else sl.btag == c.tag
  | none => !(carry && rst) && decide (0 < (b.map (·.resv)).getD 0)

/-- A first write binds a free physical slot from the brick's reservation (R220, R222). -/
def bindSlot (s : State) (c : Capture) (ls : Nat) (carry : Bool) (e : BitVec 10) : State :=
  let cl := clusterOf c.core
  match freePhysical (s.cluster cl).press with
  | [] => s
  | k :: _ =>
    let s := match s.brick c.core c.tag with
      | some b => s.setBrick c.core c.tag (some { b with resv := b.resv - 1 })
      | none => s
    s.modPress cl fun pr =>
      { pr with slots := SMap.set none pr.slots k (some ⟨c.core % 4, c.ctx, ls, carry, false, c.tag, e, 0, []⟩) }

/-- Most block contributions of a slot (R66). -/
def countMax : Nat := 65536

/-- DETAIL of a Press fault: the logical slot, and the row group of a stop (R336). -/
def slotDetail (ls rg : Nat) : BitVec 24 := BitVec.ofNat 24 (ls * 2 ^ 18 + rg)

def pressFault {α : Type} (c : Cause) (ls : Nat) (low : Nat := 0) : M α := throw (.fault c 0 false (slotDetail ls low))

/-- Name the slot in the faults of an access (R241, R336). -/
def naming {α : Type} (ls rg : Nat) (x : M α) : M α := fun s =>
  match x s with
  | .error (.fault c a st d) t =>
    .error (.fault c a st (if c.stops then slotDetail ls rg else if c = .eccu then slotDetail ls 0 else d)) t
  | r => r

/-- A slot that is read, its poison checked (R243). -/
def readable (sl : Option Slot) (ls : Nat) : M Unit := if sl.any (·.pz) then pressFault .eccu ls else pure ()

/-! ## What a Press instruction runs under -/

structure PressJob where
  p : Nat
  cap : Capture
  fmts : Captured

def PressJob.cl (t : PressJob) : Nat := clusterOf t.p
def PressJob.who (t : PressJob) : Who := ⟨t.p, some .px, t.cap.ctx, t.p⟩
def PressJob.slot (t : PressJob) (ls : Nat) : M (Option Slot) := do return slotOf (← get) t.p t.cap.ctx ls
def PressJob.writable (t : PressJob) (sl : Option Slot) (carry : Bool) : M Unit := do
  need (writeAllowed (← get) t.cap sl carry) .engill
/-- Bind on a first write. -/
def PressJob.bind (t : PressJob) (ls : Nat) (sl : Option Slot) (carry : Bool) (e : BitVec 10) : M Unit :=
  if sl.isSome then pure () else doS fun s => bindSlot s t.cap ls carry e
def PressJob.modSlot (t : PressJob) (ls : Nat) (f : Slot → Slot) : M Unit := doS fun s => Sys2Proof.Machine.modSlot s t.p t.cap.ctx ls f

def Item.pressJob (t : Item) : M PressJob := do return ⟨t.p, t.cap, ← t.formats⟩
def Item.pressHandle (t : Item) (k : BitVec 2) : M Handle := do return (← t.regs).slot true k.toNat

/-! ## Operands (R226, R227, R229, R56) -/

/-- A run of bytes cut at the bounds of 32 KiB, within which a window has one bank. -/
def bankRuns : Nat → Nat → Nat → List (Nat × Nat)
  | 0, _, _ => []
  | f + 1, va, n => if n = 0 then [] else let k := min n (32768 - va % 32768); (va, k) :: bankRuns f (va + k) (n - k)

/-- The effective format of the first of a run of bytes; outside every window the handle's own. -/
def headFormat (c : Captured) (s : State) (w : Who) (fmt va : Nat) : Option Nat :=
  if fmt > 20 then none
  else if va < windowMin then some fmt
  else match windowKey s w va 1 with
    | some key => effOf fmt (bankAt c.fmts c.p c.own key)
    | none => some fmt

/-- Every bank touched gives the same effective format (R195). -/
def formatOver (c : Captured) (s : State) (w : Who) (fmt : Nat) (l : List (Nat × Nat)) : Option Nat :=
  match (l.flatMap fun r => bankRuns (r.2 / 32768 + 2) r.1 r.2).map fun r => headFormat c s w fmt r.1 with
  | [] => if fmt > 20 then none else some fmt
  | e :: es => if es.all (· == e) then e else none

/-- Bits of an element for addresses; RAW counts bytes (R56, R146). -/
def pressBits (code : Nat) : Nat := if fmtBits code = 0 then 8 else fmtBits code

/-- Elements in a row must fill whole bytes (R56). -/
def packed (h : Handle) (n bits : Nat) : Bool :=
  let k : Nat := if bits = 6 then 4 else if bits = 4 then 2 else 1
  n % k == 0 && (H.rank h < 2 || H.stride h 1 % k == 0)

/-- Bit address of element j of row i. -/
def rowBit (h : Handle) (bits i j : Nat) : Int := elemBit (H.base h).toNat (H.stride h 1 * i + j) bits
/-- The bytes of n elements of row i. -/
def rowRun (h : Handle) (bits n i : Nat) : Nat × Nat :=
  let b := rowBit h bits i 0
  (bitByte b, (bitOff b + n * bits + 7) / 8)

/-- Rows of an operand and its elements per row. -/
structure View where
  h : Handle
  bits : Nat
  rows : Nat
  cols : Nat

def View.runs (v : View) : List (Nat × Nat) := (List.range v.rows).map fun i => rowRun v.h v.bits v.cols i

/-- The byte runs of a view as the window checks take them: a row whole where it lies in one memory, else its elements (R185). -/
def View.checked (v : View) (s : State) (w : Who) : List (Nat × Nat) :=
  (List.range v.rows).flatMap fun i =>
    let r := rowRun v.h v.bits v.cols i
    if r.1 + r.2 ≤ windowMin || (windowKey s w r.1 r.2).isSome then [r]
    else (List.range v.cols).map fun j => elemBytes (rowBit v.h v.bits i j) v.bits

/-- Rows of a RANK 1 or 2 tensor. -/
def rowsOf (h : Handle) : Nat := if H.rank h = 2 then H.size h 1 else 1

/-- The view of a handle, its element width from the bank at BASE where the handle is untyped. -/
def viewOf (c : Captured) (s : State) (w : Who) (h : Handle) : View :=
  let e := (headFormat c s w (H.fmt h) (H.base h).toNat).getD (H.fmt h)
  ⟨h, pressBits e, rowsOf h, H.size h 0⟩

/-- Kc of a pair of effective formats (R227). -/
def kcOf (a b : Nat) : Option Nat :=
  let k2 (f : Nat) : Bool := f == 10 || f == 11
  let k16 (f : Nat) : Bool := f == 14 || f == 15 || f == 18 || f == 16
  let k8 (f : Nat) : Bool := k16 f || f == 12 || f == 13 || f == 17
  if k2 a && k2 b then some 2 else if k16 a && k16 b then some 16 else if k8 a && k8 b then some 8 else none

/-- Address of scale j of row r (R229). -/
def scaleAddr (h : Handle) (step : Int) (r j : Nat) : Nat := trunc 52 (((H.base h).toNat + 128 * H.soff h + j : Nat) + r * step)

/-- Bytes of the scales of some rows of an operand (R229): A's rows of blocks, or B's rows of columns. -/
def scaleRows (h : Handle) (n : Nat) (step : Int) (rows : List Nat) : List (Nat × Nat) :=
  if H.scaled h then rows.map fun r => (scaleAddr h step r 0, n) else []
def scaleRuns (h : Handle) (rows n : Nat) (step : Int) : List (Nat × Nat) := scaleRows h n step (List.range rows)

/-- Blocks of 32 along K. -/
def blocks (k : Nat) : Nat := ceilDiv k 32

/-- Bytes between the scale rows of A and of B; STRIDE1 is signed (R229, R115). -/
def scaleStepA (h : Handle) : Int := -Int.fdiv (-(if H.rank h = 2 then H.stride h 1 else (H.size h 0 : Nat))) 32
def scaleStepB (h : Handle) : Int := H.stride h 1

/-- A run lies in a memory whose home keys start at `lo`, n bytes long. -/
def inMemory (s : State) (w : Who) (lo n : Nat) (r : Nat × Nat) : Bool :=
  match windowKey s w r.1 r.2 with
  | some key => decide (lo ≤ key) && decide (key < lo + n)
  | none => false

/-- The checked operands of a matrix product: views, formats, Kc. -/
structure Pair where
  a : View
  b : View
  fa : Nat
  fb : Nat
  kc : Nat

/-- Checks of R226, R227 and R229: SHAPE, FMTMISMATCH, SHAPE of the pair, WINDOW. -/
def pairChecks (t : PressJob) (ha hb : Handle) : M Pair := do
  let s ← get
  let w := t.who
  need ((H.rank ha == 1 || H.rank ha == 2) && H.rank hb == 2) .shape
  let a := viewOf t.fmts s w ha
  let b := viewOf t.fmts s w hb
  need (decide (a.rows ≤ 128) && decide (b.cols ≤ 128) && b.rows == a.cols) .shape
  need (packed ha a.cols a.bits && packed hb b.cols b.bits) .shape
  match formatOver t.fmts s w (H.fmt ha) a.runs, formatOver t.fmts s w (H.fmt hb) b.runs with
  | some fa, some fb =>
    need (fa != 0 && fb != 0) .fmtmismatch
    match kcOf fa fb with
    | none => faultM .shape
    | some kc =>
      let ra := a.runs ++ scaleRuns ha a.rows (blocks a.cols) (scaleStepA ha)
      let rb := b.runs ++ scaleRuns hb (blocks a.cols) b.cols (scaleStepB hb)
      need (ra.all (inMemory s w (spBase + t.p * 2 ^ 20) (2 ^ 20))) .window (H.base ha).toNat
      need (rb.all (inMemory s w (shBase + t.cl * 2 ^ 22) (2 ^ 22))) .window (H.base hb).toNat
      return ⟨a, b, fa, fb, kc⟩
  | _, _ => faultM .fmtmismatch

/-- The first poisoned sector of a run on chip: its first byte's address (R193). -/
def poisonedRun (s : State) (w : Who) (r : Nat × Nat) : Option Nat :=
  match windowKey s w r.1 r.2 with
  | none => none
  | some key => (s.mem.poison.find? fun e => e.2 && decide (key / 128 ≤ e.1) && decide (e.1 ≤ (key + r.2 - 1) / 128)).map fun e =>
      r.1 / 128 * 128 + (e.1 - key / 128) * 128

/-- n bytes of a window, little-endian. -/
def windowBytes (s : State) (w : Who) (va n : Nat) : Nat := s.mem.read ((windowKey s w va n).getD 0) n

/-- Elements of a row as exact values. -/
def rowValues (s : State) (w : Who) (v : View) (fmt i : Nat) : List XVal :=
  let r := rowRun v.h v.bits v.cols i
  let x := windowBytes s w r.1 r.2 >>> bitOff (rowBit v.h v.bits i 0)
  (List.range v.cols).map fun j => decodeElem fmt (x >>> (v.bits * j) % 2 ^ v.bits)

/-- A scale byte; an operand without scales has 0x7F (R229). -/
def scaleAt (s : State) (w : Who) (h : Handle) (step : Int) (r j : Nat) : XVal :=
  if H.scaled h then decodeF .e8m0 (windowBytes s w (scaleAddr h step r j) 1) else .fin false 1 0

/-! ## Matrix products (R63, R230, R231) -/

/-- The exact sum of products of a block. -/
def dot : List XVal → List XVal → XVal
  | x :: xs, y :: ys => (x.mul y).add false (dot xs ys)
  | _, _ => .fin false 0 0

/-- Block b of a row of A with a column of B, scaled, over 2^E (R63, R64). -/
def blockValue (e : BitVec 10) (b : Nat) (ra cb : List XVal) (sa sb : XVal) : XVal :=
  (((dot ((ra.drop (32 * b)).take 32) ((cb.drop (32 * b)).take 32)).mul sa).mul sb).scale (-e.toInt)

/-- Contributions of a row of A with B to an element. -/
def contributions (a : Acc) (c : Carry) (e : BitVec 10) (ra cb : List XVal) (sa sb : Nat → XVal) : List Nat → Acc
  | [] => a
  | b :: bs => contributions (a.contribute c (blockValue e b ra cb (sa b) (sb b))) c e ra cb sa sb bs

/-- Row `row` of A with B into row `dst` of a slot. -/
def addRow (c : Nat → Carry) (e : BitVec 10) (nb : Nat) (ra : List XVal) (sa : Nat → XVal) (cols : List (List XVal × (Nat → XVal)))
    (dst : Nat) (el : SMap Acc) : SMap Acc :=
  (List.zip (List.range cols.length) cols).foldl (fun el jc =>
    let k := elKey dst jc.1
    SMap.set Acc.zero el k (contributions (SMap.get Acc.zero el k) (c k) e ra jc.2.1 sa jc.2.2 (List.range nb))) el

/-- The split words of an instruction's elements: free (log 8). -/
def freeSplit (s : State) (k : Nat) : Carry := .free (s.free * 16384 + k)

/-- Reads of runs on chip wait for the Press's accesses that they may not overtake (11 R248). -/
def runsInOrder (w : Who) (cls : BitVec 4) (l : List (Nat × Nat)) : M Unit := do
  let s ← get
  await (l.all fun r => !(s.fl.remotes.any fun m => m.bars w cls r.1 r.2 none))

/-- The bytes of A that a product reads, for the rows it uses, and those of B. -/
def Pair.runsA (q : Pair) (rows : List (Nat × Nat)) : List (Nat × Nat) :=
  rows.map (fun r => rowRun q.a.h q.a.bits q.a.cols r.1) ++
  scaleRows q.a.h (blocks q.a.cols) (scaleStepA q.a.h) (rows.map (·.1))
def Pair.runsB (q : Pair) (rows : List (Nat × Nat)) : List (Nat × Nat) :=
  if rows.isEmpty then [] else q.b.runs ++ scaleRuns q.b.h (blocks q.a.cols) q.b.cols (scaleStepB q.b.h)

/-- Steps of PMM and PMMG after their own checks: R221, poison, count, tile waits (R369), binding, operands, contributions (R230).
`rows` pairs rows of A with rows of the slot; `mult` is the multiplicity of R231; `ready` is what else the contributions
wait for. -/
def multiply (t : PressJob) (q : Pair) (ls : Nat) (carry : Bool) (e : BitVec 10) (rows : List (Nat × Nat)) (mult : Nat)
    (ready : M Unit) : M Unit := do
  let sl ← t.slot ls
  t.writable sl carry
  let n := blocks q.a.cols
  let nb := n * mult
  readable sl ls
  if (sl.map (·.cnt)).getD 0 + nb > countMax then pressFault .acclim ls
  tileReadWait t.cap.ctx (tileCluster t.p (H.base q.a.h).toNat) (H.tile q.a.h)
  tileReadWait t.cap.ctx (tileCluster t.p (H.base q.b.h).toNat) (H.tile q.b.h)
  let w := t.who
  runsInOrder w (H.cls q.a.h) (q.runsA rows)
  runsInOrder w (H.cls q.b.h) (q.runsB rows)
  match (q.runsA rows ++ q.runsB rows).findSome? (poisonedRun (← get) w) with
  | some va =>
    t.bind ls sl carry e
    t.modSlot ls fun sl => { sl with pz := true }
    throw (.fault .eccu va false (slotDetail ls 0))
  | none =>
    ready
    t.bind ls sl carry e
    let s ← get
    let b := (List.range q.b.rows).map fun k => rowValues s w q.b q.fb k
    let cols := (List.range q.b.cols).map fun j =>
      (b.map fun r => r.getD j (.fin false 0 0), fun k => scaleAt s w q.b.h (scaleStepB q.b.h) k j)
    t.modSlot ls fun sl => { sl with
      cnt := sl.cnt + nb
      el := rows.foldl (fun el r => addRow (freeSplit s) sl.e n (rowValues s w q.a q.fa r.1)
        (fun k => scaleAt s w q.a.h (scaleStepA q.a.h) r.1 k) cols r.2 el) sl.el }
    doS fun s => perfAdd (perfAdd s.bump t.cl 0x04 t.p t.cap.ctx nb) t.cl 0x03 t.p t.cap.ctx (ceilDiv q.a.cols q.kc)

/-- Cost of a matrix product: weight by Kc times its blocks; a pair without a Kc has no class (R439, R380). -/
def productCost (s : State) (t : PressJob) (ha hb : Handle) : Nat :=
  let f (h : Handle) : Nat := (headFormat t.fmts s t.who (H.fmt h) (H.base h).toNat).getD 0
  match kcOf (f ha) (f hb) with
  | some k => classWeight s t.p (if k = 2 then 0 else if k = 8 then 1 else 2) * blocks (H.size ha 0)
  | none => 0

/-- A Press instruction of class 0-4 in a stream. -/
def pressRun (c : VCom) (cost : State → Nat → Nat) (body : Item → M Unit) (s : State) : Out := streamRun true c 3 cost body s

/-- The cost of a matrix product in a stream of core p. -/
def streamProduct (ha hb : BitVec 2) (s : State) (p : Nat) : Nat :=
  let q := seqr s p true
  match q.cap with
  | some c => productCost s ⟨p, c, ⟨q.fmts, c.core, c.fmt⟩⟩ ((s.ve p).slot true ha.toNat) ((s.ve p).slot true hb.toNat)
  | none => 0

def execPmm (c : VCom) (slot : BitVec 4) (ha hb : BitVec 2) (carry : Bool) (e : BitVec 10) (s : State) : Out :=
  pressRun c (streamProduct ha hb) (fun i => do
    let t ← i.pressJob
    let q ← pairChecks t (← i.pressHandle ha) (← i.pressHandle hb)
    multiply t q slot.toNat carry e ((List.range q.a.rows).map fun r => (r, r)) 1 (pure ())) s

/-! ### Gathered products (R231) -/

/-- Entries of a list before its end mark. -/
def listPairs : List (Nat × Nat) → List (Nat × Nat)
  | [] => []
  | (g, r) :: l => if g = 0xFFFF then [] else (g, r) :: listPairs l

/-- The largest number of times one scatter row occurs. -/
def multiplicity (l : List (Nat × Nat)) : Nat := l.foldl (fun m r => max m (l.filter fun q => q.2 == r.2).length) 0

/-- DETAIL of a record about the Press instruction at the head of the core's stream (R336). -/
def PressJob.note (t : PressJob) (ls rg : Nat) : M Unit := doS fun s => modSeqr s t.p true fun q => { q with note := slotDetail ls rg }

/-- An ECCU that a Press instruction meets in an operand or list sets PZ of its slot (R241). -/
def poisoning {α : Type} (t : PressJob) (ls : Nat) (x : M α) : M α := fun s =>
  match x s with
  | .error (.fault .eccu a st d) u => .error (.fault .eccu a st d) (modSlot u t.p t.cap.ctx ls fun sl => { sl with pz := true })
  | r => r

/-- The list of a PMMG, read whole: WINDOW, XLATE, PERM and ECCU (R231). -/
def readList (t : PressJob) (ls : Nat) (h : Handle) : M (List (Nat × Nat)) := do
  t.note ls 0
  let s ← get
  let w := t.who
  let n := H.size h 0
  need (H.rank h == 2 && decide (n ≤ 128) && H.size h 1 == 2) .shape
  let v : View := ⟨h, 16, 2, n⟩
  need (formatOver t.fmts s w (H.fmt h) v.runs == some 4) .fmtmismatch
  match windowFails s w (v.checked s w) with
  | some a => faultM .window a
  | none =>
    tileReadWait t.cap.ctx (tileCluster t.p (H.base h).toNat) (H.tile h)
    let row (i : Nat) : List (Nat × Int) := (List.range n).map fun j => (i * 128 + j, rowBit h 16 i j)
    -- an element across two bytes of different pages is read byte by byte
    let wide := (H.base h).toNat % 2 == 0
    let get1 (l : List (Nat × Int)) : M (List Nat) :=
      if wide then do return (← poisoning t ls (naming ls 0 (readElems w false ⟨H.cls h, 0, 0, none⟩ 16 l))).map (·.2)
      else do
        let lo ← poisoning t ls (naming ls 0 (readElems w false ⟨H.cls h, 0, 0, none⟩ 8 l))
        let hi ← poisoning t ls (naming ls 0 (readElems w false ⟨H.cls h, 0, 0, none⟩ 8 (l.map fun e => (e.1 + 256, e.2 + 8))))
        return (List.zip lo hi).map fun e => e.1.2 + 256 * e.2.2
    let g ← get1 (row 0)
    let r ← get1 (row 1)
    return listPairs (List.zip g r)

/-- Room for the reply (R266), and the pushing core's stores folded before it (R259). The instruction waits before its
contributions, which no unit can tell from waiting after them. -/
def replyReady (t : PressJob) (ls : Nat) : M Unit := do
  let x := (← get).proc t.p
  let room : Bool := decide (x.q.reply.length < replyMax)
  if !room then doS fun s => modSeqr s t.p true fun x => { x with writing := some ls }
  await room 0x15
  await x.coh.acks.isEmpty

/-- A gathered product: the list, its indices, then what PMM does with its rows, and the reply (R231, R278). -/
def gatheredProduct (t : PressJob) (src : Nat) (ha hb hc : Handle) (ls : Nat) (carry : Bool) (e : BitVec 10) : M Unit := do
  let l ← readList t ls hc
  need (l.all fun r => decide (r.1 < rowsOf ha) && decide (r.2 ≤ 127)) .shape
  let q ← pairChecks t ha hb
  multiply t q ls carry e l (multiplicity l) (replyReady t ls)
  doS fun s => s.modQ t.p fun k =>
    { k with reply := k.reply ++ [⟨replyWord s src t.cap.tag ls l.length, wsOf s t.p⟩] }

def execPmmg (c : VCom) (slot : BitVec 4) (ha hb hc : BitVec 2) (carry : Bool) (e : BitVec 10) (s : State) : Out :=
  pressRun c (streamProduct ha hb) (fun i => do
    let t ← i.pressJob
    gatheredProduct t 1 (← i.pressHandle ha) (← i.pressHandle hb) (← i.pressHandle hc) slot.toNat carry e) s

/-- The oldest gathered command of a core leaves the queue for service (R280). -/
def takeGathered (s : State) (p : Nat) : State :=
  let cl := clusterOf p
  match (s.cluster cl).press.gathered.find? fun g => g.cap.core == p with
  | none => s
  | some g => modSeqr (s.modPress cl fun pr => { pr with gathered := pr.gathered.eraseP fun g => g.cap.core == p }) p true
      fun q => { q with serving := some g }

/-- A fault of a gathered command: a stop, or the fate of its brick (R280, R331). -/
def gatheredFault (s : State) (p : Nat) (g : Gathered) (c : Cause) (addr : Nat) (detail : BitVec 24) : State :=
  let s := dropWaiter (clearAnswers p (some .px) (setStall s p (some .px) 0)) p .px
  let r : Rec := { cause := c, unit := 2, core := p, faddr := addr, detail := detail, brick := brickRegWord s p g.cap.tag }
  if c.stops && !recordFull s g.cap.ctx then
    let seq := (s.ctx g.cap.ctx).fq.seq
    setStop (writeActionable s g.cap.ctx .stop r (.stopEng p .px)) p .px (some seq)
  else brickFault (modSeqr s p true fun q => q.endServing) p g.cap.tag r c.stops

/-- The Press takes the lease holder's oldest gathered command at a boundary between two instructions, or goes on with the
one in service (R280). Without one, or within an instruction, nothing happens. -/
def execGatheredCommand (cluster : Nat) (s : State) : Out :=
  if cluster < 64 then
    match (s.cluster cluster).press.holder with
    | none => .next s
    | some k =>
      let p := cluster * 4 + k
      let q := seqr s p true
      if q.stop.isSome || (q.serving.isNone && (q.phase != .fresh || q.push.isSome)) then .next s
      else
        let s := if q.serving.isSome then s else takeGathered s p
        match (seqr s p true).serving with
        | none => .next s
        | some g =>
          if !pushReleased s g.cap then .next s
          else
          let f := g.fmts.getD (snapFormats s g.cap.ctx)
          let s := modSeqr s p true fun q => { q with serving := some { g with fmts := some f } }
          let t : PressJob := ⟨p, g.cap, ⟨f, p, g.cap.fmt⟩⟩
          match (do
              streamDequeue p true g.cap.ctx (productCost s t g.a g.b)
              gatheredProduct t 2 g.a g.b g.list g.slot g.carry g.e : M Unit) s with
          | .ok _ s => .next (clearAnswers p (some .px) (setStall (modSeqr s p true fun q => q.endServing) p (some .px) 0))
          | .error (.fault c a _ dt) s => .next (gatheredFault s p g c a dt)
          | .error (.wait ev) s => .next (setStall s p (some .px) (ev + 1))
  else .fault .noSuchUnit

/-! ## Row groups (R245) -/

/-- Row groups in order, from the first not yet completed: after a stop that is px.rowprog.RG as it stands when the unit is
resumed. A stop keeps px.rowprog; the completion of a resumed instruction clears V. -/
def rowGroups (t : PressJob) (ls : Nat) (group : Nat → M Unit) : M Unit := do
  let q := seqr (← get) t.p true
  ((List.range 16).drop q.rows).forM fun g => do
    t.note ls g
    naming ls g (fun s => match group g s with
      | .error (.fault c a st d) u =>
        .error (.fault c a st d) (if c.stops then u.modCC t.p fun r => { r with rowprog := BitVec.ofNat 64 (2 ^ 63 + ls * 2 ^ 16 + g) } else u)
      | r => r)
    doS fun s => modSeqr s t.p true fun q => { q with rows := g + 1 }
  if q.resumed then doS fun s => clearRowprog s t.p

/-- ACCERR at an element (R336). -/
def accerr {α : Type} (ls k : Nat) : M α := pressFault .accerr ls k

/-- All or nothing of a group's pieces: translation comes first (R245). -/
def storeGroup (t : PressJob) (cls : BitVec 4) (ps : List Piece) : M Unit := do
  let (l, bad) ← resolvePieces t.who ps
  match bad with
  | some e => throw e
  | none => storeResolved t.who ⟨cls, 0, 0, none⟩ l

/-- A row-group instruction costs 16 of class 3; going on after a stop pays nothing (R439). -/
def rowCost (s : State) (p : Nat) : Nat := 16 * classWeight s p 3

/-! ## PRES, PSTR, PLDR (R232-R234) -/

/-- A piece whose address is not a multiple of its size is stored byte by byte. -/
def splitPiece (x : Piece) : List Piece :=
  if x.va % x.n = 0 then [x]
  else (List.range x.n).map fun k => ⟨x.idx, (x.va + k) % 2 ^ 52, 1, 255, x.val / 256 ^ k % 256⟩

/-- The destination of PRES with its effective format. -/
def presChecks (t : PressJob) (h : Handle) : M (View × Nat) := do
  let s ← get
  let w := t.who
  need (H.rank h == 1 || H.rank h == 2) .shape
  let v := viewOf t.fmts s w h
  need (decide (v.cols ≤ 128) && decide (v.rows ≤ 128) && packed h v.cols v.bits) .shape
  match formatOver t.fmts s w (H.fmt h) v.runs with
  | none => faultM .fmtmismatch
  | some f =>
    need (f != 0) .fmtmismatch
    need (f != 19 && f != 20) .shape
    match windowFails s w (v.checked s w) with
    | some a => faultM .window a
    | none => return (v, f)

/-- The value PRES resolves an element to (R232). -/
def resolved (a : Acc) (e p : BitVec 10) (ovn : Bool) : XVal := if ovn && a.ovf then .nan else (a.value e).scale p.toInt

def execPres (c : VCom) (slot : BitVec 4) (hc : BitVec 2) (rm : BitVec 3) (noo ovn : Bool) (p : BitVec 10) (s : State) : Out :=
  pressRun c rowCost (fun i => do
    let t ← i.pressJob
    let h ← i.pressHandle hc
    let ls := slot.toNat
    let (v, f) ← presChecks t h
    let sl ← t.slot ls
    readable sl ls
    let e := (sl.map (·.e)).getD 0
    let s ← get
    let u (r j : Nat) : Nat := srBits (srSeed s t.cap) (H.tile h) (srBrick s t.cap * 2 ^ 40 + r * 128 + j) (srStep s t.cap)
    rowGroups t ls fun g => do
      let ks := (List.range 8).flatMap fun r => if 8 * g + r < v.rows then (List.range v.cols).map fun j => (8 * g + r, j) else []
      match ks.find? fun k => !(elemAt sl (elKey k.1 k.2)).resOk with
      | some k => accerr ls (elKey k.1 k.2)
      | none =>
        let out := ks.map fun k =>
          (elKey k.1 k.2, rowBit h v.bits k.1 k.2,
            encodeElem f (capMode t.cap rm) noo (u k.1 k.2) (resolved (elemAt sl (elKey k.1 k.2)) e p ovn))
        storeGroup t (H.cls h) ((allPieces v.bits out).flatMap splitPiece)) s

/-- The checks of an XA image (R233): the handle, its format, ALIGN, WINDOW. -/
def imageChecks (t : PressJob) (h : Handle) : M Nat := do
  let s ← get
  let base := (H.base h).toNat
  need (H.rankOk h) .shape
  need (formatOver t.fmts s t.who (H.fmt h) [(base, 278528)] == some 20) .fmtmismatch
  need (base % 128 == 0) .align base
  -- every element lies in one of the runs of 32 KiB (R185)
  match windowFails s t.who (bankRuns 16 base 278528) with
  | some a => faultM .window a
  | none => return base

/-- Side byte of an element (R57). -/
def sideByte (a : Acc) : Nat := (if a.ovf then 16 else 0) + a.res.toNat * 4 + a.tag.toNat

/-- The raw pair of an element, 16 bytes (R57). -/
def rawPair (a : Acc) : Nat := (a.sum - a.carry.word).toNat + a.carry.word.toNat * 2 ^ 64

/-- Pack values of n bytes. -/
def packBytes (n : Nat) : List Nat → Nat
  | [] => 0
  | x :: xs => x + 2 ^ (8 * n) * packBytes n xs

/-- The sectors of row group g: body, then side bytes, with the elements each holds. -/
def groupSectors (base g : Nat) : List (Nat × Nat × Bool) :=
  (List.range 128).map (fun k => ((base + 16384 * g + 128 * k) % 2 ^ 52, g * 1024 + 8 * k, false)) ++
  (List.range 8).map fun k => ((base + 262144 + 1024 * g + 128 * k) % 2 ^ 52, g * 1024 + 128 * k, true)

def execPstr (c : VCom) (slot : BitVec 4) (hc : BitVec 2) (s : State) : Out :=
  pressRun c rowCost (fun i => do
    let t ← i.pressJob
    let h ← i.pressHandle hc
    let ls := slot.toNat
    let base ← imageChecks t h
    let sl ← t.slot ls
    readable sl ls
    rowGroups t ls fun g =>
      storeGroup t (H.cls h) ((groupSectors base g).map fun e =>
        ⟨e.2.1, e.1, 128, fullMask 128,
          if e.2.2 then packBytes 1 ((List.range 128).map fun j => sideByte (elemAt sl (e.2.1 + j)))
          else packBytes 16 ((List.range 8).map fun j => rawPair (elemAt sl (e.2.1 + j)))⟩)) s

/-- Read the sectors of a group, each a 1,024-bit number. -/
def readSectors (t : PressJob) (cls : BitVec 4) : List (Nat × Nat × Bool) → M (List Nat)
  | [] => pure []
  | e :: l => do
    let x ← readAt t.who false ⟨cls, 0, e.2.1 * 2 + (if e.2.2 then 1 else 0), none⟩ e.1 128
    let xs ← readSectors t cls l
    return x :: xs

/-- The element of a raw pair and side byte. -/
def Acc.ofRaw (pair side : Nat) : Acc :=
  let c : BitVec 64 := BitVec.ofNat 64 (pair / 2 ^ 64)
  ⟨BitVec.ofNat 64 pair + c, .fixed c, BitVec.ofNat 2 side, BitVec.ofNat 2 (side / 4), side / 16 % 2 == 1⟩

/-- PLDR's checks of an element (R234). -/
def Acc.loadable (a : Acc) (side : Nat) : Bool := side / 32 == 0 && a.resOk && decide (a.sum.toInt.natAbs < 2 ^ 62)

/-- Elements of a group, in order, from the sectors read. -/
def groupElems (g : Nat) (xs : List Nat) : List (Nat × Nat × Acc) :=
  (List.range 1024).map fun k =>
    let side := xs.getD (128 + k / 128) 0 >>> (8 * (k % 128)) % 256
    (g * 1024 + k, side, Acc.ofRaw (xs.getD (k / 8) 0 >>> (128 * (k % 8)) % 2 ^ 128) side)

/-- Replace the elements of a row group. -/
def replaceGroup (el : SMap Acc) (g : Nat) (l : List (Nat × Nat × Acc)) : SMap Acc :=
  (el.filter fun e => decide (e.1 / 1024 < g)) ++
  (l.filterMap fun e => if e.2.2 = Acc.zero then none else some (e.1, e.2.2)) ++ el.filter fun e => decide (g < e.1 / 1024)

def execPldr (c : VCom) (slot : BitVec 4) (hc : BitVec 2) (carry : Bool) (e : BitVec 10) (s : State) : Out :=
  pressRun c rowCost (fun i => do
    let t ← i.pressJob
    let h ← i.pressHandle hc
    let ls := slot.toNat
    let base ← imageChecks t h
    t.writable (← t.slot ls) carry
    rowGroups t ls fun g => do
      let xs ← readSectors t (H.cls h) (groupSectors base g)
      let l := groupElems g xs
      match l.find? fun k => !k.2.2.loadable k.2.1 with
      | some k => accerr ls k.1
      | none =>
        let sl ← t.slot ls
        -- the first group that this instruction writes (R234, R245)
        let first := (seqr (← get) t.p true).writing.isNone
        t.bind ls sl carry e
        t.modSlot ls fun sl => { sl with el := replaceGroup sl.el g l, cnt := if first then max sl.cnt 32768 else sl.cnt }
        doS fun s => clearAnswers t.p (some .px) (modSeqr s t.p true fun q => { q with writing := some ls })) s

/-! ## Slot arithmetic (R235-R237) -/

def slotCost (s : State) (p : Nat) : Nat := classWeight s p 4

def execPrel (c : VCom) (slot : BitVec 4) (s : State) : Out :=
  pressRun c slotCost (fun i => do
    let t ← i.pressJob
    let ls := slot.toNat
    match ← t.slot ls with
    | none => pure ()
    | some sl =>
      need (!(sl.carried && ((((← get).brick t.p t.cap.tag).map (·.b.rst)).getD false))) .engill
      doS fun s => freeSlots s t.cl fun v => v.core == sl.core && v.ctx == sl.ctx && v.lslot == sl.lslot) s

/-- The first element whose residue does not match. -/
def badElement (sl : Option Slot) : Option Nat := (sl.bind fun v => v.el.find? fun e => !e.2.resOk).map (·.1)

/-- v / 2^d to the nearest integer (R236). -/
def rescale (v d : Int) : Int := XVal.signed (decide (v < 0)) (roundMag .rne (decide (v < 0)) 0 v.natAbs (-d))

/-- PSCL on an element. -/
def Acc.rescaled (a : Acc) (d : Int) : Acc :=
  let v : BitVec 64 := BitVec.ofInt 64 (rescale a.sum.toInt d)
  { a with sum := v, carry := .fixed 0, res := residue v }

/-- PSCL's count. -/
def rescaleCount (n : Nat) (d : Int) : Nat := if 0 ≤ d then ceilDiv n (2 ^ d.toNat) else n * 2 ^ (-d).toNat

def execPscl (c : VCom) (slot : BitVec 4) (d : BitVec 10) (s : State) : Out :=
  pressRun c slotCost (fun i => do
    let t ← i.pressJob
    let ls := slot.toNat
    match ← t.slot ls with
    | none => pure ()
    | some sl =>
      let e := sl.e.toInt + d.toInt
      t.writable (some sl) false
      readable (some sl) ls
      need (decide (-512 ≤ e) && decide (e ≤ 511)) .shape
      if d.toInt < 0 && rescaleCount sl.cnt d.toInt > countMax then pressFault .acclim ls
      match badElement (some sl) with
      | some k => accerr ls k
      | none =>
        t.modSlot ls fun v => { v with
          el := (v.el.map fun x => (x.1, x.2.rescaled d.toInt)).filter fun x => x.2 != Acc.zero
          e := BitVec.ofInt 10 e, cnt := rescaleCount v.cnt d.toInt }) s

/-- PADD on an element: q = v * 2^n with the source's tag and OVF. -/
def Acc.added (a b : Acc) (n : Nat) (c : Carry) : Acc :=
  let r := a.plus (b.sum.toInt * 2 ^ n) c
  { r with tag := if b.tag = 0 then r.tag else tagAdd r.tag (tagSpecial b.tag), ovf := r.ovf || b.ovf }

/-- Elements of a slot after PADD; an element unlisted in both slots is zero in both and stays so. -/
def addSlots (c : Nat → Carry) (n : Nat) (dst src : SMap Acc) : SMap Acc :=
  ((dst.map (·.1)) ++ src.map (·.1)).eraseDups.foldl (fun el k =>
    SMap.set Acc.zero el k ((SMap.get Acc.zero dst k).added (SMap.get Acc.zero src k) n (c k))) dst

def execPadd (c : VCom) (slot src : BitVec 4) (carry : Bool) (e : BitVec 10) (s : State) : Out :=
  pressRun c slotCost (fun i => do
    let t ← i.pressJob
    let ls := slot.toNat
    let sv ← t.slot src.toNat
    let dv ← t.slot ls
    if sv.any (·.pz) then t.modSlot ls fun sl => { sl with pz := true }
    readable sv src.toNat
    match badElement sv with
    | some k => accerr src.toNat k
    | none =>
      readable dv ls
      let ed := (dv.map (·.e.toInt)).getD e.toInt
      let es := (sv.map (·.e.toInt)).getD ed
      need (decide (ed ≤ es)) .shape
      let n := (es - ed).toNat
      let add := (sv.map (·.cnt)).getD 0 * 2 ^ n
      if (dv.map (·.cnt)).getD 0 + add > countMax then pressFault .acclim ls
      t.writable dv carry
      t.bind ls dv carry e
      let s ← get
      t.modSlot ls fun v => { v with cnt := v.cnt + add, el := addSlots (freeSplit s) n v.el ((sv.map (·.el)).getD []) }
      doS State.bump) s

/-! ## VLDA (R238) -/

def execVlda (c : VCom) (m : Bool) (vd : BitVec 5) (slot : BitVec 4) (row0 : BitVec 7) (col : BitVec 2) (s : State) : Out :=
  veMem c (fun i => do
    let v ← i.regs
    let c0 := col.toNat * 32
    need (decide (row0.toNat + v.rows ≤ 128) && decide (c0 + v.cols ≤ 128)) .shape
    let sl := slotOf (← get) i.p i.cap.ctx slot.toNat
    let act := v.active m
    need (act.isEmpty || !sl.any (·.pz)) .eccu
    let key (k : Nat) : Nat := elKey (row0.toNat + k / v.cols) (c0 + k % v.cols)
    match act.find? fun k => !(elemAt sl (key k)).resOk with
    | some k => accerr slot.toNat (key k)
    | none => putLoaded i vd (act.map fun k =>
        (k, encodeElem (vCode v.ty) .rne false 0 ((elemAt sl (key k)).value ((sl.map (·.e)).getD 0))))) s

end Sys2Proof.Machine
end

