-- ==== Sys2Proof/Machine/Sync.lean ====
section
/-! DEFINITION. Semaphores, slot counters, markers and rendezvous instructions (20_sync_counters.md R425-R438), and the
application of posts. -/

namespace Sys2Proof.Machine

/-! ## Semaphores (R427) -/

def execSemp (gd : Guard) (n : BitVec 6) (a : BitVec 5) (s : State) : Out :=
  ccRun .control false gd 4 (fun p => do
    need (n != 0) .illop
    let _ ← release p 0
    let v ← getS p a
    doS fun s => semRaise s p n.toNat (v.toNat % 65536)
    return .next) s

def execSemw (gd : Guard) (n : BitVec 6) (a : BitVec 5) (s : State) : Out :=
  ccRun .control false gd 4 (fun p => do
    need (n != 0) .illop
    let v := (← getS p a).toNat % 65536
    if v != 0 then semTake p none n.toNat v
    doS fun s => acquireCo s p
    return .next) s

/-! ## Markers (R432) -/

/-- The engine of a marker's code, in the order VE, Press, HL, HS. -/
def engOf (e : BitVec 2) : Eng := match e.toNat with
  | 0 => .ve | 1 => .px | 2 => .hl | _ => .hs

/-- Marker counters of an engine (R432). -/
def Sync.marker (y : Sync) (e : BitVec 2) : Marker := SMap.get Marker.reset y.mark e.toNat

/-- Entries of an engine input queue (12, card of R266). -/
def queueMax : Nat := 64

/-- MARK: the ticket, and a marker that for the Press stands for the gathered commands pushed before it (R432). -/
def execMark (gd : Guard) (d : BitVec 5) (e : BitVec 2) (s : State) : Out :=
  ccRun .control false gd 4 (fun p => do
    let s ← get
    let q := (s.proc p).q
    let u := engOf e
    await (decide ((engineQueue q u).length < queueMax))
    let m := (s.sync p).marker e
    let mi := m.mi + 1
    let g := if u = .px then (s.cluster (clusterOf p)).press.pushes else 0
    doS fun s => (s.modSync p fun y => { y with mark := SMap.set Marker.reset y.mark e.toNat { m with mi := mi } }).modQ p
      fun q => setEngineQueue q u (engineQueue q u ++ [.marker g])
    putS p d (mi.setWidth 64)
    return .next) s

/-- A 32-bit serial number x has reached v (R429, R432). -/
def reached (x v : BitVec 32) : Bool := !(x - v).msb

def execMarkWait (gd : Guard) (a : BitVec 5) (e : BitVec 2) (s : State) : Out :=
  ccRun .control false gd 4 (fun p => do
    let s ← get
    await (reached ((s.sync p).marker e).mc (((s.cc p).readS a).setWidth 32)) boundaryWait
    doS fun s => acquireCo s p
    return .next) s

/-! ## Rendezvous registers (R433-R435) -/

/-- The R433 word. -/
def Rdv.word (r : Rdv) : Word := BitVec.ofNat 64 (r.gen.toNat * 2 ^ 48 + r.cnt.toNat * 2 ^ 16 + r.exp.toNat)

def execRdvset (gd : Guard) (d a : BitVec 5) (k : BitVec 3) (s : State) : Out :=
  ccRun .control false gd 6 (fun p => do
    let w ← ccWho p
    let s ← get
    let e := (s.cc p).readS a
    need (decide (e.toNat ≤ 256)) .shape
    let r := rdvOf (s.sync p) k.toNat
    doS fun s => s.modSync p fun y => { y with rdv := SMap.set Rdv.reset y.rdv k.toNat { r with exp := e.setWidth 9 } }
    if r.cnt != 0 && decide (e.toNat ≤ r.cnt.toNat) then doS fun s => rdvComplete s w.ctx p k.toNat
    putS p d r.word
    return .next) s

def execRdvw (gd : Guard) (d a : BitVec 5) (k : BitVec 3) (s : State) : Out :=
  ccRun .control false gd 4 (fun p => do
    let w ← ccWho p
    if (((← get).sync p).arrival).isNone then
      let s ← get
      let h := ((s.cc p).readS a).toNat % 256
      need (s.inPart w.ctx (clusterOf h)) .window
      let g ← release p 2
      let r := rdvOf (syncOf s w.ctx h) k.toNat
      need (r.exp != 0) .shape
      doS fun s => s.modSync p fun y => { y with arrival := some ⟨h, k.toNat, r.gen, none⟩ }
      let r' : Rdv := { r with cnt := r.cnt + 1, sig := r.sig ||| g.getD 0 }
      doS fun s => rdvSettle (modSyncOf s w.ctx h fun y => { y with rdv := SMap.set Rdv.reset y.rdv k.toNat r' }) w.ctx h k.toNat
    match ((← get).sync p).arrival with
    | some ⟨_, _, my, some g⟩ =>
      doS fun s => acquireCo (mergePs (s.modSync p fun y => { y with arrival := none }) p g) p
      putS p d ((my + 1).setWidth 64)
      return .next
    | _ => waitM boundaryWait) s

/-! ## Reading and setting (R436) -/

def execSemrd (gd : Guard) (d : BitVec 5) (kind : BitVec 2) (n : BitVec 8) (s : State) : Out :=
  ccRun .control false gd 6 (fun p => do
    let y := (← get).sync p
    let k := n.toNat
    match kind.toNat with
    | 0 => need (k < 64) .illop; putS p d ((y.semWord k).setWidth 64)
    | 1 => putS p d ((y.scVal k).setWidth 64)
    | 2 =>
      need (k < 4) .illop
      let m := SMap.get Marker.reset y.mark k
      putS p d (BitVec.ofNat 64 (m.mi.toNat * 2 ^ 32 + m.mc.toNat))
    | _ => need (k < 8) .illop; putS p d (rdvOf y k).word
    return .next) s

def execSemset (gd : Guard) (d a : BitVec 5) (kind : BitVec 2) (n : BitVec 8) (s : State) : Out :=
  ccRun .control false gd 6 (fun p => do
    let s ← get
    let y := s.sync p
    let v := (s.cc p).readS a
    let k := n.toNat
    need (kind == 1 || (kind == 0 && k < 64)) .illop
    if kind = 0 then
      doS fun s => semChange s p k fun y => y.setSem k ((fld v 0 16).setWidth 17)
      putS p d ((y.semWord k).setWidth 64)
    else
      doS fun s => s.modSync p fun y => { y with sc := SMap.set 0 y.sc k (v.setWidth 32) }
      putS p d ((y.scVal k).setWidth 64)
    return .next) s

/-! ## Slot counters (R428-R430) -/

def execScw (gd : Guard) (d a : BitVec 5) (sc : BitVec 3) (c : BitVec 8) (s : State) : Out :=
  ccRun .control false gd 6 (fun p => do
    let t0 ← beginWait p (some (d, c))
    let s ← get
    let x := (s.sync p).scVal c.toNat
    let overs := limitOver s p t0
    if reached x (((s.cc p).readS a).setWidth 32) then
      doS fun s => dropWait (acquireWait s p sc) p
      putP p 7 true
      putS p d (x.setWidth 64)
      return .next
    else if overs then
      doS fun s => dropWait s p
      putP p 7 false
      putS p d (x.setWidth 64)
      return .next
    else waitM boundaryWait) s

/-- The limit of an SCW runs out (R429): p7 is 0 and s[D] the counter. Without an SCW whose limit has run out nothing
happens. -/
def execScwTimeout (core : Nat) (s : State) : Out :=
  if core < 256 then
    match (s.proc core).t0 with
    | some ⟨t0, some (d, c), _⟩ =>
      if limitOver s core t0 then
        let x := (s.sync core).scVal c.toNat
        let s := s.modCC core fun r => (r.writeP 7 false).writeS d (x.setWidth 64)
        .next (retireCC (dropWait s core) core ((s.cc core).pc + 6))
      else .next s
    | _ => .next s
  else .fault .noSuchUnit

/-- A post to a core of another module (R356, R359); it stays outstanding until that module answers (R355, R363, R432). -/
def postRemote (w : Who) (node core ctr : Nat) (amount : BitVec 32) (g : Sig) (s : State) : State :=
  let r := newRemote s w ⟨.remote, node, 0, false, 0⟩ 4 deadTag 0 0 none none
  (s.modFl fun f => { f with remotes := f.remotes ++ [r] }).sendFlit node 4 (s.ctx w.ctx).gid (w.p % 256) 0 ctr
    (bytesN 1 core ++ bytesN 4 amount.toNat ++ bytesN 128 g.toNat)

/-- A node outside the context's domain group (R355). -/
def foreignNode (s : State) (x node : Nat) : Bool := decide (node > 767) || !(s.ctx x).member.getLsbD node

def execScp (gd : Guard) (a b : BitVec 5) (sc : BitVec 3) (c : BitVec 8) (s : State) : Out :=
  ccRun .any false gd 6 (fun p => do
    let w ← ccWho p
    let s ← get
    let t := (s.cc p).readS a
    let core := (fld t 0 8).toNat
    let node := (fld t 8 10).toNat
    let rem := t.getLsbD 18
    let v : BitVec 32 := ((s.cc p).readS b).setWidth 32
    need (rem || s.inPart w.ctx (clusterOf core)) .window
    need (!rem || !foreignNode s w.ctx node) .perm
    need (!rem || decide (3 ≤ sc.toNat)) .shape
    let g := (← release p sc).getD 0
    if rem then doS fun s => postRemote w node core c.toNat v g s
    else doS fun s => sendPost s (.core p) w.ctx core c.toNat v g
    return .next) s

/-! ## Posts on their way (R428, R431) -/

/-- No earlier post of the same source to the same core waits before post i (R428; its worked example orders the posts to
two counters of one core too). Posts of different sources are applied in any order. -/
def postFirst (l : List Post) (i : Nat) (q : Post) : Bool :=
  !((l.take i).any fun e => e.src == q.src && e.core == q.core && e.ctx == q.ctx)

/-- The i-th post in flight reaches its counter. Without such a post nothing happens. -/
def execPostApply (i : Nat) (s : State) : Out :=
  match s.fl.posts[i]? with
  | some q =>
    if postFirst s.fl.posts i q then .next (applyPost (s.modFl fun f => { f with posts := f.posts.eraseIdx i }) q)
    else .next s
  | none => .next s

end Sys2Proof.Machine
end

