-- ==== Sys2Proof/Machine/Hods.lean ====
section
/-! DEFINITION. Hod chains: chain starts, entries, posts (13_hod_chains.md R291-R302; 08 R193, R197; 17 R364-R370; 19 R404,
R407). -/

namespace Sys2Proof.Machine

/-! ## What an entry runs under -/

/-- A chain in progress: the hod, the start's capture (its core is the issuing core), bank formats. -/
structure Chain where
  core : Nat
  hs : Bool
  cap : Capture
  fmts : Captured

def hodEng (hs : Bool) : Eng := if hs then .hs else .hl

namespace Chain

def eng (t : Chain) : Eng := hodEng t.hs
/-- Own aliases and the L1 are the issuing core's (R301); answers come to the hod's core. -/
def who (t : Chain) : Who := ⟨t.cap.core, some t.eng, t.cap.ctx, t.core⟩
def agent (t : Chain) : Agent := .hod t.core t.hs
/-- The chain a hod runs; its entry keeps the bank formats it started with (08 R196, 17 R378). -/
def of (s : State) (core : Nat) (hs : Bool) (c : Capture) : Chain :=
  ⟨core, hs, c, ⟨(hodOf s core hs).fmts.getD (snapFormats s c.ctx), c.core, c.fmt⟩⟩
def mod (t : Chain) (f : Hod → Hod) : M Unit := doS fun s => modHod s t.core t.hs f
def hod (t : Chain) : M Hod := do return hodOf (← get) t.core t.hs

end Chain

/-- The writes of a hod for its chain have performed (R291). -/
def hodWritesDone (s : State) (t : Chain) : Bool :=
  (s.proc t.cap.core).coh.acks.isEmpty && !(s.fl.remotes.any fun r => r.q == t.core && r.eng == some t.eng && r.kind != 4)

/-- Subscribers that an HMSRC has taken end with it (R297). -/
def failTaken (s : State) (core : Nat) (hs : Bool) (c : Cause) (addr : Nat) : State :=
  let f (u : Subscriber) : Subscriber := if u.by_ = some (core, hs) && !u.done then { u with failed := some (c.code, addr) } else u
  s.modFl fun l => { l with subs := l.subs.map f }

/-- The HMSRC whose source elements an HMCS has been given. -/
def sourceOf (s : State) (core : Nat) (hs : Bool) : Option (Nat × Bool) :=
  (s.fl.subs.find? fun u => u.core == core && u.hs == hs && !u.done && u.vals.isSome && u.failed.isNone).bind (·.by_)

/-- OP of the entry a hod has read, 0 before. -/
def Hod.op (h : Hod) : BitVec 24 := ((h.entry.map fun w => (fld w 0 8).setWidth 24).getD 0)

/-- A fault of a chain (R302, R331): a stop, after which the entry runs again, or the end of the chain. -/
def chainFault (s : State) (core : Nat) (hs : Bool) (cap : Capture) (c : Cause) (addr : Nat) (site : Option Site := none) : State :=
  let e := hodEng hs
  let h := hodOf s core hs
  let s := if c.stops then s else failTaken s core hs c addr
  let s := modHod s core hs fun h => { h with hphase := if h.hphase = .body || h.hphase = .post then .entry else h.hphase }
  let s := dropWaiter (clearAnswers core (some e) (setStall s core (some e) 0)) core e
  let at_ := site.getD ⟨h.addr, h.op⟩
  let unit := if hs then 4 else 3
  engineFault s core e cap { cause := c, unit := unit, core := core, faddr := addr, loc := at_.loc, detail := at_.detail }

/-- A fault of a chain. An HMCS that raises ECCU has met its source's poison: a source fault, which ends the HMSRC and every
subscriber taken with it (R297). -/
def hodFault (s : State) (core : Nat) (hs : Bool) (cap : Capture) (c : Cause) (addr : Nat) : State :=
  match (if c = .eccu then sourceOf s core hs else none) with
  | some (p, hs') =>
    let s := chainFault (failTaken s p hs' c addr) core hs cap c addr
    match (hodOf s p hs').cap with
    | some cap' => if (hodOf s p hs').served then chainFault s p hs' cap' c addr else s
    | none => s
  | none => chainFault s core hs cap c addr

/-! ## Chain starts (R291, R270) -/

/-- The token a chain start names is popped (R270, R260). -/
def popChainToken (s : State) (core : Nat) (hs : Bool) : State :=
  let h := hodOf s core hs
  match h.qpop with
  | none => modHod s core hs fun h => { h with hphase := .entry }
  | some n => match tokens (s.proc core).q n with
    | [] => setStall s core (some (hodEng hs)) 0x14
    | _ :: vs =>
      let s := acquireCo (s.modQ core fun k => setTokens k n vs) core
      setStall (modHod s core hs fun h => { h with hphase := .entry }) core (some (hodEng hs)) 0

/-- An idle hod dequeues the oldest chain start of its queue and pops its token; a start that waits for its token goes on
(R291). Otherwise nothing happens. -/
def execHodChainStart (core : Nat) (hs : Bool) (s : State) : Out :=
  if core < 256 then
    let h := hodOf s core hs
    if h.cap.isSome then (if h.hphase = .token && h.stop.isNone then .next (popChainToken s core hs) else .next s)
    else
      let l := engineQueue (s.proc core).q (hodEng hs)
      match l.head? with
      | some (.chain c addr pop push) =>
        if pushReleased s c then
          let s := s.modQ core fun k => setEngineQueue k (hodEng hs) l.tail
          let s := modHod s core hs fun h =>
              { Hod.reset with last := h.last, cap := some c, addr := addr, hphase := .token, qpop := pop, qpush := push }
          .next (popChainToken s core hs)
        else .next s
      | _ => .next s
  else .fault .noSuchUnit

/-! ## Entries (R291-R293) -/

/-- Dequeue of an entry: pacing by the pushing core, then charge (R275, R439). -/
def hodDequeue (t : Chain) (cost : Nat) : M Unit := do
  let s ← get
  let h := hodOf s t.core t.hs
  match h.phase with
  | .paid => pure ()
  | ph =>
    await (ph == .charging || paceOver s t.cap.core t.eng h.last) 0x11
    t.mod fun h => { h with phase := .charging }
    charge t.core t.eng t.cap.ctx cost
    doS fun s => modHod s t.core t.hs fun h => { h with phase := .paid, last := some s.mod.gts }

/-- The condition of a wait on a slot counter (R292). -/
def stageReached (ctr : BitVec 32) (v : BitVec 16) : Bool := !(ctr.setWidth 16 - v).msb

/-- Wait(x) of an entry, once, with its acquire (R292). -/
def hodWait (t : Chain) (h : HodHdr) : M Unit := do
  let s ← get
  if h.we && !(hodOf s t.core t.hs).waitdone then
    if h.wk then await (stageReached ((s.sync t.cap.core).scVal h.wctr.toNat) h.wval) 0x14
    else if h.wval != 0 then semTake t.cap.core (some (t.core, t.eng)) h.wctr.toNat h.wval.toNat
    doS fun s => acquireWait s t.cap.core h.sc
    t.mod fun q => { q with waitdone := true }

/-- The entry's Wait, then its STILE wait (R295). -/
def hodBegin (t : Chain) (h : HodHdr) (stile src : Nat) : M Unit := do
  if (← t.hod).hphase = .entry then
    hodWait t h
    tileReadWait t.cap.ctx (tileCluster t.cap.core src) stile
    t.mod fun q => { q with hphase := .body }

/-- Where a post to a slot counter goes: core and node (R293). A destination in a window that the context may not reach is
refused, as an access would be. -/
def postTarget (t : Chain) (va : Option Nat) (k : Access) : M (Nat × Option Nat) := do
  match va with
  | none => return (t.cap.core, none)
  | some va =>
    let s ← get
    if va < windowMin then
      let pl ← resolve t.who va 1 k
      return (t.cap.core, if pl.kind = .remote then some pl.peer else none)
    else match windowKey s t.who va 1 with
      | none => faultM .window va
      | some key => return (if spBase ≤ key && key < spBase + 2 ^ 28 then (key - spBase) / 2 ^ 20 else t.cap.core, none)

/-- What the body of an entry leaves: the post's target and the next entry. -/
structure HodEnd where
  target : Nat × Option Nat
  next : Option Nat

/-- The end of a body whose destination is at `va`. -/
def hodEnd (t : Chain) (h : HodHdr) (va : Option Nat) (k : Access) (skip : Nat := 64) : M HodEnd := do
  let tg ← if h.pe && h.pk then postTarget t va k else pure (t.cap.core, none)
  return ⟨tg, some ((← t.hod).addr + skip)⟩

/-- The entry's bank formats are read once, as it starts (08 R196, 17 R378). -/
def snapEntry (s : State) (core : Nat) (hs : Bool) (cap : Capture) : State :=
  if (hodOf s core hs).fmts.isSome then s else modHod s core hs fun q => { q with fmts := some (snapFormats s cap.ctx) }

/-- Run one entry up to the end of its body; its post, tile event and delivery are owed (R291). A wait leaves the hod at the
entry. -/
def hodRun (h : HodHdr) (cost : State → Chain → Nat) (stile src : Nat) (body : Chain → M HodEnd) (s : State) : Out :=
  match s.actor with
  | .hod core hs =>
    match (hodOf s core hs).cap with
    | none => .fault .wrongUnit
    | some cap =>
      let s := snapEntry s core hs cap
      let t := Chain.of s core hs cap
      let e := hodEng hs
      match (do hodDequeue t (cost s t); hodBegin t h stile src; body t : M HodEnd) s with
      | .ok r s =>
        let s := modHod s core hs fun q =>
          { q with hphase := .post, next := r.next, post := if h.pe then some (h, r.target.1, r.target.2) else none }
        .next (clearAnswers core (some e) (setStall s core (some e) 0))
      | .error (.fault c a _ _) s => .next (hodFault s core hs cap c a)
      | .error (.wait ev) s => .next (setStall s core (some e) (ev + 1))
  | _ => .fault .wrongUnit

/-- The class of an entry that moves no data (R380). -/
def plainCost (s : State) (t : Chain) : Nat := classWeight s t.core 34

/-- Make the post owed (R293, R260): a release at its scope, which at another module's counter waits for remote homes. -/
def hodPostOwed (t : Chain) (h : HodHdr) (core : Nat) (node : Option Nat) : M Unit := do
  let s ← get
  await (released s t.cap.core (if node.isSome && h.sc.toNat < 3 then 3 else h.sc))
  let g := wsOf s t.cap.core
  let amt : BitVec 32 := h.pamt.setWidth 32
  if h.pk then
    match node with
    | some m => doS fun s => postRemote t.who m core h.pctr.toNat amt g s
    | none => doS fun s => sendPost s (.hod t.core t.hs) t.cap.ctx core h.pctr.toNat amt g
  else doS fun s => mergePs (semRaise s t.cap.core h.pctr.toNat h.pamt.toNat) t.cap.core g

/-- A subscriber's writes have performed (R297). -/
def subscriberDone (s : State) (core : Nat) (hs : Bool) : State :=
  let f (u : Subscriber) : Option Subscriber :=
    if u.core = core && u.hs = hs && u.vals.isSome then
      match u.by_ with
      | some _ => some { u with done := true }
      | none => none
    else some u
  s.modFl fun l => { l with subs := l.subs.filterMap f }

/-- The hod goes on to the next entry, or ends its chain. -/
def Hod.proceed (h : Hod) : Hod :=
  match h.next with
  | some a => { h with addr := a, entry := none, islot := none, fmts := none, waitdone := false, hphase := .entry, phase := .fresh,
                       post := none, served := false }
  | none => if h.qpush.isSome then { h with hphase := .finish, post := none } else h.halt

/-- What follows the body once the writes have performed: subscriber, delivery, READY, post, next entry (R291, R295-R297). -/
def finishEntry (t : Chain) : M Unit := do
  await (hodWritesDone (← get) t)
  doS fun s => subscriberDone s t.core t.hs
  let h ← t.hod
  match h.delta with
  | some (r, d, nw) =>
    doS fun s => s.modFl fun f => { f with deliveries := f.deliveries ++ [⟨t.cap.core, t.cap.ctx, r, d, nw⟩] }
    t.mod fun h => { h with delta := none }
  | none => pure ()
  match h.tile with
  | some (cl, tid) =>
    tileEvent t.agent t.cap.ctx cl tid .ready
    t.mod fun h => { h with tile := none }
  | none => pure ()
  match h.post with
  | some (x, core, node) => hodPostOwed t x core node
  | none => pure ()
  t.mod Hod.proceed

/-- The end of an entry whose body is done (R291, R293). Where the hod is at no such point nothing happens. -/
def execHodPost (core : Nat) (hs : Bool) (s : State) : Out :=
  if core < 256 then
    let q := hodOf s core hs
    match q.cap with
    | some cap =>
      if q.hphase = .post && q.stop.isNone then
        match finishEntry (Chain.of s core hs cap) s with
        | .ok _ s => .next (setStall s core (some (hodEng hs)) 0)
        | .error (.fault c a _ _) s => .next (hodFault s core hs cap c a)
        | .error (.wait ev) s => .next (setStall s core (some (hodEng hs)) (ev + 1))
      else .next s
    | none => .next s
  else .fault .noSuchUnit

/-- The 64 bytes of a chain at an address, read at their home (R291). -/
def readEntry (t : Chain) (addr idx : Nat) : M (BitVec 512) := do
  need (addr % 64 == 0) .hodill
  let pl ← resolve t.who (addr % 2 ^ 52) 64 .read
  need (pl.kind != .mmio) .perm pl.va
  return BitVec.ofNat 512 (← load t.who { pl with cache := false } 64 true ⟨0, 0, 2 ^ 30 + idx, none⟩)

/-- Read the entry the hod is at, unless it holds it (R93). -/
def fetchEntry (t : Chain) : M (BitVec 512) := do
  let h ← t.hod
  match h.entry with
  | some w => return w
  | none =>
    let w ← readEntry t h.addr 0
    t.mod fun h => { h with entry := some w }
    return w

/-! ## Tensors (R294) -/

/-- Size of dim k; dims at or above RANK contribute nothing. -/
def descSize (d : Desc) (k : Nat) : Nat :=
  if k ≥ d.rank.toNat then 1
  else
    let v := (match k with | 0 => d.size0 | 1 => d.size1 | _ => d.size2).toNat
    if v = 0 then 65536 else v
def descStride (d : Desc) (k : Nat) : Int := (match k with | 0 => d.stride0 | 1 => d.stride1 | _ => d.stride2).toInt
def descCount (d : Desc) : Nat := descSize d 0 * descSize d 1 * descSize d 2
/-- Element offset of element n from BASE. -/
def descOffset (d : Desc) (n : Nat) : Int :=
  let i0 := n % descSize d 0
  let r := n / descSize d 0
  let p (k i : Nat) : Int := if k < d.rank.toNat then (i : Int) * descStride d k else 0
  p 0 i0 + p 1 (r % descSize d 1) + p 2 (r / descSize d 1)

/-- Bits of an element of an effective format: untyped bytes 8, XA 128. -/
def hodBits (code : Nat) : Nat := if code = 0 then 8 else if code = 20 then 128 else fmtBits code

/-- An element: linear index, bit address, effective format. -/
structure HElem where
  n : Nat
  b : Int
  fmt : Nat
  deriving DecidableEq, Repr

/-- A descriptor's elements as checked: effective format at BASE and element width. -/
structure Tensor where
  d : Desc
  fmt : Nat
  bits : Nat
  el : List HElem
  deriving DecidableEq, Repr

/-- The side byte of XA element n (R57). -/
def sideAddr (d : Desc) (n : Nat) : Nat := (d.base.toNat + 16 * descCount d + n) % 2 ^ 52

/-- Effective format of the bank at an address, 0 for untyped bytes (R195); outside what the context may reach it is that of
BASE, since WINDOW follows. -/
def effHere (t : Chain) (s : State) (d : Desc) (here va : Nat) : Option Nat :=
  if windowMin ≤ va && (windowKey s t.who va 1).isNone then some here else headFormat t.fmts s t.who d.fmt.toNat va

/-- The effective format at BASE. -/
def baseFormat (t : Chain) (s : State) (d : Desc) : Option Nat := effHere t s d 0 d.base.toNat

/-- Width of an element where untyped elements are `raw` bits wide. -/
def widthAs (raw code : Nat) : Nat := if code = 0 then raw else hodBits code

/-- The checks of a descriptor over elements ns: SHAPE, FMTMISMATCH, WINDOW. -/
def tensorOf (t : Chain) (s : State) (d : Desc) (ns : List Nat) (raw : Nat) : Except (Cause × Nat) Tensor :=
  match baseFormat t s d with
  | none => .error (.fmtmismatch, 0)
  | some f =>
    let w := widthAs raw f
    let k : Nat := if w = 6 then 4 else if w = 4 then 2 else 1
    if descSize d 0 % k ≠ 0 || (List.range d.rank.toNat).any fun i => descStride d i % k != 0 then .error (.shape, 0)
    else
      let one (n : Nat) : Option HElem :=
        let b := elemBit d.base.toNat (descOffset d n) w
        match effHere t s d f (bitByte b), effHere t s d f (bitByte (b + w - 1)) with
        | some a, some c => if a = c && widthAs raw a = w then some ⟨n, b, a⟩ else none
        | _, _ => none
      match ns.mapM one with
      | none => .error (.fmtmismatch, 0)
      | some l =>
        let body := l.map fun e => (bitByte e.b, (bitOff e.b + w + 7) / 8)
        let side := if f = 20 then l.map fun e => (sideAddr d e.n, 1) else []
        match windowFails s t.who (body ++ side) with
        | some a => .error (.window, a)
        | none => .ok ⟨d, f, w, l⟩

def liftTensor (r : Except (Cause × Nat) Tensor) : M Tensor :=
  match r with
  | .ok x => pure x
  | .error e => faultM e.1 e.2

/-- All elements of a descriptor. -/
def allElems (d : Desc) : List Nat := List.range (descCount d)

/-- The width a descriptor's format gives untyped elements copied to or from it (R197). -/
def rawWidth (f : Nat) : Nat := if f = 0 || f = 20 then 8 else hodBits f
def rawBits (t : Chain) (s : State) (d : Desc) : Nat := rawWidth ((baseFormat t s d).getD 0)

/-- Two formats that a copy joins: XA goes to XA only; an untyped side takes the other's (R197). -/
def joinable (a b : Nat) : Bool := (a == 20) == (b == 20)
def joinFmt (a b : Nat) : Nat := if a = 0 then b else a

/-- Source and destination of a copy, an untyped side's elements taking the format of those they pair with (R197). -/
def copyPair (t : Chain) (src dst : Desc) (ns nd : List Nat) : M (Tensor × Tensor) := do
  let s ← get
  need (joinable ((baseFormat t s src).getD 0) ((baseFormat t s dst).getD 0)) .fmtmismatch
  let a ← liftTensor (tensorOf t s src ns (rawBits t s dst))
  let b ← liftTensor (tensorOf t s dst nd (rawBits t s src))
  let l := List.zip a.el b.el
  need (l.all fun e => joinable e.1.fmt e.2.fmt) .fmtmismatch
  return ({ a with el := l.map fun e => { e.1 with fmt := joinFmt e.1.fmt e.2.fmt } },
    { b with el := l.map fun e => { e.2 with fmt := joinFmt e.2.fmt e.1.fmt } })

/-! ## Reading and writing elements -/

/-- The byte runs of an element: one run where it is aligned to its size, else single bytes. -/
def elemRuns (b : Int) (wd : Nat) : List (Nat × Nat) :=
  let n := (bitOff b + wd + 7) / 8
  let va := bitByte b
  if va % n = 0 then [(va, n)] else (List.range n).map fun k => ((va + k) % 2 ^ 52, 1)

/-- Where each run of an element lies. -/
def elemPlaces (w : Who) (k : Access) : List (Nat × Nat) → M (List (Place × Nat))
  | [] => pure []
  | r :: l => do
    let pl ← resolve w r.1 r.2 k
    need (pl.kind != .mmio) .perm r.1
    return (pl, r.2) :: (← elemPlaces w k l)

/-- Bytes of an element, and the first byte of a poisoned sector of them (R193, R294). -/
def fetchRuns (w : Who) (a : Attr) : List (Place × Nat) → M (Nat × Option Nat)
  | [] => pure (0, none)
  | (pl, n) :: l => do
    let x ← if pl.isLocal then do
        inOrder w a.cls pl.va n
        let s ← get
        pure (s.mem.read pl.key n, s.mem.poisoned pl.key n)
      else remoteRead w { pl with cache := false } n a
    let y ← fetchRuns w a l
    return (x.1 + 2 ^ (8 * n) * y.1, if x.2 then some (pl.va / 128 * 128) else y.2)

/-- The same, read once though the entry waits for other modules and runs again. -/
def fetchOnce (w : Who) (mixed : Bool) (a : Attr) (ps : List (Place × Nat)) : M (Nat × Option Nat) := do
  let s ← get
  let tag := match ps with | (pl, _) :: _ => a.tag 3 pl | [] => 0
  match (if mixed then (s.proc w.q).coh.rbuf.find? fun r => r.1 == w.eng && r.2.1 == tag else none) with
  | some (_, _, some ans) => return (leN (ans.data.drop 8), if ans.poison then some (leN (ans.data.take 8)) else none)
  | _ =>
    let x ← fetchRuns w a ps
    if mixed then
      let ans : Answer := ⟨bytesN 8 (x.2.getD 0) ++ bytesN 18 x.1, some 0, x.2.isSome⟩
      doS fun s => s.modCoh w.q fun c => { c with rbuf := c.rbuf ++ [(w.eng, tag, some ans)] }
    return x

/-- The stores of an element's bits. -/
def writeRuns (w : Who) (idx : Nat) (mixed poison : Bool) : Nat → Nat → List (Place × Nat) → M Unit
  | _, _, [] => pure ()
  | m, v, (pl, n) :: l => do
    storePiece w ⟨0, 0, idx, none⟩ mixed ⟨idx, pl.va, n, m % 2 ^ (8 * n), v % 2 ^ (8 * n)⟩ pl poison
    writeRuns w idx mixed poison (m >>> (8 * n)) (v >>> (8 * n)) l

/-- Where the bits of an element come from: an element of memory, or bits given with the poisoned sector they come from. -/
inductive Bits where
  | mem (b : Int) (fmt : Nat)
  | val (fmt v : Nat) (poison : Option Nat)
  deriving DecidableEq, Repr

/-- One element to be moved: destination, its width, the source and its width; none as format: no conversion. -/
structure Move where
  n : Nat
  b : Int
  fmt : Nat
  wd : Nat
  src : Bits
  conv : Bool
  deriving DecidableEq, Repr

/-- A move with its places. -/
structure Placed where
  m : Move
  dst : List (Place × Nat)
  src : List (Place × Nat)

/-- Width of a source: that of its format, or the destination's where both are untyped. -/
def Move.srcBits (m : Move) : Nat :=
  match m.src with
  | .mem _ f => if m.conv then hodBits f else m.wd
  | .val f _ _ => hodBits f

/-- Resolve moves in order, up to the first that an access check refuses. -/
def placeMoves (w : Who) : List Move → M (List Placed × Option Stop)
  | [] => pure ([], none)
  | m :: l => fun s =>
    match (do
      let a ← match m.src with
        | .mem b _ => elemPlaces w .read (elemRuns b m.srcBits)
        | .val _ _ _ => pure []
      let d ← elemPlaces w .write (elemRuns m.b m.wd)
      return ⟨m, d, a⟩ : M Placed) s with
    | .error e s => .ok ([], some e) s
    | .ok p s =>
      match placeMoves w l s with
      | .ok r s => .ok (p :: r.1, r.2) s
      | .error e s => .error e s

/-- The bits written: converted, or as they are where the formats are equal or one side is untyped (R197). -/
def convertBits (mode : RMode) (u fs fd v : Nat) : Nat :=
  if fs = fd || fs = 0 || fd = 0 then v else encodeElem fd mode false u (decodeElem fs v)

/-- How the entry rounds and whether it decodes every source (R294). -/
structure Rounding where
  mode : RMode
  u : Nat → Nat
  decodes : Bool

/-- Poison the sectors of this module that bytes from a poisoned sector were written to (R193). -/
def poisonPlaces (s : State) (l : List (Place × Nat)) : State :=
  l.foldl (fun s d =>
    if d.1.isLocal then s.modMem fun m => (m.setPoison (d.1.key / 128) true).setPoison ((d.1.key + d.2 - 1) / 128) true else s) s

/-- Move one element: the bits written, with the poison carried on as they are written (R294). -/
def moveElem (t : Chain) (r : Rounding) (mixed : Bool) (p : Placed) : M (Nat × Bool) := do
  let m := p.m
  let (fs, v, bad) ← match m.src with
    | .val f v b => pure (f, v, b)
    | .mem b f => do
      let x ← fetchOnce t.who mixed ⟨0, 0, 2 * m.n + 1, none⟩ p.src
      pure (f, (x.1 >>> bitOff b) % 2 ^ m.srcBits, x.2)
  let same := !m.conv || fs = m.fmt || fs = 0 || m.fmt = 0
  need (bad.isNone || (!r.decodes && same)) .eccu (bad.getD 0)
  let x := (if m.conv then convertBits r.mode (r.u m.n) fs m.fmt v else v) % 2 ^ m.wd
  writeRuns t.who (2 * m.n) mixed bad.isSome ((2 ^ m.wd - 1) <<< bitOff m.b) (x <<< bitOff m.b) p.dst
  if bad.isSome then doS fun s => poisonPlaces s p.dst
  return (x, bad.isSome)

/-- Move elements in ascending order, up to the first that faults. -/
def moveAll (t : Chain) (r : Rounding) (mixed : Bool) : List Placed → M (List (Nat × Bool) × Option Stop)
  | [] => pure ([], none)
  | p :: l => fun s =>
    match moveElem t r mixed p s with
    | .error (.wait ev) s => .error (.wait ev) s
    | .error e s => .ok ([], some e) s
    | .ok x s =>
      match moveAll t r mixed l s with
      | .ok y s => .ok (x :: y.1, y.2) s
      | .error e s => .error e s

/-- Poison after the writes of an entry: sectors written whole lose theirs, those written from a poisoned source have it
(R193, R294; log 16). -/
def settlePoison (s : State) (l : List (Placed × Bool)) : State :=
  if s.mem.poison.isEmpty then s
  else
    let runs (p : Placed) : List (Nat × Nat) :=
      if p.m.wd < 8 then [] else p.dst.filterMap fun d => if d.1.isLocal then some (d.1.key, d.2) else none
    let s := s.modMem fun m => m.clearFull (l.flatMap fun e => runs e.1)
    l.foldl (fun s e => if e.2 then poisonPlaces s e.1.dst else s) s

/-- The FILLING claim of a DTILE, once, before the first write (R295). -/
def claimTile (t : Chain) (dtile dst : Nat) : M Unit := do
  if dtile != 0xFFF && (← t.hod).tile.isNone then
    let cl := tileCluster t.cap.core dst
    tileEvent t.agent t.cap.ctx cl dtile .filling
    t.mod fun h => { h with tile := some (cl, dtile) }

/-- Some byte a list of moves touches lies on another module or the host. -/
def mixedPlaces (ps : List Placed) : Bool := ps.any fun p => (p.dst ++ p.src).any fun d => !d.1.isLocal

/-- Throw the refusal or fault found on the way, if any. -/
def throwIf (e : Option Stop) : M Unit :=
  match e with
  | some e => throw e
  | none => pure ()

/-- The write part of a copying entry: places, claim, moves. A refused element stops the moves after it, or with `strict` all
of them (R302). -/
def emit (t : Chain) (r : Rounding) (strict : Bool) (dtile dst : Nat) (ms : List Move) :
    M (List (Nat × Bool)) := do
  let (ps, bad) ← placeMoves t.who ms
  if strict then throwIf bad
  let mixed := mixedPlaces ps
  -- sources of other modules are read before the first write: they overlap no destination here
  if ps.all fun p => p.dst.all fun d => d.1.isLocal then ps.forM fun p => do
    if !(p.src.all fun d => d.1.isLocal) then let _ ← fetchOnce t.who mixed ⟨0, 0, 2 * p.m.n + 1, none⟩ p.src
  claimTile t dtile dst
  let (out, stop) ← moveAll t r mixed ps
  doS fun s => settlePoison s (List.zip ps (out.map (·.2)))
  throwIf (stop.or bad)
  return out

/-- The moves of a copy; an XA element is followed by its side byte (R197). -/
def copyMoves (a b : Tensor) : List Move :=
  (List.zip a.el b.el).flatMap fun e =>
    let m : Move := ⟨e.2.n, e.2.b, e.2.fmt, b.bits, .mem e.1.b e.1.fmt, true⟩
    if e.2.fmt = 20 then
      [m, ⟨e.2.n, 8 * (sideAddr b.d e.2.n : Int), 0, 8, .mem (8 * (sideAddr a.d e.1.n : Int)) 0, false⟩]
    else [m]

/-- The rounding of an entry (R58, R62). -/
def hodRounding (t : Chain) (s : State) (rm : BitVec 3) (dtile : Nat) (decodes : Bool) : Rounding :=
  ⟨capMode t.cap rm, fun n => srBits (srSeed s t.cap) dtile n (srStep s t.cap), decodes⟩

/-- Bytes of a descriptor's elements, for its charge (R439); an XA element has its side byte (R57). -/
def descBytes (t : Chain) (s : State) (d other : Desc) : Nat :=
  let f (d : Desc) : Nat := (baseFormat t s d).getD 0
  let w := if f d = 20 then 136 else widthAs (rawWidth (f other)) (f d)
  (descCount d * w + 7) / 8

def unitsOf (bytes : Nat) : Nat := max 1 (ceilDiv bytes 4096)

/-! ## Copying entries (R295, R296, R298) -/

def execHcpy (h : HodHdr) (src dst : Desc) (rm : BitVec 3) (stile dtile : BitVec 12) (s : State) : Out :=
  hodRun h (fun s t => classWeight s t.core 32 * unitsOf (descBytes t s dst src)) stile.toNat src.base.toNat (fun t => do
    need (descCount src == descCount dst) .shape
    let (a, b) ← copyPair t src dst (allElems src) (allElems dst)
    let _ ← emit t (hodRounding t (← get) rm dtile.toNat false) false dtile.toNat dst.base.toNat (copyMoves a b)
    hodEnd t h (some dst.base.toNat) .write) s

/-! ### Delta-on-write (R296) -/

/-- q(x) in units of 2^dscale. -/
def deltaUnits (dscale : Int) (x : XVal) : Nat :=
  match x with
  | .fin neg m e => min (roundMag .rtz neg 0 m (e - dscale)) (2 ^ 32 - 1)
  | _ => 2 ^ 32 - 1

/-- What one element adds to D and Nw, from its new and old values. -/
def deltaOf (dscale : Int) (v d : XVal) : Nat × Nat :=
  match v, d with
  | .fin _ _ _, .fin _ _ _ => (deltaUnits dscale (v.add false d.neg), deltaUnits dscale v)
  | _, _ => (2 ^ 32 - 1, 2 ^ 32 - 1)

/-- D and Nw over all elements, given format, new and old bits of each. -/
def deltaSums (dscale : Int) (l : List (Nat × Nat × Nat)) : Nat × Nat :=
  l.foldl (fun a e =>
    let q := deltaOf dscale (decodeElem e.1 e.2.1) (decodeElem e.1 e.2.2)
    (a.1 + q.1, a.2 + q.2)) (0, 0)

/-- The bytes of an element lie in a region's range (R404). -/
def Region.covers (g : Region) (va n : Nat) : Bool :=
  g.v && decide (g.base.toNat ≤ va) && decide (va + n ≤ g.base.toNat + g.len.toNat)

/-- The body of a region-marking entry has begun (R407). -/
def beginRegion (t : Chain) (f : BrickReg → BrickReg) : M Unit := doS fun s =>
  match s.brick t.cap.core t.cap.tag with
  | some b => s.setBrick t.cap.core t.cap.tag (some (f b))
  | none => s

/-- Old bits of the destinations, each read once, before any write; a poisoned one raises ECCU. -/
def readOld (t : Chain) (mixed : Bool) : List Placed → M (List Nat)
  | [] => pure []
  | p :: l => do
    let x ← fetchOnce t.who mixed ⟨0, 0, 2 * p.m.n + 2 ^ 33, none⟩ p.dst
    need x.2.isNone .eccu (x.2.getD 0)
    return (x.1 >>> bitOff p.m.b) % 2 ^ p.m.wd :: (← readOld t mixed l)

def execHcpyd (h : HodHdr) (src dst : Desc) (rm : BitVec 3) (stile dtile : BitVec 12) (rgn : BitVec 10) (s : State) : Out :=
  hodRun h (fun s t => classWeight s t.core 32 * unitsOf (descBytes t s dst src)) stile.toNat src.base.toNat (fun t => do
    need (descCount src == descCount dst) .shape
    let (a, b) ← copyPair t src dst (allElems src) (allElems dst)
    need (b.el.all fun e => e.fmt != 0 && e.fmt != 20) .fmtmismatch
    let g := ((← get).ctx t.cap.ctx).region rgn.toNat
    need (b.el.all fun e => g.covers (bitByte e.b) ((bitOff e.b + b.bits + 7) / 8)) .shape
    beginRegion t fun r => { r with regions := if r.regions.contains rgn.toNat then r.regions else rgn.toNat :: r.regions }
    let (ps, bad) ← placeMoves t.who (copyMoves a b)
    throwIf bad
    let old ← readOld t (mixedPlaces ps) ps
    let out ← emit t (hodRounding t (← get) rm dtile.toNat true) true dtile.toNat dst.base.toNat (copyMoves a b)
    let d := deltaSums g.dscale.toInt ((List.zip ps (List.zip out old)).map fun e => (e.1.m.fmt, e.2.1.1, e.2.2))
    t.mod fun q => { q with delta := some (rgn.toNat, d.1, d.2) }
    hodEnd t h (some dst.base.toNat) .write) s

def execHfill (h : HodHdr) (pattern : BitVec 52) (dst : Desc) (dtile : BitVec 12) (s : State) : Out :=
  hodRun h (fun s t => classWeight s t.core 32 * unitsOf (descBytes t s dst dst)) 0xFFF 0 (fun t => do
    let b ← liftTensor (tensorOf t (← get) dst (allElems dst) 8)
    let v := trunc b.bits pattern.toInt
    let _ ← emit t (hodRounding t (← get) 0 dtile.toNat false) false dtile.toNat dst.base.toNat
      (b.el.map fun e => ⟨e.n, e.b, e.fmt, b.bits, .val e.fmt v none, false⟩)
    hodEnd t h (some dst.base.toNat) .write) s

/-! ### HGATH (R298) -/

/-- The index descriptor of an index slot, or HODILL. -/
def indexDesc (w : BitVec 512) : Option Desc :=
  let raw := fld w 64 192
  let d := Desc.of raw
  if fld w 0 64 == 0 && fld w 256 256 == 0 && d.word == raw && (d.fmt == 4 || d.fmt == 6) && d.rank == 1 then some d else none

/-- Read the index slot once. -/
def readIndexSlot (t : Chain) : M Unit := do
  let h ← t.hod
  match h.islot with
  | some _ => pure ()
  | none =>
    let w ← readEntry t (h.addr + 64) 1
    need (indexDesc w).isSome .hodill
    t.mod fun h => { h with islot := some w }

/-- Some element of a descriptor begins on another module or the host. -/
def farDesc (t : Chain) (s : State) (d : Desc) : Bool :=
  (allElems d).any fun n => farByte s t.who (bitByte (elemBit d.base.toNat (descOffset d n) (rawBits t s d)))

/-- The indices, each read once, before any write. -/
def readIndices (t : Chain) (mixed : Bool) (x : Tensor) : List HElem → M (List Nat)
  | [] => pure []
  | e :: l => do
    let ps ← elemPlaces t.who .read (elemRuns e.b x.bits)
    let v ← fetchOnce t.who mixed ⟨0, 0, 2 ^ 31 + e.n, none⟩ ps
    need v.2.isNone .eccu (v.2.getD 0)
    return (v.1 >>> bitOff e.b) % 2 ^ x.bits :: (← readIndices t mixed x l)

/-- HGATH reads its slot in its body, after its wait (R291). -/
def execHgath (h : HodHdr) (table dst : Desc) (rm : BitVec 3) (stile dtile : BitVec 12) (s : State) : Out :=
  hodRun h (fun s t => classWeight s t.core 32 * unitsOf (descBytes t s dst table)) stile.toNat table.base.toNat (fun t => do
    readIndexSlot t
    match (← t.hod).islot.bind indexDesc with
    | none => faultM .hodill
    | some ix =>
      let c := descSize table 0
      need (table.rank == 2 && dst.rank == 2 && descSize dst 0 == c && descSize dst 1 == descSize ix 0) .shape
      let s ← get
      let x ← liftTensor (tensorOf t s ix (allElems ix) 8)
      need (x.fmt == 4 || x.fmt == 6) .fmtmismatch
      let idx ← readIndices t (farDesc t s ix || farDesc t s table || farDesc t s dst) x x.el
      let null := 2 ^ x.bits - 1
      need (idx.all fun v => v == null || decide (v < descSize table 1)) .shape
      let rows := (List.zip (List.range idx.length) idx).filter fun e => e.2 != null
      let ns := rows.flatMap fun e => (List.range c).map fun j => j + c * e.2
      let nd := rows.flatMap fun e => (List.range c).map fun j => j + c * e.1
      let (a, b) ← copyPair t table dst ns nd
      let _ ← emit t (hodRounding t (← get) rm dtile.toNat false) true dtile.toNat dst.base.toNat (copyMoves a b)
      hodEnd t h (some dst.base.toNat) .write 128) s

/-! ## Multicast (R297) -/

/-- The subscription of a hod. -/
def subscription (s : State) (t : Chain) : Option Subscriber :=
  s.fl.subs.find? fun u => u.core == t.core && u.hs == t.hs && !u.done

/-- The move of one element that an HMCS was given, an XA element with its side byte; an untyped side takes the other's format
(R197). -/
def givenMoves (b : Tensor) (x : Nat × Nat × Option Nat) (e : HElem) : List Move :=
  let m : Move := ⟨e.n, e.b, joinFmt e.fmt x.1, b.bits, .val (joinFmt x.1 e.fmt) (x.2.1 % 2 ^ 128) x.2.2, true⟩
  if e.fmt = 20 then [m, ⟨e.n, 8 * (sideAddr b.d e.n : Int), 0, 8, .val 0 (x.2.1 / 2 ^ 128) x.2.2, false⟩] else [m]

/-- An HMCS subscribes once, waits until its HMSRC has read the source, and writes its own copy. -/
def execHmcs (h : HodHdr) (key dst : Desc) (rm : BitVec 3) (dtile : BitVec 12) (s : State) : Out :=
  hodRun h (fun s t => classWeight s t.core 33 * unitsOf (descBytes t s dst key)) 0xFFF 0 (fun t => do
    need (descCount key == descCount dst) .shape
    let s ← get
    match subscription s t with
    | none =>
      need (joinable ((baseFormat t s key).getD 0) ((baseFormat t s dst).getD 0)) .fmtmismatch
      let _ ← liftTensor (tensorOf t s dst (allElems dst) (rawBits t s key))
      doS fun s => s.modFl fun f =>
        { f with subs := f.subs ++ [⟨t.core, t.hs, t.cap.ctx, key, rawBits t s dst, s.mod.gts, none, none, false, none⟩] }
      waitM
    | some u =>
      match u.failed, u.vals with
      | some c, _ => faultM (Cause.ofCode c.1.toNat) c.2
      | none, none => waitM
      | none, some l =>
        let b ← liftTensor (tensorOf t s dst (allElems dst) (rawWidth ((l.head?.map (·.1)).getD 0)))
        need ((List.zip l b.el).all fun e => joinable e.1.1 e.2.fmt) .fmtmismatch
        let _ ← emit t (hodRounding t s rm dtile.toNat false) false dtile.toNat dst.base.toNat
          ((List.zip l b.el).flatMap fun e => givenMoves b e.1 e.2)
        hodEnd t h (some dst.base.toNat) .write) s

/-- Whether a is taken before b: older, or on a tie of the lower core. -/
def subBefore (a b : Subscriber) : Bool :=
  decide (a.since.toNat < b.since.toNat) || (a.since == b.since && (decide (a.core < b.core) || (a.core == b.core && !a.hs && b.hs)))

/-- The oldest of a list of subscribers. -/
def oldestSub : List Subscriber → Option Subscriber
  | [] => none
  | u :: us => match oldestSub us with
    | none => some u
    | some v => if subBefore v u then some v else some u

/-- A subscriber that waits for an HMSRC of its context and key. -/
def Subscriber.pending (u : Subscriber) (x : Nat) (key : Desc) : Bool :=
  u.by_.isNone && u.vals.isNone && u.ctx == x && u.key == key && u.failed.isNone

/-- Take c pending subscribers, oldest first. -/
def takeSubs (me : Nat × Bool) (x : Nat) (key : Desc) : Nat → List Subscriber → List Subscriber
  | 0, l => l
  | n + 1, l =>
    match oldestSub (l.filter fun u => u.pending x key) with
    | none => l
    | some v => takeSubs me x key n (l.map fun u => if u.core = v.core && u.hs = v.hs && !u.done then { u with by_ := some me } else u)

/-- The source's elements: format, bits (an XA element with its side byte above), poison. -/
def readSource (t : Chain) (a : Tensor) : List HElem → M (List (Nat × Nat × Option Nat))
  | [] => pure []
  | e :: l => do
    let ps ← elemPlaces t.who .read (elemRuns e.b a.bits)
    let i := 2 * e.n + a.bits * 2 ^ 40
    let x ← fetchRuns t.who ⟨0, 0, i + 1, none⟩ ps
    let y ← if e.fmt = 20 then do
        let q ← elemPlaces t.who .read [(sideAddr a.d e.n, 1)]
        fetchRuns t.who ⟨0, 0, i, none⟩ q
      else pure (0, none)
    return (e.fmt, (x.1 >>> bitOff e.b) % 2 ^ a.bits + 2 ^ 128 * y.1, x.2.or y.2) :: (← readSource t a l)

/-- Translate a tensor's elements and side bytes, so that a stop comes before subscribers are taken. -/
def translateAll (t : Chain) (a : Tensor) : M Unit :=
  a.el.forM fun e => do
    let _ ← elemPlaces t.who .read (elemRuns e.b a.bits ++ if e.fmt = 20 then [(sideAddr a.d e.n, 1)] else [])

/-- Serve the subscribers taken, those that want untyped source elements of one width together (R197). -/
def serveWidths (t : Chain) (src : Desc) : List Nat → M Unit
  | [] => pure ()
  | w :: ws => do
    let a ← liftTensor (tensorOf t (← get) src (allElems src) w)
    let vals ← readSource t a a.el
    let mine (u : Subscriber) : Bool := u.by_ == some (t.core, t.hs) && u.wd == w
    doS fun s => s.modFl fun f => { f with subs := f.subs.map fun u => if mine u then { u with vals := some vals } else u }
    serveWidths t src ws

/-- An HMSRC takes its subscribers, reads the source once, and ends when their writes have performed. -/
def execHmsrc (h : HodHdr) (src : Desc) (count : BitVec 52) (stile : BitVec 12) (s : State) : Out :=
  hodRun h (fun s t => classWeight s t.core 33 * unitsOf (descBytes t s src src)) stile.toNat src.base.toNat (fun t => do
    let me := (t.core, t.hs)
    let mine (u : Subscriber) : Bool := u.by_ == some me
    if !(← t.hod).served then
      let a ← liftTensor (tensorOf t (← get) src (allElems src) 8)
      translateAll t a
      if !((← get).fl.subs.any mine) then
        let n := ((← get).fl.subs.filter fun u => u.pending t.cap.ctx src).length
        await (decide (count.toNat ≤ n)) 0x12
        doS fun s => s.modFl fun f => { f with subs := takeSubs me t.cap.ctx src count.toNat f.subs }
      let taken := (← get).fl.subs.filter mine
      serveWidths t src (if a.fmt = 0 then (taken.map (·.wd)).eraseDups else [])
      if a.fmt != 0 then
        let vals ← readSource t a a.el
        doS fun s => s.modFl fun f => { f with subs := f.subs.map fun u => if mine u then { u with vals := some vals } else u }
      t.mod fun q => { q with served := true }
    await (((← get).fl.subs.filter mine).all (·.done))
    doS fun s => s.modFl fun f => { f with subs := f.subs.filter fun u => !mine u }
    hodEnd t h none .read) s

/-! ## Halos (R299) -/

/-- A halo flit of one element: its home and virtual address, format, first bit, region with 2^15 for poison, and its bits,
without which it only asks for the checks of the region (DESIGN CHOICE, log 42). -/
def sendHalo (t : Chain) (pl : Place) (m : Move) (rgn : Nat) (x : Option (Nat × Bool)) (s : State) : State :=
  let n := (bitOff m.b + m.wd + 7) / 8
  s.sendFlit pl.peer 5 (s.ctx t.cap.ctx).gid (t.cap.core % 256) 0 n
    (bytesN 8 pl.key ++ bytesN 8 pl.va ++ bytesN 1 m.fmt ++ bytesN 1 (bitOff m.b) ++
      bytesN 2 (rgn + if x.any (·.2) then 2 ^ 15 else 0) ++ match x with
        | some (v, _) => bytesN n v
        | none => [])

/-- The runs of an element follow each other at one module. -/
def contiguous : List (Place × Nat) → Bool
  | (a, n) :: (b, k) :: l => a.peer == b.peer && a.key + n == b.key && contiguous ((b, k) :: l)
  | _ => true

/-- The converted elements, up to the first whose source is poisoned and that is measured or converted (DEDUCED, log 26). -/
def haloValues (t : Chain) (r : Rounding) (measured : Bool) : List Placed → M (List (Placed × Nat × Bool) × Option Stop)
  | [] => pure ([], none)
  | p :: l => do
    let m := p.m
    match m.src with
    | .mem b f =>
      let x ← fetchOnce t.who true ⟨0, 0, 2 * m.n + 1, none⟩ p.src
      let same := !m.conv || f = m.fmt || f = 0 || m.fmt = 0
      if x.2.isSome && (measured || !same) then return ([], some (.fault .eccu (x.2.getD 0)))
      let v := (x.1 >>> bitOff b) % 2 ^ m.srcBits
      let y := (if m.conv then convertBits r.mode (r.u m.n) f m.fmt v else v) % 2 ^ m.wd
      let z ← haloValues t r measured l
      return ((p, y, x.2.isSome) :: z.1, z.2)
    | .val _ _ _ => haloValues t r measured l

/-- Ask each element's module for the region's checks, before any write (R296): SHAPE outside its range, ECCU over a poisoned
old value. -/
def askHalo (t : Chain) (rgn : Nat) : List (Placed × Nat × Bool) → M Unit
  | [] => pure ()
  | (p, _) :: l => do
    match p.dst with
    | (pl, _) :: _ =>
      let a ← remoteAccess t.who pl 0 (Attr.tag ⟨0, 0, 2 * p.m.n, none⟩ 0 pl) 0 0 none none (sendHalo t pl p.m rgn none)
      let st := leN ((a.map (·.data)).getD [])
      need (st != 3) .shape
      need (st != 4) .eccu (pl.va / 128 * 128)
    | [] => pure ()
    askHalo t rgn l

/-- Send the elements in order; one whose bytes do not follow each other at one home goes as plain writes, unmeasured
(DESIGN CHOICE, log 26). -/
def writeHalo (t : Chain) (rgn : Nat) : List (Placed × Nat × Bool) → M Unit
  | [] => pure ()
  | (p, y, bad) :: l => do
    let m := p.m
    match p.dst with
    | (pl, n) :: q =>
      if contiguous ((pl, n) :: q) then
        let x := sectorNumber (← get).mod.node.toNat pl
        let _ ← remoteAccess t.who pl 1 (Attr.tag ⟨0, 0, 2 * m.n, none⟩ 1 pl) ((bitOff m.b + m.wd + 7) / 8) 0 (some x) none
          (sendHalo t pl m rgn (some (y, bad)))
      else writeRuns t.who (2 * m.n) true bad ((2 ^ m.wd - 1) <<< bitOff m.b) (y <<< bitOff m.b) p.dst
    | [] => pure ()
    writeHalo t rgn l

/-- The elements of an HHALO up to the first whose destination is refused or not on a page of remote kind (R299). -/
def haloPlaces (t : Chain) (ms : List Move) : M (List Placed × Option Stop) := do
  let (ps, bad) ← placeMoves t.who ms
  let far (p : Placed) : Bool := p.dst.all fun d => d.1.kind == .remote
  match ps.find? fun p => !far p with
  | some p => return (ps.takeWhile far, some (.fault .perm (bitByte p.m.b)))
  | none => return (ps, bad)

/-- HHALO: every destination element lies on a page of remote kind; the receiver does the delta-on-write, which like HCPYD's
measures values. Poison travels with the bits, but a value that is measured or converted raises ECCU (DEDUCED, log 26). -/
def execHhalo (h : HodHdr) (src dst : Desc) (rm : BitVec 3) (stile : BitVec 12) (rgn : BitVec 10) (s : State) : Out :=
  hodRun h (fun s t => classWeight s t.core 33 * unitsOf (descBytes t s src dst + descBytes t s dst src)) stile.toNat
    src.base.toNat (fun t => do
      need (descCount src == descCount dst) .shape
      let (a, b) ← copyPair t src dst (allElems src) (allElems dst)
      let measured := rgn != 0x3FF
      need (!measured || b.el.all fun e => e.fmt != 0 && e.fmt != 20) .fmtmismatch
      let (ps, bad) ← haloPlaces t (copyMoves a b)
      let marks := ((ps.flatMap fun p => p.dst.map fun d => d.1.peer).eraseDups).map fun n => (n, rgn.toNat)
      if measured then
        beginRegion t fun r => { r with halos := r.halos ++ marks.filter fun e => !r.halos.contains e }
        throwIf bad
      let (l, stop) ← haloValues t (hodRounding t (← get) rm 0xFFF false) measured ps
      if measured then askHalo t rgn.toNat l
      writeHalo t rgn.toNat l
      throwIf (stop.or bad)
      hodEnd t h (some dst.base.toNat) .write) s

/-! ## Control entries -/

def execHwait (h : HodHdr) (s : State) : Out := hodRun h plainCost 0xFFF 0 (fun t => hodEnd t h none .read) s

def execHpost (h : HodHdr) (target : Option (BitVec 52)) (s : State) : Out :=
  hodRun h plainCost 0xFFF 0 (fun t => hodEnd t h (target.map (·.toNat)) .read) s

def execHlink (h : HodHdr) (next : BitVec 52) (s : State) : Out :=
  hodRun h plainCost 0xFFF 0 (fun t => do return { (← hodEnd t h none .read) with next := some next.toNat }) s

def execHtile (h : HodHdr) (event : BitVec 52) (dtile : BitVec 12) (s : State) : Out :=
  hodRun h plainCost 0xFFF 0 (fun t => do
    tileEvent t.agent t.cap.ctx (clusterOf t.cap.core) dtile.toNat (TileEvent.ofCode event.toNat)
    hodEnd t h none .read) s

def execHend (h : HodHdr) (s : State) : Out :=
  hodRun h plainCost 0xFFF 0 (fun t => do return { (← hodEnd t h none .read) with next := none }) s

end Sys2Proof.Machine
end

