-- ==== Sys2Proof/Machine/Time.lean ====
section
/-! DEFINITION. The global time stamp: its advance, the slew and the forward step of synchronisation, rotation of
signatures and expiry of L1 sectors and signature slots (22_time_and_health_counters.md R454; 16 R361; 11 R249, R252). -/

namespace Sys2Proof.Machine

/-- The context that incurs a wait of a unit of a core, by the unit's key: that of the command the engine works under, else the
one the core runs (R460). -/
def stallCtx (x : Proc) (k : Nat) : Nat :=
  let cap := (engines.find? fun e => unitKey (some e) == k).bind (engineCap x)
  ((cap.map (·.ctx)).or x.ctxOf).getD 0

/-- The waits of a core's units while ns of GTS pass (R37, R460). -/
def stallTime (s : State) (p : Nat) (ns : Nat) : State :=
  (s.proc p).stall.foldl (fun s e =>
    let ev := e.2 - 1
    if ev = 0 || p ≥ 256 then s else perfAdd s (clusterOf p) ev p (stallCtx (s.proc p) e.1) ns) s

/-- A Walker's next brick waits for a free entry of its target queue (R29, R37). -/
def walkStalled (s : State) (w : WalkJob) : Bool :=
  match s.graph w.ctx w.graph with
  | none => false
  | some g =>
    let o := g.ob w.primary
    let c := if o.altr then o.alt else o.copy
    match placeCluster s w.ctx (obCtl c) (obField c 0 32) (brickCoord (obBounds c) w.next) w.next with
    | some t => decide (512 ≤ (s.cluster t).brickq.length)
    | none => false

/-- What the counters of a cluster gain while ns of GTS pass, and a step of its trace unit (R457, R460): event 0x01, a free number of cycles (log 9), 0x02, and 0x19
while its Walker stalls. -/
def clusterTime (ns : Nat) (s : State) (cl : Nat) : State :=
  let s := s.modCluster cl fun c => { c with obs := c.obs.writeOn }
  let s := perfAdd (perfAdd s cl 0x01 0 0 (Config.freeCycles s.free cl)) cl 0x02 0 0 ns
  match (s.cluster cl).walk with
  | w :: _ => if walkStalled s w then perfAdd s cl 0x19 0 w.ctx ns else s
  | [] => s

/-- Powered seconds, each in the temperature bin of its hottest sensor, a free value (R461; log 9). -/
def Health.pass (h : Health) (sec bin : Nat) : Health :=
  if sec = 0 then h
  else { h with powered := h.powered + BitVec.ofNat 64 sec, histogram := SMap.set 0 h.histogram (bin % 24) (BitVec.ofNat 32 (min 0xFFFFFFFF ((SMap.get 0 h.histogram (bin % 24)).toNat + sec))) }

/-- GTS goes on, but not past a refill boundary or a rotation that has not been performed (R441, R249; log 9). -/
def advanceTo (s : State) (t : Nat) : Nat := max s.gts (min t (min (max s.gts (nextRefill s)) (max s.gts (nextRotation s))))

/-- Ports of mortar links (16 R356). -/
def linkPorts : Nat := 18

/-- The time flits of the ports that are up, each time GTS crosses a multiple of 10 microseconds (16 R361). -/
def exchangeTime (s : State) : State :=
  (List.range linkPorts).foldl (fun s k =>
    if (SMap.get Port.reset s.links.ports k).down then s else s.send (.time k s.mod.gts)) s

/-- Time passes: the waits of every unit, the counters of time, powered seconds (R460, R461), the time flits of the ports. -/
def passTime (s : State) (t : Nat) : State :=
  let now := s.gts
  let ns := advanceTo s t - now
  if ns = 0 then s
  else
    let s := s.procs.foldl (fun s e => stallTime s e.1 ns) s
    let s := s.clusters.foldl (fun s e => clusterTime ns s e.1) s
    let s := (s.modMod fun m => { m with
      gts := BitVec.ofNat 64 (now + ns)
      health := m.health.pass ((now + ns) / 1000000000 - now / 1000000000) (Config.freeBin s.free) }).bump
    if (now + ns) / 10000 = now / 10000 then s else exchangeTime s

/-- ns of the reference pass; what the module owes to a slew backward is not counted, at most 1 ns per microsecond (R361). -/
def tick (s : State) (ns : Nat) : State :=
  if !s.mod.powered then s
  else
    let back := min s.links.behind (ns / 1000)
    passTime (s.modLinks fun l => { l with behind := l.behind - back }) (s.gts + (ns - back))

/-- The correction a time flit allows: at most 1 ns per microsecond since the last (R361). -/
def slewAmount (s : State) (master : Nat) : Nat :=
  let off := max master s.gts - min master s.gts
  min off ((s.gts - s.links.slewAt.toNat) / 1000)

/-- Slew toward the master, never backward (R361). -/
def slewTime (s : State) (master : Nat) : State :=
  let c := slewAmount s master
  let s := s.modLinks fun l => { l with slewAt := s.mod.gts, behind := if master < s.gts then c else 0 }
  if s.gts < master then passTime s (s.gts + c) else s

def Coh.rotate (c : Coh) : Coh := { c with wsPrv := c.wsCur, wsCur := 0, psPrv := c.psCur, psCur := 0 }

/-- Every WS and PS rotates n times; two rotations clear both halves (R249). -/
def rotateAll (s : State) : Nat → State
  | 0 => s
  | 1 => s.mapProcs fun x => { x with coh := x.coh.rotate }
  | _ => s.mapProcs fun x => { x with coh := x.coh.rotate.rotate }

/-- The forward step of a module that joins a domain, before it runs any context (R361): the signatures rotate for every
multiple of 65,536 it crosses (R249); refill boundaries it skips are not performed (log 9). -/
def joinDomain (s : State) (master : Nat) : State :=
  let t := max s.gts master
  ((rotateAll s (t / 65536 - s.mod.rotations)).modMod fun m => { m with
    gts := BitVec.ofNat 64 t, refills := max m.refills (t / 1000), rotations := max m.rotations (t / 65536)
    pet := BitVec.ofNat 64 (max m.pet.toNat t) }).modLinks fun l => { l with joined := true, slewAt := BitVec.ofNat 64 t, behind := 0 }

/-! ## Signatures and L1 (R249, R252) -/

/-- Every WS and PS rotates once GTS has reached the next multiple of 65,536 (R249). Before that nothing happens. -/
def execSignatureRotation (s : State) : Out :=
  if s.gts < nextRotation s then .next s
  else .next ((rotateAll s 1).modMod fun m => { m with rotations := m.rotations + 1 })

/-- An L1 sector, named by ASID * 2^45 + VA[51:7], loses its valid bit 65,536 ns after its fill (R249). Before that nothing
happens. -/
def execL1SectorExpiry (core vsec : Nat) (s : State) : Out :=
  if core < 272 then
    match SMap.get none (s.proc core).coh.l1 vsec with
    | some t => if s.gts < t.fill.toNat + 65536 then .next s else .next (s.modCoh core fun c => { c with l1 := SMap.set none c.l1 vsec none })
    | none => .next s
  else .fault .noSuchUnit

/-- A signature slot becomes invalid 65,536 ns after its last attach (R252). Before that nothing happens. -/
def execSignatureSlotExpiry (home : Nat) (key : Nat) (s : State) : Out :=
  if home < 416 then
    .next (s.modMem fun m => { m with slots := m.slots.filter fun t => t.valid s.gts || !(t.home == home && t.key == key) })
  else .fault .noSuchUnit

end Sys2Proof.Machine
end

