-- ==== Sys2Proof/Machine/Links.lean ====
section
/-! DEFINITION. Mortar links: what arrives from other modules, its answers, and link errors
(16_host_and_mortar_links.md R355-R363; 11 R250, R252). -/

namespace Sys2Proof.Machine

/-! ## Store acknowledgements (R250) -/

/-- The oldest outstanding store of a core on this module is acknowledged, and its sector is folded into WS.CUR. Without one
nothing happens. -/
def execStoreAck (core : Nat) (s : State) : Out :=
  if core < 272 then
    match (s.proc core).coh.acks with
    | x :: xs => .next (s.modCoh core fun c => { c with acks := xs, wsCur := sigAdd c.wsCur x })
    | [] => .next s
  else .fault .noSuchUnit

/-! ## Admission (R355) -/

/-- A node that sends is reachable (R363). -/
def heard (s : State) (node : Nat) : State :=
  if SMap.get false s.links.lost node then s.modLinks fun l => { l with lost := SMap.set false l.lost node false } else s

/-- The context of a domain group that a node is a member of. -/
def admitted (s : State) (gid : BitVec 12) (node : Nat) : Option Nat :=
  (List.range 16).find? fun x =>
    let c := s.ctx x
    c.d.st != .free && c.gid == gid && decide (node < 768) && c.member.getLsbD node

/-- n bytes of this module's HBM or capacity tier. -/
def homeRange (pa n : Nat) : Bool := decide (0 < n) && ((inHbm pa && inHbm (pa + n - 1)) || (inCap pa && inCap (pa + n - 1)))

/-- The place of an address of this module, for its signature slot. -/
def homePlace (pa : Nat) : Place := ⟨if inHbm pa then .hbm else .capacity, 0, pa, false, 0⟩

/-- Whether a request that reaches n bytes at pa is served. -/
def serves (s : State) (h : FlitHdr) (pa n : Nat) : Bool := (admitted s h.gid h.snode).isSome && homeRange pa n

/-- A response: 0 performed, 1 refused, 2 poisoned, 3 and 4 a halo refused for SHAPE and ECCU, then data; ARG counts the data's
bytes (R356; DESIGN CHOICE for the payload, log 42). -/
def respond (s : State) (h : FlitHdr) (st : Nat) (data : List Byte) : State :=
  s.sendFlits h.snode 3 h.gid h.score.toNat h.cls data.length (data.length / 240 + 2) (bytesN 1 st ++ data)

/-- The slot signature that goes with a read: a byte 0 for a full window, or 1 and the signature (R254). -/
def slotBytes (s : State) (pa : Nat) : List Byte :=
  let pl := homePlace pa
  match slotSig s (slotHome pl) (slotKey s.mod.node.toNat pl) with
  | none => [0]
  | some g => 1 :: bytesN 128 g.toNat

/-! ## Requests of other modules (R356, R358); while a checkpoint runs they are held (28 R481) -/

/-- The port exists and the flit's node is one. -/
def hdrOk (h : FlitHdr) : Bool := decide (h.port < linkPorts) && decide (h.snode < 768)

def execFlitRead (h : FlitHdr) (pa n : Nat) (s : State) : Out :=
  if !hdrOk h then .fault .noSuchUnit
  else if s.mod.ckbusy then .next s
  else
    let s := heard s h.snode
    if serves s h pa n then
      .next (respond s h (if s.mem.poisoned pa n then 2 else 0) (bytesN n (s.mem.read pa n) ++ slotBytes s pa))
    else .next (respond s h 1 [])

/-- Bytes arrive at their home: sectors written whole lose their poison, poison carried sets it (R193). -/
def writeHome (s : State) (pa : Nat) (data : List Byte) (poison : Bool) : State :=
  let n := data.length
  s.modMem fun m =>
    let m := (m.write pa n (leN data)).clearFull [(pa, n)]
    if poison then (m.setPoison (pa / 128) true).setPoison ((pa + n - 1) / 128) true else m

/-- What a write brings to its byte: under a mask only the bits it names (09 R211). -/
def maskedData (s : State) (pa : Nat) (data : List Byte) : Option (BitVec 8) → List Byte
  | none => data
  | some m => data.take 1 |>.map fun b => (BitVec.ofNat 8 (s.mem.read pa 1) &&& ~~~m) ||| (b &&& m)

def execFlitWrite (h : FlitHdr) (pa : Nat) (data : WriteData) (sig : Option Sig) (poison : Bool) (s : State) : Out :=
  if !hdrOk h then .fault .noSuchUnit
  else if s.mod.ckbusy then .next s
  else
    let s := heard s h.snode
    if serves s h pa data.bytes.length then
      let s := writeHome s pa (maskedData s pa data.bytes data.mask) poison
      let s := match sig with
        | some g => let pl := homePlace pa; attachSig s (slotHome pl) (slotKey s.mod.node.toNat pl) g
        | none => s
      .next (respond s h 0 [])
    else .next (respond s h 1 [])

/-- The update that an atomic's operation, bytes and element type name: an element's sum of VSCA (09 R214), or an AMO (09 R203); none
is no operation. -/
def atomicUpdate (op n : Nat) (ty : BitVec 4) (b e old : Nat) : Option (Option Nat) :=
  if vBits ty = 8 * n && ((op = 0 && vInt ty) || (op = 10 && vFp ty)) then some (some (scatterSum ty b old))
  else if (n = 4 && op ≤ 10) || (n = 8 && op ≤ 9) then some (amoOp op (8 * n) b e old)
  else none

/-- An update of n bytes at its home. -/
def execFlitAtomic (h : FlitHdr) (pa : Nat) (n : BitVec 4) (op : AtomicOp) (b e : BitVec 64) (s : State) : Out :=
  if !hdrOk h then .fault .noSuchUnit
  else if s.mod.ckbusy then .next s
  else
    let s := heard s h.snode
    let n := n.toNat
    let old := s.mem.read pa n
    match atomicUpdate op.op.toNat n op.ty (b.toNat % 2 ^ (8 * n)) (e.toNat % 2 ^ (8 * n)) old with
    | none => .next (respond s h 1 [])
    | some new =>
      if !(serves s h pa n && pa % n == 0) then .next (respond s h 1 [])
      else if s.mem.poisoned pa n then .next (respond s h 2 [])
      else
        let s := match new with
          | some v => s.modMem fun m => m.write pa n v
          | none => s
        .next (respond s h 0 (bytesN n old))

/-- A post's counter gets its amount and its signature is merged, or the region it names gets the mark of R407 (R359); either is
answered. -/
def execPostFlit (h : FlitHdr) (core ctr : Nat) (amount : BitVec 32) (sig : Sig) (mark : Option (BitVec 10)) (s : State) : Out :=
  if !hdrOk h then .fault .noSuchUnit
  else if s.mod.ckbusy then .next s
  else
    let s := heard s h.snode
    match admitted s h.gid h.snode, mark with
    | some x, some r => .next (respond (markAborted s x r.toNat) h 0 [])
    | some x, none =>
      if s.inPart x (clusterOf core) && decide (ctr < 256) then
        .next (respond (applyPost s ⟨.remote h.snode h.score.toNat, core, x, ctr, amount, sig⟩) h 0 [])
      else .next (respond s h 1 [])
    | none, _ => .next (respond s h 1 [])

/-! ## Halos (13 R299, R296; 19 R404) -/

/-- The bits of an element at a bit address of a home. -/
def readBits (m : Memory) (bit w : Nat) : Nat :=
  (m.read (bit / 8) ((bit % 8 + w + 7) / 8) >>> (bit % 8)) % 2 ^ w

def writeBits (m : Memory) (bit w v : Nat) : Memory :=
  let n := (bit % 8 + w + 7) / 8
  let old := m.read (bit / 8) n
  let o := bit % 8
  m.write (bit / 8) n (old % 2 ^ o + (v % 2 ^ w) <<< o + old / 2 ^ (o + w) * 2 ^ (o + w))

/-- n elements written in order from a bit address. -/
def writeElems (m : Memory) (bit w : Nat) (v : Nat) : Nat → Memory
  | 0 => m
  | n + 1 => writeElems (writeBits m bit w v) (bit + w) w (v / 2 ^ w) n

/-- Element format, new and old bits of n elements. -/
def haloPairs (m : Memory) (fmt bit w v n : Nat) : List (Nat × Nat × Nat) :=
  (List.range n).map fun k => (fmt, v / 2 ^ (w * k) % 2 ^ w, readBits m (bit + w * k) w)

/-- The status of a halo: refused, outside its region or of no numeric format, over a poisoned old value. -/
def haloStatus (s : State) (h : FlitHdr) (pa va bytes fmt rgn : Nat) : Nat :=
  match admitted s h.gid h.snode with
  | none => 1
  | some x =>
    if !homeRange pa bytes || 20 < fmt then 1
    else if rgn = 0x3FF then 0
    else if fmt = 0 || fmt = 20 || !((s.ctx x).region rgn).covers va bytes then 3
    else if s.mem.poisoned pa bytes then 4 else 0

def execHaloFlit (h : FlitHdr) (pa : Nat) (va : BitVec 52) (off : BitVec 3) (fmt : BitVec 5) (n : Nat) (data : List Byte)
    (rgn : BitVec 10) (poison : Bool) (s : State) : Out :=
  if !hdrOk h then .fault .noSuchUnit
  else if s.mod.ckbusy then .next s
  else
    let s := heard s h.snode
    let w := hodBits fmt.toNat
    let bytes := (off.toNat + w * n + 7) / 8
    let bit := 8 * pa + off.toNat
    let v := leN data
    let st := haloStatus s h pa va.toNat bytes fmt.toNat rgn.toNat
    if data.isEmpty then .next (if st = 1 then respond s h 1 [] else respond s h 0 (bytesN 1 st))
    else match st with
    | 0 =>
      let x := (admitted s h.gid h.snode).getD 0
      let g := (s.ctx x).region rgn.toNat
      let d := deltaSums g.dscale.toInt (haloPairs s.mem fmt.toNat bit w v n)
      let s := s.modMem fun m =>
        let m := (writeElems m bit w v n)
        let m := if w < 8 then m else m.clearFull [(pa, bytes)]
        if poison then (m.setPoison (pa / 128) true).setPoison ((pa + bytes - 1) / 128) true else m
      let s := if rgn = 0x3FF then s else deliver s x rgn.toNat d.1 d.2
      .next (respond s h 0 [])
    | st => .next (respond s h st [])

/-! ## Responses (R355, R357, R358) -/

/-- Flits of one source core, node and class travel in issue order (R358): the entries of `l` before an answered one. -/
def answersFirst (l : List Remote) (i : Nat) (r : Remote) : Bool :=
  !((l.take i).any fun e => e.core == r.core && e.host == r.host && e.peer == r.peer && e.cls == r.cls)

def removeRemote (s : State) (i : Nat) : State := s.modFl fun f => { f with remotes := f.remotes.eraseIdx i }

/-- The record of an access that fails after its instruction went on: LOC and DETAIL as the access was made (15 R335, R336). -/
def lateRecord (r : Remote) (c : Cause) (va : Nat) : Rec :=
  { cause := c, core := if r.q < 256 then r.q else r.q - 256, faddr := va, loc := r.loc, detail := r.detail, unit := match r.eng with
      | some .ve => 1 | some .px => 2 | some .hl => 3 | some .hs => 4 | none => if r.q < 256 then 0 else 5 }

/-- The engine still works under the command that made an access, and is not stopped. -/
def Remote.current (r : Remote) (s : State) (e : Eng) : Bool :=
  let x := s.proc r.q
  (match engineCap x e with
    | some c => c.core == r.core && some c.tag == r.btag
    | none => false) &&
  (match e with
    | .ve => x.eng.ve.stop.isNone | .px => x.eng.px.stop.isNone | .hl => x.eng.hl.stop.isNone | .hs => x.eng.hs.stop.isNone)

/-- A fault of the instruction or entry that an engine has in hand; none in hand, nothing. -/
def engineInHand (s : State) (core : Nat) (e : Eng) (c : Cause) (va : Nat) (at_ : Site) : State :=
  let x := s.proc core
  match e with
  | .hl => match x.eng.hl.cap with
    | some cap => chainFault s core false cap c va (some at_)
    | none => s
  | .hs => match x.eng.hs.cap with
    | some cap => chainFault s core true cap c va (some at_)
    | none => s
  | .ve => match x.eng.ve.cap with
    | some cap => streamFault s core false cap c va at_.loc at_.detail
    | none => s
  | .px => match x.eng.px.serving, x.eng.px.cap with
    | some g, _ => gatheredFault s core g c va at_.detail
    | none, some cap => streamFault s core true cap c va at_.loc at_.detail
    | none, none => s

/-- What a late failure comes to: a cause on the stop path only adds a record, since nothing is left to resume (R331); any other is
a fault of the brick the access was made for. -/
def lateFault (s : State) (r : Remote) (c : Cause) (va : Nat) : State :=
  if c.stops then
    match (s.proc r.core).ctxOf with
    | some x => writeRecord s x .note (lateRecord r c va)
    | none => s
  else match r.btag with
    | some t => brickFault s r.core t (lateRecord r c va)
    | none => s

/-- A fault of the unit that made a remote access (R331, R352, R355, R363; DEDUCED, log 27). A control core goes back to the access,
so that the fault names it (R326); one that has stopped takes a core fault for LINKERR (R352). An engine that still works under
the command stops or ends there; otherwise the fault is late. -/
def remoteFault (s : State) (r : Remote) (c : Cause) (va : Nat) : State :=
  match r.eng with
  | none => match (s.proc r.q).run with
    | .running _ => takeFault (s.modCC r.q fun v => { v with pc := BitVec.ofNat 64 r.loc }) r.q c va
    | .stopped _ _ => if c = .linkerr then coreFault s r.q (lateRecord r c va) else lateFault s r c va
    | _ => lateFault s r c va
  | some e => if r.current s e then engineInHand s r.q e c va ⟨r.loc, r.detail⟩ else lateFault s r c va

/-- The cause a refused write or halo raises. -/
def refusalCause (st : BitVec 3) : Cause := if st = 3 then .shape else if st = 4 then .eccu else .perm

/-- An access has performed at its owner: a write's sector is folded, its answer reaches the instruction that waits (R250). A CAS
whose comparison failed has written nothing. -/
def performed (s : State) (r : Remote) (a : Option Answer) : State :=
  let s := match r.x, a with
    | some x, some ans => if ans.poison || r.cas.any (· != leN (ans.data.take r.n)) then s else s.modCoh r.core fun c => { c with wsCur := sigAdd c.wsCur x }
    | _, _ => s
  if r.kind = 1 || r.kind = 4 || r.tag = deadTag then s
  else s.modCoh r.q fun c => { c with rbuf := c.rbuf ++ [(r.eng, r.tag, a)] }

/-- The owner of the i-th access outstanding answers it. Where it is none of another module's, or an earlier one of the same
order is outstanding, nothing happens. -/
def execFlitResponse (i : Nat) (data : List Byte) (sig : Option Sig) (st : BitVec 3) (s : State) : Out :=
  match s.fl.remotes[i]? with
  | none => .next s
  | some r =>
    if r.host || !answersFirst s.fl.remotes i r then .next s
    else
      let s := heard (removeRemote s i) r.peer
      if st = 0 || st = 2 then .next (performed s r (some ⟨data, sig, st == 2⟩))
      else if r.kind = 1 || r.kind = 4 then .next (remoteFault s r (refusalCause st) r.va)
      else .next (performed s r none)

/-! ## Rendezvous (R360, 02 R24) -/

/-- A member's arrival, or the leader's answer. The SCORE field names the sequencer, whose context must be the group's. -/
def execRendezvousFlit (h : FlitHdr) (seq : Nat) (step : BitVec 32) (answer : Bool) (s : State) : Out :=
  if !hdrOk h || 8 ≤ seq then .fault .noSuchUnit
  else
    let s := heard s h.snode
    match admitted s h.gid h.snode with
    | none => .next s
    | some x =>
      let t := s.stepper seq
      if seqOf s x ≠ some seq then .next s
      else if answer then
        if t.st = .run && t.rdvSince.isSome && BitVec.ofNat 32 t.done == step then .next (openStep (acquireContext s x) seq x)
        else .next s
      else
        let s := recordArrival s seq h.snode step
        if leaderOf s x = s.mod.node.toNat && allArrived s seq x step then .next (answerMembers s seq x step) else .next s

/-! ## Time (R361) -/

/-- 8 ns. -/
def timeBound : Nat := 8

/-- The GTS master: node 0, or the lowest-numbered present node when node 0 is absent (R361): a node of a domain group that is
reachable, or this one. -/
def timeMaster (s : State) : Nat :=
  let there (n : Nat) : Bool := n == s.mod.node.toNat || (!SMap.get false s.links.lost n &&
    (n == 0 || (List.range 16).any fun x => (s.ctx x).d.st != .free && (s.ctx x).member.getLsbD n))
  ((List.range 768).find? there).getD 0

/-- A time flit with the master's GTS: the first makes the module join its domain while every context is FREE, later ones
slew its GTS. The master itself does nothing. -/
def execTimeFlit (port : Nat) (master : BitVec 64) (s : State) : Out :=
  if linkPorts ≤ port then .fault .noSuchUnit
  else if timeMaster s = s.mod.node.toNat then .next s
  else if !s.links.joined && (List.range 16).all fun x => (s.ctx x).d.st == .free then .next (joinDomain s master.toNat)
  else
    let s := (slewTime s master.toNat).modLinks fun l => { l with joined := true }
    let off := max master.toNat s.gts - min master.toNat s.gts
    .next (s.modLinks fun l => { l with toobSince := if timeBound < off then l.toobSince.or (some s.mod.gts) else none })

/-- 1 ms of GTS. -/
def linkLimit : Nat := 1000000

/-- The bound has been exceeded for 1 ms: HFLAG TOOB (22 R461). Before that nothing happens. -/
def execTimeOutOfBound (s : State) : Out :=
  match s.links.toobSince with
  | some t =>
    if s.gts < t.toNat + linkLimit then .next s
    else .next (s.modMod fun m => { m with health := { m.health with hflag := m.health.hflag ||| 1 } })
  | none => .next s

/-! ## Ports (R356, R357, R362) -/

def modPort (s : State) (port : Nat) (f : Port → Port) : State :=
  s.modLinks fun l => { l with ports := SMap.set Port.reset l.ports port (f (SMap.get Port.reset l.ports port)) }

/-- The spec gives a link control flit no effect beyond its arrival on VC 3 (R356, R357). -/
def execLinkControlFlit (port : Nat) (_arg : BitVec 32) (s : State) : Out :=
  if linkPorts ≤ port then .fault .noSuchUnit else .next s

def execFlitReservedType (port : Nat) (type : BitVec 4) (s : State) : Out :=
  if linkPorts ≤ port then .fault .noSuchUnit
  else if type.toNat < 9 then .next s
  else .next (modPort s port fun p => { p with dropped := p.dropped + 1 })

/-- A replay goes back to a flit's LSEQ; nothing is lost, duplicated or reordered, and only the port's count shows it. -/
def execFlitReplay (port : Nat) (_lseq : BitVec 14) (s : State) : Out :=
  if linkPorts ≤ port then .fault .noSuchUnit
  else .next (modPort s port fun p => { p with replays := p.replays + 1 })

/-- Good lanes of a port. -/
def Port.good (p : Port) : Nat := ((List.range 4).filter fun i => !p.bad.getLsbD i).length

/-- A lane passes its limit: the port goes on with its two best lanes, or down with fewer than two good ones. -/
def execLaneSparing (port lane : Nat) (s : State) : Out :=
  if linkPorts ≤ port || 4 ≤ lane then .fault .noSuchUnit
  else .next (modPort s port fun p =>
    let p := { p with bad := p.bad ||| BitVec.ofNat 4 (2 ^ lane) }
    { p with lanes := if p.good < 2 then 0 else 2, down := decide (p.good < 2) })

/-! ## Link errors (R363, R352) -/

/-- One fault for each unit and brick among the accesses that end. -/
def linkErrors : List Remote → State → State
  | [], s => s
  | r :: l, s =>
    let s := linkErrors l s
    if l.any fun e => e.q == r.q && e.eng == r.eng && e.core == r.core && e.btag == r.btag then s else remoteFault s r .linkerr 0

/-- Every access outstanding that a predicate names ends with LINKERR. -/
def endAccesses (s : State) (f : Remote → Bool) : State :=
  let l := s.fl.remotes.filter f
  linkErrors l (s.modFl fun fl => { fl with remotes := fl.remotes.filter fun r => !f r })

/-- Members that wait for a lost leader arrive at the next-lowest one (R360). -/
def arriveAgain (s : State) (node : Nat) : State :=
  (List.range 8).foldl (fun s q =>
    let t := s.stepper q
    if t.st = .run && t.rdvSince.isSome && decide (node < leaderOf s t.ctx) && decide (node < 768) && (s.ctx t.ctx).member.getLsbD node
    then arriveAt s q t.ctx else s) s

/-- A node has stayed unreachable for 1 ms. -/
def execNodeUnreachable (node : Nat) (s : State) : Out :=
  if 768 ≤ node || node = s.mod.node.toNat then .fault .noSuchUnit
  else
    let s := endAccesses s fun r => !r.host && r.peer == node
    .next (arriveAgain (s.modLinks fun l => { l with lost := SMap.set false l.lost node true }) node)

end Sys2Proof.Machine
end

