-- ==== Sys2Proof/Machine/Crypto.lean ====
section
/-! DEFINITION. SHA-384 and the verification of ECDSA signatures over Brainpool P-384r1, which signed HOF files and firmware
images carry (05_assembly_and_container.md R106; 28_bringup_and_management.md R475-R477). The spec names both by their
standards; their constants are those of FIPS 180-4 and RFC 5639 (PRESUMED, log 10). -/

namespace Sys2Proof.Machine

/-! ## SHA-384 -/

abbrev Word64 := BitVec 64

/-- Round constants. -/
def shaK0 : List Word64 :=
  [0x428A2F98D728AE22, 0x7137449123EF65CD, 0xB5C0FBCFEC4D3B2F, 0xE9B5DBA58189DBBC,
   0x3956C25BF348B538, 0x59F111F1B605D019, 0x923F82A4AF194F9B, 0xAB1C5ED5DA6D8118,
   0xD807AA98A3030242, 0x12835B0145706FBE, 0x243185BE4EE4B28C, 0x550C7DC3D5FFB4E2,
   0x72BE5D74F27B896F, 0x80DEB1FE3B1696B1, 0x9BDC06A725C71235, 0xC19BF174CF692694,
   0xE49B69C19EF14AD2, 0xEFBE4786384F25E3, 0x0FC19DC68B8CD5B5, 0x240CA1CC77AC9C65,
   0x2DE92C6F592B0275, 0x4A7484AA6EA6E483, 0x5CB0A9DCBD41FBD4, 0x76F988DA831153B5,
   0x983E5152EE66DFAB, 0xA831C66D2DB43210, 0xB00327C898FB213F, 0xBF597FC7BEEF0EE4,
   0xC6E00BF33DA88FC2, 0xD5A79147930AA725, 0x06CA6351E003826F, 0x142929670A0E6E70,
   0x27B70A8546D22FFC, 0x2E1B21385C26C926, 0x4D2C6DFC5AC42AED, 0x53380D139D95B3DF,
   0x650A73548BAF63DE, 0x766A0ABB3C77B2A8, 0x81C2C92E47EDAEE6, 0x92722C851482353B]
def shaK1 : List Word64 :=
  [0xA2BFE8A14CF10364, 0xA81A664BBC423001, 0xC24B8B70D0F89791, 0xC76C51A30654BE30,
   0xD192E819D6EF5218, 0xD69906245565A910, 0xF40E35855771202A, 0x106AA07032BBD1B8,
   0x19A4C116B8D2D0C8, 0x1E376C085141AB53, 0x2748774CDF8EEB99, 0x34B0BCB5E19B48A8,
   0x391C0CB3C5C95A63, 0x4ED8AA4AE3418ACB, 0x5B9CCA4F7763E373, 0x682E6FF3D6B2B8A3,
   0x748F82EE5DEFB2FC, 0x78A5636F43172F60, 0x84C87814A1F0AB72, 0x8CC702081A6439EC,
   0x90BEFFFA23631E28, 0xA4506CEBDE82BDE9, 0xBEF9A3F7B2C67915, 0xC67178F2E372532B,
   0xCA273ECEEA26619C, 0xD186B8C721C0C207, 0xEADA7DD6CDE0EB1E, 0xF57D4F7FEE6ED178,
   0x06F067AA72176FBA, 0x0A637DC5A2C898A6, 0x113F9804BEF90DAE, 0x1B710B35131C471B,
   0x28DB77F523047D84, 0x32CAAB7B40C72493, 0x3C9EBE0A15C9BEBC, 0x431D67C49C100D4C,
   0x4CC5D4BECB3E42B6, 0x597F299CFC657E2A, 0x5FCB6FAB3AD6FAEC, 0x6C44198C4A475817]

/-- The working variables, first to last. -/
structure Sha where
  a : Word64
  b : Word64
  c : Word64
  d : Word64
  e : Word64
  f : Word64
  g : Word64
  h : Word64
  deriving DecidableEq, Repr

def Sha.init : Sha :=
  ⟨0xCBBB9D5DC1059ED8, 0x629A292A367CD507, 0x9159015A3070DD17, 0x152FECD8F70E5939,
   0x67332667FFC00B31, 0x8EB44A8768581511, 0xDB0C2E0D64F98FA7, 0x47B5481DBEFA4FA4⟩

/-- One round with its constant and message word. -/
def Sha.round (x : Sha) (k w : Word64) : Sha :=
  let s1 := x.e.rotateRight 14 ^^^ x.e.rotateRight 18 ^^^ x.e.rotateRight 41
  let ch := (x.e &&& x.f) ^^^ (~~~x.e &&& x.g)
  let t1 := x.h + s1 + ch + k + w
  let s0 := x.a.rotateRight 28 ^^^ x.a.rotateRight 34 ^^^ x.a.rotateRight 39
  let maj := (x.a &&& x.b) ^^^ (x.a &&& x.c) ^^^ (x.b &&& x.c)
  ⟨t1 + (s0 + maj), x.a, x.b, x.c, x.d + t1, x.e, x.f, x.g⟩

def Sha.add (x y : Sha) : Sha := ⟨x.a + y.a, x.b + y.b, x.c + y.c, x.d + y.d, x.e + y.e, x.f + y.f, x.g + y.g, x.h + y.h⟩

/-- The message schedule, newest word first, extended n times. -/
def shaSchedule : Nat → List Word64 → List Word64
  | 0, l => l
  | n + 1, l =>
    let w (k : Nat) : Word64 := l.getD k 0
    let s0 := (w 14).rotateRight 1 ^^^ (w 14).rotateRight 8 ^^^ (w 14 >>> 7)
    let s1 := (w 1).rotateRight 19 ^^^ (w 1).rotateRight 61 ^^^ (w 1 >>> 6)
    shaSchedule n ((s1 + w 6 + s0 + w 15) :: l)

/-- A number from bytes, the most significant first. -/
def beNat (b : List Byte) : Nat := b.foldl (fun n x => n * 256 + x.toNat) 0

/-- The state after a 128-byte block. -/
def Sha.block (x : Sha) (b : List Byte) : Sha :=
  let w := ((List.range 16).map fun k => BitVec.ofNat 64 (beNat ((b.drop (8 * k)).take 8))).reverse
  x.add ((List.zip (shaK0 ++ shaK1) (shaSchedule 64 w).reverse).foldl (fun y e => y.round e.1 e.2) x)

/-- Whole blocks of a padded message, with fuel. -/
def Sha.blocks (x : Sha) : Nat → List Byte → Sha
  | 0, _ => x
  | n + 1, b => if b.isEmpty then x else (x.block (b.take 128)).blocks n (b.drop 128)

/-- n bytes of a number, the most significant first. -/
def beBytes (n v : Nat) : List Byte := (List.range n).map fun k => BitVec.ofNat 8 (v >>> (8 * (n - 1 - k)))

/-- SHA-384 of a message. -/
def sha384 (m : List Byte) : BitVec 384 :=
  let p := m ++ [0x80] ++ List.replicate ((239 - m.length % 128) % 128) 0 ++ beBytes 16 (8 * m.length)
  let x := Sha.init.blocks (p.length / 128) p
  x.a ++ x.b ++ x.c ++ x.d ++ x.e ++ x.f

/-! ## The curve -/

def curveP : Nat := 0x8CB91E82A3386D280F5D6F7E50E641DF152F7109ED5456B412B1DA197FB71123ACD3A729901D1A71874700133107EC53
def curveA : Nat := 0x7BC382C63D8C150C3C72080ACE05AFA0C2BEA28E4FB22787139165EFBA91F90F8AA5814A503AD4EB04A8C7DD22CE2826
def curveB : Nat := 0x04A8C7DD22CE28268B39B55416F0447C2FB77DE107DCD2A62E880EA53EEB62D57CB4390295DBC9943AB78696FA504C11
def curveX : Nat := 0x1D1C64F068CF45FFA2A63A81B7C13F6B8847A3E77EF14FE3DB7FCAFE0CBD10E8E826E03436D646AAEF87B2E247D4AF1E
def curveY : Nat := 0x8ABE1D7520F9C2A45CB1EB8E95CFD55262B70B29FEEC5864E19C054FF99129280E4646217791811142820341263C5315
def curveN : Nat := 0x8CB91E82A3386D280F5D6F7E50E641DF152F7109ED5456B31F166E6CAC0425A7CF3AB6AF6B7FC3103B883202E9046565

/-- b to the power of the lowest k bits of e, modulo m. -/
def powMod (m b e : Nat) : Nat → Nat
  | 0 => 1 % m
  | k + 1 =>
    let r := powMod m b (e / 2) k
    let q := r * r % m
    if e % 2 = 1 then q * b % m else q

/-- The inverse modulo a prime. -/
def invMod (m a : Nat) : Nat := powMod m a (m - 2) 384

/-- A point in Jacobian coordinates; z = 0 is the point at infinity. -/
structure Point where
  x : Nat
  y : Nat
  z : Nat
  deriving DecidableEq, Repr

def subP (a b : Nat) : Nat := (a + (curveP - b % curveP)) % curveP
def mulP (a b : Nat) : Nat := a * b % curveP

def Point.infinity : Point := ⟨1, 1, 0⟩

def Point.double (p : Point) : Point :=
  let yy := mulP p.y p.y
  let s := mulP 4 (mulP p.x yy)
  let zz := mulP p.z p.z
  let m := (3 * mulP p.x p.x + mulP curveA (mulP zz zz)) % curveP
  let x := subP (mulP m m) (2 * s)
  ⟨x, subP (mulP m (subP s x)) (8 * mulP yy yy), 2 * mulP p.y p.z % curveP⟩

def Point.add (p q : Point) : Point :=
  if p.z = 0 then q
  else if q.z = 0 then p
  else
    let pz := mulP p.z p.z
    let qz := mulP q.z q.z
    let u1 := mulP p.x qz
    let u2 := mulP q.x pz
    let s1 := mulP p.y (mulP q.z qz)
    let s2 := mulP q.y (mulP p.z pz)
    if u1 = u2 then (if s1 = s2 then p.double else Point.infinity)
    else
      let h := subP u2 u1
      let r := subP s2 s1
      let hh := mulP h h
      let hhh := mulP h hh
      let v := mulP u1 hh
      let x := subP (subP (mulP r r) hhh) (2 * v)
      ⟨x, subP (mulP r (subP v x)) (mulP s1 hhh), mulP h (mulP p.z q.z)⟩

/-- The multiple of a point by the lowest n bits of k. -/
def Point.mul (p : Point) (k : Nat) : Nat → Point
  | 0 => Point.infinity
  | n + 1 =>
    let q := (p.mul (k / 2) n).double
    if k % 2 = 1 then q.add p else q

/-- A point of the curve other than infinity. -/
def onCurve (x y : Nat) : Bool :=
  decide (x < curveP) && decide (y < curveP) && mulP y y == (mulP x (mulP x x) + mulP curveA x + curveB) % curveP

/-- Verification of a signature, r then s in 48 bytes each, most significant first, over SHA-384 of a message under a public
key, x then y (R106, R475; the order of a key's coordinates is PRESUMED, log 10). -/
def sigVerifies (key : BitVec 768) (m sig : List Byte) : Bool :=
  let x := key.toNat / 2 ^ 384
  let y := key.toNat % 2 ^ 384
  let r := beNat (sig.take 48)
  let s := beNat ((sig.drop 48).take 48)
  sig.length == 96 && onCurve x y && decide (0 < r) && decide (r < curveN) && decide (0 < s) && decide (s < curveN) &&
  let w := invMod curveN s
  let p := ((Point.mk curveX curveY 1).mul ((sha384 m).toNat * w % curveN) 384).add ((Point.mk x y 1).mul (r * w % curveN) 384)
  p.z != 0 && mulP p.x (invMod curveP (mulP p.z p.z)) % curveN == r

end Sys2Proof.Machine
end

