-- ==== Sys2Proof/Machine/Roce.lean ====
section
/-! DEFINITION. RoCEv2 on the Ethernet ports: queue pairs, inbound windows, inbound requests, responses
(16_host_and_mortar_links.md R350-R354; 11 R264, R265). -/

namespace Sys2Proof.Machine

/-! ## Queue pairs (R351, R352) -/

def queuePairs : Nat := 1024
def qpOf (s : State) (q : Nat) : BitVec 128 := SMap.get 0 s.links.qps q
def setQp (s : State) (q : Nat) (v : BitVec 128) : State := s.modLinks fun l => { l with qps := SMap.set 0 l.qps q v }
def withState (v : BitVec 128) (st : Nat) : BitVec 128 := (v &&& ~~~(7#128 <<< 8)) ||| (BitVec.ofNat 128 st <<< 8)

/-- A queue pair enters ERR: its outstanding accesses end with LINKERR (R352). -/
def enterErr (s : State) (q : Nat) : State := endAccesses (setQp s q (withState (qpOf s q) 4)) fun r => r.host && r.peer == q

/-- Requests are accepted in RTR and RTS (R354). -/
def accepts (s : State) (q : Nat) : Bool := qpState (qpOf s q) == 2 || qpState (qpOf s q) == 3

/-- NAK kinds: invalid request, remote access error. -/
def nakInvalid : Nat := 1
def nakAccess : Nat := 2

def nakErr (s : State) (q kind : Nat) : State := enterErr (s.send (.nak q kind)) q

/-- As notification point the device answers a request that carries the ECN mark with a congestion notification (R350; log 43). -/
def notify (s : State) (q : Nat) (ecn : Bool) : State := if ecn then s.send (.cnp q) else s

/-- A request on queue pair q: dropped, refused as invalid, or served; what fails while it is served is NAKed (R350, R354). While a
checkpoint runs the host's traffic is paused (28 R481). -/
def inbound (q : Nat) (ecn valid : Bool) (serve : M (List Byte)) (s : State) : Out :=
  if queuePairs ≤ q then .fault .noSuchUnit
  else if s.mod.ckbusy || !accepts s q then .next s
  else if !valid then .next (nakErr (notify s q ecn) q nakInvalid)
  else match serve (notify s q ecn) with
    | .ok data s => .next (s.send (.answer q data))
    | .error _ s => .next (nakErr s q nakAccess)

/-! ## Windows (R353, R354) -/

/-- The lowest-numbered valid window with an rkey. -/
def windowFor (s : State) (rkey : BitVec 32) : Option (BitVec 128) :=
  ((List.range 64).map fun k => SMap.get 0 s.links.wins k).find? fun w => w.getLsbD 127 && fld w 88 32 == rkey

/-- The unit an inbound request acts as: no core, so that no own alias is reached. -/
def hostWho (x : Nat) : Who := ⟨512, none, x, 512⟩

/-- The window's context, where the range lies within the window and the right (bit of the entry) is there. -/
def enterWindow (rkey : BitVec 32) (right addr n : Nat) : M Who := do
  match windowFor (← get) rkey with
  | none => faultM .perm addr
  | some w =>
    let base := (fld w 0 52).toNat
    need (w.getLsbD right && decide (base ≤ addr) && decide (addr + n ≤ base + (fld w 64 24).toNat * 65536)) .perm addr
    return hostWho (fld w 120 4).toNat

def rightW : Nat := 126
def rightR : Nat := 125
def rightA : Nat := 124

/-- A range cut at sectors, with fuel. -/
def sectorRuns : Nat → Nat → Nat → List (Nat × Nat)
  | 0, _, _ => []
  | f + 1, va, n =>
    if n = 0 then []
    else
      let k := min n (128 - va % 128)
      (va, k) :: sectorRuns f (va + k) (n - k)

def runsIn (va n : Nat) : List (Nat × Nat) := sectorRuns (n / 128 + 2) va n

/-- Inbound requests reach only this module's memories (R354). -/
def inboundPlaces (w : Who) (k : Access) : List (Nat × Nat) → M (List (Place × Nat))
  | [] => pure []
  | r :: l => do
    let pl ← resolve w r.1 r.2 k
    need pl.isLocal .xlate r.1
    return (pl, r.2) :: (← inboundPlaces w k l)

/-- Bytes go to their homes in ascending order; sectors written whole lose their poison (R193). -/
def writePlaces : List (Place × Nat) → List Byte → Memory → Memory
  | [], _, m => m
  | p :: l, data, m => writePlaces l (data.drop p.2) (m.write p.1.key p.2 (leN (data.take p.2)))

def inboundPacket (w : Who) (addr : Nat) (data : List Byte) : M (List (Nat × Nat)) := do
  let ps ← inboundPlaces w .write (runsIn addr data.length)
  let runs := ps.map fun p => (p.1.key, p.2)
  doS fun s => s.modMem fun m => (writePlaces ps data m).clearFull runs
  return runs

/-- The packets of a message one after the other, with fuel: one that is refused leaves those before it written (R354). -/
def inboundPackets (w : Who) (mtu : Nat) : Nat → Nat → List Byte → M (List (Nat × Nat))
  | 0, _, _ => pure []
  | k + 1, addr, data => do
    if data.isEmpty then return []
    let a ← inboundPacket w addr (data.take mtu)
    return a ++ (← inboundPackets w mtu k (addr + mtu) (data.drop mtu))

/-- The bytes of a message, in packets of the path MTU (R350, R354). -/
def inboundWrite (w : Who) (addr : Nat) (data : List Byte) : M Unit := do
  let mtu := mtuBytes (← get).links
  let runs ← inboundPackets w mtu (data.length / mtu + 1) addr data
  doS fun s => s.modMem fun m => m.clearFull runs

/-- Bytes of a place; the spec gives no value for what an inbound request reads of a poisoned sector (DESIGN CHOICE, log 28:
free bytes). -/
def placeBytes (s : State) (p : Place × Nat) : List Byte :=
  if s.mem.poisoned p.1.key p.2 then (List.range p.2).map fun k => Config.freeByte s.free (p.1.key + k)
  else bytesN p.2 (s.mem.read p.1.key p.2)

def inboundRead (w : Who) (addr n : Nat) : M (List Byte) := do
  let ps ← inboundPlaces w .read (runsIn addr n)
  let s ← get
  doS fun s => s.bump
  return ps.flatMap (placeBytes s)

/-! ## Receive rings (R354) -/

/-- The ring entry of a message: immediate, payload length, kind, GTS, payload. -/
def ringEntry (imm : BitVec 32) (kind : Nat) (gts : Word) (payload : List Byte) : List Byte :=
  bytesN 4 imm.toNat ++ bytesN 2 payload.length ++ bytesN 1 kind ++ bytesN 1 0 ++ bytesN 8 gts.toNat ++
  bytesN 48 (leN payload)

/-- Address of the entry of message m of a queue pair: 256 entries of 64 bytes in the context's LST range. -/
def ringAddr (s : State) (q m : Nat) : Nat :=
  let v := qpOf s q
  lstBase + (s.ctx (qpCtx v)).d.lstb.toNat * 2 ^ 20 + (fld v 20 12).toNat * 2 ^ 14 + 64 * (m % 256)

/-- The entry is written, then the notified counter gets its post (R354, R260). -/
def deliverMessage (q : Nat) (imm : BitVec 32) (kind : Nat) (payload : List Byte) : M Unit := do
  let s ← get
  let v := qpOf s q
  let m := SMap.get 0 s.links.recv q
  inboundWrite (hostWho (qpCtx v)) (ringAddr s q m) (ringEntry imm kind s.mod.gts payload)
  doS fun s => s.modLinks fun l => { l with recv := SMap.set 0 l.recv q (m + 1) }
  doS fun s => sendPost s .device (qpCtx v) (fld v 40 8).toNat (fld v 32 8).toNat 1 0

/-! ## Requests (R350, R354) -/

/-- 1 byte to 2 GiB. -/
def messageSize (n : Nat) : Bool := decide (1 ≤ n) && decide (n ≤ 2 ^ 31)

def execRdmaWrite (h : RoceHdr) (rkey : BitVec 32) (addr : BitVec 52) (data : List Byte) (s : State) : Out :=
  inbound h.q h.ecn (messageSize data.length) (do
    let w ← enterWindow rkey rightW addr.toNat data.length
    inboundWrite w addr.toNat data
    return []) s

def execRdmaWriteWithImmediate (h : RoceHdr) (rkey : BitVec 32) (addr : BitVec 52) (data : List Byte) (imm : BitVec 32)
    (s : State) : Out :=
  inbound h.q h.ecn (messageSize data.length) (do
    let w ← enterWindow rkey rightW addr.toNat data.length
    inboundWrite w addr.toNat data
    deliverMessage h.q imm 3 []
    return []) s

def execRdmaRead (h : RoceHdr) (rkey : BitVec 32) (addr : BitVec 52) (n : Nat) (s : State) : Out :=
  inbound h.q h.ecn (messageSize n) (do
    let w ← enterWindow rkey rightR addr.toNat n
    inboundRead w addr.toNat n) s

/-- SEND payload at most 48 bytes. -/
def sendSize (n : Nat) : Bool := decide (1 ≤ n) && decide (n ≤ 48)

def execSend (h : RoceHdr) (data : List Byte) (s : State) : Out :=
  inbound h.q h.ecn (sendSize data.length) (do deliverMessage h.q 0 1 data; return []) s

def execSendWithImmediate (h : RoceHdr) (data : List Byte) (imm : BitVec 32) (s : State) : Out :=
  inbound h.q h.ecn (sendSize data.length) (do deliverMessage h.q imm 2 data; return []) s

/-- A 64-bit atomic of the host at its home. -/
def inboundAtomic (rkey : BitVec 32) (addr : Nat) (op b e : Nat) : M (List Byte) := do
  let w ← enterWindow rkey rightA addr 8
  let pl ← resolve w addr 8 .atomic
  need pl.isLocal .xlate addr
  let s ← get
  doS fun s => s.bump
  let old := leN (placeBytes s (pl, 8))
  match amoOp op 64 b e old with
  | some v => doS fun s => s.modMem fun m => m.write pl.key 8 v
  | none => pure ()
  return bytesN 8 old

def execFetchAdd (h : RoceHdr) (rkey : BitVec 32) (addr : BitVec 52) (v : BitVec 64) (s : State) : Out :=
  inbound h.q h.ecn (addr.toNat % 8 == 0) (inboundAtomic rkey addr.toNat 0 v.toNat 0) s

def execCompareSwap (h : RoceHdr) (rkey : BitVec 32) (addr : BitVec 52) (cmp new : BitVec 64) (s : State) : Out :=
  inbound h.q h.ecn (addr.toNat % 8 == 0) (inboundAtomic rkey addr.toNat 9 new.toNat cmp.toNat) s

def execInvalidRequest (h : RoceHdr) (s : State) : Out := inbound h.q h.ecn false (pure []) s

/-! ## Responses of the host (R350, R264) -/

/-- Position of the oldest access outstanding on a queue pair of one sort. -/
def oldestHost (s : State) (q : Nat) (write : Bool) : Option Nat :=
  s.fl.remotes.findIdx? fun r => r.host && r.peer == q && (r.kind == 1) == write

/-- The oldest device-originated access of one sort completes. Without one nothing happens. -/
def hostAnswers (q : Nat) (write : Bool) (data : List Byte) (s : State) : Out :=
  if queuePairs ≤ q then .fault .noSuchUnit
  else match oldestHost s q write with
    | none => .next s
    | some i => match s.fl.remotes[i]? with
      | none => .next s
      | some r => .next (performed (removeRemote s i) r (some ⟨data, some 0, false⟩))

def execRoceAcknowledgement (q : Nat) (s : State) : Out := hostAnswers q true [] s
def execRdmaReadResponse (q : Nat) (data : List Byte) (s : State) : Out := hostAnswers q false data s

/-- The requester moves a queue pair that carries traffic to ERR (R352). On another it does nothing. -/
def execRequesterError (q : Nat) (s : State) : Out :=
  if queuePairs ≤ q then .fault .noSuchUnit
  else if accepts s q then .next (enterErr s q) else .next s

/-- A priority of a logical port is paused or resumed (R350). -/
def execPriorityFlowControl (port prio : Nat) (pause : Bool) (s : State) : Out :=
  if (if s.links.split then 4 else 2) ≤ port || 8 ≤ prio then .fault .noSuchUnit
  else .next (s.modLinks fun l => { l with paused := SMap.set false l.paused (port * 8 + prio) pause })

/-- The device as reaction point slows the queue pair's traffic, which changes no result: only the count shows it (R350). -/
def execCongestionNotification (q : Nat) (s : State) : Out :=
  if queuePairs ≤ q then .fault .noSuchUnit
  else .next (s.modLinks fun l => { l with cnps := SMap.set 0 l.cnps q (SMap.get 0 l.cnps q + 1) })

end Sys2Proof.Machine
end

