-- ==== Sys2Proof/Machine/Loader.lean ====
section
/-! DEFINITION. The loader of HOF files (05_assembly_and_container.md R106-R109; 12 R267, R269, R271; 28 R476). -/

namespace Sys2Proof.Machine

/-! ## Fields of a file (R106, R107) -/

/-- n bytes from byte o of a file, little-endian. -/
def fileNat (f : List Byte) (o n : Nat) : Nat := leN ((f.drop o).take n)
/-- n zero bytes from byte o. -/
def fileZero (f : List Byte) (o n : Nat) : Bool := ((f.drop o).take n).all (· == 0)

structure Section where
  kind : Nat
  off : Nat
  size : Nat
  load : Nat
  deriving DecidableEq, Repr

def secCc : Nat := 1
def secVe : Nat := 2
def secPx : Nat := 3
def secLk : Nat := 5
def secLst : Nat := 7
def secObg : Nat := 8
def secSched : Nat := 9
def secSync : Nat := 10

def fileSections (f : List Byte) : List Section :=
  (List.range (fileNat f 28 4)).map fun k =>
    let o := fileNat f 32 8 + 32 * k
    ⟨fileNat f o 1, fileNat f (o + 8) 8, fileNat f (o + 16) 8, fileNat f (o + 24) 8⟩

def Section.bytes (c : Section) (f : List Byte) : List Byte := (f.drop c.off).take c.size

/-- First section of a kind. -/
def sectionOf (f : List Byte) (kind : Nat) : Option Section := (fileSections f).find? fun c => c.kind == kind

/-! ## `.sync` (R108) -/

/-- What `.sync` holds: its stream records (engine byte, offset, descriptors), semaphores, edges. -/
structure SyncRecs where
  streams : List (Nat × Nat × List (BitVec 16))
  sems : List (Nat × BitVec 16)
  edges : List (Nat × Nat)
  deriving DecidableEq, Repr

/-- Stream records at the head, with fuel: their reserved bytes are zero, which no semaphores and edges numbered 1-63 show. -/
def streamCount : Nat → List Byte → Nat
  | 0, _ => 0
  | k + 1, b =>
    if decide (32 ≤ b.length) && fileZero b 1 1 && fileZero b 18 14 then streamCount k (b.drop 32) + 1 else 0

/-- Semaphore records at the head, with fuel: their second byte is zero, which no edge's is. -/
def semCount : Nat → List Byte → Nat
  | 0, _ => 0
  | k + 1, b => if decide (4 ≤ b.length) && fileZero b 1 1 then semCount k (b.drop 4) + 1 else 0

/-- The records of a section. The spec gives no counts, but a well-formed section splits in this one way; of another this split
is the model's (DESIGN CHOICE, log 29). -/
def syncRecs (b : List Byte) : SyncRecs :=
  let n := streamCount (b.length / 32) b
  let m := semCount (b.length / 4) (b.drop (32 * n))
  let e := 32 * n + 4 * m
  { streams := (List.range n).map fun k =>
      (fileNat b (32 * k) 1, fileNat b (32 * k + 2) 2, (List.range 7).map fun j => BitVec.ofNat 16 (fileNat b (32 * k + 4 + 2 * j) 2))
    sems := (List.range m).map fun k => (fileNat b (32 * n + 4 * k) 1, BitVec.ofNat 16 (fileNat b (32 * n + 4 * k + 2) 2))
    edges := (List.range ((b.length - e) / 2)).map fun k => (fileNat b (e + 2 * k) 1, fileNat b (e + 2 * k + 1) 1) }

def fileSync (f : List Byte) : SyncRecs :=
  match sectionOf f secSync with
  | none => ⟨[], [], []⟩
  | some c => syncRecs (c.bytes f)

/-! ## Checks (R109) -/

/-- 0x01: there is a header (log 44), the key exists and the signature over the file, its own bytes zero, verifies (R106, R476). -/
def checkSig (s : State) (f : List Byte) : Bool :=
  decide (256 ≤ f.length) && decide (fileNat f 40 8 < 16) &&
  match SMap.get none s.mod.keys (fileNat f 40 8) with
  | none => false
  | some k => sigVerifies k (f.take 48 ++ List.replicate 96 0 ++ f.drop 144) ((f.drop 48).take 96)

/-- 0x02. -/
def checkHeader (f : List Byte) : Bool :=
  fileNat f 0 4 == 0x00464F48 && fileNat f 4 2 == 1 && fileZero f 6 2 && fileZero f 25 1 && fileZero f 144 112

/-- log2 of the ring of a section: the smallest RSIZE that holds it (R269). -/
def ringFor (size : Nat) : Nat := ((List.range 8).map (· + 1)).find? (fun r => decide (size ≤ 2 ^ (r + 9))) |>.getD 8

/-- A `.ve` or `.px` section and its ring. -/
def ringOk (c : Section) : Bool :=
  decide (c.size ≤ 128 * 1024) && c.load % 1024 == 0 && decide (c.load + 2 ^ (ringFor c.size + 9) ≤ Config.spBytes)

/-- Two sections share no byte; an empty one overlaps nothing (DEDUCED, log 44). -/
def disjoint (a b : Section) : Bool :=
  a.size == 0 || b.size == 0 || decide (a.off + a.size ≤ b.off) || decide (b.off + b.size ≤ a.off)
def pairwiseDisjoint : List Section → Bool
  | [] => true
  | c :: l => l.all (disjoint c) && pairwiseDisjoint l

/-- 0x03; also for NSEC outside 1-16 and for a section table that runs past the end of the file (DESIGN CHOICE, log 44). -/
def checkSections (f : List Byte) : Bool :=
  let n := fileNat f 28 4
  decide (1 ≤ n) && decide (n ≤ 16) && decide (fileNat f 32 8 + 32 * n ≤ f.length) &&
  let l := fileSections f
  (l.all fun c => decide (1 ≤ c.kind) && decide (c.kind ≤ 10) && decide (c.off + c.size ≤ f.length)) && pairwiseDisjoint l &&
  decide ((l.filter fun c => c.kind == secSync).length ≤ 1) && (l.all fun c => !(c.kind == secVe || c.kind == secPx) || ringOk c)

/-- Window address of byte 0 of a context's LST range. -/
def lstStart (s : State) (x : Nat) : Nat := lstBase + (s.ctx x).d.lstb.toNat * 2 ^ 20

/-- Control words of the OBs of `.obg`, found by its graph header (R381, R382). -/
def obControls (s : State) (x : Nat) (f : List Byte) : List Nat :=
  (fileSections f).flatMap fun c =>
    if c.kind != secObg then []
    else
      let b := c.bytes f
      let at0 : Int := (fileNat b 8 8 : Int) - (lstStart s x + c.load : Nat)
      (List.range (fileNat b 0 2)).filterMap fun (k : Nat) =>
        let o : Int := at0 + 256 * (k : Int) + 160
        if 0 ≤ o && o + 8 ≤ (b.length : Int) then some (fileNat b o.toNat 8) else none

/-- 0x04 and 0x05: no OB asks for more slots or time than the header declares. -/
def checkSlots (cs : List Nat) (maxslot : Nat) : Bool := decide (maxslot ≤ 12) && cs.all fun c => decide (bits c 55 52 ≤ maxslot)
def checkTime (cs : List Nat) (maxdur : Nat) : Bool :=
  decide (1 ≤ maxdur) && decide (maxdur ≤ 200) && cs.all fun c => decide (bits c 63 56 ≤ maxdur)

/-- Edges that can be on a cycle: those whose target has an edge left; after enough rounds none remain of an acyclic graph. -/
def pruneEdges : Nat → List (Nat × Nat) → List (Nat × Nat)
  | 0, l => l
  | n + 1, l => pruneEdges n (l.filter fun e => l.any fun g => g.1 == e.2)

/-- 0x06: the declared graph without the edges that leave a seeded semaphore is acyclic; numbers are 1-63 (R108). -/
def checkWaits (y : SyncRecs) : Bool :=
  let num (n : Nat) : Bool := decide (1 ≤ n) && decide (n ≤ 63)
  (y.sems.all fun e => num e.1) && (y.edges.all fun e => num e.1 && num e.2) &&
  (pruneEdges 64 (y.edges.filter fun e => !(y.sems.any fun t => t.1 == e.1 && t.2 != 0))).isEmpty

/-- Token queues a stream engine consumes and produces (R267). -/
def consumes (px : Bool) : List Nat := if px then [0] else [1, 2, 4]
def produces (px : Bool) : List Nat := if px then [2, 6] else [3, 5]

def tokenOk (px : Bool) (d : BitVec 16) : Bool :=
  if d.getLsbD 15 then
    fld d 0 7 == 0 && (!d.getLsbD 14 || (consumes px).contains (fld d 11 3).toNat) &&
    (!d.getLsbD 10 || (produces px).contains (fld d 7 3).toNat)
  else d == 0

/-- 0x07; an engine byte above 1 names no engine (DEDUCED, log 29). -/
def checkTokens (y : SyncRecs) : Bool := y.streams.all fun e => decide (e.1 ≤ 1) && e.2.2.all (tokenOk (e.1 == 1))

def lstSection (c : Section) : Bool := c.kind == secLst || c.kind == secObg || c.kind == secSched
def ringSection (c : Section) : Bool := c.kind == secVe || c.kind == secPx

/-- 0x08. -/
def checkLst (s : State) (x : Nat) (f : List Byte) : Bool :=
  (fileSections f).all fun c => !lstSection c || decide (c.load + c.size ≤ (s.ctx x).d.lstq.toNat * 2 ^ 20)

/-- Home key of a translated byte, whatever the leaf's rights; HBM and capacity kind only (R107). -/
def sectionPlace (s : State) (x va : Nat) : Option Nat :=
  if windowMin ≤ va then none
  else match walk s.mem va 3 (s.ctx x).d.ptroot.toNat with
    | .error _ => none
    | .ok (sz, e) =>
      let pl := leafPlace e sz va
      if pl.kind = .hbm || pl.kind = .capacity then some pl.key else none

def translated (c : Section) : Bool := !lstSection c && !ringSection c && c.kind != secSync

/-- 0x09: every page of the translated sections. -/
def checkPages (s : State) (x : Nat) (f : List Byte) : Bool :=
  (fileSections f).all fun c => !translated c || c.size == 0 ||
    (List.range ((c.load + c.size - 1) / 65536 - c.load / 65536 + 1)).all fun k => (sectionPlace s x ((c.load / 65536 + k) * 65536)).isSome

/-- The status of a load: the first check that fails. -/
def loadStatus (s : State) (x : Nat) (f : List Byte) : BitVec 8 :=
  if !checkSig s f then 1
  else if !checkHeader f then 2
  else if !checkSections f then 3
  else
    let cs := obControls s x f
    if !checkSlots cs (fileNat f 24 1) then 4
    else if !checkTime cs (fileNat f 26 2) then 5
    else if !checkWaits (fileSync f) then 6
    else if !checkTokens (fileSync f) then 7
    else if !checkLst s x f then 8
    else if !checkPages s x f then 9
    else 0

/-! ## Loading (R107, R109) -/

/-- Bytes at consecutive addresses of one home. -/
def putBytes (s : State) (key : Nat) (b : List Byte) : State :=
  s.modMem fun m => (m.write key b.length (leN b)).clearFull [(key, b.length)]

/-- Bytes at translated addresses, cut at pages. -/
def putTranslated (x : Nat) : Nat → Nat → List Byte → State → State
  | 0, _, _, s => s
  | n + 1, va, b, s =>
    if b.isEmpty then s
    else
      let k := 65536 - va % 65536
      let s := match sectionPlace s x va with
        | some key => putBytes s key (b.take k)
        | none => s
      putTranslated x n (va + k) (b.drop k) s

/-- `.obg` with SCHED and NROW of its header from `.sched` (R107). -/
def obgBytes (s : State) (x : Nat) (f : List Byte) (c : Section) : List Byte :=
  let b := c.bytes f
  match sectionOf f secSched with
  | none => b
  | some d => if b.length < 36 then b else b.take 24 ++ bytesN 8 (lstStart s x + d.load) ++ bytesN 4 (d.size / 128) ++ b.drop 36

/-- One section to its place. -/
def loadSection (x : Nat) (f : List Byte) (s : State) (c : Section) : State :=
  if c.kind = secSync then s
  else if c.kind = secObg then putBytes s (lstStart s x + c.load) (obgBytes s x f c)
  else if lstSection c then putBytes s (lstStart s x + c.load) (c.bytes f)
  else if ringSection c then
    ((List.range 256).filter fun p => s.inPart x (clusterOf p)).foldl (fun s p => putBytes s (spBase + p * 2 ^ 20 + c.load) (c.bytes f)) s
  else putTranslated x (c.size / 65536 + 2) c.load (c.bytes f) s

/-- The ring descriptor of a section (R269). -/
def ringDescOf (f : List Byte) (kind : Nat) : BitVec 32 :=
  match sectionOf f kind with
  | none => 0
  | some c => BitVec.ofNat 32 (c.load / 1024 * 16 + ringFor c.size)

/-- Insert a stream record in ascending order of offset (R271). -/
def insertStream (e : Bool × Nat × List (BitVec 16)) : List (Bool × Nat × List (BitVec 16)) → List (Bool × Nat × List (BitVec 16))
  | [] => [e]
  | g :: l => if e.2.1 < g.2.1 then e :: g :: l else g :: insertStream e l

/-- What the loader keeps of the file. -/
def hofOf (f : List Byte) : Hof :=
  let y := fileSync f
  let base (kind : Nat) : Nat := ((sectionOf f kind).map (·.load)).getD 0
  let lk := fileNat f 16 8
  { ccpc := BitVec.ofNat 64 (base secCc + fileNat f 8 8)
    lkpc := if lk = 2 ^ 64 - 1 then none else some (BitVec.ofNat 64 (base secLk + lk))
    streams := y.streams.foldl (fun l e => insertStream (e.1 == 1, e.2) l) []
    sems := y.sems.foldl (fun m e => SMap.set 0 m e.1 e.2) []
    vring := ringDescOf f secVe
    pring := ringDescOf f secPx }

/-- Semaphores and rings of an image as the loader sets them (R109, R269). -/
def Image.loaded (h : Hof) (i : Image) : Image :=
  { i with
    ve := { i.ve with vring := h.vring, pring := h.pring }
    sync := { i.sync with sem := h.sems.map fun e => (e.1, e.2.setWidth 17) } }

/-- Waiters of a core's semaphores that the values now fit are granted (20 R426). -/
def Proc.served (v : Proc) : Proc :=
  (List.range 64).foldl (fun v n =>
    let r := semServe n v.img.sync v.semq
    { v with img := { v.img with sync := r.1 }, semq := r.2 }) v

/-- Every image of the context takes the loader's values; one of a core that has not run it takes them when it starts. -/
def installHof (s : State) (x : Nat) (h : Hof) : State :=
  let s := s.modCtx x fun c => { c with hof := some h }
  { s with
    procs := s.procs.map fun e => if e.2.ctxOf == some x && decide (e.1 < 256) then (e.1, { e.2 with img := e.2.img.loaded h }.served) else e
    saved := s.saved.map fun e => if e.1 / 512 = x then (e.1, e.2.map fun v => { v with img := v.img.loaded h }) else e }

def execHofLoad (ctx : Nat) (file : List Byte) (s : State) : Out :=
  if ctx < 16 then
    let st := loadStatus s ctx file
    let s := s.send (.loaderStatus ctx st)
    if st = 0 then .next (installHof ((fileSections file).foldl (loadSection ctx file) s) ctx (hofOf file)) else .next s
  else .fault .noSuchUnit

end Sys2Proof.Machine
end

