-- ==== Sys2Proof/Machine/Mgmt.lean ====
section
/-! DEFINITION. The management controller: reset, firmware, attestation, checkpoint and restore, spare takeover, errors,
health (28_bringup_and_management.md; 15 R348; 08 R192-R194; 22 R461). -/

namespace Sys2Proof.Machine

/-! ## Parts of memory (R181, R190, R191) -/

def inLstKey (k : Nat) : Bool := decide (lstBase ≤ k) && decide (k < lstBase + Config.lstBytes)
/-- The safe tier: the top SAFESZ GiB of the capacity tier. -/
def inSafe (s : State) (k : Nat) : Bool :=
  decide (Config.capEnd - s.mod.safesz.toNat * 2 ^ 30 ≤ k) && decide (k < Config.capEnd)

/-- Memory with only the bytes a predicate on home keys and values names, and the poison of sectors another names. -/
def Memory.keep (m : Memory) (f : Nat → Byte → Bool) (g : Nat → Bool) : Memory :=
  { Memory.reset with bytes := m.bytes.filter fun e => f e.1 e.2, poison := m.poison.filter fun e => g (e.1 * 128) }

/-- A byte of the safe tier is retained without power: a checkpoint has completed since it was stored (R191). -/
def retained (s : State) (k : Nat) (v : Byte) : Bool :=
  inSafe s k && match s.mod.image with
    | some i => SMap.get 0 i.safe k == v
    | none => false

/-! ## Reset (R475, R480) -/

/-- The state cards' reset values, with what a reset of any kind keeps: the memory given, flash and identity, node, sizes and
port set-up, the last complete checkpoint (R480, R481). Every cluster is present again and CLMAP 0, while HFLAG keeps DEG
(DESIGN CHOICE, log 45). -/
def afterReset (s : State) (mem : Memory) : State :=
  let r := State.reset
  { r with
    mem := mem
    links := { r.links with mtu := s.links.mtu, split := s.links.split }
    mod := { r.mod with
      node := s.mod.node, safesz := s.mod.safesz, bring := s.mod.bring, ckseq := s.mod.ckseq, ckgts := s.mod.ckgts
      image := if s.mod.ckbusy then none else s.mod.image
      flash := s.mod.flash, flashSig := s.mod.flashSig, keys := s.mod.keys
      health := s.mod.health, flashHealth := s.mod.flashHealth }
    agenda := s.agenda, actor := s.actor, free := s.free, out := s.out }

/-- Step 1 of the reset order: the image runs, or the controller enters recovery (R475). -/
def bootCheck (s : State) : State :=
  let ok := sigVerifies Config.vendorKey s.mod.flash s.mod.flashSig
  s.modMod fun m => { m with powered := true, up := ok, recovery := !ok }

/-- Power is lost: what the safe tier retains, flash and identity remain (R191, R461, R481). -/
def powerOff (s : State) : State :=
  (afterReset s (s.mem.keep (retained s) (inSafe s))).modMod fun m => { m with powered := false, up := false, health := m.flashHealth }

def execPowerLoss (s : State) : Out := .next (if s.mod.powered then powerOff s else s)

/-- What memory keeps where the safe tier is discarded. -/
def withoutSafe (s : State) : Memory := s.mem.keep (fun k _ => !inSafe s k) fun k => !inSafe s k

/-- Step 2 of the reset order: the controller sets SAFESZ, NODE (R480), the path MTU and the width of the ports (R350) as its
set-up says. Another SAFESZ discards what the safe tier retained, a checkpoint among it, and leaves `m` (R191). -/
def bringUp (s : State) (m : Memory) : State :=
  let b := s.mod.bring
  let s := if b.safesz = s.mod.safesz then s
    else { s with mem := m, mod := { s.mod with safesz := b.safesz, image := none } }
  (s.modMod fun k => { k with node := b.node }).modLinks fun l => { l with mtu := b.mtu, split := b.split }

/-- Power returns (R475, R480). With power on nothing happens. -/
def execPowerOnReset (s : State) : Out :=
  if s.mod.powered then .next s else .next (bootCheck (bringUp s Memory.reset))

/-- The outside gives the management controller the set-up of the next bring-up (28 R480); one out of its ranges (08 R191, 16 R350,
R355) is not taken. -/
def setUp (b : BringUp) (s : State) : State :=
  if b.safesz.toNat ≤ 400 && b.node.toNat < 768 && b.mtu.toNat < 3 then s.modMod fun m => { m with bring := b } else s

/-- Module reset keeps LST, HBM and the safe tier, GTS, the health store, CKSEQ and the identity (R480). -/
def resetModule (s : State) : State :=
  let kept (k : Nat) : Bool := inLstKey k || inHbm k || inSafe s k
  let r := afterReset s (s.mem.keep (fun k _ => kept k) kept)
  let r := r.modMod fun m => { m with gts := s.mod.gts, pet := s.mod.gts, refills := s.mod.refills, rotations := s.mod.rotations }
  bootCheck (bringUp r (withoutSafe r))

def execModuleReset (s : State) : Out := .next (if s.mod.powered then resetModule s else s)

/-- In recovery an image that verifies is written to flash and the controller reboots; another is not written (R475).
Outside recovery nothing happens. -/
def execFirmwareRecovery (image sig : List Byte) (s : State) : Out :=
  if s.mod.recovery && sigVerifies Config.vendorKey image sig then
    let s := s.modMod fun m => { m with flash := image, flashSig := sig }
    .next (bootCheck (bringUp s (withoutSafe s)))
  else .next s

/-- The key store an image brings (R476). -/
def keyStore (l : List (Option (BitVec 768))) : SMap (Option (BitVec 768)) :=
  (List.range 16).foldl (fun m k => SMap.set none m k (l.getD k none)) []

/-- A signed image is installed with FORCE set; running contexts go on (R475, R476). Otherwise nothing happens. -/
def execFirmwareUpdate (image sig : List Byte) (keys : Option (List (Option (BitVec 768)))) (s : State) : Out :=
  if s.mod.up && s.mod.force && sigVerifies Config.vendorKey image sig then
    .next (s.modMod fun m => { m with flash := image, flashSig := sig, keys := match keys with
      | some l => keyStore l
      | none => m.keys })
  else .next s

/-! ## Attestation (R477) -/

/-- Bit i: logical cluster i is served by a spare. -/
def clmap (s : State) : Nat := (List.range 64).foldl (fun n c => n + if (s.cluster c).spared then 2 ^ c else 0) 0

/-- The 16 key-store slots in order, empty ones as zeros. -/
def keyBytes (s : State) : List Byte :=
  (List.range 16).flatMap fun k => (bytesN 96 ((SMap.get none s.mod.keys k).getD 0).toNat).reverse

/-- Bytes 0-159 of a report. -/
def reportBody (s : State) (nonce : BitVec 256) : List Byte :=
  bytesN 4 0x00545441 ++ bytesN 2 1 ++ bytesN 2 s.mod.node.toNat ++ bytesN 8 s.gts ++
  (bytesN 48 (sha384 s.mod.flash).toNat).reverse ++ bytesN 32 nonce.toNat ++ bytesN 8 s.mod.health.hflag.toNat ++
  bytesN 8 (clmap s) ++ (bytesN 48 (sha384 (keyBytes s)).toNat).reverse

def execAttestationReport (nonce : BitVec 256) (s : State) : Out :=
  if s.mod.powered then
    let b := reportBody s nonce
    .next (s.send (.report (b ++ (bytesN 96 (Config.identitySign b).toNat).reverse)))
  else .next s

/-! ## Checkpoint and restore (R481, R482) -/

/-- GO: rejected with ERR, or every ACTIVE context is suspended and traffic is held. -/
def checkpointOp (s : State) : State :=
  if s.mod.safesz.toNat < 390 || s.mod.ckbusy then s.modMod fun m => { m with ckerr := true }
  else
    let s := (List.range 16).foldl (fun s x => if (s.ctx x).d.st = .active && !(s.ctx x).suspending then suspendOp s x else s) s
    s.modMod fun m => { m with ckbusy := true, ckerr := false }

def execCheckpoint (s : State) : Out := .next (checkpointOp s)

/-- Steps 1 and 2 are done: no context is ACTIVE, every core is at a brick boundary, lookup cores have finished their job,
every access and post has performed. -/
def quiescent (s : State) : Bool :=
  ((List.range 16).all fun x => (s.ctx x).d.st != .active) &&
  (s.procs.all fun e => (e.2.bricks.all fun b => b.2.isNone) && e.2.coh.acks.isEmpty) &&
  (s.lookups.all fun e => e.2.cur.isNone && e.2.kbags.isEmpty) && !anyCommand s (fun _ => true) &&
  s.fl.remotes.isEmpty && s.fl.deliveries.isEmpty && s.fl.posts.isEmpty

/-- The image: LST and HBM with poison, the tables, and the saved images of every context; cores that still hold one are
copied as a save would leave them (R345, R371, R481). -/
def checkpointImage (s : State) : Checkpoint :=
  let t := (List.range 256).foldl (fun s p => saveCore s p false) s
  let t := (List.range 16).foldl (fun s x => if (s.ctx x).d.st = .idle then saveTiles s x else s) t
  { mem := t.mem.bytes.filter fun e => inLstKey e.1 || inHbm e.1
    poison := t.mem.poison.filter fun e => inLstKey (e.1 * 128) || inHbm (e.1 * 128)
    safe := s.mem.bytes.filter fun e => inSafe s e.1
    ctxs := t.ctxs, steppers := t.steppers, qps := t.links.qps, wins := t.links.wins, saved := t.saved, startTvec := t.startTvec
    bricks := t.clusters.foldl (fun m e => SMap.set [] m e.1 e.2.brickq) []
    walks := t.clusters.foldl (fun m e => SMap.set [] m e.1 e.2.walk) []
    safesz := s.mod.safesz, seq := s.mod.ckseq + 1 }

/-- Step 4; before the checkpoint can complete nothing happens. -/
def execCheckpointComplete (s : State) : Out :=
  if s.mod.ckbusy && quiescent s then
    .next (s.modMod fun m =>
      { m with image := some (checkpointImage s), ckseq := m.ckseq + 1, ckgts := m.gts, ckbusy := false })
  else .next s

/-- A context as it stood, SUSPENDED. -/
def Ctx.restored (c : Ctx) : Ctx :=
  if c.d.st = .free then c else { c with d := { c.d with st := .suspended }, busy := false, suspending := false }

/-- Bytes and poison of LST and HBM as in the image, the rest as it stands. -/
def restoreMemory (m : Memory) (i : Checkpoint) : Memory :=
  let out (k : Nat) : Bool := !(inLstKey k || inHbm k)
  { m with
    bytes := i.mem.foldl (fun t (e : Nat × Byte) => SMap.set 0 t e.1 e.2) (m.bytes.filter fun e => out e.1)
    poison := i.poison.foldl (fun t (e : Nat × Bool) => SMap.set false t e.1 e.2) (m.poison.filter fun e => out (e.1 * 128)) }

/-- The queued bricks of clusters that have become absent are placed again (01 R13). -/
def replaceAbsent (s : State) : State :=
  (List.range 64).foldl (fun s c =>
    if s.present c then s
    else
      let q := (s.cluster c).brickq
      q.foldl (fun s b => requeue s c b) (s.modCluster c fun k => { k with brickq := [] })) s

/-- RESTORE, in one step (DEDUCED, log 32): rejected with ERR, or the image is copied back. -/
def restoreOp (s : State) : State :=
  match s.mod.image with
  | some i =>
    if s.mod.ckbusy || i.safesz ≠ s.mod.safesz || !((List.range 16).all fun x => (s.ctx x).d.st == .free) then
      s.modMod fun m => { m with ckerr := true }
    else
      let s := { s with
        mem := restoreMemory s.mem i
        ctxs := i.ctxs.map fun (e : Nat × Ctx) => (e.1, e.2.restored)
        steppers := i.steppers, saved := i.saved, startTvec := i.startTvec }
      let s := (List.range 64).foldl (fun s c => s.modCluster c fun k =>
        { k with brickq := SMap.get [] i.bricks c, walk := SMap.get [] i.walks c }) s
      let s := (s.modLinks fun l => { l with qps := i.qps, wins := i.wins }).modMod fun m => { m with ckerr := false }
      replaceAbsent s
  | none => s.modMod fun m => { m with ckerr := true }

def execRestore (s : State) : Out := .next (restoreOp s)

/-! ## Spare takeover (15 R348, R483, 01 R13) -/

/-- n sectors from `lo` are poisoned. -/
def Memory.poisonRange (m : Memory) (lo n : Nat) : Memory :=
  { m with poison := (m.poison.filter fun e => decide (e.1 < lo)) ++ ((List.range n).map fun k => (lo + k, true)) ++
      m.poison.filter fun e => decide (lo + n ≤ e.1) }

/-- Scratchpads, cluster-shared memory and lane slices of a cluster are poisoned. -/
def poisonCluster (m : Memory) (cl : Nat) : Memory :=
  let m := m.poisonRange ((shBase + cl * 2 ^ 22) / 128) (2 ^ 15)
  let m := (List.range 4).foldl (fun m k => m.poisonRange ((spBase + (cl * 4 + k) * 2 ^ 20) / 128) (Config.spBytes / 128)) m
  m.poisonRange (laneKey (cl * 4) 0 0 / 128) (2 ^ 12)

/-- A brick whose commands or core are lost: requeued if restartable, else poisoned with a record of ECCU and UNIT 7. -/
def lostBrick (s : State) (p : Nat) (tag : BitVec 3) : State :=
  match s.brick p tag with
  | none => s
  | some b =>
    let s := discardTag (haltCommands s p (some tag) false) p tag
    if b.live && b.b.rst then abortBrick s p tag
    else if b.live then brickFault s p tag { cause := .eccu, unit := 7, core := p, loc := b.b.ob } true
    else s

/-- Queued bricks whose storage is lost retire POISONED with records (R348 step 4). -/
def loseQueued (s : State) (l : List Brick) : State :=
  l.foldl (fun s b =>
    let x := b.ctx.toNat
    let s := writeRecord s x .poison { cause := .eccu, unit := 7, loc := b.ob, brick := some (b.word 0 false false) }
    bricksGone (poisonObBricks s x b.graph b.primary) x b.graph b.primary 1 true 0) s

/-- The storage of a cluster's brick queue is lost: its 512 entries; what waits behind them is the Mason's. -/
def loseBrickQueue (s : State) (cl : Nat) : State :=
  let q := (s.cluster cl).brickq
  loseQueued (s.modCluster cl fun c => { c with brickq := q.drop 512 }) (q.take 512)

/-- Bricks of other cores whose chains run on the hods of a core. -/
def foreignChains (s : State) (p : Nat) : List (Nat × BitVec 3) :=
  ([.hl, .hs].filterMap fun e => engineCap (s.proc p) e).filterMap fun c => if c.core = p then none else some (c.core, c.tag)

/-- A core's state is lost (steps 2, 3 and 6). -/
def loseCore (s : State) (p : Nat) : State :=
  let s := (foreignChains s p).foldl (fun s e => lostBrick s e.1 e.2) s
  let tags := (s.proc p).bricks.map fun e => BitVec.ofNat 3 e.1
  let s := tags.foldl (fun s t => retireBrick (lostBrick s p t) p t) s
  let s := leaseDrop (returnHeld (haltCommands (discardCore s p) p none false) p) p
  let s := s.modFl fun f => { f with remotes := f.remotes.filter fun r => r.q != p }
  let s := match (s.proc p).ctxOf with
    | none => s
    | some x =>
      let s := dropPending s x fun a => match a with
        | .stopCc q => q == p
        | .stopEng q _ => q == p
        | .park _ _ => false
      s.setSaved x p (some ⟨startImage s x p, [], false, 0⟩)
  s.setProc p Proc.reset

/-- A spare serves the logical number, or the number becomes absent and its queued bricks are placed again. -/
def replaceCluster (s : State) (cl : Nat) : State :=
  if s.mod.spares = 0 then
    let q := (s.cluster cl).brickq
    let s := s.modCluster cl fun c => { c with absent := true, brickq := [] }
    let s := q.foldl (fun s b => requeue s cl b) s
    s.modMod fun m => { m with health := { m.health with hflag := m.health.hflag ||| 4 } }
  else (s.modCluster cl fun c => { c with spared := true }).modMod fun m => { m with spares := m.spares - 1 }

/-- The spare's tile table starts with every entry EMPTY (R371). -/
def emptyTiles (s : State) (cl : Nat) : State :=
  ((s.cluster cl).tiles.map fun t => t.1).foldl (fun s t => tileChange s cl t Tile.empty) s

/-- The takeover of a failed cluster, as one step (R348). -/
def execSpareTakeover (c : ClusterLoss) (s : State) : Out :=
  let cluster := c.cluster
  if cluster < 64 && s.present cluster then
    let s := if c.queueLost then loseBrickQueue s cluster else s
    let s := (List.range 4).foldl (fun s k => loseCore s (cluster * 4 + k)) s
    let s := s.modPress cluster fun pr =>
      { pr with slots := pr.slots.filterMap fun e => e.2.bind fun sl =>
          if sl.carried then some (e.1, some { sl with pz := true, el := [] }) else none }
    .next (replaceCluster (emptyTiles (s.modMem fun m => poisonCluster m cluster) cluster) cluster)
  else if cluster < 64 then .next s
  else .fault .noSuchUnit

/-! ## Errors (08 R192-R194, 19 R408, 22 R461) -/

/-- Class of the health store's counters: the rows of R192 in order, 6 for what no row names (DEDUCED, log 30). -/
def siteClass : ErrorSite → Nat
  | .sector key => if inCap key then 5 else 0
  | .l1 _ _ => 1
  | .tile _ _ => 2 | .queue _ => 2 | .brickQueue _ _ => 2 | .contextTable _ => 2 | .region _ _ => 2 | .reuse _ _ => 2
  | .register _ _ => 3 | .core _ => 3 | .replay _ => 3
  | .accumulator _ _ _ _ _ => 4
  | .corrected _ c => min c 6
  | .bucket _ => 6 | .burst _ => 6 | .perf _ _ => 6 | .signature _ _ _ => 6 | .sigSlot _ _ => 6 | .transCache _ _ => 6
  | .trace _ _ => 6

/-- A saturating count of corrected (even key) or uncorrectable (odd key) errors. -/
def countError (s : State) (k : Nat) : State :=
  s.modMod fun m => { m with health := { m.health with
    errors := let v := SMap.get 0 m.health.errors k; SMap.set 0 m.health.errors k (if v = BitVec.allOnes 32 then v else v + 1) } }

/-- A context's current bricks retire poisoned with fault records; with none, the record alone is written (R192). -/
def poisonCurrent (s : State) (x : Nat) : State :=
  let r : Rec := { cause := .eccu, unit := 7 }
  let l := (coresOf s x).filterMap fun p => (s.proc p).cur.map fun t => (p, t)
  let ob (p : Nat) (t : BitVec 3) : Nat := match s.brick p t with
    | some b => b.b.ob
    | none => 0
  if l.isEmpty then writeRecord s x .note r
  else l.foldl (fun s e => brickFault s e.1 e.2 { r with core := e.1, loc := ob e.1 e.2 } true) s

/-- The context a core runs, or a lookup core is assigned to. -/
def queueOwner (s : State) (p : Nat) : Option Nat :=
  if p < 256 then (s.proc p).ctxOf else if (s.lookup (p - 256)).v then some (s.lookup (p - 256)).ctx.toNat else none

/-- What an error at a site does. -/
def errorAt (s : State) : ErrorSite → State
  | .core p =>
    if hardEligible s p then hardPreemptCore s p
    else
      let l := (s.proc p).liveBricks
      let s := l.foldl (fun s e => if e.2.b.rst then lostBrick s p e.1 else s) s
      if l.isEmpty then s else coreFault s p (ccRecord s p .eccu 0 false 0 false) true
  | .register p none => match (s.proc p).run with
    | .running _ => takeFault s p .eccu
    | _ => s
  | .register p (some e) => engineInHand s p e .eccu 0 (siteOf s ⟨p, some e, 0, p⟩)
  | .sector key => s.modMem fun m => m.setPoison (key / 128) true
  | .tile cl tid =>
    let t := s.tile cl tid
    let s := tileChange s cl tid Tile.empty
    if t.st = 0 then s else poisonCurrent s t.ctx
  | .queue p => match queueOwner s p with
    | some x => poisonCurrent s x
    | none => s
  | .brickQueue cl k => match ((s.cluster cl).brickq.take 512)[k]? with
    | some b => poisonCurrent (loseQueued (s.modCluster cl fun c => { c with brickq := c.brickq.eraseIdx k }) [b]) b.ctx.toNat
    | none => s
  | .contextTable x => if (s.ctx x).d.st = .free then s else poisonCurrent s x
  | .region x r =>
    writeRecord (modRegion s x r fun g => { g with pzn := true, tgen := g.tgen + 1 }) x .note { cause := .eccu, unit := 7 }
  | .reuse x e => writeRecord (modReuse s x e fun g => { g with cv := false }) x .note { cause := .eccu, unit := 7 }
  | .accumulator cl k row col res =>
    s.modPress cl fun pr => match SMap.get none pr.slots k with
      | some sl =>
        let i := row * 128 + col
        { pr with slots := SMap.set none pr.slots k (some { sl with
            el := SMap.set Acc.zero sl.el i { SMap.get Acc.zero sl.el i with res := res } }) }
      | none => pr
  | .bucket cl => s.modCluster cl fun c => { c with pow := { c.pow with level := 0 } }
  | .burst p => s.modProc p fun v => { v with burst := none }
  | .perf cl k => s.modCluster cl fun c => { c with obs := { c.obs with perf := SMap.set 0 c.obs.perf k 0 } }
  | .signature p post prv => s.modCoh p fun c =>
    match post, prv with
    | true, true => { c with psPrv := allOnes }
    | true, false => { c with psCur := allOnes }
    | false, true => { c with wsPrv := allOnes }
    | false, false => { c with wsCur := allOnes }
  | .sigSlot home key =>
    let full (m : Memory) : Word := BitVec.ofNat 64 (max (SMap.get 0 m.fullto home).toNat (s.gts + 65536))
    if s.mem.slots.any fun t => t.home == home && t.key == key then
      s.modMem fun m => { m with
        slots := m.slots.filter fun t => !(t.home == home && t.key == key), fullto := SMap.set 0 m.fullto home (full m) }
    else s
  | .transCache asid vpn => s.modMem fun m => { m with trans := m.trans.filter fun t => !(t.asid.toNat == asid && t.vpn == vpn) }
  | .replay p =>
    if p < 256 then
      let s := perfAdd s (clusterOf p) 0x40 0 0 1
      perfAdd s (clusterOf p) 0x41 p ((s.proc p).ctxOf.getD 0) 1
    else s
  | .trace cl slot => s.modCluster cl fun c =>
    let v := SMap.get 0 c.obs.trace slot
    { c with obs := { c.obs with trace := SMap.set 0 c.obs.trace slot (v ||| seqBusy) } }
  | .l1 p vsec => s.modCoh p fun c => { c with l1 := SMap.set none c.l1 vsec none }
  | .corrected cl _ => perfAdd s cl 0x40 0 0 1

/-- The numbers of a site exist. -/
def siteExists : ErrorSite → Bool
  | .core p => decide (p < 256) | .register p _ => decide (p < 272) | .sector _ => true
  | .tile c t => decide (c < 64) && decide (t < 4095) | .queue p => decide (p < 272)
  | .brickQueue c k => decide (c < 64) && decide (k < 512) | .contextTable x => decide (x < 16)
  | .region x r => decide (x < 16) && decide (r < 1023) | .reuse x e => decide (x < 16) && decide (e < 4096)
  | .accumulator c k r l _ => decide (c < 64) && decide (k < 12) && decide (r < 128) && decide (l < 128)
  | .bucket c => decide (c < 64) | .burst p => decide (p < 256) | .perf c k => decide (c < 64) && decide (k < 32)
  | .signature p _ _ => decide (p < 272) | .sigSlot h _ => decide (h < 416) | .transCache _ _ => true
  | .trace c k => decide (c < 64) && decide (k < 128) | .l1 p _ => decide (p < 272) | .corrected c _ => decide (c < 64)
  | .replay p => decide (p < 272)

/-- An error that its array corrects, or that replay clears. -/
def siteCorrected : ErrorSite → Bool
  | .corrected _ _ => true
  | .replay _ => true
  | _ => false

/-- A hardware error is counted and takes its path. -/
def execHardwareError (site : ErrorSite) (s : State) : Out :=
  if siteExists site then
    .next (errorAt (countError s (2 * siteClass site + if siteCorrected site then 0 else 1)) site)
  else .fault .noSuchUnit

/-- A scrub changes no byte: a correction is written back only where no store has come since, and is counted (R194). -/
def execScrub (_key : Nat) (corrected : Bool) (s : State) : Out := .next (if corrected then countError s 0 else s)

/-! ## Health (22 R461) -/

def execHealthStoreFlush (s : State) : Out := .next (s.modMod fun m => { m with flashHealth := m.health })

/-- Physical clusters. -/
def physicalClusters : Nat := 68

/-- A reading of a physical cluster's ageing monitor, with the hours of life it leaves. -/
def execAgeingMonitor (cluster : Nat) (ppm : BitVec 16) (eol : BitVec 32) (s : State) : Out :=
  if cluster < physicalClusters then
    let aged := decide (30000 < ppm.toInt) || decide (eol.toNat < 8760)
    .next (s.modMod fun m =>
      let h := m.health
      { m with health := { h with
          ageing := SMap.set 0 h.ageing cluster ppm, eol := eol, hflag := if aged then h.hflag ||| 8 else h.hflag } })
  else .fault .noSuchUnit

end Sys2Proof.Machine
end

