-- ==== Sys2Proof/Machine/Mmio.lean ====
section
/-! DEFINITION. The MMIO registers (28_bringup_and_management.md R478, R479; 02 R17, R18; 14 R303, R318; 15 R334, R342; 16
R351, R353; 17 R377, R379; 18 R401; 21 R440, R448, R453; 22 R456-R461), read and written as 64-bit words. -/

namespace Sys2Proof.Machine

/-- The bits of `v` under `m`, the rest of `old`. -/
def mergeW (old v m : Word) : Word := (old &&& ~~~m) ||| (v &&& m)
/-- A word from fields given as values and places. -/
def pack (l : List (Nat × Nat)) : Word := BitVec.ofNat 64 (l.foldl (fun n e => n + e.1 * 2 ^ e.2) 0)
def bit1 (b : Bool) : Nat := if b then 1 else 0

/-! ## Context descriptors (R17, R18) -/

def CtxState.code : CtxState → Nat
  | .free => 0 | .idle => 1 | .active => 2 | .suspended => 3

/-- A descriptor as 256 bits. -/
def Desc17.word (d : Desc17) : Nat :=
  d.part.toNat * 2 ^ 192 + d.ptroot.toNat * 2 ^ 162 + d.asid.toNat * 2 ^ 146 + d.lstb.toNat * 2 ^ 133 + d.lstq.toNat * 2 ^ 120 +
  d.share.toNat * 2 ^ 16 + d.prio.toNat * 2 ^ 13 + bit1 d.fmode * 2 ^ 12 + bit1 d.seqv * 2 ^ 11 + d.seq.toNat * 2 ^ 8 +
  bit1 d.err * 4 + d.st.code

/-- The fields after a write that gives the descriptor's 256 bits; most are latched outside FREE (R18). -/
def Desc17.write (d : Desc17) (v : BitVec 256) : Desc17 :=
  let d := { d with share := fld v 16 8, prio := fld v 13 3 }
  if d.st = .free then
    { d with part := fld v 192 64, ptroot := fld v 162 30, asid := fld v 146 16, lstb := fld v 133 13, lstq := fld v 120 13,
             fmode := v.getLsbD 12, seqv := v.getLsbD 11, seq := fld v 8 3 }
  else d

/-- A command of the descriptor; other codes are ignored. -/
def ctxCode (s : State) (x : Nat) (c : Nat) : State :=
  match c with
  | 1 => createOp s x
  | 2 => suspendOp s x
  | 3 => resumeOp s x
  | 4 => destroyOp s x
  | _ => s

def descRead (s : State) (x w : Nat) : Word := BitVec.ofNat 64 ((s.ctx x).d.word / 2 ^ (64 * w))

def descWrite (s : State) (x w : Nat) (v m : Word) : State :=
  let old := (s.ctx x).d.word
  let new : BitVec 256 := BitVec.ofNat 256 (old - old / 2 ^ (64 * w) % 2 ^ 64 * 2 ^ (64 * w) +
    (mergeW (descRead s x w) v m).toNat * 2 ^ (64 * w))
  let s := s.modCtx x fun c => { c with d := c.d.write new }
  if w = 0 then ctxCode s x (fld (v &&& m) 28 4).toNat else s

/-! ## Registers of a context (R401, R334, R342, R479, R355) -/

def FaultQ.word (q : FaultQ) : Word :=
  pack [(bit1 q.nen, 49), (q.ncore.toNat, 41), (q.nsc.toNat, 33), (q.lost.toNat, 25), (q.pend.length, 16), (q.count, 0)]

def ctxRegRead (c : Ctx) (r : Nat) : Word :=
  match r with
  | 0 => c.arg
  | 1 => pack [(c.cmdN.toNat, 44), (c.sts.toNat, 4), (bit1 c.stp, 3)]
  | 2 => c.fq.word
  | 3 => pack [(bit1 c.hard, 2), (bit1 c.busy, 1)]
  | 4 => c.saveb
  | 5 => c.gid.setWidth 64
  | _ => 0

/-- Fault-queue control: LOST is W1C (R334). -/
def FaultQ.write (q : FaultQ) (v m : Word) : FaultQ :=
  let n := mergeW q.word v m
  { q with nen := n.getLsbD 49, ncore := fld n 41 8, nsc := fld n 33 8, lost := q.lost &&& ~~~(fld (v &&& m) 25 8) }

def savebMask : Word := 0x00003FFFC0000000

def ctxRegWrite (s : State) (x r : Nat) (v m : Word) : State :=
  let n := mergeW (ctxRegRead (s.ctx x) r) v m
  match r with
  | 0 => s.modCtx x fun c => { c with arg := n }
  | 1 => launchCode x (fld (v &&& m) 0 3).toNat (fld n 44 20) (n.getLsbD 3) s
  | 2 => s.modCtx x fun c => { c with fq := c.fq.write v m }
  | 3 =>
    let s := s.modCtx x fun c => { c with hard := n.getLsbD 2 }
    if (v &&& m).getLsbD 0 then (if n.getLsbD 2 then hardSuspendOp s x else suspendOp s x) else s
  | 4 => s.modCtx x fun c => { c with saveb := n &&& savebMask }
  | 5 => s.modCtx x fun c => { c with gid := fld n 0 12 }
  | _ => s

/-! ## Tables of 128-bit entries (R318, R351, R353) -/

def half (e : BitVec 128) (hi : Bool) : Word := if hi then fld e 64 64 else fld e 0 64
def withHalf (e : BitVec 128) (hi : Bool) (v : Word) : BitVec 128 := if hi then v ++ fld e 0 64 else fld e 64 64 ++ v

def dirReserved : BitVec 128 := 0x7000000000000000FFFFC00000000000
/-- An entry with V = 1 that R318 accepts. -/
def dirOk (e : BitVec 128) : Bool :=
  fld e 118 2 != 3 && e &&& dirReserved == 0 && fld e 0 7 == 0 && fld e 64 32 != 0 && fld e 96 12 != 0 &&
  decide (dirRowBytes e ≤ dirStride e) && inCap (dirBase e) && inCap (dirBase e + dirRows e * dirStride e - 1)

/-- A write to half an entry: ignored where it would leave a valid entry out of its limits (R318). Setting V empties the L2 of
the range, which holds no byte of its own here (R319). -/
def dirWrite (s : State) (t : Nat) (hi : Bool) (v m : Word) : State :=
  let old := SMap.get 0 s.links.dir t
  let e := withHalf old hi (mergeW (half old hi) v m)
  if e.getLsbD 127 && !dirOk e then s
  else s.modLinks fun l => { l with dir := SMap.set 0 l.dir t (e &&& ~~~dirReserved) }

def winReserved : BitVec 128 := 0x0000000000000000FFF0000000000000
def winWrite (s : State) (w : Nat) (hi : Bool) (v m : Word) : State :=
  let old := SMap.get 0 s.links.wins w
  let e := withHalf old hi (mergeW (half old hi) v m) &&& ~~~winReserved
  s.modLinks fun l => { l with wins := SMap.set 0 l.wins w e }

def qpReserved : BitVec 128 := 0x000000FFFFFF000000000000000000FF
/-- Fields other than STATE are writable in RESET only; states 5-7 are ignored; entering RTR restarts the count of messages,
entering ERR ends the accesses (R351, R352, R354). -/
def qpWrite (s : State) (q : Nat) (hi : Bool) (v m : Word) : State :=
  let old := qpOf s q
  let new := withHalf old hi (mergeW (half old hi) v m) &&& ~~~qpReserved
  let st := if qpState new ≤ 4 then qpState new else qpState old
  let e := withState (if qpState old = 0 then new else old) st
  let s := setQp s q e
  let s := if st = 2 && qpState old ≠ 2 then s.modLinks fun l => { l with recv := SMap.set 0 l.recv q 0 } else s
  if st = 4 && qpState old ≠ 4 then enterErr s q else s

def execCapacityDirectoryWrite (t : Nat) (hi : Bool) (v : BitVec 64) (s : State) : Out :=
  if t < 256 then .next (dirWrite s t hi v (BitVec.allOnes 64)) else .fault .noSuchUnit

def execQueuePairWrite (q : Nat) (hi : Bool) (v : BitVec 64) (s : State) : Out :=
  if q < queuePairs then .next (qpWrite s q hi v (BitVec.allOnes 64)) else .fault .noSuchUnit

/-- Word w of a domain member bitmap. -/
def memberWrite (s : State) (x w : Nat) (v m : Word) : State :=
  s.modCtx x fun c =>
    let n := mergeW (fld c.member (64 * w) 64) v m
    { c with member := (c.member &&& ~~~((BitVec.allOnes 64).setWidth 768 <<< (64 * w))) ||| (n.setWidth 768 <<< (64 * w)) }

/-! ## Module and checkpoint control (R478) -/

def moduleWord (s : State) : Word := pack [(s.mod.spares.toNat, 21), (s.mod.safesz.toNat, 10), (s.mod.node.toNat, 0)]
def checkpointWord (s : State) : Word := pack [(s.mod.ckseq.toNat, 32), (bit1 s.mod.ckerr, 3), (bit1 s.mod.ckbusy, 2)]

def checkpointWrite (s : State) (v : Word) : State :=
  match v.getLsbD 0, v.getLsbD 1 with
  | true, true => s.modMod fun m => { m with ckerr := true }
  | true, false => checkpointOp s
  | false, true => restoreOp s
  | false, false => s

/-! ## Health store (R461); where its items stand is a free value (log 30) -/

/-- The items in the order of R461: 14 error counters, 24 bins, powered time, trips, 68 monitors, EOL, HFLAG. -/
def healthItem (h : Health) (k : Nat) : Word :=
  if k < 14 then (SMap.get 0 h.errors k).setWidth 64
  else if k < 38 then (SMap.get 0 h.histogram (k - 14)).setWidth 64
  else if k = 38 then h.powered
  else if k = 39 then h.trips.setWidth 64
  else if k < 108 then (SMap.get 0 h.ageing (k - 40)).setWidth 64
  else if k = 108 then h.eol.setWidth 64
  else if k = 109 then h.hflag
  else 0

/-- HFLAG: TRIP and TOOB are W1C; every other item is read-only. -/
def healthWrite (s : State) (k : Nat) (v : Word) : State :=
  if k = 109 then s.modMod fun m => { m with health := { m.health with hflag := m.health.hflag &&& ~~~(v &&& 3) } } else s

/-! ## Bank formats and weights (R377, R379) -/

/-- Eight bytes of the bank format table. -/
def formatRead (s : State) (o : Nat) : Word :=
  BitVec.ofNat 64 ((List.range 8).foldl (fun n i => n + (SMap.get 0 s.mem.bankfmt (o + i)).toNat * 2 ^ (8 * i)) 0)

def formatWrite (s : State) (o : Nat) (v m : Word) : State :=
  (List.range 8).foldl (fun s i =>
    let f : BitVec 5 := fld v (8 * i) 5
    if m.getLsbD (8 * i) && decide (f.toNat ≤ 20) then s.modMem fun k => { k with bankfmt := SMap.set 0 k.bankfmt (o + i) f } else s) s

/-- Four shadow weights, or COMMIT. -/
def weightRead (s : State) (cl r : Nat) : Word :=
  let wt := (s.cluster cl).wt
  if r < 0x80 then pack ((List.range 4).map fun i => ((weightOf wt.shadow (r / 2 + i)).toNat, 16 * i))
  else if r = 0x80 then pack [(wt.ccnt.toNat, 32)] else 0

def weightWrite (s : State) (cl r : Nat) (v m : Word) : State :=
  if r < 0x80 then
    (List.range 4).foldl (fun s i =>
      if m.getLsbD (16 * i) then s.modCluster cl fun c => { c with wt := { c.wt with
          shadow := let w := fld v (16 * i) 16
            SMap.set none c.wt.shadow (r / 2 + i) (if w = weightDefault (r / 2 + i) then none else some w) } }
      else s) s
  else if r = 0x80 && (v &&& m).getLsbD 0 then commitWeights s cl else s

/-! ## Watchdog, quota and power blocks (R453, R448, R440) -/

def watchdogWord (s : State) : Word := pack [(bit1 s.mod.force, 2), (bit1 s.mod.fallback, 1)]

def watchdogWrite (s : State) (v m : Word) : State :=
  let n := mergeW (watchdogWord s) v m
  let s := if n.getLsbD 2 then forceOp s else s.modMod fun k => { k with force := false }
  if (v &&& m).getLsbD 0 then petOp s else s

def quotaRead (q : Quota) (r : Nat) : Word :=
  match r with
  | 0 => q.qbal
  | 1 => q.grant
  | 2 => q.ctl
  | 3 => q.qused
  | 4 => q.qovd
  | _ => 0

def quotaWrite (s : State) (x r : Nat) (v m : Word) : State :=
  let n := mergeW (quotaRead (s.ctx x).quota r) v m
  match r with
  | 1 => grantOp s x n
  | 2 => s.modCtx x fun c => { c with quota := { c.quota with
      en := n.getLsbD 0, pol := n.getLsbD 3, exh := c.quota.exh && !(v &&& m).getLsbD 6 } }
  | _ => s

/-- RCFG0 and RCFG1 as last written, in effect or not. -/
def Power.rcfg0 (w : Power) : Word := w.cfg0.getD (pack [(w.rbase, 32), (w.rfull, 0)])
def Power.rcfg1 (w : Power) : Word := w.cfg1.getD (pack [(w.rfloor, 32), (w.cap, 0)])

/-- RFLOOR <= RBASE <= RFULL and CAP > 0 (R440). -/
def rcfgOk (a b : Word) : Bool :=
  decide ((fld b 32 28).toNat ≤ (fld a 32 28).toNat) && decide ((fld a 32 28).toNat ≤ (fld a 0 28).toNat) && fld b 0 30 != 0

def powerRead (w : Power) (r : Nat) : Word :=
  match r with
  | 0 => BitVec.ofNat 64 (trunc 32 w.level)
  | 1 => pack [(w.rtgt, 32), (w.r, 0)]
  | 2 => w.rcfg0
  | 3 => w.rcfg1
  | 4 => pack [(Config.rMax, 32), (Config.slew, 0)]
  | _ => 0

def powerWrite (s : State) (cl r : Nat) (v m : Word) : State :=
  s.modCluster cl fun c =>
    let w := c.pow
    match r with
    | 2 =>
      let n := mergeW w.rcfg0 v m &&& 0x0FFFFFFF0FFFFFFF
      if rcfgOk n w.rcfg1 then { c with pow := { w with cfg0 := some n } } else c
    | 3 =>
      let n := mergeW w.rcfg1 v m &&& 0x0FFFFFFF3FFFFFFF
      if rcfgOk w.rcfg0 n then { c with pow := { w with cfg1 := some n } } else c
    | _ => c

/-! ## Performance counters and trace (R456-R460) -/

/-- An enabled level event. -/
def levelSel (sel : Word) : Bool := sel.getLsbD 31 && (fld sel 0 8 == 0x21 || fld sel 0 8 == 0x22)

/-- A slice of the L2 has 32,768 line tags and 131,072 frames of 128 bytes, 16 MiB; the 32 slices hold 512 MiB (R14, R188). -/
def l2Slices : Nat := 32
def l2Lines : Nat := 32768
def l2Frames : Nat := 131072

/-- A level of slice c mod 32 is a free value within what the slice holds (R460, log 15). -/
def l2Level (s : State) (cl : Nat) (ev : BitVec 8) : Word :=
  let top := if ev = 0x21 then l2Lines else l2Frames
  BitVec.ofNat 64 (Config.freeL2Level s.free (cl % l2Slices) ev.toNat % (top + 1))

/-- Counter or select k of a cluster. -/
def perfRead (s : State) (cl r : Nat) : Word :=
  let o := (s.cluster cl).obs
  let sel := SMap.get 0 o.sel (r % 256 / 8)
  if 256 ≤ r then sel else if levelSel sel then l2Level s cl (fld sel 0 8) else SMap.get 0 o.perf (r / 8)

def perfWrite (s : State) (cl r : Nat) (v m : Word) : State :=
  s.modCluster cl fun c =>
    let o := c.obs
    let k := r % 256 / 8
    let sel := SMap.get 0 o.sel k
    if 256 ≤ r then { c with obs := { o with sel := SMap.set 0 o.sel k (mergeW sel v m &&& 0xFFFC00FF) } }
    else if levelSel sel then c
    else { c with obs := { o with perf := SMap.set 0 o.perf k (mergeW (SMap.get 0 o.perf k) v m) } }

def traceCtl (o : Observe) : Word := pack [(o.nseq.toNat, 32), (bit1 o.traceEn, 0)]

/-! ## The map (R478) -/

/-- The register word at a multiple of 8; an address no chapter assigns reads 0. -/
def mmioWord (s : State) (pa : Nat) : Word :=
  let o := pa - Config.mmioBase
  if o < 0x200 then descRead s (o / 32) (o / 8 % 4)
  else if 0x400 ≤ o && o < 0x800 then ctxRegRead (s.ctx ((o - 0x400) / 64)) (o / 8 % 8)
  else if 0x800 ≤ o && o < 0x840 then
    let k := (o - 0x800) / 4
    let f (k : Nat) : Nat := let l := s.lookup k; bit1 l.v * 2 ^ 31 + l.ctx.toNat
    pack [(f k, 0), (f (k + 1), 32)]
  else if 0x1000 ≤ o && o < 0x2000 then half (SMap.get 0 s.links.dir ((o - 0x1000) / 16)) (o / 8 % 2 == 1)
  else if 0x2000 ≤ o && o < 0x2400 then half (SMap.get 0 s.links.wins ((o - 0x2000) / 16)) (o / 8 % 2 == 1)
  else if 0x4000 ≤ o && o < 0x8000 then half (qpOf s ((o - 0x4000) / 16)) (o / 8 % 2 == 1)
  else if 0x8000 ≤ o && o < 0x8800 then
    if o / 8 % 16 < 12 then fld (s.ctx ((o - 0x8000) / 128)).member (64 * (o / 8 % 16)) 64 else 0
  else if o = 0x9000 then moduleWord s
  else if o = 0x9008 then checkpointWord s
  else if o = 0x9010 then s.mod.ckgts
  else if 0x10000 ≤ o && o < 0x20000 then healthItem s.mod.health (Config.healthPlace ((o - 0x10000) / 8))
  else if 0x100000 ≤ o && o < 0x102800 then formatRead s (o - 0x100000)
  else if 0x110000 ≤ o && o < 0x114000 then weightRead s ((o - 0x110000) / 256) (o % 256)
  else if o = 0x117000 then watchdogWord s
  else if 0x117100 ≤ o && o < 0x117500 then quotaRead (s.ctx ((o - 0x117100) / 64)).quota (o / 8 % 8)
  else if 0x118000 ≤ o && o < 0x119000 then powerRead (s.cluster ((o - 0x118000) / 64)).pow (o / 8 % 8)
  else if 0x120000 ≤ o && o < 0x128000 then perfRead s ((o - 0x120000) / 512) (o % 512)
  else if 0x128000 ≤ o && o < 0x128200 then traceCtl (s.cluster ((o - 0x128000) / 8)).obs
  else if 0x200000 ≤ o && o < 0x300000 then
    let r := o % 16384
    fld (SMap.get 0 (s.cluster ((o - 0x200000) / 16384)).obs.trace (r / 128)) (8 * (r % 128)) 64
  else 0

/-- A store of the bits of v under m to the word at a multiple of 8, by each field's access code (R4). -/
def mmioPut (s : State) (pa : Nat) (v m : Word) : State :=
  let o := pa - Config.mmioBase
  if o < 0x200 then descWrite s (o / 32) (o / 8 % 4) v m
  else if 0x400 ≤ o && o < 0x800 then ctxRegWrite s ((o - 0x400) / 64) (o / 8 % 8) v m
  else if 0x800 ≤ o && o < 0x840 then
    let k := (o - 0x800) / 4
    let s := if m.getLsbD 0 then assignLookup s k (fld v 0 32) else s
    if m.getLsbD 32 then assignLookup s (k + 1) (fld v 32 32) else s
  else if 0x1000 ≤ o && o < 0x2000 then dirWrite s ((o - 0x1000) / 16) (o / 8 % 2 == 1) v m
  else if 0x2000 ≤ o && o < 0x2400 then winWrite s ((o - 0x2000) / 16) (o / 8 % 2 == 1) v m
  else if 0x4000 ≤ o && o < 0x8000 then qpWrite s ((o - 0x4000) / 16) (o / 8 % 2 == 1) v m
  else if 0x8000 ≤ o && o < 0x8800 then
    if o / 8 % 16 < 12 then memberWrite s ((o - 0x8000) / 128) (o / 8 % 16) v m else s
  else if o = 0x9008 then checkpointWrite s (v &&& m)
  else if 0x10000 ≤ o && o < 0x20000 then healthWrite s (Config.healthPlace ((o - 0x10000) / 8)) (v &&& m)
  else if 0x100000 ≤ o && o < 0x102800 then formatWrite s (o - 0x100000) v m
  else if 0x110000 ≤ o && o < 0x114000 then weightWrite s ((o - 0x110000) / 256) (o % 256) v m
  else if o = 0x117000 then watchdogWrite s v m
  else if 0x117100 ≤ o && o < 0x117500 then quotaWrite s ((o - 0x117100) / 64) (o / 8 % 8) v m
  else if 0x118000 ≤ o && o < 0x119000 then powerWrite s ((o - 0x118000) / 64) (o / 8 % 8) v m
  else if 0x120000 ≤ o && o < 0x128000 then perfWrite s ((o - 0x120000) / 512) (o % 512) v m
  else if 0x128000 ≤ o && o < 0x128200 then
    if m.getLsbD 0 then s.modCluster ((o - 0x128000) / 8) fun c => { c with obs := { c.obs with traceEn := v.getLsbD 0 } } else s
  else s

/-- A load of 4 or 8 bytes at an aligned address. -/
def mmioLoad (s : State) (pa n : Nat) : Nat := (mmioWord s (pa / 8 * 8)).toNat >>> (8 * (pa % 8)) % 2 ^ (8 * n)

/-- A store of 4 or 8 bytes at an aligned address. -/
def mmioStore (s : State) (pa n v : Nat) : State :=
  let o := 8 * (pa % 8)
  mmioPut s (pa / 8 * 8) (BitVec.ofNat 64 (v <<< o)) (BitVec.ofNat 64 ((2 ^ (8 * n) - 1) <<< o))

/-- A store by system software to a register (R4, R478). -/
def execRegisterWrite (pa : Nat) (wide : Bool) (v : BitVec 64) (s : State) : Out :=
  let n := if wide then 8 else 4
  if inMmio pa && pa % n == 0 then .next (mmioStore s pa n (v.toNat % 2 ^ (8 * n))) else .fault .noSuchUnit

end Sys2Proof.Machine
end

