-- ==== Sys2Proof/Machine/LoadStore.lean ====
section
/-! DEFINITION. LD and ST (09_memory_access_instructions.md R198-R202), which also reach the registers of MMIO. -/

namespace Sys2Proof.Machine

/-- The bytes an LD reads: a register of MMIO, or memory, at the home for the scopes from .dv (R200, R202). -/
def loadAny (w : Who) (pl : Place) (n : Nat) (cls : BitVec 4) (sc : BitVec 3) : M Nat := do
  if pl.kind = .mmio then
    need (decide (4 ≤ n)) .perm pl.va
    inOrder w cls pl.va n
    let v := mmioLoad (← get) pl.key n
    doS fun s => s.bump
    return v
  else load w pl n (decide (2 ≤ sc.toNat)) ⟨cls, sc, 0, none⟩

/-- Where the core goes on after a store to a register, which may have ended its own program. -/
def afterStore (p : Nat) (x : Option Nat) : M Flow := do
  return if ((← get).proc p).ctxOf == x then .next else .stay

def execLd (o : MemOp) (s : State) : Out :=
  ccRun .any false o.gd 6 (fun p => do
    let w ← ccWho p
    let n := ldBytes o.sz
    let pl ← loadPlace w o.a o.imm n (decide (2 ≤ o.sc.toNat))
    let v ← loadAny w pl n o.cls o.sc
    putS p o.d (ldExtend o.sz v)
    return .next) s

def execSt (o : MemOp) (s : State) : Out :=
  ccRun .any false o.gd 6 (fun p => do
    let w ← ccWho p
    let n := stBytes o.sz
    let pl ← memPlace w o.a o.imm n .write
    let v := (← getS p o.d).toNat % 2 ^ (8 * n)
    if pl.kind = .mmio then
      need (decide (4 ≤ n)) .perm pl.va
      inOrder w o.cls pl.va n
      let x := ((← get).proc p).ctxOf
      doS fun s => mmioStore s pl.key n v
      afterStore p x
    else
      store w pl n v ⟨o.cls, o.sc, 0, none⟩
      return .next) s

end Sys2Proof.Machine
end

