-- ==== Sys2Proof/Machine/Special.lean ====
section
/-! DEFINITION. The special functions of the vector engine (07_vector_registers.md R166): reciprocal and roots exactly; the
transcendental ones as numbers of units of 2^-320 within 2^32 units of the mathematical value, rounded only when both ends
of that range round alike; an element where they do not is a free value (log 7). -/

namespace Sys2Proof.Machine

/-! ## Fixed point -/

def fxBits : Nat := 320
def fxOne : Int := 2 ^ 320
def fxMul (a b : Int) : Int := a * b / fxOne
def fxDiv (a b : Int) : Int := a * fxOne / b
/-- m * 2^e in units; exact for e of at least -320. -/
def fxOf (m : Nat) (e : Int) : Int :=
  if 0 ≤ e + 320 then ((m <<< (e + 320).toNat : Nat) : Int) else ((m >>> (-(e + 320)).toNat : Nat) : Int)

/-- Sum of r^n / n! from the n-th term on. -/
def expSeries (r : Int) : Nat → Nat → Int → Int
  | 0, _, _ => 0
  | k + 1, n, t => t + expSeries r k (n + 1) (fxMul t r / (n + 1))
def fxExp (r : Int) : Int := expSeries r 90 0 fxOne

/-- Sum of z^(2n+1) / (2n+1), with alternating signs where `alt`: artanh or arctan. -/
def oddSeries (alt : Bool) (z2 : Int) : Nat → Nat → Int → Int
  | 0, _, _ => 0
  | k + 1, n, t => t / (2 * n + 1) + oddSeries alt z2 k (n + 1) (if alt then -(fxMul t z2) else fxMul t z2)
def fxArtanh (z : Int) : Int := oddSeries false (fxMul z z) 120 0 z
def fxArctan (z : Int) : Int := oddSeries true (fxMul z z) 90 0 z

def fxLn2 : Int := 2 * fxArtanh (fxOne / 3)
def fxPi : Int := 16 * fxArctan (fxOne / 5) - 4 * fxArctan (fxOne / 239)

/-- Sum of (-1)^n y^(2n+1) / (2n+1)!. -/
def sinSeries (y2 : Int) : Nat → Nat → Int → Int
  | 0, _, _ => 0
  | k + 1, n, t => t + sinSeries y2 k (n + 1) (-(fxMul t y2) / ((2 * n + 2) * (2 * n + 3)))
def fxSin (y : Int) : Int := sinSeries (fxMul y y) 60 0 y

/-- Sum of (-1)^n x^(2n+1) / (n! (2n+1)). -/
def erfSeries (x2 : Int) : Nat → Nat → Int → Int
  | 0, _, _ => 0
  | k + 1, n, t => t / (2 * n + 1) + erfSeries x2 k (n + 1) (-(fxMul t x2) / (n + 1))

/-! ## Results -/

/-- An exact result, or a number of units near an irrational one. -/
inductive Near where
  | exact (x : XVal)
  | about (units : Int)
  deriving DecidableEq, Repr

def fxVal (a : Int) : XVal := .fin (decide (a < 0)) a.natAbs (-320)

/-- Rounding of a result scaled by 2^k; what the range does not decide is free (log 7). -/
def Near.round (f : FFmt) (fn x : Nat) (k : Int) : Near → Nat
  | .exact v => rnd f (v.scale k)
  | .about a =>
    let lo := rnd f ((fxVal (a - 2 ^ 32)).scale k)
    let hi := rnd f ((fxVal (a + 2 ^ 32)).scale k)
    if lo = hi then lo else (Config.freeSpecial fn x).toNat % 2 ^ f.width

/-- 1 / sqrt(m * 2^e) as a dyadic with 70 or more significant bits and a sticky last bit. -/
def rsqDyadic (m : Nat) (e : Int) : XVal :=
  let k : Nat := 2 * Nat.log2 m + (if e % 2 = 0 then 160 else 161)
  let r := isqrt (2 ^ k / m)
  .fin false (2 * r + (if r * r * m = 2 ^ k then 0 else 1)) (-(k + e) / 2 - 1)

/-! ## The functions of R166 -/

def fRcp : XVal → XVal
  | .nan => .nan
  | .inf s => .fin s 0 0
  | .fin s m e => if m = 0 then .inf s else divDyadic s 1 0 m e

def fRsq : XVal → XVal
  | .nan => .nan
  | .inf s => if s then .nan else .fin false 0 0
  | .fin s m e => if m = 0 then .inf s else if s then .nan else rsqDyadic m e

def fSqrt : XVal → XVal
  | .nan => .nan
  | .inf s => if s then .nan else .inf false
  | .fin s m e => if m = 0 then .fin s 0 0 else if s then .nan else sqrtDyadic m e

/-- 2^x as a power of two and the value of 2^f, f in [0, 1). Beyond 512 in magnitude the result rounds as at 512. -/
def fEx2 (f : FFmt) (x : Nat) : Nat :=
  match decodeF f x with
  | .nan => f.nanResult
  | .inf s => if s then 0 else rnd f (.inf false)
  | .fin s m e =>
    if m = 0 then rnd f (.fin false 1 0)
    else if !magLt (m, e) (1, 9) then rnd f (.fin false 1 (if s then -512 else 512))
    else
      let v := if s then -(fxOf m e) else fxOf m e
      let k := v / fxOne
      let r := v % fxOne
      (if r = 0 then Near.exact (.fin false 1 0) else .about (fxExp (fxMul r fxLn2))).round f 0 x k

def fLg2 (f : FFmt) (x : Nat) : Nat :=
  match decodeF f x with
  | .nan => f.nanResult
  | .inf s => if s then f.nanResult else rnd f (.inf false)
  | .fin s m e =>
    if m = 0 then rnd f (.inf true)
    else if s then f.nanResult
    else
      let k := magLog m e
      let y := fxOf m (e - k)
      (if y = fxOne then Near.exact (.ofInt k)
       else .about (k * fxOne + fxDiv (2 * fxArtanh (fxDiv (y - fxOne) (y + fxOne))) fxLn2)).round f 1 x 0

/-- sin(pi t) for t of [0, 1] in units. -/
def sinHalf (t : Int) : Near :=
  let u := if 2 * t > fxOne then fxOne - t else t
  if u = 0 then .exact (.fin false 0 0)
  else if 2 * u = fxOne then .exact (.fin false 1 0)
  else .about (fxSin (fxMul fxPi u))

def Near.neg : Near → Near
  | .exact x => .exact x.neg
  | .about a => .about (-a)

/-- x mod 2 in units, exactly. -/
def mod2 (m : Nat) (e : Int) : Int := if 0 ≤ e then ((m * 2 ^ (min e 1).toNat % 2 : Nat) : Int) * fxOne else fxOf m e % (2 * fxOne)

def fSinp (f : FFmt) (x : Nat) : Nat :=
  match decodeF f x with
  | .nan => f.nanResult
  | .inf _ => f.nanResult
  | .fin s m e =>
    let t := mod2 m e
    if t % fxOne = 0 then rnd f (.fin s 0 0)
    else
      let r := if t > fxOne then (sinHalf (t - fxOne)).neg else sinHalf t
      (if s then r.neg else r).round f 2 x 0

def fCosp (f : FFmt) (x : Nat) : Nat :=
  match decodeF f x with
  | .nan => f.nanResult
  | .inf _ => f.nanResult
  | .fin _ m e =>
    let t := mod2 m e
    let t := if t > fxOne then 2 * fxOne - t else t
    if 2 * t = fxOne then rnd f (.fin false 0 0)
    else
      let h := fxOne / 2
      (if t < h then sinHalf (h - t) else (sinHalf (t - h)).neg).round f 3 x 0

/-- e^-v of a v of [0, 128] in units. -/
def fxExpNeg (v : Int) : Int :=
  let k := v / fxLn2
  fxDiv fxOne (fxExp (v - k * fxLn2)) / (2 : Int) ^ k.toNat

def fSig (f : FFmt) (x : Nat) : Nat :=
  match decodeF f x with
  | .nan => f.nanResult
  | .inf s => if s then 0 else rnd f (.fin false 1 0)
  | .fin s m e =>
    if m = 0 then rnd f (.fin false 1 (-1))
    else
      let v := if magLt (m, e) (1, 7) then fxOf m e else 128 * fxOne
      let t := fxExpNeg v
      (Near.about (fxDiv (if s then t else fxOne) (fxOne + t))).round f 4 x 0

/-- 2 / sqrt(pi). -/
def fxTwoOverRootPi : Int := fxDiv (2 * fxOne) (isqrt (fxPi.toNat * 2 ^ 320))

def fErf (f : FFmt) (x : Nat) : Nat :=
  match decodeF f x with
  | .nan => f.nanResult
  | .inf s => rnd f (.fin s 1 0)
  | .fin s m e =>
    if m = 0 then rnd f (.fin s 0 0)
    else
      let v := if magLt (m, e) (3, 1) then fxOf m e else 6 * fxOne
      let a := fxMul fxTwoOverRootPi (erfSeries (fxMul v v) 300 0 v)
      (Near.about (if s then -a else a)).round f 5 x 0

/-- A special function element by element; every type but the three floating ones is SHAPE. -/
def special (g : FFmt → Nat → Nat) (o : VUn) (s : State) : Out :=
  veCompute o.c 2 clsSpecial (fun _ _ v =>
    if vFp v.ty then
      let w := vBits v.ty
      .ok (v.writeActive o.m o.vd v.ty fun i => g (vFmt v.ty) (elem (v.reg o.va) w i))
    else .error .shape) s

def execVrcp (o : VUn) (s : State) : Out := special (fun f a => rnd f (fRcp (decodeF f a))) o s
def execVrsq (o : VUn) (s : State) : Out := special (fun f a => rnd f (fRsq (decodeF f a))) o s
def execVsqrt (o : VUn) (s : State) : Out := special (fun f a => rnd f (fSqrt (decodeF f a))) o s
def execVex2 (o : VUn) (s : State) : Out := special fEx2 o s
def execVlg2 (o : VUn) (s : State) : Out := special fLg2 o s
def execVsinp (o : VUn) (s : State) : Out := special fSinp o s
def execVcosp (o : VUn) (s : State) : Out := special fCosp o s
def execVsig (o : VUn) (s : State) : Out := special fSig o s
def execVerf (o : VUn) (s : State) : Out := special fErf o s

end Sys2Proof.Machine
end

