-- ==== Sys2Proof/Machine/Dispatch.lean ====
section
/-! DEFINITION. One arm per instruction: a direct call of its meaning. -/

namespace Sys2Proof.Machine

/-- The meaning of every instruction and event of the opcode table. -/
def exec (i : Instr) (s : State) : Host.Outcome State Fault Refusal :=
  match i with
  | .ill d a => Sys2Proof.Machine.execIll d a s
  | .nop => Sys2Proof.Machine.execNop s
  | .mov d a => Sys2Proof.Machine.execMov d a s
  | .addC d a => Sys2Proof.Machine.execAddC d a s
  | .subC d a => Sys2Proof.Machine.execSubC d a s
  | .addiC d i0 => Sys2Proof.Machine.execAddiC d i0 s
  | .liC d i0 => Sys2Proof.Machine.execLiC d i0 s
  | .shliC d i0 => Sys2Proof.Machine.execShliC d i0 s
  | .shriC d i0 => Sys2Proof.Machine.execShriC d i0 s
  | .andC d a => Sys2Proof.Machine.execAndC d a s
  | .orC d a => Sys2Proof.Machine.execOrC d a s
  | .xorC d a => Sys2Proof.Machine.execXorC d a s
  | .brs r => Sys2Proof.Machine.execBrs r s
  | .brp k r => Sys2Proof.Machine.execBrp k r s
  | .retC => Sys2Proof.Machine.execRetC s
  | .add o => Sys2Proof.Machine.execAdd o s
  | .sub o => Sys2Proof.Machine.execSub o s
  | .and o => Sys2Proof.Machine.execAnd o s
  | .or o => Sys2Proof.Machine.execOr o s
  | .xor o => Sys2Proof.Machine.execXor o s
  | .andn o => Sys2Proof.Machine.execAndn o s
  | .shl o => Sys2Proof.Machine.execShl o s
  | .shr o => Sys2Proof.Machine.execShr o s
  | .sra o => Sys2Proof.Machine.execSra o s
  | .rol o => Sys2Proof.Machine.execRol o s
  | .min o => Sys2Proof.Machine.execMin o s
  | .max o => Sys2Proof.Machine.execMax o s
  | .minz o => Sys2Proof.Machine.execMinz o s
  | .maxz o => Sys2Proof.Machine.execMaxz o s
  | .absd o => Sys2Proof.Machine.execAbsd o s
  | .mul o => Sys2Proof.Machine.execMul o s
  | .mulh o => Sys2Proof.Machine.execMulh o s
  | .mulhz o => Sys2Proof.Machine.execMulhz o s
  | .div o => Sys2Proof.Machine.execDiv o s
  | .divz o => Sys2Proof.Machine.execDivz o s
  | .rem o => Sys2Proof.Machine.execRem o s
  | .remz o => Sys2Proof.Machine.execRemz o s
  | .clz o => Sys2Proof.Machine.execClz o s
  | .ctz o => Sys2Proof.Machine.execCtz o s
  | .popc o => Sys2Proof.Machine.execPopc o s
  | .brev o => Sys2Proof.Machine.execBrev o s
  | .bswap o => Sys2Proof.Machine.execBswap o s
  | .addi o => Sys2Proof.Machine.execAddi o s
  | .andi o => Sys2Proof.Machine.execAndi o s
  | .ori o => Sys2Proof.Machine.execOri o s
  | .xori o => Sys2Proof.Machine.execXori o s
  | .shli o => Sys2Proof.Machine.execShli o s
  | .shri o => Sys2Proof.Machine.execShri o s
  | .srai o => Sys2Proof.Machine.execSrai o s
  | .muli o => Sys2Proof.Machine.execMuli o s
  | .lea gd d a b sh => Sys2Proof.Machine.execLea gd d a b sh s
  | .cmp gd w p a b c => Sys2Proof.Machine.execCmp gd w p a b c s
  | .cmpi gd p a imm c => Sys2Proof.Machine.execCmpi gd p a imm c s
  | .pand gd d a b => Sys2Proof.Machine.execPand gd d a b s
  | .por gd d a b => Sys2Proof.Machine.execPor gd d a b s
  | .pxor gd d a b => Sys2Proof.Machine.execPxor gd d a b s
  | .pandn gd d a b => Sys2Proof.Machine.execPandn gd d a b s
  | .pnot gd d a => Sys2Proof.Machine.execPnot gd d a s
  | .pmov gd d a => Sys2Proof.Machine.execPmov gd d a s
  | .pset gd d => Sys2Proof.Machine.execPset gd d s
  | .pclr gd d => Sys2Proof.Machine.execPclr gd d s
  | .pget gd d => Sys2Proof.Machine.execPget gd d s
  | .pput gd a => Sys2Proof.Machine.execPput gd a s
  | .br gd r hint => Sys2Proof.Machine.execBr gd r hint s
  | .call gd r => Sys2Proof.Machine.execCall gd r s
  | .jmp gd a => Sys2Proof.Machine.execJmp gd a s
  | .callr gd a => Sys2Proof.Machine.execCallr gd a s
  | .ret gd => Sys2Proof.Machine.execRet gd s
  | .push gd q a => Sys2Proof.Machine.execPush gd q a s
  | .pop gd x b d f => Sys2Proof.Machine.execPop gd x b d f s
  | .semp gd n a => Sys2Proof.Machine.execSemp gd n a s
  | .semw gd n a => Sys2Proof.Machine.execSemw gd n a s
  | .mark gd d e => Sys2Proof.Machine.execMark gd d e s
  | .markWait gd a e => Sys2Proof.Machine.execMarkWait gd a e s
  | .rdvw gd d a k => Sys2Proof.Machine.execRdvw gd d a k s
  | .bpop gd d => Sys2Proof.Machine.execBpop gd d s
  | .bget gd d a f => Sys2Proof.Machine.execBget gd d a f s
  | .bdone gd a => Sys2Proof.Machine.execBdone gd a s
  | .lease gd => Sys2Proof.Machine.execLease gd s
  | .unlease gd => Sys2Proof.Machine.execUnlease gd s
  | .leaseq gd d => Sys2Proof.Machine.execLeaseq gd d s
  | .exit gd => Sys2Proof.Machine.execExit gd s
  | .exitA gd => Sys2Proof.Machine.execExitA gd s
  | .trap gd n => Sys2Proof.Machine.execTrap gd n s
  | .eret gd => Sys2Proof.Machine.execEret gd s
  | .drain gd m => Sys2Proof.Machine.execDrain gd m s
  | .ld o => Sys2Proof.Machine.execLd o s
  | .st o => Sys2Proof.Machine.execSt o s
  | .amo o => Sys2Proof.Machine.execAmo o s
  | .fence gd sc mask => Sys2Proof.Machine.execFence gd sc mask s
  | .strel o => Sys2Proof.Machine.execStrel o s
  | .ldacq o => Sys2Proof.Machine.execLdacq o s
  | .waitaddr o => Sys2Proof.Machine.execWaitaddr o s
  | .li gd d imm => Sys2Proof.Machine.execLi gd d imm s
  | .lih gd d imm => Sys2Proof.Machine.execLih gd d imm s
  | .brl gd r hint => Sys2Proof.Machine.execBrl gd r hint s
  | .addpc gd d imm => Sys2Proof.Machine.execAddpc gd d imm s
  | .bfx gd d a pos len => Sys2Proof.Machine.execBfx gd d a pos len s
  | .bfxs gd d a pos len => Sys2Proof.Machine.execBfxs gd d a pos len s
  | .bfi gd d a pos len => Sys2Proof.Machine.execBfi gd d a pos len s
  | .csrr gd d n => Sys2Proof.Machine.execCsrr gd d n s
  | .csrw gd a n => Sys2Proof.Machine.execCsrw gd a n s
  | .csrx gd d a n => Sys2Proof.Machine.execCsrx gd d a n s
  | .csrs gd d a n => Sys2Proof.Machine.execCsrs gd d a n s
  | .csrc gd d a n => Sys2Proof.Machine.execCsrc gd d a n s
  | .tlbinvRange gd a b n => Sys2Proof.Machine.execTlbinvRange gd a b n s
  | .tlbinvAsid gd b => Sys2Proof.Machine.execTlbinvAsid gd b s
  | .tlbinvAll gd => Sys2Proof.Machine.execTlbinvAll gd s
  | .hmk gd d a fmt rank cls scaled => Sys2Proof.Machine.execHmk gd d a fmt rank cls scaled s
  | .hset gd d sel a => Sys2Proof.Machine.execHset gd d sel a s
  | .hget gd d a sel => Sys2Proof.Machine.execHget gd d a sel s
  | .hadv gd d a b dim => Sys2Proof.Machine.execHadv gd d a b dim s
  | .hsub gd d a b => Sys2Proof.Machine.execHsub gd d a b s
  | .hmov gd d a => Sys2Proof.Machine.execHmov gd d a s
  | .hld gd d a imm cls => Sys2Proof.Machine.execHld gd d a imm cls s
  | .hst gd d a imm cls => Sys2Proof.Machine.execHst gd d a imm cls s
  | .kickVe gd d a nb n => Sys2Proof.Machine.execKickVe gd d a nb n s
  | .kickPx gd d a nb n => Sys2Proof.Machine.execKickPx gd d a nb n s
  | .kickHl gd a push pop => Sys2Proof.Machine.execKickHl gd a push pop s
  | .kickHs gd a push pop => Sys2Proof.Machine.execKickHs gd a push pop s
  | .nest gd px a b lvl => Sys2Proof.Machine.execNest gd px a b lvl s
  | .link gd hs a b => Sys2Proof.Machine.execLink gd hs a b s
  | .scmdPmmg gd d a b carry s0 e => Sys2Proof.Machine.execScmdPmmg gd d a b carry s0 e s
  | .scmdLk gd a b rid => Sys2Proof.Machine.execScmdLk gd a b rid s
  | .obsub gd d a => Sys2Proof.Machine.execObsub gd d a s
  | .seqstart gd d a b step => Sys2Proof.Machine.execSeqstart gd d a b step s
  | .seqstop gd d => Sys2Proof.Machine.execSeqstop gd d s
  | .seqwait gd d => Sys2Proof.Machine.execSeqwait gd d s
  | .seqstep gd d a => Sys2Proof.Machine.execSeqstep gd d a s
  | .rgndef gd d a b => Sys2Proof.Machine.execRgndef gd d a b s
  | .rgnrd gd d b sel => Sys2Proof.Machine.execRgnrd gd d b sel s
  | .rgnclr gd d b undef => Sys2Proof.Machine.execRgnclr gd d b undef s
  | .reuseq gd d a sel => Sys2Proof.Machine.execReuseq gd d a sel s
  | .reuseforce gd d a all => Sys2Proof.Machine.execReuseforce gd d a all s
  | .reuseset gd d a b smax resid rst => Sys2Proof.Machine.execReuseset gd d a b smax resid rst s
  | .fqpop gd d a => Sys2Proof.Machine.execFqpop gd d a s
  | .fqresume gd d a => Sys2Proof.Machine.execFqresume gd d a s
  | .fqdrop gd d a => Sys2Proof.Machine.execFqdrop gd d a s
  | .rdvset gd d a k => Sys2Proof.Machine.execRdvset gd d a k s
  | .semrd gd d kind n => Sys2Proof.Machine.execSemrd gd d kind n s
  | .semset gd d a kind n => Sys2Proof.Machine.execSemset gd d a kind n s
  | .scw gd d a sc c => Sys2Proof.Machine.execScw gd d a sc c s
  | .scp gd a b sc c => Sys2Proof.Machine.execScp gd a b sc c s
  | .phase gd a b i0 => Sys2Proof.Machine.execPhase gd a b i0 s
  | .pace gd d a mask => Sys2Proof.Machine.execPace gd d a mask s
  | .quota gd d sel => Sys2Proof.Machine.execQuota gd d sel s
  | .popJob gd x b d => Sys2Proof.Machine.execPopJob gd x b d s
  | .pushDone gd a => Sys2Proof.Machine.execPushDone gd a s
  | .lkaq gd d a b pois n => Sys2Proof.Machine.execLkaq gd d a b pois n s
  | .lkaqOne gd d a b pois => Sys2Proof.Machine.execLkaqOne gd d a b pois s
  | .lkdq gd d => Sys2Proof.Machine.execLkdq gd d s
  | .lkddp gd d a b n => Sys2Proof.Machine.execLkddp gd d a b n s
  | .lkpool gd b bag bf one clr => Sys2Proof.Machine.execLkpool gd b bag bf one clr s
  | .lkput gd a rm bag => Sys2Proof.Machine.execLkput gd a rm bag s
  | .lkputRow gd a rm => Sys2Proof.Machine.execLkputRow gd a rm s
  | .kbag gd a rid => Sys2Proof.Machine.execKbag gd a rid s
  | .vadd o => Sys2Proof.Machine.execVadd o s
  | .vsub o => Sys2Proof.Machine.execVsub o s
  | .vmul o => Sys2Proof.Machine.execVmul o s
  | .vmin o => Sys2Proof.Machine.execVmin o s
  | .vmax o => Sys2Proof.Machine.execVmax o s
  | .vminz o => Sys2Proof.Machine.execVminz o s
  | .vmaxz o => Sys2Proof.Machine.execVmaxz o s
  | .vabs o => Sys2Proof.Machine.execVabs o s
  | .vneg o => Sys2Proof.Machine.execVneg o s
  | .vaddsat o => Sys2Proof.Machine.execVaddsat o s
  | .vsubsat o => Sys2Proof.Machine.execVsubsat o s
  | .vand o => Sys2Proof.Machine.execVand o s
  | .vor o => Sys2Proof.Machine.execVor o s
  | .vxor o => Sys2Proof.Machine.execVxor o s
  | .vshl o => Sys2Proof.Machine.execVshl o s
  | .vshr o => Sys2Proof.Machine.execVshr o s
  | .vsra o => Sys2Proof.Machine.execVsra o s
  | .vclz o => Sys2Proof.Machine.execVclz o s
  | .vpopc o => Sys2Proof.Machine.execVpopc o s
  | .vrcp o => Sys2Proof.Machine.execVrcp o s
  | .vrsq o => Sys2Proof.Machine.execVrsq o s
  | .vsqrt o => Sys2Proof.Machine.execVsqrt o s
  | .vex2 o => Sys2Proof.Machine.execVex2 o s
  | .vlg2 o => Sys2Proof.Machine.execVlg2 o s
  | .vsinp o => Sys2Proof.Machine.execVsinp o s
  | .vcosp o => Sys2Proof.Machine.execVcosp o s
  | .vsig o => Sys2Proof.Machine.execVsig o s
  | .verf o => Sys2Proof.Machine.execVerf o s
  | .vmov o => Sys2Proof.Machine.execVmov o s
  | .vsel c vd va vb => Sys2Proof.Machine.execVsel c vd va vb s
  | .vtrn c vd va => Sys2Proof.Machine.execVtrn c vd va s
  | .vperm o => Sys2Proof.Machine.execVperm o s
  | .vbcl c m vd k => Sys2Proof.Machine.execVbcl c m vd k s
  | .vbcs c m vd => Sys2Proof.Machine.execVbcs c m vd s
  | .mpop c => Sys2Proof.Machine.execMpop c s
  | .minv c => Sys2Proof.Machine.execMinv c s
  | .mset c va => Sys2Proof.Machine.execMset c va s
  | .mget c vd => Sys2Proof.Machine.execMget c vd s
  | .vbrz c count => Sys2Proof.Machine.execVbrz c count s
  | .vext c va idx => Sys2Proof.Machine.execVext c va idx s
  | .vdiv o => Sys2Proof.Machine.execVdiv o s
  | .vfma o => Sys2Proof.Machine.execVfma o s
  | .vfms o => Sys2Proof.Machine.execVfms o s
  | .vfnma o => Sys2Proof.Machine.execVfnma o s
  | .vcmp c va vb t cond => Sys2Proof.Machine.execVcmp c va vb t cond s
  | .vcvt c m vd va noo t s0 rm => Sys2Proof.Machine.execVcvt c m vd va noo t s0 rm s
  | .vfsh c m vd va vb vc t left => Sys2Proof.Machine.execVfsh c m vd va vb vc t left s
  | .vred o => Sys2Proof.Machine.execVred o s
  | .vscan o => Sys2Proof.Machine.execVscan o s
  | .vshape c t imm => Sys2Proof.Machine.execVshape c t imm s
  | .vqblk c vd va vc t s0 rm => Sys2Proof.Machine.execVqblk c vd va vc t s0 rm s
  | .viota c m vd t kind => Sys2Proof.Machine.execViota c m vd t kind s
  | .vli c m vd imm => Sys2Proof.Machine.execVli c m vd imm s
  | .vsprSet c en val => Sys2Proof.Machine.execVsprSet c en val s
  | .vsprShift c b => Sys2Proof.Machine.execVsprShift c b s
  | .vrrbSet c n => Sys2Proof.Machine.execVrrbSet c n s
  | .vrrbAdd c n => Sys2Proof.Machine.execVrrbAdd c n s
  | .vld o => Sys2Proof.Machine.execVld o s
  | .vst o => Sys2Proof.Machine.execVst o s
  | .vldu o => Sys2Proof.Machine.execVldu o s
  | .vstb o => Sys2Proof.Machine.execVstb o s
  | .vgth o => Sys2Proof.Machine.execVgth o s
  | .vsct o => Sys2Proof.Machine.execVsct o s
  | .vsca o => Sys2Proof.Machine.execVsca o s
  | .vldl o => Sys2Proof.Machine.execVldl o s
  | .vstl o => Sys2Proof.Machine.execVstl o s
  | .vlda c m vd s0 row0 col => Sys2Proof.Machine.execVlda c m vd s0 row0 col s
  | .blk lvl len await raise rep => Sys2Proof.Machine.execBlk lvl len await raise rep s
  | .pmm c slot ha hb carry e => Sys2Proof.Machine.execPmm c slot ha hb carry e s
  | .pmmg c slot ha hb hc carry e => Sys2Proof.Machine.execPmmg c slot ha hb hc carry e s
  | .pres c slot hc rm noo ovn p => Sys2Proof.Machine.execPres c slot hc rm noo ovn p s
  | .prel c slot => Sys2Proof.Machine.execPrel c slot s
  | .pstr c slot hc => Sys2Proof.Machine.execPstr c slot hc s
  | .pldr c slot hc carry e => Sys2Proof.Machine.execPldr c slot hc carry e s
  | .pscl c slot d => Sys2Proof.Machine.execPscl c slot d s
  | .padd c slot src carry e => Sys2Proof.Machine.execPadd c slot src carry e s
  | .hcpy h src dst rm stile dtile => Sys2Proof.Machine.execHcpy h src dst rm stile dtile s
  | .hcpyd h src dst rm stile dtile rgn => Sys2Proof.Machine.execHcpyd h src dst rm stile dtile rgn s
  | .hmcs h key dst rm dtile => Sys2Proof.Machine.execHmcs h key dst rm dtile s
  | .hmsrc h src count stile => Sys2Proof.Machine.execHmsrc h src count stile s
  | .hfill h pattern dst dtile => Sys2Proof.Machine.execHfill h pattern dst dtile s
  | .hgath h table dst rm stile dtile => Sys2Proof.Machine.execHgath h table dst rm stile dtile s
  | .hhalo h src dst rm stile rgn => Sys2Proof.Machine.execHhalo h src dst rm stile rgn s
  | .hwait h => Sys2Proof.Machine.execHwait h s
  | .hpost h target => Sys2Proof.Machine.execHpost h target s
  | .hlink h next => Sys2Proof.Machine.execHlink h next s
  | .htile h event dtile => Sys2Proof.Machine.execHtile h event dtile s
  | .hend h => Sys2Proof.Machine.execHend h s
  | .waitaddrTimeout core => Sys2Proof.Machine.execWaitaddrTimeout core s
  | .scwTimeout core => Sys2Proof.Machine.execScwTimeout core s
  | .gatheredCommand cluster => Sys2Proof.Machine.execGatheredCommand cluster s
  | .hodChainStart core hs => Sys2Proof.Machine.execHodChainStart core hs s
  | .hodPost core hs => Sys2Proof.Machine.execHodPost core hs s
  | .engineDequeue core px => Sys2Proof.Machine.execEngineDequeue core px s
  | .blockRaise core px => Sys2Proof.Machine.execBlockRaise core px s
  | .tokenPush core e => Sys2Proof.Machine.execTokenPush core e s
  | .pacingGapExpiry core e => Sys2Proof.Machine.execPacingGapExpiry core e s
  | .markerComplete core e => Sys2Proof.Machine.execMarkerComplete core e s
  | .storeAck core => Sys2Proof.Machine.execStoreAck core s
  | .postApply i0 => Sys2Proof.Machine.execPostApply i0 s
  | .leaseRelease cluster => Sys2Proof.Machine.execLeaseRelease cluster s
  | .brickRetire core tag => Sys2Proof.Machine.execBrickRetire core tag s
  | .dependencyZero ctx graph ob => Sys2Proof.Machine.execDependencyZero ctx graph ob s
  | .brickPlacement cluster => Sys2Proof.Machine.execBrickPlacement cluster s
  | .dispatchSelection core => Sys2Proof.Machine.execDispatchSelection core s
  | .idleCoreStart core => Sys2Proof.Machine.execIdleCoreStart core s
  | .stepBoundary seq => Sys2Proof.Machine.execStepBoundary seq s
  | .rendezvousTimeout seq => Sys2Proof.Machine.execRendezvousTimeout seq s
  | .regionDelivery i0 => Sys2Proof.Machine.execRegionDelivery i0 s
  | .brickOverrun core tag => Sys2Proof.Machine.execBrickOverrun core tag s
  | .contextSuspended ctx => Sys2Proof.Machine.execContextSuspended ctx s
  | .create ctx => Sys2Proof.Machine.execCreate ctx s
  | .suspend ctx => Sys2Proof.Machine.execSuspend ctx s
  | .resume ctx => Sys2Proof.Machine.execResume ctx s
  | .destroy ctx => Sys2Proof.Machine.execDestroy ctx s
  | .launchObsub ctx => Sys2Proof.Machine.execLaunchObsub ctx s
  | .launchSeqstart ctx n stepped => Sys2Proof.Machine.execLaunchSeqstart ctx n stepped s
  | .launchSeqstop ctx => Sys2Proof.Machine.execLaunchSeqstop ctx s
  | .launchSeqstep ctx => Sys2Proof.Machine.execLaunchSeqstep ctx s
  | .preemptionGo ctx => Sys2Proof.Machine.execPreemptionGo ctx s
  | .hardPreemption ctx => Sys2Proof.Machine.execHardPreemption ctx s
  | .lookupAssign k v => Sys2Proof.Machine.execLookupAssign k v s
  | .rowFetchIssue k => Sys2Proof.Machine.execRowFetchIssue k s
  | .rowArrival k i0 => Sys2Proof.Machine.execRowArrival k i0 s
  | .kbagReply k => Sys2Proof.Machine.execKbagReply k s
  | .capacityDirectoryWrite t hi v => Sys2Proof.Machine.execCapacityDirectoryWrite t hi v s
  | .queuePairWrite q hi v => Sys2Proof.Machine.execQueuePairWrite q hi v s
  | .weightCommit cluster => Sys2Proof.Machine.execWeightCommit cluster s
  | .quotaGrant ctx g => Sys2Proof.Machine.execQuotaGrant ctx g s
  | .watchdogPet => Sys2Proof.Machine.execWatchdogPet s
  | .fallbackForce => Sys2Proof.Machine.execFallbackForce s
  | .watchdogExpiry => Sys2Proof.Machine.execWatchdogExpiry s
  | .registerWrite pa wide v => Sys2Proof.Machine.execRegisterWrite pa wide v s
  | .checkpoint => Sys2Proof.Machine.execCheckpoint s
  | .checkpointComplete => Sys2Proof.Machine.execCheckpointComplete s
  | .restore => Sys2Proof.Machine.execRestore s
  | .powerOnReset => Sys2Proof.Machine.execPowerOnReset s
  | .moduleReset => Sys2Proof.Machine.execModuleReset s
  | .firmwareRecovery image sig => Sys2Proof.Machine.execFirmwareRecovery image sig s
  | .attestationReport nonce => Sys2Proof.Machine.execAttestationReport nonce s
  | .hofLoad ctx file => Sys2Proof.Machine.execHofLoad ctx file s
  | .spareTakeover c => Sys2Proof.Machine.execSpareTakeover c s
  | .refillBoundary => Sys2Proof.Machine.execRefillBoundary s
  | .clampEnd cluster => Sys2Proof.Machine.execClampEnd cluster s
  | .burstDeclarationExpiry core => Sys2Proof.Machine.execBurstDeclarationExpiry core s
  | .thermalTrip => Sys2Proof.Machine.execThermalTrip s
  | .thermalTripEnd => Sys2Proof.Machine.execThermalTripEnd s
  | .signatureRotation => Sys2Proof.Machine.execSignatureRotation s
  | .l1SectorExpiry core vsec => Sys2Proof.Machine.execL1SectorExpiry core vsec s
  | .signatureSlotExpiry home key => Sys2Proof.Machine.execSignatureSlotExpiry home key s
  | .scrub key corrected => Sys2Proof.Machine.execScrub key corrected s
  | .flitRead h pa n => Sys2Proof.Machine.execFlitRead h pa n s
  | .flitWrite h pa data sig poison => Sys2Proof.Machine.execFlitWrite h pa data sig poison s
  | .flitAtomic h pa n op b e => Sys2Proof.Machine.execFlitAtomic h pa n op b e s
  | .flitResponse i0 data sig st => Sys2Proof.Machine.execFlitResponse i0 data sig st s
  | .postFlit h core ctr amount sig mark => Sys2Proof.Machine.execPostFlit h core ctr amount sig mark s
  | .haloFlit h pa va off fmt n data rgn poison => Sys2Proof.Machine.execHaloFlit h pa va off fmt n data rgn poison s
  | .rendezvousFlit h seq step answer => Sys2Proof.Machine.execRendezvousFlit h seq step answer s
  | .timeFlit port master => Sys2Proof.Machine.execTimeFlit port master s
  | .linkControlFlit port arg => Sys2Proof.Machine.execLinkControlFlit port arg s
  | .flitReservedType port type => Sys2Proof.Machine.execFlitReservedType port type s
  | .flitReplay port lseq => Sys2Proof.Machine.execFlitReplay port lseq s
  | .laneSparing port lane => Sys2Proof.Machine.execLaneSparing port lane s
  | .nodeUnreachable node => Sys2Proof.Machine.execNodeUnreachable node s
  | .timeOutOfBound => Sys2Proof.Machine.execTimeOutOfBound s
  | .rdmaWrite h rkey addr data => Sys2Proof.Machine.execRdmaWrite h rkey addr data s
  | .rdmaWriteWithImmediate h rkey addr data imm => Sys2Proof.Machine.execRdmaWriteWithImmediate h rkey addr data imm s
  | .rdmaRead h rkey addr n => Sys2Proof.Machine.execRdmaRead h rkey addr n s
  | .send h data => Sys2Proof.Machine.execSend h data s
  | .sendWithImmediate h data imm => Sys2Proof.Machine.execSendWithImmediate h data imm s
  | .fetchAdd h rkey addr v => Sys2Proof.Machine.execFetchAdd h rkey addr v s
  | .compareSwap h rkey addr cmp new => Sys2Proof.Machine.execCompareSwap h rkey addr cmp new s
  | .invalidRequest h => Sys2Proof.Machine.execInvalidRequest h s
  | .roceAcknowledgement q => Sys2Proof.Machine.execRoceAcknowledgement q s
  | .rdmaReadResponse q data => Sys2Proof.Machine.execRdmaReadResponse q data s
  | .hardwareError site => Sys2Proof.Machine.execHardwareError site s
  | .powerLoss => Sys2Proof.Machine.execPowerLoss s
  | .firmwareUpdate image sig keys => Sys2Proof.Machine.execFirmwareUpdate image sig keys s
  | .requesterError q => Sys2Proof.Machine.execRequesterError q s
  | .priorityFlowControl port prio pause => Sys2Proof.Machine.execPriorityFlowControl port prio pause s
  | .congestionNotification q => Sys2Proof.Machine.execCongestionNotification q s
  | .healthStoreFlush => Sys2Proof.Machine.execHealthStoreFlush s
  | .ageingMonitor cluster ppm eol => Sys2Proof.Machine.execAgeingMonitor cluster ppm eol s

end Sys2Proof.Machine
end

