-- ==== Sys2Proof/Machine/Fetch.lean ====
section
/-! DEFINITION. Fetching an instruction: code of control and lookup cores (04_encoding_and_opcode_map.md R73-R78), parcels of a
stream (R74, R79). A parcel that a core has fetched ahead since its last control transfer is executed as it was then (R78); any
other is read as a load would read it now. -/

namespace Sys2Proof.Machine

/-- A parcel of code at an address: the core's own scratchpad, or translated memory with the execute right; anything else, and
whatever translation refuses, is FETCH (R73, R75). `st`: the parcel is the second or third. -/
def codePlace (w : Who) (va : Nat) (st : Bool) : M Place := fun s =>
  let refuse : Stop := .fault .fetch va st
  if 2 ^ 52 ≤ va then .error refuse s
  else if windowMin ≤ va then
    match windowKey s w va 2 with
    | some key =>
      if w.p < 256 && spBase + w.p * 2 ^ 20 ≤ key && key < spBase + (w.p + 1) * 2 ^ 20 then .ok ⟨.window, 0, key, false, va⟩ s
      else .error refuse s
    | none => .error refuse s
  else match translate w va .exec s with
    | .ok pl t => if pl.kind = .mmio then .error refuse t else .ok pl t
    | .error _ t => .error refuse t

/-- Read a parcel: through the L1 as a load at .co, or at the bank (R78). A refusal of the owner is FETCH; poison is ECCU. -/
def codeRead (w : Who) (pl : Place) (k : Nat) (st : Bool) : M Nat := fun s =>
  match load w pl 2 false ⟨0, 0, 2 ^ 29 + k, none⟩ true s with
  | .error (.fault .perm _ _ _) t => .error (.fault .fetch pl.va st) t
  | r => r

/-- The k-th parcel of the instruction at PC, fetched ahead or read now. -/
def parcelRead (w : Who) (pl : Place) (k : Nat) (st : Bool) : M Nat := do
  match SMap.get none ((← get).cc w.q).ahead pl.va with
  | some v => return v.toNat
  | none => codeRead w pl k st

/-- A core fetches a parcel ahead, of memory of this module (R78). What cannot be fetched is not. -/
def fetchAhead (core va : Nat) (s : State) : State :=
  match (s.proc core).run with
  | .running x =>
    let w : Who := ⟨core, none, x, core⟩
    match codePlace w va false s with
    | .ok pl t =>
      if pl.isLocal && va % 2 == 0 then
        match codeRead w pl 0 false t with
        | .ok v u => u.modCC core fun r => { r with ahead := SMap.set none r.ahead va (some (BitVec.ofNat 16 v)) }
        | .error _ _ => s
      else s
    | .error _ _ => s
  | _ => s

/-- Address of the k-th parcel of the instruction at pc. -/
def parcelAddr (pc : Word) (k : Nat) : Nat := (pc + BitVec.ofNat 64 (2 * k)).toNat

/-- The places of the parcels after the first, then their reads: FETCH of any comes before ECCU of any (R77). -/
def codeRest (w : Who) (pc : Word) : List Nat → List Place → M Nat
  | [], _ => pure 0
  | k :: ks, pl :: pls => do
    let v ← parcelRead w pl k true
    return v * 2 ^ (16 * k) + (← codeRest w pc ks pls)
  | _ :: _, [] => pure 0

/-- The parcels after the first are placed. -/
def codePlaces (w : Who) (pc : Word) : List Nat → M (List Place)
  | [] => pure []
  | k :: ks => do
    let pl ← codePlace w (parcelAddr pc k) true
    return pl :: (← codePlaces w pc ks)

/-- The instruction word at a core's PC. How long it is stands in its first parcel: poison there is ECCU before the later parcels
are placed (DESIGN CHOICE, log 33). -/
def fetchCC (p : Nat) : M (BitVec 48) := do
  let w ← ccWho p
  let pc := ((← get).cc p).pc
  let pl ← codePlace w pc.toNat false
  let v ← parcelRead w pl 0 false
  let ks := (List.range (parcels (BitVec.ofNat 16 v))).drop 1
  let pls ← codePlaces w pc ks
  let r ← codeRest w pc ks pls
  return BitVec.ofNat 48 (v + r)

/-- What a stream holds next. -/
inductive Fetched where
  /-- the stream ends inside the instruction -/
  | short
  /-- a parcel is poisoned: its number -/
  | poisoned (k : Nat)
  | word (w : BitVec 48)
  deriving DecidableEq, Repr

/-- Parcels k, k + 1, … of a stream's next instruction, joined to what stands below them. -/
def streamJoin (s : State) (p : Nat) (px : Bool) (q : Sequencer) : List Nat → Nat → Fetched
  | [], v => .word (BitVec.ofNat 48 v)
  | k :: ks, v =>
    match streamParcel s p px q k with
    | none => .short
    | some none => .poisoned k
    | some (some x) => streamJoin s p px q ks (v + x.toNat * 2 ^ (16 * k))

/-- The next instruction of a stream (R72, R74). -/
def fetchStream (s : State) (p : Nat) (px : Bool) (q : Sequencer) : Fetched :=
  match streamParcel s p px q 0 with
  | none => .short
  | some none => .poisoned 0
  | some (some x) => streamJoin s p px q ((List.range (parcels x)).drop 1) x.toNat

/-- Address of a parcel's sector, for ECCU (R193). -/
def streamSector (s : State) (p : Nat) (px : Bool) (q : Sequencer) (k : Nat) : Nat := ringKey s p px (q.here + k) / 128 * 128

end Sys2Proof.Machine
end

