-- ==== Sys2Proof/Machine/Turns.lean ====
section
/-! DEFINITION. What a unit does in its turn (02_execution_model.md R31-R37; 12_engine_queues_and_streams.md R268-R275, R280;
13_hod_chains.md R291-R293; 14 R303, R307; 15 R332): a core or an engine fetches and executes one instruction, or an engine
does what is due between two instructions. A unit with nothing to do leaves the state as it is. -/

namespace Sys2Proof.Machine

/-- The code a core runs (R73, R86). -/
def codeStream (p : Nat) : Stream := if p < 256 then .cc else .lk

/-- A core fetches and executes one instruction. -/
def runCC (p : Nat) (s : State) : Out :=
  match fetchCC p s with
  | .ok w t =>
    match decodeWord (codeStream p) w with
    | some i => exec i t
    | none => .next (takeFault t p .illop)
  | .error (.fault c a st d) t => .next (takeFault t p c a st d)
  | .error (.wait ev) t => .next (setStall t p none (ev + 1))

/-- A core between programs, or at the end of one (R289, R307). -/
def turnCC (p : Nat) (s : State) : Out :=
  if p < 272 then
    match (s.proc p).run with
    | .running _ => runCC p s
    | .stopped _ _ => .next s
    | .aborted _ => .next s
    | .exiting x =>
      if p < 256 then .next (if drained s p then finishExit s p x else s)
      else .next (lookupExit s p)
    | .idle =>
      let l := s.lookup (p - 256)
      if 256 ≤ p && !l.jobs.isEmpty && servesLookup s (p - 256) l.ctx.toNat then .next (startLookup s (p - 256)) else .next s
  else .fault .noSuchUnit

/-- A stream's instruction runs. -/
def runWord (p : Nat) (px : Bool) (cap : Capture) (w : BitVec 48) (s : State) : Out :=
  match decodeWord (if px then .px else .ve) w with
  | some i => exec i s
  | none => .next (streamFault s p px cap .engill 0 (ringKey s p px (seqr s p px).here) 0)

/-- The stream of an engine goes on with one instruction or block header; outside a block it is read once, as it starts (R79). -/
def runStream (p : Nat) (px : Bool) (cap : Capture) (s : State) : Out :=
  let q := seqr s p px
  let loc := ringKey s p px q.here
  match (if q.block.isNone then q.word else none) with
  | some w => runWord p px cap w s
  | none =>
    match fetchStream s p px q with
    | .short => .next (streamFault s p px cap .engill 0 loc 0)
    | .poisoned k => .next (streamFault s p px cap .eccu (streamSector s p px q k) loc 0)
    | .word w => runWord p px cap w (if q.block.isNone then modSeqr s p px fun q => { q with word := some w } else s)

/-- What is at the head of a stream engine's queue, where no command is in progress. -/
def streamHead (p : Nat) (px : Bool) (s : State) : Out :=
  match engineQueue (s.proc p).q (streamEng px) with
  | .kick _ _ _ _ :: _ => execEngineDequeue p px s
  | .nest _ _ _ :: _ => execEngineDequeue p px s
  | .marker _ :: _ => execMarkerComplete p (streamEng px) s
  | .release _ :: _ => execLeaseRelease (clusterOf p) s
  | _ => .next s

/-- The Press queue's oldest point is a marker or the release point, and no gathered command was pushed before it (R286, R432). -/
def pointDue (s : State) (p : Nat) : Bool :=
  match (s.proc p).q.pxq with
  | .marker g :: _ => !gatheredBefore s p g
  | .release g :: _ => !gatheredBefore s p g
  | _ => false

/-- The stream of a core on the VE, or on the Press while the core holds the lease. -/
def turnStream (p : Nat) (px : Bool) (s : State) : Out :=
  let q := seqr s p px
  if q.stop.isSome then .next s
  else if px && q.serving.isSome then execGatheredCommand (clusterOf p) s
  else if q.push.isSome then execTokenPush p (streamEng px) s
  else if q.raise.isSome then execBlockRaise p px s
  else if px && q.phase == .fresh && !(q.cap.isNone && pointDue s p) && ((s.cluster (clusterOf p)).press.gathered.any fun g => g.cap.core == p) then
    execGatheredCommand (clusterOf p) s
  else match q.cap with
    | none => streamHead p px s
    | some cap =>
      match q.block with
      | some b => if q.atBoundary then .next (nextIteration s p px cap b) else runStream p px cap s
      | none => runStream p px cap s

/-- A hod at an entry reads and executes it. -/
def runHod (core : Nat) (hs : Bool) (cap : Capture) (s : State) : Out :=
  match fetchEntry (Chain.of s core hs cap) s with
  | .ok w t =>
    match decodeHod w with
    | some i => exec i t
    | none => .next (hodFault t core hs cap .hodill 0)
  | .error (.fault c a _ _) t => .next (hodFault t core hs cap c a)
  | .error (.wait ev) t => .next (setStall t core (some (hodEng hs)) (ev + 1))

/-- A hod of a core. -/
def turnHod (core : Nat) (hs : Bool) (s : State) : Out :=
  let h := hodOf s core hs
  if h.stop.isSome then .next s
  else match h.cap with
    | none =>
      match engineQueue (s.proc core).q (hodEng hs) with
      | .chain _ _ _ _ :: _ => execHodChainStart core hs s
      | .marker _ :: _ => execMarkerComplete core (hodEng hs) s
      | _ => .next s
    | some cap =>
      match h.hphase with
      | .token => execHodChainStart core hs s
      | .entry => runHod core hs cap s
      | .body => runHod core hs cap s
      | .post => execHodPost core hs s
      | .finish => execTokenPush core (hodEng hs) s

/-- One turn of a unit. -/
def turn (u : Agent) (s : State) : Out :=
  match u with
  | .cc p => turnCC p s
  | .ve p => if p < 256 then turnStream p false s else .fault .noSuchUnit
  | .px c =>
    if c < 64 then
      match (s.cluster c).press.holder with
      | some k => turnStream (c * 4 + k) true s
      | none => .next (leasePass s c)
    else .fault .noSuchUnit
  | .hod p hs => if p < 256 then turnHod p hs s else .fault .noSuchUnit

/-- Events that reach a module in recovery or without power (28 R475, R477, R480). -/
def reachesDown (i : Instr) : Bool :=
  match i with
  | .powerOnReset => true
  | .powerLoss => true
  | .moduleReset => true
  | .firmwareRecovery _ _ => true
  | .attestationReport _ => true
  | _ => false

/-! ## Placing an instruction where the next step fetches it (log 5) -/

/-- A command of core 0 for context 0. -/
def probeCapture : Capture := ⟨0, 0, 0, 0, 0, []⟩

/-- The bytes of an instruction at the start of core 0's scratchpad, which context 0 may reach. -/
def putProgram (s : State) (n w : Nat) : State :=
  ((s.modCtx 0 fun c => { c with d := { c.d with part := c.d.part ||| 1 } }).modProc 0 fun x =>
    { x with run := .running 0 }).modMem fun m => m.write spBase n w

/-- Core 0 runs context 0 from there. -/
def placeCC (s : State) (w : Nat) : State := (putProgram s 6 w).modCC 0 fun c => { c with pc := BitVec.ofNat 64 spOwn }

/-- Lookup core 0 runs context 0 from address 0, a readable and executable page at physical address 0. -/
def placeLookup (s : State) (w : Nat) : State :=
  let pte : Word := BitVec.ofNat 64 (2 ^ 63 + 2 ^ 62 + 2 ^ 61 + 2 ^ 59)
  let s := s.modMem fun m => { (m.write 0 6 w) with trans := ⟨(s.ctx 0).d.asid, 0, 16, pte⟩ :: m.trans }
  s.modProc 256 fun x => { x with run := .running 0, img := { x.img with cc := { x.img.cc with pc := 0 } } }

/-- A command whose next instruction stands at the start of the ring. -/
def probeSequencer (q : Sequencer) : Sequencer := { Sequencer.reset with last := q.last, cap := some probeCapture, blocks := 1 }

/-- Core 0's stream on the VE or the Press, in a ring of 1 KiB, the cluster's bucket full. -/
def placeStream (s : State) (px : Bool) (w : Nat) : State :=
  let s := (putProgram s 6 w).modVE 0 fun v => if px then { v with pring := 1 } else { v with vring := 1 }
  let s := (modSeqr s 0 px probeSequencer).modCluster 0 fun c => { c with pow := { c.pow with level := c.pow.cap, waiters := [] } }
  if px then s.modPress 0 fun pr => { pr with holder := some 0, gathered := [] } else s

/-- A chain of core 0's load hod at the start of its scratchpad. -/
def placeHod (s : State) (w : Nat) : State :=
  ((putProgram s 64 w).modCluster 0 fun c => { c with pow := { c.pow with level := c.pow.cap, waiters := [] } }).modEng 0 fun g =>
    { g with hl := { Hod.reset with cap := some probeCapture, addr := spOwn } }

/-- The unit that runs a word, as decodeTableWord reads it, with the state in which it runs it next. -/
def placeWord (s : State) (nbits w : Nat) : State × Agent :=
  let v := BitVec.ofNat 48 w
  if nbits > 48 then (placeHod s w, .hod 0 false)
  else if (decodeWord .cc v).isSome then (placeCC s w, .cc 0)
  else if (decodeWord .lk v).isSome then (placeLookup s w, .cc 256)
  else if (decodeWord .ve v).isSome then (placeStream s false w, .ve 0)
  else if (decodeWord .px v).isSome then (placeStream s true w, .px 0)
  else (placeCC s w, .cc 0)

end Sys2Proof.Machine
end

