-- ==== Sys2Proof/Machine/Step.lean ====
section
/-! DEFINITION. One step of the module: a unit's turn, an event of the opcode table, time passing, a parcel fetched ahead, or a
set-up of the management controller. Which comes next stands
in the agenda; where that is empty it is a free value (log 1), since the spec lets units and events interleave freely
(02_execution_model.md R31; 11_consistency_model.md). -/

namespace Sys2Proof.Machine

/-- FREE VALUE (log 1): what the module does next where nothing is listed. -/
opaque freeAct : Nat → Act

/-- The next act, and the state without it. -/
def nextAct (s : State) : Act × State :=
  match s.agenda with
  | a :: l => (a, { s with agenda := l })
  | [] => (freeAct s.free, s.bump)

/-- One act. Only the events of 28 R475 and R480 reach a module that is not up; an encoded instruction is no event. -/
def act (a : Act) (s : State) : Host.Outcome State Fault Refusal :=
  match a with
  | .turn u => if s.mod.up then turn u { s with actor := u } else .next s
  | .event i => if i.form.isNone && (s.mod.up || reachesDown i) then exec i s else .next s
  | .tick ns => .next (tick s ns)
  | .ahead core va => if s.mod.up && decide (core < 272) then .next (fetchAhead core va s) else .next s
  | .setUp b => .next (setUp b s)

/-- One step. -/
def step (s : State) : Host.Outcome State Fault Refusal :=
  let n := nextAct s
  act n.1 n.2

/-- s with an instruction stored where the next step fetches it, by the unit that runs it (log 5). -/
def State.withFetchWord (s : State) (nbits w : Nat) : State :=
  let r := placeWord s nbits w
  { r.1 with agenda := .turn r.2 :: r.1.agenda }

end Sys2Proof.Machine
end

