-- ==== Sys2Proof/Safety.lean ====
section
/-! DEFINITION. What a safe state and a safe run are: memories and tables in canonical form, registers within what the spec
lets them hold, and runs that neither fault nor are refused. -/

namespace Sys2Proof.Machine

/-- Bytes and poison are in canonical form: equal memories are equal data. -/
def Memory.wf (m : Memory) : Bool := SMap.wf 0 m.bytes && SMap.wf false m.poison && SMap.wf 0 m.bankfmt

/-- The memory of a checkpoint is in canonical form. -/
def Checkpoint.wf (k : Checkpoint) : Bool := SMap.wf 0 k.mem && SMap.wf false k.poison && SMap.wf 0 k.safe

/-- The memories of the machine are in canonical form. -/
def State.memWf (s : State) : Bool :=
  s.mem.wf && (match s.mod.image with
    | some k => k.wf
    | none => true)

/-- Registers of a core that the spec hard-wires hold nothing: s0 (06 R110). -/
def CCRegs.wf (c : CCRegs) : Bool := SMap.wf 0 c.s && SMap.get 0 c.s 0 == 0

/-- One step goes on. -/
def stepsOn (s : State) : Prop := ∃ t, step s = .next t

/-- A run of n steps that neither faults nor is refused. -/
def runsOn : Nat → State → Prop
  | 0, _ => True
  | n + 1, s => ∃ t, step s = .next t ∧ runsOn n t

/-- A state from which an outcome goes on satisfies a property. -/
def Outcome.keeps (P : State → Prop) (o : Host.Outcome State Fault Refusal) : Prop :=
  match o with
  | .next t => P t
  | .fault _ => True
  | .refused _ => True

end Sys2Proof.Machine
end

