-- ==== Sys2Proof/Safety/Frame.lean ====
section
/-! DEFINITION. How the statements say what an instruction leaves: the state after it is the state before with the named
changes and nothing else. `Same` compares two states in everything the spec names; it sets aside only the model's own
bookkeeping of instructions that wait. -/

namespace Sys2Proof.Machine

/-- A core without the bookkeeping of waits: the stall codes of its units, and answers kept for an instruction in progress. -/
def Proc.still (x : Proc) : Proc := { x with stall := [], coh := { x.coh with rbuf := [] } }

/-- Messages in flight without the model's tags by which answers find the instruction that waits for them. -/
def Flight.still (f : Flight) : Flight := { f with remotes := f.remotes.map fun r => { r with tag := 0 } }

/-- Equal in every register, queue, counter, table and byte of memory, and in everything else the spec names. -/
structure Same (t u : State) : Prop where
  procs : ∀ q, (t.proc q).still = (u.proc q).still
  flight : t.fl.still = u.fl.still
  rest : { t with procs := [], fl := u.fl } = { u with procs := [] }
  bytes : ∀ a, t.mem.read a = u.mem.read a

/-- The instruction ends and leaves exactly the state u. -/
def Leaves (o : Out) (u : State) : Prop := ∃ t, o = .next t ∧ Same t u

/-- PC goes to v. -/
def CCRegs.at (r : CCRegs) (v : Word) : CCRegs := { r with pc := v }

/-- Control or lookup core p executes, and the guard lets the instruction run (R82). -/
def Runs (s : State) (p : Nat) (gd : Guard) : Prop := s.actor = .cc p ∧ (s.cc p).guard gd = true

/-- The instruction of n bytes on core p leaves u with PC after it (R77). -/
def Done (o : Out) (p n : Nat) (s u : State) : Prop :=
  Leaves o (u.modCC p fun r => r.at ((s.cc p).pc + BitVec.ofNat 64 n))

end Sys2Proof.Machine
end

