-- ==== Sys2Proof/Safety/CoreForms.lean ====
section
/-! DEFINITION. The register instructions of a core as the rules give them, over integers (06_control_core_registers.md
R125-R138, R143-R148): the tables that the statements range over. Written apart from the meanings in Machine/Alu.lean. -/

namespace Sys2Proof.Machine

/-- Signed value of the low w bits (R8). -/
abbrev sg (w a : Nat) : Int := signExt w a

/-- The two-operand Reg instructions and their values over w-bit operands a and b, before it is truncated to w bits (R126-R128). -/
def regTable (o : RegOp) : List (Instr × (Nat → Nat → Nat → Int)) := [
  (.add o, fun _ a b => a + b),
  (.sub o, fun _ a b => (a : Int) - b),
  (.and o, fun _ a b => (a &&& b : Nat)),
  (.or o, fun _ a b => (a ||| b : Nat)),
  (.xor o, fun _ a b => (a ^^^ b : Nat)),
  (.andn o, fun w a b => (a &&& (2 ^ w - 1 - b) : Nat)),
  (.shl o, fun w a b => (a * 2 ^ (b % w) : Nat)),
  (.shr o, fun w a b => (a / 2 ^ (b % w) : Nat)),
  (.sra o, fun w a b => sg w a / 2 ^ (b % w)),
  (.rol o, fun w a b => (a * 2 ^ (b % w) + a / 2 ^ (w - b % w) : Nat)),
  (.min o, fun w a b => min (sg w a) (sg w b)),
  (.max o, fun w a b => max (sg w a) (sg w b)),
  (.minz o, fun _ a b => (min a b : Nat)),
  (.maxz o, fun _ a b => (max a b : Nat)),
  (.absd o, fun w a b => ((sg w a - sg w b).natAbs : Nat)),
  (.mul o, fun _ a b => (a * b : Nat)),
  (.mulh o, fun w a b => sg w a * sg w b / 2 ^ w),
  (.mulhz o, fun w a b => (a * b / 2 ^ w : Nat)),
  (.div o, fun w a b => if b = 0 then -1 else (sg w a).tdiv (sg w b)),
  (.divz o, fun _ a b => if b = 0 then -1 else (a / b : Nat)),
  (.rem o, fun w a b => if b = 0 then sg w a else (sg w a).tmod (sg w b)),
  (.remz o, fun _ a b => if b = 0 then a else (a % b : Nat))]

/-- A one-operand Reg instruction over a w-bit operand (R127). -/
def unTable (o : UnOp) : List (Instr × (Nat → Nat → Nat)) := [
  (.clz o, fun w a => if a = 0 then w else w - 1 - Nat.log2 a),
  (.ctz o, fun w a => ((List.range w).filter fun k => a % 2 ^ (k + 1) == 0).length),
  (.popc o, fun w a => ((List.range w).filter fun k => a.testBit k).length),
  (.brev o, fun w a => ((List.range w).map fun k => if a.testBit k then 2 ^ (w - 1 - k) else 0).sum),
  (.bswap o, fun w a => ((List.range (w / 8)).map fun k => a / 256 ^ k % 256 * 256 ^ (w / 8 - 1 - k)).sum)]

/-- Width of the operation: 32 with X set (R126). -/
def xWidth (x : Bool) : Nat := if x then 32 else 64

/-- A w-bit result as a register holds it: sign-extended (R126). -/
def asWord (w : Nat) (v : Int) : Word := BitVec.ofInt 64 (signExt w (trunc w v))

/-- Destination and value of the other instructions that write one scalar register: guard, length in bytes, destination,
value (R125, R129, R130, R133, R136-R138, R143). -/
def scalarTable (gd : Guard) (d a b i : BitVec 5) (o : ImmOp) (sh : BitVec 4) (imm : BitVec 27) (ha sel : BitVec 4)
    (pos len : BitVec 6) : List (Instr × Guard × Nat × BitVec 5 × (CCRegs → Word)) := [
  (.mov d a, always, 2, d, fun r => r.readS a),
  (.addC d a, always, 2, d, fun r => r.readS d + r.readS a),
  (.subC d a, always, 2, d, fun r => r.readS d - r.readS a),
  (.addiC d i, always, 2, d, fun r => r.readS d + BitVec.ofInt 64 (sg 5 i.toNat)),
  (.liC d i, always, 2, d, fun _ => BitVec.ofInt 64 (sg 5 i.toNat)),
  (.shliC d i, always, 2, d, fun r => BitVec.ofNat 64 ((r.readS d).toNat * 2 ^ i.toNat)),
  (.shriC d i, always, 2, d, fun r => BitVec.ofNat 64 ((r.readS d).toNat / 2 ^ i.toNat)),
  (.andC d a, always, 2, d, fun r => r.readS d &&& r.readS a),
  (.orC d a, always, 2, d, fun r => r.readS d ||| r.readS a),
  (.xorC d a, always, 2, d, fun r => r.readS d ^^^ r.readS a),
  (.addi o, o.gd, 4, o.d, fun r => r.readS o.a + BitVec.ofInt 64 (sg 10 o.imm.toNat)),
  (.andi o, o.gd, 4, o.d, fun r => r.readS o.a &&& BitVec.ofInt 64 (sg 10 o.imm.toNat)),
  (.ori o, o.gd, 4, o.d, fun r => r.readS o.a ||| BitVec.ofInt 64 (sg 10 o.imm.toNat)),
  (.xori o, o.gd, 4, o.d, fun r => r.readS o.a ^^^ BitVec.ofInt 64 (sg 10 o.imm.toNat)),
  (.shli o, o.gd, 4, o.d, fun r => BitVec.ofNat 64 ((r.readS o.a).toNat * 2 ^ o.imm.toNat)),
  (.shri o, o.gd, 4, o.d, fun r => BitVec.ofNat 64 ((r.readS o.a).toNat / 2 ^ o.imm.toNat)),
  (.srai o, o.gd, 4, o.d, fun r => BitVec.ofInt 64 ((r.readS o.a).toInt / 2 ^ o.imm.toNat)),
  (.muli o, o.gd, 4, o.d, fun r => r.readS o.a * BitVec.ofInt 64 (sg 10 o.imm.toNat)),
  (.lea gd d a b sh, gd, 4, d, fun r => r.readS a + BitVec.ofNat 64 ((r.readS b).toNat * 2 ^ sh.toNat)),
  (.pget gd d, gd, 4, d, fun r =>
      BitVec.ofNat 64 ((List.range 8).map fun k => if r.readP (BitVec.ofNat 3 k) then 2 ^ k else 0).sum),
  (.li gd d imm, gd, 6, d, fun _ => BitVec.ofInt 64 (sg 27 imm.toNat)),
  (.lih gd d imm, gd, 6, d, fun r => BitVec.ofNat 64 ((r.readS d).toNat * 2 ^ 27 + imm.toNat)),
  (.addpc gd d imm, gd, 6, d, fun r => r.pc + BitVec.ofInt 64 (sg 27 imm.toNat)),
  (.bfx gd d a pos len, gd, 6, d, fun r =>
      BitVec.ofNat 64 ((r.readS a).toNat / 2 ^ pos.toNat % 2 ^ (len.toNat + 1))),
  (.bfxs gd d a pos len, gd, 6, d, fun r =>
      BitVec.ofInt 64 (sg (len.toNat + 1) ((r.readS a).toNat / 2 ^ pos.toNat))),
  (.bfi gd d a pos len, gd, 6, d, fun r =>
      BitVec.ofNat 64 ((List.range 64).map fun k =>
        if (if pos.toNat ≤ k ∧ k ≤ pos.toNat + len.toNat then (r.readS a).getLsbD (k - pos.toNat) else (r.readS d).getLsbD k)
        then 2 ^ k else 0).sum),
  (.hget gd d ha sel, gd, 6, d, fun r => H.getSel (r.readH ha) sel.toNat)]

/-- Whether a condition holds of two w-bit operands (R131). -/
def condHolds (f w a b : Nat) : Bool :=
  match f with
  | 0 => a == b
  | 1 => a != b
  | 2 => decide (sg w a < sg w b)
  | 3 => decide (sg w b ≤ sg w a)
  | 4 => decide (a < b)
  | 5 => decide (b ≤ a)
  | 6 => a &&& b != 0
  | 7 => a &&& b == 0
  | _ => decide ((a + 2 ^ w - b) % 2 ^ w < 2 ^ (w - 1))

/-- The immediate of CMPI as a number of 64 bits: signed for EQ, NE, LT, GE and SGE (R131). -/
def cmpiNat (f imm : Nat) : Nat := if f ≤ 3 ∨ f = 8 then trunc 64 (sg 6 imm) else imm

/-- The instructions that write predicate p, with the value (R131-R133). -/
def predTable (gd : Guard) (w : Bool) (p a b : BitVec 3) (x y : BitVec 5) (imm : BitVec 6) (c : BitVec 4) :
    List (Instr × (CCRegs → Bool)) := [
  (.cmp gd w p x y c, fun r =>
      condHolds c.toNat (xWidth w) ((r.readS x).toNat % 2 ^ xWidth w) ((r.readS y).toNat % 2 ^ xWidth w)),
  (.cmpi gd p x imm c, fun r => condHolds c.toNat 64 (r.readS x).toNat (cmpiNat c.toNat imm.toNat)),
  (.pand gd p a b, fun r => r.readP a && r.readP b),
  (.por gd p a b, fun r => r.readP a || r.readP b),
  (.pxor gd p a b, fun r => xor (r.readP a) (r.readP b)),
  (.pandn gd p a b, fun r => r.readP a && !r.readP b),
  (.pnot gd p a, fun r => !r.readP a),
  (.pmov gd p a, fun r => r.readP a),
  (.pset gd p, fun _ => true),
  (.pclr gd p, fun _ => false)]

/-- PC-relative transfers: guard, offset in parcels, whether it is taken, length in bytes, whether s31 takes the link (R125,
R134). -/
def branchTable (gd : Guard) (k : BitVec 3) (r5 : BitVec 5) (r10 : BitVec 10) (r16 : BitVec 16) (r32 : BitVec 32) (hint : Bool) :
    List (Instr × Guard × Int × (CCRegs → Bool) × Nat × Bool) := [
  (.brs r10, always, r10.toInt, fun _ => true, 2, false),
  (.brp k r5, always, r5.toInt, fun c => c.readP k, 2, false),
  (.br gd r16 hint, gd, r16.toInt, fun _ => true, 4, false),
  (.brl gd r32 hint, gd, r32.toInt, fun _ => true, 6, false),
  (.call gd r16, gd, r16.toInt, fun _ => true, 4, true)]

/-- Transfers through a register: guard, register, whether s31 takes the link (R125, R135). -/
def jumpTable (gd : Guard) (a : BitVec 5) : List (Instr × Guard × BitVec 5 × Bool) := [
  (.retC, always, 31, false), (.jmp gd a, gd, a, false), (.callr gd a, gd, a, true), (.ret gd, gd, 31, false)]

/-- The instructions that write handle d, with the handle or the cause of the fault (R143-R148). -/
def handleTable (gd : Guard) (d a : BitVec 4) (x fmt : BitVec 5) (rank : BitVec 3) (cls sel : BitVec 4) (scaled : Bool)
    (dim : BitVec 2) : List (Instr × (CCRegs → Except Cause Handle)) := [
  (.hmk gd d x fmt rank cls scaled, fun r => .ok (H.make (r.readS x) fmt rank cls scaled)),
  (.hset gd d sel x, fun r => .ok (H.put (r.readH d) (H.selField sel.toNat).1 (H.selField sel.toNat).2 (r.readS x).toNat)),
  (.hmov gd d a, fun r => .ok (r.readH a)),
  (.hadv gd d a x dim, fun r => H.adv (r.readH a) (r.readS x) dim.toNat),
  (.hsub gd d a x, fun r => H.sub (r.readH a) (r.readS x))]

/-- CSR instructions: destination, and the value written from the old one (R139). -/
def csrTable (gd : Guard) (d a : BitVec 5) (n : BitVec 12) :
    List (Instr × Option (BitVec 5) × (CCRegs → Word → Option Word)) := [
  (.csrr gd d n, some d, fun _ _ => none),
  (.csrw gd a n, none, fun r _ => some (r.readS a)),
  (.csrx gd d a n, some d, fun r _ => some (r.readS a)),
  (.csrs gd d a n, some d, fun r old => some (old ||| r.readS a)),
  (.csrc gd d a n, some d, fun r old => some (old &&& ~~~r.readS a))]

/-- Guard and length in bytes of an instruction of a core (R77, R82); none where it has no guard field, or belongs to
another unit. -/
def guardOf (i : Instr) : Option (Guard × Nat) :=
  match i.form with
  | some (.c32 f) => some (f.gd, 4)
  | some (.c48 f) => some (f.gd, 6)
  | _ => none

end Sys2Proof.Machine
end

