-- ==== Sys2Proof/Safety/EventForms.lean ====
section
/-! DEFINITION. What the statements about events have in common: a fault record that is written (15 R334-R337) and an operator
block that retires (18 R388). -/

namespace Sys2Proof.Machine

/-- One more record of context x: in its queue, or counted as lost where the queue is full (R334, R337). -/
def Recorded (s u : State) (x : Nat) : Prop :=
  let q := (s.ctx x).fq
  let r := (u.ctx x).fq
  r.seq = q.seq + 1 ∧ r.head = q.head ∧
  (q.count < 256 → r.count = q.count + 1 ∧ r.lost = q.lost ∧ SMap.get 0 r.seqs ((q.head + q.count) % 256) = q.seq) ∧
  (256 ≤ q.count → r.count = q.count ∧ r.lost.toNat = min (q.lost.toNat + 1) 255)

/-- OB k of the graph at hdr has retired with a status, as long as the graph is in flight (R388, R397). -/
def Retired (u : State) (x hdr k : Nat) (st : ObStatus) : Prop :=
  ∀ g, u.graph x hdr = some g → (g.ob k).retired = true ∧ (g.ob k).status = st

/-- The flits that carry a payload to another module, at most 240 bytes of it each (16 R356). -/
def Flits (s u : State) (node type : Nat) (gid : BitVec 12) (score : Nat) (cls : BitVec 4) (arg : Nat) (payload : List Byte) : Prop :=
  ∃ l : List (BitVec 14 × List Byte), (∀ c ∈ l, c.2.length ≤ 240) ∧ l.flatMap (·.2) = payload ∧
    u.out = (l.map fun c => .flit node s.mod.node.toNat type gid score cls c.1 (BitVec.ofNat 32 arg) c.2).reverse ++ s.out

end Sys2Proof.Machine
end

