-- ==== Sys2Proof/Safety/MemoryForms.lean ====
section
/-! DEFINITION. Words the statements about memory use: the unit that accesses, the place an access reaches, what an access
may change besides the bytes it writes, and the results of the atomics as 09 R203 gives them. -/

namespace Sys2Proof.Machine

/-- Core p as the unit that makes an access. -/
def coreWho (s : State) (p : Nat) : Who := ⟨p, none, (s.proc p).ctxOf.getD 0, p⟩

/-- An aligned access of n bytes at ea is granted and goes to pl; t is s with the translation that it caches (R198, R374). -/
def Reach (s : State) (w : Who) (ea n : Nat) (k : Access) (pl : Place) (t : State) : Prop :=
  ea % n = 0 ∧ resolve w ea n k s = .ok pl t

/-- A plain load reaches pl, through a valid L1 sector or by translation; `home`: it is served at the home (R186, R202). -/
def ReachLoad (s : State) (w : Who) (ea n : Nat) (home : Bool) (pl : Place) (t : State) : Prop :=
  ea % n = 0 ∧ resolveLoad w ea n home s = .ok pl t

/-- No outstanding access of the unit bars an access of class cls to n bytes at va of this module (R199, R248, R358). -/
def InOrder (s : State) (w : Who) (cls : BitVec 4) (va n : Nat) : Prop :=
  ∀ r ∈ s.fl.remotes, r.bars w cls va n none = false

/-- Equal but for what serves accesses: cached translations, L1 sectors of core p, its count of misses, and the counter of
free choices. -/
structure ServedBy (p : Nat) (s t : State) : Prop where
  others : ∀ q, q ≠ p → t.proc q = s.proc q
  own : { t.proc p with coh := { (t.proc p).coh with l1 := (s.proc p).coh.l1 } } = s.proc p
  bytes : ∀ a, t.mem.read a = s.mem.read a
  rest : t = { s with procs := t.procs, clusters := t.clusters, free := t.free, mem := { s.mem with trans := t.mem.trans } }
  counted : ∀ c, t.cluster c = { s.cluster c with obs := { (s.cluster c).obs with perf := (t.cluster c).obs.perf } }

/-- Bytes of home key `key` are v, least significant first, and every other byte is as in m. -/
def Stored (m m' : Memory) (key n v : Nat) : Prop :=
  m'.read key n = v % 2 ^ (8 * n) ∧ ∀ a, a < key ∨ key + n ≤ a → m'.read a 1 = m.read a 1

/-- What an atomic leaves in memory, over old value x, operand b and compare value e of w bits (R203); none: nothing. -/
def amoResult (op w x b e : Nat) : Option Nat :=
  match op with
  | 0 => some (trunc w (x + b))
  | 1 => some (x &&& b)
  | 2 => some (x ||| b)
  | 3 => some (x ^^^ b)
  | 4 => some (trunc w (min (signExt w x) (signExt w b)))
  | 5 => some (trunc w (max (signExt w x) (signExt w b)))
  | 6 => some (min x b)
  | 7 => some (max x b)
  | 8 => some b
  | 9 => if x = e then some b else none
  | _ => some (fadd32 x b)

/-- The value an LD, LDACQ or ST size has: bytes and whether LD extends the sign (R201). -/
def loadForm (sz : BitVec 3) : Nat × Bool :=
  match sz.toNat with
  | 0 => (1, true) | 1 => (1, false) | 2 => (2, true) | 3 => (2, false) | 4 => (4, true) | 5 => (4, false) | _ => (8, false)

/-- The word that an LD of v leaves (R201). -/
def loaded (sz : BitVec 3) (v : Nat) : Word :=
  BitVec.ofInt 64 (if (loadForm sz).2 then signExt (8 * (loadForm sz).1) v else v)

end Sys2Proof.Machine
end

