-- ==== Sys2Proof/Safety/StreamForms.lean ====
section
/-! DEFINITION. Words the statements about the vector engine and the Press use: an instruction at the head of a stream, what
its completion leaves, the registers it writes, and the operations of 07_vector_registers.md R165 element by element. -/

namespace Sys2Proof.Machine

/-! ## Instructions of a stream (R73, R77, R268, R275) -/

/-- Engine (true: the Press), common fields, parcels, and charge of a vector or Press instruction (R87, R91, R380, R439). -/
structure StreamForm where
  px : Bool
  c : VCom
  len : Nat
  cost : State → Nat → Nat

/-- The live weight of class k in the core's cluster. -/
def byClass (k n : Nat) (s : State) (p : Nat) : Nat := n * (weightOf (s.cluster (p / 4)).wt.live k).toNat

def streamForm : Instr → Option StreamForm
  | .vadd o | .vsub o | .vmul o | .vmin o | .vmax o | .vminz o | .vmaxz o | .vaddsat o | .vsubsat o | .vand o | .vor o
  | .vxor o | .vshl o | .vshr o | .vsra o | .vperm o => some ⟨false, o.c, 2, byClass 16 1⟩
  | .vabs o | .vneg o | .vclz o | .vpopc o | .vmov o => some ⟨false, o.c, 2, byClass 16 1⟩
  | .vrcp o | .vrsq o | .vsqrt o | .vex2 o | .vlg2 o | .vsinp o | .vcosp o | .vsig o | .verf o =>
    some ⟨false, o.c, 2, byClass 17 1⟩
  | .vdiv o => some ⟨false, o.c, 2, byClass 17 1⟩
  | .vsel c _ _ _ => some ⟨false, c, 2, byClass 16 1⟩
  | .vtrn c _ _ => some ⟨false, c, 2, byClass 16 1⟩
  | .vbcl c _ _ _ => some ⟨false, c, 2, byClass 16 1⟩
  | .vbcs c _ _ => some ⟨false, c, 2, byClass 16 1⟩
  | .mpop c | .minv c => some ⟨false, c, 2, byClass 16 1⟩
  | .mset c _ | .mget c _ | .vbrz c _ => some ⟨false, c, 2, byClass 16 1⟩
  | .vext c _ _ => some ⟨false, c, 2, byClass 16 1⟩
  | .vfma o | .vfms o | .vfnma o => some ⟨false, o.c, 3, byClass 18 1⟩
  | .vcmp c _ _ _ _ => some ⟨false, c, 3, byClass 16 1⟩
  | .vcvt c _ _ _ _ _ _ _ => some ⟨false, c, 3, byClass 18 1⟩
  | .vfsh c _ _ _ _ _ _ _ => some ⟨false, c, 3, byClass 18 1⟩
  | .vqblk c _ _ _ _ _ _ => some ⟨false, c, 3, byClass 18 1⟩
  | .vred o | .vscan o => some ⟨false, o.c, 3, byClass 19 1⟩
  | .vshape c _ _ => some ⟨false, c, 3, byClass 16 1⟩
  | .viota c _ _ _ _ => some ⟨false, c, 3, byClass 16 1⟩
  | .vli c _ _ _ => some ⟨false, c, 3, byClass 16 1⟩
  | .vsprSet c _ _ => some ⟨false, c, 3, byClass 16 1⟩
  | .vsprShift c _ => some ⟨false, c, 3, byClass 16 1⟩
  | .vrrbSet c _ | .vrrbAdd c _ => some ⟨false, c, 3, byClass 16 1⟩
  | .vld o | .vst o | .vldu o => some ⟨false, o.c, 3, byClass 20 1⟩
  | .vstb o | .vgth o | .vsct o | .vsca o | .vldl o | .vstl o => some ⟨false, o.c, 3, byClass 20 1⟩
  | .vlda c _ _ _ _ _ => some ⟨false, c, 3, byClass 20 1⟩
  | .pmm c _ ha hb _ _ => some ⟨true, c, 3, streamProduct ha hb⟩
  | .pmmg c _ ha hb _ _ _ => some ⟨true, c, 3, streamProduct ha hb⟩
  | .pres c _ _ _ _ _ _ => some ⟨true, c, 3, byClass 3 16⟩
  | .pstr c _ _ => some ⟨true, c, 3, byClass 3 16⟩
  | .pldr c _ _ _ _ => some ⟨true, c, 3, byClass 3 16⟩
  | .prel c _ => some ⟨true, c, 3, byClass 4 1⟩
  | .pscl c _ _ => some ⟨true, c, 3, byClass 4 1⟩
  | .padd c _ _ _ _ => some ⟨true, c, 3, byClass 4 1⟩
  | _ => none

/-- The next instruction of the stream of core p, under command cap: its token action is d, its tests let it run, its charge is
paid and the token it needs is popped (R77, R268, R275). -/
structure Ready (s : State) (p : Nat) (px : Bool) (c : VCom) (cap : Capture) (d : BitVec 16) : Prop where
  unit : streamCore s px = some p
  command : (seqr s p px).cap = some cap
  token : (seqr s p px).token c.tk = some d
  runs : streamRuns s p (seqr s p px) c = true
  paid : (seqr s p px).phase = .paid
  popped : d.getLsbD 14 = true → (seqr s p px).popped.isSome = true

/-- Where the sequencer stands after an instruction of n parcels with token action d: past it, its push owed (R268). -/
def Sequencer.past (q : Sequencer) (n : Nat) (d : BitVec 16) : Sequencer :=
  ({ q.advance n with push := if d.getLsbD 10 then some (fld d 7 3).toNat else none }).settle

/-- The instruction of n parcels completes and leaves u with the sequencer past it. -/
def StreamDone (o : Out) (p : Nat) (px : Bool) (n : Nat) (d : BitVec 16) (u : State) : Prop :=
  Leaves o (modSeqr u p px fun q => q.past n d)

/-- The instruction of the stream faults; nothing else of it is done (R178, R268). -/
def StreamFaults (o : Out) (s : State) (p : Nat) (px : Bool) (cap : Capture) (c : Cause) (addr : Nat) (detail : BitVec 24) : Prop :=
  o = .next (streamFault s p px cap c addr (ringKey s p px (seqr s p px).here) detail)

/-- What the VE instruction runs under. -/
def veItem (s : State) (p : Nat) (cap : Capture) : Item :=
  let b := (seqr s p false).block
  ⟨p, false, cap, (b.map (·.it)).getD 0, (b.map (·.pos)).getD 0⟩

/-- The formats a command of a stream uses: those captured with it (R378). -/
def streamFormats (s : State) (p : Nat) (px : Bool) (cap : Capture) : Captured := ⟨(seqr s p px).fmts, cap.core, cap.fmt⟩

/-! ## Writes of vector registers (R152, R153, R164) -/

/-- The registers v' are v with the active elements of v[VD], in type t, at f; every other bit of v[VD], every other
register, shape, base, mask and predicate is as before. -/
structure Written (v v' : VERegs) (m : Bool) (vd : BitVec 5) (t : BitVec 4) (f : Nat → Nat) : Prop where
  active : ∀ i ∈ v.active m, vBits t * (i + 1) ≤ 4096 → elem (v'.reg vd) (vBits t) i = f i % 2 ^ vBits t
  kept : ∀ b, b < 4096 → (∀ i ∈ v.active m, b / vBits t ≠ i) → (v'.reg vd).getLsbD b = (v.reg vd).getLsbD b
  others : ∀ k, k ≠ v.phys vd → SMap.get 0 v'.v k = SMap.get 0 v.v k
  rest : { v' with v := [] } = { v with v := [] }

/-- The instruction of n parcels completes, having written the active elements of v[VD] and nothing else. -/
def VecWrites (o : Out) (s : State) (p n : Nat) (d : BitVec 16) (m : Bool) (vd : BitVec 5) (t : BitVec 4) (f : Nat → Nat) : Prop :=
  ∃ v' : VERegs, Written (s.ve p) v' m vd t f ∧ StreamDone o p false n d (s.modVE p fun _ => v')

/-! ## Element operations (R165, R167) -/

/-- An operation on w-bit integers of the type's signedness, on a floating format, and on the bits of any other type; none: the
instruction does not accept the type (R157). -/
structure ElemRule where
  int : (w : Nat) → Bool → BitVec w → BitVec w → BitVec w
  fp : Option (FFmt → Nat → Nat → Nat)
  narrow : Option (Nat → Nat → Nat)

/-- The rule's result on patterns of type t. -/
def ElemRule.on (r : ElemRule) (t : BitVec 4) : Option (Nat → Nat → Nat) :=
  if t.toNat ≤ 5 then
    some fun a b => (r.int (vBits t) (t.toNat % 2 == 0) (BitVec.ofNat _ a) (BitVec.ofNat _ b)).toNat
  else if t.toNat ≤ 8 then r.fp.map fun g => g (vFmt t)
  else r.narrow

/-- A floating operation on exact values, rounded once under RNE (R58, R164). -/
def onValues (g : XVal → XVal → XVal) (f : FFmt) (a b : Nat) : Nat := roundF f .rne false 0 (g (decodeF f a) (decodeF f b))

/-- Clamp to the range of w-bit integers. -/
def saturate (w : Nat) (sgn : Bool) (x : Int) : BitVec w :=
  if sgn then BitVec.ofInt w (max (-(2 : Int) ^ (w - 1)) (min ((2 : Int) ^ (w - 1) - 1) x))
  else BitVec.ofInt w (max 0 (min ((2 : Int) ^ w - 1) x))

/-- The view of the type's signedness. -/
def view {w : Nat} (sgn : Bool) (x : BitVec w) : Int := if sgn then x.toInt else x.toNat

/-- A bitwise operation accepts every type. -/
def bitRule (g : Nat → Nat → Nat) : ElemRule := ⟨fun w _ x y => BitVec.ofNat w (g x.toNat y.toNat), some fun _ => g, some g⟩

/-- The binary operations of R165 and R167; minimum and maximum by the order in which -0 is below +0. -/
def binaryRules : List ((VBin → Instr) × ElemRule) :=
  [(.vadd, ⟨fun _ _ x y => x + y, some (onValues (XVal.add false)), none⟩),
   (.vsub, ⟨fun _ _ x y => x - y, some (onValues fun x y => x.add false y.neg), none⟩),
   (.vmul, ⟨fun _ _ x y => x * y, some (onValues XVal.mul), none⟩),
   (.vmin, ⟨fun _ g x y => if view g y < view g x then y else x, some (onValues XVal.minIeee), none⟩),
   (.vmax, ⟨fun _ g x y => if view g x < view g y then y else x, some (onValues XVal.maxIeee), none⟩),
   (.vminz, ⟨fun _ _ x y => if y.toNat < x.toNat then y else x,
     some (onValues fun x y => if x.isNaN then y else if y.isNaN then x else x.minIeee y), none⟩),
   (.vmaxz, ⟨fun _ _ x y => if x.toNat < y.toNat then y else x,
     some (onValues fun x y => if x.isNaN then y else if y.isNaN then x else x.maxIeee y), none⟩),
   (.vaddsat, ⟨fun w g x y => saturate w g (view g x + view g y), none, none⟩),
   (.vsubsat, ⟨fun w g x y => saturate w g (view g x - view g y), none, none⟩),
   (.vand, bitRule (· &&& ·)), (.vor, bitRule (· ||| ·)), (.vxor, bitRule (· ^^^ ·)),
   (.vshl, ⟨fun _ _ x y => x <<< y.toNat, none, none⟩),
   (.vshr, ⟨fun _ _ x y => x >>> y.toNat, none, none⟩),
   (.vsra, ⟨fun _ _ x y => x.sshiftRight y.toNat, none, none⟩),
   (.vdiv, ⟨fun w g x y => if y = 0 then BitVec.allOnes w else if g then x.sdiv y else x.udiv y, some fpDiv, none⟩)]

/-- The unary operations of R165. -/
def unaryRules : List ((VUn → Instr) × ElemRule) :=
  [(.vabs, ⟨fun _ g x _ => if g && x.msb then -x else x, some fun f a _ => a % 2 ^ (f.width - 1), none⟩),
   (.vneg, ⟨fun _ _ x _ => -x, some fun f a _ => a ^^^ 2 ^ (f.width - 1), none⟩),
   (.vclz, ⟨fun w _ x _ => BitVec.ofNat w ((List.range w).takeWhile fun i => !x.getMsbD i).length, none, none⟩),
   (.vpopc, ⟨fun w _ x _ => BitVec.ofNat w ((List.range w).filter fun i => x.getLsbD i).length, none, none⟩),
   (.vmov, bitRule fun a _ => a)]

/-- The results that the table of R166 gives by name, of the k-th special function on a value in format f; none: the table gives
the function, whose value is rounded. -/
def specialResult (k : Nat) (f : FFmt) (x : XVal) : Option Nat :=
  let put (v : XVal) : Option Nat := some (roundF f .rne false 0 v)
  match x with
  | .nan => put .nan
  | .inf n => match k with
    | 0 => put (.fin n 0 0)
    | 1 => put (if n then .nan else .fin false 0 0)
    | 2 => put (if n then .nan else .inf false)
    | 3 => put (if n then .fin false 0 0 else .inf false)
    | 4 => put (if n then .nan else .inf false)
    | 5 => put .nan
    | 6 => put .nan
    | 7 => put (if n then .fin false 0 0 else .fin false 1 0)
    | _ => put (.fin n 1 0)
  | .fin n m e =>
    if m = 0 then match k with
      | 0 => put (.inf n)
      | 1 => put (.inf n)
      | 2 => put (.fin n 0 0)
      | 4 => put (.inf true)
      | 5 => put (.fin n 0 0)
      | 8 => put (.fin n 0 0)
      | _ => none
    else if n && (k == 1 || k == 2 || k == 4) then put .nan
    else if k = 5 && decide (0 ≤ e) then put (.fin n 0 0)
    else if k = 6 && e == -1 && m % 2 == 1 then put (.fin false 0 0)
    else if k = 4 && decide ((m : Int) = 2 ^ (-e).toNat) && decide (e ≤ 0) then put (.fin false 0 0)
    else none

/-- The special functions in the table's order. -/
def specialRules : List ((VUn → Instr) × Nat) :=
  [(.vrcp, 0), (.vrsq, 1), (.vsqrt, 2), (.vex2, 3), (.vlg2, 4), (.vsinp, 5), (.vcosp, 6), (.vsig, 7), (.verf, 8)]

/-! ## Folds (R68, R176, R177) -/

/-- The value a fold starts with at its first element, and its step; integer sums are of 32 bits. -/
def foldRule (op bw : Nat) (t : BitVec 4) : (Nat → Nat) × (Nat → Nat → Nat) :=
  let f := vFmt t
  let int := t.toNat ≤ 5
  match op with
  | 0 => if int then (fun x => trunc 32 (vIntVal t x), fun a x => trunc 32 (a + vIntVal t x))
    else (id, onValues (XVal.add false) f)
  | 1 => if int then (fun x => trunc 32 (vIntVal t x * vIntVal t x), fun a x => trunc 32 (a + vIntVal t x * vIntVal t x))
    else (fun x => onValues XVal.mul f x x,
      fun a x => roundF f .rne false 0 (((decodeF f x).mul (decodeF f x)).add false (decodeF f a)))
  | 2 => (id, fun a x => if int then (if vIntVal t a < vIntVal t x then x else a) else onValues XVal.maxIeee f a x)
  | 3 => (id, fun a x => if int then (if vIntVal t x < vIntVal t a then x else a) else onValues XVal.minIeee f a x)
  | _ => (id, fun a x => if bw = 0 then a &&& x else if bw = 1 then a ||| x else a ^^^ x)

/-- The fold of a set of elements in ascending order, and of an empty set. -/
def foldOf (op bw : Nat) (t : BitVec 4) : List Nat → Nat
  | x :: xs => xs.foldl (foldRule op bw t).2 ((foldRule op bw t).1 x)
  | [] =>
    let int := t.toNat ≤ 5
    match op with
    | 2 => if int then trunc (vBits t) (if t.toNat % 2 = 0 then -(2 : Int) ^ (vBits t - 1) else 0) else roundF (vFmt t) .rne false 0 (.inf true)
    | 3 => if int then (if t.toNat % 2 = 0 then 2 ^ (vBits t - 1) - 1 else 2 ^ vBits t - 1) else roundF (vFmt t) .rne false 0 (.inf false)
    | 6 => if bw = 0 then 2 ^ vBits t - 1 else 0
    | _ => 0

/-- The active elements of a set: those of row r, or all. -/
def foldSet (v : VERegs) (row m : Bool) (r : Nat) : List Nat :=
  if row then (v.active m).filter fun i => i / v.cols == r else v.active m

/-- Element x before element y in the order of MINIDX and MAXIDX (R69). -/
def keyBefore (t : BitVec 4) (x y : Nat) : Bool :=
  if t.toNat ≤ 5 then decide (vIntVal t x < vIntVal t y) else (decodeElem (vCode t) x).totalLt (decodeElem (vCode t) y)

/-! ## Elements in the on-chip windows (R183, R210-R213) -/

/-- Every run of bytes lies in a window that the unit may access, and no byte of it is poisoned. -/
def OnChip (s : State) (w : Who) (l : List (Nat × Nat)) : Prop :=
  ∀ r ∈ l, 0xF000000000000 ≤ r.1 ∧ ∃ key, windowKey s w r.1 r.2 = some key ∧ s.mem.poisoned key r.2 = false

/-- No outstanding access of the unit bars an access of class cls to these runs of bytes (R199, R248). -/
def Unbarred (s : State) (w : Who) (cls : BitVec 4) (l : List (Nat × Nat)) : Prop := ∀ r ∈ l, InOrder s w cls r.1 r.2

/-- The dim-0 size and the strides of a handle are multiples of k elements (R56). -/
def Multiples (h : Handle) (k : Int) : Prop :=
  ((H.size h 0 : Nat) : Int) % k = 0 ∧ ∀ j, 1 ≤ j → j ≤ 3 → j < H.rank h → H.stride h j % k = 0

/-- What R56 asks of a handle's numbers for elements of wd bits, and of others that count elements. -/
def Counted (h : Handle) (wd : Nat) (l : List Int) : Prop :=
  (wd = 6 → Multiples h 4 ∧ ∀ x ∈ l, x % 4 = 0) ∧ (wd = 4 → Multiples h 2 ∧ ∀ x ∈ l, x % 2 = 0)

/-- The home key of n bytes at a window address. -/
def chipKey (s : State) (w : Who) (va n : Nat) : Nat := (windowKey s w va n).getD 0

/-- The element of wd bits at a bit address: whole bytes, or bits of one byte or of two. -/
def chipElem (s : State) (w : Who) (b : Int) (wd : Nat) : Nat :=
  let va := trunc 52 (b / 8)
  if 8 ≤ wd then s.mem.read (chipKey s w va (wd / 8)) (wd / 8)
  else (s.mem.read (chipKey s w va 1) 1 + 256 * s.mem.read (chipKey s w (trunc 52 (b / 8 + 1)) 1) 1) / 2 ^ (b % 8).toNat % 2 ^ wd

/-- A byte of a window with the bits of a mask replaced. -/
def chipMerge (s : State) (w : Who) (m : Memory) (va mask val : Nat) : Memory :=
  let k := chipKey s w va 1
  m.write k 1 ((m.read k 1 &&& (255 - mask)) ||| val)

/-- The memory m with the element at a bit address at x. -/
def chipPut (s : State) (w : Who) (wd : Nat) (m : Memory) (e : Int × Nat) : Memory :=
  let va := trunc 52 (e.1 / 8)
  let o := (e.1 % 8).toNat
  if 8 ≤ wd then m.write (chipKey s w va (wd / 8)) (wd / 8) (e.2 % 2 ^ wd)
  else
    let mask := (2 ^ wd - 1) * 2 ^ o
    let val := e.2 % 2 ^ wd * 2 ^ o
    let m := chipMerge s w m va (mask % 256) (val % 256)
    if o + wd ≤ 8 then m else chipMerge s w m (trunc 52 (e.1 / 8 + 1)) (mask / 256) (val / 256)

/-- A handle's tile may be read: it names none, or a valid one of the context without a pending copy (R369). -/
def TileOpen (s : State) (p x : Nat) (h : Handle) : Prop :=
  H.tile h = 0xFFF ∨
  (copyPending s x (tileCluster p (H.base h).toNat) (H.tile h) = none ∧
    (let t := s.tile (tileCluster p (H.base h).toNat) (H.tile h); (t.st = 2 ∨ t.st = 3) ∧ t.ctx = x))

/-- The checks of R216 for one access: handle and shape, formats, alignment, windows, in their order. -/
structure AccessChecks where
  shape : Prop
  typed : Prop
  align : Option Nat
  window : Option Nat

/-- The outcome o of an instruction is its first failed check's fault. -/
def AccessChecks.faults (k : AccessChecks) (o : Out) (s : State) (p : Nat) (cap : Capture) : Prop :=
  (¬ k.shape → StreamFaults o s p false cap .shape 0 0) ∧
  (k.shape → ¬ k.typed → StreamFaults o s p false cap .fmtmismatch 0 0) ∧
  (k.shape → k.typed → ∀ a, k.align = some a → StreamFaults o s p false cap .align a 0) ∧
  (k.shape → k.typed → k.align = none → ∀ a, k.window = some a → StreamFaults o s p false cap .window a 0)

/-- All checks pass. -/
def AccessChecks.pass (k : AccessChecks) : Prop := k.shape ∧ k.typed ∧ k.align = none ∧ k.window = none

/-- The checks of an access of the VE through handle h to the runs of bytes l. -/
def vecAccess (s : State) (p : Nat) (cap : Capture) (h : Handle) (shape : Prop) (align : Option Nat) (l : List (Nat × Nat)) : AccessChecks :=
  let w := (veItem s p cap).who
  ⟨H.rankOk h = true ∧ shape,
   H.fmt h ≤ 20 ∧ ∀ r ∈ l, formatFits (streamFormats s p false cap) s w (H.fmt h) (vCode (s.ve p).ty) r = true,
   align, windowFails s w l⟩

end Sys2Proof.Machine
end

