-- ==== Sys2Proof/Safety/HodForms.lean ====
section
/-! DEFINITION. Words the statements about hod chains use: an entry at its body, what its completion leaves, and elements of tensors in
the on-chip windows (13_hod_chains.md R291-R298). -/

namespace Sys2Proof.Machine

/-- The hod of a core is at an entry of the chain that cap started; its charge is paid and its bank formats are read (R378). -/
structure HodEntry (s : State) (core : Nat) (hs : Bool) (cap : Capture) : Prop where
  unit : s.actor = .hod core hs
  command : (hodOf s core hs).cap = some cap
  paid : (hodOf s core hs).phase = .paid
  started : (hodOf s core hs).fmts.isSome = true

/-- Its Wait and its STILE wait are done: the body follows. -/
structure HodReady (s : State) (core : Nat) (hs : Bool) (cap : Capture) : Prop extends HodEntry s core hs cap where
  body : (hodOf s core hs).hphase = .body

/-- The body of the entry is done and leaves u: its post to `target` is owed, and the next entry is at `next`. -/
def HodDone (o : Out) (core : Nat) (hs : Bool) (h : HodHdr) (next : Option Nat) (target : Nat × Option Nat) (u : State) : Prop :=
  Leaves o (modHod u core hs fun q =>
    { q with hphase := .post, next := next, post := if h.pe then some (h, target.1, target.2) else none })

/-- Header and STILE, with the address whose cluster names it, of a hod entry. -/
def hodForm : Instr → Option (HodHdr × Nat × Nat)
  | .hcpy h src _ _ stile _ => some (h, stile.toNat, src.base.toNat)
  | .hcpyd h src _ _ stile _ _ => some (h, stile.toNat, src.base.toNat)
  | .hmcs h _ _ _ _ => some (h, 0xFFF, 0)
  | .hmsrc h src _ stile => some (h, stile.toNat, src.base.toNat)
  | .hfill h _ _ _ => some (h, 0xFFF, 0)
  | .hgath h src _ _ stile _ => some (h, stile.toNat, src.base.toNat)
  | .hhalo h src _ _ stile _ => some (h, stile.toNat, src.base.toNat)
  | .hwait h => some (h, 0xFFF, 0)
  | .hpost h _ => some (h, 0xFFF, 0)
  | .hlink h _ => some (h, 0xFFF, 0)
  | .htile h _ _ => some (h, 0xFFF, 0)
  | .hend h => some (h, 0xFFF, 0)
  | _ => none

/-- The core a post to a slot counter goes to, of an entry whose destination is at an on-chip address (R293). -/
def chipTarget (s : State) (t : Chain) (h : HodHdr) (va : Nat) : Nat × Option Nat :=
  let key := chipKey s t.who va 1
  if h.pe = true ∧ h.pk = true ∧ 0xFFD0000000000 ≤ key ∧ key < 0xFFD0000000000 + 2 ^ 28 then ((key - 0xFFD0000000000) / 2 ^ 20, none)
  else (t.cap.core, none)

/-- Element n of a descriptor from BASE, in elements (R294); a size of 0 stands for 65,536. -/
def elementOffset (d : Desc) (n : Nat) : Int :=
  let size (x : BitVec 16) : Nat := if x = 0 then 65536 else x.toNat
  let s0 : Nat := if 0 < d.rank.toNat then size d.size0 else 1
  let s1 : Nat := if 1 < d.rank.toNat then size d.size1 else 1
  let s2 : Nat := if 2 < d.rank.toNat then size d.size2 else 1
  let part (k : Nat) (i : Nat) (st : BitVec 24) : Int := if k < d.rank.toNat then i * st.toInt else 0
  part 0 (n % s0) d.stride0 + part 1 (n / s0 % s1) d.stride1 + part 2 (n / s0 / s1 % s2) d.stride2

/-- The bytes of an element's bits. -/
def elementRuns (e : HElem) (wd : Nat) : List (Nat × Nat) := elemRuns e.b wd

/-- The bits an entry writes for a source value of format fs: converted with one rounding, or as they are where formats agree or
one side is untyped (R197). -/
def hodConvert (mode : RMode) (u fs fd v : Nat) : Nat :=
  if fs = fd ∨ fs = 0 ∨ fd = 0 then v else encodeElem fd mode false u (decodeElem fs v)

/-- Memory after one element is copied, in the order of the entry (R294, R295). -/
def copyElement (s : State) (t : Chain) (mode : RMode) (dtile wd : Nat) (m : Memory) (e : HElem × HElem) : Memory :=
  let v := chipElem { s with mem := m } t.who e.1.b (hodBits e.1.fmt)
  let u := srBits (srSeed s t.cap) dtile e.2.n (srStep s t.cap)
  chipPut s t.who wd m (e.2.b, hodConvert mode u e.1.fmt e.2.fmt v % 2 ^ wd)

/-- Bytes that the chain reaches in the on-chip windows, none poisoned, no outstanding access of the hod in the way. -/
def Reached (s : State) (t : Chain) (l : List (Nat × Nat)) : Prop := OnChip s t.who l ∧ Unbarred s t.who 0 l

/-- Source and destination elements lie in windows the entry may reach, none of format XA. -/
def ChipPair (s : State) (t : Chain) (a b : Tensor) : Prop :=
  Reached s t ((a.el.flatMap fun e => elementRuns e (hodBits e.fmt)) ++ b.el.flatMap fun e => elementRuns e b.bits) ∧
  (∀ e ∈ a.el, e.fmt ≠ 20) ∧ (∀ e ∈ b.el, e.fmt ≠ 20)

/-- A magnitude in units of 2^dscale, toward zero, saturated at 2^32 - 1 (R296). -/
def unitsAt (dscale : Int) (x : XVal) : Nat :=
  match x with
  | .fin _ m e => min (if 0 ≤ e - dscale then m * 2 ^ (e - dscale).toNat else m / 2 ^ (dscale - e).toNat) (2 ^ 32 - 1)
  | _ => 2 ^ 32 - 1

/-- What an element adds to D and to Nw, from its new and old values (R296). -/
def measured (dscale : Int) (v d : XVal) : Nat × Nat :=
  match v, d with
  | .fin _ _ _, .fin _ _ _ => (unitsAt dscale (v.add false d.neg), unitsAt dscale v)
  | _, _ => (2 ^ 32 - 1, 2 ^ 32 - 1)

/-- The hod goes on after an entry: to the next one, or to the end of its chain, where a token may be owed (R291). -/
def Hod.goOn (q : Hod) : Hod :=
  match q.next with
  | some a =>
    let q := { q with addr := a, entry := none, islot := none, fmts := none, waitdone := false }
    { q with hphase := .entry, phase := .fresh, post := none, served := false }
  | none => if q.qpush.isSome then { q with hphase := .finish, post := none } else q.halt

/-- One element of an HCPYD with the sums D and Nw so far, measured against the old value (R296). -/
def measureElement (s : State) (t : Chain) (mode : RMode) (dtile wd : Nat) (dscale : Int) (acc : Memory × Nat × Nat) (e : HElem × HElem) :
    Memory × Nat × Nat :=
  let v := chipElem { s with mem := acc.1 } t.who e.1.b (hodBits e.1.fmt)
  let x := hodConvert mode (srBits (srSeed s t.cap) dtile e.2.n (srStep s t.cap)) e.1.fmt e.2.fmt v % 2 ^ wd
  let q := measured dscale (decodeElem e.2.fmt x) (decodeElem e.2.fmt (chipElem s t.who e.2.b wd))
  (copyElement s t mode dtile wd acc.1 e, acc.2.1 + q.1, acc.2.2 + q.2)

end Sys2Proof.Machine
end

