-- ==== Sys2Proof/Safety/PressForms.lean ====
section
/-! DEFINITION. Words the statements about the Press use: what contributions make of an element (03_number_formats.md R63-R67), what a
matrix product makes of a slot, and the conditions of its operands (10_accumulators_and_press.md R221, R226-R231). -/

namespace Sys2Proof.Machine

/-- Sum, tag and overflow mark of an element after one contribution of value v = V / 2^E: rounded to the nearest unit, ties to
even, clamped at 2^47 - 1 with the mark set; infinities and NaN go to the tag (R63, R65, R66). -/
def contributed (a : BitVec 64 × BitVec 2 × Bool) (v : XVal) : BitVec 64 × BitVec 2 × Bool :=
  match v with
  | .fin neg m x =>
    let n : Int := roundMag .rne neg 0 m x
    let sgn (k : Int) : Int := if neg then -k else k
    if 2 ^ 47 ≤ n then (a.1 + BitVec.ofInt 64 (sgn (2 ^ 47 - 1)), a.2.1, true) else (a.1 + BitVec.ofInt 64 (sgn n), a.2.1, a.2.2)
  | v => (a.1, tagAdd a.2.1 v, a.2.2)

/-- Sum, tag and overflow mark. -/
def Acc.triple (a : Acc) : BitVec 64 × BitVec 2 × Bool := (a.sum, a.tag, a.ovf)

/-- The exact scaled sum of products of block b, with rows of A and columns of B as lists (R63, R229). -/
def blockSum (e : BitVec 10) (b : Nat) (row col : List XVal) (sa sb : XVal) : XVal :=
  let part (l : List XVal) := (l.drop (32 * b)).take 32
  let sum := (List.zip (part row) (part col)).foldr (fun k s => (k.1.mul k.2).add false s) (.fin false 0 0)
  ((sum.mul sa).mul sb).scale (-e.toInt)

/-- What a product of rows of A with B does to the elements of a slot with exponent e: row r takes, for every pair (g, r), the
contributions of row g of A with each column of B; the residue goes with the sum; other elements stay. -/
def ProductEffect (s : State) (w : Who) (q : Pair) (rows : List (Nat × Nat)) (e : BitVec 10) (el el' : SMap Acc) : Prop :=
  ∀ r j, r < 128 → j < 128 →
    let old := SMap.get Acc.zero el (r * 128 + j)
    let new := SMap.get Acc.zero el' (r * 128 + j)
    let sources := (rows.filter fun g => g.2 == r).map (·.1)
    let nb := (q.a.cols + 31) / 32
    let colB := (List.range q.b.rows).map fun k => (rowValues s w q.b q.fb k).getD j (.fin false 0 0)
    let values := sources.flatMap fun g => (List.range nb).map fun b =>
      blockSum e b (rowValues s w q.a q.fa g) colB (scaleAt s w q.a.h (scaleStepA q.a.h) g b) (scaleAt s w q.b.h (scaleStepB q.b.h) b j)
    if sources = [] ∨ q.b.cols ≤ j then new = old
    else new.triple = values.foldl contributed old.triple ∧
      (old.resOk = true → old.sum.toInt.natAbs < 2 ^ 62 → values.length ≤ 32768 → new.resOk = true)

/-- The Press's job for a command of core p. -/
def pressJob (s : State) (p : Nat) (cap : Capture) : PressJob := ⟨p, cap, streamFormats s p true cap⟩

/-- The checks of a product's operands in their order (R226, R227, R229): the first that fails, with its address. -/
def operandFault (s : State) (t : PressJob) (ha hb : Handle) : Option (Cause × Nat) :=
  let w := t.who
  let a := viewOf t.fmts s w ha
  let b := viewOf t.fmts s w hb
  let sp := spBase + t.p * 2 ^ 20
  let sh := shBase + t.p / 4 * 2 ^ 22
  let ra := a.runs ++ scaleRuns ha a.rows (blocks a.cols) (scaleStepA ha)
  let rb := b.runs ++ scaleRuns hb (blocks a.cols) b.cols (scaleStepB hb)
  if ¬ ((H.rank ha = 1 ∨ H.rank ha = 2) ∧ H.rank hb = 2) then some (.shape, 0)
  else if ¬ (a.rows ≤ 128 ∧ b.cols ≤ 128 ∧ b.rows = a.cols) then some (.shape, 0)
  else if ¬ (packed ha a.cols a.bits = true ∧ packed hb b.cols b.bits = true) then some (.shape, 0)
  else match formatOver t.fmts s w (H.fmt ha) a.runs, formatOver t.fmts s w (H.fmt hb) b.runs with
    | some fa, some fb =>
      if fa = 0 ∨ fb = 0 then some (.fmtmismatch, 0)
      else if kcOf fa fb = none then some (.shape, 0)
      else if ¬ ∀ r ∈ ra, inMemory s w sp (2 ^ 20) r = true then some (.window, (H.base ha).toNat)
      else if ¬ ∀ r ∈ rb, inMemory s w sh (2 ^ 22) r = true then some (.window, (H.base hb).toNat)
      else none
    | _, _ => some (.fmtmismatch, 0)

/-- The operands of a product that passes its checks. -/
def operands (s : State) (t : PressJob) (ha hb : Handle) : Pair :=
  let w := t.who
  let a := viewOf t.fmts s w ha
  let b := viewOf t.fmts s w hb
  let fa := (formatOver t.fmts s w (H.fmt ha) a.runs).getD 0
  let fb := (formatOver t.fmts s w (H.fmt hb) b.runs).getD 0
  ⟨a, b, fa, fb, (kcOf fa fb).getD 1⟩

/-- The Press instruction of a stream faults, with the slot in DETAIL where the spec names it. -/
def PressFaults (o : Out) (s : State) (p : Nat) (cap : Capture) (c : Cause) (addr : Nat) (ls : Option Nat) (low : Nat := 0) : Prop :=
  StreamFaults o s p true cap c addr (match ls with
    | some k => BitVec.ofNat 24 (k * 2 ^ 18 + low)
    | none => 0)

/-- The slot a first write binds, with its exponent; a bound slot stays (R220). -/
def bound (s : State) (p : Nat) (cap : Capture) (ls : Nat) (carry : Bool) (e : BitVec 10) : State :=
  if (slotOf s p cap.ctx ls).isSome then s else bindSlot s cap ls carry e

/-- The list of gathered pairs (g, r) behind a list handle in on-chip memory, up to its end mark (R231). -/
def gatheredPairs (s : State) (w : Who) (h : Handle) : List (Nat × Nat) :=
  let at_ (i j : Nat) : Nat := s.mem.read (chipKey s w (trunc 52 ((H.base h).toNat + 2 * (H.stride h 1 * (i : Int) + (j : Int)))) 2) 2
  ((List.range (H.size h 0)).map fun j => (at_ 0 j, at_ 1 j)).takeWhile fun g => g.1 != 0xFFFF

/-- The most pairs that share one row of the slot (R231). -/
def mostShared (l : List (Nat × Nat)) : Nat := (l.map fun g => (l.filter fun h => h.2 == g.2).length).foldl max 0

/-- Two rows of at most 128 numbers: the shape of a list of pairs. -/
def ListShape (h : Handle) : Prop := H.rank h = 2 ∧ H.size h 0 ≤ 128 ∧ H.size h 1 = 2

/-- A list that can be read at once: 16-bit numbers in on-chip memory, their tile there, no access in the way. -/
structure ListReady (s : State) (t : PressJob) (h : Handle) : Prop where
  shape : ListShape h
  typed : formatOver t.fmts s t.who (H.fmt h) [rowRun h 16 (H.size h 0) 0, rowRun h 16 (H.size h 0) 1] = some 4
  inside : windowFails s t.who (View.checked ⟨h, 16, 2, H.size h 0⟩ s t.who) = none
  tile : TileOpen s t.p t.cap.ctx h
  bytes : let runs := (List.range 2).flatMap fun i : Nat => (List.range (H.size h 0)).map fun j : Nat =>
      (trunc 52 ((H.base h).toNat + 2 * (H.stride h 1 * (i : Int) + (j : Int))), 2)
    OnChip s t.who runs ∧ Unbarred s t.who (H.cls h) runs

/-- Nothing stands in the way of a product's reads: the tiles of A and B are there, no sector is poisoned, and no outstanding
access of the Press bars the bytes read (R248, R369). -/
structure OperandsReady (s : State) (t : PressJob) (q : Pair) (rows : List (Nat × Nat)) : Prop where
  tileA : TileOpen s t.p t.cap.ctx q.a.h
  tileB : TileOpen s t.p t.cap.ctx q.b.h
  runsA : Unbarred s t.who (H.cls q.a.h) (q.runsA rows)
  runsB : Unbarred s t.who (H.cls q.b.h) (q.runsB rows)
  clean : s.mem.poison = []

/-- The slot may be written, is not poisoned and has room for nb more contributions (R221, R230, R243). -/
structure SlotReady (s : State) (p : Nat) (cap : Capture) (ls nb : Nat) (carry : Bool) : Prop where
  allowed : writeAllowed s cap (slotOf s p cap.ctx ls) carry = true
  sound : ∀ b, slotOf s p cap.ctx ls = some b → b.pz = false
  room : ((slotOf s p cap.ctx ls).map (·.cnt)).getD 0 + nb ≤ 65536

/-- The reply of a gathered product of n pairs, from source src (R278). -/
def productReplied (u : State) (p src : Nat) (tag : BitVec 3) (ls n : Nat) : State :=
  u.modQ p fun k => { k with reply := k.reply ++ [⟨BitVec.ofNat 64 (u.gts % 2 ^ 32 * 2 ^ 32 + src * 2 ^ 28 + tag.toNat * 2 ^ 25 +
    ls * 2 ^ 16 + n), wsOf u p⟩] }

/-- No poisoned sector. -/
def Clean (s : State) : Prop := s.mem.poison = []

/-- What a matrix product into logical slot ls leaves of s, its operands checked: the slot bound, nb contributions counted, the
elements as `ProductEffect` says (R230), and the counters of R460. -/
def ProductDone (s : State) (p : Nat) (cap : Capture) (q : Pair) (ls : Nat) (carry : Bool) (e : BitVec 10) (rows : List (Nat × Nat))
    (nb : Nat) (u : State) : Prop :=
  ∃ f : Slot → SMap Acc, (∀ sl, ProductEffect s (pressJob s p cap).who q rows sl.e sl.el (f sl)) ∧
    u = perfAdd (perfAdd (modSlot (bound s p cap ls carry e) p cap.ctx ls fun sl =>
      { sl with cnt := sl.cnt + nb, el := f sl }).bump (p / 4) 0x04 p cap.ctx nb) (p / 4) 0x03 p cap.ctx ((q.a.cols + q.kc - 1) / q.kc)

end Sys2Proof.Machine
end

