-- ==== Sys2Proof/Safety/Streams.lean ====
section
/-! DEFINITION. Which streams an instruction may stand in (04_encoding_and_opcode_map.md R73, R86, R92; 14 R306, R309):
what the statement that decoding undoes encoding ranges over. -/

namespace Sys2Proof

/-- Instructions that a control core has and a lookup core lacks (R86, R306, R309, 20 R437); the POP of the reply queue
is on both. -/
def Instr.ccOnly : Instr → Bool
  | .push _ _ _ => true | .pop _ _ _ _ f => f != 1 | .semp _ _ _ => true | .semw _ _ _ => true | .mark _ _ _ => true
  | .markWait _ _ _ => true | .rdvw _ _ _ _ => true | .bpop _ _ => true | .bget _ _ _ _ => true | .bdone _ _ => true
  | .lease _ => true | .unlease _ => true | .leaseq _ _ => true | .drain _ _ => true
  | .kickVe _ _ _ _ _ => true | .kickPx _ _ _ _ _ => true | .kickHl _ _ _ _ => true | .kickHs _ _ _ _ => true
  | .nest _ _ _ _ _ => true | .link _ _ _ _ => true | .scmdPmmg _ _ _ _ _ _ _ => true | .scmdLk _ _ _ _ => true
  | .rdvset _ _ _ _ => true | .semrd _ _ _ _ => true | .semset _ _ _ _ _ => true | .scw _ _ _ _ _ => true
  | .pace _ _ _ _ => true
  | _ => false

/-- An encoded instruction may stand in a stream: its own; the Press stream too for a block header (R92); a lookup core's
code too for what both kinds of core have, with the CSRs a lookup core has (R124). -/
def Instr.inStream (i : Instr) (st : Stream) : Bool :=
  st == i.stream ||
  (st == .px && (match i with | .blk _ _ _ _ _ => true | _ => false)) ||
  (st == .lk && i.stream == .cc && !i.ccOnly && i.lkOk)

end Sys2Proof
end

