-- ==== Sys2Proof/Certificates/Slice0/Obligations.lean ====
section
/-! DEFINITION. The statements for the provers, family by family: what the rules of spec/ say that the instructions, the
events and the machine do. `Done` and `Leaves` (Safety/Frame.lean) say that an instruction completes and what it leaves: the
named state, equal in every register, queue, table and byte of memory. -/

open Sys2Proof Sys2Proof.Machine

/-! ## Registers and register instructions of a core (06) -/

/-- R110: s0 reads as zero and p0 as one, a write to either is discarded, and a write to any other register is read back by
that register and by no other. R131-R133: CMP, CMPI and the predicate operations write one predicate, and PPUT writes
p1-p7. -/
def Obligations.PredicateInstructions : Prop :=
  (∀ (r : CCRegs) (d e : BitVec 5) (v : Word) (k m : BitVec 3) (b : Bool),
     r.readS 0 = 0 ∧ r.readP 0 = true ∧ r.writeS 0 v = r ∧ r.writeP 0 b = r ∧
     (d ≠ 0 → (r.writeS d v).readS e = if e = d then v else r.readS e) ∧
     (k ≠ 0 → (r.writeP k b).readP m = if m = k then b else r.readP m) ∧
     (∀ e, (r.writeP k b).readS e = r.readS e) ∧ (∀ m, (r.writeS d v).readP m = r.readP m)) ∧
  ((∀ (gd : Guard) (w : Bool) (d a b : BitVec 3) (x y : BitVec 5) (imm : BitVec 6) (c : BitVec 4) (s : State) (p : Nat),
     Runs s p gd → ∀ e ∈ predTable gd w d a b x y imm c, Done (exec e.1 s) p 4 s (s.modCC p fun r => r.writeP d (e.2 r))) ∧
   (∀ (gd : Guard) (a : BitVec 5) (s : State) (p : Nat), Runs s p gd →
     ∃ q : BitVec 8, Done (exec (.pput gd a) s) p 4 s (s.modCC p fun r => { r with p := q }) ∧ q.getLsbD 0 = true ∧
       ∀ k, 1 ≤ k → k < 8 → q.getLsbD k = ((s.cc p).readS a).getLsbD k))

/-- R127, R128: the one-operand Reg instructions. R126-R128: each two-operand Reg instruction, at 64 bits or with X = 1 at 32
bits, writes its result to its destination, PC moves on by 4, and nothing else changes. -/
def Obligations.RegInstructions : Prop :=
  (∀ (o : UnOp) (s : State) (p : Nat), ∀ e ∈ unTable o, Runs s p o.gd →
     Done (exec e.1 s) p 4 s (s.modCC p fun r => r.writeS o.d
       (asWord (xWidth o.w) (e.2 (xWidth o.w) ((r.readS o.a).toNat % 2 ^ xWidth o.w))))) ∧
  (∀ (o : RegOp) (s : State) (p : Nat), ∀ e ∈ regTable o, Runs s p o.gd →
     Done (exec e.1 s) p 4 s (s.modCC p fun r => r.writeS o.d
       (asWord (xWidth o.w) (e.2 (xWidth o.w) ((r.readS o.a).toNat % 2 ^ xWidth o.w) ((r.readS o.b).toNat % 2 ^ xWidth o.w)))))

/-- R125, R129, R130, R133, R136-R138, R143: the 16-bit forms, the immediate forms, LEA, PGET, LI, LIH, ADDPC, the bit-field
instructions and HGET write one scalar register. -/
def Obligations.ScalarInstructions : Prop :=
  ∀ (gd : Guard) (d a b i : BitVec 5) (o : ImmOp) (sh : BitVec 4) (imm : BitVec 27) (ha sel : BitVec 4) (pos len : BitVec 6)
    (s : State) (p : Nat), ∀ e ∈ scalarTable gd d a b i o sh imm ha sel pos len, Runs s p e.2.1 →
    Done (exec e.1 s) p e.2.2.1 s (s.modCC p fun r => r.writeS e.2.2.2.1 (e.2.2.2.2 r))

/-- R78, R125, R134, R135: where the transfers go, what link they leave, that they drop what was fetched ahead, and ALIGN of an odd
register target, before the link is written. NOP only moves PC on. -/
def Obligations.TransfersOfControl : Prop :=
  (∀ (s : State) (p : Nat), Runs s p always → Done (exec .nop s) p 2 s s) ∧
  (∀ (gd : Guard) (k : BitVec 3) (r5 : BitVec 5) (r10 : BitVec 10) (r16 : BitVec 16) (r32 : BitVec 32) (hint : Bool) (s : State)
    (p : Nat), ∀ e ∈ branchTable gd k r5 r10 r16 r32 hint,
    let (i, g, rel, taken, n, link) := e
    Runs s p g → Leaves (exec i s) (s.modCC p fun r =>
      if taken r then { (if link then r.writeS 31 (r.pc + 4) else r) with pc := BitVec.ofInt 64 (r.pc.toNat + 2 * rel), ahead := [] }
      else r.at (r.pc + BitVec.ofNat 64 n))) ∧
  (∀ (gd : Guard) (a : BitVec 5) (s : State) (p : Nat), ∀ e ∈ jumpTable gd a,
    let (i, g, x, link) := e
    Runs s p g →
    (((s.cc p).readS x).getLsbD 0 = false →
      Leaves (exec i s) (s.modCC p fun r =>
        { (if link then r.writeS 31 (r.pc + 4) else r) with pc := r.readS x, ahead := [] })) ∧
    (((s.cc p).readS x).getLsbD 0 = true → exec i s = .next (takeFault s p .align ((s.cc p).readS x).toNat)))

/-- R115, R143, R144: the fields of a handle. HSET changes the field it names and no other; HGET reads it back; a size of 0
reads as 65,536 and a stride with its sign; HMK gives rank-independent sizes of 1, no tile and no region. R143-R148: HMK,
HSET and HMOV write the handle register; so do HADV and HSUB, or they fault and change no handle. -/
def Obligations.HandleInstructions : Prop :=
  ((∀ (h : Handle) (sel k : Nat) (v : Word), sel ≤ 14 → k ≤ 14 →
     H.getSel (H.put h (H.selField sel).1 (H.selField sel).2 v.toNat) k =
       if k = sel then
         (let x := v.toNat % 2 ^ (H.selField sel).2
          if 4 ≤ sel ∧ sel ≤ 7 ∧ x = 0 then 65536
          else if 8 ≤ sel ∧ sel ≤ 10 then BitVec.ofInt 64 (signExt 24 x) else BitVec.ofNat 64 x)
       else H.getSel h k) ∧
   (∀ (a : Word) (fmt : BitVec 5) (rank : BitVec 3) (cls : BitVec 4) (sc : Bool),
     let h := H.make a fmt rank cls sc
     H.base h = a.setWidth 52 ∧ H.fmt h = fmt.toNat ∧ H.rank h = rank.toNat ∧ H.cls h = cls ∧ H.scaled h = sc ∧
     H.tile h = 0xFFF ∧ H.rgn h = 0x3FF ∧ H.soff h = 0 ∧ ∀ d, d < 4 → H.size h d = 1 ∧ (1 ≤ d → H.stride h d = 0))) ∧
  (∀ (gd : Guard) (d a : BitVec 4) (x fmt : BitVec 5) (rank : BitVec 3) (cls sel : BitVec 4) (scaled : Bool) (dim : BitVec 2)
     (s : State) (p : Nat), Runs s p gd → ∀ e ∈ handleTable gd d a x fmt rank cls sel scaled dim,
     (∀ h, e.2 (s.cc p) = .ok h → Done (exec e.1 s) p 6 s (s.modCC p fun r => r.writeH d h)) ∧
     (∀ c, e.2 (s.cc p) = .error c → exec e.1 s = .next (takeFault s p c)))

/-- R82: with the guard false, an instruction of a core that is legal there does nothing but move PC past itself. -/
def Obligations.FalseGuardDoesNothing : Prop :=
  ∀ (i : Instr) (gd : Guard) (n : Nat) (s : State) (p : Nat),
    guardOf i = some (gd, n) → i.inStream (codeStream p) = true → s.actor = .cc p → (s.cc p).sys = true →
    (s.cc p).guard gd = false → Done (exec i s) p n s s

/-- R119-R122: what a write of a CSR leaves there: USER writes of the trap registers are ignored, SYS writes keep the reserved
bits zero; RO numbers never change. R118-R122, R139: a CSR instruction reads the old value into its destination and writes
the fields that the mode may write; USER access to cc.escratch is PRIV; a number that the core does not have is ILLOP. -/
def Obligations.CsrInstructions : Prop :=
  (∀ (s : State) (p : Nat) (v : Word),
     let w (n : Nat) : Word := csrRead (s.modCC p fun r => csrWrite r n v) p n
     ((s.cc p).sys = false → ∀ n, n < 6 → w n = csrRead s p n) ∧ ((s.cc p).sys = false → w 0x30 = csrRead s p 0x30) ∧
     ((s.cc p).sys = true →
       w 0 = v &&& 3 ∧ w 1 = v &&& 0x83FF00FF ∧ w 2 = v ∧ w 3 = v ∧ w 4 = v &&& ~~~0xFFF#64 ∧ w 5 = v) ∧
     w 0x13 = v &&& 1 ∧ w 0x20 = v &&& 7 ∧ w 0x21 = v ∧ w 0x22 = v ∧
     (∀ n, 0x31 ≤ n → n ≤ 0x34 → w n = v &&& 0xFFFF) ∧
     (∀ n, 0x80 ≤ n → n ≤ 0x97 → w n = if v.toNat % 32 ≤ 20 then v &&& 0x1F else csrRead s p n) ∧
     (∀ n, (n = 0x10 ∨ n = 0x11 ∨ n = 0x12 ∨ n = 0xC0 ∨ (0x40 ≤ n ∧ n ≤ 0x4F)) →
       ∀ m, csrRead (s.modCC p fun r => csrWrite r n v) p m = csrRead s p m)) ∧
  (∀ (gd : Guard) (d a : BitVec 5) (n : BitVec 12) (s : State) (p : Nat), Runs s p gd → ∀ e ∈ csrTable gd d a n,
     let (i, rd, new) := e
     (csrDefined n = true → (p < 256 ∨ lkCsr n = true) → (n = 5 → (s.cc p).sys = true) →
       Done (exec i s) p 6 s (s.modCC p fun r =>
         let old := csrRead s p n.toNat
         let r := match new r old with
           | some v => csrWrite r n.toNat v
           | none => r
         match rd with
         | some d => r.writeS d old
         | none => r)) ∧
     (n = 5 → (s.cc p).sys = false → exec i s = .next (takeFault s p .priv)) ∧
     (n ≠ 5 → (csrDefined n && (p < 256 || lkCsr n)) = false → exec i s = .next (takeFault s p .illop)))

/-- R140, R141, R327: every fault of the trap path, and so ILL and TRAP, enters the handler on a control core that has one and
is in no trap: cc.cause, cc.epc, cc.faddr, cc.status, the mode and PC take the values of R140; no other register changes.
TRAP, a control transfer, drops what was fetched ahead (R78). R78, R142: ERET in SYS mode restores the mode from PMODE,
clears INTRAP, drops what was fetched ahead, and goes to cc.epc; in USER mode it is PRIV; an odd cc.epc is ALIGN before
any change. -/
def Obligations.TrapEntryAndReturn : Prop :=
  (∀ (s : State) (p : Nat), s.actor = .cc p → p < 256 → (s.cc p).intrap = false → fld (s.cc p).tvec 12 52 ≠ 0 →
     (s.proc p).t0 = none →
     let enter (code tnum : Nat) (epc : Word) (ahead : CCRegs → SMap (Option (BitVec 16))) : State := s.modCC p fun r =>
       { r with ahead := ahead r, cause := BitVec.ofNat 64 (code + tnum * 2 ^ 16), epc := epc, faddr := 0, status := if r.sys then 3 else 2,
                sys := true, pc := (r.tvec &&& ~~~0xFFF#64) + BitVec.ofNat 64 (16 * code) }
     (∀ d a, Leaves (exec (.ill d a) s) (enter 1 0 (s.cc p).pc CCRegs.ahead)) ∧
     (∀ gd (n : BitVec 10), (s.cc p).guard gd = true → Leaves (exec (.trap gd n) s) (enter 0x12 n.toNat ((s.cc p).pc + 4) fun _ => [])) ∧
     (∀ (c : Cause) (addr : Nat) (straddle : Bool) (n : BitVec 24), c.traps = true →
       let code := c.code.toNat
       let tnum := if c = .trapi then n.toNat % 1024 else 0
       Same (takeFault s p c addr straddle n) (s.modCC p fun r =>
         { r with cause := BitVec.ofNat 64 (code + tnum * 2 ^ 16 + (if straddle then 2 ^ 31 else 0)),
                  ahead := if c = .trapi then [] else r.ahead,
                  epc := if c = .trapi then r.pc + 4 else r.pc, faddr := BitVec.ofNat 64 addr, status := if r.sys then 3 else 2,
                  sys := true, pc := (r.tvec &&& ~~~0xFFF#64) + BitVec.ofNat 64 (16 * code) }))) ∧
  (∀ (gd : Guard) (s : State) (p : Nat), Runs s p gd →
     ((s.cc p).sys = false → exec (.eret gd) s = .next (takeFault s p .priv)) ∧
     ((s.cc p).sys = true → (s.cc p).epc.getLsbD 0 = true → exec (.eret gd) s = .next (takeFault s p .align (s.cc p).epc.toNat)) ∧
     ((s.cc p).sys = true → (s.cc p).epc.getLsbD 0 = false →
       Leaves (exec (.eret gd) s) (s.modCC p fun r =>
         { r with sys := r.status.getLsbD 0, status := r.status &&& ~~~2#64, pc := r.epc, ahead := [] })))

/-! ## Memory (08, 09, 17) -/

/-- R183, R185: which accesses the on-chip windows admit, where they go, and WINDOW at the first byte for all others. The
own-core and own-cluster aliases reach the same bytes as the numbered windows; a lookup core has none. R186, R190, R193,
R199, R203: what the shared accesses to this module's memory do once no outstanding access of the unit bars them; until
then a load and a store wait. A load gives the bytes at the home, or those of a valid L1 sector, which serves it without
translation; a poisoned sector is ECCU at its first byte; a store writes its bytes and no other; an atomic reads and
writes at the home in one step. -/
def Obligations.WindowsAndLocalAccesses : Prop :=
  (∀ (s : State) (w : Who) (n : Nat) (k : Access), 1 ≤ n →
     let go (va key : Nat) (ok : Prop) : Prop :=
       (ok → resolve w va n k s = .ok ⟨.window, 0, key, false, va⟩ s) ∧
       (¬ ok → resolve w va n k s = .error (.fault .window va false 0) s)
     let d := (s.ctx w.ctx).d
     (∀ o, o < 0x1_8000_0000 → go (0xFF00000000000 + o) (0xFF00000000000 + o)
       (o + n ≤ 0x1_8000_0000 ∧ d.lstb.toNat * 2 ^ 20 ≤ o ∧ o + n ≤ (d.lstb.toNat + d.lstq.toNat) * 2 ^ 20)) ∧
     (∀ c o, c < 64 → o < 2 ^ 22 → go (0xFF80000000000 + c * 2 ^ 22 + o) (0xFF80000000000 + c * 2 ^ 22 + o)
       (o + n ≤ 2 ^ 22 ∧ s.inPart w.ctx c = true)) ∧
     (∀ o, o < 2 ^ 22 → go (0xFFC0000000000 + o) (0xFF80000000000 + w.p / 4 * 2 ^ 22 + o)
       (w.p < 256 ∧ o + n ≤ 2 ^ 22 ∧ s.inPart w.ctx (w.p / 4) = true)) ∧
     (∀ c o, c < 256 → o < 2 ^ 20 → go (0xFFD0000000000 + c * 2 ^ 20 + o) (0xFFD0000000000 + c * 2 ^ 20 + o)
       (o + n ≤ 0xC_0000 ∧ s.inPart w.ctx (c / 4) = true)) ∧
     (∀ o, o < 2 ^ 20 → go (0xFFE0000000000 + o) (0xFFD0000000000 + w.p * 2 ^ 20 + o)
       (w.p < 256 ∧ o + n ≤ 0xC_0000 ∧ s.inPart w.ctx (w.p / 4) = true)) ∧
     (∀ va, 0xF000000000000 ≤ va → ¬ (0xFF00000000000 ≤ va ∧ va < 0xFF00000000000 + 0x1_8000_0000) →
       ¬ (0xFF80000000000 ≤ va ∧ va < 0xFF80000000000 + 2 ^ 28) → ¬ (0xFFC0000000000 ≤ va ∧ va < 0xFFC0000000000 + 2 ^ 22) →
       ¬ (0xFFD0000000000 ≤ va ∧ va < 0xFFD0000000000 + 2 ^ 28) → ¬ (0xFFE0000000000 ≤ va ∧ va < 0xFFE0000000000 + 2 ^ 20) →
       resolve w va n k s = .error (.fault .window va false 0) s)) ∧
  (∀ (s : State) (w : Who) (pl : Place) (n : Nat) (a : Attr), pl.isLocal = true → 1 ≤ n →
     (∀ home, (home = true ∨ pl.cache = false) → InOrder s w a.cls pl.va n → s.mem.poisoned pl.key n = false →
       ∃ t, load w pl n home a false s = .ok (s.mem.read pl.key n) t ∧ ServedBy w.p s t) ∧
     (∀ home, (home = true ∨ pl.cache = false) → InOrder s w a.cls pl.va n → s.mem.poisoned pl.key n = true →
       load w pl n home a false s = .error (.fault .eccu (pl.va / 128 * 128) false 0) s) ∧
     (∀ l, l1Hit s w.p (w.asid s) pl.va = some l →
       (∀ k, pl.va < 0xF000000000000 → resolveLoad w pl.va k false s = .ok (l.place pl.va) s) ∧
       (pl.kind ≠ .window → pl.cache = true → InOrder s w a.cls pl.va n →
         load w pl n false a false s = .ok (l.data.toNat / 2 ^ (8 * (pl.va % 128)) % 2 ^ (8 * n)) s)) ∧
     (∀ k home, home = true ∨ l1Hit s w.p (w.asid s) pl.va = none → resolveLoad w pl.va k home s = resolve w pl.va k .read s) ∧
     (∀ v b, InOrder s w a.cls pl.va n →
       ∃ t, store w pl n v a b s = .ok () t ∧ Stored s.mem t.mem pl.key n v ∧ t.mem.poison = s.mem.poison ∧
       (∀ q, q ≠ w.p → t.proc q = s.proc q) ∧
       t = { s with procs := t.procs, mem := { s.mem with bytes := t.mem.bytes } } ∧
       (pl.kind = .window → t.procs = s.procs) ∧
       (pl.kind ≠ .window → (t.proc w.p).coh.acks = (s.proc w.p).coh.acks ++ [sectorNumber s.mod.node.toNat pl])) ∧
     (¬ InOrder s w a.cls pl.va n → ∀ home v b,
       load w pl n home a false s = .error (.wait 0) s ∧ store w pl n v a b s = .error (.wait 0) s) ∧
     (∀ f op b e ty, InOrder s w a.cls pl.va n → s.mem.poisoned pl.key n = false →
       ∃ t, atomically w pl n f op b e a ty s = .ok (s.mem.read pl.key n) t ∧ t.mem.poison = s.mem.poison ∧
         (∀ v, f (s.mem.read pl.key n) = some v → Stored s.mem t.mem pl.key n v) ∧
         (f (s.mem.read pl.key n) = none → t.mem = s.mem) ∧ l1Hit t w.p (w.asid t) pl.va = none))

/-- R372-R375: a global access that no cached leaf serves walks the tables from PTROOT; what the entries found at the three
levels make of it: XLATE where an entry is invalid, ECCU where it is poisoned, PERM where the leaf lacks the right, else the
place of the leaf, which is cached. -/
def Obligations.PageTables : Prop :=
  (∀ (m : Memory) (va t : Nat) (e2 e1 e0 : Word),
    let at_ (t sz : Nat) := t * 2 ^ 16 + 8 * (va / 2 ^ sz % 2 ^ 12)
    let table (t : Nat) : Prop := inHbm (t * 2 ^ 16) || inCap (t * 2 ^ 16)
    let entry (t sz : Nat) (e : Word) : Prop := table t ∧ m.poisoned (at_ t sz) 8 = false ∧ m.read (at_ t sz) 8 = e.toNat
    let down (e : Word) : Prop := pteV e = true ∧ pteLeaf e = false ∧ ptePointerOk e = true
    let leaf (e : Word) (sz : Nat) : Prop := pteV e = true ∧ pteLeaf e = true ∧ pteLeafOk e sz va = true
    entry t 40 e2 →
      (pteV e2 = false → walk m va 3 t = .error .xlate) ∧ (leaf e2 40 → walk m va 3 t = .ok (40, e2)) ∧
      (down e2 → entry (pteFrame e2) 28 e1 →
        (pteV e1 = false → walk m va 3 t = .error .xlate) ∧ (leaf e1 28 → walk m va 3 t = .ok (28, e1)) ∧
        (down e1 → entry (pteFrame e1) 16 e0 →
          (pteV e0 = false → walk m va 3 t = .error .xlate) ∧ (leaf e0 16 → walk m va 3 t = .ok (16, e0)) ∧
          (pteLeaf e0 = false → walk m va 3 t = .error .xlate)))) ∧
  (∀ (s : State) (w : Who) (va n : Nat) (k : Access), va < 0xF000000000000 →
    let d := (s.ctx w.ctx).d
    (∀ t ∈ s.mem.trans, ¬ (t.asid = d.asid ∧ t.vpn = va / 2 ^ t.sz)) →
    (∀ c, walk s.mem va 3 d.ptroot.toNat = .error c → resolve w va n k s = .error (.fault c va false 0) s) ∧
    (∀ sz e, walk s.mem va 3 d.ptroot.toNat = .ok (sz, e) →
      (pteAllows e k = false → resolve w va n k s = .error (.fault .perm va false 0) s) ∧
      (pteAllows e k = true → pteKind e ≠ 2 →
        resolve w va n k s = .ok (leafPlace e sz va) (cacheLeaf s ⟨d.asid, va / 2 ^ sz, sz, e⟩))))

/-- R198, R201, R209: LD and ST at every size, HLD and HST: the value read is extended into the destination, the register's
low bytes are stored, 32 bytes of a handle go either way, and PC moves on by 6. R198, R200: a misaligned effective address
is ALIGN before translation; a refused place ends in the cause of the refusal; MMIO is PERM for handles, releases,
acquires, waits, atomics and accesses of less than 32 bits; a host page is PERM for WAITADDR and for every atomic but a
64-bit ADD or CAS. -/
def Obligations.LoadsAndStores : Prop :=
  (∀ (s : State) (p : Nat),
     let w := coreWho s p
     (∀ (o : MemOp) pl s1, Runs s p o.gd →
       let ea := trunc 52 (((s.cc p).readS o.a).toNat + o.imm.toInt)
       (∀ v s2, ReachLoad s w ea (loadForm o.sz).1 (decide (2 ≤ o.sc.toNat)) pl s1 → loadAny w pl (loadForm o.sz).1 o.cls o.sc s1 = .ok v s2 →
         Done (exec (.ld o) s) p 6 s (s2.modCC p fun r => r.writeS o.d (loaded o.sz v))) ∧
       (∀ s2, Reach s w ea (2 ^ o.sz.toNat) .write pl s1 → pl.kind ≠ .mmio →
         store w pl (2 ^ o.sz.toNat) (((s.cc p).readS o.d).toNat % 2 ^ (8 * 2 ^ o.sz.toNat)) ⟨o.cls, o.sc, 0, none⟩ false s1 = .ok () s2 →
         Done (exec (.st o) s) p 6 s s2) ∧
       (Reach s w ea (2 ^ o.sz.toNat) .write pl s1 → pl.kind = .mmio → 4 ≤ 2 ^ o.sz.toNat →
         InOrder s1 w o.cls pl.va (2 ^ o.sz.toNat) →
         let s2 := mmioStore s1 pl.key (2 ^ o.sz.toNat) (((s.cc p).readS o.d).toNat % 2 ^ (8 * 2 ^ o.sz.toNat))
         if (s2.proc p).ctxOf = (s.proc p).ctxOf then Done (exec (.st o) s) p 6 s s2
         else Leaves (exec (.st o) s) s2)) ∧
     (∀ gd (d : BitVec 4) (a : BitVec 5) (imm : BitVec 16) (cls : BitVec 4) pl s1, Runs s p gd →
       let ea := trunc 52 (((s.cc p).readS a).toNat + imm.toInt)
       (∀ v s2, ReachLoad s w ea 32 false pl s1 → pl.kind ≠ .mmio → load w pl 32 false ⟨cls, 0, 0, none⟩ false s1 = .ok v s2 →
         Done (exec (.hld gd d a imm cls) s) p 6 s (s2.modCC p fun r => r.writeH d (BitVec.ofNat 256 v))) ∧
       (∀ s2, Reach s w ea 32 .write pl s1 → pl.kind ≠ .mmio →
         store w pl 32 ((s.cc p).readH d).toNat ⟨cls, 0, 0, none⟩ false s1 = .ok () s2 →
         Done (exec (.hst gd d a imm cls) s) p 6 s s2))) ∧
  (∀ (s : State) (p : Nat) (o : MemOp) (x : AtomOp) (d : BitVec 4), Runs s p o.gd → x.gd = o.gd →
     let w := coreWho s p
     let ea := trunc 52 (((s.cc p).readS o.a).toNat + o.imm.toInt)
     let n : Nat := if x.sz = 2 then 4 else 8
     let ex := trunc 52 (((s.cc p).readS x.a).toNat + x.imm.toInt * n)
     let at_ (k : Access) (ea n : Nat) : M Place := resolve w ea n k
     ∀ e ∈ ([(.ld o, ea, (loadForm o.sz).1, resolveLoad w ea (loadForm o.sz).1 (decide (2 ≤ o.sc.toNat)), false),
         (.st o, ea, 2 ^ o.sz.toNat, at_ .write ea (2 ^ o.sz.toNat), false),
         (.hld o.gd d o.a o.imm o.cls, ea, 32, resolveLoad w ea 32 false, true),
         (.hst o.gd d o.a o.imm o.cls, ea, 32, at_ .write ea 32, true),
         (.strel o, ea, 2 ^ o.sz.toNat, at_ .write ea (2 ^ o.sz.toNat), true),
         (.ldacq o, ea, (loadForm o.sz).1, at_ .read ea (loadForm o.sz).1, true),
         (.waitaddr o, ea, 4, at_ .read ea 4, true), (.amo x, ex, n, at_ .atomic ex n, true)] :
         List (Instr × Nat × Nat × M Place × Bool)),
       let (i, ea, n, place, noMmio) := e
       (ea % n ≠ 0 → exec i s = .next (takeFault s p .align ea)) ∧
       (∀ c a st dt t, ea % n = 0 → place s = .error (.fault c a st dt) t →
         exec i s = .next (takeFault t p c a st dt)) ∧
       (∀ pl t, ea % n = 0 → place s = .ok pl t →
         (pl.kind = .mmio ∧ (noMmio = true ∨ n < 4)) ∨ (pl.kind = .host ∧ i = .waitaddr o) ∨
           (pl.kind = .host ∧ i = .amo x ∧ ¬ (n = 8 ∧ (x.op = 0 ∨ x.op = 9))) →
         exec i s = .next (takeFault t p .perm ea)))

/-- R203: AMO leaves the table's value at its home, indivisibly, and the old value in its destination, sign-extended for a
32-bit MIN or MAX. -/
def Obligations.Atomics : Prop :=
  ∀ (s : State) (p : Nat) (o : AtomOp), Runs s p o.gd → (o.sz = 2 ∨ o.sz = 3) →
    let w := coreWho s p
    let n : Nat := if o.sz = 2 then 4 else 8
    let ea := trunc 52 (((s.cc p).readS o.a).toNat + o.imm.toInt * n)
    let b := ((s.cc p).readS o.b).toNat % 2 ^ (8 * n)
    let e := ((s.cc p).readS o.d).toNat % 2 ^ (8 * n)
    (∀ x, x < 2 ^ (8 * n) → amoOp o.op.toNat (8 * n) b e x = amoResult o.op.toNat (8 * n) x b e) ∧
    ∀ pl s1 old s2, Reach s w ea n .atomic pl s1 → pl.kind ≠ .mmio →
      (pl.kind = .host → n = 8 ∧ (o.op = 0 ∨ o.op = 9)) →
      atomically w pl n (amoOp o.op.toNat (8 * n) b e) o.op b e ⟨o.cls, o.sc, 0, none⟩ 6 s1 = .ok old s2 →
      Done (exec (.amo o) s) p 6 s (s2.modCC p fun r => r.writeS o.d
        (if n = 4 ∧ (o.op = 4 ∨ o.op = 5) then BitVec.ofInt 64 (signExt 32 old) else BitVec.ofNat 64 old))

/-- R186, R205, R206, R253, R254: STREL waits until all earlier accesses have performed, stores, and attaches its signature at
the home; LDACQ reads at the home and acquires; both drop the core's own copy; FENCE waits for the accesses of its classes
and changes nothing. R207, R208: WAITADDR ends with p7 = 1 and an acquire once the word at the home meets its condition,
and with p7 = 0 once the limit has run out and the word, read once more, does not meet it; until then it waits at its own
PC. -/
def Obligations.OrderingAndWaits : Prop :=
  (∀ (s : State) (p : Nat),
     let w := coreWho s p
     (∀ (o : MemOp) pl s1 s2 s3, Runs s p o.gd →
       let ea := trunc 52 (((s.cc p).readS o.a).toNat + o.imm.toInt)
       let g := if o.sc = 0 then none else some (s.proc p).coh.ws
       Reach s w ea (2 ^ o.sz.toNat) .write pl s1 → pl.kind ≠ .mmio → released s1 p o.sc = true →
       store w pl (2 ^ o.sz.toNat) (((s.cc p).readS o.d).toNat % 2 ^ (8 * 2 ^ o.sz.toNat)) ⟨o.cls, o.sc, 0, g⟩ false s1 = .ok () s2 →
       attach pl g (l1Drop s2 p (w.asid s2) pl.va) = .ok () s3 →
       Done (exec (.strel o) s) p 6 s s3) ∧
     (∀ (o : MemOp) pl s1 v s2 g s3, Runs s p o.gd →
       let ea := trunc 52 (((s.cc p).readS o.a).toNat + o.imm.toInt)
       let at_ : Attr := ⟨o.cls, o.sc, 0, none⟩
       Reach s w ea (loadForm o.sz).1 .read pl s1 → pl.kind ≠ .mmio →
       load w pl.bare (loadForm o.sz).1 true at_ false s1 = .ok v s2 →
       answerSig w pl.bare at_ (l1Drop s2 p (w.asid s2) pl.va) = .ok g (l1Drop s2 p (w.asid s2) pl.va) →
       acquire w o.sc pl g (l1Drop s2 p (w.asid s2) pl.va) = .ok () s3 →
       Done (exec (.ldacq o) s) p 6 s (s3.modCC p fun r => r.writeS o.d (loaded o.sz v))) ∧
     (∀ gd (sc : BitVec 3) (mask : BitVec 16), Runs s p gd →
       let waits := ∃ r ∈ s.fl.remotes, r.core = p ∧ r.eng = none ∧ mask.getLsbD r.cls.toNat = true
       (¬ waits → Done (exec (.fence gd sc mask) s) p 6 s s) ∧ (waits → Leaves (exec (.fence gd sc mask) s) s))) ∧
  ((∀ (s : State) (p : Nat) (o : MemOp) pl s1 s2 t0 x s3, Runs s p o.gd →
     let w := coreWho s p
     let ea := trunc 52 (((s.cc p).readS o.a).toNat + o.imm.toInt)
     let at_ : Attr := ⟨o.cls, o.sc, 0, none⟩
     let v := ((s.cc p).readS o.d).toNat % 2 ^ 32
     let holds := match o.sz.toNat with
       | 0 => x = v | 1 => x ≠ v | 2 => sg 32 v ≤ sg 32 x | 3 => v ≤ x | 4 => sg 32 x < sg 32 v | 5 => x < v
       | _ => (x + 2 ^ 32 - v) % 2 ^ 32 < 2 ^ 31
     let overs := (s.cc p).limit ≠ 0 ∧ (s.cc p).limit.toNat ≤ s.gts - t0.toNat
     let s4 := l1Drop s3 p (w.asid s3) pl.va
     Reach s w ea 4 .read pl s1 → pl.kind ≠ .mmio → pl.kind ≠ .host → beginWait p none (some o) s1 = .ok t0 s2 →
     load w pl.bare 4 true at_ false s2 = .ok x s3 →
     (holds → ∀ g s5, answerSig w pl.bare at_ s4 = .ok g s4 → acquire w o.sc pl g s4 = .ok () s5 →
       Done (exec (.waitaddr o) s) p 6 s (dropWait (s5.modCC p fun r => r.writeP 7 true) p)) ∧
     (¬ holds → overs → Done (exec (.waitaddr o) s) p 6 s (dropWait (s4.modCC p fun r => r.writeP 7 false) p)) ∧
     (¬ holds → ¬ overs → Leaves (exec (.waitaddr o) s) s4)) ∧
   (∀ (s : State) (p : Nat) (t0 : Word) (o : MemOp), p < 272 → (s.proc p).t0 = some ⟨t0, none, some o⟩ →
     (limitOver s p t0 = true → exec (.waitaddrTimeout p) s = exec (.waitaddr o) { s with actor := .cc p }) ∧
     (limitOver s p t0 = false → Leaves (exec (.waitaddrTimeout p) s) s)))

/-! ## Counters between units (20) -/

/-- R425-R427: SEMP adds with saturation after a release at .co; SEMW takes its amount if it fits and no older waiter is
before it, else it joins the waiters; amount 0 takes nothing; a granted waiter goes on; each completed SEMW acquires at
.co. R426: a raise serves the waiters of its semaphore in order: who waits, for what and in which order stays; what is
granted is what the value loses; the oldest waiter left does not fit. -/
def Obligations.Semaphores : Prop :=
  (∀ (s : State) (p : Nat) (gd : Guard) (n : BitVec 6) (a : BitVec 5), Runs s p gd → p < 256 →
     ((Instr.semp gd 0 a).wf = false ∧ (Instr.semw gd 0 a).wf = false) ∧
     (n ≠ 0 →
     let y := s.sync p
     let v := ((s.cc p).readS a).toNat % 65536
     let word : Nat := (SMap.get 0 y.sem n.toNat).toNat
     let put (w : Nat) : State := s.modSync p fun y => { y with sem := SMap.set 0 y.sem n.toNat (BitVec.ofNat 17 w) }
     let waiting := ∃ w ∈ (s.proc p).semq, w.sem = n.toNat ∧ w.granted = false
     let mine := (s.proc p).semq.find? fun w => w.who == none
     ((s.proc p).coh.acks = [] → ¬ waiting → Done (exec (.semp gd n a) s) p 4 s
       (put (min (word % 65536 + v) 65535 + if 65536 ≤ word ∨ 65535 < word % 65536 + v then 65536 else 0))) ∧
     ((s.proc p).coh.acks ≠ [] → Leaves (exec (.semp gd n a) s) s) ∧
     (v = 0 → Done (exec (.semw gd n a) s) p 4 s (acquireCo s p)) ∧
     (v ≠ 0 → mine = none → v ≤ word % 65536 → ¬ waiting →
       Done (exec (.semw gd n a) s) p 4 s (acquireCo (put (word - v)) p)) ∧
     (v ≠ 0 → mine = none → (word % 65536 < v ∨ waiting) → Leaves (exec (.semw gd n a) s)
       (s.modProc p fun x => { x with semq := x.semq ++ [⟨n.toNat, none, v, false⟩] })) ∧
     (∀ w, v ≠ 0 → mine = some w → w.granted = true → Done (exec (.semw gd n a) s) p 4 s
       (acquireCo (s.modProc p fun x => { x with semq := x.semq.filter fun w => w.who != none }) p)) ∧
     (∀ w, v ≠ 0 → mine = some w → w.granted = false → Leaves (exec (.semw gd n a) s) s))) ∧
  (∀ (n : Nat) (y : Sync) (q : List SemWaiter), n ≠ 0 →
     let r := semServe n y q
     let left (l : List SemWaiter) := l.filter fun w => w.sem == n && !w.granted
     (r.2.map fun w => (w.sem, w.who, w.amount)) = (q.map fun w => (w.sem, w.who, w.amount)) ∧
     (∃ k, left r.2 = (left q).drop k ∧
       y.semVal n = r.1.semVal n + (((left q).take k).map fun w => w.amount).sum) ∧
     (∀ w, (left r.2).head? = some w → r.1.semVal n < w.amount) ∧
     (∀ k, k ≠ n → r.1.semWord k = y.semWord k))

/-- R432: MARK counts a marker issued, appends it to its engine's queue and gives the count; a Press marker notes how many
gathered commands came before it; MARK.WAIT goes on, with an acquire at .co, once the completed count has reached the
operand as a serial number; both wait otherwise and change nothing. R288, R289, 14 R307: DRAIN waits for the engines of
its mask, their stores and retiring bricks, then acquires what the core itself wrote; EXIT makes the bricks retire and
ends the program when they have; EXIT.A ends it at once, with no brick current. -/
def Obligations.MarkersDrainAndExit : Prop :=
  (∀ (s : State) (p : Nat) (gd : Guard) (d a : BitVec 5) (e : BitVec 2), Runs s p gd → p < 256 →
     let y := s.sync p
     let m := SMap.get Marker.reset y.mark e.toNat
     let q := engineQueue (s.proc p).q (engOf e)
     let g := if e = 1 then (s.cluster (p / 4)).press.pushes else 0
     let behind := (m.mc - ((s.cc p).readS a).setWidth 32).toNat
     (q.length < 64 → Done (exec (.mark gd d e) s) p 4 s
       (((s.modSync p fun y => { y with mark := SMap.set Marker.reset y.mark e.toNat { m with mi := m.mi + 1 } }).modQ p
         fun k => setEngineQueue k (engOf e) (q ++ [.marker g])).modCC p fun r => r.writeS d ((m.mi + 1).setWidth 64))) ∧
     (64 ≤ q.length → Leaves (exec (.mark gd d e) s) s) ∧
     (behind < 2 ^ 31 → Done (exec (.markWait gd a e) s) p 4 s (acquireCo s p)) ∧
     (2 ^ 31 ≤ behind → Leaves (exec (.markWait gd a e) s) s)) ∧
  (∀ (s : State) (p : Nat) (gd : Guard) (m : BitVec 4), Runs s p gd →
     let es := engines.filter fun e => m.getLsbD (match e with | .ve => 0 | .px => 1 | .hl => 2 | .hs => 3)
     let idle := (∀ e ∈ es, engineDrained s p e = true) ∧ (s.proc p).coh.acks = [] ∧
       (∀ r ∈ s.fl.remotes, r.core = p → ∀ e, r.eng = some e → e ∉ es) ∧
       ∀ b ∈ (s.proc p).liveBricks, b.2.st = .retiring → brickElsewhere s p b.1 es = true
     (p < 256 → m ≠ 0 → idle → Done (exec (.drain gd m) s) p 4 s
       (acquireCo (mergePs s p ((s.proc p).coh.wsCur ||| (s.proc p).coh.wsPrv)) p)) ∧
     (p < 256 → m ≠ 0 → ¬ idle → Leaves (exec (.drain gd m) s) s) ∧
     (∀ x, p < 256 → (s.proc p).ctxOf = some x → Leaves (exec (.exit gd) s) (s.modProc p fun v =>
       { v with cur := none, run := .exiting x,
                bricks := v.bricks.map fun e => (e.1, e.2.map fun b => if b.st = .running then { b with st := .retiring } else b) })) ∧
     (256 ≤ p → let l := s.lookup (p - 256)
       ((l.cur ≠ none ∨ l.aq ≠ [] ∨ l.dq ≠ []) → exec (.exit gd) s = .next (takeFault s p .illop)) ∧
       (l.cur = none → l.aq = [] → l.dq = [] → l.kbags = [] → (s.proc p).coh.acks = [] →
         (∀ r ∈ s.fl.remotes, r.core ≠ p) → Leaves (exec (.exit gd) s)
           ((s.modProc p fun v => { v with run := .idle, img := Image.reset, t0 := none }).modLookup (p - 256)
             fun l => { l with pr := none }))) ∧
     (∀ x, (s.proc p).ctxOf = some x → ∃ t, exec (.exitA gd) s = .next t ∧ (t.proc p).run = .exiting x ∧ (t.proc p).t0 = none ∧
       (p < 256 → (t.proc p).cur = none) ∧
       (256 ≤ p → (t.lookup (p - 256)).aq = [] ∧ (t.lookup (p - 256)).dq = [] ∧ (t.lookup (p - 256)).pr = none)))

/-- R428-R431: SCP sends a post after its release, or faults (WINDOW outside the partition, PERM outside the group, SHAPE at a
scope below .dm to another module); a post in flight adds to its counter, live or saved, and merges its signature; SCW
ends with p7 = 1 and an acquire when the counter has reached its operand, with p7 = 0 after the limit, and waits before.
R436: SEMRD gives the word of a semaphore, a slot counter, a marker pair or a rendezvous register; SEMSET sets a semaphore
or a slot counter and gives the old word; numbers past the last are ILLOP. -/
def Obligations.SlotCounters : Prop :=
  ((∀ (s : State) (p : Nat) (gd : Guard) (a b : BitVec 5) (sc : BitVec 3) (c : BitVec 8), Runs s p gd →
     let x := (s.proc p).ctxOf.getD 0
     let t := ((s.cc p).readS a).toNat
     let amount : BitVec 32 := ((s.cc p).readS b).setWidth 32
     let g := if sc = 0 then 0 else (s.proc p).coh.ws
     let rem := t.testBit 18
     let node := t / 256 % 1024
     (rem = false → s.inPart x (t % 256 / 4) = true → released s p sc = true →
       Done (exec (.scp gd a b sc c) s) p 6 s
         (s.modFl fun f => { f with posts := f.posts ++ [⟨.core p, t % 256, x, c.toNat, amount, g⟩] })) ∧
     (rem = false → s.inPart x (t % 256 / 4) = false → exec (.scp gd a b sc c) s = .next (takeFault s p .window)) ∧
     (rem = true → (767 < node ∨ (s.ctx x).member.getLsbD node = false) →
       exec (.scp gd a b sc c) s = .next (takeFault s p .perm)) ∧
     (rem = true → node ≤ 767 → (s.ctx x).member.getLsbD node = true →
       (sc.toNat < 3 → exec (.scp gd a b sc c) s = .next (takeFault s p .shape)) ∧
       (3 ≤ sc.toNat → released s p sc = true → Done (exec (.scp gd a b sc c) s) p 6 s
         (postRemote (coreWho s p) node (t % 256) c.toNat amount g s))) ∧
     (rem = false → s.inPart x (t % 256 / 4) = true → released s p sc = false → Leaves (exec (.scp gd a b sc c) s) s)) ∧
   (∀ (s : State) (i : Nat) (q : Post), s.fl.posts[i]? = some q →
     (∀ j e, j < i → s.fl.posts[j]? = some e → ¬ (e.src = q.src ∧ e.core = q.core ∧ e.ctx = q.ctx)) →
     Leaves (exec (.postApply i) s)
       ((modSyncOf (s.modFl fun f => { f with posts := f.posts.eraseIdx i }) q.ctx q.core fun y =>
         { y with sc := SMap.set 0 y.sc q.ctr (SMap.get 0 y.sc q.ctr + q.amount) }).modCoh q.core
           fun k => { k with psCur := k.psCur ||| q.sig })) ∧
   (∀ (s : State) (p : Nat) (gd : Guard) (d a : BitVec 5) (sc : BitVec 3) (c : BitVec 8), Runs s p gd → p < 256 →
     let x := SMap.get 0 (s.sync p).sc c.toNat
     let behind := (x - ((s.cc p).readS a).setWidth 32).toNat
     ∀ t0 s1, beginWait p (some (d, c)) none s = .ok t0 s1 →
     let overs := (s.cc p).limit ≠ 0 ∧ (s.cc p).limit.toNat ≤ s.gts - t0.toNat
     let ends (u : State) (b : Bool) : State := (u.modCC p fun r => (r.writeP 7 b).writeS d (x.setWidth 64)).modProc p
       fun v => { v with t0 := none }
     (behind < 2 ^ 31 → Done (exec (.scw gd d a sc c) s) p 6 s (ends (if sc = 4 then acquireSy s p else acquireCo s p) true)) ∧
     (2 ^ 31 ≤ behind → overs → Done (exec (.scw gd d a sc c) s) p 6 s (ends s false)) ∧
     (2 ^ 31 ≤ behind → ¬ overs → Leaves (exec (.scw gd d a sc c) s) s1)) ∧
   (∀ (s : State) (p : Nat) (t0 : Word) (d : BitVec 5) (c : BitVec 8) (op : Option MemOp), p < 256 → (s.proc p).t0 = some ⟨t0, some (d, c), op⟩ →
     limitOver s p t0 = true → Leaves (exec (.scwTimeout p) s)
       ((s.modProc p fun x => { x with t0 := none }).modCC p fun r =>
         ((r.writeP 7 false).writeS d ((SMap.get 0 (s.sync p).sc c.toNat).setWidth 64)).at (r.pc + 6)))) ∧
  (∀ (s : State) (p : Nat) (gd : Guard) (d a : BitVec 5) (kind : BitVec 2) (n : BitVec 8), Runs s p gd → p < 256 →
     let y := s.sync p
     let k := n.toNat
     let m := SMap.get Marker.reset y.mark k
     let r := SMap.get Rdv.reset y.rdv k
     let v := (s.cc p).readS a
     let sem : Word := if k = 0 then 0 else (SMap.get 0 y.sem k).setWidth 64
     let sc : Word := (SMap.get 0 y.sc k).setWidth 64
     let gives (u : State) (w : Word) : State := u.modCC p fun c => c.writeS d w
     let limit := match kind.toNat with | 0 => 64 | 1 => 256 | 2 => 4 | _ => 8
     (limit ≤ k → exec (.semrd gd d kind n) s = .next (takeFault s p .illop)) ∧
     (k < limit → Done (exec (.semrd gd d kind n) s) p 6 s (gives s (match kind.toNat with
       | 0 => sem | 1 => sc
       | 2 => BitVec.ofNat 64 (m.mi.toNat * 2 ^ 32 + m.mc.toNat)
       | _ => BitVec.ofNat 64 (r.gen.toNat * 2 ^ 48 + r.cnt.toNat * 2 ^ 16 + r.exp.toNat)))) ∧
     ((2 ≤ kind.toNat ∨ (kind = 0 ∧ 64 ≤ k)) → exec (.semset gd d a kind n) s = .next (takeFault s p .illop)) ∧
     (kind = 1 → Done (exec (.semset gd d a kind n) s) p 6 s
       (gives (s.modSync p fun y => { y with sc := SMap.set 0 y.sc k (v.setWidth 32) }) sc)) ∧
     (kind = 0 → k < 64 → k ≠ 0 → ¬ (∃ w ∈ (s.proc p).semq, w.sem = k ∧ w.granted = false) →
       Done (exec (.semset gd d a kind n) s) p 6 s
         (gives (s.modSync p fun y => { y with sem := SMap.set 0 y.sem k (BitVec.ofNat 17 (v.toNat % 65536)) }) sem)) ∧
     (kind = 0 → k = 0 → ¬ (∃ w ∈ (s.proc p).semq, w.sem = 0) →
       Done (exec (.semset gd d a kind n) s) p 6 s (gives s 0)))

/-- R433-R435, R438: RDVSET sets EXP, gives the old word and completes a generation already met; RDVW arrives once at the host's
register, waits for its generation, and ends with an acquire of the delivered signature and the next generation's number. -/
def Obligations.Rendezvous : Prop :=
  ∀ (s : State) (p : Nat) (gd : Guard) (d a : BitVec 5) (k : BitVec 3), Runs s p gd → p < 256 →
    let x := (s.proc p).ctxOf.getD 0
    let e := ((s.cc p).readS a).toNat
    let r := SMap.get Rdv.reset (s.sync p).rdv k.toNat
    let s1 := s.modSync p fun y => { y with rdv := SMap.set Rdv.reset y.rdv k.toNat { r with exp := BitVec.ofNat 9 e } }
    (e ≤ 256 → Done (exec (.rdvset gd d a k) s) p 6 s
      ((if r.cnt ≠ 0 ∧ e ≤ r.cnt.toNat then rdvComplete s1 x p k.toNat else s1).modCC p fun c => c.writeS d
        (BitVec.ofNat 64 (r.gen.toNat * 2 ^ 48 + r.cnt.toNat * 2 ^ 16 + r.exp.toNat)))) ∧
    (256 < e → exec (.rdvset gd d a k) s = .next (takeFault s p .shape)) ∧
    (∀ h j gen g, (s.sync p).arrival = some ⟨h, j, gen, some g⟩ → Done (exec (.rdvw gd d a k) s) p 4 s
      ((acquireCo (mergePs (s.modSync p fun y => { y with arrival := none }) p g) p).modCC p fun c =>
        c.writeS d ((gen + 1).setWidth 64))) ∧
    (∀ h j gen, (s.sync p).arrival = some ⟨h, j, gen, none⟩ → Leaves (exec (.rdvw gd d a k) s) s) ∧
    ((s.sync p).arrival = none →
      let h := e % 256
      let rh := SMap.get Rdv.reset (syncOf s x h).rdv k.toNat
      (s.inPart x (h / 4) = false → exec (.rdvw gd d a k) s = .next (takeFault s p .window)) ∧
      (s.inPart x (h / 4) = true → released s p 2 = true → rh.exp = 0 →
        exec (.rdvw gd d a k) s = .next (takeFault s p .shape)) ∧
      (s.inPart x (h / 4) = true → released s p 2 = true → rh.exp ≠ 0 →
        let s2 := s.modSync p fun y => { y with arrival := some ⟨h, k.toNat, rh.gen, none⟩ }
        let rh' : Rdv := ⟨rh.gen, rh.cnt + 1, rh.exp, rh.sig ||| (s.proc p).coh.ws⟩
        let s3 := rdvSettle (modSyncOf s2 x h fun y => { y with rdv := SMap.set Rdv.reset y.rdv k.toNat rh' }) x h k.toNat
        (∀ g, (s3.sync p).arrival = some ⟨h, k.toNat, rh.gen, some g⟩ → Done (exec (.rdvw gd d a k) s) p 4 s
          ((acquireCo (mergePs (s3.modSync p fun y => { y with arrival := none }) p g) p).modCC p fun c =>
            c.writeS d ((rh.gen + 1).setWidth 64))) ∧
        ((s3.sync p).arrival = some ⟨h, k.toNat, rh.gen, none⟩ → Leaves (exec (.rdvw gd d a k) s) s3)))

/-! ## Queues, commands, bricks and the lease of a core (12, 13 R301, 14 R305, 02 R31-R36) -/

/-- R266, R267, R277: PUSH appends to the VE's scalar queue or to token queue 4, and waits while it is full; without a current
brick it is ILLOP. POP gives the oldest element with its signature and an acquire at .co; an empty queue makes POP wait, and the
non-blocking form go on with its predicate clear. -/
def Obligations.ScalarQueues : Prop :=
  ∀ (s : State) (p : Nat) (gd : Guard) (q x : Bool) (a d : BitVec 5) (b : BitVec 3), Runs s p gd →
    let k := (s.proc p).q
    let v := (s.cc p).readS a
    let ws := (s.proc p).coh.wsCur ||| (s.proc p).coh.wsPrv
    let tok (n : Nat) : List (BitVec 16) := SMap.get [] k.tq n
    (p < 256 → (s.proc p).cur = none → exec (.push gd q a) s = .next (takeFault s p .illop)) ∧
    (p < 256 → (s.proc p).cur ≠ none →
      (k.toVe.length < 32 → Done (exec (.push gd false a) s) p 4 s (s.modQ p fun k => { k with toVe := k.toVe ++ [⟨v, ws⟩] })) ∧
      (32 ≤ k.toVe.length → Leaves (exec (.push gd false a) s) s) ∧
      ((tok 4).length < 64 → Done (exec (.push gd true a) s) p 4 s
        (mergePs (s.modQ p fun k => { k with tq := SMap.set [] k.tq 4 (tok 4 ++ [v.setWidth 16]) }) p ws)) ∧
      (64 ≤ (tok 4).length → Leaves (exec (.push gd true a) s) s)) ∧
    (∀ (f : BitVec 4), f ≤ 4 → (p < 256 ∨ f = 1) →
      let gives (e : Elem64) (u : Queues) : State :=
        ((acquireCo (mergePs (s.modQ p fun _ => u) p e.sig) p).modCC p fun r => r.writeS d e.v).modCC p
          fun r => if x then r.writeP b true else r
      let empty : Prop := match f.toNat with
        | 0 => k.toCc = [] | 1 => k.reply = [] | n => tok (n + 3) = []
      (empty → (x = true → Done (exec (.pop gd x b d f) s) p 4 s (s.modCC p fun r => r.writeP b false)) ∧
        (x = false → Leaves (exec (.pop gd x b d f) s) s)) ∧
      (∀ e es, f = 0 → k.toCc = e :: es → Done (exec (.pop gd x b d f) s) p 4 s (gives e { k with toCc := es })) ∧
      (∀ e es, f = 1 → k.reply = e :: es → Done (exec (.pop gd x b d f) s) p 4 s (gives e { k with reply := es })) ∧
      (∀ v vs, 2 ≤ f → tok (f.toNat + 3) = v :: vs → Done (exec (.pop gd x b d f) s) p 4 s
        (gives ⟨v.setWidth 64, 0⟩ { k with tq := SMap.set [] k.tq (f.toNat + 3) vs })))

/-- R123, R270-R272, R301: KICK, NEST and LINK append one command to the engine's queue, with the context, the current brick's
tag and fp.rm, sr.seed and the bank formats as they stand; a full queue makes them wait; out-of-range entries and bounds
are SHAPE, a LINK outside the partition WINDOW, and without a current brick all are ILLOP. R285: an instruction that
pushes to an engine or a lookup core is ILLOP where no brick is current, and pushes nothing. R279, 14 R305: SCMD.PMMG
appends the gathered command with its three handles to the cluster's queue; SCMD.LK appends the job to the lookup core's
queue, after ALIGN of the descriptor address and WINDOW of a core that does not serve the context. -/
def Obligations.EngineCommands : Prop :=
  (∀ (s : State) (p : Nat) (gd : Guard) (tag : BitVec 3), Runs s p gd → p < 256 → (s.proc p).cur = some tag →
     let r := s.cc p
     let c : Capture := ⟨p, (s.proc p).ctxOf.getD 0, tag, r.rm, r.seed, r.fmt⟩
     let sends (i : Instr) (t : Nat) (e : Eng) (m : Cmd) : Prop :=
       ((engineQueue (s.proc t).q e).length < 64 → Done (exec i s) p 6 s
         (s.modQ t fun k => setEngineQueue k e (engineQueue k e ++ [m]))) ∧
       (64 ≤ (engineQueue (s.proc t).q e).length → Leaves (exec i s) s)
     let field (x : BitVec 4) : Option Nat := if 8 ≤ x.toNat then some (x.toNat - 8) else none
     (∀ (d : BitVec 4) (a : BitVec 5) (nb : BitVec 10) (n : BitVec 3), n ≤ 4 → d.toNat + n.toNat ≤ 16 →
       let hs := (List.range n.toNat).map fun k => r.readH (BitVec.ofNat 4 (d.toNat + k))
       let m : Cmd := .kick c (r.readS a).toNat (if nb = 0 then 1024 else nb.toNat) hs
       ((r.readS a).toNat ≤ 65535 → sends (.kickVe gd d a nb n) p .ve m ∧ sends (.kickPx gd d a nb n) p .px m) ∧
       (65535 < (r.readS a).toNat → exec (.kickVe gd d a nb n) s = .next (takeFault s p .shape) ∧
         exec (.kickPx gd d a nb n) s = .next (takeFault s p .shape))) ∧
     (∀ (a : BitVec 5) (push pop : BitVec 4),
       sends (.kickHl gd a push pop) p .hl (.chain c (r.readS a).toNat (field pop) (field push)) ∧
       sends (.kickHs gd a push pop) p .hs (.chain c (r.readS a).toNat (field pop) (field push))) ∧
     (∀ (px : Bool) (a b : BitVec 5) (lvl : BitVec 3),
       (1 ≤ (r.readS a).toNat → (r.readS a).toNat ≤ 65536 → sends (.nest gd px a b lvl) p (if px then .px else .ve)
         (.nest c lvl.toNat ⟨BitVec.ofNat 17 (r.readS a).toNat, r.readS b⟩)) ∧
       (((r.readS a).toNat = 0 ∨ 65536 < (r.readS a).toNat) → exec (.nest gd px a b lvl) s = .next (takeFault s p .shape))) ∧
     (∀ (hs : Bool) (a b : BitVec 5),
       let t := (r.readS b).toNat % 256
       (s.inPart c.ctx (t / 4) = true → sends (.link gd hs a b) t (if hs then .hs else .hl) (.chain c (r.readS a).toNat none none)) ∧
       (s.inPart c.ctx (t / 4) = false → exec (.link gd hs a b) s = .next (takeFault s p .window)))) ∧
  (∀ (s : State) (p : Nat) (gd : Guard), Runs s p gd → p < 256 → (s.proc p).cur = none →
     ∀ (d x y : BitVec 4) (a b : BitVec 5) (nb e : BitVec 10) (n lvl : BitVec 3) (rid : BitVec 8) (f : Bool),
       n ≤ 4 → d.toNat + n.toNat ≤ 16 → x ≤ 11 →
       ∀ i ∈ [.push gd f a, .kickVe gd d a nb n, .kickPx gd d a nb n, .kickHl gd a x y, .kickHs gd a x y, .nest gd f a b lvl,
              .link gd f a b, .scmdPmmg gd d x y f x e, .scmdLk gd a b rid],
         exec i s = .next (takeFault s p .illop)) ∧
  (∀ (s : State) (p : Nat) (gd : Guard) (tag : BitVec 3), Runs s p gd → p < 256 → (s.proc p).cur = some tag →
     let r := s.cc p
     let x := (s.proc p).ctxOf.getD 0
     let c : Capture := ⟨p, x, tag, r.rm, r.seed, r.fmt⟩
     (∀ (d a b sl : BitVec 4) (carry : Bool) (e : BitVec 10), sl ≤ 11 →
       ((s.cluster (p / 4)).press.gathered.length < 64 → Done (exec (.scmdPmmg gd d a b carry sl e) s) p 6 s
         (s.modPress (p / 4) fun pr =>
           { pr with gathered := pr.gathered ++ [⟨pr.pushes, c, none, carry, sl.toNat, e, r.readH d, r.readH a, r.readH b⟩],
                     pushes := pr.pushes + 1 })) ∧
       (64 ≤ (s.cluster (p / 4)).press.gathered.length → Leaves (exec (.scmdPmmg gd d a b carry sl e) s) s)) ∧
     (∀ (a b : BitVec 5) (rid : BitVec 8),
       let da := (r.readS a).toNat % 2 ^ 52
       let k := (r.readS b).toNat % 16
       let serves := (s.lookup k).v = true ∧ (s.lookup k).ctx.toNat = x ∧ ∃ h v, (s.ctx x).hof = some h ∧ h.lkpc = some v
       (da % 64 ≠ 0 → exec (.scmdLk gd a b rid) s = .next (takeFault s p .align da)) ∧
       (da % 64 = 0 → ¬ serves → exec (.scmdLk gd a b rid) s = .next (takeFault s p .window)) ∧
       (da % 64 = 0 → serves →
         ((s.lookup k).jobs.length < 64 → Done (exec (.scmdLk gd a b rid) s) p 6 s (s.modLookup k fun l =>
           { l with jobs := l.jobs ++ [⟨s.mod.gts.setWidth 32, rid, x, p, tag, BitVec.ofNat 52 da,
             (s.proc p).coh.wsCur ||| (s.proc p).coh.wsPrv, false⟩] })) ∧
         (64 ≤ (s.lookup k).jobs.length → Leaves (exec (.scmdLk gd a b rid) s) s))))

/-- R31, R282-R285: a BPOP for which a brick is held takes it under a free tag, makes it current, gives the tag and acquires
its signature; with eight live bricks it is ILLOP. BGET reads a field of a live brick, or makes a RUNNING one current;
BDONE makes a RUNNING brick RETIRING. A tag that is not live is ILLOP. R286, R287: the lease of a cluster's Press. LEASE
asks, or is granted a free Press at once, and goes on when it holds; UNLEASE places a release point, or withdraws a
request; LEASEQ shows the table; at the release point, once the gathered commands pushed before it are done and the
Press's writes to other modules have performed (R224), the lease passes to the oldest request. -/
def Obligations.BrickInstructions : Prop :=
  (∀ (s : State) (p : Nat) (gd : Guard) (d a : BitVec 5) (f : BitVec 4), Runs s p gd → p < 256 →
     let tag : BitVec 3 := ((s.cc p).readS a).setWidth 3
     (8 ≤ (s.proc p).liveBricks.length → (throttleAt s p) = s → exec (.bpop gd d) s = .next (takeFault s p .illop)) ∧
     (∀ b, (s.proc p).heldBrick = some b → (s.proc p).liveBricks.length < 8 → throttleAt s p = s →
       (∃ t : BitVec 3, s.brick p t = none) →
       ∃ t : BitVec 3, s.brick p t = none ∧ Done (exec (.bpop gd d) s) p 4 s
         (acquireCo (mergePs (((((s.setBrick p t (some ⟨b, .running, false, b.nslot.toNat, s.mod.gts, false, [], []⟩)).modProc p fun v =>
           { v with cur := some t, heldBrick := none }).bump).modCC p fun r => r.writeS d (t.setWidth 64))) p b.sig) p)) ∧
     ((∀ b, s.brick p tag = some b → b.live = false) →
       exec (.bget gd d a f) s = .next (takeFault s p .illop) ∧ exec (.bdone gd a) s = .next (takeFault s p .illop)) ∧
     (∀ b, s.brick p tag = some b → b.live = true →
       let c := brickCopy s b.b
       let u (k n : Nat) : Nat := obField c k n
       (f.toNat ≤ 5 → Done (exec (.bget gd d a f) s) p 4 s (s.modCC p fun r =>
         r.writeS d (BitVec.ofNat 64 (b.b.coord.toNat / 2 ^ (16 * f.toNat) % 65536)))) ∧
       (∀ e ∈ [(6, b.b.eidx.toNat), (7, b.b.ob), (8, p), (9, u 142 2 * 65536 + u 140 2), (10, u 144 8), (11, u 152 8),
           (13, b.b.nslot.toNat * 256 + b.b.prio.toNat * 2 + b.b.rst.toNat)],
         f.toNat = e.1 → Done (exec (.bget gd d a f) s) p 4 s (s.modCC p fun r => r.writeS d (BitVec.ofNat 64 e.2))) ∧
       (f = 12 → b.st = .running → Done (exec (.bget gd d a f) s) p 4 s ((s.modCC p fun r =>
         r.writeS d (match (s.proc p).cur with | some t => BitVec.ofNat 64 t.toNat | none => 8)).modProc p fun v => { v with cur := some tag })) ∧
       (b.st = .retiring → exec (.bdone gd a) s = .next (takeFault s p .illop)) ∧
       (b.st = .running → Done (exec (.bdone gd a) s) p 4 s ((s.setBrick p tag (some { b with st := .retiring })).modProc p
         fun v => { v with cur := if v.cur = some tag then none else v.cur })))) ∧
  (∀ (s : State) (p : Nat) (gd : Guard) (d : BitVec 5), p < 256 →
     let pr := (s.cluster (p / 4)).press
     let k := p % 4
     let holds := pr.holder = some k ∧ pr.releasing = false
     let with_ (f : Press → Press) : State := s.modPress (p / 4) f
     (Runs s p gd →
       (holds → Done (exec (.lease gd) s) p 4 s s) ∧
       (pr.holder = none → pr.reqs = [] → Done (exec (.lease gd) s) p 4 s
         (with_ fun pr => { pr with holder := some k, releasing := false })) ∧
       (pr.holder ≠ none → pr.holder ≠ some k → k ∉ pr.reqs →
         Leaves (exec (.lease gd) s) (with_ fun pr => { pr with reqs := pr.reqs ++ [k] })) ∧
       (pr.holder ≠ some k → k ∈ pr.reqs → Leaves (exec (.lease gd) s) s) ∧
       (holds → Done (exec (.unlease gd) s) p 4 s
         ((with_ fun pr => { pr with releasing := true }).modQ p fun q => { q with pxq := q.pxq ++ [.release pr.pushes] })) ∧
       (pr.holder ≠ some k → k ∈ pr.reqs → Done (exec (.unlease gd) s) p 4 s
         (with_ fun pr => { pr with reqs := pr.reqs.filter (· != k) })) ∧
       (pr.holder ≠ some k → k ∉ pr.reqs → Done (exec (.unlease gd) s) p 4 s s) ∧
       (pr.reqs.length < 8 → (∀ h, pr.holder = some h → h < 4) → Done (exec (.leaseq gd d) s) p 4 s (s.modCC p fun r => r.writeS d
         (BitVec.ofNat 64 (pr.reqs.length * 32 + (match pr.holder with | some h => 16 + 4 * h | none => 0) +
           (if pr.holder = some k then (if pr.releasing then 3 else 2) else if k ∈ pr.reqs then 1 else 0)))))) ∧
     (∀ n rest, pr.holder = some k → pr.releasing = true → (s.proc p).q.pxq = .release n :: rest →
       engineCap (s.proc p) .px = none → (∀ g ∈ pr.gathered, g.cap.core = p → n ≤ g.no) →
       (∀ r ∈ s.fl.remotes, r.q = p → r.eng ≠ some .px) →
       Leaves (exec (.leaseRelease (p / 4)) s) ((s.modQ p fun q => { q with pxq := rest }).modPress (p / 4) fun pr =>
         match pr.reqs with
         | [] => { pr with holder := none, releasing := false }
         | j :: js => { pr with holder := some j, releasing := false, reqs := js })))

/-! ## Graphs, sequencers, regions, reuse, fault records, power hints (15, 18, 19, 21) -/

/-- R396-R399: OBSUB and SEQSTART check the graph and answer the first status that applies; an accepted graph is in flight,
held back while a running sequencer has no step open, its OBs PENDING, and makes an IDLE context ACTIVE; SEQSTART sets the
sequencer, SEQSTOP and SEQSTEP move it as R394 gives; every status is written to the destination. R400: SEQWAIT waits
while the sequencer runs, then acquires the signatures of the last completed step and gives the status word; with no
sequencer it gives 0; a core with live bricks only reads. -/
def Obligations.GraphsAndSequencers : Prop :=
  (∀ (s : State) (p : Nat) (gd : Guard) (d a b : BitVec 5) (stepped : Bool), Runs s p gd →
     let x := (s.proc p).ctxOf.getD 0
     let hdr := ((s.cc p).readS a).toNat
     let n := ((s.cc p).readS b).toNat % 2 ^ 20
     let gives (u : State) (v : Nat) : State := u.modCC p fun r => r.writeS d (BitVec.ofNat 64 v)
     let obsub (v : Nat) (u : State) : Prop := Done (exec (.obsub gd d a) s) p 6 s (gives u v)
     let start (v : Nat) (u : State) : Prop := Done (exec (.seqstart gd d a b stepped) s) p 6 s (gives u v)
     let active := (s.ctx x).d.st = .idle ∨ (s.ctx x).d.st = .active
     let accept (g : Graph) : State :=
       s.modCtx x fun c => { c with graphs := c.graphs ++ [g], d := { c.d with st := .active } }
     (released s p 2 = false → Leaves (exec (.obsub gd d a) s) s ∧ Leaves (exec (.seqstart gd d a b stepped) s) s) ∧
     (released s p 2 = true →
       ((s.ctx x).d.st = .suspended → obsub 7 s ∧ start 7 s) ∧
       (active → (checkGraph s x hdr none).1 ≠ 0 → obsub (checkGraph s x hdr none).1 s) ∧
       (active → (hdr % 64 ≠ 0 ∨ inLst s x hdr 64 = false) → obsub 1 s) ∧
       (active → (checkGraph s x hdr none).1 = 0 → flightFull s x (checkGraph s x hdr none).2.1.obt = true → obsub 6 s) ∧
       (active → (checkGraph s x hdr none).1 = 0 →
         flightFull s x (checkGraph s x hdr none).2.1.obt = false →
         ∃ g u, obsub 0 u ∧ (u.ctx x).graphs = (s.ctx x).graphs ++ [g] ∧ g.obt = (checkGraph s x hdr none).2.1.obt ∧
           g.nob = (checkGraph s x hdr none).2.1.nob ∧ g.ofSeq = false ∧
           (g.held = true ↔ ∃ q, seqOf s x = some q ∧ (s.stepper q).st ≠ .idle ∧ stepIsOpen s x q = false) ∧
           (∀ k, k < g.nob → (g.ob k).status = .pending ∧ u.mem.read (g.obt + 256 * k + 184) 8 = (g.ob k).stat) ∧
           (∀ m, (∀ k, k < g.nob → m < g.obt + 256 * k + 184 ∨ g.obt + 256 * k + 192 ≤ m) → u.mem.read m 1 = s.mem.read m 1) ∧
           (u.ctx x).d.st = .active ∧ u.procs = s.procs ∧
           ∀ y, y ≠ x → u.ctx y = s.ctx y) ∧
       (active → (seqOf s x = none ∨ ∃ q, seqOf s x = some q ∧ (s.stepper q).st ≠ .idle) → start 4 s) ∧
       (∀ q, active → seqOf s x = some q → (s.stepper q).st = .idle →
         ((checkGraph s x hdr (some n)).1 ≠ 0 → start (checkGraph s x hdr (some n)).1 s) ∧
         ((checkGraph s x hdr (some n)).1 = 0 → flightFull s x (checkGraph s x hdr (some n)).2.1.obt = false →
           ∃ g, g.obt = (checkGraph s x hdr (some n)).2.1.obt ∧ g.ofSeq = true ∧ start 0 ((accept g).modStepper q fun _ =>
             { Stepper.reset with st := .run, graph := g.obt, n := n, gr := if stepped then 0 else n, ctx := x })))) ∧
     (let stop (v : Nat) (u : State) : Prop := Done (exec (.seqstop gd d) s) p 6 s (gives u v)
      let step (v : Nat) (u : State) : Prop := Done (exec (.seqstep gd d a) s) p 6 s (gives u v)
      let k := hdr % 2 ^ 20
      (s.ctx x).d.st ≠ .free →
       (seqOf s x = none → stop 1 s ∧ step 1 s) ∧
       (∀ q, seqOf s x = some q →
         let t := s.stepper q
         (t.st = .idle → stop 1 s ∧ step 1 s) ∧ (k = 0 → step 1 s) ∧ (t.st = .halt → step 1 s) ∧
         (t.st = .run → stop 0 (s.modStepper q fun t => { t with srq := true })) ∧
         (t.st = .pause → stop 0 (seqEnd s q x)) ∧
         (t.st = .run → k ≠ 0 → step 0 (s.modStepper q fun t => { t with gr := min (t.gr + k) (2 ^ 20 - 1) })) ∧
         (t.st = .pause → k ≠ 0 →
           step 0 (s.modStepper q fun t => { t with st := .run, gr := min (t.gr + k) (2 ^ 20 - 1) - 1 }))))) ∧
  (∀ (s : State) (p : Nat) (gd : Guard) (d : BitVec 5), Runs s p gd →
     let x := (s.proc p).ctxOf.getD 0
     let w (t : Stepper) : Word := BitVec.ofNat 64 (t.done * 2 ^ 28 + t.n * 2 ^ 8 + (if t.srq then 8 else 0) +
       (match t.st with | .idle => 0 | .run => 1 | .pause => 2 | .halt => 3))
     (seqOf s x = none → Done (exec (.seqwait gd d) s) p 6 s (s.modCC p fun r => r.writeS d 0)) ∧
     (∀ q, seqOf s x = some q → (p < 256 → (s.proc p).liveBricks = []) →
       ((s.stepper q).st = .run → Leaves (exec (.seqwait gd d) s) s) ∧
       ((s.stepper q).st ≠ .run → Done (exec (.seqwait gd d) s) p 6 s
         ((acquireCo (mergePs s p (s.ctx x).prevSig) p).modCC p fun r => r.writeS d (w (s.stepper q))))))

/-- R403, R418-R421: RGNDEF reads a declaration and defines the region with its counters zero and its tag generation advanced;
RGNCLR clears the counters, and the definition too where it says so; RGNRD gives a field; region 0x3FF and a bad
declaration give their status and change nothing. R409, R410, R422-R424: REUSESET writes the pending fields, applied at
once unless a sequencer of the context is not IDLE; an input region that is not defined gives status 1 and changes
nothing; REUSEFORCE sets FRC of one entry or of all; REUSEQ gives a word of the entry. -/
def Obligations.RegionsAndReuse : Prop :=
  (∀ (s : State) (p : Nat) (gd : Guard) (d a b : BitVec 5), Runs s p gd →
     let x := (s.proc p).ctxOf.getD 0
     let r := ((s.cc p).readS b).toNat % 1024
     let va := ((s.cc p).readS a).toNat
     let gives (u : State) (v : Word) : State := u.modCC p fun c => c.writeS d v
     let put (u : State) (f : Region → Region) : State := u.modCtx x fun c =>
       { c with regions := SMap.set Region.reset c.regions r (f (SMap.get Region.reset c.regions r)) }
     let cleared (g : Region) : Region := { g with cr := 0, nr := 0, nep := 0, pzn := false, nbad := false, tgen := g.tgen + 1 }
     (released s p 2 = true → va % 32 ≠ 0 → exec (.rgndef gd d a b) s = .next (takeFault s p .align va)) ∧
     (released s p 2 = true → va % 32 = 0 → ∀ pl s1 v s2, resolve (coreWho s p) (va % 2 ^ 52) 32 .read s = .ok pl s1 →
       load (coreWho s p) pl 32 true {} false s1 = .ok v s2 →
       let base := v % 2 ^ 64
       let len := v / 2 ^ 64 % 2 ^ 64
       let ok := base < 2 ^ 52 ∧ 1 ≤ len ∧ len ≤ 2 ^ 46 ∧ v / 2 ^ 136 = 0 ∧ base + len ≤ 2 ^ 52
       (r = 0x3FF → Done (exec (.rgndef gd d a b) s) p 6 s (gives s2 2)) ∧
       (r ≠ 0x3FF → ¬ ok → Done (exec (.rgndef gd d a b) s) p 6 s (gives s2 1)) ∧
       (r ≠ 0x3FF → ok → Done (exec (.rgndef gd d a b) s) p 6 s (gives (put s2 fun g =>
         { cleared g with v := true, base := BitVec.ofNat 52 base, len := BitVec.ofNat 47 len, dscale := BitVec.ofNat 8 (v / 2 ^ 128) }) 0))) ∧
     (∀ undef, released s p 2 = true →
       (r = 0x3FF → Done (exec (.rgnclr gd d b undef) s) p 6 s (gives s 2)) ∧
       (r ≠ 0x3FF → Done (exec (.rgnclr gd d b undef) s) p 6 s
         (gives (put s fun g => { cleared g with v := if undef then false else g.v }) 0))) ∧
     (∀ sel, let g := SMap.get Region.reset (s.ctx x).regions r
       (r = 0x3FF → Done (exec (.rgnrd gd d b sel) s) p 6 s (gives s 0)) ∧
       (r ≠ 0x3FF → Done (exec (.rgnrd gd d b sel) s) p 6 s (gives s (match sel.toNat with
         | 0 => g.cr | 1 => g.nr
         | 2 => BitVec.ofNat 64 (g.v.toNat * 2 ^ 63 + g.pzn.toNat * 2 ^ 62 + g.nbad.toNat * 2 ^ 61 + g.dscale.toNat * 2 ^ 48 +
             g.tgen.toNat * 2 ^ 32 + g.nep.toNat)
         | 3 => g.base.setWidth 64 | _ => g.len.setWidth 64))))) ∧
  (∀ (s : State) (p : Nat) (gd : Guard) (d a b : BitVec 5), Runs s p gd →
     let x := (s.proc p).ctxOf.getD 0
     let k := ((s.cc p).readS a).toNat % 4096
     let cfg := (s.cc p).readS b
     let rs : List (BitVec 10) := [fld cfg 16 10, fld cfg 26 10, fld cfg 36 10, fld cfg 46 10]
     let undefined := ∃ r ∈ rs, r ≠ 0x3FF ∧ (SMap.get Region.reset (s.ctx x).regions r.toNat).v = false
     let gives (u : State) (v : Word) : State := u.modCC p fun c => c.writeS d v
     let e := SMap.get Reuse.reset (s.ctx x).reuse k
     let put (e : Reuse) : State := s.modCtx x fun c => { c with reuse := SMap.set Reuse.reset c.reuse k e }
     let busy := ∃ q, seqOf s x = some q ∧ (s.stepper q).st ≠ .idle
     (∀ (smax : BitVec 8) (resid rst : Bool),
       let pended : Reuse := { e with prgn := rs, ptheta := fld cfg 0 16, psmax := smax, pact := resid, prst := rst, pend := true }
       let fresh := rst = true ∨ rs ≠ e.rgn
       (undefined → Done (exec (.reuseset gd d a b smax resid rst) s) p 6 s (gives s 1)) ∧
       (¬ undefined → busy → Done (exec (.reuseset gd d a b smax resid rst) s) p 6 s (gives (put pended) 0)) ∧
       (¬ undefined → ¬ busy → Done (exec (.reuseset gd d a b smax resid rst) s) p 6 s (gives (put
         { pended with theta := fld cfg 0 16, smax := smax, act := resid, rgn := rs, pend := false, prst := false,
                       cv := if fresh then false else e.cv, skc := if fresh then 0 else e.skc,
                       frc := if fresh then false else e.frc }) 0))) ∧
     Done (exec (.reuseforce gd d a false) s) p 6 s (gives (put { e with frc := true }) 0) ∧
     (∃ u, Done (exec (.reuseforce gd d a true) s) p 6 s (gives u 0) ∧
       (∀ j, j < 4096 → SMap.get Reuse.reset (u.ctx x).reuse j = { SMap.get Reuse.reset (s.ctx x).reuse j with frc := true }) ∧
       u = { s with ctxs := u.ctxs } ∧ ∀ y, y ≠ x → u.ctx y = s.ctx y) ∧
     (∀ sel, ∃ v, Done (exec (.reuseq gd d a sel) s) p 6 s (gives s v) ∧
       (sel = 0 → v.toNat = e.theta.toNat * 2 ^ 48 + e.smax.toNat * 2 ^ 40 + e.skc.toNat * 2 ^ 32 + e.lstep.toNat) ∧
       (sel = 1 → v.toNat = e.ptheta.toNat * 2 ^ 48 + e.psmax.toNat * 2 ^ 40 + e.pend.toNat * 32 + e.prst.toNat * 16 +
         e.pact.toNat * 8 + e.act.toNat * 4 + e.frc.toNat * 2 + e.cv.toNat) ∧
       (∀ l : List (BitVec 10), l.length = 4 → (sel = 2 ∧ e.rgn = l) ∨ (sel = 3 ∧ e.prgn = l) →
         v.toNat < 2 ^ 40 ∧ ∀ n, n < 4 → fld v (10 * n) 10 = l.getD n 0) ∧
       (sel = 4 → ∀ n, n < 4 → fld v (16 * n) 16 = SMap.get 0 e.tg n) ∧
       (5 ≤ sel.toNat → sel.toNat < 9 → v = SMap.get 0 e.snap (sel.toNat - 5)) ∧
       (9 ≤ sel.toNat → sel.toNat < 13 → v = SMap.get 0 e.br (sel.toNat - 9))))

/-- R338-R340: FQPOP copies the oldest record to the 64 bytes named, gives its SEQ, the count left and whether it was
poisoned, and removes it; 0 where there is none. FQRESUME and FQDROP take the pending record of a SEQ off the table and
act on what it names; without one the status is 1 and nothing changes. R376: TLBINV waits for the unit's accesses to other
modules, then removes exactly the matching leaves and L1 sectors; ALL, and another context's ASID, are PRIV in USER mode. -/
def Obligations.FaultQueueAndInvalidation : Prop :=
  (∀ (s : State) (p : Nat) (gd : Guard) (d a : BitVec 5), Runs s p gd →
     let x := (s.proc p).ctxOf.getD 0
     let va := ((s.cc p).readS a).toNat
     let q := (s.ctx x).fq
     let gives (u : State) (v : Word) : State := u.modCC p fun c => c.writeS d v
     (va % 64 ≠ 0 → exec (.fqpop gd d a) s = .next (takeFault s p .align va)) ∧
     (va % 64 = 0 → ∀ pl s1, resolve (coreWho s p) (va % 2 ^ 52) 64 .write s = .ok pl s1 → pl.kind ≠ .mmio →
       (q.count = 0 → Done (exec (.fqpop gd d a) s) p 6 s (gives s1 0)) ∧
       (q.count ≠ 0 → pl.isLocal = true → InOrder s1 (coreWho s p) 0 pl.va 64 →
         let key := recordKey s x q.head
         let bad := s.mem.poisoned key 64
         ∃ u : State, Done (exec (.fqpop gd d a) s) p 6 s (gives (u.modCtx x fun c =>
             { c with fq := { c.fq with count := q.count - 1, head := (q.head + 1) % 256 } })
             (BitVec.ofNat 64 (2 ^ 63 + bad.toNat * 2 ^ 62 + (q.count - 1) * 2 ^ 32 + (SMap.get 0 q.seqs q.head).toNat))) ∧
           Stored s1.mem u.mem pl.key 64 (if bad then 0 else s1.mem.read key 64) ∧ u.ctxs = s.ctxs ∧ u.lookups = s.lookups ∧
           u.steppers = s.steppers ∧ u.fl = s1.fl ∧ u.mod = s1.mod)) ∧
     (released s p 2 = true →
       let seq : BitVec 32 := ((s.cc p).readS a).setWidth 32
       let off (u : State) : State := u.modCtx x fun c => { c with fq := { c.fq with pend := c.fq.pend.filter fun e => e.1 != seq } }
       (q.pend.find? (fun e => e.1 == seq) = none → Done (exec (.fqresume gd d a) s) p 6 s (gives s 1) ∧
         Done (exec (.fqdrop gd d a) s) p 6 s (gives s 1)) ∧
       (∀ e, q.pend.find? (fun e => e.1 == seq) = some e →
         Done (exec (.fqresume gd d a) s) p 6 s (resumeRecord (off (gives s 0)) x e.2.1) ∧
         Done (exec (.fqdrop gd d a) s) p 6 s (dropRecord (off (gives s 0)) x e.2.2 e.2.1)) ∧
       (∀ v t u, (u.proc v).run = .stopped x t → resumeRecord u x (.stopCc v) = u.modProc v fun y => { y with run := .running x }))) ∧
  (∀ (s : State) (p : Nat) (gd : Guard) (a b : BitVec 5) (n : BitVec 16), Runs s p gd →
     let asid : BitVec 16 := ((s.cc p).readS b).setWidth 16
     let own := (s.ctx ((s.proc p).ctxOf.getD 0)).d.asid
     let lo := ((s.cc p).readS a).toNat / 65536 % 2 ^ 36
     let waits := ∃ r ∈ s.fl.remotes, r.core = p ∧ r.eng = none
     ∀ e ∈ ([(.tlbinvRange gd a b n, asid == own, fun v first last => v == asid && decide (first ≤ lo + n.toNat) && decide (lo ≤ last)),
         (.tlbinvAsid gd b, asid == own, fun v _ _ => v == asid), (.tlbinvAll gd, false, fun _ _ _ => true)] :
         List (Instr × Bool × (BitVec 16 → Nat → Nat → Bool))),
       let (i, free, hit) := e
       ((s.cc p).sys = false → free = false → exec i s = .next (takeFault s p .priv)) ∧
       (((s.cc p).sys = true ∨ free = true) → waits → Leaves (exec i s) s) ∧
       (((s.cc p).sys = true ∨ free = true) → ¬ waits →
         let leafHit (t : Trans) : Bool :=
           let first := t.vpn * 2 ^ (t.sz - 16)
           decide (first < 2 ^ 36) && hit t.asid first (first + 2 ^ (t.sz - 16) - 1)
         let sectorHit (k : Nat) : Bool := hit (BitVec.ofNat 16 (k / 2 ^ 45)) (k % 2 ^ 45 / 2 ^ 9) (k % 2 ^ 45 / 2 ^ 9)
         let u : State := { s with mem := { s.mem with trans := s.mem.trans.filter fun t => !leafHit t } }
         Done (exec i s) p 6 s (u.mapProcs fun c =>
           { c with coh := { c.coh with l1 := c.coh.l1.filter fun l => !sectorHit l.1 } })))

/-- R122, R443, R444, R451: PHASE declares a burst of the core from LEAD for LEN ns, or withdraws it with LEN 0, and is SHAPE above
10 ms; PACE sets the masked gaps and gives the old ones; QUOTA reads the context's balance, use, overdraft or control word. -/
def Obligations.PowerInstructions : Prop :=
  ∀ (s : State) (p : Nat) (gd : Guard) (d a b : BitVec 5), Runs s p gd →
    let x := (s.proc p).ctxOf.getD 0
    let lead := ((s.cc p).readS a).toNat
    let len := ((s.cc p).readS b).toNat
    let gives (u : State) (v : Word) : State := u.modCC p fun c => c.writeS d v
    let gap (i : Nat) : Nat := (SMap.get 0 (s.cc p).pace i).toNat
    (∀ i, p < 256 → (10000000 < lead ∨ 10000000 < len) → exec (.phase gd a b i) s = .next (takeFault s p .shape)) ∧
    (∀ i, p < 256 → lead ≤ 10000000 → len = 0 →
      Done (exec (.phase gd a b i) s) p 6 s (s.modProc p fun v => { v with burst := none })) ∧
    (∀ i : BitVec 4, p < 256 → lead ≤ 10000000 → len ≤ 10000000 → len ≠ 0 →
      ∃ u z, Done (exec (.phase gd a b i) s) p 6 s u ∧ (u.proc p).burst = some z ∧ z.onset = s.gts + lead ∧
        z.stop = s.gts + lead + len ∧ z.i = i.toNat ∧ z.ctx = x ∧ s.gts ≤ z.start ∧ z.start ≤ z.onset ∧
        u.mem = s.mem ∧ u.ctxs = s.ctxs ∧ ∀ q, q ≠ p → u.proc q = s.proc q) ∧
    (∀ mask : BitVec 4, p < 256 → ∃ m : SMap (BitVec 16),
      Done (exec (.pace gd d a mask) s) p 6 s (gives (s.modCC p fun r => { r with pace := m })
        (BitVec.ofNat 64 (gap 0 + gap 1 * 2 ^ 16 + gap 2 * 2 ^ 32 + gap 3 * 2 ^ 48))) ∧
      ∀ i, i < 4 → (SMap.get 0 m i).toNat = if mask.getLsbD i then lead / 2 ^ (16 * i) % 65536 else gap i) ∧
    (∀ sel : BitVec 2, let q := (s.ctx x).quota
      Done (exec (.quota gd d sel) s) p 6 s (gives s (match sel.toNat with
        | 0 => q.qbal | 1 => q.qused | 2 => q.qovd
        | _ => BitVec.ofNat 64 (q.und.toNat * 2 ^ 32 + q.thr.toNat * 128 + q.exh.toNat * 64 + q.pol.toNat * 8 + q.en.toNat))))

/-! ## Lookup cores (14) -/

/-- R303-R308, R312: POP_JOB takes the oldest job when none is current and the requester's accesses have performed, and
acquires the requester's signature; PUSH_DONE waits for the core's accesses, then answers the requester's reply queue and
has no current job; LKDQ takes the oldest arrived row into PR and gives its status, with a NOTE record where the row was
uncorrectable, 0 where no row is outstanding; an idle core takes a written assignment and starts its program. R310, R311,
R323: LKAQ checks the table handle, reads its list, checks every index and row address, and appends to the address queue
as many requests as fit, numbered in order, giving their count; the oldest request issues when the data queue and the
staging have room; a row arrives with its bytes, or poisoned. -/
def Obligations.LookupJobsAndRows : Prop :=
  ((∀ (s : State) (p : Nat) (gd : Guard) (x : Bool) (b : BitVec 3) (d a : BitVec 5), Runs s p gd → 256 ≤ p →
     let k := p - 256
     let l := s.lookup k
     let ws := (s.proc p).coh.wsCur ||| (s.proc p).coh.wsPrv
     (l.cur ≠ none → exec (.popJob gd x b d) s = .next (takeFault s p .illop)) ∧
     (l.cur = none → (l.jobs = [] ∨ ∃ j js, l.jobs = j :: js ∧ pusherDone s j.rcore = false) →
       (x = true → Done (exec (.popJob gd x b d) s) p 4 s (s.modCC p fun r => r.writeP b false)) ∧
       (x = false → Leaves (exec (.popJob gd x b d) s) s)) ∧
     (∀ j js, l.cur = none → l.jobs = j :: js → pusherDone s j.rcore = true → Done (exec (.popJob gd x b d) s) p 4 s
       (((acquireCo (mergePs (s.modLookup k fun l => { l with jobs := js, cur := some j }) p (j.sig ||| (s.proc j.rcore).coh.ws)) p).modCC p fun r =>
         r.writeS d (j.daddr.setWidth 64)).modCC p fun r => if x then r.writeP b true else r)) ∧
     (l.cur = none → exec (.pushDone gd a) s = .next (takeFault s p .illop)) ∧
     (∀ j, l.cur = some j → quiet s p = false → Leaves (exec (.pushDone gd a) s) s) ∧
     (∀ j, l.cur = some j → quiet s p = true → j.orphan = false →
       ((s.proc j.rcore).q.reply.length < 64 → Done (exec (.pushDone gd a) s) p 4 s
         ((s.modQ j.rcore fun q => { q with reply := q.reply ++
           [⟨replyWord s 3 j.btag j.rid.toNat ((s.cc p).readS a).toNat, ws⟩] }).modLookup k fun l => { l with cur := none })) ∧
       (64 ≤ (s.proc j.rcore).q.reply.length → Leaves (exec (.pushDone gd a) s) s)) ∧
     (l.aq = [] → l.dq = [] → Done (exec (.lkdq gd d) s) p 6 s (s.modCC p fun r => r.writeS d 0)) ∧
     (∀ r rs data bad, l.dq = r :: rs → r.data = some (data, bad) → l.stall = none →
       let pr : RowReg := ⟨r.elems, r.fmt, data, r.idx == 0xFFFFFFFF, bad && !r.pois, bad && r.pois⟩
       let u := if bad then writeRecord s l.ctx.toNat .note
         { cause := .eccu, unit := 5, core := k, faddr := r.va, loc := (s.cc p).pc.toNat % 2 ^ 52, sub := !r.pois } else s
       Done (exec (.lkdq gd d) s) p 6 s ((u.modLookup k fun l => { l with dq := rs, pr := some pr }).modCC p fun c => c.writeS d
           (BitVec.ofNat 64 (r.idx.toNat * 2 ^ 32 + r.seq.toNat * 2 ^ 16 + 2 ^ 15 + (r.idx == 0xFFFFFFFF).toNat * 2 ^ 14 +
             (bad && !r.pois).toNat * 2 ^ 13 + (bad && r.pois).toNat * 2 ^ 12 + r.elems)))) ∧
     (∀ r rs, l.dq = r :: rs → r.data = none → ∃ t, exec (.lkdq gd d) s = .next t ∧ t.cc p = s.cc p ∧
       (t.lookup k).dq = l.dq ∧ (t.lookup k).pr = l.pr)) ∧
   (∀ (s : State) (k : Nat) (v : BitVec 32), k < 16 →
     let l := s.lookup k
     let idle := l.cur = none ∧ l.jobs = [] ∧ l.aq = [] ∧ l.dq = [] ∧ l.kbags = []
     (¬ idle → exec (.lookupAssign k v) s = .next s) ∧
     (idle → ∃ t, exec (.lookupAssign k v) s = .next t ∧ (t.lookup k).v = v.getLsbD 31 ∧ (t.lookup k).ctx = fld v 0 4 ∧
       (t.lookup k).seq = 0 ∧ (t.lookup k).pr = none ∧ (t.lookup k).bags = l.bags ∧ t.mem = s.mem ∧
       (servesLookup t k (fld v 0 4).toNat = true → (t.proc (256 + k)).run = .running (fld v 0 4).toNat) ∧
       (servesLookup t k (fld v 0 4).toNat = false → (t.proc (256 + k)).run = .idle) ∧
       ∀ q, q ≠ 256 + k → t.proc q = s.proc q))) ∧
  ((∀ (s : State) (p : Nat) (gd : Guard) (d b : BitVec 5) (a : BitVec 4) (pois : Bool) (n : BitVec 13), Runs s p gd → 256 ≤ p →
     let k := p - 256
     let w := coreWho s p
     let h := (s.cc p).readH a
     let va := ((s.cc p).readS b).toNat % 2 ^ 52
     let ok := H.rankOk h = true ∧ H.fmtOk h = true ∧ tableOk h = true
     let one := ((s.cc p).readS b).toNat % 2 ^ 32
     let queued (u : State) (rs : List RowReq) : State :=
       let m := min rs.length (512 - (u.lookup k).aq.length)
       (u.modLookup k fun l => { l with aq := l.aq ++ rs.take m, seq := l.seq + BitVec.ofNat 16 m }).modCC p fun r =>
         r.writeS d (BitVec.ofNat 64 m)
     let inTable (l : List Nat) : Prop := ∀ i ∈ l, i = 0xFFFFFFFF ∨ i < H.size h 1
     (H.rankOk h = false → exec (.lkaq gd d a b pois n) s = .next (takeFault s p .shape) ∧
       exec (.lkaqOne gd d a b pois) s = .next (takeFault s p .shape)) ∧
     (H.rankOk h = true → H.fmtOk h = false → exec (.lkaq gd d a b pois n) s = .next (takeFault s p .fmtmismatch) ∧
       exec (.lkaqOne gd d a b pois) s = .next (takeFault s p .fmtmismatch)) ∧
     (ok → va % 4 ≠ 0 → exec (.lkaq gd d a b pois n) s = .next (takeFault s p .align va)) ∧
     (∀ idx s1 rs s2, ok → va % 4 = 0 → loadList w va 4 0 n.toNat s = .ok idx s1 → inTable idx →
       rowRequests w h pois (s1.lookup k).seq idx s1 = .ok rs s2 → Done (exec (.lkaq gd d a b pois n) s) p 6 s (queued s2 rs)) ∧
     (ok → ¬ inTable [one] → exec (.lkaqOne gd d a b pois) s = .next (takeFault s p .shape)) ∧
     (∀ rs s2, ok → inTable [one] → rowRequests w h pois (s.lookup k).seq [one] s = .ok rs s2 →
       Done (exec (.lkaqOne gd d a b pois) s) p 6 s (queued s2 rs))) ∧
   (∀ (s : State) (k : Nat), k < 16 → ∀ r rs, (s.lookup k).aq = r :: rs →
     let used := ((s.lookup k).dq.map RowReq.units).sum
     ((s.lookup k).dq.length < 512 → used + r.units ≤ 2048 →
       ∃ t, exec (.rowFetchIssue k) s = .next t ∧ (t.lookup k).aq = rs ∧ (t.lookup k).dq = (s.lookup k).dq ++ [r] ∧
         t.mem = s.mem ∧ t.procs = s.procs ∧ t.ctxs = s.ctxs) ∧
     ((512 ≤ (s.lookup k).dq.length ∨ 2048 < used + r.units) → exec (.rowFetchIssue k) s = .next s)) ∧
   (∀ (s : State) (k i : Nat) (r : RowReq), k < 16 → (s.lookup k).dq[i]? = some r → r.data = none →
     let put (v : List Byte × Bool) : State := s.modLookup k fun l => { l with dq := l.dq.set i { r with data := some v } }
     (runsPoisoned s.mem r.runs = false → exec (.rowArrival k i) s = .next (put (readRuns s.mem r.runs, false))) ∧
     (runsPoisoned s.mem r.runs = true → exec (.rowArrival k i) s = .next (put ([], true)))))

/-- R314-R317: LKDDP writes the distinct indices in order of first use and the map to them, after every check of both ranges;
LKPOOL adds PR, weighted, to a bag; LKPUT writes a bag to its vector and empties it; LKPUT.ROW writes PR. R318-R323: KBAG
reads its request, checks it against the directory, reads its lists and queues the request with its output runs; the
oldest request writes its outputs, and nothing else but records, when the core's earlier accesses have performed, and its
reply follows when its own stores have and the queue has room. -/
def Obligations.LookupPoolingAndBags : Prop :=
  (∀ (s : State) (p : Nat) (gd : Guard) (d a b : BitVec 5) (ha rm bag : BitVec 4) (n : BitVec 13) (bf one clr : Bool),
     Runs s p gd → 256 ≤ p →
     let k := p - 256
     let w := coreWho s p
     let l := s.lookup k
     let src := ((s.cc p).readS a).toNat % 2 ^ 52
     let dst := ((s.cc p).readS b).toNat % 2 ^ 52
     let mdst := (dst + 4 * n.toNat) % 2 ^ 52
     let g := if clr then Bag.empty else SMap.get Bag.empty l.bags bag.toNat
     let put (v : Bag) : State := s.modLookup k fun l => { l with bags := SMap.set Bag.empty l.bags bag.toNat v }
     (src % 4 ≠ 0 → exec (.lkddp gd d a b n) s = .next (takeFault s p .align src)) ∧
     (src % 4 = 0 → dst % 4 ≠ 0 → exec (.lkddp gd d a b n) s = .next (takeFault s p .align dst)) ∧
     (∀ xs s1 s2 s3 s4 s5, src % 4 = 0 → dst % 4 = 0 → loadList w src 4 0 n.toNat s = .ok xs s1 →
       let u := (xs.filter fun x => x != 0xFFFFFFFF).eraseDups
       let m := xs.map fun x => if x = 0xFFFFFFFF then 0xFFFF else u.findIdx fun y => y == x
       checkRange w dst 4 u.length s1 = .ok () s2 → checkRange w mdst 2 xs.length s2 = .ok () s3 →
       storeList w dst 4 0x10000 u s3 = .ok () s4 → storeList w mdst 2 0x20000 m s4 = .ok () s5 →
       Done (exec (.lkddp gd d a b n) s) p 6 s (s5.modCC p fun r => r.writeS d (BitVec.ofNat 64 u.length))) ∧
     (l.pr = none → exec (.lkpool gd b bag bf one clr) s = .next (takeFault s p .shape) ∧
       exec (.lkputRow gd ha rm) s = .next (takeFault s p .shape)) ∧
     (∀ r, l.pr = some r →
       (g.elems ≠ 0 → g.elems ≠ r.elems → exec (.lkpool gd b bag bf one clr) s = .next (takeFault s p .shape)) ∧
       ((g.elems = 0 ∨ g.elems = r.elems) →
         ((r.nul = true ∨ r.sub = true) → Done (exec (.lkpool gd b bag bf one clr) s) p 6 s (put { g with elems := r.elems })) ∧
         (r.nul = false → r.sub = false → r.psn = true →
           Done (exec (.lkpool gd b bag bf one clr) s) p 6 s (put { g with elems := r.elems, psn := true })) ∧
         (r.nul = false → r.sub = false → r.psn = false → g.count = 65536 →
           exec (.lkpool gd b bag bf one clr) s = .next (takeFault s p .acclim)) ∧
         (r.nul = false → r.sub = false → r.psn = false → g.count ≠ 65536 →
           ∃ v, Done (exec (.lkpool gd b bag bf one clr) s) p 6 s (put v) ∧ v.count = g.count + 1 ∧ v.elems = r.elems ∧ v.psn = g.psn ∧
             ∀ e, e < r.elems →
               let o := SMap.get (⟨0, 0⟩ : BagElem) g.el e
               let wt : XVal := if one then .fin false 1 0 else decodeF (if bf then .bf16 else .fp16) (((s.cc p).readS b).toNat % 65536)
               let z := poolTerm o.tag o.sum wt (rowElem r.fmt.toNat r.data e)
               SMap.get (⟨0, 0⟩ : BagElem) v.el e = ⟨z.2, z.1⟩))) ∧
     (let g := SMap.get Bag.empty l.bags bag.toNat
      (g.elems = 0 → exec (.lkput gd ha rm bag) s = .next (takeFault s p .shape)) ∧
      (∀ t, g.elems ≠ 0 → putVector p w ((s.cc p).readH ha) rm ((List.range g.elems).map fun e =>
         let o : BagElem := SMap.get ⟨0, 0⟩ g.el e
         poolValue o.tag o.sum) g.psn s = .ok () t →
       Done (exec (.lkput gd ha rm bag) s) p 6 s (t.modLookup k fun l => { l with bags := SMap.set Bag.empty l.bags bag.toNat Bag.empty }))) ∧
     (∀ r t, l.pr = some r → putVector p w ((s.cc p).readH ha) rm ((List.range r.elems).map fun e =>
         if r.nul || r.sub || r.psn then XVal.fin false 0 0 else rowElem r.fmt.toNat r.data e) r.psn s = .ok () t →
       Done (exec (.lkputRow gd ha rm) s) p 6 s t)) ∧
  ((∀ (s : State) (p : Nat) (gd : Guard) (a : BitVec 5) (rid : BitVec 8), Runs s p gd → 256 ≤ p →
     let k := p - 256
     let w := coreWho s p
     let va := ((s.cc p).readS a).toNat % 2 ^ 52
     (va % 64 ≠ 0 → exec (.kbag gd a rid) s = .next (takeFault s p .align va)) ∧
     (∀ pl s1 v s2 off s3 idx s4 wgt s5 outs s6, va % 64 = 0 → resolveLoad w va 64 false s = .ok pl s1 → pl.kind ≠ .mmio →
       load w pl 64 false {} false s1 = .ok v s2 →
       let q := bytesN 64 v
       let f (lo n : Nat) : Nat := obField q lo n
       let e := SMap.get 0 s2.links.dir (f 0 1)
       let wsum := f 1 1 == 1
       let b := fmtBits (f 3 1) / 8
       let shape := f 1 1 ≤ 1 ∧ f 2 1 < 32 ∧ f 2 1 / 4 ≤ 5 ∧ (f 3 1 = 9 ∨ f 3 1 = 10 ∨ f 3 1 = 11) ∧ 1 ≤ f 4 2 ∧ f 4 2 ≤ 4096 ∧
         f 6 2 = 0 ∧ f 48 16 = 0
       shape → dirV e = true → dirCtx e = w.ctx → f 8 8 % 4 = 0 → f 24 8 % 4 = 0 → (wsum = true → f 16 8 % 2 = 0) →
       loadList w (f 24 8 % 2 ^ 52) 4 0x10000 (f 4 2 + 1) s2 = .ok off s3 → offsetsOk off = true →
       loadList w (f 8 8 % 2 ^ 52) 4 0x20000 (off.getLast?.getD 0) s3 = .ok idx s4 →
       (if wsum then loadList w (f 16 8 % 2 ^ 52) 2 0x40000 (off.getLast?.getD 0) else pure []) s4 = .ok wgt s5 →
       (∀ i ∈ idx, i = 0xFFFFFFFF ∨ i < dirRows e) → dirElems e * b ≤ f 40 8 →
       ((List.range (f 4 2)).mapM fun n => outElems w ((f 32 8 % 2 ^ 52 + n * f 40 8) % 2 ^ 52) b (dirElems e)) s5 = .ok outs s6 →
       (s6.lookup k).kbags.length < 16 →
       Done (exec (.kbag gd a rid) s) p 6 s (s6.modLookup k fun l => { l with kbags := l.kbags ++
         [⟨rid, w.ctx, e, f 2 1 % 2 == 1, f 2 1 / 2 % 2 == 1, !wsum, BitVec.ofNat 3 (f 2 1 / 4), BitVec.ofNat 8 (f 3 1), off, idx,
           wgt, outs, (s6.cc p).pc.toNat % 2 ^ 52, none, false⟩] }))) ∧
   (∀ (s : State) (k : Nat) r rs, k < 16 → (s.lookup k).kbags = r :: rs →
     let p := 256 + k
     (r.written = none →
       ((∃ e ∈ s.fl.remotes, e.core = p) → exec (.kbagReply k) s = .next s) ∧
       ((∀ e ∈ s.fl.remotes, e.core ≠ p) → ∃ (t : State) (err : Bool), exec (.kbagReply k) s = .next t ∧
         (t.lookup k).kbags = { r with written := some err } :: rs ∧
         (t.proc p).coh.acks = (s.proc p).coh.acks ++ kbagSectors s r ∧ (t.proc p).q = (s.proc p).q ∧
         (∀ key, (∀ o ∈ r.outs, ∀ e ∈ o, key ∉ e) → (∀ c ∈ [s.ctx r.ctx],
             key < lstBase + (c.d.lstb.toNat + c.d.lstq.toNat) * 2 ^ 20 - 16384 ∨
             lstBase + (c.d.lstb.toNat + c.d.lstq.toNat) * 2 ^ 20 ≤ key) → t.mem.read key 1 = s.mem.read key 1))) ∧
     (∀ err, r.written = some err →
       let ends (f : State → State) : Prop := exec (.kbagReply k) s = .next (f (s.modLookup k fun l => { l with kbags := rs }))
       (quiet s p = false ∨ (r.drop = false ∧ 64 ≤ (s.proc p).q.reply.length) → exec (.kbagReply k) s = .next s) ∧
       (quiet s p = true → r.drop = true → ends id) ∧
       (quiet s p = true → r.drop = false → (s.proc p).q.reply.length < 64 → ends fun t =>
         t.modQ p fun q => { q with reply := q.reply ++
           [⟨replyWord s 4 0 r.rid.toNat ((if err then 32768 else 0) + (r.off.length - 1)), (s.proc p).coh.ws⟩] }))))

/-! ## Vector engine (07, 09) -/

/-- R77, R160, R268, R273, R275: every vector and Press instruction at the head of its stream. An undefined token action is
ENGILL; one that its tests or a VBRZ skip pass over only advances the sequencer; one whose pacing gap has not passed waits, and so
does one that is not the oldest admitted waiter for charge; admitted, it pays and goes on, and its tests are made no more (R162);
the Press also waits for the writes of a former lease holder (R224); one that needs a token waits for it, or pops it with its
release, that of queue 4 once the accesses of the core's CC have performed (R276). -/
def Obligations.StreamInstructionOrder : Prop :=
  ∀ (i : Instr) (f : StreamForm) (s : State) (p : Nat) (cap : Capture), streamForm i = some f → streamCore s f.px = some p →
    (seqr s p f.px).cap = some cap →
    let q := seqr s p f.px
    let e := streamEng f.px
    (q.token f.c.tk = none → StreamFaults (exec i s) s p f.px cap .engill 0 0) ∧
    ∀ d, q.token f.c.tk = some d →
      (streamRuns s p q f.c = false → Leaves (exec i s) (modSeqr s p f.px fun q => (q.skipOver f.len).settle)) ∧
      (streamRuns s p q f.c = true →
        (q.phase ≠ .paid → f.px = true → formerWrites s p = true → Leaves (exec i s) s) ∧
        (q.phase = .fresh → paceOver s p e (lastDequeue s p f.px) = false → Leaves (exec i s) s) ∧
        ((q.phase = .fresh ∧ paceOver s p e (lastDequeue s p f.px) = true) ∨ q.phase = .charging →
          (f.px && formerWrites s p) = false → (s.ctx cap.ctx).quota.en = false →
          let s0 := modSeqr s p f.px fun q => { q with phase := .charging }
          let s1 := if (s0.cluster (p / 4)).pow.waiters.contains (p, e) then s0
            else s0.modCluster (p / 4) fun c => { c with pow := { c.pow with waiters := c.pow.waiters ++ [(p, e)] } }
          let pow := (s1.cluster (p / 4)).pow
          let thr := ((engineCap (s1.proc p) e).map fun c => (s1.proc c.core).throttled).getD false
          let admitted : Prop := pow.waiters.head? = some (p, e) ∧ admits pow (f.cost s p) thr = true
          (¬ admitted → Leaves (exec i s) s1) ∧
          (admitted → exec i s = exec i (noteDequeue (modSeqr
            (debit (s1.modCluster (p / 4) fun c => { c with pow := { c.pow with waiters := c.pow.waiters.tail } }) (p / 4) cap.ctx
              (f.cost s p) thr) p f.px fun q => { q with phase := .paid }) p f.px))) ∧
        (q.phase = .paid → d.getLsbD 14 = true → q.popped = none →
          let n := (fld d 11 3).toNat
          let pushed : Prop := n = 4 → ∀ r ∈ s.fl.remotes, ¬ (r.q = p ∧ r.eng = none)
          ((tokens (s.proc p).q n = [] ∨ ¬ pushed) → Leaves (exec i s) s) ∧
          (∀ v vs, tokens (s.proc p).q n = v :: vs → pushed → exec i s = exec i
            (modSeqr (acquireCo (s.modQ p fun k => setTokens k n vs) p) p f.px fun q => { q with popped := some (v, n) }))))

/-- R152, R157, R164-R167, R170: the binary and unary element-wise instructions write the active elements of v[VD] with the table's
operation on the elements of VSH.TYPE, and nothing else; a type that the instruction does not accept is SHAPE. A special function
gives the named results of its table, of a NaN a NaN. -/
def Obligations.ElementwiseInstructions : Prop :=
  ∀ (s : State) (p : Nat) (cap : Capture) (d : BitVec 16),
    let v := s.ve p
    let w := vBits v.ty
    (∀ (o : VBin), Ready s p false o.c cap d → ∀ e ∈ binaryRules,
      (e.2.on v.ty = none → StreamFaults (exec (e.1 o) s) s p false cap .shape 0 0) ∧
      (∀ f, e.2.on v.ty = some f →
        VecWrites (exec (e.1 o) s) s p 2 d o.m o.vd v.ty fun i => f (elem (v.reg o.va) w i) (elem (v.reg o.vb) w i))) ∧
    (∀ (o : VUn), Ready s p false o.c cap d →
      (∀ e ∈ unaryRules,
        (e.2.on v.ty = none → StreamFaults (exec (e.1 o) s) s p false cap .shape 0 0) ∧
        (∀ f, e.2.on v.ty = some f →
          VecWrites (exec (e.1 o) s) s p 2 d o.m o.vd v.ty fun i => f (elem (v.reg o.va) w i) 0)) ∧
      (∀ e ∈ specialRules,
        (¬ (6 ≤ v.ty.toNat ∧ v.ty.toNat ≤ 8) → StreamFaults (exec (e.1 o) s) s p false cap .shape 0 0) ∧
        (6 ≤ v.ty.toNat ∧ v.ty.toNat ≤ 8 → ∃ g : Nat → Nat,
          VecWrites (exec (e.1 o) s) s p 2 d o.m o.vd v.ty (fun i => g (elem (v.reg o.va) w i)) ∧
          ∀ x r, specialResult e.2 (vFmt v.ty) (decodeF (vFmt v.ty) x) = some r → g x = r)))

/-- R152, R168, R170, R171, R173, R175: the fused multiply-adds, selects, transposes, permutes, broadcasts, generators,
conversions and funnel shifts write the active elements of v[VD] with the values their entries give, and nothing else;
SHAPE where N elements of a type do not fit a register, or the type is not accepted. R174: VQBLK gives each block of 32
elements its scale and its elements divided by it, rounded once; a block with a NaN has scale 0xFF and zeros; the rest of
both registers stays. -/
def Obligations.ElementInstructions : Prop :=
  (∀ (s : State) (p : Nat) (c : VCom) (cap : Capture) (d : BitVec 16) (m : Bool) (vd va vb vc : BitVec 5) (t st : BitVec 4)
     (rm : BitVec 3), Ready s p false c cap d →
     let v := s.ve p
     let w := vBits v.ty
     let e (r : BitVec 5) (t : BitVec 4) (i : Nat) : Nat := elem (v.reg r) (vBits t) i
     let mode := RMode.of rm.toNat cap.rm.toNat
     let u (i : Nat) : Nat := (veItem s p cap).sr s i
     let writes (i : Instr) (n : Nat) (m : Bool) (t : BitVec 4) (f : Nat → Nat) : Prop := VecWrites (exec i s) s p n d m vd t f
     let shapes (i : Instr) : Prop := StreamFaults (exec i s) s p false cap .shape 0 0
     -- fused multiply-add: a*b+c, a*b-c, c-a*b (R168)
     (∀ k ∈ [((.vfma : VFma → Instr), fun (x z : XVal) => (x, z), fun x z : Int => x + z),
             (.vfms, fun x z => (x, z.neg), fun x z => x - z), (.vfnma, fun x z => (x.neg, z), fun x z => z - x)],
       let i := k.1 ⟨c, m, vd, va, vb, vc, t, rm⟩
       (v.fits t = false → shapes i) ∧
       (v.fits t = true → t.toNat ≤ 5 → writes i 3 m t fun i =>
         trunc (vBits t) (k.2.2 (vIntVal t (e va t i) * vIntVal t (e vb t i)) (vIntVal t (e vc t i)))) ∧
       (v.fits t = true → 6 ≤ t.toNat → t.toNat ≤ 8 → writes i 3 m t fun i =>
         let f := vFmt t
         let x := k.2.1 ((decodeF f (e va t i)).mul (decodeF f (e vb t i))) (decodeF f (e vc t i))
         roundF f mode false (u i) (x.1.add (mode == .rdn) x.2))) ∧
     -- bits of elements (R170)
     writes (.vsel c vd va vb) 2 false v.ty (fun i => if v.top.getLsbD i then e va v.ty i else e vb v.ty i) ∧
     (∃ f, writes (.vtrn c vd va) 2 false v.ty f ∧
       ∀ r k, r < v.rows → k < v.cols → f (k * v.rows + r) = e va v.ty (r * v.cols + k)) ∧
     (256 < v.count → shapes (.vperm ⟨c, m, vd, va, vb⟩)) ∧
     (v.count ≤ 256 → writes (.vperm ⟨c, m, vd, va, vb⟩) 2 m v.ty fun i =>
       let j := elem (v.reg vb) 16 i
       if j < v.count then e va v.ty j else 0) ∧
     -- broadcasts and generators (R171)
     (∀ (k : BitVec 4) (imm : BitVec 16) (kind : BitVec 2),
       let l : Word := SMap.get 0 (s.ctx cap.ctx).loops k.toNat
       let bcast (x : Word) : Nat :=
         if v.ty.toNat ≤ 5 then x.toNat % 2 ^ w else if v.ty.toNat = 6 then x.toNat % 2 ^ 32
         else roundF (vFmt v.ty) .rne false 0 (decodeF .fp32 (x.toNat % 2 ^ 32))
       (8 < v.ty.toNat → shapes (.vbcl c m vd k) ∧ shapes (.vli c m vd imm) ∧ shapes (.vbcs c m vd)) ∧
       (v.ty.toNat ≤ 8 → writes (.vbcl c m vd k) 2 m v.ty (fun _ => bcast l) ∧
         writes (.vli c m vd imm) 3 m v.ty (fun _ =>
           if v.ty.toNat ≤ 5 then trunc w (if v.ty.toNat % 2 = 0 then imm.toInt else imm.toNat)
           else if v.ty.toNat = 6 then imm.toNat * 2 ^ 16 else imm.toNat) ∧
         ((s.proc p).q.toVe = [] → Leaves (exec (.vbcs c m vd) s) s) ∧
         (∀ x xs, (s.proc p).q.toVe = x :: xs →
           (pushReleased s cap = false → Leaves (exec (.vbcs c m vd) s) s) ∧
           (pushReleased s cap = true → ∃ v', Written v v' m vd v.ty (fun _ => bcast x.v) ∧
             StreamDone (exec (.vbcs c m vd) s) p false 2 d
               ((acquireCo (mergePs (s.modQ p fun q => { q with toVe := xs }) p x.sig) p).modVE p fun _ => v')))) ∧
       (v.fits t = false → shapes (.viota c m vd t kind)) ∧
       (v.fits t = true → t.toNat ≤ 7 → writes (.viota c m vd t kind) 3 m t fun i =>
         let n := match kind.toNat with | 0 => i | 1 => i / v.cols | _ => i % v.cols
         if t.toNat ≤ 5 then n % 2 ^ vBits t else roundF (vFmt t) .rne false 0 (.ofInt n))) ∧
     -- conversions (R173): exact values rounded into the destination; a type to itself keeps its bits but for IEEE NaNs
     (∀ noo, (v.fits t && v.fits st) = false → shapes (.vcvt c m vd va noo t st rm)) ∧
     (∀ noo, (v.fits t && v.fits st) = true → ∃ f, writes (.vcvt c m vd va noo t st rm) 3 m t f ∧
       (t ≠ st ∨ noo = true → ∀ i, f i = encodeElem (vCode t) mode noo (u i) (decodeElem (vCode st) (e va st i))) ∧
       (t = st → noo = false → ∀ i,
         (¬ (6 ≤ t.toNat ∧ t.toNat ≤ 8 ∧ (decodeF (vFmt t) (e va t i)).isNaN = true) → f i = e va t i) ∧
         (6 ≤ t.toNat ∧ t.toNat ≤ 8 → (decodeF (vFmt t) (e va t i)).isNaN = true → f i = (vFmt t).nanResult))) ∧
     -- funnel shifts (R175)
     (∀ left, (v.fits t = false → shapes (.vfsh c m vd va vb vc t left)) ∧
       (v.fits t = true → writes (.vfsh c m vd va vb vc t left) 3 m t fun i =>
         let w := vBits t
         let x := e va t i * 2 ^ w + e vb t i
         let n := e vc t i % (2 * w)
         if left then (x * 2 ^ n) / 2 ^ w % 2 ^ w else x / 2 ^ n % 2 ^ w))) ∧
  (∀ (s : State) (p : Nat) (c : VCom) (cap : Capture) (d : BitVec 16) (vd va vc : BitVec 5) (t st : BitVec 4) (rm : BitVec 3),
     Ready s p false c cap d → 9 ≤ t.toNat → t.toNat ≤ 13 → 6 ≤ st.toNat → st.toNat ≤ 8 → vc ≠ vd →
     let v := s.ve p
     let i : Instr := .vqblk c vd va vc t st rm
     let ok := v.count % 32 = 0 ∧ v.fits t = true ∧ v.fits st = true
     let x (j : Nat) : XVal := decodeF (vFmt st) (elem (v.reg va) (vBits st) j)
     let emax : Int := if t.toNat = 9 then 8 else if t.toNat = 10 then 15 else if t.toNat = 11 then 4 else 2
     let mode := RMode.of rm.toNat cap.rm.toNat
     (¬ ok → StreamFaults (exec i s) s p false cap .shape 0 0) ∧
     (ok → ∃ v' : VERegs, StreamDone (exec i s) p false 3 d (s.modVE p fun _ => v') ∧
       { v' with v := [] } = { v with v := [] } ∧
       (∀ k, k ≠ v.phys vd → k ≠ v.phys vc → SMap.get 0 v'.v k = SMap.get 0 v.v k) ∧
       (∀ b, v.count / 32 ≤ b → b < 512 → elem (v'.reg vc) 8 b = elem (v.reg vc) 8 b) ∧
       (∀ b, v.count * vBits t ≤ b → b < 4096 → (v'.reg vd).getLsbD b = (v.reg vd).getLsbD b) ∧
       ∀ b, b < v.count / 32 →
         let sc := elem (v'.reg vc) 8 b
         let inBlock (P : XVal → Prop) : Prop := ∃ k, k < 32 ∧ P (x (32 * b + k))
         (inBlock (fun y => y.isNaN = true) → sc = 0xFF ∧ ∀ k, k < 32 → elem (v'.reg vd) (vBits t) (32 * b + k) = 0) ∧
         (¬ inBlock (fun y => y.isNaN = true) →
           (∀ k, k < 32 → elem (v'.reg vd) (vBits t) (32 * b + k) =
             roundF (vFmt t) mode false ((veItem s p cap).sr s (32 * b + k)) ((x (32 * b + k)).scale (127 - (sc : Int))) % 2 ^ vBits t) ∧
           (inBlock (fun y => ∃ n, y = .inf n) → sc = 254) ∧
           ((∀ k, k < 32 → (x (32 * b + k)).isZero = true) → sc = 127) ∧
           (¬ inBlock (fun y => ∃ n, y = .inf n) → ∀ k n g q, k < 32 → x (32 * b + k) = .fin n g q → g ≠ 0 →
             (∀ j n' g' q', j < 32 → x (32 * b + j) = .fin n' g' q' → magLt (g, q) (g', q') = false) →
             (sc : Int) = min (max ((Nat.log2 g : Int) + q - emax + 127) 0) 254))))

/-- R154-R156, R158-R161, R169, R273, R274: what the mask stack, the shape, the stage predicates and the rotating base become; MSTK
where the stack is full or empty; VBRZ skips when no element is active; a block header awaits its semaphore, acquires and copies
its body. -/
def Obligations.MasksShapesAndBlocks : Prop :=
  ∀ (s : State) (p : Nat) (c : VCom) (cap : Capture) (d : BitVec 16),
    (Ready s p false c cap d →
      let v := s.ve p
      let done (i : Instr) (n : Nat) (v' : VERegs) : Prop := StreamDone (exec i s) p false n d (s.modVE p fun _ => v')
      let mstk (i : Instr) : Prop := StreamFaults (exec i s) s p false cap .mstk 0 0
      let depth := v.depth.toNat
      let pushed (i : Instr) (n : Nat) (bit : Nat → Bool) : Prop :=
        (16 ≤ depth → mstk i) ∧
        (1 ≤ depth → depth < 16 → ∃ v', done i n v' ∧ v'.depth = v.depth + 1 ∧ (∀ b, b < 1024 → v'.top.getLsbD b = bit b) ∧
          (∀ k, k < depth → v'.maskAt k = v.maskAt k) ∧ { v' with mask := [], depth := 0 } = { v with mask := [], depth := 0 })
      (∀ (va vb : BitVec 5) (t cond : BitVec 4),
        (v.fits t = false → StreamFaults (exec (.vcmp c va vb t cond) s) s p false cap .shape 0 0) ∧
        (v.fits t = true →
          let x (i : Nat) := decodeElem (vCode t) (elem (v.reg va) (vBits t) i)
          let y (i : Nat) := decodeElem (vCode t) (elem (v.reg vb) (vBits t) i)
          let un (i : Nat) := (x i).isNaN || (y i).isNaN
          pushed (.vcmp c va vb t cond) 3 fun i =>
            v.top.getLsbD i && (decide (v.count ≤ i) ||
              match cond.toNat with
              | 0 => (x i).eqv (y i)
              | 1 => un i || !(x i).eqv (y i)
              | 2 => (x i).lt (y i)
              | 3 => (x i).lt (y i) || (x i).eqv (y i)
              | 4 => (y i).lt (x i)
              | 5 => (y i).lt (x i) || (x i).eqv (y i)
              | 6 => un i
              | _ => !un i))) ∧
      (∀ va : BitVec 5, pushed (.mset c va) 2 fun i => (v.reg va).getLsbD i) ∧
      (depth < 2 → mstk (.mpop c) ∧ mstk (.minv c)) ∧
      (2 ≤ depth → done (.mpop c) 2 { v with depth := v.depth - 1 } ∧
        ∃ v', done (.minv c) 2 v' ∧ v'.top = ~~~v.top &&& v.maskAt (depth - 2) ∧ v'.depth = v.depth ∧
          (∀ k, k ≠ depth - 1 → v'.maskAt k = v.maskAt k) ∧ { v' with mask := [] } = { v with mask := [] }) ∧
      (∀ vd : BitVec 5, ∃ v', done (.mget c vd) 2 v' ∧ (v'.reg vd).toNat = v.top.toNat ∧
        (∀ k, k ≠ v.phys vd → SMap.get 0 v'.v k = SMap.get 0 v.v k) ∧ { v' with v := [] } = { v with v := [] }) ∧
      (∀ (t : BitVec 4) (imm : BitVec 15) (en val : BitVec 7) (b : Bool) (n : BitVec 4),
        (∃ v', done (.vshape c t imm) 3 v' ∧ v'.ty = t ∧ v'.rows = imm.toNat % 64 + 1 ∧ v'.cols = imm.toNat / 64 + 1 ∧
          { v' with vsh := 0 } = { v with vsh := 0 }) ∧
        (∃ v', done (.vsprSet c en val) 3 v' ∧ { v' with sp := 0 } = { v with sp := 0 } ∧
          ∀ i, i < 7 → v'.sp.getLsbD i = if en.getLsbD i then val.getLsbD i else v.sp.getLsbD i) ∧
        (∃ v', done (.vsprShift c b) 3 v' ∧ { v' with sp := 0 } = { v with sp := 0 } ∧
          ∀ i, i < 7 → v'.sp.getLsbD i = if i = 0 then b else v.sp.getLsbD (i - 1)) ∧
        done (.vrrbSet c n) 3 { v with rrb := n } ∧ done (.vrrbAdd c n) 3 { v with rrb := v.rrb + n }) ∧
      (∀ n : BitVec 5,
        ((∃ i, i < v.count ∧ v.top.getLsbD i = true) → StreamDone (exec (.vbrz c n) s) p false 2 d s) ∧
        ((∀ i, i < v.count → v.top.getLsbD i = false) → StreamDone (exec (.vbrz c n) s) p false 2 d
          (modSeqr s p false fun q => { q with block := q.block.map fun b => { b with skip := n.toNat } })))) ∧
    (∀ (px : Bool) (lvl : BitVec 3) (len : BitVec 10) (aw raise : BitVec 6) (rep : BitVec 10),
      (match s.actor with | .ve _ => px = false | .px _ => px = true | _ => False) → streamCore s px = some p →
      (seqr s p px).cap = some cap →
      let q := seqr s p px
      let v := s.ve p
      let i : Instr := .blk lvl len aw raise rep
      let started : Block :=
        ⟨lvl.toNat, rep.toNat, raise.toNat, bodyParcels s p px (q.pc + 3) len.toNat, q.pc + 3, 0, 0,
          if lvl = 0 then [rep.toNat]
          else (List.range lvl.toNat).map fun l => (SMap.get Nest.reset (if px then v.pnest else v.vnest) (l + 1)).bound.toNat,
          (List.range 4).map fun k => H.base (v.slot px k), 0⟩
      let entered (s : State) : State := modSeqr s p px fun q => { q with block := some started, word := none }
      (q.block ≠ none → StreamFaults (exec i s) s p px cap .engill 0 0) ∧
      (q.block = none → aw = 0 → Leaves (exec i s) (entered s)) ∧
      (q.block = none → aw ≠ 0 →
        let me := some (p, streamEng px)
        let n := aw.toNat
        let word := (SMap.get 0 (s.sync p).sem n).toNat
        let older := ∃ w ∈ (s.proc p).semq, w.sem = n ∧ w.granted = false
        let mine := (s.proc p).semq.find? fun w => w.who == me
        (mine = none → 1 ≤ word % 65536 → ¬ older → Leaves (exec i s)
          (entered (acquireCo (s.modSync p fun y => { y with sem := SMap.set 0 y.sem n (BitVec.ofNat 17 (word - 1)) }) p))) ∧
        (mine = none → (word % 65536 = 0 ∨ older) → Leaves (exec i s)
          (s.modProc p fun x => { x with semq := x.semq ++ [⟨n, me, 1, false⟩] })) ∧
        (∀ w, mine = some w → w.granted = true → Leaves (exec i s)
          (entered (acquireCo (s.modProc p fun x => { x with semq := x.semq.filter fun w => w.who != me }) p))) ∧
        (∀ w, mine = some w → w.granted = false → Leaves (exec i s) s)))
/-- R68, R69, R172, R176, R177: VRED and VSCAN fold the active elements of each set in ascending order; MAXIDX and MINIDX give the
winning element's bits and its lowest index; only the result elements change. VEXT pushes an element of v[VA] with the core's
signature once the queue has room and the VE's writes are done. -/
def Obligations.FoldsAndExtract : Prop :=
  ∀ (s : State) (p : Nat) (cap : Capture) (d : BitVec 16),
    let v := s.ve p
    (∀ (o : VFold), Ready s p false o.c cap d →
      let w := vBits o.t
      let e (i : Nat) : Nat := elem (v.reg o.va) w i
      let op := o.op.toNat
      let bw := o.bw.toNat
      let n : Nat := if o.row then v.rows else 1
      let set := foldSet v o.row o.m
      (v.fits o.t = false → StreamFaults (exec (.vred o) s) s p false cap .shape 0 0 ∧
        StreamFaults (exec (.vscan o) s) s p false cap .shape 0 0) ∧
      (v.fits o.t = true →
        VecWrites (exec (.vscan o) s) s p 3 d o.m o.vd o.t (fun i =>
          foldOf op bw o.t (((set (i / v.cols)).filter fun j => j ≤ i).map e)) ∧
        (op ≠ 4 → op ≠ 5 →
          let wd : Nat := if o.t.toNat ≤ 5 ∧ op ≤ 1 then 32 else w
          ∃ v' : VERegs, StreamDone (exec (.vred o) s) p false 3 d (s.modVE p fun _ => v') ∧
            (∀ r, r < n → elem (v'.reg o.vd) wd r = foldOf op bw o.t ((set r).map e) % 2 ^ wd) ∧
            (∀ b, n * wd ≤ b → b < 4096 → (v'.reg o.vd).getLsbD b = (v.reg o.vd).getLsbD b) ∧
            (∀ k, k ≠ v.phys o.vd → SMap.get 0 v'.v k = SMap.get 0 v.v k) ∧ { v' with v := [] } = { v with v := [] }) ∧
        ((op = 4 ∨ op = 5) → o.vc ≠ o.vd →
          let worse (x y : Nat) : Bool := if op = 4 then keyBefore o.t x y else keyBefore o.t y x
          ∃ v' : VERegs, StreamDone (exec (.vred o) s) p false 3 d (s.modVE p fun _ => v') ∧
            (∀ r, r < n → set r = [] → elem (v'.reg o.vd) w r = 0 ∧ elem (v'.reg o.vc) 32 r = 0xFFFFFFFF) ∧
            (∀ r, r < n → set r ≠ [] → ∃ j ∈ set r, elem (v'.reg o.vd) w r = e j ∧ elem (v'.reg o.vc) 32 r = j ∧
              (∀ k ∈ set r, worse (e j) (e k) = false) ∧ ∀ k ∈ set r, k < j → worse (e k) (e j) = true) ∧
            (∀ b, n * w ≤ b → b < 4096 → (v'.reg o.vd).getLsbD b = (v.reg o.vd).getLsbD b) ∧
            (∀ b, n * 32 ≤ b → b < 4096 → (v'.reg o.vc).getLsbD b = (v.reg o.vc).getLsbD b) ∧
            (∀ k, k ≠ v.phys o.vd → k ≠ v.phys o.vc → SMap.get 0 v'.v k = SMap.get 0 v.v k) ∧
            { v' with v := [] } = { v with v := [] }))) ∧
    (∀ (c : VCom) (va : BitVec 5) (idx : BitVec 10), Ready s p false c cap d →
      let i : Instr := .vext c va idx
      let x := elem (v.reg va) (vBits v.ty) idx.toNat
      let room := (s.proc p).q.toCc.length < 32 ∧ writesDone s p .ve = true
      (v.count ≤ idx.toNat → StreamFaults (exec i s) s p false cap .shape 0 0) ∧
      (idx.toNat < v.count → ¬ room → Leaves (exec i s) s) ∧
      (idx.toNat < v.count → room → StreamDone (exec i s) p false 2 d (s.modQ p fun q => { q with toCc := q.toCc ++
        [⟨if v.ty.toNat ≤ 5 ∧ v.ty.toNat % 2 = 0 then BitVec.ofInt 64 (signExt (vBits v.ty) x) else BitVec.ofNat 64 x, wsOf s p⟩] })))

/-- R152, R210-R213, R216, R217, R369: VLD, VLDU and VGTH. Every check in its order, each failing with nothing changed; a tile
that is not there yet waits; then the active elements are read, in ascending order, and only then v[VD] is written; from
the on-chip windows the elements are those of the bytes there. R152, R210-R214, R216, R217: VST, VSTB, VSCT and VSCA.
Every check in its order, each failing with nothing changed; then the elements are stored in ascending order, bits of
shared bytes merged, the sums of VSCA added to what is there; no register changes. A refused page stops VST, VSTB and VSCT
after the elements below it, and VSCA before its first update. -/
def Obligations.VectorMemory : Prop :=
  (∀ (s : State) (p : Nat) (cap : Capture) (d : BitVec 16) (c : VCom) (m : Bool) (vd vb : BitVec 5) (hs : BitVec 2) (cls : BitVec 4)
     (off : BitVec 11), Ready s p false c cap d →
     let v := s.ve p
     let wd := vBits v.ty
     let h := v.slot false hs.toNat
     let base : Nat := (H.base h).toNat
     let rs : Int := if H.rank h ≥ 2 then H.stride h 1 else v.cols
     let who := (veItem s p cap).who
     let attr : Attr := ⟨if cls = 0 then H.cls h else cls, 0, 0, none⟩
     let touched (es : List (Nat × Int)) := es.map fun e => elemBytes e.2 wd
     let act := v.active m
     -- an instruction that reads the elements es of width n
     let loads (i : Instr) (k : AccessChecks) (n : Nat) (es : List (Nat × Int)) (runs : List (Nat × Nat)) (value : Nat → Nat) : Prop :=
       k.faults (exec i s) s p cap ∧
       (k.pass → TileOpen s p cap.ctx h →
         (OnChip s who runs → Unbarred s who attr.cls runs → VecWrites (exec i s) s p 3 d m vd v.ty value) ∧
         (∀ f a st dt t, readElems who false attr n es s = .error (.fault f a st dt) t →
           exec i s = .next (streamFault t p false cap f a (ringKey s p false (seqr s p false).here) dt)) ∧
         (∀ ev t, readElems who false attr n es s = .error (.wait ev) t → Leaves (exec i s) t)) ∧
       (k.pass → ∀ ev t, tileReadWait cap.ctx (tileCluster p base) (H.tile h) s = .error (.wait ev) t → Leaves (exec i s) s)
     let tile := act.map fun i => (i, (8 * base + (off.toInt + (i % v.cols : Nat) + (i / v.cols : Nat) * rs) * wd : Int))
     let gathered := act.map fun i => (i, (8 * base + (off.toInt + signExt 32 (elem (v.reg vb) 32 i)) * wd : Int))
     let misplaced (a : Nat) : Prop := 8 ≤ wd ∧ a % (wd / 8) ≠ 0
     let runByte (j : Nat) : Nat := trunc 52 ((base : Int) + off.toInt + j)
     let bytes := (List.range (v.count * wd / 8)).filter fun j => act.any fun i => wd * i < 8 * j + 8 && 8 * j < wd * i + wd
     let runs := act.map fun i => (runByte (wd * i / 8), (wd * i + wd + 7) / 8 - wd * i / 8)
     (∀ al, (misplaced base → al = some base) → (¬ misplaced base → al = none) →
       loads (.vld ⟨c, m, vd, hs, cls, off⟩)
         (vecAccess s p cap h (Counted h wd [off.toInt, rs, v.cols]) al (touched tile)) wd tile (touched tile)
         fun i => chipElem s who (8 * base + (off.toInt + (i % v.cols : Nat) + (i / v.cols : Nat) * rs) * wd) wd) ∧
     (∀ al, ((∀ e ∈ gathered, ¬ misplaced (bitByte e.2)) → al = none) →
       (∀ l1 e l2, gathered = l1 ++ e :: l2 → (∀ x ∈ l1, ¬ misplaced (bitByte x.2)) → misplaced (bitByte e.2) → al = some (bitByte e.2)) →
       loads (.vgth ⟨c, m, vd, hs, cls, off, vb⟩) (vecAccess s p cap h (v.count ≤ 128 ∧ Counted h wd [off.toInt]) al (touched gathered)) wd gathered
         (touched gathered)
         fun i => chipElem s who (8 * base + (off.toInt + signExt 32 (elem (v.reg vb) 32 i)) * wd) wd) ∧
     loads (.vldu ⟨c, m, vd, hs, cls, off⟩)
       (vecAccess s p cap h (v.count * wd % 8 = 0 ∧ Counted h wd []) none runs) 8 (bytes.map fun j => (j, (8 * runByte j : Int))) runs
       (fun i => ((List.range (v.count * wd / 8)).map fun j => s.mem.read (chipKey s who (runByte j) 1) 1 * 256 ^ j).sum
         / 2 ^ (wd * i) % 2 ^ wd)) ∧
  (∀ (s : State) (p : Nat) (cap : Capture) (d : BitVec 16) (c : VCom) (m : Bool) (vd vb : BitVec 5) (hs : BitVec 2) (cls : BitVec 4)
     (off : BitVec 11), Ready s p false c cap d →
     let v := s.ve p
     let wd := vBits v.ty
     let h := v.slot false hs.toNat
     let base : Nat := (H.base h).toNat
     let rs : Int := if H.rank h ≥ 2 then H.stride h 1 else v.cols
     let who := (veItem s p cap).who
     let attr : Attr := ⟨if cls = 0 then H.cls h else cls, 0, 0, none⟩
     let x (i : Nat) : Nat := elem (v.reg vd) wd i
     let touched (es : List (Nat × Int)) := es.map fun e => elemBytes e.2 wd
     let act := v.active m
     let ends (i : Instr) (r : EStateM.Result Stop State Unit) : Prop := match r with
       | .ok _ t => StreamDone (exec i s) p false 3 d t
       | .error (.fault f a _ dt) t => exec i s = .next (streamFault t p false cap f a (ringKey s p false (seqr s p false).here) dt)
       | .error (.wait _) t => Leaves (exec i s) t
     let tile := act.map fun i => (i, (8 * base + (off.toInt + (i % v.cols : Nat) + (i / v.cols : Nat) * rs) * wd : Int))
     let indexed := act.map fun i => (i, (8 * base + (off.toInt + signExt 32 (elem (v.reg vb) 32 i)) * wd : Int))
     let misplaced (a : Nat) : Prop := 8 ≤ wd ∧ a % (wd / 8) ≠ 0
     let runByte (j : Nat) : Nat := trunc 52 ((base : Int) + off.toInt + j)
     let bytes := (List.range (v.count * wd / 8)).filter fun j => (v.reg vb).getLsbD j
     let runs := (writtenRuns v bytes).map fun r => (runByte r.1, r.2)
     let vst : Instr := .vst ⟨c, m, vd, hs, cls, off⟩
     let vstb : Instr := .vstb ⟨c, false, vd, hs, cls, off, vb⟩
     let vsct : Instr := .vsct ⟨c, m, vd, hs, cls, off, vb⟩
     let vsca : Instr := .vsca ⟨c, m, vd, hs, cls, off, vb⟩
     let stored (es : List (Nat × Int)) : State := { s with mem := (es.map fun e => (e.2, x e.1)).foldl (chipPut s who wd) s.mem }
     (∀ al, (misplaced base → al = some base) → (¬ misplaced base → al = none) →
       let k := vecAccess s p cap h (Counted h wd [off.toInt, rs, v.cols]) al (touched tile)
       k.faults (exec vst s) s p cap ∧
       (k.pass → (OnChip s who (touched tile) → Unbarred s who attr.cls (touched tile) → s.mem.poison = [] → StreamDone (exec vst s) p false 3 d (stored tile)) ∧
         ends vst (storePieces who attr (allPieces wd (tile.map fun e => (e.1, e.2, x e.1))) s))) ∧
     (let k := vecAccess s p cap h (v.count * wd % 8 = 0 ∧ Counted h wd []) none runs;
       k.faults (exec vstb s) s p cap ∧
       (k.pass →
         (OnChip s who runs → Unbarred s who attr.cls runs → s.mem.poison = [] → StreamDone (exec vstb s) p false 3 d
           { s with mem := bytes.foldl (fun m j => m.write (chipKey s who (runByte j) 1) 1 (elem (v.reg vd) 8 j)) s.mem }) ∧
         ends vstb (storePieces who attr (bytes.map fun j => ⟨j, runByte j, 1, 255, elem (v.reg vd) 8 j⟩) s))) ∧
     (∀ al, ((∀ e ∈ indexed, ¬ misplaced (bitByte e.2)) → al = none) →
       (∀ l1 e l2, indexed = l1 ++ e :: l2 → (∀ x ∈ l1, ¬ misplaced (bitByte x.2)) → misplaced (bitByte e.2) → al = some (bitByte e.2)) →
       let k := vecAccess s p cap h (v.count ≤ 128 ∧ 8 ≤ wd) al (touched indexed)
       let ka := vecAccess s p cap h (v.count ≤ 128 ∧ v.ty.toNat ≤ 8) al (touched indexed)
       k.faults (exec vsct s) s p cap ∧ ka.faults (exec vsca s) s p cap ∧
       (k.pass → (OnChip s who (touched indexed) → Unbarred s who attr.cls (touched indexed) → s.mem.poison = [] →
           StreamDone (exec vsct s) p false 3 d (stored indexed)) ∧
         ends vsct (storePieces who attr (allPieces wd (indexed.map fun e => (e.1, e.2, x e.1))) s)) ∧
       (ka.pass →
         (OnChip s who (touched indexed) → Unbarred s who attr.cls (touched indexed) →
           StreamDone (exec vsca s) p false 3 d (indexed.foldl (fun u e =>
           let va := bitByte e.2
           let n := wd / 8
           let old := u.mem.read (chipKey s who va n) n
           let sum := if v.ty.toNat ≤ 5 then (old + x e.1) % 2 ^ wd else onValues (XVal.add false) (vFmt v.ty) old (x e.1)
           { l1Alias (l1Drop u p (who.asid s) va) p (who.asid s) ⟨.window, 0, chipKey s who va n, false, va⟩ with
             mem := u.mem.write (chipKey s who va n) n sum }) s)) ∧
         (∀ f a st dt t, resolveAtomics who (wd / 8) indexed s = .error (.fault f a st dt) t →
           exec vsca s = .next (streamFault t p false cap f a (ringKey s p false (seqr s p false).here) dt)))))

/-- R181, R215, R238: VLDL and VSTL move a word between each active lane and its own slice, whatever the shape; VLDA reads elements of
the core's own slot as values of VSH.TYPE, and faults on a slot that is poisoned or an element whose residue does not match. -/
def Obligations.LanesAndAccumulators : Prop :=
  ∀ (s : State) (p : Nat) (cap : Capture) (d : BitVec 16) (c : VCom) (m : Bool) (vd vb : BitVec 5), Ready s p false c cap d →
    let v := s.ve p
    (∀ (hs : BitVec 2) (cls : BitVec 4) (off : BitVec 11),
      let h := v.slot false hs.toNat
      let base : Nat := (H.base h).toNat
      let vldl : Instr := .vldl ⟨c, m, vd, hs, cls, off, vb⟩
      let vstl : Instr := .vstl ⟨c, m, vd, hs, cls, off, vb⟩
      let lanes := (List.range 128).filter fun l => !m || v.top.getLsbD l
      let o (l : Nat) : Int := (base % 1024 : Nat) + 4 * (off.toInt + (elem (v.reg vb) 32 l % 256 : Nat))
      let bad (l : Nat) : Prop := o l < 0 ∨ 1020 < o l
      let at_ (l : Nat) : Nat := 2 ^ 52 + p * 2 ^ 17 + l * 2 ^ 10 + (o l).toNat
      let both (f : Cause) (a : Nat) : Prop :=
        StreamFaults (exec vldl s) s p false cap f a 0 ∧ StreamFaults (exec vstl s) s p false cap f a 0
      let inside := 0xFFF0000000000 ≤ base ∧ base < 0xFFF0000000000 + 1024
      (H.rankOk h = false → both .shape 0) ∧
      (H.rankOk h = true → base % 4 ≠ 0 → both .align base) ∧
      (H.rankOk h = true → base % 4 = 0 → ¬ inside → both .window base) ∧
      (H.rankOk h = true → base % 4 = 0 → inside → ∀ l1 l l2, lanes = l1 ++ l :: l2 → (∀ x ∈ l1, ¬ bad x) → bad l →
        both .window (trunc 52 (0xFFF0000000000 + o l))) ∧
      (H.rankOk h = true → base % 4 = 0 → inside → (∀ l ∈ lanes, ¬ bad l) →
        StreamDone (exec vstl s) p false 3 d { s with mem := lanes.foldl (fun m l => m.write (at_ l) 4 (elem (v.reg vd) 32 l)) s.mem } ∧
        ((∀ l ∈ lanes, s.mem.poisoned (at_ l) 4 = false) → ∃ v' : VERegs,
          StreamDone (exec vldl s) p false 3 d (s.modVE p fun _ => v') ∧
          (∀ l ∈ lanes, elem (v'.reg vd) 32 l = s.mem.read (at_ l) 4) ∧
          (∀ l, l < 128 → l ∉ lanes → elem (v'.reg vd) 32 l = elem (v.reg vd) 32 l) ∧
          (∀ k, k ≠ v.phys vd → SMap.get 0 v'.v k = SMap.get 0 v.v k) ∧ { v' with v := [] } = { v with v := [] }))) ∧
    (∀ (slot : BitVec 4) (row0 : BitVec 7) (col : BitVec 2),
      let i : Instr := .vlda c m vd slot row0 col
      let sl := slotOf s p cap.ctx slot.toNat
      let fits := row0.toNat + v.rows ≤ 128 ∧ col.toNat * 32 + v.cols ≤ 128
      let at_ (k : Nat) : Nat := (row0.toNat + k / v.cols) * 128 + (col.toNat * 32 + k % v.cols)
      let el (k : Nat) : Acc := elemAt sl (at_ k)
      let poisoned := v.active m ≠ [] ∧ ∃ x, sl = some x ∧ x.pz = true
      (¬ fits → StreamFaults (exec i s) s p false cap .shape 0 0) ∧
      (fits → poisoned → StreamFaults (exec i s) s p false cap .eccu 0 0) ∧
      (fits → ¬ poisoned → ∀ l1 k l2, v.active m = l1 ++ k :: l2 → (∀ j ∈ l1, (el j).resOk = true) → (el k).resOk = false →
        StreamFaults (exec i s) s p false cap .accerr 0 (BitVec.ofNat 24 (slot.toNat * 2 ^ 18 + at_ k))) ∧
      (fits → ¬ poisoned → (∀ k ∈ v.active m, (el k).resOk = true) → VecWrites (exec i s) s p 3 d m vd v.ty fun k =>
        encodeElem (vCode v.ty) .rne false 0 ((el k).value ((sl.map (·.e)).getD 0))))

/-! ## Press (03, 10, 12) -/

/-- R63-R67, R218, R220-R222, R226, R227, R229, R230, R241, R243: PMM. Its checks in their order, each failing with the slot
unchanged; a slot that may not be written is ENGILL, a poisoned one ECCU, a full count ACCLIM; else the slot is bound on its
first write and every element takes the exact contributions of its row and column; a poisoned operand poisons the slot instead. -/
def Obligations.MatrixProducts : Prop :=
  ∀ (s : State) (p : Nat) (c : VCom) (cap : Capture) (d : BitVec 16) (slot : BitVec 4) (ha hb : BitVec 2) (carry : Bool)
    (e : BitVec 10), Ready s p true c cap d → cap.core = p →
    let i : Instr := .pmm c slot ha hb carry e
    let t := pressJob s p cap
    let hA := (s.ve p).slot true ha.toNat
    let hB := (s.ve p).slot true hb.toNat
    let q := operands s t hA hB
    let ls := slot.toNat
    let sl := slotOf s p cap.ctx ls
    let rst := ((s.brick p cap.tag).map (·.b.rst)).getD false
    let writable : Prop := match sl with
      | some b => if b.carried then rst = false else b.btag = cap.tag
      | none => ¬ (carry = true ∧ rst = true) ∧ 0 < ((s.brick p cap.tag).map (·.resv)).getD 0
    let nb := (q.a.cols + 31) / 32
    let count := (sl.map (·.cnt)).getD 0
    let rows := (List.range q.a.rows).map fun r => (r, r)
    (∀ f a, operandFault s t hA hB = some (f, a) → PressFaults (exec i s) s p cap f a none) ∧
    (operandFault s t hA hB = none →
      (¬ writable → PressFaults (exec i s) s p cap .engill 0 none) ∧
      (writable → (∃ b, sl = some b ∧ b.pz = true) → PressFaults (exec i s) s p cap .eccu 0 (some ls)) ∧
      (writable → (∀ b, sl = some b → b.pz = false) → 65536 < count + nb → PressFaults (exec i s) s p cap .acclim 0 (some ls)) ∧
      (writable → (∀ b, sl = some b → b.pz = false) → count + nb ≤ 65536 →
        TileOpen s p cap.ctx hA → TileOpen s p cap.ctx hB → Unbarred s t.who (H.cls hA) (q.runsA rows) →
        Unbarred s t.who (H.cls hB) (q.runsB rows) →
        ∀ va, (q.runsA rows ++ q.runsB rows).findSome? (poisonedRun s t.who) = some va →
          PressFaults (exec i s) (modSlot (bound s p cap ls carry e) p cap.ctx ls fun v => { v with pz := true }) p cap .eccu va (some ls)) ∧
      (writable → (∀ b, sl = some b → b.pz = false) → count + nb ≤ 65536 → OperandsReady s t q rows → ∃ u : State,
        ProductDone s p cap q ls carry e rows nb u ∧ StreamDone (exec i s) p true 3 d u))

/-- R231, R241, R266, R278, R280: what PMMG turns away. The list is read first: its shape, its format, its window; then an
index outside A or a row above 127 is SHAPE; then the checks of PMM in their order; with all of them passed it waits for
room in the reply queue and for the core's stores. The Press takes no gathered command within an instruction or when the
lease holder has none. R230, R231, R259, R278, R280: PMMG in a stream, and a gathered command of the lease holder between
two instructions, run to their end: every pair (g, r) of the list adds row g of A with B into row r of the slot, the count
grows by the blocks times the most pairs that share a row, and the reply gives the pairs added. -/
def Obligations.GatheredProducts : Prop :=
  ((∀ (s : State) (p : Nat) (c : VCom) (cap : Capture) (d : BitVec 16) (slot : BitVec 4) (ha hb hc : BitVec 2) (carry : Bool)
     (e : BitVec 10), Ready s p true c cap d →
     let i : Instr := .pmmg c slot ha hb hc carry e
     let t := pressJob s p cap
     let h (k : BitVec 2) := (s.ve p).slot true k.toNat
     let q := operands s t (h ha) (h hb)
     let l := gatheredPairs s t.who (h hc)
     let sl := slotOf s p cap.ctx slot.toNat
     let nb := (q.a.cols + 31) / 32 * mostShared l
     let rowsA := if H.rank (h ha) = 2 then H.size (h ha) 1 else 1
     let inside := ∀ g ∈ l, g.1 < rowsA ∧ g.2 ≤ 127
     -- the slot is noted for the DETAIL of a record
     let s1 : State := modSeqr s p true fun x => { x with note := BitVec.ofNat 24 (slot.toNat * 2 ^ 18) }
     let faults (f : Cause) (a : Nat) (ls : Option Nat) : Prop := PressFaults (exec i s) s1 p cap f a ls
     let typed := formatOver t.fmts s t.who (H.fmt (h hc)) [rowRun (h hc) 16 (H.size (h hc) 0) 0, rowRun (h hc) 16 (H.size (h hc) 0) 1]
     (¬ ListShape (h hc) → faults .shape 0 none) ∧
     (ListShape (h hc) → typed ≠ some 4 → faults .fmtmismatch 0 none) ∧
     (ListShape (h hc) → typed = some 4 →
       ∀ a, windowFails s t.who (View.checked ⟨h hc, 16, 2, H.size (h hc) 0⟩ s t.who) = some a → faults .window a none) ∧
     (ListReady s t (h hc) →
       (¬ inside → faults .shape 0 none) ∧
       (inside → (∀ f a, operandFault s t (h ha) (h hb) = some (f, a) → faults f a none) ∧
         (operandFault s t (h ha) (h hb) = none →
           (writeAllowed s cap sl carry = false → faults .engill 0 none) ∧
           (writeAllowed s cap sl carry = true → (∃ b, sl = some b ∧ b.pz = true) → faults .eccu 0 (some slot.toNat)) ∧
           (writeAllowed s cap sl carry = true → (∀ b, sl = some b → b.pz = false) → 65536 < (sl.map (·.cnt)).getD 0 + nb →
             faults .acclim 0 (some slot.toNat)) ∧
           (SlotReady s p cap slot.toNat nb carry → OperandsReady s t q l →
             (64 ≤ (s.proc p).q.reply.length →
               Leaves (exec i s) (modSeqr s1 p true fun x => { x with writing := some slot.toNat })) ∧
             ((s.proc p).q.reply.length < 64 → (s.proc p).coh.acks ≠ [] → Leaves (exec i s) s1)))))) ∧
   (∀ (s : State) (cl k : Nat), cl < 64 → (s.cluster cl).press.holder = some k →
     let p := cl * 4 + k
     let q0 := seqr s p true
     let ev := exec (.gatheredCommand cl) s
     ((q0.stop.isSome = true ∨ (q0.serving = none ∧ (q0.phase ≠ .fresh ∨ q0.push.isSome = true))) → ev = .next s) ∧
     (q0.stop = none → q0.serving = none → q0.phase = .fresh → q0.push = none →
       (∀ g ∈ (s.cluster cl).press.gathered, g.cap.core ≠ p) → ev = .next s))) ∧
  ((∀ (s : State) (p : Nat) (c : VCom) (cap : Capture) (d : BitVec 16) (slot : BitVec 4) (ha hb hc : BitVec 2) (carry : Bool)
     (e : BitVec 10), Ready s p true c cap d →
     let t := pressJob s p cap
     let h (k : BitVec 2) := (s.ve p).slot true k.toNat
     let q := operands s t (h ha) (h hb)
     let l := gatheredPairs s t.who (h hc)
     let nb := (q.a.cols + 31) / 32 * mostShared l
     ListReady s t (h hc) → (∀ g ∈ l, g.1 < (if H.rank (h ha) = 2 then H.size (h ha) 1 else 1) ∧ g.2 ≤ 127) →
     operandFault s t (h ha) (h hb) = none → SlotReady s p cap slot.toNat nb carry → OperandsReady s t q l →
     (s.proc p).q.reply.length < 64 → (s.proc p).coh.acks = [] →
     ∃ u : State, ProductDone s p cap q slot.toNat carry e l nb u ∧
       StreamDone (exec (.pmmg c slot ha hb hc carry e) s) p true 3 d (productReplied u p 1 cap.tag slot.toNat l.length)) ∧
   (∀ (s : State) (cl k : Nat) (g : Gathered), cl < 64 → (s.cluster cl).press.holder = some k →
     let p := cl * 4 + k
     let q0 := seqr s p true
     q0.stop = none → q0.serving = some g → q0.phase = .paid → g.slot < 16 → g.cap.core = p → pushReleased s g.cap = true →
     let t : PressJob := ⟨p, g.cap, g.fmts.getD (snapFormats s g.cap.ctx), p, g.cap.fmt⟩
     let q := operands s t g.a g.b
     let l := gatheredPairs s t.who g.list
     let nb := (q.a.cols + 31) / 32 * mostShared l
     ListReady s t g.list → (∀ x ∈ l, x.1 < (if H.rank g.a = 2 then H.size g.a 1 else 1) ∧ x.2 ≤ 127) →
     operandFault s t g.a g.b = none → SlotReady s p g.cap g.slot nb g.carry → OperandsReady s t q l →
     (s.proc p).q.reply.length < 64 → (s.proc p).coh.acks = [] →
     ∃ u : State, ProductDone s p g.cap q g.slot g.carry g.e l nb u ∧
       Leaves (exec (.gatheredCommand cl) s)
         (modSeqr (productReplied u p 2 g.cap.tag g.slot l.length) p true fun x => x.endServing)))

/-- R218, R220, R221, R235-R237, R241-R243: PREL frees a binding; PSCL moves a slot to a new exponent, each sum divided with
ties to even; PADD adds a slot into another at the finer exponent, its tags and overflow marks too; every fault leaves
both slots as they were, but that a poisoned source poisons PADD's destination. R56, R57, R67, R218, R223, R232-R234,
R241, R245: PRES resolves a slot into a tensor, PSTR stores its raw image, PLDR loads one back; each clears px.rowprog.V
when it completes after a resume; a residue that does not match is ACCERR; a refused page stops at its row group. -/
def Obligations.AccumulatorSlots : Prop :=
  (∀ (s : State) (p : Nat) (c : VCom) (cap : Capture) (d : BitVec 16), Ready s p true c cap d → cap.core = p →
     let slot (k : BitVec 4) := slotOf s p cap.ctx k.toNat
     let writable (sl : Option Slot) (carry : Bool) : Prop := writeAllowed s cap sl carry = true
     let bad (sl : Option Slot) (k : Nat) : Prop := ∃ b l1 l2 a, sl = some b ∧ b.el = l1 ++ (k, a) :: l2 ∧ a.resOk = false ∧
       ∀ x ∈ l1, x.2.resOk = true
     let sound (sl : Option Slot) : Prop := ∀ b, sl = some b → b.pz = false ∧ ∀ x ∈ b.el, x.2.resOk = true
     (∀ k : BitVec 4,
       (slot k = none → StreamDone (exec (.prel c k) s) p true 3 d s) ∧
       (∀ b, slot k = some b →
         let rst := ((s.brick p cap.tag).map (·.b.rst)).getD false
         (b.carried = true → rst = true → PressFaults (exec (.prel c k) s) s p cap .engill 0 none) ∧
         ((b.carried = false ∨ rst = false) → StreamDone (exec (.prel c k) s) p true 3 d
           (freeSlots s (p / 4) fun v => v.core == b.core && v.ctx == b.ctx && v.lslot == b.lslot)))) ∧
     (∀ (k : BitVec 4) (dd : BitVec 10),
       let i : Instr := .pscl c k dd
       let n := dd.toInt
       (slot k = none → StreamDone (exec i s) p true 3 d s) ∧
       (∀ b, slot k = some b →
         let e := b.e.toInt + n
         let cnt : Nat := if 0 ≤ n then (b.cnt + 2 ^ n.toNat - 1) / 2 ^ n.toNat else b.cnt * 2 ^ (-n).toNat
         let range := -512 ≤ e ∧ e ≤ 511
         (¬ writable (some b) false → PressFaults (exec i s) s p cap .engill 0 none) ∧
         (writable (some b) false → b.pz = true → PressFaults (exec i s) s p cap .eccu 0 (some k.toNat)) ∧
         (writable (some b) false → b.pz = false → ¬ range → PressFaults (exec i s) s p cap .shape 0 none) ∧
         (writable (some b) false → b.pz = false → range → n < 0 → 65536 < cnt → PressFaults (exec i s) s p cap .acclim 0 (some k.toNat)) ∧
         (∀ x, writable (some b) false → b.pz = false → range → (0 ≤ n ∨ cnt ≤ 65536) → bad (some b) x →
           PressFaults (exec i s) s p cap .accerr 0 (some k.toNat) x) ∧
         (writable (some b) false → range → (0 ≤ n ∨ cnt ≤ 65536) → sound (some b) → ∃ f : Slot → SMap Acc,
           StreamDone (exec i s) p true 3 d (modSlot s p cap.ctx k.toNat fun v =>
             let cnt' : Nat := if 0 ≤ n then (v.cnt + 2 ^ n.toNat - 1) / 2 ^ n.toNat else v.cnt * 2 ^ (-n).toNat
             { v with el := f v, e := BitVec.ofInt 10 e, cnt := cnt' }) ∧
           ∀ x, SMap.wf Acc.zero b.el = true →
             let a := b.at_ x
             let a' := SMap.get Acc.zero (f b) x
             let z : Int := 2 ^ n.toNat
             let near : Int := a.sum.toInt / z
             let r : Int := a.sum.toInt % z
             let v : Int := if n ≤ 0 then a.sum.toInt * 2 ^ (-n).toNat
               else if 2 * r < z ∨ (2 * r = z ∧ near % 2 = 0) then near else near + 1
             a'.sum = BitVec.ofInt 64 v ∧ a'.carry = .fixed 0 ∧ a'.resOk = true ∧ a'.tag = a.tag ∧ a'.ovf = a.ovf))) ∧
     (∀ (k src : BitVec 4) (carry : Bool) (e : BitVec 10),
       let i : Instr := .padd c k src carry e
       let ed : Int := ((slot k).map (·.e.toInt)).getD e.toInt
       let es : Int := ((slot src).map (·.e.toInt)).getD ed
       let n := (es - ed).toNat
       let add := ((slot src).map (·.cnt)).getD 0 * 2 ^ n
       let total := ((slot k).map (·.cnt)).getD 0 + add
       let pz (sl : Option Slot) : Prop := ∃ b, sl = some b ∧ b.pz = true
       (pz (slot src) → PressFaults (exec i s) (modSlot s p cap.ctx k.toNat fun v => { v with pz := true }) p cap .eccu 0 (some src.toNat)) ∧
       (∀ x, ¬ pz (slot src) → bad (slot src) x → PressFaults (exec i s) s p cap .accerr 0 (some src.toNat) x) ∧
       (sound (slot src) → pz (slot k) → PressFaults (exec i s) s p cap .eccu 0 (some k.toNat)) ∧
       (sound (slot src) → ¬ pz (slot k) → es < ed → PressFaults (exec i s) s p cap .shape 0 none) ∧
       (sound (slot src) → ¬ pz (slot k) → ed ≤ es → 65536 < total → PressFaults (exec i s) s p cap .acclim 0 (some k.toNat)) ∧
       (sound (slot src) → ¬ pz (slot k) → ed ≤ es → total ≤ 65536 → ¬ writable (slot k) carry →
         PressFaults (exec i s) s p cap .engill 0 none) ∧
       (sound (slot src) → ¬ pz (slot k) → ed ≤ es → total ≤ 65536 → writable (slot k) carry → ∃ f : Slot → SMap Acc,
         StreamDone (exec i s) p true 3 d (modSlot (bound s p cap k.toNat carry e) p cap.ctx k.toNat fun v =>
           { v with cnt := v.cnt + add, el := f v }).bump ∧
         ∀ v x,
           let a := v.at_ x
           let b := elemAt (slot src) x
           let a' := SMap.get Acc.zero (f v) x
           a'.sum = a.sum + b.sum <<< n ∧ a'.ovf = (a.ovf || b.ovf) ∧
           a'.tag = (if b.tag = 0 then a.tag else tagAdd a.tag (match b.tag.toNat with
             | 1 => .inf false | 2 => .inf true | _ => .nan)) ∧
           (a.resOk = true → b.resOk = true → -2 ^ 63 ≤ a.sum.toInt + b.sum.toInt * 2 ^ n → a.sum.toInt + b.sum.toInt * 2 ^ n < 2 ^ 63 →
             a'.resOk = true)))) ∧
  (∀ (s : State) (p : Nat) (c : VCom) (cap : Capture) (d : BitVec 16) (slot : BitVec 4) (hc : BitVec 2), Ready s p true c cap d →
     cap.core = p → (seqr s p true).rows = 0 → (seqr s p true).writing = none →
     let t := pressJob s p cap
     let w := t.who
     let h := (s.ve p).slot true hc.toNat
     let ls := slot.toNat
     let sl := slotOf s p cap.ctx ls
     let base : Nat := (H.base h).toNat
     let done (o : Out) (u : State) : Prop :=
       StreamDone o p true 3 d (if (seqr s p true).resumed = true
         then u.modCC p fun r => { r with rowprog := r.rowprog &&& BitVec.ofNat 64 (2 ^ 63 - 1) } else u)
     let pz := ∃ b, sl = some b ∧ b.pz = true
     (∀ (rm : BitVec 3) (noo ovn : Bool) (pp : BitVec 10),
       let i : Instr := .pres c slot hc rm noo ovn pp
       let v := viewOf t.fmts s w h
       let fmt := formatOver t.fmts s w (H.fmt h) v.runs
       let shape := (H.rank h = 1 ∨ H.rank h = 2) ∧ v.cols ≤ 128 ∧ v.rows ≤ 128 ∧ packed h v.cols v.bits = true
       let cells := (List.range v.rows).flatMap fun r => (List.range v.cols).map fun j => (r, j)
       let el (k : Nat × Nat) : Acc := elemAt sl (k.1 * 128 + k.2)
       let value (k : Nat × Nat) : XVal :=
         if ovn = true ∧ (el k).ovf = true then .nan else ((el k).value ((sl.map (·.e)).getD 0)).scale pp.toInt
       let u (k : Nat × Nat) : Nat := srBits (srSeed s cap) (H.tile h) (srBrick s cap * 2 ^ 40 + k.1 * 128 + k.2) (srStep s cap)
       let spot (k : Nat × Nat) : Int := 8 * base + (H.stride h 1 * k.1 + k.2) * v.bits
       (¬ shape → PressFaults (exec i s) s p cap .shape 0 none) ∧
       (shape → (fmt = none ∨ fmt = some 0) → PressFaults (exec i s) s p cap .fmtmismatch 0 none) ∧
       (shape → (fmt = some 19 ∨ fmt = some 20) → PressFaults (exec i s) s p cap .shape 0 none) ∧
       (∀ f, shape → fmt = some f → f ≠ 0 → f ≠ 19 → f ≠ 20 →
         (∀ a, windowFails s w (v.checked s w) = some a → PressFaults (exec i s) s p cap .window a none) ∧
         (windowFails s w (v.checked s w) = none → pz → PressFaults (exec i s) s p cap .eccu 0 (some ls)) ∧
         (windowFails s w (v.checked s w) = none → ¬ pz → Clean s → (∀ k ∈ cells, (el k).resOk = true) →
           OnChip s w (cells.map fun k => elemBytes (spot k) v.bits) →
           Unbarred s w (H.cls h) (cells.map fun k => elemBytes (spot k) v.bits) →
           done (exec i s) { s with mem := (cells.map fun k =>
             (spot k, encodeElem f (RMode.of rm.toNat cap.rm.toNat) noo (u k) (value k))).foldl (chipPut s w v.bits) s.mem }))) ∧
     (let image := H.rankOk h = true ∧ formatOver t.fmts s w (H.fmt h) [(base, 278528)] = some 20 ∧ base % 128 = 0
     let key := chipKey s w base 1
     -- the image in runs of at most 32 KiB, each in one memory
     let runs := bankRuns 16 base 278528
     let both (f : Cause) (a : Nat) : Prop := PressFaults (exec (.pstr c slot hc) s) s p cap f a none ∧
       ∀ carry e, PressFaults (exec (.pldr c slot hc carry e) s) s p cap f a none
     (H.rankOk h = false → both .shape 0) ∧
     (H.rankOk h = true → formatOver t.fmts s w (H.fmt h) [(base, 278528)] ≠ some 20 → both .fmtmismatch 0) ∧
     (H.rankOk h = true → formatOver t.fmts s w (H.fmt h) [(base, 278528)] = some 20 → base % 128 ≠ 0 → both .align base) ∧
     (image → ∀ a, windowFails s w runs = some a → both .window a) ∧
     (image → OnChip s w runs → Unbarred s w (H.cls h) runs → Clean s → base + 278528 ≤ 2 ^ 52 →
       (pz → PressFaults (exec (.pstr c slot hc) s) s p cap .eccu 0 (some ls)) ∧
       (¬ pz → ∃ m : Memory, done (exec (.pstr c slot hc) s) { s with mem := m } ∧
         { m with bytes := [] } = { s.mem with bytes := [] } ∧
         (∀ a, a < key ∨ key + 278528 ≤ a → m.read a 1 = s.mem.read a 1) ∧
         ∀ k, k < 16384 →
           let a := elemAt sl k
           BitVec.ofNat 64 (m.read (key + 16 * k) 8) + BitVec.ofNat 64 (m.read (key + 16 * k + 8) 8) = a.sum ∧
           m.read (key + 262144 + k) 1 = (if a.ovf then 16 else 0) + a.res.toNat * 4 + a.tag.toNat) ∧
       (∀ carry e,
         let i : Instr := .pldr c slot hc carry e
         let raw (k : Nat) : BitVec 64 := BitVec.ofNat 64 (s.mem.read (key + 16 * k) 8) + BitVec.ofNat 64 (s.mem.read (key + 16 * k + 8) 8)
         let side (k : Nat) : Nat := s.mem.read (key + 262144 + k) 1
         let fits (k : Nat) : Prop := side k < 32 ∧ (side k / 4 % 4 : Nat) = ((raw k).toInt % 3).toNat ∧ (raw k).toInt.natAbs < 2 ^ 62
         (writeAllowed s cap sl carry = false → PressFaults (exec i s) s p cap .engill 0 none) ∧
         (writeAllowed s cap sl carry = true → (∀ k, k < 16384 → fits k) → ∃ f : Slot → SMap Acc,
           done (exec i s) (modSlot (bound s p cap ls carry e) p cap.ctx ls fun v => { v with cnt := max v.cnt 32768, el := f v }) ∧
           ∀ v k, k < 16384 →
             let a := SMap.get Acc.zero (f v) k
             a.sum = raw k ∧ a.tag.toNat = side k % 4 ∧ a.res.toNat = side k / 4 % 4 ∧ a.ovf = decide (side k / 16 % 2 = 1))))))

/-! ## Hods and tiles (13, 17) -/

/-- R270, R291, R292, R295, R378: how a chain starts and how an entry comes to its body. An idle hod takes the oldest chain start of its queue
and pops its token with an acquire; a Wait blocks until its counter allows, takes its credit once and acquires; then the source
tile is waited for. -/
def Obligations.ChainStartsAndWaits : Prop :=
  (∀ (s : State) (core : Nat) (hs : Bool), core < 256 →
    let e := hodEng hs
    let ev := exec (.hodChainStart core hs) s
    let popped (s : State) (pop : Option Nat) (u : State) : Prop := match pop with
      | none => Same u (modHod s core hs fun h => { h with hphase := .entry })
      | some n => match tokens (s.proc core).q n with
        | [] => Same u s
        | _ :: vs => Same u (modHod (acquireCo (s.modQ core fun k => setTokens k n vs) core) core hs fun h => { h with hphase := .entry })
    (∀ c addr pop push rest, (hodOf s core hs).cap = none → engineQueue (s.proc core).q e = .chain c addr pop push :: rest →
      (pushReleased s c = false → ev = .next s) ∧
      (pushReleased s c = true → ∃ u, ev = .next u ∧
        popped (modHod (s.modQ core fun k => setEngineQueue k e rest) core hs fun h => { Hod.reset with
          last := h.last, cap := some c, addr := addr, hphase := .token, qpop := pop, qpush := push }) pop u)) ∧
    ((hodOf s core hs).cap = none → engineQueue (s.proc core).q e = [] → ev = .next s) ∧
    (∀ c, (hodOf s core hs).cap = some c → (hodOf s core hs).hphase = .token → (hodOf s core hs).stop = none →
      ∃ u, ev = .next u ∧ popped s (hodOf s core hs).qpop u)) ∧
  (∀ (i : Instr) (h : HodHdr) (stile src : Nat) (s : State) (core : Nat) (hs : Bool) (cap : Capture),
    hodForm i = some (h, stile, src) → s.actor = .hod core hs → (hodOf s core hs).cap = some cap →
    -- the entry's bank formats are read as it starts (R378)
    ((hodOf s core hs).fmts = none →
      exec i s = exec i (modHod s core hs fun q => { q with fmts := some (snapFormats s cap.ctx) })) ∧
    (HodEntry s core hs cap → (hodOf s core hs).hphase = .entry →
    let q := hodOf s core hs
    let c := cap.core
    let me := some (core, hodEng hs)
    let y := s.sync c
    let waited (u : State) : State := modHod (acquireWait u c h.sc) core hs fun q => { q with waitdone := true }
    let ctr := (SMap.get 0 y.sc h.wctr.toNat).toNat
    let reached := (ctr + 2 ^ 16 - h.wval.toNat) % 2 ^ 16 < 2 ^ 15
    let word := (SMap.get 0 y.sem h.wctr.toNat).toNat
    let older := ∃ w ∈ (s.proc c).semq, w.sem = h.wctr.toNat ∧ w.granted = false
    let mine := (s.proc c).semq.find? fun w => w.who == me
    (h.we = true → q.waitdone = false → h.wk = true →
      (¬ reached → Leaves (exec i s) s) ∧ (reached → exec i s = exec i (waited s))) ∧
    (h.we = true → q.waitdone = false → h.wk = false → h.wval = 0 → exec i s = exec i (waited s)) ∧
    (h.we = true → q.waitdone = false → h.wk = false → h.wval ≠ 0 → h.wctr ≠ 0 →
      (mine = none → h.wval.toNat ≤ word % 65536 → ¬ older → exec i s = exec i (waited
        (s.modSync c fun y => { y with sem := SMap.set 0 y.sem h.wctr.toNat (BitVec.ofNat 17 (word - h.wval.toNat)) }))) ∧
      (mine = none → (word % 65536 < h.wval.toNat ∨ older) → Leaves (exec i s)
        (s.modProc c fun x => { x with semq := x.semq ++ [⟨h.wctr.toNat, me, h.wval.toNat, false⟩] })) ∧
      (∀ w, mine = some w → w.granted = false → Leaves (exec i s) s) ∧
      (∀ w, mine = some w → w.granted = true → exec i s = exec i (waited
        (s.modProc c fun x => { x with semq := x.semq.filter fun w => w.who != me })))) ∧
    ((h.we = false ∨ q.waitdone = true) →
      let cl := tileCluster c src
      let t := s.tile cl stile
      (stile = 0xFFF → exec i s = exec i (modHod s core hs fun q => { q with hphase := .body })) ∧
      (stile ≠ 0xFFF → copyPending s cap.ctx cl stile = none →
        (t.st ≠ 0 → t.ctx ≠ cap.ctx → exec i s = .next (hodFault s core hs cap .tilewait 0)) ∧
        ((t.st = 0 ∨ (t.ctx = cap.ctx ∧ t.st = 1)) → Leaves (exec i s) s) ∧
        (t.ctx = cap.ctx → (t.st = 2 ∨ t.st = 3) → exec i s = exec i (modHod s core hs fun q => { q with hphase := .body }))))))

/-- R293, R294, R296, R300: HWAIT, HPOST, HLINK, HEND and HTILE, and the end of every entry: once its writes have performed it
delivers its measurement, makes its tile READY, posts at its scope, and the chain goes on to the next entry or ends. R365,
R367: what each event makes of a tile entry. A foreign event is refused, a withdrawal of it has no effect; claims are
counted and orphans adopted; the tile is READY when the last claim is done. -/
def Obligations.ControlEntriesPostsAndTiles : Prop :=
  ((∀ (s : State) (core : Nat) (hs : Bool) (cap : Capture) (h : HodHdr), HodReady s core hs cap →
     let t := Chain.of s core hs cap
     let here := (hodOf s core hs).addr
     let own : Nat × Option Nat := (cap.core, none)
     HodDone (exec (.hwait h) s) core hs h (some (here + 64)) own s ∧
     HodDone (exec (.hpost h none) s) core hs h (some (here + 64)) own s ∧
     (∀ target : BitVec 52, 0xF000000000000 ≤ target.toNat →
       (h.pe = true → h.pk = true → windowKey s t.who target.toNat 1 = none →
         exec (.hpost h (some target)) s = .next (hodFault s core hs cap .window target.toNat)) ∧
       ((h.pe = false ∨ h.pk = false ∨ (windowKey s t.who target.toNat 1).isSome = true) →
         HodDone (exec (.hpost h (some target)) s) core hs h (some (here + 64)) (chipTarget s t h target.toNat) s)) ∧
     (∀ next : BitVec 52, HodDone (exec (.hlink h next) s) core hs h (some next.toNat) own s) ∧
     HodDone (exec (.hend h) s) core hs h none own s ∧
     (∀ (event : BitVec 52) (dtile : BitVec 12), event.toNat ≤ 3 →
       let cl := cap.core / 4
       let i : Instr := .htile h event dtile
       (∀ x ∈ (s.cluster cl).heldTiles, x.who ≠ .hod core hs) → copyPending s cap.ctx cl dtile.toNat = none →
       match tileStep (s.tile cl dtile.toNat) cap.ctx (TileEvent.ofCode event.toNat) with
       | .ok x => HodDone (exec i s) core hs h (some (here + 64)) own (tileChange s cl dtile.toNat x)
       | .refused => exec i s = .next (hodFault s core hs cap .tilewait 0)
       | .wait => Leaves (exec i s) (s.modCluster cl fun c => { c with
           heldTiles := c.heldTiles ++ [⟨dtile.toNat, event.toNat, cap.ctx, .hod core hs, none⟩] }))) ∧
   (∀ (s : State) (core : Nat) (hs : Bool) (cap : Capture), core < 256 → (hodOf s core hs).cap = some cap →
     let q := hodOf s core hs
     let ev := exec (.hodPost core hs) s
     let c := cap.core
     let goes (u : State) : State := modHod u core hs Hod.goOn
     let performed : Prop := (s.proc c).coh.acks = [] ∧ ∀ r ∈ s.fl.remotes, ¬ (r.q = core ∧ r.eng = some (hodEng hs) ∧ r.kind ≠ 4)
     let plain : Prop := q.delta = none ∧ q.tile = none ∧ s.fl.subs = []
     ((q.hphase ≠ .post ∨ q.stop.isSome = true) → ev = .next s) ∧
     (q.hphase = .post → q.stop = none → ¬ performed → Leaves ev s) ∧
     (q.hphase = .post → q.stop = none → performed → plain → q.post = none → Leaves ev (goes s)) ∧
     (∀ r d nw, q.hphase = .post → q.stop = none → performed → q.delta = some (r, d, nw) → q.tile = none → s.fl.subs = [] → q.post = none →
       Leaves ev (goes (modHod (s.modFl fun f => { f with deliveries := f.deliveries ++ [⟨c, cap.ctx, r, d, nw⟩] }) core hs
         fun q => { q with delta := none }))) ∧
     (∀ cl tid x, q.hphase = .post → q.stop = none → performed → q.delta = none → s.fl.subs = [] → q.tile = some (cl, tid) → q.post = none →
       (∀ y ∈ (s.cluster cl).heldTiles, y.who ≠ .hod core hs) → copyPending s cap.ctx cl tid = none →
       tileStep (s.tile cl tid) cap.ctx .ready = .ok x →
       Leaves ev (goes (modHod (tileChange s cl tid x) core hs fun q => { q with tile := none }))) ∧
     (∀ h core' node, q.hphase = .post → q.stop = none → performed → plain → q.post = some (h, core', node) →
       let sc : BitVec 3 := if node.isSome ∧ h.sc.toNat < 3 then 3 else h.sc
       let mine := s.fl.remotes.filter fun r => r.core == c && (sc == 4 || !r.host)
       let out := (sc = 3 ∨ sc = 4) ∧ mine ≠ []
       (out → Leaves ev s) ∧
       (¬ out → h.pk = false → Leaves ev (goes (mergePs (semRaise s c h.pctr.toNat h.pamt.toNat) c (wsOf s c)))) ∧
       (¬ out → h.pk = true → node = none → Leaves ev (goes (s.modFl fun f =>
         { f with posts := f.posts ++ [⟨.hod core hs, core', cap.ctx, h.pctr.toNat, h.pamt.setWidth 32, wsOf s c⟩] }))) ∧
       (∀ m, ¬ out → h.pk = true → node = some m → Leaves ev (goes
         (postRemote ⟨c, some (hodEng hs), cap.ctx, core⟩ m core' h.pctr.toNat (h.pamt.setWidth 32) (wsOf s c) s)))))) ∧
  (∀ (t : Tile) (x : Nat),
     let e (ev : TileEvent) : TileRes := tileStep t x ev
     (t.st ≠ 0 → t.ctx ≠ x → e .withdraw = .ok t ∧ ∀ ev, ev ≠ .withdraw → e ev = .refused) ∧
     (t.st = 0 → e .filling = .ok ⟨1, x, 1, 0⟩ ∧ e .ready = .refused ∧ e .draining = .wait ∧ e .empty = .ok t ∧ e .withdraw = .ok t) ∧
     (t.st = 1 → t.ctx = x →
       (0 < t.ocnt → e .filling = .ok { t with ocnt := t.ocnt - 1 }) ∧
       (t.ocnt = 0 → t.fcnt = 255 → e .filling = .refused) ∧
       (t.ocnt = 0 → t.fcnt ≠ 255 → e .filling = .ok { t with fcnt := t.fcnt + 1 }) ∧
       (t.fcnt = t.ocnt → e .ready = .refused) ∧
       (t.fcnt ≠ t.ocnt → t.fcnt = 1 → e .ready = .ok { t with st := 2, fcnt := 0 }) ∧
       (t.fcnt ≠ t.ocnt → t.fcnt ≠ 1 → e .ready = .ok { t with fcnt := t.fcnt - 1 }) ∧
       e .withdraw = .ok { t with ocnt := t.ocnt + 1 } ∧ e .draining = .wait ∧ e .empty = .ok Tile.empty) ∧
     (t.st = 2 → t.ctx = x → e .filling = .wait ∧ e .ready = .refused ∧ e .draining = .ok { t with st := 3 } ∧
       e .empty = .ok Tile.empty ∧ e .withdraw = .ok t) ∧
     (t.st = 3 → t.ctx = x → e .filling = .wait ∧ e .ready = .refused ∧ e .draining = .wait ∧ e .empty = .ok Tile.empty ∧
       e .withdraw = .ok t))

/-- R193, R197, R294-R296, R298, R302: HCPY, HCPYD, HFILL and HGATH between on-chip windows. Element n lies where the descriptor's sizes
and strides put it; unequal counts are SHAPE; a failing check ends the chain with nothing written; elements are copied in
ascending order, converted with one rounding, after the tile claim; HCPYD measures against the old values; HGATH leaves the rows
of all-ones indices. -/
def Obligations.CopyingEntries : Prop :=
  (∀ (t : Chain) (s : State) (d : Desc) (ns : List Nat) (raw : Nat) (x : Tensor), tensorOf t s d ns raw = .ok x →
    x.el.map (·.n) = ns ∧ ∀ e ∈ x.el, e.b = 8 * d.base.toNat + elementOffset d e.n * x.bits) ∧
  (∀ (s : State) (core : Nat) (hs : Bool) (cap : Capture) (h : HodHdr) (src dst : Desc) (rm : BitVec 3) (stile dtile : BitVec 12),
    HodReady s core hs cap →
    let t := Chain.of s core hs cap
    let next := some ((hodOf s core hs).addr + 64)
    let goal := chipTarget s t h dst.base.toNat
    let mode := RMode.of rm.toNat cap.rm.toNat
    let count (d : Desc) : Nat := ((List.range (min d.rank.toNat 3)).map fun k => descSize d k).foldl (· * ·) 1
    let all (d : Desc) : List Nat := List.range (count d)
    let claim := claimTile t dtile.toNat dst.base.toNat s
    let faults (i : Instr) (f : Cause) (a : Nat) : Prop := exec i s = .next (hodFault s core hs cap f a)
    let copied (l : List (HElem × HElem)) (wd : Nat) : Memory := l.foldl (copyElement s t mode dtile.toNat wd) s.mem
    let pair (ns nd : List Nat) (r : Except (Cause × Nat) (Tensor × Tensor)) : Prop := match r with
      | .ok x => copyPair t src dst ns nd s = .ok x s
      | .error e => ∃ u, copyPair t src dst ns nd s = .error (.fault e.1 e.2 false 0) u ∧ u = s
    -- HCPY
    (let i : Instr := .hcpy h src dst rm stile dtile;
      (count src ≠ count dst → faults i .shape 0) ∧
      (count src = count dst → ∀ e, pair (all src) (all dst) (.error e) → faults i e.1 e.2) ∧
      (∀ a b u, count src = count dst → pair (all src) (all dst) (.ok (a, b)) → ChipPair s t a b → s.mem.poison = [] →
        (claim = .ok () u → HodDone (exec i s) core hs h next goal { u with mem := copied (List.zip a.el b.el) b.bits }) ∧
        (∀ f ad st dt, claim = .error (.fault f ad st dt) u → exec i s = .next (hodFault u core hs cap f ad)))) ∧
    -- HFILL
    (∀ (pattern : BitVec 52) (b : Tensor) (u : State),
      let i : Instr := .hfill h pattern dst dtile
      let filled := b.el.foldl (fun m e => chipPut s t.who b.bits m (e.b, trunc b.bits pattern.toInt)) s.mem
      tensorOf t s dst (all dst) 8 = .ok b → Reached s t (b.el.flatMap fun e => elementRuns e b.bits) → s.mem.poison = [] →
      claim = .ok () u → HodDone (exec i s) core hs h next goal { u with mem := filled }) ∧
    (∀ (pattern : BitVec 52) e, tensorOf t s dst (all dst) 8 = .error e → faults (.hfill h pattern dst dtile) e.1 e.2) ∧
    -- HCPYD
    (∀ (rgn : BitVec 10),
      let i : Instr := .hcpyd h src dst rm stile dtile rgn
      let g := (s.ctx cap.ctx).region rgn.toNat
      let inside (b : Tensor) : Prop := g.v = true ∧ ∀ e ∈ b.el, g.base.toNat ≤ bitByte e.b ∧
        bitByte e.b + (bitOff e.b + b.bits + 7) / 8 ≤ g.base.toNat + g.len.toNat
      let numeric (b : Tensor) : Prop := ∀ e ∈ b.el, e.fmt ≠ 0 ∧ e.fmt ≠ 20
      (count src ≠ count dst → faults i .shape 0) ∧
      (∀ a b, count src = count dst → pair (all src) (all dst) (.ok (a, b)) →
        (¬ numeric b → faults i .fmtmismatch 0) ∧ (numeric b → ¬ inside b → faults i .shape 0) ∧
        (numeric b → inside b → ChipPair s t a b → s.mem.poison = [] →
          let s1 := match s.brick cap.core cap.tag with
            | some r => s.setBrick cap.core cap.tag (some { r with
                regions := if r.regions.contains rgn.toNat then r.regions else rgn.toNat :: r.regions })
            | none => s
          ∀ u, claimTile t dtile.toNat dst.base.toNat s1 = .ok () u →
            let r := (List.zip a.el b.el).foldl (measureElement s t mode dtile.toNat b.bits g.dscale.toInt) (s.mem, 0, 0)
            HodDone (exec i s) core hs h next goal (modHod { u with mem := r.1 } core hs fun q =>
              { q with delta := some (rgn.toNat, r.2) })))) ∧
    -- HGATH, whose index slot is read first
    (let i : Instr := .hgath h src dst rm stile dtile;
      (hodOf s core hs).islot = none →
        (∀ u, readIndexSlot t s = .ok () u → exec i s = exec i u) ∧
        (∀ f ad st dt u, readIndexSlot t s = .error (.fault f ad st dt) u → exec i s = .next (hodFault u core hs cap f ad)) ∧
        (∀ ev u, readIndexSlot t s = .error (.wait ev) u → Leaves (exec i s) u)) ∧
    (∀ (w : BitVec 512) (ix : Desc) (x : Tensor),
      let i : Instr := .hgath h src dst rm stile dtile
      let c := descSize src 0
      let shape := src.rank = 2 ∧ dst.rank = 2 ∧ descSize dst 0 = c ∧ descSize dst 1 = descSize ix 0
      let index (e : HElem) : Nat := chipElem s t.who e.b x.bits
      let null := 2 ^ x.bits - 1
      let rows := (List.zip (List.range x.el.length) (x.el.map index)).filter fun e => e.2 != null
      let ns := rows.flatMap fun e => (List.range c).map fun j => j + c * e.2
      let nd := rows.flatMap fun e => (List.range c).map fun j => j + c * e.1
      (hodOf s core hs).islot = some w → indexDesc w = some ix →
      (¬ shape → faults i .shape 0) ∧
      (shape → tensorOf t s ix (all ix) 8 = .ok x → (x.fmt = 4 ∨ x.fmt = 6) → s.mem.poison = [] →
        Reached s t (x.el.flatMap fun e => elementRuns e x.bits) → (∀ r ∈ (s.proc core).coh.rbuf, r.1 ≠ some (hodEng hs)) →
        ((∃ e ∈ x.el, index e ≠ null ∧ descSize src 1 ≤ index e) → faults i .shape 0) ∧
        ((∀ e ∈ x.el, index e = null ∨ index e < descSize src 1) → ∀ a b u, pair ns nd (.ok (a, b)) → ChipPair s t a b →
          OnChip s t.who [(dst.base.toNat, 1)] → claim = .ok () u →
          HodDone (exec i s) core hs h (some ((hodOf s core hs).addr + 128)) goal
            { u with mem := copied (List.zip a.el b.el) b.bits })))) 

/-- R296, R297, R299: HMCS subscribes once and waits; HMSRC waits for its count of subscribers with its descriptor, takes the oldest,
reads the source once for all of them, and ends when their writes have performed; HHALO sends its elements, converted, to the
module of a remote page, a measured one after that module's checks of its region, and is PERM elsewhere. -/
def Obligations.MulticastsAndHalos : Prop :=
  ∀ (s : State) (core : Nat) (hs : Bool) (cap : Capture) (h : HodHdr) (src dst : Desc) (rm : BitVec 3) (stile dtile : BitVec 12),
    HodReady s core hs cap →
    let t := Chain.of s core hs cap
    let next := some ((hodOf s core hs).addr + 64)
    let mode := RMode.of rm.toNat cap.rm.toNat
    let mine (u : Subscriber) : Prop := u.core = core ∧ u.hs = hs ∧ u.done = false
    let all (d : Desc) : List Nat := List.range (descCount d)
    -- an untyped side takes the other's format, and its elements that format's width (R197)
    let joined (x y : Nat) : Nat := if x = 0 then y else x
    let width (f : Nat) : Nat := if f = 0 ∨ f = 20 then 8 else hodBits f
    let at_ (d : Desc) : Nat := (baseFormat t s d).getD 0
    (let i : Instr := .hmcs h src dst rm dtile;
      (descCount src ≠ descCount dst → exec i s = .next (hodFault s core hs cap .shape 0)) ∧
      (descCount src = descCount dst → (∀ u ∈ s.fl.subs, ¬ mine u) →
        (¬ (at_ src = 20 ↔ at_ dst = 20) → exec i s = .next (hodFault s core hs cap .fmtmismatch 0)) ∧
        (∀ b, (at_ src = 20 ↔ at_ dst = 20) → tensorOf t s dst (all dst) (width (at_ src)) = .ok b →
          Leaves (exec i s) (s.modFl fun f =>
            { f with subs := f.subs ++ [⟨core, hs, cap.ctx, src, width (at_ dst), s.mod.gts, none, none, false, none⟩] }))) ∧
      (∀ u, descCount src = descCount dst → (s.fl.subs.find? fun u => u.core == core && u.hs == hs && !u.done) = some u →
        (∀ c, u.failed = some c → exec i s = .next (hodFault s core hs cap (Cause.ofCode c.1.toNat) c.2)) ∧
        (u.failed = none → u.vals = none → Leaves (exec i s) s) ∧
        (∀ l b s1, u.failed = none → u.vals = some l → tensorOf t s dst (all dst) (width ((l.head?.map (·.1)).getD 0)) = .ok b →
          (∀ e ∈ b.el, e.fmt ≠ 20) → (∀ v ∈ l, v.1 ≠ 20 ∧ v.2.2 = none ∧ v.2.1 < 2 ^ 128) → s.mem.poison = [] →
          Reached s t (b.el.flatMap fun e => elementRuns e b.bits) → claimTile t dtile.toNat dst.base.toNat s = .ok () s1 →
          let put (m : Memory) (e : (Nat × Nat × Option Nat) × HElem) : Memory := chipPut s t.who b.bits m
            (e.2.b, hodConvert mode (srBits (srSeed s cap) dtile.toNat e.2.n (srStep s cap)) (joined e.1.1 e.2.fmt) (joined e.2.fmt e.1.1)
              e.1.2.1 % 2 ^ b.bits)
          HodDone (exec i s) core hs h next (chipTarget s t h dst.base.toNat) { s1 with mem := (List.zip l b.el).foldl put s.mem }))) ∧
    (∀ (count : BitVec 52) (a : Tensor),
      let i : Instr := .hmsrc h src count stile
      let ready (u : Subscriber) : Prop := u.by_ = none ∧ u.vals = none ∧ u.ctx = cap.ctx ∧ u.key = src ∧ u.failed = none
      let n := (s.fl.subs.filter fun u => u.by_.isNone && u.vals.isNone && u.ctx == cap.ctx && u.key == src && u.failed.isNone).length
      let ours (u : Subscriber) : Prop := u.by_ = some (core, hs)
      -- the source as a subscriber that wants untyped elements of w bits sees it
      let view (w : Nat) := tensorOf t s src (all src) (if a.fmt = 0 then w else 8)
      let good (x : Tensor) : Prop := Reached s t (x.el.flatMap fun e => elementRuns e x.bits) ∧ ∀ e ∈ x.el, e.fmt ≠ 20
      ((hodOf s core hs).served = false → tensorOf t s src (all src) 8 = .ok a → s.mem.poison = [] → good a →
        (∀ u ∈ s.fl.subs, ¬ ours u) → (∀ u ∈ s.fl.subs, ∃ x, view u.wd = .ok x ∧ good x) →
        (n < count.toNat → Leaves (exec i s) s) ∧
        (count = 0 → HodDone (exec i s) core hs h next (cap.core, none) (modHod s core hs fun q => { q with served := true })) ∧
        (count.toNat ≤ n → 0 < count.toNat → (s.fl.subs.Pairwise fun u v => u.done = false → v.done = false → ¬ (u.core = v.core ∧ u.hs = v.hs)) →
          (∀ u ∈ s.fl.subs, u.done = false) → ∃ t' : State, exec i s = .next t' ∧ (hodOf t' core hs).served = true ∧ t'.mem = s.mem ∧
            (t'.fl.subs.map fun u => { u with by_ := none, vals := none }) = (s.fl.subs.map fun u => { u with by_ := none, vals := none }) ∧
            (t'.fl.subs.filter fun u => u.by_ == some (core, hs)).length = count.toNat ∧
            (∀ (k : Nat) (u v : Subscriber), s.fl.subs[k]? = some u → t'.fl.subs[k]? = some v →
              (v.by_ = some (core, hs) → ready u ∧
                (∀ x, view u.wd = .ok x → v.vals = some (x.el.map fun e => (e.fmt, chipElem s t.who e.b x.bits, none))) ∧
                ∀ (j : Nat) (x y : Subscriber), s.fl.subs[j]? = some x → t'.fl.subs[j]? = some y → ready x → y.by_ = none →
                  u.since.toNat < x.since.toNat ∨ (u.since = x.since ∧ (u.core < x.core ∨ (u.core = x.core ∧ (u.hs = false ∨ x.hs = true))))) ∧
              (v.by_ ≠ some (core, hs) → v = u)))) ∧
      ((hodOf s core hs).served = true →
        ((∃ u ∈ s.fl.subs, ours u ∧ u.done = false) → Leaves (exec i s) s) ∧
        ((∀ u ∈ s.fl.subs, ours u → u.done = true) →
          HodDone (exec i s) core hs h next (cap.core, none) (s.modFl fun f => { f with subs := f.subs.filter fun u => u.by_ != some (core, hs) })))) ∧
    (∀ (rgn : BitVec 10) a b ps bad s1 node,
      let i : Instr := .hhalo h src dst rm stile rgn
      let bits (va : Int) (f : Nat) : Nat := chipElem s t.who va (hodBits f)
      let far (p : Placed) : Prop := ∀ d ∈ p.dst, d.1.kind = .remote
      -- a measured halo names its modules and region in the brick register as its body begins (R407)
      let marked (l : List Placed) : State :=
        let marks := ((l.flatMap fun p => p.dst.map fun d => d.1.peer).eraseDups).map fun n => (n, rgn.toNat)
        match s1.brick cap.core cap.tag with
        | some r => if rgn = 0x3FF then s1 else
          s1.setBrick cap.core cap.tag (some { r with halos := r.halos ++ marks.filter fun e => !r.halos.contains e })
        | none => s1
      let ask (p : Placed) (d : Place) : Nat := Attr.tag ⟨0, 0, 2 * p.m.n, none⟩ 0 d
      -- the element as it is sent
      let value (p : Placed) : Nat := match p.m.src with
        | .mem va f => hodConvert mode (srBits (srSeed s cap) 0xFFF p.m.n (srStep s cap)) f p.m.fmt (bits va f) % 2 ^ p.m.wd
        | _ => 0
      let sent (u : State) (p : Placed) : State := match p.dst.head? with
        | some d => sendHalo t d.1 p.m rgn.toNat (some (value p, false)) u
        | none => u
      (descCount src ≠ descCount dst → exec i s = .next (hodFault s core hs cap .shape 0)) ∧
      (descCount src = descCount dst → copyPair t src dst (all src) (all dst) s = .ok (a, b) s →
        (rgn ≠ 0x3FF → (∃ e ∈ b.el, e.fmt = 0 ∨ e.fmt = 20) → exec i s = .next (hodFault s core hs cap .fmtmismatch 0)) ∧
        ((rgn = 0x3FF ∨ ∀ e ∈ b.el, e.fmt ≠ 0 ∧ e.fmt ≠ 20) → placeMoves t.who (copyMoves a b) s = .ok (ps, bad) s1 →
          (∀ l1 p l2, ps = l1 ++ p :: l2 → (∀ q ∈ l1, far q) → ¬ far p → (rgn ≠ 0x3FF ∨ l1 = []) →
            exec i s = .next (hodFault (marked l1) core hs cap .perm (bitByte p.m.b))) ∧
          (bad = none → ps ≠ [] → (∀ p ∈ ps, ∃ d, p.dst = [d] ∧ d.1.kind = .remote ∧ d.1.peer = node) → (∀ e ∈ a.el, e.fmt ≠ 20) →
            (∀ e ∈ b.el, e.fmt ≠ 20) → Reached s t (a.el.flatMap fun e => elementRuns e (hodBits e.fmt)) → s.mem.poison = [] →
            (∀ r ∈ s1.fl.remotes, r.core ≠ cap.core) →
            -- no answer yet: the first element's checks are asked for
            ((s1.proc core).coh.rbuf = [] → rgn ≠ 0x3FF → ∀ p d l, ps = p :: l → p.dst = [d] → ∃ t' : State,
              exec i s = .next t' ∧ t'.mem = s1.mem ∧ t'.out = (sendHalo t d.1 p.m rgn.toNat none s1).out ∧
              ∃ r : Remote, t'.fl.remotes = s1.fl.remotes ++ [r] ∧ r.kind = 0 ∧ r.tag = ask p d.1 ∧ r.core = cap.core ∧ r.q = core ∧
                r.host = false ∧ r.peer = node) ∧
            -- every answer there, or none needed: the elements are sent
            (((s1.proc core).coh.rbuf = [] ∧ rgn = 0x3FF ∨
              rgn ≠ 0x3FF ∧ ∃ ok : Answer, leN ok.data ≠ 3 ∧ leN ok.data ≠ 4 ∧ (s1.proc core).coh.rbuf = ps.filterMap fun p =>
                p.dst.head?.map fun d => (some (hodEng hs), ask p d.1, some ok)) →
              h.pk = false → ∃ t' : State,
              exec i s = .next t' ∧ (hodOf t' core hs).hphase = .post ∧ (hodOf t' core hs).next = next ∧ t'.mem = s1.mem ∧
              t'.out = (ps.foldl sent s1).out ∧ t'.fl.remotes.length = s1.fl.remotes.length + ps.length)))))

/-! ## What engines do between instructions (11 R250; 12 R268-R275; 20 R425, R432) -/

/-- R250, R270, R272, R273, R268, R275, R432: a store is acknowledged and folded; an idle engine takes a stream start or a NEST and
waits for the pushing core's remote accesses; the raise of a block and the push of a token wait for the engine's writes, the push
also for room; an item whose gap has passed joins the waiters for charge; a marker at the head of an idle engine's queue completes
once the writes and posts ahead have performed, on the Press also the gathered commands pushed before it. What may not happen yet leaves everything as it is. -/
def Obligations.EngineEvents : Prop :=
  ∀ (s : State) (p : Nat), p < 256 →
    ((∀ x l, (s.proc p).coh.acks = x :: l →
        Leaves (exec (.storeAck p) s) (s.modCoh p fun c => { c with acks := l, wsCur := sigAdd c.wsCur x })) ∧
      ((s.proc p).coh.acks = [] → Leaves (exec (.storeAck p) s) s)) ∧
    (∀ px : Bool,
      let e : Eng := if px then .px else .ve
      let q := if px then (s.proc p).eng.px else (s.proc p).eng.ve
      let held := px = false ∨ (s.cluster (p / 4)).press.holder = some (p % 4)
      let idle := q.cap = none ∧ q.serving = none ∧ held
      let pushed (c : Capture) := ∀ r ∈ s.fl.remotes, r.core ≠ c.core ∨ r.eng.isSome
      let put (u : State) (f : Sequencer → Sequencer) : State :=
        u.modEng p fun g => if px then { g with px := f g.px } else { g with ve := f g.ve }
      let written := (s.proc p).coh.acks = [] ∧ ∀ r ∈ s.fl.remotes, r.q ≠ p ∨ r.eng ≠ some e
      (¬ idle → Leaves (exec (.engineDequeue p px) s) s) ∧
      (idle → ∀ l,
        (∀ c entry nb hs, engineQueue (s.proc p).q e = .kick c entry nb hs :: l →
          (¬ pushed c → Leaves (exec (.engineDequeue p px) s) s) ∧
          (pushed c → (ringDesc s p px).toNat % 16 ≠ 0 → hs.length ≤ 8 →
            ∃ v : VERegs, (∀ k, v.slot px k = hs.getD k ((s.ve p).slot px k)) ∧ v.slots (!px) = (s.ve p).slots (!px) ∧
              { v with vh := [], ph := [] } = { s.ve p with vh := [], ph := [] } ∧
              Leaves (exec (.engineDequeue p px) s) (put ((s.modQ p fun k => setEngineQueue k e l).modVE p fun _ => v) fun q =>
                { Sequencer.reset with last := q.last, cap := some c, tks := selectRecord s c.ctx px entry,
                                       fmts := snapFormats s c.ctx, pc := entry, blocks := nb }))) ∧
        (∀ c lvl n, engineQueue (s.proc p).q e = .nest c lvl n :: l →
          (¬ pushed c → Leaves (exec (.engineDequeue p px) s) s) ∧
          (pushed c → Leaves (exec (.engineDequeue p px) s) ((s.modQ p fun k => setEngineQueue k e l).modVE p fun v =>
            if px then { v with pnest := SMap.set Nest.reset v.pnest lvl n } else { v with vnest := SMap.set Nest.reset v.vnest lvl n })))) ∧
      (q.raise = none → Leaves (exec (.blockRaise p px) s) s) ∧
      (∀ n, q.raise = some n →
        (¬ written → Leaves (exec (.blockRaise p px) s) s) ∧
        (written → n = 0 → Leaves (exec (.blockRaise p px) s) (put s fun q => ({ q with raise := none } : Sequencer).settle)) ∧
        (written → n ≠ 0 → Leaves (exec (.blockRaise p px) s)
          (put ((semRaise s p n 1).modCoh p fun c => { c with psCur := c.psCur ||| (s.proc p).coh.ws })
            fun q => ({ q with raise := none } : Sequencer).settle)))) ∧
    (∀ e : Eng,
      let written := (s.proc p).coh.acks = [] ∧ ∀ r ∈ s.fl.remotes, r.q ≠ p ∨ r.eng ≠ some e
      (owedToken s p e = none → Leaves (exec (.tokenPush p e) s) s) ∧
      (∀ n, owedToken s p e = some n →
        (¬ written ∨ 64 ≤ (SMap.get [] (s.proc p).q.tq n).length → Leaves (exec (.tokenPush p e) s) s) ∧
        (written → (SMap.get [] (s.proc p).q.tq n).length < 64 →
          Leaves (exec (.tokenPush p e) s) (paidToken ((s.modQ p fun k =>
              { k with tq := SMap.set [] k.tq n (SMap.get [] k.tq n ++ [0]) }).modCoh p
            fun c => { c with psCur := c.psCur ||| (s.proc p).coh.ws }) p e))) ∧
      (∀ l no, engineQueue (s.proc p).q e = .marker no :: l →
        let free := engineCap (s.proc p) e = none ∧ written ∧
          (∀ o ∈ s.fl.posts, (e = .hl → o.src ≠ .hod p false) ∧ (e = .hs → o.src ≠ .hod p true)) ∧
          (e = .px → (s.cluster (p / 4)).press.holder = some (p % 4) ∧
            ∀ g ∈ (s.cluster (p / 4)).press.gathered, g.cap.core = p → no ≤ g.no)
        (¬ free → Leaves (exec (.markerComplete p e) s) s) ∧
        (free → Leaves (exec (.markerComplete p e) s) ((s.modQ p fun k => setEngineQueue k e l).modSync p fun y =>
          let k := unitKey (some e) - 1
          let m := SMap.get Marker.reset y.mark k
          { y with mark := SMap.set Marker.reset y.mark k { m with mc := m.mc + 1 } }))) ∧
      (∀ last pacer, pacedItem s p e = some (.fresh, last, pacer) → SMap.get 0 (s.proc p).stall (unitKey (some e)) = 0x12 →
        let gap := (SMap.get 0 (s.cc pacer).pace (paceKey e)).toNat
        let overs := ∀ t, last = some t → t.toNat + gap ≤ s.gts
        (¬ overs → Leaves (exec (.pacingGapExpiry p e) s) s) ∧
        (overs → ∃ u, exec (.pacingGapExpiry p e) s = .next u ∧
          (u.cluster (p / 4)).pow.waiters = (s.cluster (p / 4)).pow.waiters ++ [(p, e)] ∧
          (∃ pacer', pacedItem u p e = some (.charging, last, pacer')) ∧
          u = { s with procs := u.procs, clusters := u.clusters } ∧ (∀ k, k ≠ p → u.proc k = s.proc k) ∧
          { u.proc p with eng := (s.proc p).eng, stall := (s.proc p).stall } = s.proc p ∧
          ∀ k, { u.cluster k with pow := { (u.cluster k).pow with waiters := (s.cluster k).pow.waiters } } = s.cluster k)))

/-! ## Bricks, operator blocks and steps (02 R21-R41; 18 R386-R395; 19 R405) -/

/-- R26-R29, R386-R391: an OB whose counter has reached 0 retires POISONED after a poisoned input, with a record where its
bytes are poisoned or break a rule, SKIPPED where the row turns its group off, DONE where it is empty, and goes to the
Walker of the partition with the fewest bricks left otherwise; a Walker places its next brick in the cluster that the
policy names, waits where that queue is full, and has a record written where the cluster is not of the partition. What may
not happen yet leaves everything as it is. R30, R41, R392, R486: a core that waits in BPOP, or an idle core of a present
cluster, gets the eligible brick of the context with the most credit that comes first by effective priority, then by age,
then by order; a core that ran another context is saved and takes this one's image. Without an eligible brick nothing
happens. -/
def Obligations.BlocksAndDispatch : Prop :=
  (∀ (s : State) (x hdr k : Nat), x < 16 →
     ((∀ g, s.graph x hdr ≠ some g ∨ obWaits s x g k = false) → Leaves (exec (.dependencyZero x hdr k) s) s) ∧
     (∀ g, s.graph x hdr = some g → obWaits s x g k = true →
       let a := g.obt + 256 * k
       let o := g.ob k
       let bytes := bytesN 184 (s.mem.read a 184)
       let ctl := obCtl bytes
       let off := (rowCtl s x).getLsbD (16 + ctl / 2 ^ 48 % 16) = true
       let bricks := (obBounds bytes).foldl (· * ·) 1
       ((s.ctx x).d.st = .active ∧ o.status = .pending ∧ o.dep = 0) ∧
       ∃ u, exec (.dependencyZero x hdr k) s = .next u ∧
         (o.pf = true → Retired u x hdr k .poisoned ∧ (u.ctx x).fq = (s.ctx x).fq) ∧
         (o.pf = false → rangePoisoned s.mem a 184 = true → Retired u x hdr k .poisoned ∧ Recorded s u x) ∧
         (o.pf = false → rangePoisoned s.mem a 184 = false →
           (off → Retired u x hdr k .skipped ∧ (u.ctx x).fq = (s.ctx x).fq) ∧
           (¬ off → obRidx bytes = 0xFFFF →
             (obBad bytes = true → Retired u x hdr k .poisoned ∧ Recorded s u x) ∧
             (obBad bytes = false → ctl % 2 = 1 → Retired u x hdr k .done) ∧
             (obBad bytes = false → ctl % 2 = 0 → ∀ c, c ∈ partClusters s x →
               ∃ w ∈ partClusters s x, (∀ v ∈ partClusters s x, walkLoad (s.cluster w) ≤ walkLoad (s.cluster v) ∧
                   (v < w → walkLoad (s.cluster w) < walkLoad (s.cluster v))) ∧
                 (u.cluster w).walk = (s.cluster w).walk ++ [⟨x, hdr, k, k, 0, bricks⟩] ∧
                 (∀ v, v ≠ w → (u.cluster v).walk = (s.cluster v).walk) ∧
                 (u.ob x hdr k).status = .ready ∧ (u.ob x hdr k).left = bricks ∧ (u.ob x hdr k).copy = bytes)))) ∧
     (∀ c, c < 64 →
       ((s.cluster c).walk = [] → Leaves (exec (.brickPlacement c) s) s) ∧
       (∀ w l g, (s.cluster c).walk = w :: l → s.graph w.ctx w.graph = some g →
         let o := g.ob w.primary
         let bytes := if o.altr then o.alt else o.copy
         let b := makeBrick s w bytes g
         (b.eidx.toNat = w.next % 2 ^ 24 ∧ b.obn.toNat = w.ob % 2 ^ 16 ∧ b.prio.toNat = obCtl bytes / 2 ^ 33 % 8 ∧
           b.rst = (obCtl bytes).testBit 32 ∧ b.nslot.toNat = obCtl bytes / 2 ^ 52 % 16 ∧ b.maxd.toNat = obCtl bytes / 2 ^ 56 % 2 ^ 8 ∧
           b.egts = s.mod.gts ∧ b.coord = brickCoord (obBounds bytes) w.next) ∧
         (∀ t, placeCluster s w.ctx (obCtl bytes) (obField bytes 0 32) b.coord w.next = some t →
           (s.ctx w.ctx).d.fmode = true ∨ o.anyPoison = false →
           (512 ≤ (s.cluster t).brickq.length → Leaves (exec (.brickPlacement c) s) s) ∧
           ((s.cluster t).brickq.length < 512 → ∃ u, exec (.brickPlacement c) s = .next u ∧
             (u.cluster t).brickq = (s.cluster t).brickq ++ [b] ∧ (∀ v, v ≠ t → (u.cluster v).brickq = (s.cluster v).brickq) ∧
             (u.cluster c).walk = (if w.next + 1 < w.total then { w with next := w.next + 1 } :: l else l) ∧
             (o.status = .ready → (u.ob w.ctx w.graph w.primary).status = .running) ∧ u.procs = s.procs)) ∧
         (placeCluster s w.ctx (obCtl bytes) (obField bytes 0 32) b.coord w.next = none →
           ∃ u, exec (.brickPlacement c) s = .next u ∧ Recorded s u w.ctx ∧
             (u.cluster c).walk = (if w.next + 1 < w.total then { w with next := w.next + 1 } :: l else l))))) ∧
  (∀ (s : State) (p : Nat), p < 256 →
     let cl := p / 4
     let cands := ((s.cluster cl).brickq.take 512).filter (eligible s p)
     let credit (y : Nat) : Int := SMap.get 0 (s.cluster cl).credit y + (s.ctx y).d.share.toNat
     let rank (b : Brick) : Nat := min 7 (max b.prio.toNat (s.ctx b.ctx.toNat).d.prio.toNat + (s.gts - b.egts.toNat) / 64000)
     let chosen (o : Out) : Prop :=
       (cands = [] → Leaves o s) ∧
       (cands ≠ [] → ∃ u b, o = .next u ∧ b ∈ cands ∧ (u.proc p).heldBrick = some b ∧ (u.proc p).run = .running b.ctx.toNat ∧
         (∀ c ∈ cands, credit c.ctx.toNat ≤ credit b.ctx.toNat) ∧
         (∀ c ∈ cands, c.ctx = b.ctx → rank c ≤ rank b ∧ (rank c = rank b → b.egts.toNat ≤ c.egts.toNat ∧
           (c.egts = b.egts → b.eidx.toNat ≤ c.eidx.toNat))) ∧
         (u.cluster cl).brickq = dropFirst b (s.cluster cl).brickq ∧
         ((s.proc p).ctxOf = some b.ctx.toNat → (u.proc p).img = (s.proc p).img) ∧
         (∀ y, (s.proc p).ctxOf = some y → y ≠ b.ctx.toNat → (u.savedOf y p).isSome = true) ∧
         ((s.proc p).ctxOf = none → s.savedOf b.ctx.toNat p = none →
           (u.proc p).img.cc.pc = ((startImage s b.ctx.toNat p).cc).pc))
     (wantsBrick s p = false → Leaves (exec (.dispatchSelection p) s) s ∧ Leaves (exec (.idleCoreStart p) s) s) ∧
     (wantsBrick s p = true → ∀ y, (s.proc p).run = .running y → chosen (exec (.dispatchSelection p) s)) ∧
     (wantsBrick s p = true → (s.proc p).run = .idle → chosen (exec (.idleCoreStart p) s)))

/-- R32, R33, R36, R39, R405: a RETIRING brick whose commands, writes, deliveries and jobs are complete frees its register and its
brick-local slots and leaves its OB, which retires with its last brick; a parked one only frees its register; a delivery adds to
its region; a brick that has overrun its maximum is counted once in the trace buffer, or, under a pending pre-emption, is requeued
with its core saved once its accesses have performed, or poisoned where a brick of the core may not restart. What may not happen yet leaves everything as it is. -/
def Obligations.BrickEvents : Prop :=
  ∀ (s : State) (p : Nat) (tag : BitVec 3), p < 256 →
    ((∀ b, s.brick p tag ≠ some b ∨ b.st = .running ∨ brickBusy s p tag = true) → Leaves (exec (.brickRetire p tag) s) s) ∧
    (∀ b, s.brick p tag = some b → b.st ≠ .running → brickBusy s p tag = false →
      let y := b.b.ctx.toNat
      let g := b.b.graph
      let k := b.b.primary
      let o := s.ob y g k
      ∃ u, exec (.brickRetire p tag) s = .next u ∧ u.brick p tag = none ∧ (u.proc p).cur ≠ some tag ∧
        (∀ j, j ≠ tag → u.brick p j = s.brick p j) ∧
        (∀ e ∈ (s.cluster (p / 4)).press.slots, ∀ sl, e.2 = some sl →
          (e ∈ (u.cluster (p / 4)).press.slots ↔ ¬ (sl.core = p % 4 ∧ sl.carried = false ∧ sl.btag = tag))) ∧
        (b.st = .parked → u.ob y g k = o) ∧
        (b.st = .retiring → (s.graph y g).isSome = true → 1 < o.left →
          u.ob y g k = { o with left := o.left - 1, anyPoison := o.anyPoison || b.pm, sig := o.sig ||| (s.proc p).coh.ws }) ∧
        (b.st = .retiring → (s.graph y g).isSome = true → o.left = 1 → o.retired = false →
          Retired u y g k (if o.anyPoison || b.pm then .poisoned else if o.altr then .skipped else .done))) ∧
    (∀ i : Nat, (s.fl.deliveries[i]? = none → Leaves (exec (.regionDelivery i) s) s) ∧
      (∀ d, s.fl.deliveries[i]? = some d → d.rgn < 0x3FF →
        let g := SMap.get Region.reset (s.ctx d.ctx).regions d.rgn
        let n : BitVec 32 := (SMap.get 0 (s.ctx d.ctx).loops 0).setWidth 32
        let old := if g.nep = n then g.nr.toNat else 0
        let rest := s.modFl fun f => { f with deliveries := f.deliveries.eraseIdx i }
        let sum := min (old + d.nw) (2 ^ 64 - 1)
        let g' := { g with cr := g.cr + BitVec.ofNat 64 d.d, nr := BitVec.ofNat 64 sum, nbad := g.nbad && g.nep == n, nep := n }
        (g.v = true → Leaves (exec (.regionDelivery i) s) (rest.modCtx d.ctx fun c =>
          { c with regions := SMap.set Region.reset c.regions d.rgn g' })) ∧
        (g.v = false → ∃ u, exec (.regionDelivery i) s = .next u ∧ u.ctxs = s.ctxs ∧ u.procs = s.procs ∧ u.fl = rest.fl))) ∧
    (∀ b, s.brick p tag = some b →
      let x := b.b.ctx.toNat
      let late := b.st ≠ .parked ∧ b.b.maxd.toNat * 1000 < s.gts - b.since.toNat
      let ev := exec (.brickOverrun p tag) s
      (¬ late → Leaves ev s) ∧
      (late → b.pm = false → (s.ctx x).suspending = false →
        (b.traced = true → Leaves ev s) ∧
        (b.traced = false → Leaves ev ((traceRec s (p / 4) 3 p x false
          (b.b.word b.st.code b.pm ((s.proc p).cur == some tag)).toNat).setBrick p tag (some { b with traced := true })))) ∧
      (late → b.pm = false → (s.ctx x).suspending = true → (s.proc p).run = .running x →
        ((∀ e ∈ (s.proc p).liveBricks, e.2.b.rst = true) →
          (quiet s p = true → ∃ u, ev = .next u ∧ (u.proc p).run = .idle ∧ (u.savedOf x p).isSome = true) ∧
          (quiet s p = false → ∃ u, ev = .next u ∧ (u.proc p).run = .aborted x)) ∧
        ((∃ e ∈ (s.proc p).liveBricks, e.2.b.rst = false) →
          ∃ u b', ev = .next u ∧ u.brick p tag = some b' ∧ b'.st = .retiring ∧ b'.pm = true ∧ b'.b = b.b ∧
            (u.proc p).cur ≠ some tag))) ∧
    (s.brick p tag = none → Leaves (exec (.brickOverrun p tag) s) s)

/-- R21-R24, R393-R395: a boundary of a running sequencer goes in stages: a step whose counted OBs have all retired ends, and with the
last, or LAST, or a stop asked for, the sequencer falls IDLE; else the next row is read, a poisoned or ill-formed one halts the
sequencer with a record, PAUSE or no grant left pauses it; then, with no brick of the context left and no member elsewhere, the
loop registers take the step's values and the step opens. No answer within 10 ms of a rendezvous halts it. -/
def Obligations.StepEvents : Prop :=
  ∀ (s : State) (q : Nat), q < 8 →
    let t := s.stepper q
    let x := t.ctx
    let ev := exec (.stepBoundary q) s
    let idle (u : State) : Prop := (u.stepper q).st = .idle ∧ (u.stepper q).stepOpen = false ∧
      ∀ g ∈ (u.ctx x).graphs, g.ofSeq = false ∧ g.held = false
    let others (u : State) : Prop := ∀ j, j ≠ q → u.stepper j = s.stepper j
    ((s.ctx x).d.st ≠ .active ∨ t.st = .idle ∨ t.st = .pause → Leaves ev s) ∧
    ((s.ctx x).d.st = .active → t.st = .halt → (t.srq = false → Leaves ev s) ∧
      (t.srq = true → (∀ g ∈ (s.ctx x).graphs, g.counted = true → g.allRetired = true) → ∃ u, ev = .next u ∧ idle u ∧ others u)) ∧
    ((s.ctx x).d.st = .active → t.st = .run → t.stepOpen = true →
      ((∃ g ∈ (s.ctx x).graphs, g.counted = true ∧ g.allRetired = false) → Leaves ev s) ∧
      ((∀ g ∈ (s.ctx x).graphs, g.counted = true → g.allRetired = true) →
        ∃ u, ev = .next u ∧ (u.stepper q).done = t.done + 1 ∧ (u.stepper q).stepOpen = false ∧ others u ∧
          (u.ctx x).prevSig = (s.ctx x).stepSig ∧
          (t.done + 1 = t.n ∨ t.ctl.getLsbD 1 = true ∨ t.srq = true → idle u) ∧
          (t.done + 1 ≠ t.n → t.ctl.getLsbD 1 = false → t.srq = false → (u.stepper q).st = .run ∧ u.procs = s.procs ∧ u.mem = s.mem))) ∧
    ((s.ctx x).d.st = .active → t.st = .run → t.stepOpen = false → t.row = none →
      let a := ((s.graph x t.graph).map (·.sched)).getD 0 + 128 * t.done
      let w (i : Nat) : Word := BitVec.ofNat 64 (s.mem.read (a + 8 * i) 8)
      let ok := w 1 = 0 ∧ (w 0).toNat < 2 ^ 32 ∧ (w 0).toNat / 8 % 2 ^ 13 = 0
      let row : List Word := (List.range 16).map w
      (t.srq = true → ∃ u, ev = .next u ∧ idle u ∧ others u) ∧
      (t.srq = false → rangePoisoned s.mem a 128 = true ∨ ¬ ok →
        ∃ u, ev = .next u ∧ (u.stepper q).st = .halt ∧ (u.stepper q).done = t.done ∧ Recorded s u x ∧ others u) ∧
      (t.srq = false → rangePoisoned s.mem a 128 = false → ok →
        ((w 0).getLsbD 2 = true ∨ t.gr = 0 → Leaves ev (s.modStepper q fun t => { t with st := .pause, row := some row })) ∧
        ((w 0).getLsbD 2 = false → t.gr ≠ 0 → Leaves ev (s.modStepper q fun t => { t with gr := t.gr - 1, row := some row })))) ∧
    (∀ row, (s.ctx x).d.st = .active → t.st = .run → t.stepOpen = false → t.row = some row → row.length = 16 →
      (t.rdvSince.isSome = true ∨ contextQuiet s x = false → Leaves ev s) ∧
      (t.rdvSince = none → contextQuiet s x = true → spansModules s x = false →
        ∃ u, ev = .next u ∧ (u.stepper q).stepOpen = true ∧ (u.stepper q).row = none ∧ some (u.stepper q).ctl = row[0]? ∧ others u ∧
          (u.ctx x).stepSig = 0 ∧ u.procs = s.procs ∧
          (∀ g ∈ (u.ctx x).graphs, g.held = false) ∧
          SMap.get 0 (u.ctx x).loops 0 = BitVec.ofNat 64 t.done ∧ SMap.get 0 (u.ctx x).loops 1 = BitVec.ofNat 64 (t.n - 1 - t.done) ∧
          ∀ i, 2 ≤ i → i < 16 → some (SMap.get 0 (u.ctx x).loops i) = row[i]?)) ∧
    (let tv := exec (.rendezvousTimeout q) s
     (t.rdvSince = none ∨ t.st ≠ .run → Leaves tv s) ∧
     (∀ r, t.rdvSince = some r → t.st = .run →
       (s.gts - r.toNat < 10000000 → Leaves tv s) ∧
       (10000000 ≤ s.gts - r.toNat → ∃ u, tv = .next u ∧ (u.stepper q).st = .halt ∧ (u.stepper q).rdvSince = none ∧
         Recorded s u x ∧ others u)))

/-! ## Contexts, launches and registers (02 R17-R19, R41; 15 R342, R343; 18 R401; 28 R478, R479) -/

/-- R18, R19, R342, R343, R371: CREATE of a FREE context with a good descriptor gives IDLE and keeps what software wrote; SUSPEND of an
ACTIVE one begins, and the context reads SUSPENDED once no core runs it, its tiles EMPTY; RESUME makes it ACTIVE and puts
back the copies whose entries are EMPTY; DESTROY of an IDLE or SUSPENDED one gives FREE and leaves nothing of it in cores, lookup
cores, queues and caches; pre-emption suspends, the hard form aborting the cores that may be aborted and saving them once their accesses have performed. In any other state ERR alone
is set. -/
def Obligations.ContextCommands : Prop :=
  ∀ (s : State) (x : Nat), x < 16 →
    let d := (s.ctx x).d
    let err : State := s.modCtx x fun c => { c with d := { c.d with err := true } }
    let other (u : State) : Prop := ∀ y, y ≠ x → u.ctx y = s.ctx y
    let clash (y : Nat) : Prop := y < 16 ∧ y ≠ x ∧ (s.ctx y).d.st ≠ .free ∧
      ((s.ctx y).d.asid = d.asid ∨ (d.seqv = true ∧ (s.ctx y).d.seqv = true ∧ (s.ctx y).d.seq = d.seq))
    let bad := d.part = 0 ∨ d.lstq = 0 ∨ 6144 < d.lstb.toNat + d.lstq.toNat ∨ d.share = 0 ∨
      Config.hbmBytes < (s.ctx x).saveb.toNat + 2 ^ 30 ∨ ∃ y, clash y
    (d.st ≠ .free ∨ bad → Leaves (exec (.create x) s) err) ∧
    (d.st = .free → ¬ bad → ∃ u, exec (.create x) s = .next u ∧ other u ∧ u.procs = s.procs ∧
      { u.mem with bytes := [] } = { s.mem with bytes := [] } ∧
      -- the CSR blocks of its images in the save area read 0, its saved images are gone
      (let b := (s.ctx x).saveb.toNat
       ∀ a, u.mem.read a 1 = if b ≤ a ∧ a < b + 2 ^ 30 ∧ (a - b) % 2 ^ 22 / 2 ^ 11 = 2 then 0 else s.mem.read a 1) ∧
      (∀ p, p < 512 → u.savedOf x p = none) ∧
      (u.ctx x).d = { d with st := .idle, err := false } ∧ (u.ctx x).saveb = (s.ctx x).saveb ∧ (u.ctx x).gid = (s.ctx x).gid ∧
      (u.ctx x).member = (s.ctx x).member ∧ (u.ctx x).graphs = [] ∧ (u.ctx x).regions = [] ∧ (u.ctx x).reuse = [] ∧
      (u.ctx x).loops = [] ∧ (u.ctx x).fq.count = 0 ∧ (u.ctx x).fq.pend = [] ∧ (u.ctx x).fq.nen = (s.ctx x).fq.nen ∧
      ∀ c, SMap.get 0 (u.cluster c).credit x = 0) ∧
    (d.st ≠ .active → Leaves (exec (.suspend x) s) err ∧
      (∃ u, exec (.preemptionGo x) s = .next u ∧ (u.ctx x).d = { d with err := true } ∧ (u.ctx x).hard = false ∧ u.procs = s.procs) ∧
      (∃ u, exec (.hardPreemption x) s = .next u ∧ (u.ctx x).d = { d with err := true } ∧ (u.ctx x).hard = true ∧ u.procs = s.procs)) ∧
    (d.st = .active →
      (∃ u, exec (.suspend x) s = .next u ∧ (u.ctx x).suspending = true ∧ (u.ctx x).busy = true ∧ (u.ctx x).d.err = false ∧
        (u.ctx x).d.st = .active ∧ ∀ p, p < 256 → (s.proc p).ctxOf = some x → (u.proc p).heldBrick = none) ∧
      (∃ u, exec (.preemptionGo x) s = .next u ∧ (u.ctx x).suspending = true ∧ (u.ctx x).hard = false) ∧
      (∃ u, exec (.hardPreemption x) s = .next u ∧ (u.ctx x).suspending = true ∧ (u.ctx x).hard = true ∧
        ∀ p, p < 256 → (s.proc p).run = .running x → (s.proc p).heldBrick = none → hardEligible s p = true →
          (quiet s p = true → (u.proc p).run = .idle ∧ (u.savedOf x p).isSome = true) ∧
          (quiet s p = false → (u.proc p).run = .aborted x))) ∧
    ((s.ctx x).suspending = false → Leaves (exec (.contextSuspended x) s) s) ∧
    ((s.ctx x).suspending = true →
      ((∀ p, p < 256 → (s.proc p).ctxOf ≠ some x) → ∃ u, exec (.contextSuspended x) s = .next u ∧ (u.ctx x).d.st = .suspended ∧
        (u.ctx x).suspending = false ∧ (u.ctx x).busy = false ∧ other u ∧
        (∀ c ∈ partClusters s x, (s.cluster c).heldTiles = [] → ∀ t, t < 4096 → (s.tile c t).ctx = x →
          (∀ y, y < 16 → copyPending s y c t = none) → (u.tile c t).st = 0)) ∧
      (∀ p, p < 256 → (s.proc p).ctxOf = some x → coreReady s p = false → abortedReady s p = false →
        ∃ u, exec (.contextSuspended x) s = .next u ∧
        (u.ctx x).d.st = d.st ∧ (u.ctx x).suspending = true ∧ (u.proc p).ctxOf = some x)) ∧
    (d.st ≠ .suspended → Leaves (exec (.resume x) s) err) ∧
    (d.st = .suspended → ∃ u, exec (.resume x) s = .next u ∧ other u ∧ u.procs = s.procs ∧ (u.ctx x).d.err = false ∧
      (∀ k, let e := SMap.get Tile.empty (s.ctx x).tileCopies k
        e.st ≠ 0 → (s.tile (k / 4096) (k % 4096)).st = 0 → (s.cluster (k / 4096)).heldTiles = [] →
          u.tile (k / 4096) (k % 4096) = e) ∧
      ((s.ctx x).graphs ≠ [] → (∀ g ∈ (s.ctx x).graphs, g.ofSeq = true ∨ g.held = true ∨ g.allRetired = false) →
        (u.ctx x).d.st = .active)) ∧
    (d.st ≠ .idle → d.st ≠ .suspended → Leaves (exec (.destroy x) s) err) ∧
    (d.st = .idle ∨ d.st = .suspended → ∃ u, exec (.destroy x) s = .next u ∧ (∀ y, y ≠ x → (u.ctx y).d = (s.ctx y).d) ∧
      (u.ctx x).d = { d with st := .free, err := false } ∧ (u.ctx x).graphs = [] ∧ (u.ctx x).fq = FaultQ.reset ∧
      (∀ p, p < 256 → (s.proc p).ctxOf = some x → (u.proc p).run = .idle ∧ (u.proc p).q = Queues.reset ∧ (u.proc p).cur = none) ∧
      (∀ k, k < 16 → (s.lookup k).v = true → (s.lookup k).ctx.toNat = x → (u.lookup k).v = false ∧ (u.lookup k).jobs = []) ∧
      (∀ c, ∀ b ∈ (u.cluster c).brickq, b.ctx.toNat ≠ x) ∧ (∀ e ∈ u.mem.trans, e.asid ≠ d.asid) ∧ (∀ e ∈ u.saved, e.1 / 512 ≠ x))

/-- R401: the launch commands check and act as the instructions do; their status stands in STS, N and STEP as written. R4, R478: a
store to ARG, SAVEB, the group id, the fault-queue control or a descriptor's first word changes the fields that it may; an
unassigned place ignores it. R318, R351, R352: a
directory entry that would be valid and out of its limits is not written; a queue pair's fields change in RESET only. -/
def Obligations.LaunchesAndRegisters : Prop :=
  ∀ (s : State) (x : Nat), x < 16 →
    let arg := (s.ctx x).arg.toNat
    let with_ (n : BitVec 20) (stp : Bool) : State := s.modCtx x fun c => { c with cmdN := n, stp := stp }
    let gives (r : Nat × State) : State := r.2.modCtx x fun c => { c with sts := BitVec.ofNat 8 r.1 }
    exec (.launchObsub x) s = .next (gives (obsubOp (with_ (s.ctx x).cmdN (s.ctx x).stp) x arg)) ∧
    (∀ n stp, exec (.launchSeqstart x n stp) s = .next (gives (seqstartOp (with_ n stp) x arg n.toNat stp))) ∧
    exec (.launchSeqstop x) s = .next (gives (seqstopOp (with_ (s.ctx x).cmdN (s.ctx x).stp) x)) ∧
    exec (.launchSeqstep x) s = .next (gives (seqstepOp (with_ (s.ctx x).cmdN (s.ctx x).stp) x (arg % 2 ^ 20))) ∧
    (let at_ (o : Nat) (v : Word) : Out := exec (.registerWrite (Config.mmioBase + o) true v) s
     ∀ v : Word,
      Leaves (at_ (0x400 + 64 * x) v) (s.modCtx x fun c => { c with arg := v }) ∧
      Leaves (at_ (0x420 + 64 * x) v) (s.modCtx x fun c => { c with saveb := v &&& 0x00003FFFC0000000 }) ∧
      Leaves (at_ (0x428 + 64 * x) v) (s.modCtx x fun c => { c with gid := fld v 0 12 }) ∧
      (let control (q : FaultQ) : FaultQ :=
         { q with nen := v.getLsbD 49, ncore := fld v 41 8, nsc := fld v 33 8, lost := q.lost &&& ~~~(fld v 25 8) }
       Leaves (at_ (0x410 + 64 * x) v) (s.modCtx x fun c => { c with fq := control c.fq })) ∧
      (v.toNat / 2 ^ 28 % 16 = 0 → (s.ctx x).d.st = .free →
        let latched (d : Desc17) : Desc17 := { d with fmode := v.getLsbD 12, seqv := v.getLsbD 11, seq := fld v 8 3 }
        Leaves (at_ (32 * x) v) (s.modCtx x fun c => { c with d := latched { c.d with share := fld v 16 8, prio := fld v 13 3 } })) ∧
      (v.toNat / 2 ^ 28 % 16 = 0 → (s.ctx x).d.st ≠ .free →
        Leaves (at_ (32 * x) v) (s.modCtx x fun c => { c with d := { c.d with share := fld v 16 8, prio := fld v 13 3 } })) ∧
      Leaves (at_ 0x9018 v) s) ∧
    (∀ (t : Nat) (hi : Bool) (v : Word), t < 256 →
      let old := SMap.get 0 s.links.dir t
      let e : BitVec 128 := if hi then v ++ old.setWidth 64 else fld old 64 64 ++ v
      (e.getLsbD 127 = true → dirOk e = false → Leaves (exec (.capacityDirectoryWrite t hi v) s) s) ∧
      (e.getLsbD 127 = false ∨ dirOk e = true → Leaves (exec (.capacityDirectoryWrite t hi v) s)
        (s.modLinks fun l => { l with dir := SMap.set 0 l.dir t (e &&& ~~~0x7000000000000000FFFFC00000000000) }))) ∧
    (∀ (q : Nat) (hi : Bool) (v : Word), q < 1024 →
      let old := SMap.get 0 s.links.qps q
      let st := (v.toNat / 2 ^ 8 % 8)
      let body : BitVec 128 := (if hi then v ++ old.setWidth 64 else fld old 64 64 ++ v) &&&
        ~~~0x000000FFFFFF000000000000000000FF
      let was := old.toNat / 2 ^ 8 % 8
      (hi = false → was = 0 → st = 1 → Leaves (exec (.queuePairWrite q false v) s)
        (s.modLinks fun l => { l with qps := SMap.set 0 l.qps q body })) ∧
      (hi = false → was ≠ 0 → (st = 0 ∨ st = 1 ∨ st = 3) → Leaves (exec (.queuePairWrite q false v) s)
        (s.modLinks fun l => { l with qps := SMap.set 0 l.qps q ((old &&& ~~~(7#128 <<< 8)) ||| (BitVec.ofNat 128 st <<< 8)) })) ∧
      (hi = false → was ≠ 2 → was ≠ 0 → st = 2 → Leaves (exec (.queuePairWrite q false v) s)
        (let rtr := (old &&& ~~~(7#128 <<< 8)) ||| (2#128 <<< 8)
         s.modLinks fun l => { l with recv := SMap.set 0 l.recv q 0, qps := SMap.set 0 l.qps q rtr })) ∧
      (hi = false → was ≠ 0 → 5 ≤ st → Leaves (exec (.queuePairWrite q false v) s)
        (s.modLinks fun l => { l with qps := SMap.set 0 l.qps q old })))

/-! ## Power, time, health (21 R440-R453; 22 R454, R461; 11 R249, R252) -/

/-- R379, R440-R453, R487: a commit makes the shadow weights live unless fallback is on; a grant adds to the balance and ends the
throttle of its context once the balance is not negative; a PET ends fallback that is not forced, and 2 ms without one begin it
with a record in every context that is not FREE; each 1,000 ns every bucket gains its rate up to its capacity, the rate moving
toward its target by at most the slew, 0 in a thermal trip; a clamp ends, a declaration at its end goes, a trip is counted and
flagged and ends with every rate at its floor. What is not due leaves everything as it is. -/
def Obligations.PowerEvents : Prop :=
  ∀ (s : State),
    (∀ c, c < 64 →
      (s.mod.fallback = true → Leaves (exec (.weightCommit c) s) s) ∧
      (s.mod.fallback = false → Leaves (exec (.weightCommit c) s) (s.modCluster c fun v =>
        let w := v.wt
        { v with wt := { w with live := w.shadow, ccnt := w.ccnt + 1 } })) ∧
      ((s.cluster c).pow.clamp = 1 → Leaves (exec (.clampEnd c) s) (s.modCluster c fun v =>
        let w := v.pow
        { v with pow := { w with clamp := 0 } })) ∧
      ((s.cluster c).pow.clamp ≠ 1 → Leaves (exec (.clampEnd c) s) s)) ∧
    (∀ (x : Nat) (g : Word), x < 16 →
      let q := (s.ctx x).quota
      let granted : State := s.modCtx x fun c => { c with quota := { c.quota with qbal := c.quota.qbal + g, grant := g } }
      ((q.qbal + g).msb = true → Leaves (exec (.quotaGrant x g) s) granted) ∧
      ((q.qbal + g).msb = false → ∃ u, exec (.quotaGrant x g) s = .next u ∧
        (u.ctx x).quota = { q with qbal := q.qbal + g, grant := g, thr := false, act := false } ∧
        (∀ y, y ≠ x → u.ctx y = s.ctx y) ∧
        u.procs = (s.mapProcs fun p => if p.ctxOf = some x then { p with throttled := false } else p).procs)) ∧
    exec .watchdogPet s = .next (s.modMod fun m => { m with pet := m.gts, fallback := m.fallback && m.force }) ∧
    exec .fallbackForce s = .next (s.modMod fun m => { m with force := true, fallback := true }) ∧
    (s.mod.fallback = true ∨ s.gts < s.mod.pet.toNat + 2000000 → Leaves (exec .watchdogExpiry s) s) ∧
    (s.mod.fallback = false → s.mod.pet.toNat + 2000000 ≤ s.gts → ∃ u, exec .watchdogExpiry s = .next u ∧
      u.mod = { s.mod with fallback := true } ∧
      ∀ x, x < 16 → ((s.ctx x).d.st = .free → u.ctx x = s.ctx x) ∧ ((s.ctx x).d.st ≠ .free → Recorded s u x)) ∧
    (s.gts < 1000 * (s.mod.refills + 1) → Leaves (exec .refillBoundary s) s) ∧
    (1000 * (s.mod.refills + 1) ≤ s.gts → ∃ u, exec .refillBoundary s = .next u ∧ u.mod.refills = s.mod.refills + 1 ∧
      ∀ c, c < 64 → s.present c = true →
        let old := (s.cluster c).pow
        let w := (u.cluster c).pow
        let toward := if old.r < w.rtgt then min w.rtgt (old.r + Config.slew) else max w.rtgt (old.r - Config.slew)
        w.cfg0 = none ∧ w.cfg1 = none ∧ w.debit = [] ∧
        (s.mod.trip = true → w.r = 0) ∧
        (s.mod.trip = false → s.mod.fallback = true → w.r = min w.rbase Config.rMax) ∧
        (s.mod.trip = false → s.mod.fallback = false → old.clamp ≤ 1 → old.overs = [] → w.r = toward) ∧
        (s.mod.trip = false → s.mod.fallback = false → 1 < old.clamp → w.r = w.rfloor) ∧
        w.level = min (old.level + w.r) w.cap ∧ w.tl = min (old.tl + w.rfloor) w.rfloor) ∧
    (∀ p, p < 256 →
      (∀ b, (s.proc p).burst = some b →
        (s.gts < b.stop → Leaves (exec (.burstDeclarationExpiry p) s) s) ∧
        (b.stop ≤ s.gts → Leaves (exec (.burstDeclarationExpiry p) s) (s.modProc p fun v => { v with burst := none }))) ∧
      ((s.proc p).burst = none → Leaves (exec (.burstDeclarationExpiry p) s) s)) ∧
    (s.mod.trip = true → Leaves (exec .thermalTrip s) s) ∧
    (s.mod.trip = false → Leaves (exec .thermalTripEnd s) s) ∧
    (s.mod.trip = false → ∃ u, exec .thermalTrip s = .next u ∧ u.mod.trip = true ∧
      u.mod.health.trips = s.mod.health.trips + 1 ∧ u.mod.health.hflag = s.mod.health.hflag ||| 2 ∧ u = { s with mod := u.mod }) ∧
    (s.mod.trip = true → ∃ u, exec .thermalTripEnd s = .next u ∧ u.mod = { s.mod with trip := false } ∧
      ∀ c, c < 64 → u.cluster c = if s.present c = true then
        (let w := (s.cluster c).pow; { s.cluster c with pow := { w with r := w.rfloor } }) else s.cluster c)

/-- R249, R252, R361, R454: signatures rotate at each multiple of 65,536 ns, an L1 sector goes 65,536 ns after its fill and a signature
slot 65,536 ns after its last attach, and none before; a time flit makes a module whose contexts are all FREE join the domain, with
its GTS stepped forward and its signatures rotated at every multiple of 65,536 on the way, and later ones move it by at most 1 ns per
microsecond since the last, never back; the master keeps its own GTS; time passes by what the reference gives, and not past a boundary
that is due; the bound exceeded for 1 ms sets TOOB. -/
def Obligations.TimeEvents : Prop :=
  ∀ (s : State),
    (s.gts < 65536 * (s.mod.rotations + 1) → Leaves (exec .signatureRotation s) s) ∧
    (65536 * (s.mod.rotations + 1) ≤ s.gts → ∃ u, exec .signatureRotation s = .next u ∧
      u.mod = { s.mod with rotations := s.mod.rotations + 1 } ∧ u.mem = s.mem ∧
      u.procs = (s.mapProcs fun p => let c := p.coh
        { p with coh := { c with wsPrv := c.wsCur, wsCur := 0, psPrv := c.psCur, psCur := 0 } }).procs) ∧
    (∀ p v, p < 272 →
      let at_ := SMap.get none (s.proc p).coh.l1 v
      (at_ = none → Leaves (exec (.l1SectorExpiry p v) s) s) ∧
      (∀ e, at_ = some e →
        (s.gts < e.fill.toNat + 65536 → Leaves (exec (.l1SectorExpiry p v) s) s) ∧
        (e.fill.toNat + 65536 ≤ s.gts → Leaves (exec (.l1SectorExpiry p v) s)
          (s.modCoh p fun c => { c with l1 := SMap.set none c.l1 v none })))) ∧
    (∀ home key, home < 416 → ∃ u, exec (.signatureSlotExpiry home key) s = .next u ∧ u = { s with mem := u.mem } ∧
      u.mem.bytes = s.mem.bytes ∧ ∀ t ∈ s.mem.slots, (t ∈ u.mem.slots ↔ (t.valid s.gts = true ∨ t.home ≠ home ∨ t.key ≠ key))) ∧
    (∀ port (m : Word), port < 18 → timeMaster s ≠ s.mod.node.toNat →
      let free := ∀ x, x < 16 → (s.ctx x).d.st = .free
      (s.links.joined = false → free → ∃ u, exec (.timeFlit port m) s = .next u ∧ u.links.joined = true ∧
        u.gts = max s.gts m.toNat ∧ u.procs = (rotateAll s (u.gts / 65536 - s.mod.rotations)).procs ∧
        u.mod.rotations = max s.mod.rotations (u.gts / 65536) ∧ u.mem = s.mem) ∧
      (s.links.joined = true ∨ ¬ free → ∃ u, exec (.timeFlit port m) s = .next u ∧ u.links.joined = true ∧
        s.gts ≤ u.gts ∧ u.gts - s.gts ≤ (s.gts - s.links.slewAt.toNat) / 1000 ∧ u.links.slewAt = s.mod.gts ∧
        (m.toNat ≤ s.gts → u.gts = s.gts) ∧ (s.gts ≤ m.toNat → u.gts ≤ m.toNat) ∧
        (max m.toNat u.gts - min m.toNat u.gts ≤ 8 ↔ u.links.toobSince = none))) ∧
    (∀ n p, p < 272 → (2 ≤ n → let c := ((rotateAll s n).proc p).coh
      c.wsCur = 0 ∧ c.wsPrv = 0 ∧ c.psCur = 0 ∧ c.psPrv = 0) ∧ (n = 0 → rotateAll s n = s)) ∧
    (∀ port (m : Word), port < 18 → timeMaster s = s.mod.node.toNat → Leaves (exec (.timeFlit port m) s) s) ∧
    (∀ ns, s.mod.powered = true → s.links.behind = 0 → s.gts + ns < 2 ^ 64 →
      s.gts + ns ≤ 1000 * (s.mod.refills + 1) → s.gts + ns ≤ 65536 * (s.mod.rotations + 1) → (tick s ns).gts = s.gts + ns) ∧
    (∀ ns, s.gts + ns < 2 ^ 64 → s.gts ≤ (tick s ns).gts ∧ (tick s ns).gts ≤ max s.gts (min (1000 * (s.mod.refills + 1)) (65536 * (s.mod.rotations + 1)))) ∧
    (let toob : State := s.modMod fun m => { m with health := { m.health with hflag := m.health.hflag ||| 1 } }
     (s.links.toobSince = none → Leaves (exec .timeOutOfBound s) s) ∧
     (∀ t, s.links.toobSince = some t →
       (s.gts < t.toNat + 1000000 → Leaves (exec .timeOutOfBound s) s) ∧
       (t.toNat + 1000000 ≤ s.gts → Leaves (exec .timeOutOfBound s) toob)))

/-! ## Management (28 R475-R483; 15 R348; 08 R192-R194; 22 R461) -/

/-- R475-R477, R480, R481, R461: at power-on the controller runs a flash image that verifies and enters recovery otherwise; power loss
keeps what the safe tier retains, flash and key store; SAFESZ is set at every bring-up, and another size discards the tier; a module reset keeps LST, HBM, the safe tier, GTS and the health store; recovery and a
forced update write an image only where it verifies; a report gives its 160 bytes signed; a checkpoint suspends every ACTIVE
context and completes once the module is quiet, and RESTORE brings back contexts SUSPENDED and memory as saved; both are rejected
with ERR where their conditions fail. -/
def Obligations.ManagementEvents : Prop :=
  ∀ (s : State),
    let good (image sig : List Byte) : Bool := sigVerifies Config.vendorKey image sig
    (s.mod.powered = true → Leaves (exec .powerOnReset s) s) ∧
    (s.mod.powered = false → ∃ u, exec .powerOnReset s = .next u ∧ u.mod.powered = true ∧
      u.mod.up = good s.mod.flash s.mod.flashSig ∧ u.mod.recovery = !good s.mod.flash s.mod.flashSig ∧
      -- what the controller has been given (the model's own, log 45) is applied
      u.mod.safesz = s.mod.bring.safesz ∧ u.mod.node = s.mod.bring.node ∧ u.links.mtu = s.mod.bring.mtu ∧ u.links.split = s.mod.bring.split ∧
      u.mod.health = s.mod.health ∧ u.mod.keys = s.mod.keys ∧ u.mod.gts = s.mod.gts ∧ u.procs = s.procs ∧ u.ctxs = s.ctxs ∧
      (s.mod.bring.safesz = s.mod.safesz → u.mem = s.mem ∧ u.mod.image = s.mod.image) ∧
      (s.mod.bring.safesz ≠ s.mod.safesz → u.mod.image = none ∧ ∀ a, u.mem.read a 1 = 0)) ∧
    (s.mod.powered = false → Leaves (exec .powerLoss s) s ∧ Leaves (exec .moduleReset s) s) ∧
    (s.mod.powered = true → ∃ u, exec .powerLoss s = .next u ∧ u.mod.powered = false ∧ u.mod.up = false ∧
      u.mod.flash = s.mod.flash ∧ u.mod.keys = s.mod.keys ∧ u.mod.node = s.mod.node ∧ u.mod.health = s.mod.flashHealth ∧
      (s.mem.wf = true → ∀ a, u.mem.read a 1 = if retained s a (BitVec.ofNat 8 (s.mem.read a 1)) = true then s.mem.read a 1 else 0) ∧
      (∀ a, inSafe s a = false → u.mem.read a 1 = 0) ∧ u.procs = [] ∧ u.ctxs = []) ∧
    (s.mod.powered = true → ∃ u, exec .moduleReset s = .next u ∧ u.mod.up = good s.mod.flash s.mod.flashSig ∧
      u.mod.recovery = !good s.mod.flash s.mod.flashSig ∧ u.mod.gts = s.mod.gts ∧ u.mod.health = s.mod.health ∧
      u.mod.ckseq = s.mod.ckseq ∧ u.mod.keys = s.mod.keys ∧ u.procs = [] ∧ u.ctxs = [] ∧
      -- what the controller has been given (the model's own, log 45) is applied
      u.mod.node = s.mod.bring.node ∧ u.mod.safesz = s.mod.bring.safesz ∧ u.links.mtu = s.mod.bring.mtu ∧ u.links.split = s.mod.bring.split ∧
      (∀ a, inSafe s a = false → inLstKey a = true ∨ inHbm a = true → u.mem.read a 1 = s.mem.read a 1) ∧
      (∀ a, inSafe s a = true → u.mem.read a 1 = if s.mod.bring.safesz = s.mod.safesz then s.mem.read a 1 else 0) ∧
      (s.mod.bring.safesz ≠ s.mod.safesz → u.mod.image = none) ∧
      ∀ a, inLstKey a = false → inHbm a = false → inSafe s a = false → u.mem.read a 1 = 0) ∧
    (∀ image sig,
      (s.mod.recovery = true → good image sig = true → ∃ u, exec (.firmwareRecovery image sig) s = .next u ∧
        u.mod.flash = image ∧ u.mod.flashSig = sig ∧ u.mod.up = true ∧ u.mod.recovery = false) ∧
      (s.mod.recovery = false ∨ good image sig = false → Leaves (exec (.firmwareRecovery image sig) s) s) ∧
      (∀ keys, s.mod.up = true → s.mod.force = true → good image sig = true → ∃ u, exec (.firmwareUpdate image sig keys) s = .next u ∧
        u.mod.flash = image ∧ u.mod.flashSig = sig ∧ u = { s with mod := u.mod } ∧
        (∀ l, keys = some l → ∀ k, k < 16 → SMap.get none u.mod.keys k = l.getD k none) ∧ (keys = none → u.mod.keys = s.mod.keys)) ∧
      (∀ keys, s.mod.up = false ∨ s.mod.force = false ∨ good image sig = false →
        Leaves (exec (.firmwareUpdate image sig keys) s) s)) ∧
    (∀ nonce, (s.mod.powered = false → Leaves (exec (.attestationReport nonce) s) s) ∧
      (s.mod.powered = true → ∃ b, b.length = 256 ∧ exec (.attestationReport nonce) s = .next (s.send (.report b)) ∧
        b.take 16 = bytesN 4 0x00545441 ++ bytesN 2 1 ++ bytesN 2 s.mod.node.toNat ++ bytesN 8 s.gts ∧
        (b.drop 16).take 48 = (bytesN 48 (sha384 s.mod.flash).toNat).reverse ∧
        (b.drop 64).take 32 = bytesN 32 nonce.toNat ∧ (b.drop 96).take 8 = bytesN 8 s.mod.health.hflag.toNat ∧
        (b.drop 112).take 48 = (bytesN 48 (sha384 (keyBytes s)).toNat).reverse ∧
        (∀ c, c < 64 → (leN ((b.drop 104).take 8)).testBit c = (s.cluster c).spared) ∧
        b.drop 160 = (bytesN 96 (Config.identitySign (b.take 160)).toNat).reverse)) ∧
    (let rejected : State := s.modMod fun m => { m with ckerr := true }
     let idle := ∀ x, x < 16 → (s.ctx x).d.st = .free
     (s.mod.safesz.toNat < 390 ∨ s.mod.ckbusy = true → Leaves (exec .checkpoint s) rejected) ∧
     (390 ≤ s.mod.safesz.toNat → s.mod.ckbusy = false → ∃ u, exec .checkpoint s = .next u ∧ u.mod.ckbusy = true ∧
       u.mod.ckerr = false ∧ ((∀ p, (s.proc p).heldBrick = none) → ∀ x, x < 16 → (s.ctx x).d.st = .active →
         (u.ctx x).suspending = true ∧ (u.ctx x).d.st = .active)) ∧
     (s.mod.ckbusy = false ∨ quiescent s = false → Leaves (exec .checkpointComplete s) s) ∧
     (s.mod.ckbusy = true → quiescent s = true → ∃ u i, exec .checkpointComplete s = .next u ∧ u = { s with mod := u.mod } ∧
       u.mod.image = some i ∧ u.mod.ckseq = s.mod.ckseq + 1 ∧ u.mod.ckgts = s.mod.gts ∧ u.mod.ckbusy = false ∧
       i.safesz = s.mod.safesz ∧ i.safe = (s.mem.bytes.filter fun e => inSafe s e.1) ∧ i.qps = s.links.qps ∧ i.wins = s.links.wins ∧ i.steppers = s.steppers) ∧
     (s.mod.image = none ∨ s.mod.ckbusy = true ∨ ¬ idle → Leaves (exec .restore s) rejected) ∧
     (∀ i, s.mod.image = some i → i.safesz ≠ s.mod.safesz → Leaves (exec .restore s) rejected) ∧
     (∀ i, s.mod.image = some i → s.mod.ckbusy = false → i.safesz = s.mod.safesz → idle → ∃ u, exec .restore s = .next u ∧
       u.mod.ckerr = false ∧ ∀ c, c < 64 → s.present c = false → (u.cluster c).brickq = []) ∧
     (∀ i, s.mod.image = some i → s.mod.ckbusy = false → i.safesz = s.mod.safesz → idle →
       (∀ c, c < 64 → s.present c = true ∨ SMap.get [] i.bricks c = []) → ∃ u, exec .restore s = .next u ∧
       u.mod.ckerr = false ∧ u.links.qps = i.qps ∧ u.links.wins = i.wins ∧ u.steppers = i.steppers ∧ u.saved = i.saved ∧
       (i.wf = true → (∀ a, inLstKey a = true ∨ inHbm a = true → u.mem.read a 1 = (SMap.get 0 i.mem a).toNat) ∧
         ((∀ e ∈ i.mem, inLstKey e.1 = true ∨ inHbm e.1 = true) →
           ∀ a, inLstKey a = false → inHbm a = false → u.mem.read a 1 = s.mem.read a 1)) ∧
       (∀ c, c < 64 → (u.cluster c).brickq = SMap.get [] i.bricks c ∧ (u.cluster c).walk = SMap.get [] i.walks c) ∧
       ∀ e ∈ u.ctxs, e.2.d.st = .free ∨ e.2.d.st = .suspended)) ∧
    exec .healthStoreFlush s = .next (s.modMod fun m => { m with flashHealth := m.health }) ∧
    (∀ (c : Nat) (ppm : BitVec 16) (eol : BitVec 32), c < 68 → ∃ u, exec (.ageingMonitor c ppm eol) s = .next u ∧
      u = { s with mod := u.mod } ∧ SMap.get 0 u.mod.health.ageing c = ppm ∧ u.mod.health.eol = eol ∧
      (∀ k, k ≠ c → SMap.get 0 u.mod.health.ageing k = SMap.get 0 s.mod.health.ageing k) ∧
      u.mod.health.hflag = if 30000 < ppm.toInt ∨ eol.toNat < 8760 then s.mod.health.hflag ||| 8 else s.mod.health.hflag)

/-- R105-R112, R192-R194, R348, R483: the loader answers a HOF with a status and, where it is 0, gives the context's program and the
rings of the cores that run it; a failed cluster's cores lose their state and a spare serves its number, or the number becomes absent; an
error is counted in its class, and poisons, faults, records or empties as the site says; a scrub changes no byte. -/
def Obligations.LoaderAndErrors : Prop :=
  ∀ (s : State),
    (∀ x file, x < 16 → ∃ u, exec (.hofLoad x file) s = .next u ∧ (∀ y, y ≠ x → u.ctx y = s.ctx y) ∧
      (loadStatus s x file ≠ 0 → u = s.send (.loaderStatus x (loadStatus s x file))) ∧
      (loadStatus s x file = 0 → u.out = (s.send (.loaderStatus x 0)).out ∧ (u.ctx x).hof = some (hofOf file) ∧
        (∀ p, p < 256 → (s.proc p).ctxOf = some x → (u.proc p).img.ve.vring = (hofOf file).vring ∧
          (u.proc p).img.ve.pring = (hofOf file).pring))) ∧
    (∀ c lost, c < 64 →
      (s.present c = false → Leaves (exec (.spareTakeover ⟨c, lost⟩) s) s) ∧
      (s.present c = true → ∃ u, exec (.spareTakeover ⟨c, lost⟩) s = .next u ∧
        (∀ k, k < 4 → (u.proc (c * 4 + k)).run = .idle ∧ (u.proc (c * 4 + k)).bricks = [] ∧ (u.proc (c * 4 + k)).img = Image.reset) ∧
        (s.mod.spares ≠ 0 → (u.cluster c).spared = true ∧ u.mod.spares = s.mod.spares - 1 ∧
          u.mod.health.hflag = s.mod.health.hflag) ∧
        (s.mod.spares = 0 → (u.cluster c).absent = true ∧ u.mod.spares = 0 ∧ u.mod.health.hflag = s.mod.health.hflag ||| 4) ∧
        u.mem.poisoned (spBase + c * 4 * 2 ^ 20) 1 = true ∧ u.mem.poisoned (shBase + c * 2 ^ 22) 1 = true)) ∧
    (∀ key corrected, exec (.scrub key corrected) s = .next (if corrected then countError s 0 else s)) ∧
    (let counted (k : Nat) (u : State) : Prop :=
       let v := SMap.get 0 s.mod.health.errors k
       SMap.get 0 u.mod.health.errors k = (if v = BitVec.allOnes 32 then v else v + 1) ∧
       ∀ j, j ≠ k → SMap.get 0 u.mod.health.errors j = SMap.get 0 s.mod.health.errors j
     (∀ site, siteExists site = true → ∃ u, exec (.hardwareError site) s = .next u ∧
       counted (2 * siteClass site + if siteCorrected site then 0 else 1) u) ∧
     (∀ key, ∃ u, exec (.hardwareError (.sector key)) s = .next u ∧ u.mem.poisoned key 1 = true ∧ u.mem.bytes = s.mem.bytes ∧
       u.procs = s.procs ∧ u.ctxs = s.ctxs) ∧
     (∀ p y, p < 256 → (s.proc p).run = .running y → ∃ u, exec (.hardwareError (.register p none)) s = .next u ∧
       counted 7 u ∧ (u.proc p).run ≠ .idle) ∧
     (∀ x r, x < 16 → r < 1023 → ∃ u, exec (.hardwareError (.region x r)) s = .next u ∧ Recorded s u x ∧
       (SMap.get Region.reset (u.ctx x).regions r).pzn = true ∧
       (SMap.get Region.reset (u.ctx x).regions r).tgen = (SMap.get Region.reset (s.ctx x).regions r).tgen + 1) ∧
     (∀ x e, x < 16 → e < 4096 → ∃ u, exec (.hardwareError (.reuse x e)) s = .next u ∧ Recorded s u x ∧
       (SMap.get Reuse.reset (u.ctx x).reuse e).cv = false) ∧
     (∀ c, c < 64 → ∃ u, exec (.hardwareError (.bucket c)) s = .next u ∧ (u.cluster c).pow.level = 0) ∧
     (∀ p, p < 256 → ∃ u, exec (.hardwareError (.burst p)) s = .next u ∧ (u.proc p).burst = none) ∧
     (∀ p v, p < 272 → ∃ u, exec (.hardwareError (.l1 p v)) s = .next u ∧ SMap.get none (u.proc p).coh.l1 v = none) ∧
     (∀ p, p < 272 → ∃ u, exec (.hardwareError (.signature p true false)) s = .next u ∧ (u.proc p).coh.psCur = allOnes) ∧
     (∀ a v, ∃ u, exec (.hardwareError (.transCache a v)) s = .next u ∧ ∀ t ∈ u.mem.trans, t.asid.toNat ≠ a ∨ t.vpn ≠ v))

/-! ## Mortar links and the host (16 R350-R363; 11 R250, R258, R264; 13 R299; 19 R404, R407) -/

/-- R355, R356, R358, R359, R299, R404, R407: a request of a member of the context's group on this module's HBM or capacity tier is
performed at its home and answered with status 0; another is refused with status 1, poisoned data answer with 2, a halo that its
region does not cover with 3, one over a poisoned old value with 4; a halo without data only asks for that status; a masked write changes
the bits its mask names; a post adds to its counter, or marks its region. While a checkpoint runs requests wait. -/
def Obligations.LinkRequests : Prop :=
  ∀ (s : State) (h : FlitHdr), h.port < 18 → h.snode < 768 →
    let heard_ (u : State) : Prop := SMap.get false u.links.lost h.snode = false
    let member (x : Nat) : Prop := x < 16 ∧ (s.ctx x).d.st ≠ .free ∧ (s.ctx x).gid = h.gid ∧ (s.ctx x).member.getLsbD h.snode = true
    let allowed := ∃ x, member x
    let home (pa n : Nat) : Bool := decide (0 < n) && ((inHbm pa && inHbm (pa + n - 1)) || (inCap pa && inCap (pa + n - 1)))
    let answered (o : Out) (st : Nat) (data : List Byte) (f : State → Prop) : Prop :=
      ∃ u, o = .next u ∧ Flits s u h.snode 3 h.gid h.score.toNat h.cls data.length (bytesN 1 st ++ data) ∧ heard_ u ∧ f u
    let only (u : State) : Prop := u.mem = s.mem ∧ u.procs = s.procs ∧ u.ctxs = s.ctxs
    (s.mod.ckbusy = true →
      (∀ pa n, Leaves (exec (.flitRead h pa n) s) s) ∧
      (∀ pa data sig poison, Leaves (exec (.flitWrite h pa data sig poison) s) s) ∧
      (∀ pa n op b e, Leaves (exec (.flitAtomic h pa n op b e) s) s) ∧
      (∀ core ctr amount sig mark, Leaves (exec (.postFlit h core ctr amount sig mark) s) s) ∧
      ∀ pa va off fmt n data rgn poison, Leaves (exec (.haloFlit h pa va off fmt n data rgn poison) s) s) ∧
    (s.mod.ckbusy = false →
      (∀ pa n,
        (¬ allowed ∨ home pa n = false → answered (exec (.flitRead h pa n) s) 1 [] only) ∧
        (allowed → home pa n = true → ∃ sig, answered (exec (.flitRead h pa n) s)
          (if s.mem.poisoned pa n then 2 else 0) (bytesN n (s.mem.read pa n) ++ sig) only)) ∧
      (∀ pa data mask sig poison, ¬ allowed ∨ home pa data.length = false →
        answered (exec (.flitWrite h pa ⟨data, mask⟩ sig poison) s) 1 [] only) ∧
      (∀ pa data (m : BitVec 8) sig poison, allowed → home pa data.length = true →
        answered (exec (.flitWrite h pa ⟨data, some m⟩ sig poison) s) 0 [] fun u =>
          u.mem.bytes = (s.mem.write pa 1 ((BitVec.ofNat 8 (s.mem.read pa 1) &&& ~~~m) ||| (data.headD 0 &&& m)).toNat).bytes ∧
          u.procs = s.procs ∧ u.ctxs = s.ctxs ∧ (poison = true → u.mem.poisoned pa 1 = true)) ∧
      (∀ pa data sig poison,
        (allowed → home pa data.length = true → answered (exec (.flitWrite h pa ⟨data, none⟩ sig poison) s) 0 [] fun u =>
          u.mem.bytes = (s.mem.write pa data.length (leN data)).bytes ∧ u.procs = s.procs ∧ u.ctxs = s.ctxs ∧
          (poison = true → u.mem.poisoned pa 1 = true) ∧
          (poison = false → pa % 128 = 0 → data.length = 128 → u.mem.poisoned pa 128 = false))) ∧
      (∀ pa (n' op' ty : BitVec 4) b e,
        let op := op'.toNat
        let n := n'.toNat
        let old := s.mem.read pa n
        let v := b.toNat % 2 ^ (8 * n)
        let sum := vBits ty = 8 * n ∧ (op = 0 ∧ vInt ty = true ∨ op = 10 ∧ vFp ty = true)
        let amo := n = 4 ∧ op ≤ 10 ∨ n = 8 ∧ op ≤ 9
        let ok := home pa n = true ∧ pa % n = 0 ∧ (sum ∨ amo)
        let run := exec (.flitAtomic h pa n' ⟨op', ty⟩ b e) s
        (¬ allowed ∨ ¬ ok → answered run 1 [] only) ∧
        (allowed → ok → s.mem.poisoned pa n = true → answered run 2 [] only) ∧
        (allowed → ok → s.mem.poisoned pa n = false →
          (sum → answered run 0 (bytesN n old) fun u => u.mem = s.mem.write pa n (scatterSum ty v old)) ∧
          (¬ sum → op = 0 → answered run 0 (bytesN n old) fun u => u.mem = s.mem.write pa n ((old + v) % 2 ^ (8 * n))) ∧
          (op = 8 → answered run 0 (bytesN n old) fun u => u.mem = s.mem.write pa n v) ∧
          (op = 9 → answered run 0 (bytesN n old) fun u =>
            u.mem = if old = e.toNat % 2 ^ (8 * n) then s.mem.write pa n v else s.mem) ∧
          (¬ sum → op ≠ 9 → ∀ new, amoOp op (8 * n) v (e.toNat % 2 ^ (8 * n)) old = some new →
            answered run 0 (bytesN n old) fun u => u.mem = s.mem.write pa n new))) ∧
      (∀ core ctr amount sig mark, ¬ allowed → answered (exec (.postFlit h core ctr amount sig mark) s) 1 [] only) ∧
      (∀ x, member x → (∀ y, member y → x ≤ y) →
        (∀ core ctr amount sig (r : BitVec 10), r ≠ 0x3FF → ∃ u, exec (.postFlit h core ctr amount sig (some r)) s = .next u ∧
          (SMap.get Region.reset (u.ctx x).regions r.toNat).nbad = true ∧
          (SMap.get Region.reset (u.ctx x).regions r.toNat).tgen = (SMap.get Region.reset (s.ctx x).regions r.toNat).tgen + 1 ∧
          u.mem = s.mem ∧ u.procs = s.procs ∧ Flits s u h.snode 3 h.gid h.score.toNat h.cls 0 [0]) ∧
        (∀ core ctr (amount : BitVec 32) sig, s.inPart x (core / 4) = true → ctr < 256 →
          exec (.postFlit h core ctr amount sig none) s =
            .next (respond (applyPost (heard s h.snode) ⟨.remote h.snode h.score.toNat, core, x, ctr, amount, sig⟩) h 0 [])) ∧
        (∀ core ctr amount sig, s.inPart x (core / 4) = false ∨ 256 ≤ ctr →
          answered (exec (.postFlit h core ctr amount sig none) s) 1 [] only) ∧
        (∀ pa va off (fmt : BitVec 5) n data (rgn : BitVec 10) poison,
          let w := hodBits fmt.toNat
          let bytes := (off.toNat + w * n + 7) / 8
          let g := SMap.get Region.reset (s.ctx x).regions rgn.toNat
          let run := exec (.haloFlit h pa va off fmt n data rgn poison) s
          -- what a request gets: its status, or data that only ask get it as data
          let gets (st : Nat) : Prop := if data = [] then answered run 0 [BitVec.ofNat 8 st] only else answered run st [] only
          (home pa bytes = false ∨ 20 < fmt.toNat → answered run 1 [] only) ∧
          (home pa bytes = true → fmt.toNat ≤ 20 → rgn ≠ 0x3FF → fmt = 0 ∨ fmt = 20 ∨ g.covers va.toNat bytes = false → gets 3) ∧
          (home pa bytes = true → 0 < fmt.toNat → fmt.toNat < 20 → rgn ≠ 0x3FF → g.covers va.toNat bytes = true →
            s.mem.poisoned pa bytes = true → gets 4) ∧
          (home pa bytes = true → fmt.toNat ≤ 20 → data = [] → rgn = 0x3FF ∨ (0 < fmt.toNat ∧ fmt.toNat < 20 ∧
            g.covers va.toNat bytes = true ∧ s.mem.poisoned pa bytes = false) → gets 0) ∧
          (home pa bytes = true → fmt.toNat ≤ 20 → data ≠ [] → off = 0 → 8 ∣ w → rgn = 0x3FF → answered run 0 [] fun u =>
            (∀ a, u.mem.read a 1 = if pa ≤ a ∧ a < pa + bytes then leN data / 2 ^ (8 * (a - pa)) % 256 else s.mem.read a 1) ∧
            u.procs = s.procs ∧ u.ctxs = s.ctxs) ∧
          (home pa bytes = true → 0 < fmt.toNat → fmt.toNat < 20 → rgn ≠ 0x3FF → g.v = true → g.covers va.toNat bytes = true →
            s.mem.poisoned pa bytes = false → data ≠ [] → off = 0 → 8 ∣ w → answered run 0 [] fun u =>
            let d := deltaSums g.dscale.toInt (haloPairs s.mem fmt.toNat (8 * pa) w (leN data) n)
            (∀ a, u.mem.read a 1 = if pa ≤ a ∧ a < pa + bytes then leN data / 2 ^ (8 * (a - pa)) % 256 else s.mem.read a 1) ∧
            (SMap.get Region.reset (u.ctx x).regions rgn.toNat).cr = g.cr + BitVec.ofNat 64 d.1))))

/-- R250, R258, R350, R355, R357, R358, R363, R264: an answer reaches the access it belongs to once the earlier ones of its core, node
and class have theirs: the access leaves, its sector is folded, its data go to the instruction that waits; the host's answers reach
the oldest access of their sort. A node that stays unreachable, and a queue pair that enters ERR, end their accesses. -/
def Obligations.LinkAnswers : Prop :=
  ∀ (s : State),
    let gone (i : Nat) : List Remote := s.fl.remotes.eraseIdx i
    -- what WS.CUR becomes: nothing is folded of an atomic on poisoned data, nor of a CAS that wrote nothing
    let folded (r : Remote) (c : Coh) (data : List Byte) (poisoned : Bool) : BitVec 1024 := match r.x with
      | some x => if poisoned = true ∨ (∃ v, r.cas = some v ∧ v ≠ leN (data.take r.n)) then c.wsCur else sigAdd c.wsCur x
      | none => c.wsCur
    (∀ (i : Nat) (data : List Byte) (sig : Option Sig) (st : BitVec 3),
      (s.fl.remotes[i]? = none → Leaves (exec (.flitResponse i data sig st) s) s) ∧
      (∀ r, s.fl.remotes[i]? = some r →
        let earlier := ∃ j e, j < i ∧ s.fl.remotes[j]? = some e ∧ e.core = r.core ∧ e.host = r.host ∧ e.peer = r.peer ∧ e.cls = r.cls
        (r.host = true ∨ earlier → Leaves (exec (.flitResponse i data sig st) s) s) ∧
        (r.host = false → ¬ earlier → st = 0 ∨ st = 2 → ∃ u, exec (.flitResponse i data sig st) s = .next u ∧
          u.fl.remotes = gone i ∧ u.mem = s.mem ∧ (u.proc r.core).coh.wsCur = folded r (s.proc r.core).coh data (st == 2) ∧
          (r.kind = 1 ∨ r.kind = 4 ∨ r.tag = deadTag → (u.proc r.q).coh.rbuf = (s.proc r.q).coh.rbuf) ∧
          (r.kind ≠ 1 → r.kind ≠ 4 → r.tag ≠ deadTag →
            (u.proc r.q).coh.rbuf = (s.proc r.q).coh.rbuf ++ [(r.eng, r.tag, some ⟨data, sig, st == 2⟩)])) ∧
        (r.host = false → ¬ earlier → st ≠ 0 → st ≠ 2 → r.kind ≠ 1 → r.kind ≠ 4 → r.tag ≠ deadTag → ∃ u,
          exec (.flitResponse i data sig st) s = .next u ∧ u.fl.remotes = gone i ∧ u.mem = s.mem ∧
          (u.proc r.q).coh.rbuf = (s.proc r.q).coh.rbuf ++ [(r.eng, r.tag, none)]) ∧
        -- a refused write or post of a control core that runs: the core goes back to it and takes its fault
        (r.host = false → ¬ earlier → st ≠ 0 → st ≠ 2 → r.kind = 1 ∨ r.kind = 4 → r.eng = none → (∃ y, (s.proc r.q).run = .running y) →
          let cause : Cause := if st = 3 then .shape else if st = 4 then .eccu else .perm
          let back := (heard (removeRemote s i) r.peer).modCC r.q fun v => { v with pc := BitVec.ofNat 64 r.loc }
          exec (.flitResponse i data sig st) s = .next (takeFault back r.q cause r.va)) ∧
        -- one that comes after the unit has gone on or stopped leaves a record
        (r.host = false → ¬ earlier → st = 1 → r.kind = 1 ∨ r.kind = 4 →
          (r.eng = none ∧ (∃ y e, (s.proc r.q).run = .stopped y e)) ∨ (∃ e, r.eng = some e ∧ r.current s e = false) →
          ∀ x, (s.proc r.core).ctxOf = some x → ∃ u, exec (.flitResponse i data sig st) s = .next u ∧ u.fl.remotes = gone i ∧
            Recorded s u x))) ∧
    (∀ (q : Nat) (data : List Byte), q < 1024 → ∀ write : Bool,
      let o := if write then exec (.roceAcknowledgement q) s else exec (.rdmaReadResponse q data) s
      let mine (r : Remote) : Prop := r.host = true ∧ r.peer = q ∧ (r.kind = 1 ↔ write = true)
      ((∀ r ∈ s.fl.remotes, ¬ mine r) → Leaves o s) ∧
      (∀ i r, s.fl.remotes[i]? = some r → mine r → (∀ j e, j < i → s.fl.remotes[j]? = some e → ¬ mine e) → ∃ u, o = .next u ∧
        u.fl.remotes = gone i ∧ u.mem = s.mem ∧
        (u.proc r.core).coh.wsCur = folded r (s.proc r.core).coh (if write then [] else data) false ∧
        (write = false → r.kind ≠ 4 → r.tag ≠ deadTag →
          (u.proc r.q).coh.rbuf = (s.proc r.q).coh.rbuf ++ [(r.eng, r.tag, some ⟨data, some 0, false⟩)]))) ∧
    (∀ node, node < 768 → node ≠ s.mod.node.toNat → ∃ u, exec (.nodeUnreachable node) s = .next u ∧
      SMap.get false u.links.lost node = true ∧ ∀ r ∈ u.fl.remotes, r.host = true ∨ r.peer ≠ node) ∧
    (∀ q, q < 1024 →
      let st := (SMap.get 0 s.links.qps q).toNat / 2 ^ 8 % 8
      (st ≠ 2 → st ≠ 3 → Leaves (exec (.requesterError q) s) s) ∧
      (st = 2 ∨ st = 3 → ∃ u, exec (.requesterError q) s = .next u ∧ (SMap.get 0 u.links.qps q).toNat / 2 ^ 8 % 8 = 4 ∧
        ∀ r ∈ u.fl.remotes, r.host = false ∨ r.peer ≠ q))

/-- R24, R356, R357, R360, R362, R350: an arrival is recorded once at the leader, which answers every member when all have arrived; the
answer opens the step of the sequencer that waits for it; a control flit changes nothing, a reserved type is dropped and counted, a
replay and a congestion notice only counted; a port loses a lane and goes on with two, or down with fewer than two good ones; a
priority is paused or resumed. -/
def Obligations.RendezvousAndPorts : Prop :=
  ∀ (s : State),
    (∀ (h : FlitHdr) (q : Nat) (n : BitVec 32) (answer : Bool), h.port < 18 → h.snode < 768 → q < 8 →
      let u := heard s h.snode
      let t := s.stepper q
      (admitted s h.gid h.snode = none → Leaves (exec (.rendezvousFlit h q n answer) s) u) ∧
      (∀ x, admitted s h.gid h.snode = some x →
        (seqOf s x ≠ some q → Leaves (exec (.rendezvousFlit h q n answer) s) u) ∧
        (seqOf s x = some q →
          (t.st ≠ .run ∨ t.rdvSince = none ∨ BitVec.ofNat 32 t.done ≠ n → Leaves (exec (.rendezvousFlit h q n true) s) u) ∧
          (t.st = .run → t.rdvSince.isSome = true → BitVec.ofNat 32 t.done = n → ∃ v, exec (.rendezvousFlit h q n true) s = .next v ∧
            (v.stepper q).stepOpen = true ∧ (v.stepper q).rdvSince = none ∧ (v.stepper q).done = t.done) ∧
          ((q, n, h.snode) ∉ s.fl.arrivals → leaderOf u x ≠ s.mod.node.toNat →
            Leaves (exec (.rendezvousFlit h q n false) s) (u.modFl fun f => { f with arrivals := f.arrivals ++ [(q, n, h.snode)] })) ∧
          ((q, n, h.snode) ∉ s.fl.arrivals → leaderOf u x = s.mod.node.toNat →
            (∀ m, m < 768 → (s.ctx x).member.getLsbD m = true → m = h.snode ∨ (q, n, m) ∈ s.fl.arrivals) →
            ∃ v, exec (.rendezvousFlit h q n false) s = .next v ∧ (∀ a ∈ v.fl.arrivals, a.1 ≠ q ∨ a.2.1 ≠ n) ∧
              ∀ m, m < 768 → (s.ctx x).member.getLsbD m = true → m ≠ s.mod.node.toNat →
                ∃ lseq, Msg.flit m s.mod.node.toNat 6 (s.ctx x).gid q 0 lseq n rdvAnswer ∈ v.out)))) ∧
    (∀ port, port < 18 →
      let p := SMap.get Port.reset s.links.ports port
      let put (p : Port) : State := s.modLinks fun l => { l with ports := SMap.set Port.reset l.ports port p }
      (∀ arg, exec (.linkControlFlit port arg) s = .next s) ∧
      (∀ ty : BitVec 4, 9 ≤ ty.toNat → Leaves (exec (.flitReservedType port ty) s) (put { p with dropped := p.dropped + 1 })) ∧
      (∀ lseq, Leaves (exec (.flitReplay port lseq) s) (put { p with replays := p.replays + 1 })) ∧
      (∀ lane, lane < 4 →
        let bad : BitVec 4 := p.bad ||| BitVec.ofNat 4 (2 ^ lane)
        let good := ((List.range 4).filter fun i => !bad.getLsbD i).length
        (2 ≤ good → Leaves (exec (.laneSparing port lane) s) (put { p with bad := bad, lanes := 2, down := false })) ∧
        (good < 2 → Leaves (exec (.laneSparing port lane) s) (put { p with bad := bad, lanes := 0, down := true })))) ∧
    (∀ port prio pause, port < (if s.links.split then 4 else 2) → prio < 8 → Leaves (exec (.priorityFlowControl port prio pause) s)
      (s.modLinks fun l => { l with paused := SMap.set false l.paused (port * 8 + prio) pause })) ∧
    (∀ q, q < 1024 → Leaves (exec (.congestionNotification q) s)
      (s.modLinks fun l => { l with cnps := SMap.set 0 l.cnps q (SMap.get 0 l.cnps q + 1) }))

/-- R350, R353, R354: a request on a queue pair in RTR or RTS whose range lies in the valid window of its rkey, with the right it needs
and on this module's memory, is performed and acknowledged; one of no window or right is refused with the queue pair in ERR, a
malformed one likewise; packets before one that is refused stay written; a request with the ECN mark is answered with a congestion
notification; a message enters the receive ring of its queue pair and posts to the notified counter. On a queue pair in another state,
or while a checkpoint runs, nothing happens. -/
def Obligations.HostRequests : Prop :=
  ∀ (s : State) (q : Nat) (rkey : BitVec 32) (addr : BitVec 52) (n : Nat) (data : List Byte) (imm : BitVec 32) (v w : Word)
    (ecn : Bool), q < 1024 →
    let marked : State := if ecn then s.send (.cnp q) else s
    let qp := SMap.get 0 s.links.qps q
    let open_ := s.mod.ckbusy = false ∧ (qp.toNat / 2 ^ 8 % 8 = 2 ∨ qp.toNat / 2 ^ 8 % 8 = 3)
    let nak (o : Out) (kind : Nat) : Prop := ∃ u l, o = .next u ∧ u.out = l ++ .nak q kind :: marked.out ∧
      (SMap.get 0 u.links.qps q).toNat / 2 ^ 8 % 8 = 4 ∧ ∀ r ∈ u.fl.remotes, r.host = false ∨ r.peer ≠ q
    let window : Option (BitVec 128) :=
      ((List.range 64).map fun k => SMap.get 0 s.links.wins k).find? fun e => e.getLsbD 127 && fld e 88 32 == rkey
    let within (e : BitVec 128) (right n : Nat) : Bool := e.getLsbD right && decide ((fld e 0 52).toNat ≤ addr.toNat) &&
      decide (addr.toNat + n ≤ (fld e 0 52).toNat + (fld e 64 24).toNat * 65536)
    let size (n : Nat) : Prop := 1 ≤ n ∧ n ≤ 2 ^ 31
    let all : List Instr := [.rdmaWrite ⟨q, ecn⟩ rkey addr data, .rdmaWriteWithImmediate ⟨q, ecn⟩ rkey addr data imm, .rdmaRead ⟨q, ecn⟩ rkey addr n,
      .send ⟨q, ecn⟩ data, .sendWithImmediate ⟨q, ecn⟩ data imm, .fetchAdd ⟨q, ecn⟩ rkey addr v, .compareSwap ⟨q, ecn⟩ rkey addr v w, .invalidRequest ⟨q, ecn⟩]
    (¬ open_ → ∀ i ∈ all, Leaves (exec i s) s) ∧
    (open_ →
      nak (exec (.invalidRequest ⟨q, ecn⟩) s) 1 ∧
      (¬ size data.length → nak (exec (.rdmaWrite ⟨q, ecn⟩ rkey addr data) s) 1 ∧ nak (exec (.rdmaWriteWithImmediate ⟨q, ecn⟩ rkey addr data imm) s) 1) ∧
      (¬ size n → nak (exec (.rdmaRead ⟨q, ecn⟩ rkey addr n) s) 1) ∧
      (data.length = 0 ∨ 48 < data.length → nak (exec (.send ⟨q, ecn⟩ data) s) 1 ∧ nak (exec (.sendWithImmediate ⟨q, ecn⟩ data imm) s) 1) ∧
      (addr.toNat % 8 ≠ 0 → nak (exec (.fetchAdd ⟨q, ecn⟩ rkey addr v) s) 1 ∧ nak (exec (.compareSwap ⟨q, ecn⟩ rkey addr v w) s) 1) ∧
      (∀ right len, (∀ e, window = some e → within e right len = false) →
        (right = 126 → len = data.length → size len → nak (exec (.rdmaWrite ⟨q, ecn⟩ rkey addr data) s) 2 ∧
          nak (exec (.rdmaWriteWithImmediate ⟨q, ecn⟩ rkey addr data imm) s) 2) ∧
        (right = 125 → len = n → size len → nak (exec (.rdmaRead ⟨q, ecn⟩ rkey addr n) s) 2) ∧
        (right = 124 → len = 8 → addr.toNat % 8 = 0 → nak (exec (.fetchAdd ⟨q, ecn⟩ rkey addr v) s) 2 ∧
          nak (exec (.compareSwap ⟨q, ecn⟩ rkey addr v w) s) 2)) ∧
      (∀ e r t t' a, window = some e → within e 126 data.length = true → size data.length →
        let who : Who := hostWho (fld e 120 4).toNat
        let mtu := mtuBytes s.links
        mtu < data.length → data.length ≤ 2 * mtu → (∀ r ∈ s.fl.remotes, r.host = false ∨ r.peer ≠ q) →
        inboundPacket who addr.toNat (data.take mtu) marked = .ok r t →
        inboundPacket who (addr.toNat + mtu) (data.drop mtu) t = .error a t' →
          nak (exec (.rdmaWrite ⟨q, ecn⟩ rkey addr data) s) 2 ∧
          ∃ u, exec (.rdmaWrite ⟨q, ecn⟩ rkey addr data) s = .next u ∧ u.mem.bytes = t.mem.bytes) ∧
      (∀ e, window = some e →
        let who : Who := hostWho (fld e 120 4).toNat
        (∀ pl t, within e 126 data.length = true → 1 ≤ data.length → addr.toNat % 128 + data.length ≤ 128 →
          resolve who addr.toNat data.length .write marked = .ok pl t → pl.isLocal = true →
          ∃ u, exec (.rdmaWrite ⟨q, ecn⟩ rkey addr data) s = .next u ∧ u.out = .answer q [] :: t.out ∧
            u.mem.bytes = (t.mem.write pl.key data.length (leN data)).bytes ∧ u.procs = t.procs) ∧
        (∀ pl t, within e 125 n = true → 1 ≤ n → addr.toNat % 128 + n ≤ 128 → resolve who addr.toNat n .read marked = .ok pl t →
          pl.isLocal = true → t.mem.poisoned pl.key n = false →
          ∃ u, exec (.rdmaRead ⟨q, ecn⟩ rkey addr n) s = .next u ∧ u.out = .answer q (bytesN n (t.mem.read pl.key n)) :: t.out ∧
            u.mem = t.mem ∧ u.procs = t.procs) ∧
        (∀ pl t, within e 124 8 = true → addr.toNat % 8 = 0 → resolve who addr.toNat 8 .atomic marked = .ok pl t → pl.isLocal = true →
          t.mem.poisoned pl.key 8 = false →
          let old := t.mem.read pl.key 8
          (∃ u, exec (.fetchAdd ⟨q, ecn⟩ rkey addr v) s = .next u ∧ u.out = .answer q (bytesN 8 old) :: t.out ∧
            u.mem = t.mem.write pl.key 8 ((old + v.toNat) % 2 ^ 64)) ∧
          (∃ u, exec (.compareSwap ⟨q, ecn⟩ rkey addr v w) s = .next u ∧ u.out = .answer q (bytesN 8 old) :: t.out ∧
            u.mem = if old = v.toNat then t.mem.write pl.key 8 w.toNat else t.mem))) ∧
      (let x := (fld qp 16 4).toNat
       let m := SMap.get 0 s.links.recv q
       let at_ := lstBase + (s.ctx x).d.lstb.toNat * 2 ^ 20 + (fld qp 20 12).toNat * 2 ^ 14 + 64 * (m % 256)
       let ring (imm : BitVec 32) (kind : Nat) (d : List Byte) (t : State) (o : Out) : Prop :=
         let entry := bytesN 4 imm.toNat ++ bytesN 2 d.length ++ bytesN 1 kind ++ bytesN 1 0 ++ bytesN 8 s.gts ++ bytesN 48 (leN d)
         ∃ u, o = .next u ∧ u.mem.bytes = (t.mem.write at_ 64 (leN entry)).bytes ∧ SMap.get 0 u.links.recv q = m + 1 ∧
           u.fl.posts = t.fl.posts ++ [⟨.device, (fld qp 40 8).toNat, x, (fld qp 32 8).toNat, 1, 0⟩] ∧ u.out = .answer q [] :: t.out
       let off := at_ - lstBase
       off + 64 ≤ 0x1_8000_0000 → (s.ctx x).d.lstb.toNat * 2 ^ 20 ≤ off →
       off + 64 ≤ ((s.ctx x).d.lstb.toNat + (s.ctx x).d.lstq.toNat) * 2 ^ 20 →
         (1 ≤ data.length → data.length ≤ 48 →
           ring 0 1 data marked (exec (.send ⟨q, ecn⟩ data) s) ∧ ring imm 2 data marked (exec (.sendWithImmediate ⟨q, ecn⟩ data imm) s)) ∧
         (∀ e pl t, window = some e → within e 126 data.length = true → 1 ≤ data.length → addr.toNat % 128 + data.length ≤ 128 →
           resolve (hostWho (fld e 120 4).toNat) addr.toNat data.length .write marked = .ok pl t → pl.isLocal = true →
           ring imm 3 [] (t.modMem fun m => m.write pl.key data.length (leN data))
             (exec (.rdmaWriteWithImmediate ⟨q, ecn⟩ rkey addr data imm) s))))

/-! ## The machine: steps, encodings, reset, invariant -/

/-- R31, R73-R78, R93, R275: a step of a unit that may run fetches the instruction at its place and runs exactly what it decodes to,
after taking the unit's turn off the agenda (the agenda is the model's own, log 1); what decodes to nothing raises the fault of
R97. A stream reads an instruction outside a block once, as it starts, and runs what it read until that ends (R79). An event of the
opcode table runs as it stands. From a core's own scratchpad the bytes of an encoding are that instruction, where no parcel of it was
fetched ahead; a parcel fetched ahead is what a load would read there then (R78). -/
def Obligations.StepRunsTheDecodedInstruction : Prop :=
  ∀ (s : State) (rest : List Act), s.mod.up = true →
    let act (u : Agent) : State := { s with agenda := rest, actor := u }
    (∀ p y, p < 272 → s.agenda = .turn (.cc p) :: rest → (s.proc p).run = .running y →
      let r := act (.cc p)
      let code : Stream := if p < 256 then .cc else .lk
      (∀ w t, fetchCC p r = .ok w t →
        (∀ i, decodeWord code w = some i → step s = exec i t) ∧
        (decodeWord code w = none → step s = .next (takeFault t p .illop))) ∧
      (∀ i o, p < 256 → s.inPart y (p / 4) = true → i.wf = true → i.inStream .cc = true → (∃ f, i.form = some f) →
        let b := encode i
        (∀ k, SMap.get none (s.cc p).ahead (0xFFE0000000000 + o + 2 * k) = none) →
        b.length ≤ 6 → o + b.length ≤ 0xC_0000 → (s.cc p).pc = BitVec.ofNat 64 (0xFFE0000000000 + o) →
        (∀ k, k < b.length → s.mem.read (0xFFD0000000000 + p * 2 ^ 20 + o + k) 1 = (b.getD k 0).toNat) →
        s.mem.poisoned (0xFFD0000000000 + p * 2 ^ 20 + o) b.length = false → o % 2 = 0 → step s = exec i r)) ∧
    (∀ p, p < 256 → s.agenda = .turn (.ve p) :: rest →
      let r := act (.ve p)
      let q := (s.proc p).eng.ve
      q.stop = none → q.push = none → q.raise = none → q.cap.isSome = true → (∀ b, q.block = some b → q.atBoundary = false) →
        let runs (t : State) (w : BitVec 48) : Prop :=
          (∀ i, decodeWord .ve w = some i → step s = exec i t) ∧
          (∀ c, q.cap = some c → decodeWord .ve w = none →
            step s = .next (streamFault t p false c .engill 0 (ringKey t p false q.here) 0))
        (∀ w, q.block = none → q.word = some w → runs r w) ∧
        (∀ w, q.block = none → q.word = none → fetchStream r p false q = .word w →
          runs (modSeqr r p false fun q => { q with word := some w }) w) ∧
        (∀ w b, q.block = some b → fetchStream r p false q = .word w → runs r w)) ∧
    (∀ c k, c < 64 → s.agenda = .turn (.px c) :: rest → (s.cluster c).press.holder = some k →
      let r := act (.px c)
      let p := c * 4 + k
      let q := (s.proc p).eng.px
      q.stop = none → q.push = none → q.raise = none → q.serving = none → q.cap.isSome = true →
      (q.phase ≠ .fresh ∨ ∀ g ∈ (s.cluster c).press.gathered, g.cap.core ≠ p) →
      (∀ b, q.block = some b → q.atBoundary = false) →
        let runs (t : State) (w : BitVec 48) : Prop :=
          (∀ i, decodeWord .px w = some i → step s = exec i t) ∧
          (∀ cap, q.cap = some cap → decodeWord .px w = none →
            step s = .next (streamFault t p true cap .engill 0 (ringKey t p true q.here) 0))
        (∀ w, q.block = none → q.word = some w → runs r w) ∧
        (∀ w, q.block = none → q.word = none → fetchStream r p true q = .word w →
          runs (modSeqr r p true fun q => { q with word := some w }) w) ∧
        (∀ w b, q.block = some b → fetchStream r p true q = .word w → runs r w)) ∧
    (∀ p hs, p < 256 → s.agenda = .turn (.hod p hs) :: rest →
      let r := act (.hod p hs)
      let h := if hs then (s.proc p).eng.hs else (s.proc p).eng.hl
      ∀ cap, h.stop = none → h.cap = some cap → h.hphase = .entry ∨ h.hphase = .body →
        ∀ w t, fetchEntry (Chain.of r p hs cap) r = .ok w t →
          (∀ i, decodeHod w = some i → step s = exec i t) ∧
          (decodeHod w = none → step s = .next (hodFault t p hs cap .hodill 0))) ∧
    (∀ i, s.agenda = .event i :: rest → i.form = none → step s = exec i { s with agenda := rest }) ∧
    (∀ p y o, p < 256 → s.agenda = .ahead p (0xFFE0000000000 + o) :: rest → (s.proc p).run = .running y → s.inPart y (p / 4) = true →
      o + 2 ≤ 0xC_0000 → o % 2 = 0 →
      let at_ := 0xFFD0000000000 + p * 2 ^ 20 + o
      (s.mem.poisoned at_ 2 = true → Leaves (step s) { s with agenda := rest }) ∧
      (s.mem.poisoned at_ 2 = false → Leaves (step s) (({ s with agenda := rest } : State).modCC p fun c =>
        { c with ahead := SMap.set none c.ahead (0xFFE0000000000 + o) (some (BitVec.ofNat 16 (s.mem.read at_ 2))) }))) ∧
    (∀ ns, s.agenda = .tick ns :: rest → step s = .next (tick { s with agenda := rest } ns)) ∧
    (∀ b, s.agenda = .setUp b :: rest → step s = .next (setUp b { s with agenda := rest }))

/-- R72-R97, R103 and the worked encodings of the chapters: these words, written out from the encodings of the spec, decode to
these instructions. -/
def Obligations.EncodingsOfTheSpec : Prop :=
  let w (st : Stream) (a b c : Nat) (i : Instr) : Prop := decodeWord st (BitVec.ofNat 48 (a + b * 2 ^ 16 + c * 2 ^ 32)) = some i
  let g : Guard := ⟨0, false⟩
  let v : VCom := ⟨0, 0, 0⟩
  w .cc 0x18FD 0 0 (.liC 7 0x1D) ∧ w .cc 0x1477 0 0 (.addiC 3 0x17) ∧ w .cc 0x8207 0xFC83 0 (.addi ⟨g, 3, 4, 0x3F7⟩) ∧
  w .cc 0x8247 0xFC63 0 (.addi ⟨⟨2, false⟩, 3, 3, 0x3F7⟩) ∧ w .cc 0xC002 0x1467 0xFFF8 (.ld ⟨g, 7, 3, 0xFFF8, 0, 5, 2⟩) ∧
  w .cc 0xC200 0x4D05 0x0526 (.amo ⟨g, 5, 8, 6, 2, 9, 2, 3, 0⟩) ∧ w .cc 0xC600 0x9889 0x0040 (.waitaddr ⟨g, 9, 4, 0x40, 4, 6, 0⟩) ∧
  w .cc 0x9500 0x0065 0 (.semw g 5 3) ∧ w .cc 0x9401 0x0048 0 (.semp g 40 2) ∧ w .cc 0x9607 0x00E0 0 (.markWait g 7 3) ∧
  w .cc 0xEB00 0x0089 0x020C (.scw g 9 4 2 12) ∧ w .cc 0xEC00 0x18A0 0x0307 (.scp g 5 6 3 7) ∧
  w .cc 0xE000 0x0103 0 (.obsub g 3 8) ∧ w .cc 0xE100 0x2503 1 (.seqstart g 3 8 9 true) ∧ w .cc 0xE102 4 0 (.seqwait g 4) ∧
  w .cc 0xE200 0x2503 0 (.rgndef g 3 8 9) ∧ w .cc 0xE201 0x2405 1 (.rgnrd g 5 9 1) ∧
  w .cc 0xE302 0x1CC4 2 (.reuseset g 4 6 7 2 false false) ∧ w .cc 0xE401 0x0103 0 (.fqresume g 3 8) ∧
  w .cc 0xCD00 0x1480 0xF (.tlbinvRange g 4 5 15) ∧ w .cc 0xF200 9 0 (.quota g 9 0) ∧ w .cc 0xF100 0x00E6 0xF (.pace g 6 7 15) ∧
  w .cc 0xF000 0x1480 0xC (.phase g 4 5 12) ∧ w .cc 0xDA01 0x2920 0 (.link g true 9 10) ∧
  w .cc 0xD831 0x00E0 0x0042 (.kickPx ⟨1, true⟩ 0 7 1 2) ∧ w .cc 0xD802 0x0080 0x2400 (.kickHl g 4 9 0) ∧
  w .cc 0xD000 0x00A2 0x004A (.hmk g 2 5 10 2 0 false) ∧ w .cc 0xD400 0x2043 0 (.hsub g 3 2 8) ∧
  w .lk 0xFA00 0x0C44 4 (.lkddp g 4 2 3 4) ∧ w .lk 0xFB00 0 0x60 (.lkpool g 0 0 false true true) ∧
  w .ve 0x8045 0x18A4 0 (.vadd ⟨⟨2, 1, 1⟩, false, 4, 5, 6⟩) ∧ w .ve 0xFE40 0x0C0C 5 (.blk 2 12 3 5 0) ∧
  w .px 0xFE40 0x0C0C 5 (.blk 2 12 3 5 0) ∧ w .ve 0xCC00 0x0025 0x8020 (.vlda v false 5 1 64 1) ∧
  w .ve 0xC800 0x01A4 0x0200 (.vld ⟨v, false, 4, 1, 3, 16⟩) ∧ w .ve 0xD200 6 0x01C0 (.vshape v 6 0x1C0) ∧
  w .ve 0xD500 2 0 (.vli v false 2 0) ∧ w .ve 0xC300 0x0820 0x40C0 (.vcmp v 1 2 6 4) ∧ w .ve 0x9D00 0x0823 0 (.vsel v 3 1 2) ∧
  w .ve 0xA300 0 0 (.minv v) ∧ w .ve 0xA200 0 0 (.mpop v) ∧ w .ve 0xC600 0x8025 0x00C0 (.vred ⟨v, true, 5, 1, 0, 6, 0, false, 0⟩) ∧
  w .px 0xC000 0x0042 0x03FC (.pmm v 2 0 1 false 0x3FC) ∧ w .px 0xC200 0x0201 0 (.pres v 1 2 0 false false 0) ∧
  w .px 0xC600 1 2 (.pscl v 1 2) ∧ w .px 0xC700 0x0C01 0 (.padd v 1 3 false 0) ∧
  (let hod (l : List Byte) (i : Instr) : Prop := decodeHod (BitVec.ofNat 512 (leNat l)) = some i
   let last : List Byte := [0xFF, 0xFF, 0xFF, 0xF8, 0x1F, 0, 0, 0]
   let sizes : List Byte := [8, 0, 4, 0, 0, 0, 1, 0, 0, 8, 0, 0, 0, 0, 0, 0]
   hod (0x0C :: List.replicate 55 0 ++ last) (.hend ⟨0, false, false, false, false, 0, 0, 0, 0⟩) ∧
   hod ([1, 2, 0, 3, 0, 0, 1, 0] ++ [0, 0, 0, 0x40, 0, 0, 0x90, 4] ++ sizes ++ [0, 0, 1, 0, 0, 0xFE, 0x0F, 4] ++ sizes ++ last)
     (.hcpy ⟨0, false, false, true, false, 0, 3, 0, 1⟩ ⟨0x40000000, 9, 2, 8, 4, 0, 1, 8, 0⟩ ⟨0xFFE0000010000, 0, 2, 8, 4, 0, 1, 8, 0⟩
       0 0xFFF 0xFFF))

/-- R72, R79-R93, R97: decoding the bytes of any well-formed instruction in a stream where it may stand gives that instruction back, with
every operand, and leaves the bytes after it; likewise for a hod entry. -/
def Obligations.DecodingUndoesEncoding : Prop :=
  ∀ (i : Instr) (st : Stream), i.wf = true → i.inStream st = true →
    (∀ y rest, i.form = some y → (∀ e, y ≠ .hod e) → decode st (encode i ++ rest) = .ok (i, rest)) ∧
    (∀ y, i.form = some (.hod y) → st = .cc → decodeHod (BitVec.ofNat 512 (leNat (encode i))) = some i)

/-- R72, R97: what decodes is the encoding of a well-formed instruction, bit for bit: no two words of a stream mean the same
instruction, and a word with a reserved field set means none. -/
def Obligations.DecodedWordsAreEncodings : Prop :=
  (∀ (st : Stream) (bs rest : List Byte) (i : Instr), decode st bs = .ok (i, rest) → i.wf = true ∧ bs = encode i ++ rest) ∧
  (∀ (w : BitVec 512) (i : Instr), decodeHod w = some i → i.wf = true ∧ leNat (encode i) = w.toNat)

/-- R19, R110, R115, R118-R122, R150-R163, R219, R249, R252, R286, R365, R379, R393, R425-R432, R454, R486, R487: after reset every
context is FREE and every core idle; the registers, counters, queues, tables, signatures and sequencers named here hold the reset
values of their state cards. -/
def Obligations.ResetState : Prop :=
  let s := State.reset
  s.memWf = true ∧ s.gts = 0 ∧ s.mod.fallback = false ∧ s.mod.trip = false ∧ s.mod.ckbusy = false ∧ s.mem.trans = [] ∧ s.mem.slots = [] ∧
  (∀ x, (s.ctx x).d.st = .free ∧ (s.ctx x).graphs = [] ∧ (s.ctx x).fq.count = 0 ∧ (s.ctx x).quota.en = false ∧
    (∀ r, SMap.get Region.reset (s.ctx x).regions r = Region.reset) ∧ (∀ k, SMap.get 0 (s.ctx x).loops k = 0) ∧
    ∀ e, (SMap.get Reuse.reset (s.ctx x).reuse e).rgn = [0x3FF, 0x3FF, 0x3FF, 0x3FF]) ∧
  (∀ q, (s.stepper q).st = .idle) ∧
  (∀ p, (s.proc p).run = .idle ∧ (s.proc p).q = Queues.reset ∧ (s.proc p).coh.ws = 0 ∧ (s.proc p).coh.psCur = 0 ∧ (s.proc p).coh.psPrv = 0 ∧
    (∀ k, (s.cc p).readS k = 0) ∧ (∀ k, (s.cc p).readP k = (k == 0)) ∧ (s.cc p).sys = false ∧ (s.cc p).status = 0 ∧ (s.cc p).tvec = 0 ∧
    (∀ k, SMap.get 0 (s.cc p).h k = 0) ∧ (∀ k, SMap.get 0 (s.cc p).fmt k = 0) ∧
    (∀ n, (s.sync p).semVal n = 0) ∧ (∀ j, (s.ve p).reg j = 0) ∧ (s.ve p).rows = 1 ∧ (s.ve p).cols = 128 ∧ (s.ve p).ty = 6 ∧ (s.ve p).depth = 1 ∧
    (s.ve p).top = BitVec.allOnes 1024) ∧
  (∀ c, s.present c = true ∧ (s.cluster c).press.holder = none ∧ (∀ k, SMap.get none (s.cluster c).press.slots k = none) ∧
    (s.cluster c).brickq = [] ∧ (∀ t, (s.tile c t).st = 0) ∧ (s.cluster c).pow.level = 0 ∧
    ∀ k, weightOf (s.cluster c).wt.live k = weightDefault k)

/-- R1, R190: every step keeps memory in its one canonical form, so that equal memories are equal data; the memory of a checkpoint
too. -/
def Obligations.StepsKeepMemoryCanonical : Prop :=
  ∀ s t : State, s.memWf = true → step s = .next t → t.memWf = true
end

