-- ==== Sys2Proof/Laws/SMap.lean ====
section
/-! SUPPORT. Laws of sparse tables: a read after a write, the frame of a write, and the canonical form, which every
operation keeps and in which equal readings are equal data. -/

namespace Sys2Proof.Machine
namespace SMap

variable {V : Type}

@[simp] theorem get_nil (d : V) (k : Nat) : get d [] k = d := rfl

theorem get_cons (d : V) (j : Nat) (v : V) (m : SMap V) (k : Nat) :
    get d ((j, v) :: m) k = if j = k then v else get d m k := rfl

theorem get_erase_same (d : V) (m : SMap V) (k : Nat) : get d (erase m k) k = d := by
  induction m with
  | nil => rfl
  | cons e m ih =>
    obtain ⟨j, v⟩ := e
    by_cases h : j = k <;> simp [erase, h, get_cons, ih]

theorem get_erase_other (d : V) (m : SMap V) {k l : Nat} (h : l ≠ k) : get d (erase m k) l = get d m l := by
  induction m with
  | nil => rfl
  | cons e m ih =>
    obtain ⟨j, v⟩ := e
    by_cases hj : j = k
    · subst hj; simp [erase, get_cons, ih, Ne.symm h]
    · simp [erase, hj, get_cons, ih]

theorem get_insert_same (d : V) (m : SMap V) (k : Nat) (v : V) (h : ∀ e ∈ m, e.1 ≠ k) : get d (insert k v m) k = v := by
  induction m with
  | nil => simp [insert, get_cons]
  | cons e m ih =>
    obtain ⟨j, w⟩ := e
    have hj : j ≠ k := h (j, w) (by simp)
    by_cases hk : k < j
    · simp [insert, hk, get_cons]
    · simp [insert, hk, get_cons, hj, ih fun e he => h e (by simp [he])]

theorem get_insert_other (d : V) (m : SMap V) {k l : Nat} (v : V) (h : l ≠ k) : get d (insert k v m) l = get d m l := by
  induction m with
  | nil => simp [insert, get_cons, Ne.symm h]
  | cons e m ih =>
    obtain ⟨j, w⟩ := e
    by_cases hk : k < j
    · simp [insert, hk, get_cons, Ne.symm h]
    · simp [insert, hk, get_cons, ih]

theorem mem_erase {m : SMap V} {k : Nat} {e : Nat × V} (h : e ∈ erase m k) : e.1 ≠ k ∧ e ∈ m := by
  induction m with
  | nil => simp [erase] at h
  | cons x m ih =>
    obtain ⟨j, v⟩ := x
    by_cases hj : j = k
    · simp only [erase, hj, if_pos] at h; exact ⟨(ih h).1, by simp [(ih h).2]⟩
    · simp only [erase, hj, if_false, List.mem_cons] at h
      rcases h with rfl | h
      · exact ⟨hj, by simp⟩
      · exact ⟨(ih h).1, by simp [(ih h).2]⟩

variable [DecidableEq V]

/-- What was written is read. -/
@[simp] theorem get_set_same (d : V) (m : SMap V) (k : Nat) (v : V) : get d (set d m k v) k = v := by
  unfold set
  split
  · next h => rw [get_erase_same, h]
  · exact get_insert_same d _ k v fun e he => (mem_erase he).1

/-- A write leaves every other key alone. -/
theorem get_set_other (d : V) (m : SMap V) {k l : Nat} (v : V) (h : l ≠ k) : get d (set d m k v) l = get d m l := by
  unfold set
  split
  · exact get_erase_other d m h
  · rw [get_insert_other d _ v h, get_erase_other d m h]

theorem get_set (d : V) (m : SMap V) (k l : Nat) (v : V) : get d (set d m k v) l = if l = k then v else get d m l := by
  split
  · next h => subst h; exact get_set_same d m l v
  · next h => exact get_set_other d m v h

/-! ## The canonical form -/

/-- The bound of a canonical table as a proposition. -/
def Above (b : Option Nat) (k : Nat) : Prop := ∀ a, b = some a → a < k

omit [DecidableEq V] in
theorem above_none (k : Nat) : Above none k := by intro a h; cases h

theorem wfFrom_cons (d : V) (b : Option Nat) (j : Nat) (v : V) (m : SMap V) :
    wfFrom d b ((j, v) :: m) = true ↔ Above b j ∧ v ≠ d ∧ wfFrom d (some j) m = true := by
  cases b <;> simp [wfFrom, Above, and_assoc]

theorem wfFrom_mono {d : V} {b c : Option Nat} {m : SMap V}
    (hb : ∀ k, Above c k → Above b k) (hm : wfFrom d c m = true) : wfFrom d b m = true := by
  cases m with
  | nil => rfl
  | cons e m =>
    obtain ⟨j, v⟩ := e
    rw [wfFrom_cons] at hm ⊢
    exact ⟨hb j hm.1, hm.2⟩

theorem wfFrom_erase {d : V} {b : Option Nat} {m : SMap V} (k : Nat) (h : wfFrom d b m = true) :
    wfFrom d b (erase m k) = true := by
  induction m generalizing b with
  | nil => rfl
  | cons e m ih =>
    obtain ⟨j, v⟩ := e
    rw [wfFrom_cons] at h
    by_cases hj : j = k
    · simp only [erase, hj, if_pos]
      refine wfFrom_mono (c := some j) ?_ (ih h.2.2)
      intro l hl a ha
      exact Nat.lt_trans (h.1 a ha) (hl j rfl)
    · simp only [erase, hj, if_false, wfFrom_cons]
      exact ⟨h.1, h.2.1, ih h.2.2⟩

theorem wfFrom_insert {d : V} {b : Option Nat} {m : SMap V} {k : Nat} {v : V} (hv : v ≠ d) (hb : Above b k)
    (hk : ∀ e ∈ m, e.1 ≠ k) (h : wfFrom d b m = true) : wfFrom d b (insert k v m) = true := by
  induction m generalizing b with
  | nil => exact (wfFrom_cons d b k v []).2 ⟨hb, hv, rfl⟩
  | cons e m ih =>
    obtain ⟨j, w⟩ := e
    rw [wfFrom_cons] at h
    by_cases hlt : k < j
    · simp only [insert, hlt, if_pos, wfFrom_cons]
      exact ⟨hb, hv, fun a ha => by cases ha; exact hlt, h.2⟩
    · have hj : j ≠ k := hk (j, w) (by simp)
      simp only [insert, hlt, if_false, wfFrom_cons]
      exact ⟨h.1, h.2.1, ih (fun a ha => by cases ha; omega) (fun e he => hk e (by simp [he])) h.2.2⟩

/-- A write keeps the canonical form. -/
theorem wf_set {d : V} {m : SMap V} (k : Nat) (v : V) (h : wf d m = true) : wf d (set d m k v) = true := by
  unfold set
  split
  · exact wfFrom_erase k h
  · next hv =>
    exact wfFrom_insert hv (above_none k) (fun e he => (mem_erase he).1) (wfFrom_erase k h)

/-- The empty table is canonical. -/
@[simp] theorem wf_nil (d : V) : wf d ([] : SMap V) = true := rfl

theorem get_of_wfFrom {d : V} {b : Option Nat} {m : SMap V} {k : Nat} (h : wfFrom d b m = true) (hk : ¬ Above b k) :
    get d m k = d := by
  induction m generalizing b with
  | nil => rfl
  | cons e m ih =>
    obtain ⟨j, v⟩ := e
    rw [wfFrom_cons] at h
    have hj : j ≠ k := fun e => hk (e ▸ h.1)
    rw [get_cons, if_neg hj]
    refine ih h.2.2 fun hjk => hk ?_
    intro a ha
    exact Nat.lt_trans (h.1 a ha) (hjk j rfl)

/-- Canonical tables that read alike are equal data. -/
theorem wf_ext {d : V} {m n : SMap V} (hm : wf d m = true) (hn : wf d n = true) (h : ∀ k, get d m k = get d n k) :
    m = n := by
  suffices H : ∀ (m n : SMap V) (b : Option Nat), wfFrom d b m = true → wfFrom d b n = true →
      (∀ k, get d m k = get d n k) → m = n from H m n none hm hn h
  intro m
  induction m with
  | nil =>
    intro n b _ hn h
    cases n with
    | nil => rfl
    | cons e n =>
      obtain ⟨j, v⟩ := e
      rw [wfFrom_cons] at hn
      have := h j
      simp [get_cons] at this
      exact absurd this.symm hn.2.1
  | cons e m ih =>
    obtain ⟨j, v⟩ := e
    intro n b hm hn h
    rw [wfFrom_cons] at hm
    cases n with
    | nil =>
      have := h j
      simp [get_cons] at this
      exact absurd this hm.2.1
    | cons e n =>
      obtain ⟨i, w⟩ := e
      rw [wfFrom_cons] at hn
      have hji : j = i := by
        rcases Nat.lt_trichotomy j i with hlt | heq | hgt
        · have h1 := h j
          rw [get_cons, if_pos rfl, get_cons, if_neg (by omega),
            get_of_wfFrom hn.2.2 (fun hab => absurd (hab i rfl) (by omega))] at h1
          exact absurd h1 hm.2.1
        · exact heq
        · have h1 := h i
          rw [get_cons, if_neg (by omega), get_of_wfFrom hm.2.2 (fun hab => absurd (hab j rfl) (by omega)), get_cons,
            if_pos rfl] at h1
          exact absurd h1.symm hn.2.1
      subst hji
      have hv : v = w := by
        have := h j
        simpa [get_cons] using this
      subst hv
      have : m = n := by
        refine ih n (some j) hm.2.2 hn.2.2 fun k => ?_
        by_cases hk : j = k
        · subst hk
          rw [get_of_wfFrom hm.2.2 (fun hab => absurd (hab j rfl) (Nat.lt_irrefl _)),
            get_of_wfFrom hn.2.2 (fun hab => absurd (hab j rfl) (Nat.lt_irrefl _))]
        · have := h k
          simpa [get_cons, hk] using this
      rw [this]

end SMap
end Sys2Proof.Machine
end

