-- ==== Sys2Proof/Laws/State.lean ====
section
/-! SUPPORT. What each update of State leaves alone, field by field, and what the accessors read after it. -/

namespace Sys2Proof.Machine
namespace State

variable (s : State)

/-! ## setProc -/

@[simp] theorem setProc_lookups (p : Nat) (x : Proc) : (s.setProc p x).lookups = s.lookups := rfl
@[simp] theorem setProc_clusters (p : Nat) (x : Proc) : (s.setProc p x).clusters = s.clusters := rfl
@[simp] theorem setProc_ctxs (p : Nat) (x : Proc) : (s.setProc p x).ctxs = s.ctxs := rfl
@[simp] theorem setProc_saved (p : Nat) (x : Proc) : (s.setProc p x).saved = s.saved := rfl
@[simp] theorem setProc_startTvec (p : Nat) (x : Proc) : (s.setProc p x).startTvec = s.startTvec := rfl
@[simp] theorem setProc_steppers (p : Nat) (x : Proc) : (s.setProc p x).steppers = s.steppers := rfl
@[simp] theorem setProc_mem (p : Nat) (x : Proc) : (s.setProc p x).mem = s.mem := rfl
@[simp] theorem setProc_fl (p : Nat) (x : Proc) : (s.setProc p x).fl = s.fl := rfl
@[simp] theorem setProc_mod (p : Nat) (x : Proc) : (s.setProc p x).mod = s.mod := rfl
@[simp] theorem setProc_links (p : Nat) (x : Proc) : (s.setProc p x).links = s.links := rfl
@[simp] theorem setProc_agenda (p : Nat) (x : Proc) : (s.setProc p x).agenda = s.agenda := rfl
@[simp] theorem setProc_actor (p : Nat) (x : Proc) : (s.setProc p x).actor = s.actor := rfl
@[simp] theorem setProc_free (p : Nat) (x : Proc) : (s.setProc p x).free = s.free := rfl
@[simp] theorem setProc_out (p : Nat) (x : Proc) : (s.setProc p x).out = s.out := rfl
@[simp] theorem setProc_lookup (p : Nat) (x : Proc) (j : Nat) : (s.setProc p x).lookup j = s.lookup j := rfl
@[simp] theorem setProc_cluster (p : Nat) (x : Proc) (j : Nat) : (s.setProc p x).cluster j = s.cluster j := rfl
@[simp] theorem setProc_ctx (p : Nat) (x : Proc) (j : Nat) : (s.setProc p x).ctx j = s.ctx j := rfl
@[simp] theorem setProc_stepper (p : Nat) (x : Proc) (j : Nat) : (s.setProc p x).stepper j = s.stepper j := rfl
@[simp] theorem setProc_gts (p : Nat) (x : Proc) : (s.setProc p x).gts = s.gts := rfl

/-! ## modProc -/

@[simp] theorem modProc_lookups (p : Nat) (f : Proc → Proc) : (s.modProc p f).lookups = s.lookups := rfl
@[simp] theorem modProc_clusters (p : Nat) (f : Proc → Proc) : (s.modProc p f).clusters = s.clusters := rfl
@[simp] theorem modProc_ctxs (p : Nat) (f : Proc → Proc) : (s.modProc p f).ctxs = s.ctxs := rfl
@[simp] theorem modProc_saved (p : Nat) (f : Proc → Proc) : (s.modProc p f).saved = s.saved := rfl
@[simp] theorem modProc_startTvec (p : Nat) (f : Proc → Proc) : (s.modProc p f).startTvec = s.startTvec := rfl
@[simp] theorem modProc_steppers (p : Nat) (f : Proc → Proc) : (s.modProc p f).steppers = s.steppers := rfl
@[simp] theorem modProc_mem (p : Nat) (f : Proc → Proc) : (s.modProc p f).mem = s.mem := rfl
@[simp] theorem modProc_fl (p : Nat) (f : Proc → Proc) : (s.modProc p f).fl = s.fl := rfl
@[simp] theorem modProc_mod (p : Nat) (f : Proc → Proc) : (s.modProc p f).mod = s.mod := rfl
@[simp] theorem modProc_links (p : Nat) (f : Proc → Proc) : (s.modProc p f).links = s.links := rfl
@[simp] theorem modProc_agenda (p : Nat) (f : Proc → Proc) : (s.modProc p f).agenda = s.agenda := rfl
@[simp] theorem modProc_actor (p : Nat) (f : Proc → Proc) : (s.modProc p f).actor = s.actor := rfl
@[simp] theorem modProc_free (p : Nat) (f : Proc → Proc) : (s.modProc p f).free = s.free := rfl
@[simp] theorem modProc_out (p : Nat) (f : Proc → Proc) : (s.modProc p f).out = s.out := rfl
@[simp] theorem modProc_lookup (p : Nat) (f : Proc → Proc) (j : Nat) : (s.modProc p f).lookup j = s.lookup j := rfl
@[simp] theorem modProc_cluster (p : Nat) (f : Proc → Proc) (j : Nat) : (s.modProc p f).cluster j = s.cluster j := rfl
@[simp] theorem modProc_ctx (p : Nat) (f : Proc → Proc) (j : Nat) : (s.modProc p f).ctx j = s.ctx j := rfl
@[simp] theorem modProc_stepper (p : Nat) (f : Proc → Proc) (j : Nat) : (s.modProc p f).stepper j = s.stepper j := rfl
@[simp] theorem modProc_gts (p : Nat) (f : Proc → Proc) : (s.modProc p f).gts = s.gts := rfl

/-! ## modCC -/

@[simp] theorem modCC_lookups (p : Nat) (f : CCRegs → CCRegs) : (s.modCC p f).lookups = s.lookups := rfl
@[simp] theorem modCC_clusters (p : Nat) (f : CCRegs → CCRegs) : (s.modCC p f).clusters = s.clusters := rfl
@[simp] theorem modCC_ctxs (p : Nat) (f : CCRegs → CCRegs) : (s.modCC p f).ctxs = s.ctxs := rfl
@[simp] theorem modCC_saved (p : Nat) (f : CCRegs → CCRegs) : (s.modCC p f).saved = s.saved := rfl
@[simp] theorem modCC_startTvec (p : Nat) (f : CCRegs → CCRegs) : (s.modCC p f).startTvec = s.startTvec := rfl
@[simp] theorem modCC_steppers (p : Nat) (f : CCRegs → CCRegs) : (s.modCC p f).steppers = s.steppers := rfl
@[simp] theorem modCC_mem (p : Nat) (f : CCRegs → CCRegs) : (s.modCC p f).mem = s.mem := rfl
@[simp] theorem modCC_fl (p : Nat) (f : CCRegs → CCRegs) : (s.modCC p f).fl = s.fl := rfl
@[simp] theorem modCC_mod (p : Nat) (f : CCRegs → CCRegs) : (s.modCC p f).mod = s.mod := rfl
@[simp] theorem modCC_links (p : Nat) (f : CCRegs → CCRegs) : (s.modCC p f).links = s.links := rfl
@[simp] theorem modCC_agenda (p : Nat) (f : CCRegs → CCRegs) : (s.modCC p f).agenda = s.agenda := rfl
@[simp] theorem modCC_actor (p : Nat) (f : CCRegs → CCRegs) : (s.modCC p f).actor = s.actor := rfl
@[simp] theorem modCC_free (p : Nat) (f : CCRegs → CCRegs) : (s.modCC p f).free = s.free := rfl
@[simp] theorem modCC_out (p : Nat) (f : CCRegs → CCRegs) : (s.modCC p f).out = s.out := rfl
@[simp] theorem modCC_lookup (p : Nat) (f : CCRegs → CCRegs) (j : Nat) : (s.modCC p f).lookup j = s.lookup j := rfl
@[simp] theorem modCC_cluster (p : Nat) (f : CCRegs → CCRegs) (j : Nat) : (s.modCC p f).cluster j = s.cluster j := rfl
@[simp] theorem modCC_ctx (p : Nat) (f : CCRegs → CCRegs) (j : Nat) : (s.modCC p f).ctx j = s.ctx j := rfl
@[simp] theorem modCC_stepper (p : Nat) (f : CCRegs → CCRegs) (j : Nat) : (s.modCC p f).stepper j = s.stepper j := rfl
@[simp] theorem modCC_gts (p : Nat) (f : CCRegs → CCRegs) : (s.modCC p f).gts = s.gts := rfl

/-! ## modVE -/

@[simp] theorem modVE_lookups (p : Nat) (f : VERegs → VERegs) : (s.modVE p f).lookups = s.lookups := rfl
@[simp] theorem modVE_clusters (p : Nat) (f : VERegs → VERegs) : (s.modVE p f).clusters = s.clusters := rfl
@[simp] theorem modVE_ctxs (p : Nat) (f : VERegs → VERegs) : (s.modVE p f).ctxs = s.ctxs := rfl
@[simp] theorem modVE_saved (p : Nat) (f : VERegs → VERegs) : (s.modVE p f).saved = s.saved := rfl
@[simp] theorem modVE_startTvec (p : Nat) (f : VERegs → VERegs) : (s.modVE p f).startTvec = s.startTvec := rfl
@[simp] theorem modVE_steppers (p : Nat) (f : VERegs → VERegs) : (s.modVE p f).steppers = s.steppers := rfl
@[simp] theorem modVE_mem (p : Nat) (f : VERegs → VERegs) : (s.modVE p f).mem = s.mem := rfl
@[simp] theorem modVE_fl (p : Nat) (f : VERegs → VERegs) : (s.modVE p f).fl = s.fl := rfl
@[simp] theorem modVE_mod (p : Nat) (f : VERegs → VERegs) : (s.modVE p f).mod = s.mod := rfl
@[simp] theorem modVE_links (p : Nat) (f : VERegs → VERegs) : (s.modVE p f).links = s.links := rfl
@[simp] theorem modVE_agenda (p : Nat) (f : VERegs → VERegs) : (s.modVE p f).agenda = s.agenda := rfl
@[simp] theorem modVE_actor (p : Nat) (f : VERegs → VERegs) : (s.modVE p f).actor = s.actor := rfl
@[simp] theorem modVE_free (p : Nat) (f : VERegs → VERegs) : (s.modVE p f).free = s.free := rfl
@[simp] theorem modVE_out (p : Nat) (f : VERegs → VERegs) : (s.modVE p f).out = s.out := rfl
@[simp] theorem modVE_lookup (p : Nat) (f : VERegs → VERegs) (j : Nat) : (s.modVE p f).lookup j = s.lookup j := rfl
@[simp] theorem modVE_cluster (p : Nat) (f : VERegs → VERegs) (j : Nat) : (s.modVE p f).cluster j = s.cluster j := rfl
@[simp] theorem modVE_ctx (p : Nat) (f : VERegs → VERegs) (j : Nat) : (s.modVE p f).ctx j = s.ctx j := rfl
@[simp] theorem modVE_stepper (p : Nat) (f : VERegs → VERegs) (j : Nat) : (s.modVE p f).stepper j = s.stepper j := rfl
@[simp] theorem modVE_gts (p : Nat) (f : VERegs → VERegs) : (s.modVE p f).gts = s.gts := rfl

/-! ## modSync -/

@[simp] theorem modSync_lookups (p : Nat) (f : Sync → Sync) : (s.modSync p f).lookups = s.lookups := rfl
@[simp] theorem modSync_clusters (p : Nat) (f : Sync → Sync) : (s.modSync p f).clusters = s.clusters := rfl
@[simp] theorem modSync_ctxs (p : Nat) (f : Sync → Sync) : (s.modSync p f).ctxs = s.ctxs := rfl
@[simp] theorem modSync_saved (p : Nat) (f : Sync → Sync) : (s.modSync p f).saved = s.saved := rfl
@[simp] theorem modSync_startTvec (p : Nat) (f : Sync → Sync) : (s.modSync p f).startTvec = s.startTvec := rfl
@[simp] theorem modSync_steppers (p : Nat) (f : Sync → Sync) : (s.modSync p f).steppers = s.steppers := rfl
@[simp] theorem modSync_mem (p : Nat) (f : Sync → Sync) : (s.modSync p f).mem = s.mem := rfl
@[simp] theorem modSync_fl (p : Nat) (f : Sync → Sync) : (s.modSync p f).fl = s.fl := rfl
@[simp] theorem modSync_mod (p : Nat) (f : Sync → Sync) : (s.modSync p f).mod = s.mod := rfl
@[simp] theorem modSync_links (p : Nat) (f : Sync → Sync) : (s.modSync p f).links = s.links := rfl
@[simp] theorem modSync_agenda (p : Nat) (f : Sync → Sync) : (s.modSync p f).agenda = s.agenda := rfl
@[simp] theorem modSync_actor (p : Nat) (f : Sync → Sync) : (s.modSync p f).actor = s.actor := rfl
@[simp] theorem modSync_free (p : Nat) (f : Sync → Sync) : (s.modSync p f).free = s.free := rfl
@[simp] theorem modSync_out (p : Nat) (f : Sync → Sync) : (s.modSync p f).out = s.out := rfl
@[simp] theorem modSync_lookup (p : Nat) (f : Sync → Sync) (j : Nat) : (s.modSync p f).lookup j = s.lookup j := rfl
@[simp] theorem modSync_cluster (p : Nat) (f : Sync → Sync) (j : Nat) : (s.modSync p f).cluster j = s.cluster j := rfl
@[simp] theorem modSync_ctx (p : Nat) (f : Sync → Sync) (j : Nat) : (s.modSync p f).ctx j = s.ctx j := rfl
@[simp] theorem modSync_stepper (p : Nat) (f : Sync → Sync) (j : Nat) : (s.modSync p f).stepper j = s.stepper j := rfl
@[simp] theorem modSync_gts (p : Nat) (f : Sync → Sync) : (s.modSync p f).gts = s.gts := rfl

/-! ## modCoh -/

@[simp] theorem modCoh_lookups (p : Nat) (f : Coh → Coh) : (s.modCoh p f).lookups = s.lookups := rfl
@[simp] theorem modCoh_clusters (p : Nat) (f : Coh → Coh) : (s.modCoh p f).clusters = s.clusters := rfl
@[simp] theorem modCoh_ctxs (p : Nat) (f : Coh → Coh) : (s.modCoh p f).ctxs = s.ctxs := rfl
@[simp] theorem modCoh_saved (p : Nat) (f : Coh → Coh) : (s.modCoh p f).saved = s.saved := rfl
@[simp] theorem modCoh_startTvec (p : Nat) (f : Coh → Coh) : (s.modCoh p f).startTvec = s.startTvec := rfl
@[simp] theorem modCoh_steppers (p : Nat) (f : Coh → Coh) : (s.modCoh p f).steppers = s.steppers := rfl
@[simp] theorem modCoh_mem (p : Nat) (f : Coh → Coh) : (s.modCoh p f).mem = s.mem := rfl
@[simp] theorem modCoh_fl (p : Nat) (f : Coh → Coh) : (s.modCoh p f).fl = s.fl := rfl
@[simp] theorem modCoh_mod (p : Nat) (f : Coh → Coh) : (s.modCoh p f).mod = s.mod := rfl
@[simp] theorem modCoh_links (p : Nat) (f : Coh → Coh) : (s.modCoh p f).links = s.links := rfl
@[simp] theorem modCoh_agenda (p : Nat) (f : Coh → Coh) : (s.modCoh p f).agenda = s.agenda := rfl
@[simp] theorem modCoh_actor (p : Nat) (f : Coh → Coh) : (s.modCoh p f).actor = s.actor := rfl
@[simp] theorem modCoh_free (p : Nat) (f : Coh → Coh) : (s.modCoh p f).free = s.free := rfl
@[simp] theorem modCoh_out (p : Nat) (f : Coh → Coh) : (s.modCoh p f).out = s.out := rfl
@[simp] theorem modCoh_lookup (p : Nat) (f : Coh → Coh) (j : Nat) : (s.modCoh p f).lookup j = s.lookup j := rfl
@[simp] theorem modCoh_cluster (p : Nat) (f : Coh → Coh) (j : Nat) : (s.modCoh p f).cluster j = s.cluster j := rfl
@[simp] theorem modCoh_ctx (p : Nat) (f : Coh → Coh) (j : Nat) : (s.modCoh p f).ctx j = s.ctx j := rfl
@[simp] theorem modCoh_stepper (p : Nat) (f : Coh → Coh) (j : Nat) : (s.modCoh p f).stepper j = s.stepper j := rfl
@[simp] theorem modCoh_gts (p : Nat) (f : Coh → Coh) : (s.modCoh p f).gts = s.gts := rfl

/-! ## modQ -/

@[simp] theorem modQ_lookups (p : Nat) (f : Queues → Queues) : (s.modQ p f).lookups = s.lookups := rfl
@[simp] theorem modQ_clusters (p : Nat) (f : Queues → Queues) : (s.modQ p f).clusters = s.clusters := rfl
@[simp] theorem modQ_ctxs (p : Nat) (f : Queues → Queues) : (s.modQ p f).ctxs = s.ctxs := rfl
@[simp] theorem modQ_saved (p : Nat) (f : Queues → Queues) : (s.modQ p f).saved = s.saved := rfl
@[simp] theorem modQ_startTvec (p : Nat) (f : Queues → Queues) : (s.modQ p f).startTvec = s.startTvec := rfl
@[simp] theorem modQ_steppers (p : Nat) (f : Queues → Queues) : (s.modQ p f).steppers = s.steppers := rfl
@[simp] theorem modQ_mem (p : Nat) (f : Queues → Queues) : (s.modQ p f).mem = s.mem := rfl
@[simp] theorem modQ_fl (p : Nat) (f : Queues → Queues) : (s.modQ p f).fl = s.fl := rfl
@[simp] theorem modQ_mod (p : Nat) (f : Queues → Queues) : (s.modQ p f).mod = s.mod := rfl
@[simp] theorem modQ_links (p : Nat) (f : Queues → Queues) : (s.modQ p f).links = s.links := rfl
@[simp] theorem modQ_agenda (p : Nat) (f : Queues → Queues) : (s.modQ p f).agenda = s.agenda := rfl
@[simp] theorem modQ_actor (p : Nat) (f : Queues → Queues) : (s.modQ p f).actor = s.actor := rfl
@[simp] theorem modQ_free (p : Nat) (f : Queues → Queues) : (s.modQ p f).free = s.free := rfl
@[simp] theorem modQ_out (p : Nat) (f : Queues → Queues) : (s.modQ p f).out = s.out := rfl
@[simp] theorem modQ_lookup (p : Nat) (f : Queues → Queues) (j : Nat) : (s.modQ p f).lookup j = s.lookup j := rfl
@[simp] theorem modQ_cluster (p : Nat) (f : Queues → Queues) (j : Nat) : (s.modQ p f).cluster j = s.cluster j := rfl
@[simp] theorem modQ_ctx (p : Nat) (f : Queues → Queues) (j : Nat) : (s.modQ p f).ctx j = s.ctx j := rfl
@[simp] theorem modQ_stepper (p : Nat) (f : Queues → Queues) (j : Nat) : (s.modQ p f).stepper j = s.stepper j := rfl
@[simp] theorem modQ_gts (p : Nat) (f : Queues → Queues) : (s.modQ p f).gts = s.gts := rfl

/-! ## modEng -/

@[simp] theorem modEng_lookups (p : Nat) (f : Engines → Engines) : (s.modEng p f).lookups = s.lookups := rfl
@[simp] theorem modEng_clusters (p : Nat) (f : Engines → Engines) : (s.modEng p f).clusters = s.clusters := rfl
@[simp] theorem modEng_ctxs (p : Nat) (f : Engines → Engines) : (s.modEng p f).ctxs = s.ctxs := rfl
@[simp] theorem modEng_saved (p : Nat) (f : Engines → Engines) : (s.modEng p f).saved = s.saved := rfl
@[simp] theorem modEng_startTvec (p : Nat) (f : Engines → Engines) : (s.modEng p f).startTvec = s.startTvec := rfl
@[simp] theorem modEng_steppers (p : Nat) (f : Engines → Engines) : (s.modEng p f).steppers = s.steppers := rfl
@[simp] theorem modEng_mem (p : Nat) (f : Engines → Engines) : (s.modEng p f).mem = s.mem := rfl
@[simp] theorem modEng_fl (p : Nat) (f : Engines → Engines) : (s.modEng p f).fl = s.fl := rfl
@[simp] theorem modEng_mod (p : Nat) (f : Engines → Engines) : (s.modEng p f).mod = s.mod := rfl
@[simp] theorem modEng_links (p : Nat) (f : Engines → Engines) : (s.modEng p f).links = s.links := rfl
@[simp] theorem modEng_agenda (p : Nat) (f : Engines → Engines) : (s.modEng p f).agenda = s.agenda := rfl
@[simp] theorem modEng_actor (p : Nat) (f : Engines → Engines) : (s.modEng p f).actor = s.actor := rfl
@[simp] theorem modEng_free (p : Nat) (f : Engines → Engines) : (s.modEng p f).free = s.free := rfl
@[simp] theorem modEng_out (p : Nat) (f : Engines → Engines) : (s.modEng p f).out = s.out := rfl
@[simp] theorem modEng_lookup (p : Nat) (f : Engines → Engines) (j : Nat) : (s.modEng p f).lookup j = s.lookup j := rfl
@[simp] theorem modEng_cluster (p : Nat) (f : Engines → Engines) (j : Nat) : (s.modEng p f).cluster j = s.cluster j := rfl
@[simp] theorem modEng_ctx (p : Nat) (f : Engines → Engines) (j : Nat) : (s.modEng p f).ctx j = s.ctx j := rfl
@[simp] theorem modEng_stepper (p : Nat) (f : Engines → Engines) (j : Nat) : (s.modEng p f).stepper j = s.stepper j := rfl
@[simp] theorem modEng_gts (p : Nat) (f : Engines → Engines) : (s.modEng p f).gts = s.gts := rfl

/-! ## setBrick -/

@[simp] theorem setBrick_lookups (p : Nat) (t : BitVec 3) (b : Option BrickReg) : (s.setBrick p t b).lookups = s.lookups := rfl
@[simp] theorem setBrick_clusters (p : Nat) (t : BitVec 3) (b : Option BrickReg) : (s.setBrick p t b).clusters = s.clusters := rfl
@[simp] theorem setBrick_ctxs (p : Nat) (t : BitVec 3) (b : Option BrickReg) : (s.setBrick p t b).ctxs = s.ctxs := rfl
@[simp] theorem setBrick_saved (p : Nat) (t : BitVec 3) (b : Option BrickReg) : (s.setBrick p t b).saved = s.saved := rfl
@[simp] theorem setBrick_startTvec (p : Nat) (t : BitVec 3) (b : Option BrickReg) : (s.setBrick p t b).startTvec = s.startTvec := rfl
@[simp] theorem setBrick_steppers (p : Nat) (t : BitVec 3) (b : Option BrickReg) : (s.setBrick p t b).steppers = s.steppers := rfl
@[simp] theorem setBrick_mem (p : Nat) (t : BitVec 3) (b : Option BrickReg) : (s.setBrick p t b).mem = s.mem := rfl
@[simp] theorem setBrick_fl (p : Nat) (t : BitVec 3) (b : Option BrickReg) : (s.setBrick p t b).fl = s.fl := rfl
@[simp] theorem setBrick_mod (p : Nat) (t : BitVec 3) (b : Option BrickReg) : (s.setBrick p t b).mod = s.mod := rfl
@[simp] theorem setBrick_links (p : Nat) (t : BitVec 3) (b : Option BrickReg) : (s.setBrick p t b).links = s.links := rfl
@[simp] theorem setBrick_agenda (p : Nat) (t : BitVec 3) (b : Option BrickReg) : (s.setBrick p t b).agenda = s.agenda := rfl
@[simp] theorem setBrick_actor (p : Nat) (t : BitVec 3) (b : Option BrickReg) : (s.setBrick p t b).actor = s.actor := rfl
@[simp] theorem setBrick_free (p : Nat) (t : BitVec 3) (b : Option BrickReg) : (s.setBrick p t b).free = s.free := rfl
@[simp] theorem setBrick_out (p : Nat) (t : BitVec 3) (b : Option BrickReg) : (s.setBrick p t b).out = s.out := rfl
@[simp] theorem setBrick_lookup (p : Nat) (t : BitVec 3) (b : Option BrickReg) (j : Nat) : (s.setBrick p t b).lookup j = s.lookup j := rfl
@[simp] theorem setBrick_cluster (p : Nat) (t : BitVec 3) (b : Option BrickReg) (j : Nat) : (s.setBrick p t b).cluster j = s.cluster j := rfl
@[simp] theorem setBrick_ctx (p : Nat) (t : BitVec 3) (b : Option BrickReg) (j : Nat) : (s.setBrick p t b).ctx j = s.ctx j := rfl
@[simp] theorem setBrick_stepper (p : Nat) (t : BitVec 3) (b : Option BrickReg) (j : Nat) : (s.setBrick p t b).stepper j = s.stepper j := rfl
@[simp] theorem setBrick_gts (p : Nat) (t : BitVec 3) (b : Option BrickReg) : (s.setBrick p t b).gts = s.gts := rfl

/-! ## modLookup -/

@[simp] theorem modLookup_procs (k : Nat) (f : Lookup → Lookup) : (s.modLookup k f).procs = s.procs := rfl
@[simp] theorem modLookup_clusters (k : Nat) (f : Lookup → Lookup) : (s.modLookup k f).clusters = s.clusters := rfl
@[simp] theorem modLookup_ctxs (k : Nat) (f : Lookup → Lookup) : (s.modLookup k f).ctxs = s.ctxs := rfl
@[simp] theorem modLookup_saved (k : Nat) (f : Lookup → Lookup) : (s.modLookup k f).saved = s.saved := rfl
@[simp] theorem modLookup_startTvec (k : Nat) (f : Lookup → Lookup) : (s.modLookup k f).startTvec = s.startTvec := rfl
@[simp] theorem modLookup_steppers (k : Nat) (f : Lookup → Lookup) : (s.modLookup k f).steppers = s.steppers := rfl
@[simp] theorem modLookup_mem (k : Nat) (f : Lookup → Lookup) : (s.modLookup k f).mem = s.mem := rfl
@[simp] theorem modLookup_fl (k : Nat) (f : Lookup → Lookup) : (s.modLookup k f).fl = s.fl := rfl
@[simp] theorem modLookup_mod (k : Nat) (f : Lookup → Lookup) : (s.modLookup k f).mod = s.mod := rfl
@[simp] theorem modLookup_links (k : Nat) (f : Lookup → Lookup) : (s.modLookup k f).links = s.links := rfl
@[simp] theorem modLookup_agenda (k : Nat) (f : Lookup → Lookup) : (s.modLookup k f).agenda = s.agenda := rfl
@[simp] theorem modLookup_actor (k : Nat) (f : Lookup → Lookup) : (s.modLookup k f).actor = s.actor := rfl
@[simp] theorem modLookup_free (k : Nat) (f : Lookup → Lookup) : (s.modLookup k f).free = s.free := rfl
@[simp] theorem modLookup_out (k : Nat) (f : Lookup → Lookup) : (s.modLookup k f).out = s.out := rfl
@[simp] theorem modLookup_proc (k : Nat) (f : Lookup → Lookup) (j : Nat) : (s.modLookup k f).proc j = s.proc j := rfl
@[simp] theorem modLookup_cc (k : Nat) (f : Lookup → Lookup) (j : Nat) : (s.modLookup k f).cc j = s.cc j := rfl
@[simp] theorem modLookup_ve (k : Nat) (f : Lookup → Lookup) (j : Nat) : (s.modLookup k f).ve j = s.ve j := rfl
@[simp] theorem modLookup_sync (k : Nat) (f : Lookup → Lookup) (j : Nat) : (s.modLookup k f).sync j = s.sync j := rfl
@[simp] theorem modLookup_cluster (k : Nat) (f : Lookup → Lookup) (j : Nat) : (s.modLookup k f).cluster j = s.cluster j := rfl
@[simp] theorem modLookup_ctx (k : Nat) (f : Lookup → Lookup) (j : Nat) : (s.modLookup k f).ctx j = s.ctx j := rfl
@[simp] theorem modLookup_stepper (k : Nat) (f : Lookup → Lookup) (j : Nat) : (s.modLookup k f).stepper j = s.stepper j := rfl
@[simp] theorem modLookup_gts (k : Nat) (f : Lookup → Lookup) : (s.modLookup k f).gts = s.gts := rfl

/-! ## modCluster -/

@[simp] theorem modCluster_procs (c : Nat) (f : Cluster → Cluster) : (s.modCluster c f).procs = s.procs := rfl
@[simp] theorem modCluster_lookups (c : Nat) (f : Cluster → Cluster) : (s.modCluster c f).lookups = s.lookups := rfl
@[simp] theorem modCluster_ctxs (c : Nat) (f : Cluster → Cluster) : (s.modCluster c f).ctxs = s.ctxs := rfl
@[simp] theorem modCluster_saved (c : Nat) (f : Cluster → Cluster) : (s.modCluster c f).saved = s.saved := rfl
@[simp] theorem modCluster_startTvec (c : Nat) (f : Cluster → Cluster) : (s.modCluster c f).startTvec = s.startTvec := rfl
@[simp] theorem modCluster_steppers (c : Nat) (f : Cluster → Cluster) : (s.modCluster c f).steppers = s.steppers := rfl
@[simp] theorem modCluster_mem (c : Nat) (f : Cluster → Cluster) : (s.modCluster c f).mem = s.mem := rfl
@[simp] theorem modCluster_fl (c : Nat) (f : Cluster → Cluster) : (s.modCluster c f).fl = s.fl := rfl
@[simp] theorem modCluster_mod (c : Nat) (f : Cluster → Cluster) : (s.modCluster c f).mod = s.mod := rfl
@[simp] theorem modCluster_links (c : Nat) (f : Cluster → Cluster) : (s.modCluster c f).links = s.links := rfl
@[simp] theorem modCluster_agenda (c : Nat) (f : Cluster → Cluster) : (s.modCluster c f).agenda = s.agenda := rfl
@[simp] theorem modCluster_actor (c : Nat) (f : Cluster → Cluster) : (s.modCluster c f).actor = s.actor := rfl
@[simp] theorem modCluster_free (c : Nat) (f : Cluster → Cluster) : (s.modCluster c f).free = s.free := rfl
@[simp] theorem modCluster_out (c : Nat) (f : Cluster → Cluster) : (s.modCluster c f).out = s.out := rfl
@[simp] theorem modCluster_proc (c : Nat) (f : Cluster → Cluster) (j : Nat) : (s.modCluster c f).proc j = s.proc j := rfl
@[simp] theorem modCluster_cc (c : Nat) (f : Cluster → Cluster) (j : Nat) : (s.modCluster c f).cc j = s.cc j := rfl
@[simp] theorem modCluster_ve (c : Nat) (f : Cluster → Cluster) (j : Nat) : (s.modCluster c f).ve j = s.ve j := rfl
@[simp] theorem modCluster_sync (c : Nat) (f : Cluster → Cluster) (j : Nat) : (s.modCluster c f).sync j = s.sync j := rfl
@[simp] theorem modCluster_lookup (c : Nat) (f : Cluster → Cluster) (j : Nat) : (s.modCluster c f).lookup j = s.lookup j := rfl
@[simp] theorem modCluster_ctx (c : Nat) (f : Cluster → Cluster) (j : Nat) : (s.modCluster c f).ctx j = s.ctx j := rfl
@[simp] theorem modCluster_stepper (c : Nat) (f : Cluster → Cluster) (j : Nat) : (s.modCluster c f).stepper j = s.stepper j := rfl
@[simp] theorem modCluster_gts (c : Nat) (f : Cluster → Cluster) : (s.modCluster c f).gts = s.gts := rfl

/-! ## modPress -/

@[simp] theorem modPress_procs (c : Nat) (f : Press → Press) : (s.modPress c f).procs = s.procs := rfl
@[simp] theorem modPress_lookups (c : Nat) (f : Press → Press) : (s.modPress c f).lookups = s.lookups := rfl
@[simp] theorem modPress_ctxs (c : Nat) (f : Press → Press) : (s.modPress c f).ctxs = s.ctxs := rfl
@[simp] theorem modPress_saved (c : Nat) (f : Press → Press) : (s.modPress c f).saved = s.saved := rfl
@[simp] theorem modPress_startTvec (c : Nat) (f : Press → Press) : (s.modPress c f).startTvec = s.startTvec := rfl
@[simp] theorem modPress_steppers (c : Nat) (f : Press → Press) : (s.modPress c f).steppers = s.steppers := rfl
@[simp] theorem modPress_mem (c : Nat) (f : Press → Press) : (s.modPress c f).mem = s.mem := rfl
@[simp] theorem modPress_fl (c : Nat) (f : Press → Press) : (s.modPress c f).fl = s.fl := rfl
@[simp] theorem modPress_mod (c : Nat) (f : Press → Press) : (s.modPress c f).mod = s.mod := rfl
@[simp] theorem modPress_links (c : Nat) (f : Press → Press) : (s.modPress c f).links = s.links := rfl
@[simp] theorem modPress_agenda (c : Nat) (f : Press → Press) : (s.modPress c f).agenda = s.agenda := rfl
@[simp] theorem modPress_actor (c : Nat) (f : Press → Press) : (s.modPress c f).actor = s.actor := rfl
@[simp] theorem modPress_free (c : Nat) (f : Press → Press) : (s.modPress c f).free = s.free := rfl
@[simp] theorem modPress_out (c : Nat) (f : Press → Press) : (s.modPress c f).out = s.out := rfl
@[simp] theorem modPress_proc (c : Nat) (f : Press → Press) (j : Nat) : (s.modPress c f).proc j = s.proc j := rfl
@[simp] theorem modPress_cc (c : Nat) (f : Press → Press) (j : Nat) : (s.modPress c f).cc j = s.cc j := rfl
@[simp] theorem modPress_ve (c : Nat) (f : Press → Press) (j : Nat) : (s.modPress c f).ve j = s.ve j := rfl
@[simp] theorem modPress_sync (c : Nat) (f : Press → Press) (j : Nat) : (s.modPress c f).sync j = s.sync j := rfl
@[simp] theorem modPress_lookup (c : Nat) (f : Press → Press) (j : Nat) : (s.modPress c f).lookup j = s.lookup j := rfl
@[simp] theorem modPress_ctx (c : Nat) (f : Press → Press) (j : Nat) : (s.modPress c f).ctx j = s.ctx j := rfl
@[simp] theorem modPress_stepper (c : Nat) (f : Press → Press) (j : Nat) : (s.modPress c f).stepper j = s.stepper j := rfl
@[simp] theorem modPress_gts (c : Nat) (f : Press → Press) : (s.modPress c f).gts = s.gts := rfl

/-! ## modCtx -/

@[simp] theorem modCtx_procs (x : Nat) (f : Ctx → Ctx) : (s.modCtx x f).procs = s.procs := rfl
@[simp] theorem modCtx_lookups (x : Nat) (f : Ctx → Ctx) : (s.modCtx x f).lookups = s.lookups := rfl
@[simp] theorem modCtx_clusters (x : Nat) (f : Ctx → Ctx) : (s.modCtx x f).clusters = s.clusters := rfl
@[simp] theorem modCtx_saved (x : Nat) (f : Ctx → Ctx) : (s.modCtx x f).saved = s.saved := rfl
@[simp] theorem modCtx_startTvec (x : Nat) (f : Ctx → Ctx) : (s.modCtx x f).startTvec = s.startTvec := rfl
@[simp] theorem modCtx_steppers (x : Nat) (f : Ctx → Ctx) : (s.modCtx x f).steppers = s.steppers := rfl
@[simp] theorem modCtx_mem (x : Nat) (f : Ctx → Ctx) : (s.modCtx x f).mem = s.mem := rfl
@[simp] theorem modCtx_fl (x : Nat) (f : Ctx → Ctx) : (s.modCtx x f).fl = s.fl := rfl
@[simp] theorem modCtx_mod (x : Nat) (f : Ctx → Ctx) : (s.modCtx x f).mod = s.mod := rfl
@[simp] theorem modCtx_links (x : Nat) (f : Ctx → Ctx) : (s.modCtx x f).links = s.links := rfl
@[simp] theorem modCtx_agenda (x : Nat) (f : Ctx → Ctx) : (s.modCtx x f).agenda = s.agenda := rfl
@[simp] theorem modCtx_actor (x : Nat) (f : Ctx → Ctx) : (s.modCtx x f).actor = s.actor := rfl
@[simp] theorem modCtx_free (x : Nat) (f : Ctx → Ctx) : (s.modCtx x f).free = s.free := rfl
@[simp] theorem modCtx_out (x : Nat) (f : Ctx → Ctx) : (s.modCtx x f).out = s.out := rfl
@[simp] theorem modCtx_proc (x : Nat) (f : Ctx → Ctx) (j : Nat) : (s.modCtx x f).proc j = s.proc j := rfl
@[simp] theorem modCtx_cc (x : Nat) (f : Ctx → Ctx) (j : Nat) : (s.modCtx x f).cc j = s.cc j := rfl
@[simp] theorem modCtx_ve (x : Nat) (f : Ctx → Ctx) (j : Nat) : (s.modCtx x f).ve j = s.ve j := rfl
@[simp] theorem modCtx_sync (x : Nat) (f : Ctx → Ctx) (j : Nat) : (s.modCtx x f).sync j = s.sync j := rfl
@[simp] theorem modCtx_lookup (x : Nat) (f : Ctx → Ctx) (j : Nat) : (s.modCtx x f).lookup j = s.lookup j := rfl
@[simp] theorem modCtx_cluster (x : Nat) (f : Ctx → Ctx) (j : Nat) : (s.modCtx x f).cluster j = s.cluster j := rfl
@[simp] theorem modCtx_stepper (x : Nat) (f : Ctx → Ctx) (j : Nat) : (s.modCtx x f).stepper j = s.stepper j := rfl
@[simp] theorem modCtx_gts (x : Nat) (f : Ctx → Ctx) : (s.modCtx x f).gts = s.gts := rfl

/-! ## modStepper -/

@[simp] theorem modStepper_procs (q : Nat) (f : Stepper → Stepper) : (s.modStepper q f).procs = s.procs := rfl
@[simp] theorem modStepper_lookups (q : Nat) (f : Stepper → Stepper) : (s.modStepper q f).lookups = s.lookups := rfl
@[simp] theorem modStepper_clusters (q : Nat) (f : Stepper → Stepper) : (s.modStepper q f).clusters = s.clusters := rfl
@[simp] theorem modStepper_ctxs (q : Nat) (f : Stepper → Stepper) : (s.modStepper q f).ctxs = s.ctxs := rfl
@[simp] theorem modStepper_saved (q : Nat) (f : Stepper → Stepper) : (s.modStepper q f).saved = s.saved := rfl
@[simp] theorem modStepper_startTvec (q : Nat) (f : Stepper → Stepper) : (s.modStepper q f).startTvec = s.startTvec := rfl
@[simp] theorem modStepper_mem (q : Nat) (f : Stepper → Stepper) : (s.modStepper q f).mem = s.mem := rfl
@[simp] theorem modStepper_fl (q : Nat) (f : Stepper → Stepper) : (s.modStepper q f).fl = s.fl := rfl
@[simp] theorem modStepper_mod (q : Nat) (f : Stepper → Stepper) : (s.modStepper q f).mod = s.mod := rfl
@[simp] theorem modStepper_links (q : Nat) (f : Stepper → Stepper) : (s.modStepper q f).links = s.links := rfl
@[simp] theorem modStepper_agenda (q : Nat) (f : Stepper → Stepper) : (s.modStepper q f).agenda = s.agenda := rfl
@[simp] theorem modStepper_actor (q : Nat) (f : Stepper → Stepper) : (s.modStepper q f).actor = s.actor := rfl
@[simp] theorem modStepper_free (q : Nat) (f : Stepper → Stepper) : (s.modStepper q f).free = s.free := rfl
@[simp] theorem modStepper_out (q : Nat) (f : Stepper → Stepper) : (s.modStepper q f).out = s.out := rfl
@[simp] theorem modStepper_proc (q : Nat) (f : Stepper → Stepper) (j : Nat) : (s.modStepper q f).proc j = s.proc j := rfl
@[simp] theorem modStepper_cc (q : Nat) (f : Stepper → Stepper) (j : Nat) : (s.modStepper q f).cc j = s.cc j := rfl
@[simp] theorem modStepper_ve (q : Nat) (f : Stepper → Stepper) (j : Nat) : (s.modStepper q f).ve j = s.ve j := rfl
@[simp] theorem modStepper_sync (q : Nat) (f : Stepper → Stepper) (j : Nat) : (s.modStepper q f).sync j = s.sync j := rfl
@[simp] theorem modStepper_lookup (q : Nat) (f : Stepper → Stepper) (j : Nat) : (s.modStepper q f).lookup j = s.lookup j := rfl
@[simp] theorem modStepper_cluster (q : Nat) (f : Stepper → Stepper) (j : Nat) : (s.modStepper q f).cluster j = s.cluster j := rfl
@[simp] theorem modStepper_ctx (q : Nat) (f : Stepper → Stepper) (j : Nat) : (s.modStepper q f).ctx j = s.ctx j := rfl
@[simp] theorem modStepper_gts (q : Nat) (f : Stepper → Stepper) : (s.modStepper q f).gts = s.gts := rfl

/-! ## modMem -/

@[simp] theorem modMem_procs (f : Memory → Memory) : (s.modMem f).procs = s.procs := rfl
@[simp] theorem modMem_lookups (f : Memory → Memory) : (s.modMem f).lookups = s.lookups := rfl
@[simp] theorem modMem_clusters (f : Memory → Memory) : (s.modMem f).clusters = s.clusters := rfl
@[simp] theorem modMem_ctxs (f : Memory → Memory) : (s.modMem f).ctxs = s.ctxs := rfl
@[simp] theorem modMem_saved (f : Memory → Memory) : (s.modMem f).saved = s.saved := rfl
@[simp] theorem modMem_startTvec (f : Memory → Memory) : (s.modMem f).startTvec = s.startTvec := rfl
@[simp] theorem modMem_steppers (f : Memory → Memory) : (s.modMem f).steppers = s.steppers := rfl
@[simp] theorem modMem_fl (f : Memory → Memory) : (s.modMem f).fl = s.fl := rfl
@[simp] theorem modMem_mod (f : Memory → Memory) : (s.modMem f).mod = s.mod := rfl
@[simp] theorem modMem_links (f : Memory → Memory) : (s.modMem f).links = s.links := rfl
@[simp] theorem modMem_agenda (f : Memory → Memory) : (s.modMem f).agenda = s.agenda := rfl
@[simp] theorem modMem_actor (f : Memory → Memory) : (s.modMem f).actor = s.actor := rfl
@[simp] theorem modMem_free (f : Memory → Memory) : (s.modMem f).free = s.free := rfl
@[simp] theorem modMem_out (f : Memory → Memory) : (s.modMem f).out = s.out := rfl
@[simp] theorem modMem_proc (f : Memory → Memory) (j : Nat) : (s.modMem f).proc j = s.proc j := rfl
@[simp] theorem modMem_cc (f : Memory → Memory) (j : Nat) : (s.modMem f).cc j = s.cc j := rfl
@[simp] theorem modMem_ve (f : Memory → Memory) (j : Nat) : (s.modMem f).ve j = s.ve j := rfl
@[simp] theorem modMem_sync (f : Memory → Memory) (j : Nat) : (s.modMem f).sync j = s.sync j := rfl
@[simp] theorem modMem_lookup (f : Memory → Memory) (j : Nat) : (s.modMem f).lookup j = s.lookup j := rfl
@[simp] theorem modMem_cluster (f : Memory → Memory) (j : Nat) : (s.modMem f).cluster j = s.cluster j := rfl
@[simp] theorem modMem_ctx (f : Memory → Memory) (j : Nat) : (s.modMem f).ctx j = s.ctx j := rfl
@[simp] theorem modMem_stepper (f : Memory → Memory) (j : Nat) : (s.modMem f).stepper j = s.stepper j := rfl
@[simp] theorem modMem_gts (f : Memory → Memory) : (s.modMem f).gts = s.gts := rfl

/-! ## modMod -/

@[simp] theorem modMod_procs (f : Module → Module) : (s.modMod f).procs = s.procs := rfl
@[simp] theorem modMod_lookups (f : Module → Module) : (s.modMod f).lookups = s.lookups := rfl
@[simp] theorem modMod_clusters (f : Module → Module) : (s.modMod f).clusters = s.clusters := rfl
@[simp] theorem modMod_ctxs (f : Module → Module) : (s.modMod f).ctxs = s.ctxs := rfl
@[simp] theorem modMod_saved (f : Module → Module) : (s.modMod f).saved = s.saved := rfl
@[simp] theorem modMod_startTvec (f : Module → Module) : (s.modMod f).startTvec = s.startTvec := rfl
@[simp] theorem modMod_steppers (f : Module → Module) : (s.modMod f).steppers = s.steppers := rfl
@[simp] theorem modMod_mem (f : Module → Module) : (s.modMod f).mem = s.mem := rfl
@[simp] theorem modMod_fl (f : Module → Module) : (s.modMod f).fl = s.fl := rfl
@[simp] theorem modMod_links (f : Module → Module) : (s.modMod f).links = s.links := rfl
@[simp] theorem modMod_agenda (f : Module → Module) : (s.modMod f).agenda = s.agenda := rfl
@[simp] theorem modMod_actor (f : Module → Module) : (s.modMod f).actor = s.actor := rfl
@[simp] theorem modMod_free (f : Module → Module) : (s.modMod f).free = s.free := rfl
@[simp] theorem modMod_out (f : Module → Module) : (s.modMod f).out = s.out := rfl
@[simp] theorem modMod_proc (f : Module → Module) (j : Nat) : (s.modMod f).proc j = s.proc j := rfl
@[simp] theorem modMod_cc (f : Module → Module) (j : Nat) : (s.modMod f).cc j = s.cc j := rfl
@[simp] theorem modMod_ve (f : Module → Module) (j : Nat) : (s.modMod f).ve j = s.ve j := rfl
@[simp] theorem modMod_sync (f : Module → Module) (j : Nat) : (s.modMod f).sync j = s.sync j := rfl
@[simp] theorem modMod_lookup (f : Module → Module) (j : Nat) : (s.modMod f).lookup j = s.lookup j := rfl
@[simp] theorem modMod_cluster (f : Module → Module) (j : Nat) : (s.modMod f).cluster j = s.cluster j := rfl
@[simp] theorem modMod_ctx (f : Module → Module) (j : Nat) : (s.modMod f).ctx j = s.ctx j := rfl
@[simp] theorem modMod_stepper (f : Module → Module) (j : Nat) : (s.modMod f).stepper j = s.stepper j := rfl

/-! ## modLinks -/

@[simp] theorem modLinks_procs (f : Links → Links) : (s.modLinks f).procs = s.procs := rfl
@[simp] theorem modLinks_lookups (f : Links → Links) : (s.modLinks f).lookups = s.lookups := rfl
@[simp] theorem modLinks_clusters (f : Links → Links) : (s.modLinks f).clusters = s.clusters := rfl
@[simp] theorem modLinks_ctxs (f : Links → Links) : (s.modLinks f).ctxs = s.ctxs := rfl
@[simp] theorem modLinks_saved (f : Links → Links) : (s.modLinks f).saved = s.saved := rfl
@[simp] theorem modLinks_startTvec (f : Links → Links) : (s.modLinks f).startTvec = s.startTvec := rfl
@[simp] theorem modLinks_steppers (f : Links → Links) : (s.modLinks f).steppers = s.steppers := rfl
@[simp] theorem modLinks_mem (f : Links → Links) : (s.modLinks f).mem = s.mem := rfl
@[simp] theorem modLinks_fl (f : Links → Links) : (s.modLinks f).fl = s.fl := rfl
@[simp] theorem modLinks_mod (f : Links → Links) : (s.modLinks f).mod = s.mod := rfl
@[simp] theorem modLinks_agenda (f : Links → Links) : (s.modLinks f).agenda = s.agenda := rfl
@[simp] theorem modLinks_actor (f : Links → Links) : (s.modLinks f).actor = s.actor := rfl
@[simp] theorem modLinks_free (f : Links → Links) : (s.modLinks f).free = s.free := rfl
@[simp] theorem modLinks_out (f : Links → Links) : (s.modLinks f).out = s.out := rfl
@[simp] theorem modLinks_proc (f : Links → Links) (j : Nat) : (s.modLinks f).proc j = s.proc j := rfl
@[simp] theorem modLinks_cc (f : Links → Links) (j : Nat) : (s.modLinks f).cc j = s.cc j := rfl
@[simp] theorem modLinks_ve (f : Links → Links) (j : Nat) : (s.modLinks f).ve j = s.ve j := rfl
@[simp] theorem modLinks_sync (f : Links → Links) (j : Nat) : (s.modLinks f).sync j = s.sync j := rfl
@[simp] theorem modLinks_lookup (f : Links → Links) (j : Nat) : (s.modLinks f).lookup j = s.lookup j := rfl
@[simp] theorem modLinks_cluster (f : Links → Links) (j : Nat) : (s.modLinks f).cluster j = s.cluster j := rfl
@[simp] theorem modLinks_ctx (f : Links → Links) (j : Nat) : (s.modLinks f).ctx j = s.ctx j := rfl
@[simp] theorem modLinks_stepper (f : Links → Links) (j : Nat) : (s.modLinks f).stepper j = s.stepper j := rfl
@[simp] theorem modLinks_gts (f : Links → Links) : (s.modLinks f).gts = s.gts := rfl

/-! ## modFl -/

@[simp] theorem modFl_procs (f : Flight → Flight) : (s.modFl f).procs = s.procs := rfl
@[simp] theorem modFl_lookups (f : Flight → Flight) : (s.modFl f).lookups = s.lookups := rfl
@[simp] theorem modFl_clusters (f : Flight → Flight) : (s.modFl f).clusters = s.clusters := rfl
@[simp] theorem modFl_ctxs (f : Flight → Flight) : (s.modFl f).ctxs = s.ctxs := rfl
@[simp] theorem modFl_saved (f : Flight → Flight) : (s.modFl f).saved = s.saved := rfl
@[simp] theorem modFl_startTvec (f : Flight → Flight) : (s.modFl f).startTvec = s.startTvec := rfl
@[simp] theorem modFl_steppers (f : Flight → Flight) : (s.modFl f).steppers = s.steppers := rfl
@[simp] theorem modFl_mem (f : Flight → Flight) : (s.modFl f).mem = s.mem := rfl
@[simp] theorem modFl_mod (f : Flight → Flight) : (s.modFl f).mod = s.mod := rfl
@[simp] theorem modFl_links (f : Flight → Flight) : (s.modFl f).links = s.links := rfl
@[simp] theorem modFl_agenda (f : Flight → Flight) : (s.modFl f).agenda = s.agenda := rfl
@[simp] theorem modFl_actor (f : Flight → Flight) : (s.modFl f).actor = s.actor := rfl
@[simp] theorem modFl_free (f : Flight → Flight) : (s.modFl f).free = s.free := rfl
@[simp] theorem modFl_out (f : Flight → Flight) : (s.modFl f).out = s.out := rfl
@[simp] theorem modFl_proc (f : Flight → Flight) (j : Nat) : (s.modFl f).proc j = s.proc j := rfl
@[simp] theorem modFl_cc (f : Flight → Flight) (j : Nat) : (s.modFl f).cc j = s.cc j := rfl
@[simp] theorem modFl_ve (f : Flight → Flight) (j : Nat) : (s.modFl f).ve j = s.ve j := rfl
@[simp] theorem modFl_sync (f : Flight → Flight) (j : Nat) : (s.modFl f).sync j = s.sync j := rfl
@[simp] theorem modFl_lookup (f : Flight → Flight) (j : Nat) : (s.modFl f).lookup j = s.lookup j := rfl
@[simp] theorem modFl_cluster (f : Flight → Flight) (j : Nat) : (s.modFl f).cluster j = s.cluster j := rfl
@[simp] theorem modFl_ctx (f : Flight → Flight) (j : Nat) : (s.modFl f).ctx j = s.ctx j := rfl
@[simp] theorem modFl_stepper (f : Flight → Flight) (j : Nat) : (s.modFl f).stepper j = s.stepper j := rfl
@[simp] theorem modFl_gts (f : Flight → Flight) : (s.modFl f).gts = s.gts := rfl

/-! ## send -/

@[simp] theorem send_procs (m : Msg) : (s.send m).procs = s.procs := rfl
@[simp] theorem send_lookups (m : Msg) : (s.send m).lookups = s.lookups := rfl
@[simp] theorem send_clusters (m : Msg) : (s.send m).clusters = s.clusters := rfl
@[simp] theorem send_ctxs (m : Msg) : (s.send m).ctxs = s.ctxs := rfl
@[simp] theorem send_saved (m : Msg) : (s.send m).saved = s.saved := rfl
@[simp] theorem send_startTvec (m : Msg) : (s.send m).startTvec = s.startTvec := rfl
@[simp] theorem send_steppers (m : Msg) : (s.send m).steppers = s.steppers := rfl
@[simp] theorem send_mem (m : Msg) : (s.send m).mem = s.mem := rfl
@[simp] theorem send_fl (m : Msg) : (s.send m).fl = s.fl := rfl
@[simp] theorem send_mod (m : Msg) : (s.send m).mod = s.mod := rfl
@[simp] theorem send_links (m : Msg) : (s.send m).links = s.links := rfl
@[simp] theorem send_agenda (m : Msg) : (s.send m).agenda = s.agenda := rfl
@[simp] theorem send_actor (m : Msg) : (s.send m).actor = s.actor := rfl
@[simp] theorem send_free (m : Msg) : (s.send m).free = s.free := rfl
@[simp] theorem send_proc (m : Msg) (j : Nat) : (s.send m).proc j = s.proc j := rfl
@[simp] theorem send_cc (m : Msg) (j : Nat) : (s.send m).cc j = s.cc j := rfl
@[simp] theorem send_ve (m : Msg) (j : Nat) : (s.send m).ve j = s.ve j := rfl
@[simp] theorem send_sync (m : Msg) (j : Nat) : (s.send m).sync j = s.sync j := rfl
@[simp] theorem send_lookup (m : Msg) (j : Nat) : (s.send m).lookup j = s.lookup j := rfl
@[simp] theorem send_cluster (m : Msg) (j : Nat) : (s.send m).cluster j = s.cluster j := rfl
@[simp] theorem send_ctx (m : Msg) (j : Nat) : (s.send m).ctx j = s.ctx j := rfl
@[simp] theorem send_stepper (m : Msg) (j : Nat) : (s.send m).stepper j = s.stepper j := rfl
@[simp] theorem send_gts (m : Msg) : (s.send m).gts = s.gts := rfl

/-! ## bump -/

@[simp] theorem bump_procs : (s.bump).procs = s.procs := rfl
@[simp] theorem bump_lookups : (s.bump).lookups = s.lookups := rfl
@[simp] theorem bump_clusters : (s.bump).clusters = s.clusters := rfl
@[simp] theorem bump_ctxs : (s.bump).ctxs = s.ctxs := rfl
@[simp] theorem bump_saved : (s.bump).saved = s.saved := rfl
@[simp] theorem bump_startTvec : (s.bump).startTvec = s.startTvec := rfl
@[simp] theorem bump_steppers : (s.bump).steppers = s.steppers := rfl
@[simp] theorem bump_mem : (s.bump).mem = s.mem := rfl
@[simp] theorem bump_fl : (s.bump).fl = s.fl := rfl
@[simp] theorem bump_mod : (s.bump).mod = s.mod := rfl
@[simp] theorem bump_links : (s.bump).links = s.links := rfl
@[simp] theorem bump_agenda : (s.bump).agenda = s.agenda := rfl
@[simp] theorem bump_actor : (s.bump).actor = s.actor := rfl
@[simp] theorem bump_out : (s.bump).out = s.out := rfl
@[simp] theorem bump_proc (j : Nat) : (s.bump).proc j = s.proc j := rfl
@[simp] theorem bump_cc (j : Nat) : (s.bump).cc j = s.cc j := rfl
@[simp] theorem bump_ve (j : Nat) : (s.bump).ve j = s.ve j := rfl
@[simp] theorem bump_sync (j : Nat) : (s.bump).sync j = s.sync j := rfl
@[simp] theorem bump_lookup (j : Nat) : (s.bump).lookup j = s.lookup j := rfl
@[simp] theorem bump_cluster (j : Nat) : (s.bump).cluster j = s.cluster j := rfl
@[simp] theorem bump_ctx (j : Nat) : (s.bump).ctx j = s.ctx j := rfl
@[simp] theorem bump_stepper (j : Nat) : (s.bump).stepper j = s.stepper j := rfl
@[simp] theorem bump_gts : (s.bump).gts = s.gts := rfl

/-! ## setSaved -/

@[simp] theorem setSaved_procs (x core : Nat) (v : Option Saved) : (s.setSaved x core v).procs = s.procs := rfl
@[simp] theorem setSaved_lookups (x core : Nat) (v : Option Saved) : (s.setSaved x core v).lookups = s.lookups := rfl
@[simp] theorem setSaved_clusters (x core : Nat) (v : Option Saved) : (s.setSaved x core v).clusters = s.clusters := rfl
@[simp] theorem setSaved_ctxs (x core : Nat) (v : Option Saved) : (s.setSaved x core v).ctxs = s.ctxs := rfl
@[simp] theorem setSaved_startTvec (x core : Nat) (v : Option Saved) : (s.setSaved x core v).startTvec = s.startTvec := rfl
@[simp] theorem setSaved_steppers (x core : Nat) (v : Option Saved) : (s.setSaved x core v).steppers = s.steppers := rfl
@[simp] theorem setSaved_mem (x core : Nat) (v : Option Saved) : (s.setSaved x core v).mem = s.mem := rfl
@[simp] theorem setSaved_fl (x core : Nat) (v : Option Saved) : (s.setSaved x core v).fl = s.fl := rfl
@[simp] theorem setSaved_mod (x core : Nat) (v : Option Saved) : (s.setSaved x core v).mod = s.mod := rfl
@[simp] theorem setSaved_links (x core : Nat) (v : Option Saved) : (s.setSaved x core v).links = s.links := rfl
@[simp] theorem setSaved_agenda (x core : Nat) (v : Option Saved) : (s.setSaved x core v).agenda = s.agenda := rfl
@[simp] theorem setSaved_actor (x core : Nat) (v : Option Saved) : (s.setSaved x core v).actor = s.actor := rfl
@[simp] theorem setSaved_free (x core : Nat) (v : Option Saved) : (s.setSaved x core v).free = s.free := rfl
@[simp] theorem setSaved_out (x core : Nat) (v : Option Saved) : (s.setSaved x core v).out = s.out := rfl
@[simp] theorem setSaved_proc (x core : Nat) (v : Option Saved) (j : Nat) : (s.setSaved x core v).proc j = s.proc j := rfl
@[simp] theorem setSaved_cc (x core : Nat) (v : Option Saved) (j : Nat) : (s.setSaved x core v).cc j = s.cc j := rfl
@[simp] theorem setSaved_ve (x core : Nat) (v : Option Saved) (j : Nat) : (s.setSaved x core v).ve j = s.ve j := rfl
@[simp] theorem setSaved_sync (x core : Nat) (v : Option Saved) (j : Nat) : (s.setSaved x core v).sync j = s.sync j := rfl
@[simp] theorem setSaved_lookup (x core : Nat) (v : Option Saved) (j : Nat) : (s.setSaved x core v).lookup j = s.lookup j := rfl
@[simp] theorem setSaved_cluster (x core : Nat) (v : Option Saved) (j : Nat) : (s.setSaved x core v).cluster j = s.cluster j := rfl
@[simp] theorem setSaved_ctx (x core : Nat) (v : Option Saved) (j : Nat) : (s.setSaved x core v).ctx j = s.ctx j := rfl
@[simp] theorem setSaved_stepper (x core : Nat) (v : Option Saved) (j : Nat) : (s.setSaved x core v).stepper j = s.stepper j := rfl
@[simp] theorem setSaved_gts (x core : Nat) (v : Option Saved) : (s.setSaved x core v).gts = s.gts := rfl

/-! ## mapProcs -/

@[simp] theorem mapProcs_lookups (f : Proc → Proc) : (s.mapProcs f).lookups = s.lookups := rfl
@[simp] theorem mapProcs_clusters (f : Proc → Proc) : (s.mapProcs f).clusters = s.clusters := rfl
@[simp] theorem mapProcs_ctxs (f : Proc → Proc) : (s.mapProcs f).ctxs = s.ctxs := rfl
@[simp] theorem mapProcs_saved (f : Proc → Proc) : (s.mapProcs f).saved = s.saved := rfl
@[simp] theorem mapProcs_startTvec (f : Proc → Proc) : (s.mapProcs f).startTvec = s.startTvec := rfl
@[simp] theorem mapProcs_steppers (f : Proc → Proc) : (s.mapProcs f).steppers = s.steppers := rfl
@[simp] theorem mapProcs_mem (f : Proc → Proc) : (s.mapProcs f).mem = s.mem := rfl
@[simp] theorem mapProcs_fl (f : Proc → Proc) : (s.mapProcs f).fl = s.fl := rfl
@[simp] theorem mapProcs_mod (f : Proc → Proc) : (s.mapProcs f).mod = s.mod := rfl
@[simp] theorem mapProcs_links (f : Proc → Proc) : (s.mapProcs f).links = s.links := rfl
@[simp] theorem mapProcs_agenda (f : Proc → Proc) : (s.mapProcs f).agenda = s.agenda := rfl
@[simp] theorem mapProcs_actor (f : Proc → Proc) : (s.mapProcs f).actor = s.actor := rfl
@[simp] theorem mapProcs_free (f : Proc → Proc) : (s.mapProcs f).free = s.free := rfl
@[simp] theorem mapProcs_out (f : Proc → Proc) : (s.mapProcs f).out = s.out := rfl
@[simp] theorem mapProcs_lookup (f : Proc → Proc) (j : Nat) : (s.mapProcs f).lookup j = s.lookup j := rfl
@[simp] theorem mapProcs_cluster (f : Proc → Proc) (j : Nat) : (s.mapProcs f).cluster j = s.cluster j := rfl
@[simp] theorem mapProcs_ctx (f : Proc → Proc) (j : Nat) : (s.mapProcs f).ctx j = s.ctx j := rfl
@[simp] theorem mapProcs_stepper (f : Proc → Proc) (j : Nat) : (s.mapProcs f).stepper j = s.stepper j := rfl
@[simp] theorem mapProcs_gts (f : Proc → Proc) : (s.mapProcs f).gts = s.gts := rfl

/-! ## mapClusters -/

@[simp] theorem mapClusters_procs (f : Cluster → Cluster) : (s.mapClusters f).procs = s.procs := rfl
@[simp] theorem mapClusters_lookups (f : Cluster → Cluster) : (s.mapClusters f).lookups = s.lookups := rfl
@[simp] theorem mapClusters_ctxs (f : Cluster → Cluster) : (s.mapClusters f).ctxs = s.ctxs := rfl
@[simp] theorem mapClusters_saved (f : Cluster → Cluster) : (s.mapClusters f).saved = s.saved := rfl
@[simp] theorem mapClusters_startTvec (f : Cluster → Cluster) : (s.mapClusters f).startTvec = s.startTvec := rfl
@[simp] theorem mapClusters_steppers (f : Cluster → Cluster) : (s.mapClusters f).steppers = s.steppers := rfl
@[simp] theorem mapClusters_mem (f : Cluster → Cluster) : (s.mapClusters f).mem = s.mem := rfl
@[simp] theorem mapClusters_fl (f : Cluster → Cluster) : (s.mapClusters f).fl = s.fl := rfl
@[simp] theorem mapClusters_mod (f : Cluster → Cluster) : (s.mapClusters f).mod = s.mod := rfl
@[simp] theorem mapClusters_links (f : Cluster → Cluster) : (s.mapClusters f).links = s.links := rfl
@[simp] theorem mapClusters_agenda (f : Cluster → Cluster) : (s.mapClusters f).agenda = s.agenda := rfl
@[simp] theorem mapClusters_actor (f : Cluster → Cluster) : (s.mapClusters f).actor = s.actor := rfl
@[simp] theorem mapClusters_free (f : Cluster → Cluster) : (s.mapClusters f).free = s.free := rfl
@[simp] theorem mapClusters_out (f : Cluster → Cluster) : (s.mapClusters f).out = s.out := rfl
@[simp] theorem mapClusters_proc (f : Cluster → Cluster) (j : Nat) : (s.mapClusters f).proc j = s.proc j := rfl
@[simp] theorem mapClusters_cc (f : Cluster → Cluster) (j : Nat) : (s.mapClusters f).cc j = s.cc j := rfl
@[simp] theorem mapClusters_ve (f : Cluster → Cluster) (j : Nat) : (s.mapClusters f).ve j = s.ve j := rfl
@[simp] theorem mapClusters_sync (f : Cluster → Cluster) (j : Nat) : (s.mapClusters f).sync j = s.sync j := rfl
@[simp] theorem mapClusters_lookup (f : Cluster → Cluster) (j : Nat) : (s.mapClusters f).lookup j = s.lookup j := rfl
@[simp] theorem mapClusters_ctx (f : Cluster → Cluster) (j : Nat) : (s.mapClusters f).ctx j = s.ctx j := rfl
@[simp] theorem mapClusters_stepper (f : Cluster → Cluster) (j : Nat) : (s.mapClusters f).stepper j = s.stepper j := rfl
@[simp] theorem mapClusters_gts (f : Cluster → Cluster) : (s.mapClusters f).gts = s.gts := rfl

/-! ## What an accessor reads after its own update -/

theorem proc_setProc (p : Nat) (x : Proc) (q : Nat) : (s.setProc p x).proc q = if q = p then x else s.proc q :=
  SMap.get_set _ _ _ _ _
@[simp] theorem proc_setProc_same (p : Nat) (x : Proc) : (s.setProc p x).proc p = x := SMap.get_set_same _ _ _ _
theorem proc_setProc_other {p q : Nat} (x : Proc) (h : q ≠ p) : (s.setProc p x).proc q = s.proc q :=
  SMap.get_set_other _ _ _ h
theorem proc_modProc (p : Nat) (f : Proc → Proc) (q : Nat) :
    (s.modProc p f).proc q = if q = p then f (s.proc p) else s.proc q := proc_setProc s p _ q
@[simp] theorem proc_modProc_same (p : Nat) (f : Proc → Proc) : (s.modProc p f).proc p = f (s.proc p) :=
  proc_setProc_same s p _
theorem proc_modProc_other {p q : Nat} (f : Proc → Proc) (h : q ≠ p) : (s.modProc p f).proc q = s.proc q :=
  proc_setProc_other s _ h
theorem cluster_modCluster (c : Nat) (f : Cluster → Cluster) (d : Nat) :
    (s.modCluster c f).cluster d = if d = c then f (s.cluster c) else s.cluster d := SMap.get_set _ _ _ _ _
@[simp] theorem cluster_modCluster_same (c : Nat) (f : Cluster → Cluster) : (s.modCluster c f).cluster c = f (s.cluster c) :=
  SMap.get_set_same _ _ _ _
theorem cluster_modCluster_other {c d : Nat} (f : Cluster → Cluster) (h : d ≠ c) :
    (s.modCluster c f).cluster d = s.cluster d := SMap.get_set_other _ _ _ h
theorem ctx_modCtx (x : Nat) (f : Ctx → Ctx) (y : Nat) : (s.modCtx x f).ctx y = if y = x then f (s.ctx x) else s.ctx y :=
  SMap.get_set _ _ _ _ _
@[simp] theorem ctx_modCtx_same (x : Nat) (f : Ctx → Ctx) : (s.modCtx x f).ctx x = f (s.ctx x) := SMap.get_set_same _ _ _ _
theorem ctx_modCtx_other {x y : Nat} (f : Ctx → Ctx) (h : y ≠ x) : (s.modCtx x f).ctx y = s.ctx y :=
  SMap.get_set_other _ _ _ h
theorem lookup_modLookup (k : Nat) (f : Lookup → Lookup) (j : Nat) :
    (s.modLookup k f).lookup j = if j = k then f (s.lookup k) else s.lookup j := SMap.get_set _ _ _ _ _
@[simp] theorem lookup_modLookup_same (k : Nat) (f : Lookup → Lookup) : (s.modLookup k f).lookup k = f (s.lookup k) :=
  SMap.get_set_same _ _ _ _
theorem stepper_modStepper (q : Nat) (f : Stepper → Stepper) (r : Nat) :
    (s.modStepper q f).stepper r = if r = q then f (s.stepper q) else s.stepper r := SMap.get_set _ _ _ _ _
@[simp] theorem stepper_modStepper_same (q : Nat) (f : Stepper → Stepper) : (s.modStepper q f).stepper q = f (s.stepper q) :=
  SMap.get_set_same _ _ _ _
@[simp] theorem mem_modMem (f : Memory → Memory) : (s.modMem f).mem = f s.mem := rfl
@[simp] theorem mod_modMod (f : Module → Module) : (s.modMod f).mod = f s.mod := rfl
@[simp] theorem links_modLinks (f : Links → Links) : (s.modLinks f).links = f s.links := rfl
@[simp] theorem fl_modFl (f : Flight → Flight) : (s.modFl f).fl = f s.fl := rfl
@[simp] theorem out_send (m : Msg) : (s.send m).out = m :: s.out := rfl
@[simp] theorem free_bump : s.bump.free = s.free + 1 := rfl

/-! ## Parts of a core -/

@[simp] theorem proc_modCC_same (p : Nat) (f : CCRegs → CCRegs) :
    (s.modCC p f).proc p = { s.proc p with img := { (s.proc p).img with cc := f (s.proc p).img.cc } } :=
  proc_modProc_same s p _
@[simp] theorem proc_modVE_same (p : Nat) (f : VERegs → VERegs) :
    (s.modVE p f).proc p = { s.proc p with img := { (s.proc p).img with ve := f (s.proc p).img.ve } } :=
  proc_modProc_same s p _
@[simp] theorem proc_modSync_same (p : Nat) (f : Sync → Sync) :
    (s.modSync p f).proc p = { s.proc p with img := { (s.proc p).img with sync := f (s.proc p).img.sync } } :=
  proc_modProc_same s p _
@[simp] theorem proc_modCoh_same (p : Nat) (f : Coh → Coh) :
    (s.modCoh p f).proc p = { s.proc p with coh := f (s.proc p).coh } := proc_modProc_same s p _
@[simp] theorem proc_modQ_same (p : Nat) (f : Queues → Queues) :
    (s.modQ p f).proc p = { s.proc p with q := f (s.proc p).q } := proc_modProc_same s p _
@[simp] theorem proc_modEng_same (p : Nat) (f : Engines → Engines) :
    (s.modEng p f).proc p = { s.proc p with eng := f (s.proc p).eng } := proc_modProc_same s p _
@[simp] theorem cc_modCC_same (p : Nat) (f : CCRegs → CCRegs) : (s.modCC p f).cc p = f (s.cc p) := by
  simp [State.cc]
@[simp] theorem ve_modVE_same (p : Nat) (f : VERegs → VERegs) : (s.modVE p f).ve p = f (s.ve p) := by
  simp [State.ve]
@[simp] theorem sync_modSync_same (p : Nat) (f : Sync → Sync) : (s.modSync p f).sync p = f (s.sync p) := by
  simp [State.sync]
@[simp] theorem ve_modCC_same (p : Nat) (f : CCRegs → CCRegs) : (s.modCC p f).ve p = s.ve p := by simp [State.ve]
@[simp] theorem sync_modCC_same (p : Nat) (f : CCRegs → CCRegs) : (s.modCC p f).sync p = s.sync p := by simp [State.sync]
@[simp] theorem cc_modVE_same (p : Nat) (f : VERegs → VERegs) : (s.modVE p f).cc p = s.cc p := by simp [State.cc]
@[simp] theorem cc_modSync_same (p : Nat) (f : Sync → Sync) : (s.modSync p f).cc p = s.cc p := by simp [State.cc]
theorem proc_modCC_other {p q : Nat} (f : CCRegs → CCRegs) (h : q ≠ p) : (s.modCC p f).proc q = s.proc q :=
  proc_modProc_other s _ h
theorem proc_modVE_other {p q : Nat} (f : VERegs → VERegs) (h : q ≠ p) : (s.modVE p f).proc q = s.proc q :=
  proc_modProc_other s _ h

end State

/-! ## Registers of a control core (06 R110) -/

namespace CCRegs

variable (c : CCRegs)

@[simp] theorem readS_zero : c.readS 0 = 0 := rfl
@[simp] theorem writeS_zero (v : Word) : c.writeS 0 v = c := rfl
theorem readS_writeS_same {r : BitVec 5} (v : Word) (h : r ≠ 0) : (c.writeS r v).readS r = v := by
  unfold readS writeS
  rw [if_neg h, if_neg h]
  exact SMap.get_set_same _ _ _ _
theorem readS_writeS_other {r q : BitVec 5} (v : Word) (h : q ≠ r) : (c.writeS r v).readS q = c.readS q := by
  unfold writeS readS
  split
  · rfl
  · split
    · rfl
    · exact SMap.get_set_other _ _ _ fun e => h (BitVec.eq_of_toNat_eq e)
@[simp] theorem readP_zero : c.readP 0 = true := rfl
@[simp] theorem guard_always : c.guard ⟨0, false⟩ = true := rfl

@[simp] theorem writeS_p (r : BitVec 5) (v : Word) : (c.writeS r v).p = c.p := by unfold writeS; split <;> rfl
@[simp] theorem writeS_h (r : BitVec 5) (v : Word) : (c.writeS r v).h = c.h := by unfold writeS; split <;> rfl
@[simp] theorem writeS_pc (r : BitVec 5) (v : Word) : (c.writeS r v).pc = c.pc := by unfold writeS; split <;> rfl
@[simp] theorem writeS_status (r : BitVec 5) (v : Word) : (c.writeS r v).status = c.status := by unfold writeS; split <;> rfl
@[simp] theorem writeS_cause (r : BitVec 5) (v : Word) : (c.writeS r v).cause = c.cause := by unfold writeS; split <;> rfl
@[simp] theorem writeS_epc (r : BitVec 5) (v : Word) : (c.writeS r v).epc = c.epc := by unfold writeS; split <;> rfl
@[simp] theorem writeS_faddr (r : BitVec 5) (v : Word) : (c.writeS r v).faddr = c.faddr := by unfold writeS; split <;> rfl
@[simp] theorem writeS_tvec (r : BitVec 5) (v : Word) : (c.writeS r v).tvec = c.tvec := by unfold writeS; split <;> rfl
@[simp] theorem writeS_escratch (r : BitVec 5) (v : Word) : (c.writeS r v).escratch = c.escratch := by unfold writeS; split <;> rfl
@[simp] theorem writeS_sys (r : BitVec 5) (v : Word) : (c.writeS r v).sys = c.sys := by unfold writeS; split <;> rfl
@[simp] theorem writeS_rsv (r : BitVec 5) (v : Word) : (c.writeS r v).rsv = c.rsv := by unfold writeS; split <;> rfl
@[simp] theorem writeS_rm (r : BitVec 5) (v : Word) : (c.writeS r v).rm = c.rm := by unfold writeS; split <;> rfl
@[simp] theorem writeS_seed (r : BitVec 5) (v : Word) : (c.writeS r v).seed = c.seed := by unfold writeS; split <;> rfl
@[simp] theorem writeS_limit (r : BitVec 5) (v : Word) : (c.writeS r v).limit = c.limit := by unfold writeS; split <;> rfl
@[simp] theorem writeS_rowprog (r : BitVec 5) (v : Word) : (c.writeS r v).rowprog = c.rowprog := by unfold writeS; split <;> rfl
@[simp] theorem writeS_pace (r : BitVec 5) (v : Word) : (c.writeS r v).pace = c.pace := by unfold writeS; split <;> rfl
@[simp] theorem writeS_fmt (r : BitVec 5) (v : Word) : (c.writeS r v).fmt = c.fmt := by unfold writeS; split <;> rfl
@[simp] theorem writeP_s (k : BitVec 3) (b : Bool) : (c.writeP k b).s = c.s := by unfold writeP; split <;> rfl
@[simp] theorem writeP_h (k : BitVec 3) (b : Bool) : (c.writeP k b).h = c.h := by unfold writeP; split <;> rfl
@[simp] theorem writeP_pc (k : BitVec 3) (b : Bool) : (c.writeP k b).pc = c.pc := by unfold writeP; split <;> rfl
@[simp] theorem writeP_status (k : BitVec 3) (b : Bool) : (c.writeP k b).status = c.status := by unfold writeP; split <;> rfl
@[simp] theorem writeP_cause (k : BitVec 3) (b : Bool) : (c.writeP k b).cause = c.cause := by unfold writeP; split <;> rfl
@[simp] theorem writeP_epc (k : BitVec 3) (b : Bool) : (c.writeP k b).epc = c.epc := by unfold writeP; split <;> rfl
@[simp] theorem writeP_faddr (k : BitVec 3) (b : Bool) : (c.writeP k b).faddr = c.faddr := by unfold writeP; split <;> rfl
@[simp] theorem writeP_tvec (k : BitVec 3) (b : Bool) : (c.writeP k b).tvec = c.tvec := by unfold writeP; split <;> rfl
@[simp] theorem writeP_escratch (k : BitVec 3) (b : Bool) : (c.writeP k b).escratch = c.escratch := by unfold writeP; split <;> rfl
@[simp] theorem writeP_sys (k : BitVec 3) (b : Bool) : (c.writeP k b).sys = c.sys := by unfold writeP; split <;> rfl
@[simp] theorem writeP_rsv (k : BitVec 3) (b : Bool) : (c.writeP k b).rsv = c.rsv := by unfold writeP; split <;> rfl
@[simp] theorem writeP_rm (k : BitVec 3) (b : Bool) : (c.writeP k b).rm = c.rm := by unfold writeP; split <;> rfl
@[simp] theorem writeP_seed (k : BitVec 3) (b : Bool) : (c.writeP k b).seed = c.seed := by unfold writeP; split <;> rfl
@[simp] theorem writeP_limit (k : BitVec 3) (b : Bool) : (c.writeP k b).limit = c.limit := by unfold writeP; split <;> rfl
@[simp] theorem writeP_rowprog (k : BitVec 3) (b : Bool) : (c.writeP k b).rowprog = c.rowprog := by unfold writeP; split <;> rfl
@[simp] theorem writeP_pace (k : BitVec 3) (b : Bool) : (c.writeP k b).pace = c.pace := by unfold writeP; split <;> rfl
@[simp] theorem writeP_fmt (k : BitVec 3) (b : Bool) : (c.writeP k b).fmt = c.fmt := by unfold writeP; split <;> rfl
@[simp] theorem writeH_s (k : BitVec 4) (v : Handle) : (c.writeH k v).s = c.s := rfl
@[simp] theorem writeH_p (k : BitVec 4) (v : Handle) : (c.writeH k v).p = c.p := rfl
@[simp] theorem writeH_pc (k : BitVec 4) (v : Handle) : (c.writeH k v).pc = c.pc := rfl
@[simp] theorem writeH_status (k : BitVec 4) (v : Handle) : (c.writeH k v).status = c.status := rfl
@[simp] theorem writeH_cause (k : BitVec 4) (v : Handle) : (c.writeH k v).cause = c.cause := rfl
@[simp] theorem writeH_epc (k : BitVec 4) (v : Handle) : (c.writeH k v).epc = c.epc := rfl
@[simp] theorem writeH_faddr (k : BitVec 4) (v : Handle) : (c.writeH k v).faddr = c.faddr := rfl
@[simp] theorem writeH_tvec (k : BitVec 4) (v : Handle) : (c.writeH k v).tvec = c.tvec := rfl
@[simp] theorem writeH_escratch (k : BitVec 4) (v : Handle) : (c.writeH k v).escratch = c.escratch := rfl
@[simp] theorem writeH_sys (k : BitVec 4) (v : Handle) : (c.writeH k v).sys = c.sys := rfl
@[simp] theorem writeH_rsv (k : BitVec 4) (v : Handle) : (c.writeH k v).rsv = c.rsv := rfl
@[simp] theorem writeH_rm (k : BitVec 4) (v : Handle) : (c.writeH k v).rm = c.rm := rfl
@[simp] theorem writeH_seed (k : BitVec 4) (v : Handle) : (c.writeH k v).seed = c.seed := rfl
@[simp] theorem writeH_limit (k : BitVec 4) (v : Handle) : (c.writeH k v).limit = c.limit := rfl
@[simp] theorem writeH_rowprog (k : BitVec 4) (v : Handle) : (c.writeH k v).rowprog = c.rowprog := rfl
@[simp] theorem writeH_pace (k : BitVec 4) (v : Handle) : (c.writeH k v).pace = c.pace := rfl
@[simp] theorem writeH_fmt (k : BitVec 4) (v : Handle) : (c.writeH k v).fmt = c.fmt := rfl
@[simp] theorem readS_writeP (k : BitVec 3) (b : Bool) (r : BitVec 5) : (c.writeP k b).readS r = c.readS r := by
  simp [readS]
@[simp] theorem readP_writeS (r : BitVec 5) (v : Word) (k : BitVec 3) : (c.writeS r v).readP k = c.readP k := by
  simp [readP]
@[simp] theorem readH_writeH (k : BitVec 4) (v : Handle) : (c.writeH k v).readH k = v := by simp [writeH, readH]
theorem readP_writeP_same {k : BitVec 3} (b : Bool) (h : k ≠ 0) : (c.writeP k b).readP k = b := by
  have hk : k.toNat < 8 := k.isLt
  have h8 : (k == 0) = false := beq_eq_false_iff_ne.2 h
  unfold writeP readP
  rw [if_neg h, h8]
  cases b <;> simp [hk]
theorem readP_writeP_other {k j : BitVec 3} (b : Bool) (h : j ≠ k) : (c.writeP k b).readP j = c.readP j := by
  have hj : j.toNat < 8 := j.isLt
  have hn : j.toNat ≠ k.toNat := fun e => h (BitVec.eq_of_toNat_eq e)
  unfold writeP readP
  split
  · rfl
  · have h2 : j.toNat < k.toNat ∨ (j.toNat - k.toNat = 0) = False := by
      rcases Nat.lt_or_gt_of_ne hn with h | h
      · exact .inl h
      · exact .inr (by simp; omega)
    cases b <;> rcases h2 with h2 | h2 <;> simp [hj, h2]

end CCRegs
end Sys2Proof.Machine
end

