-- ==== Sys2Proof/Laws/Core.lean ====
section
/-! SUPPORT. What the shared operations of a core's instructions do (Machine/Ops.lean), once each: retirement, register
instructions, transfers, and instructions with a body. Statements about one instruction cite these. -/

namespace Sys2Proof.Machine

theorem Same.refl (s : State) : Same s s := ⟨fun _ => rfl, rfl, rfl, fun _ => rfl⟩

theorem Same.trans {a b c : State} (h : Same a b) (g : Same b c) : Same a c := by
  refine ⟨fun q => (h.procs q).trans (g.procs q), h.flight.trans g.flight, ?_, fun x => (h.bytes x).trans (g.bytes x)⟩
  have h1 := h.rest
  have h2 := g.rest
  obtain ⟨⟩ := a; obtain ⟨⟩ := b; obtain ⟨⟩ := c
  simp_all

theorem Same.symm {a b : State} (h : Same a b) : Same b a := by
  refine ⟨fun q => (h.procs q).symm, h.flight.symm, ?_, fun x => (h.bytes x).symm⟩
  have h1 := h.rest
  obtain ⟨⟩ := a; obtain ⟨⟩ := b
  simp_all

theorem Same.fields {a b : State} (h : Same a b) :
    a.lookups = b.lookups ∧ a.clusters = b.clusters ∧ a.ctxs = b.ctxs ∧ a.saved = b.saved ∧ a.startTvec = b.startTvec ∧
    a.steppers = b.steppers ∧ a.mem = b.mem ∧ a.mod = b.mod ∧ a.links = b.links ∧ a.agenda = b.agenda ∧ a.actor = b.actor ∧
    a.free = b.free ∧ a.out = b.out := by
  have h1 := h.rest
  obtain ⟨⟩ := a; obtain ⟨⟩ := b
  simp_all

theorem same_setStall (s : State) (p : Nat) (u : Option Eng) (n : Nat) : Same (setStall s p u n) s := by
  unfold setStall
  split
  · exact .refl s
  · refine ⟨fun q => ?_, rfl, rfl, fun _ => rfl⟩
    by_cases hq : q = p
    · subst hq; simp [Proc.still]
    · rw [State.proc_modProc_other _ _ hq]

theorem same_clearAnswers (s : State) (p : Nat) (u : Option Eng) : Same (clearAnswers p u s) s := by
  unfold clearAnswers
  extract_lets t
  have ht : Same t s := by
    subst t
    split
    · refine ⟨fun q => ?_, rfl, rfl, fun _ => rfl⟩
      by_cases hq : q = p
      · subst hq; simp [Proc.still, State.modCoh]
      · simp only [State.modCoh]; rw [State.proc_modProc_other _ _ hq]
    · exact .refl s
  split
  · refine Same.trans (b := t) ⟨fun q => rfl, ?_, rfl, fun _ => rfl⟩ ht
    simp only [State.modFl, Flight.still, List.map_map]
    congr 1
    apply List.map_congr_left
    intro r _
    simp only [Function.comp]
    split <;> rfl
  · exact ht

theorem same_modProc {t u : State} (h : Same t u) (p : Nat) (f : Proc → Proc)
    (hf : ∀ x y : Proc, x.still = y.still → (f x).still = (f y).still) : Same (t.modProc p f) (u.modProc p f) := by
  obtain ⟨h1, h2, h3, h4⟩ := h
  refine ⟨fun q => ?_, h2, ?_, h4⟩
  · by_cases hq : q = p
    · subst hq; simpa using hf _ _ (h1 q)
    · rw [State.proc_modProc_other _ _ hq, State.proc_modProc_other _ _ hq]; exact h1 q
  · simp only [State.modProc, State.setProc]
    obtain ⟨⟩ := t; obtain ⟨⟩ := u
    simp_all

theorem same_modCC {t u : State} (h : Same t u) (p : Nat) (f : CCRegs → CCRegs) : Same (t.modCC p f) (u.modCC p f) := by
  refine same_modProc h p _ fun x y hxy => ?_
  obtain ⟨⟩ := x; obtain ⟨⟩ := y
  simp_all [Proc.still]

/-- Retirement moves PC and ends the waits; nothing else changes. -/
theorem same_retireCC (s : State) (p : Nat) (pc : Word) : Same (retireCC s p pc) (s.modCC p fun r => r.at pc) :=
  (same_clearAnswers _ _ _).trans (same_setStall _ _ _ _)

/-- Two changes of a core's registers are one. -/
theorem same_modCC_modCC (s : State) (p : Nat) (f g : CCRegs → CCRegs) :
    Same ((s.modCC p f).modCC p g) (s.modCC p fun r => g (f r)) := by
  refine ⟨fun q => ?_, rfl, rfl, fun _ => rfl⟩
  by_cases hq : q = p
  · subst hq; simp [State.modCC]
  · simp only [State.modCC]; rw [State.proc_modProc_other _ _ hq, State.proc_modProc_other _ _ hq, State.proc_modProc_other _ _ hq]

theorem same_modCC_id (s : State) (p : Nat) (f : CCRegs → CCRegs) (h : f (s.cc p) = s.cc p) : Same (s.modCC p f) s := by
  refine ⟨fun q => ?_, rfl, rfl, fun _ => rfl⟩
  by_cases hq : q = p
  · subst hq
    simp only [State.modCC, State.proc_modProc_same]
    simp only [State.cc] at h
    rw [h]
  · simp only [State.modCC]; rw [State.proc_modProc_other _ _ hq]

/-- Every kind of core has it, nothing is privileged, and the guard lets it run. -/
theorem ccRun_runs {k : Kind} {gd : Guard} {s : State} {p : Nat} (n : Nat) (body : Nat → M Flow) (h : Runs s p gd)
    (hk : k.admits p = true) :
    ccRun k false gd n body s = (match body p s with
      | .ok .next t => .next (retireCC t p ((s.cc p).pc + BitVec.ofNat 64 n))
      | .ok (.jump pc) t => .next (retireCC t p pc)
      | .ok .stay t => .next (clearAnswers p none (setStall t p none 0))
      | .error (.fault c a st d) t => .next (takeFault t p c a st d)
      | .error (.wait ev) t => .next (setStall t p none (ev + 1))) := by
  unfold ccRun
  rw [h.1]
  simp only [hk, h.2, Bool.not_true, Bool.false_and, Bool.false_eq_true, if_false]
  first | done | rfl

theorem ccReg_done {gd : Guard} {s : State} {p : Nat} (n : Nat) (f : CCRegs → CCRegs) (h : Runs s p gd) :
    Done (ccReg gd n f s) p n s (s.modCC p f) := by
  refine ⟨_, ?_, same_retireCC _ _ _⟩
  unfold ccReg
  rw [ccRun_runs n _ h rfl]
  rfl

/-- What a core's registers leave of a state where only one of them is replaced. -/
theorem same_modCC_congr (s : State) (p : Nat) (f g : CCRegs → CCRegs) (h : f (s.cc p) = g (s.cc p)) :
    Same (s.modCC p f) (s.modCC p g) := by
  refine ⟨fun q => ?_, rfl, rfl, fun _ => rfl⟩
  by_cases hq : q = p
  · subst hq; simp only [State.cc] at h; simp [State.modCC, h]
  · simp only [State.modCC]; rw [State.proc_modProc_other _ _ hq, State.proc_modProc_other _ _ hq]

theorem ccBranch_leaves {gd : Guard} {s : State} {p : Nat} (n : Nat) (f : CCRegs → Option (Word × CCRegs)) (h : Runs s p gd) :
    Leaves (ccBranch gd n f s) (s.modCC p fun r => match f r with
      | some v => v.2.transfer.at v.1
      | none => r.at (r.pc + BitVec.ofNat 64 n)) := by
  unfold ccBranch
  rw [ccRun_runs n _ h rfl]
  simp only [bind, EStateM.bind, get, getThe, MonadStateOf.get, EStateM.get]
  cases e : f (s.cc p) with
  | none => exact ⟨_, rfl, (same_retireCC _ _ _).trans (same_modCC_congr _ _ _ _ (by rw [e]))⟩
  | some v =>
    exact ⟨_, rfl, (same_retireCC _ _ _).trans ((same_modCC_modCC _ _ _ _).trans (same_modCC_congr _ _ _ _ (by rw [e])))⟩

theorem ccJump_leaves {gd : Guard} {s : State} {p : Nat} (n : Nat) (f : CCRegs → Word × CCRegs) (h : Runs s p gd)
    (ha : (f (s.cc p)).1.getLsbD 0 = false) :
    Leaves (ccJump gd n f s) (s.modCC p fun r => (f r).2.transfer.at (f r).1) := by
  unfold ccJump
  rw [ccRun_runs n _ h rfl]
  simp only [bind, EStateM.bind, get, getThe, MonadStateOf.get, EStateM.get, need, ha]
  exact ⟨_, rfl, (same_retireCC _ _ _).trans ((same_modCC_modCC _ _ _ _).trans (same_modCC_congr _ _ _ _ rfl))⟩

theorem ccJump_align {gd : Guard} {s : State} {p : Nat} (n : Nat) (f : CCRegs → Word × CCRegs) (h : Runs s p gd)
    (ha : (f (s.cc p)).1.getLsbD 0 = true) :
    ccJump gd n f s = .next (takeFault s p .align (f (s.cc p)).1.toNat) := by
  unfold ccJump
  rw [ccRun_runs n _ h rfl]
  simp only [bind, EStateM.bind, get, getThe, MonadStateOf.get, EStateM.get, need, ha]
  rfl

/-- A false guard: only PC moves. -/
theorem ccRun_idle {k : Kind} {priv : Bool} {gd : Guard} {s : State} {p : Nat} (n : Nat) (body : Nat → M Flow)
    (ha : s.actor = .cc p) (hg : (s.cc p).guard gd = false) (hp : priv = true → (s.cc p).sys = true)
    (hk : k.admits p = true) : Done (ccRun k priv gd n body s) p n s s := by
  refine ⟨_, ?_, same_retireCC _ _ _⟩
  unfold ccRun
  rw [ha]
  cases priv <;> simp_all

end Sys2Proof.Machine
end

