-- ==== Sys2Proof/Laws/Fields.lean ====
section
/-! SUPPORT. Fields of joined bit vectors, and that every form's fields are read back from its word. -/

namespace Sys2Proof

/-! ## Fields of joined vectors -/

theorem fld_cast {n w : Nat} (x : BitVec n) (h : n = w) (lo k : Nat) : fld (cat x h) lo k = fld x lo k := by
  subst h; rfl
theorem fld_all {n : Nat} (x : BitVec n) : fld x 0 n = x := by
  apply BitVec.eq_of_getLsbD_eq; intro i hi; simp [hi]
theorem fld_append_hi {n m : Nat} (x : BitVec n) (y : BitVec m) (lo k : Nat) (h : m ≤ lo) :
    fld (x ++ y) lo k = fld x (lo - m) k := by
  apply BitVec.eq_of_getLsbD_eq
  intro i hi
  have h1 : ¬ lo + i < m := by omega
  have h2 : lo + i - m = lo - m + i := by omega
  simp [BitVec.getLsbD_append, hi, h1, h2]
theorem fld_append_lo {n m : Nat} (x : BitVec n) (y : BitVec m) (lo k : Nat) (h : lo + k ≤ m) :
    fld (x ++ y) lo k = fld y lo k := by
  apply BitVec.eq_of_getLsbD_eq
  intro i hi
  have h1 : lo + i < m := by omega
  simp [BitVec.getLsbD_append, hi, h1]
/-- Neighbouring fields joined are one field. -/
theorem append_fld {n : Nat} (x : BitVec n) (l lo a b : Nat) (h : lo = l + b) :
    fld x lo a ++ fld x l b = fld x l (a + b) := by
  subst h
  apply BitVec.eq_of_getLsbD_eq
  intro i hi
  rw [BitVec.getLsbD_append, BitVec.getLsbD_extractLsb', BitVec.getLsbD_extractLsb', BitVec.getLsbD_extractLsb']
  by_cases h1 : i < b
  · simp [h1, hi]
  · have h2 : i - b < a := by omega
    have h3 : l + b + (i - b) = l + i := by omega
    simp [h1, h2, h3, hi]
theorem bool_bit (v : BitVec 1) : bool (bit v) = v := by
  revert v; decide
theorem bit_bool (b : Bool) : bit (bool b) = b := by cases b <;> rfl

/-! ## Words of the forms -/

theorem F16.of_word (y : F16) : F16.of y.word = y := by
  simp (disch := decide) only [F16.of, F16.word, fld_cast, fld_append_hi, fld_append_lo, Nat.reduceSub, fld_all]
theorem F32.of_word (y : F32) : F32.of y.word = y := by
  simp (disch := decide) only [F32.of, F32.word, fld_cast, fld_append_hi, fld_append_lo, Nat.reduceSub, fld_all]
theorem F48.of_word (y : F48) : F48.of y.word = y := by
  simp (disch := decide) only [F48.of, F48.word, fld_cast, fld_append_hi, fld_append_lo, Nat.reduceSub, fld_all]
theorem V32.of_word (y : V32) : V32.of y.word = y := by
  simp (disch := decide) only [V32.of, V32.word, fld_cast, fld_append_hi, fld_append_lo, Nat.reduceSub, fld_all]
theorem V48.of_word (y : V48) : V48.of y.word = y := by
  simp (disch := decide) only [V48.of, V48.word, fld_cast, fld_append_hi, fld_append_lo, Nat.reduceSub, fld_all]
theorem P48.of_word (y : P48) : P48.of y.word = y := by
  simp (disch := decide) only [P48.of, P48.word, fld_cast, fld_append_hi, fld_append_lo, Nat.reduceSub, fld_all]
theorem B48.of_word (y : B48) : B48.of y.word = y := by
  simp (disch := decide) only [B48.of, B48.word, fld_cast, fld_append_hi, fld_append_lo, Nat.reduceSub, fld_all]
theorem HEntry.of_word (y : HEntry) : HEntry.of y.word = y := by
  simp (disch := decide) only [HEntry.of, HEntry.word, fld_cast, fld_append_hi, fld_append_lo, Nat.reduceSub, fld_all]
theorem Desc.of_word (y : Desc) : Desc.of y.word = y := by
  simp (disch := decide) only [Desc.of, Desc.word, fld_cast, fld_append_hi, fld_append_lo, Nat.reduceSub, fld_all]

/-- The scalar form is no empty descriptor. -/
theorem scalar_ne (v : BitVec 52) : (Desc.scalar v).word ≠ 0 := by
  intro h
  have h1 : (Desc.of (Desc.scalar v).word).rank = (Desc.of 0).rank := by rw [h]
  rw [Desc.of_word] at h1
  exact absurd (show (1#2) = 0#2 from h1) (by decide)

/-! ## A form that reads back its instruction decodes to it -/

theorem decode_of {st : Stream} {y : Form} {i : Instr} (h1 : y.raw st = some i) (h2 : i.form = some y) (h3 : i.wf = true)
    (h4 : st = .lk → i.lkOk = true) : y.decode st = some i := by
  cases st <;> simp [Form.decode, h1, h2, h3]
  exact h4 rfl

end Sys2Proof
end

