-- ==== Sys2Proof/Laws/PerInstr.lean ====
section
/-! SUPPORT. Decoding undoes encoding, one instruction at a time: family RoundTrip. -/

set_option linter.unusedSimpArgs false

namespace Sys2Proof.Laws.RoundTrip

/-- In every stream it may stand in, a well-formed instruction is what its form decodes to. -/
def Statement (i : Instr) : Prop :=
  ∀ st y, i.inStream st = true → i.form = some y → i.wf = true → y.decode st = some i

theorem lk_aq (z : F48) (h : z.maj = 0x38) : Form.raw .lk (.c48 z) =
    if bit (fld z.f 1 1) then some (.lkaqOne z.gd z.d (hreg z.a) z.b (bit (fld z.f 0 1)))
    else some (.lkaq z.gd z.d (hreg z.a) z.b (bit (fld z.f 0 1)) (fld z.imm 0 13)) := by
  have h1 : Form.raw .lk (.c48 z) = z.lkOnly := by
    obtain ⟨imm, x, b, a, d, maj, g, gn, f⟩ := z
    subst h; rfl
  rw [h1]
  obtain ⟨imm, x, b, a, d, maj, g, gn, f⟩ := z
  subst h; rfl

theorem ve_spr (z : V48) (h : z.maj = 0x16) : Form.raw .ve (.v48 z) =
    if bit (fld z.imm 15 1) then some (.vsprShift z.vcom (bit (fld z.imm 0 1)))
    else some (.vsprSet z.vcom (fld z.imm 8 7) (fld z.imm 0 7)) := by
  obtain ⟨imm, m, vb, va, vd, maj, tk, stg, fl⟩ := z
  subst h; rfl

theorem ve_rrb (z : V48) (h : z.maj = 0x17) : Form.raw .ve (.v48 z) =
    if bit (fld z.imm 4 1) then some (.vrrbAdd z.vcom (fld z.imm 0 4)) else some (.vrrbSet z.vcom (fld z.imm 0 4)) := by
  obtain ⟨imm, m, vb, va, vd, maj, tk, stg, fl⟩ := z
  subst h; rfl

theorem ill (d : BitVec 5) (a : BitVec 5) : Statement (.ill d a) := by
  intro st y hst hf hw
  obtain rfl := Option.some.inj hf
  refine decode_of ?_ rfl hw (by intro h; subst h; first | rfl | exact hst)
  clear hw hf
  cases st <;> first | exact Bool.noConfusion hst | rfl

theorem nop : Statement (.nop) := by
  intro st y hst hf hw
  obtain rfl := Option.some.inj hf
  refine decode_of ?_ rfl hw (by intro h; subst h; first | rfl | exact hst)
  clear hw hf
  cases st <;> first | exact Bool.noConfusion hst | rfl

theorem mov (d : BitVec 5) (a : BitVec 5) : Statement (.mov d a) := by
  intro st y hst hf hw
  obtain rfl := Option.some.inj hf
  refine decode_of ?_ rfl hw (by intro h; subst h; first | rfl | exact hst)
  clear hw hf
  cases st <;> first | exact Bool.noConfusion hst | rfl

theorem addC (d : BitVec 5) (a : BitVec 5) : Statement (.addC d a) := by
  intro st y hst hf hw
  obtain rfl := Option.some.inj hf
  refine decode_of ?_ rfl hw (by intro h; subst h; first | rfl | exact hst)
  clear hw hf
  cases st <;> first | exact Bool.noConfusion hst | rfl

theorem subC (d : BitVec 5) (a : BitVec 5) : Statement (.subC d a) := by
  intro st y hst hf hw
  obtain rfl := Option.some.inj hf
  refine decode_of ?_ rfl hw (by intro h; subst h; first | rfl | exact hst)
  clear hw hf
  cases st <;> first | exact Bool.noConfusion hst | rfl

theorem addiC (d : BitVec 5) (i : BitVec 5) : Statement (.addiC d i) := by
  intro st y hst hf hw
  obtain rfl := Option.some.inj hf
  refine decode_of ?_ rfl hw (by intro h; subst h; first | rfl | exact hst)
  clear hw hf
  cases st <;> first | exact Bool.noConfusion hst | rfl

theorem liC (d : BitVec 5) (i : BitVec 5) : Statement (.liC d i) := by
  intro st y hst hf hw
  obtain rfl := Option.some.inj hf
  refine decode_of ?_ rfl hw (by intro h; subst h; first | rfl | exact hst)
  clear hw hf
  cases st <;> first | exact Bool.noConfusion hst | rfl

theorem shliC (d : BitVec 5) (i : BitVec 5) : Statement (.shliC d i) := by
  intro st y hst hf hw
  obtain rfl := Option.some.inj hf
  refine decode_of ?_ rfl hw (by intro h; subst h; first | rfl | exact hst)
  clear hw hf
  cases st <;> first | exact Bool.noConfusion hst | rfl

theorem shriC (d : BitVec 5) (i : BitVec 5) : Statement (.shriC d i) := by
  intro st y hst hf hw
  obtain rfl := Option.some.inj hf
  refine decode_of ?_ rfl hw (by intro h; subst h; first | rfl | exact hst)
  clear hw hf
  cases st <;> first | exact Bool.noConfusion hst | rfl

theorem andC (d : BitVec 5) (a : BitVec 5) : Statement (.andC d a) := by
  intro st y hst hf hw
  obtain rfl := Option.some.inj hf
  refine decode_of ?_ rfl hw (by intro h; subst h; first | rfl | exact hst)
  clear hw hf
  cases st <;> first | exact Bool.noConfusion hst | rfl

theorem orC (d : BitVec 5) (a : BitVec 5) : Statement (.orC d a) := by
  intro st y hst hf hw
  obtain rfl := Option.some.inj hf
  refine decode_of ?_ rfl hw (by intro h; subst h; first | rfl | exact hst)
  clear hw hf
  cases st <;> first | exact Bool.noConfusion hst | rfl

theorem xorC (d : BitVec 5) (a : BitVec 5) : Statement (.xorC d a) := by
  intro st y hst hf hw
  obtain rfl := Option.some.inj hf
  refine decode_of ?_ rfl hw (by intro h; subst h; first | rfl | exact hst)
  clear hw hf
  cases st <;> first | exact Bool.noConfusion hst | rfl

theorem brs (r : BitVec 10) : Statement (.brs r) := by
  intro st y hst hf hw
  obtain rfl := Option.some.inj hf
  refine decode_of ?_ rfl hw (by intro h; subst h; first | rfl | exact hst)
  clear hw hf
  cases st <;> first
    | exact Bool.noConfusion hst
    | (refine (rfl : _ = some (Instr.brs _)).trans ?_
       simp (disch := decide) only [hreg, Form.h5, append_fld, bit_bool, bool_bit, fld_cast, fld_append_hi, fld_append_lo, Nat.reduceSub, fld_all] <;> rfl)

theorem brp (k : BitVec 3) (r : BitVec 5) : Statement (.brp k r) := by
  intro st y hst hf hw
  obtain rfl := Option.some.inj hf
  refine decode_of ?_ rfl hw (by intro h; subst h; first | rfl | exact hst)
  clear hw hf
  cases st <;> first
    | exact Bool.noConfusion hst
    | (refine (rfl : _ = some (Instr.brp _ _)).trans ?_
       simp (disch := decide) only [hreg, Form.h5, append_fld, bit_bool, bool_bit, fld_cast, fld_append_hi, fld_append_lo, Nat.reduceSub, fld_all] <;> rfl)

theorem retC : Statement (.retC) := by
  intro st y hst hf hw
  obtain rfl := Option.some.inj hf
  refine decode_of ?_ rfl hw (by intro h; subst h; first | rfl | exact hst)
  clear hw hf
  cases st <;> first | exact Bool.noConfusion hst | rfl

theorem add (o : RegOp) : Statement (.add o) := by
  intro st y hst hf hw
  obtain rfl := Option.some.inj hf
  refine decode_of ?_ rfl hw (by intro h; subst h; first | rfl | exact hst)
  clear hw hf
  obtain ⟨⟨_, _ | _⟩, _ | _, _, _, _⟩ := o <;> cases st <;> first | exact Bool.noConfusion hst | rfl

theorem sub (o : RegOp) : Statement (.sub o) := by
  intro st y hst hf hw
  obtain rfl := Option.some.inj hf
  refine decode_of ?_ rfl hw (by intro h; subst h; first | rfl | exact hst)
  clear hw hf
  obtain ⟨⟨_, _ | _⟩, _ | _, _, _, _⟩ := o <;> cases st <;> first | exact Bool.noConfusion hst | rfl

theorem and (o : RegOp) : Statement (.and o) := by
  intro st y hst hf hw
  obtain rfl := Option.some.inj hf
  refine decode_of ?_ rfl hw (by intro h; subst h; first | rfl | exact hst)
  clear hw hf
  obtain ⟨⟨_, _ | _⟩, _ | _, _, _, _⟩ := o <;> cases st <;> first | exact Bool.noConfusion hst | rfl

theorem or (o : RegOp) : Statement (.or o) := by
  intro st y hst hf hw
  obtain rfl := Option.some.inj hf
  refine decode_of ?_ rfl hw (by intro h; subst h; first | rfl | exact hst)
  clear hw hf
  obtain ⟨⟨_, _ | _⟩, _ | _, _, _, _⟩ := o <;> cases st <;> first | exact Bool.noConfusion hst | rfl

theorem xor (o : RegOp) : Statement (.xor o) := by
  intro st y hst hf hw
  obtain rfl := Option.some.inj hf
  refine decode_of ?_ rfl hw (by intro h; subst h; first | rfl | exact hst)
  clear hw hf
  obtain ⟨⟨_, _ | _⟩, _ | _, _, _, _⟩ := o <;> cases st <;> first | exact Bool.noConfusion hst | rfl

theorem andn (o : RegOp) : Statement (.andn o) := by
  intro st y hst hf hw
  obtain rfl := Option.some.inj hf
  refine decode_of ?_ rfl hw (by intro h; subst h; first | rfl | exact hst)
  clear hw hf
  obtain ⟨⟨_, _ | _⟩, _ | _, _, _, _⟩ := o <;> cases st <;> first | exact Bool.noConfusion hst | rfl

theorem shl (o : RegOp) : Statement (.shl o) := by
  intro st y hst hf hw
  obtain rfl := Option.some.inj hf
  refine decode_of ?_ rfl hw (by intro h; subst h; first | rfl | exact hst)
  clear hw hf
  obtain ⟨⟨_, _ | _⟩, _ | _, _, _, _⟩ := o <;> cases st <;> first | exact Bool.noConfusion hst | rfl

theorem shr (o : RegOp) : Statement (.shr o) := by
  intro st y hst hf hw
  obtain rfl := Option.some.inj hf
  refine decode_of ?_ rfl hw (by intro h; subst h; first | rfl | exact hst)
  clear hw hf
  obtain ⟨⟨_, _ | _⟩, _ | _, _, _, _⟩ := o <;> cases st <;> first | exact Bool.noConfusion hst | rfl

theorem sra (o : RegOp) : Statement (.sra o) := by
  intro st y hst hf hw
  obtain rfl := Option.some.inj hf
  refine decode_of ?_ rfl hw (by intro h; subst h; first | rfl | exact hst)
  clear hw hf
  obtain ⟨⟨_, _ | _⟩, _ | _, _, _, _⟩ := o <;> cases st <;> first | exact Bool.noConfusion hst | rfl

theorem rol (o : RegOp) : Statement (.rol o) := by
  intro st y hst hf hw
  obtain rfl := Option.some.inj hf
  refine decode_of ?_ rfl hw (by intro h; subst h; first | rfl | exact hst)
  clear hw hf
  obtain ⟨⟨_, _ | _⟩, _ | _, _, _, _⟩ := o <;> cases st <;> first | exact Bool.noConfusion hst | rfl

theorem min (o : RegOp) : Statement (.min o) := by
  intro st y hst hf hw
  obtain rfl := Option.some.inj hf
  refine decode_of ?_ rfl hw (by intro h; subst h; first | rfl | exact hst)
  clear hw hf
  obtain ⟨⟨_, _ | _⟩, _ | _, _, _, _⟩ := o <;> cases st <;> first | exact Bool.noConfusion hst | rfl

theorem max (o : RegOp) : Statement (.max o) := by
  intro st y hst hf hw
  obtain rfl := Option.some.inj hf
  refine decode_of ?_ rfl hw (by intro h; subst h; first | rfl | exact hst)
  clear hw hf
  obtain ⟨⟨_, _ | _⟩, _ | _, _, _, _⟩ := o <;> cases st <;> first | exact Bool.noConfusion hst | rfl

theorem minz (o : RegOp) : Statement (.minz o) := by
  intro st y hst hf hw
  obtain rfl := Option.some.inj hf
  refine decode_of ?_ rfl hw (by intro h; subst h; first | rfl | exact hst)
  clear hw hf
  obtain ⟨⟨_, _ | _⟩, _ | _, _, _, _⟩ := o <;> cases st <;> first | exact Bool.noConfusion hst | rfl

theorem maxz (o : RegOp) : Statement (.maxz o) := by
  intro st y hst hf hw
  obtain rfl := Option.some.inj hf
  refine decode_of ?_ rfl hw (by intro h; subst h; first | rfl | exact hst)
  clear hw hf
  obtain ⟨⟨_, _ | _⟩, _ | _, _, _, _⟩ := o <;> cases st <;> first | exact Bool.noConfusion hst | rfl

theorem absd (o : RegOp) : Statement (.absd o) := by
  intro st y hst hf hw
  obtain rfl := Option.some.inj hf
  refine decode_of ?_ rfl hw (by intro h; subst h; first | rfl | exact hst)
  clear hw hf
  obtain ⟨⟨_, _ | _⟩, _ | _, _, _, _⟩ := o <;> cases st <;> first | exact Bool.noConfusion hst | rfl

theorem mul (o : RegOp) : Statement (.mul o) := by
  intro st y hst hf hw
  obtain rfl := Option.some.inj hf
  refine decode_of ?_ rfl hw (by intro h; subst h; first | rfl | exact hst)
  clear hw hf
  obtain ⟨⟨_, _ | _⟩, _ | _, _, _, _⟩ := o <;> cases st <;> first | exact Bool.noConfusion hst | rfl

theorem mulh (o : RegOp) : Statement (.mulh o) := by
  intro st y hst hf hw
  obtain rfl := Option.some.inj hf
  refine decode_of ?_ rfl hw (by intro h; subst h; first | rfl | exact hst)
  clear hw hf
  obtain ⟨⟨_, _ | _⟩, _ | _, _, _, _⟩ := o <;> cases st <;> first | exact Bool.noConfusion hst | rfl

theorem mulhz (o : RegOp) : Statement (.mulhz o) := by
  intro st y hst hf hw
  obtain rfl := Option.some.inj hf
  refine decode_of ?_ rfl hw (by intro h; subst h; first | rfl | exact hst)
  clear hw hf
  obtain ⟨⟨_, _ | _⟩, _ | _, _, _, _⟩ := o <;> cases st <;> first | exact Bool.noConfusion hst | rfl

theorem div (o : RegOp) : Statement (.div o) := by
  intro st y hst hf hw
  obtain rfl := Option.some.inj hf
  refine decode_of ?_ rfl hw (by intro h; subst h; first | rfl | exact hst)
  clear hw hf
  obtain ⟨⟨_, _ | _⟩, _ | _, _, _, _⟩ := o <;> cases st <;> first | exact Bool.noConfusion hst | rfl

theorem divz (o : RegOp) : Statement (.divz o) := by
  intro st y hst hf hw
  obtain rfl := Option.some.inj hf
  refine decode_of ?_ rfl hw (by intro h; subst h; first | rfl | exact hst)
  clear hw hf
  obtain ⟨⟨_, _ | _⟩, _ | _, _, _, _⟩ := o <;> cases st <;> first | exact Bool.noConfusion hst | rfl

theorem rem (o : RegOp) : Statement (.rem o) := by
  intro st y hst hf hw
  obtain rfl := Option.some.inj hf
  refine decode_of ?_ rfl hw (by intro h; subst h; first | rfl | exact hst)
  clear hw hf
  obtain ⟨⟨_, _ | _⟩, _ | _, _, _, _⟩ := o <;> cases st <;> first | exact Bool.noConfusion hst | rfl

theorem remz (o : RegOp) : Statement (.remz o) := by
  intro st y hst hf hw
  obtain rfl := Option.some.inj hf
  refine decode_of ?_ rfl hw (by intro h; subst h; first | rfl | exact hst)
  clear hw hf
  obtain ⟨⟨_, _ | _⟩, _ | _, _, _, _⟩ := o <;> cases st <;> first | exact Bool.noConfusion hst | rfl

theorem clz (o : UnOp) : Statement (.clz o) := by
  intro st y hst hf hw
  obtain rfl := Option.some.inj hf
  refine decode_of ?_ rfl hw (by intro h; subst h; first | rfl | exact hst)
  clear hw hf
  obtain ⟨⟨_, _ | _⟩, _ | _, _, _⟩ := o <;> cases st <;> first | exact Bool.noConfusion hst | rfl

theorem ctz (o : UnOp) : Statement (.ctz o) := by
  intro st y hst hf hw
  obtain rfl := Option.some.inj hf
  refine decode_of ?_ rfl hw (by intro h; subst h; first | rfl | exact hst)
  clear hw hf
  obtain ⟨⟨_, _ | _⟩, _ | _, _, _⟩ := o <;> cases st <;> first | exact Bool.noConfusion hst | rfl

theorem popc (o : UnOp) : Statement (.popc o) := by
  intro st y hst hf hw
  obtain rfl := Option.some.inj hf
  refine decode_of ?_ rfl hw (by intro h; subst h; first | rfl | exact hst)
  clear hw hf
  obtain ⟨⟨_, _ | _⟩, _ | _, _, _⟩ := o <;> cases st <;> first | exact Bool.noConfusion hst | rfl

theorem brev (o : UnOp) : Statement (.brev o) := by
  intro st y hst hf hw
  obtain rfl := Option.some.inj hf
  refine decode_of ?_ rfl hw (by intro h; subst h; first | rfl | exact hst)
  clear hw hf
  obtain ⟨⟨_, _ | _⟩, _ | _, _, _⟩ := o <;> cases st <;> first | exact Bool.noConfusion hst | rfl

theorem bswap (o : UnOp) : Statement (.bswap o) := by
  intro st y hst hf hw
  obtain rfl := Option.some.inj hf
  refine decode_of ?_ rfl hw (by intro h; subst h; first | rfl | exact hst)
  clear hw hf
  obtain ⟨⟨_, _ | _⟩, _ | _, _, _⟩ := o <;> cases st <;> first | exact Bool.noConfusion hst | rfl

theorem addi (o : ImmOp) : Statement (.addi o) := by
  intro st y hst hf hw
  obtain rfl := Option.some.inj hf
  refine decode_of ?_ rfl hw (by intro h; subst h; first | rfl | exact hst)
  clear hw hf
  obtain ⟨⟨_, _ | _⟩, _, _, _⟩ := o <;> cases st <;> first
    | exact Bool.noConfusion hst
    | (refine (rfl : _ = some (Instr.addi _)).trans ?_
       simp (disch := decide) only [F32.immOp, F32.rel16, F32.gd, hreg, Form.h5, append_fld, bit_bool, bool_bit, fld_cast, fld_append_hi, fld_append_lo, Nat.reduceSub, fld_all] <;> rfl)

theorem andi (o : ImmOp) : Statement (.andi o) := by
  intro st y hst hf hw
  obtain rfl := Option.some.inj hf
  refine decode_of ?_ rfl hw (by intro h; subst h; first | rfl | exact hst)
  clear hw hf
  obtain ⟨⟨_, _ | _⟩, _, _, _⟩ := o <;> cases st <;> first
    | exact Bool.noConfusion hst
    | (refine (rfl : _ = some (Instr.andi _)).trans ?_
       simp (disch := decide) only [F32.immOp, F32.rel16, F32.gd, hreg, Form.h5, append_fld, bit_bool, bool_bit, fld_cast, fld_append_hi, fld_append_lo, Nat.reduceSub, fld_all] <;> rfl)

theorem ori (o : ImmOp) : Statement (.ori o) := by
  intro st y hst hf hw
  obtain rfl := Option.some.inj hf
  refine decode_of ?_ rfl hw (by intro h; subst h; first | rfl | exact hst)
  clear hw hf
  obtain ⟨⟨_, _ | _⟩, _, _, _⟩ := o <;> cases st <;> first
    | exact Bool.noConfusion hst
    | (refine (rfl : _ = some (Instr.ori _)).trans ?_
       simp (disch := decide) only [F32.immOp, F32.rel16, F32.gd, hreg, Form.h5, append_fld, bit_bool, bool_bit, fld_cast, fld_append_hi, fld_append_lo, Nat.reduceSub, fld_all] <;> rfl)

theorem xori (o : ImmOp) : Statement (.xori o) := by
  intro st y hst hf hw
  obtain rfl := Option.some.inj hf
  refine decode_of ?_ rfl hw (by intro h; subst h; first | rfl | exact hst)
  clear hw hf
  obtain ⟨⟨_, _ | _⟩, _, _, _⟩ := o <;> cases st <;> first
    | exact Bool.noConfusion hst
    | (refine (rfl : _ = some (Instr.xori _)).trans ?_
       simp (disch := decide) only [F32.immOp, F32.rel16, F32.gd, hreg, Form.h5, append_fld, bit_bool, bool_bit, fld_cast, fld_append_hi, fld_append_lo, Nat.reduceSub, fld_all] <;> rfl)

theorem shli (o : ImmOp) : Statement (.shli o) := by
  intro st y hst hf hw
  obtain rfl := Option.some.inj hf
  refine decode_of ?_ rfl hw (by intro h; subst h; first | rfl | exact hst)
  clear hw hf
  obtain ⟨⟨_, _ | _⟩, _, _, _⟩ := o <;> cases st <;> first
    | exact Bool.noConfusion hst
    | (refine (rfl : _ = some (Instr.shli _)).trans ?_
       simp (disch := decide) only [F32.immOp, F32.rel16, F32.gd, hreg, Form.h5, append_fld, bit_bool, bool_bit, fld_cast, fld_append_hi, fld_append_lo, Nat.reduceSub, fld_all] <;> rfl)

theorem shri (o : ImmOp) : Statement (.shri o) := by
  intro st y hst hf hw
  obtain rfl := Option.some.inj hf
  refine decode_of ?_ rfl hw (by intro h; subst h; first | rfl | exact hst)
  clear hw hf
  obtain ⟨⟨_, _ | _⟩, _, _, _⟩ := o <;> cases st <;> first
    | exact Bool.noConfusion hst
    | (refine (rfl : _ = some (Instr.shri _)).trans ?_
       simp (disch := decide) only [F32.immOp, F32.rel16, F32.gd, hreg, Form.h5, append_fld, bit_bool, bool_bit, fld_cast, fld_append_hi, fld_append_lo, Nat.reduceSub, fld_all] <;> rfl)

theorem srai (o : ImmOp) : Statement (.srai o) := by
  intro st y hst hf hw
  obtain rfl := Option.some.inj hf
  refine decode_of ?_ rfl hw (by intro h; subst h; first | rfl | exact hst)
  clear hw hf
  obtain ⟨⟨_, _ | _⟩, _, _, _⟩ := o <;> cases st <;> first
    | exact Bool.noConfusion hst
    | (refine (rfl : _ = some (Instr.srai _)).trans ?_
       simp (disch := decide) only [F32.immOp, F32.rel16, F32.gd, hreg, Form.h5, append_fld, bit_bool, bool_bit, fld_cast, fld_append_hi, fld_append_lo, Nat.reduceSub, fld_all] <;> rfl)

theorem muli (o : ImmOp) : Statement (.muli o) := by
  intro st y hst hf hw
  obtain rfl := Option.some.inj hf
  refine decode_of ?_ rfl hw (by intro h; subst h; first | rfl | exact hst)
  clear hw hf
  obtain ⟨⟨_, _ | _⟩, _, _, _⟩ := o <;> cases st <;> first
    | exact Bool.noConfusion hst
    | (refine (rfl : _ = some (Instr.muli _)).trans ?_
       simp (disch := decide) only [F32.immOp, F32.rel16, F32.gd, hreg, Form.h5, append_fld, bit_bool, bool_bit, fld_cast, fld_append_hi, fld_append_lo, Nat.reduceSub, fld_all] <;> rfl)

theorem lea (gd : Guard) (d : BitVec 5) (a : BitVec 5) (b : BitVec 5) (sh : BitVec 4) : Statement (.lea gd d a b sh) := by
  intro st y hst hf hw
  obtain rfl := Option.some.inj hf
  refine decode_of ?_ rfl hw (by intro h; subst h; first | rfl | exact hst)
  clear hw hf
  obtain ⟨_, _ | _⟩ := gd <;> cases st <;> first | exact Bool.noConfusion hst | rfl

theorem cmp (gd : Guard) (w : Bool) (p : BitVec 3) (a : BitVec 5) (b : BitVec 5) (c : BitVec 4) : Statement (.cmp gd w p a b c) := by
  intro st y hst hf hw
  obtain rfl := Option.some.inj hf
  refine decode_of ?_ rfl hw (by intro h; subst h; first | rfl | exact hst)
  clear hw hf
  obtain ⟨_, _ | _⟩ := gd <;> cases w <;> cases st <;> first
    | exact Bool.noConfusion hst
    | (refine (rfl : _ = some (Instr.cmp _ _ _ _ _ _)).trans ?_
       simp (disch := decide) only [F32.immOp, F32.rel16, F32.gd, hreg, Form.h5, append_fld, bit_bool, bool_bit, fld_cast, fld_append_hi, fld_append_lo, Nat.reduceSub, fld_all] <;> rfl)

theorem cmpi (gd : Guard) (p : BitVec 3) (a : BitVec 5) (imm : BitVec 6) (c : BitVec 4) : Statement (.cmpi gd p a imm c) := by
  intro st y hst hf hw
  obtain rfl := Option.some.inj hf
  refine decode_of ?_ rfl hw (by intro h; subst h; first | rfl | exact hst)
  clear hw hf
  obtain ⟨_, _ | _⟩ := gd <;> cases st <;> first
    | exact Bool.noConfusion hst
    | (refine (rfl : _ = some (Instr.cmpi _ _ _ _ _)).trans ?_
       simp (disch := decide) only [F32.immOp, F32.rel16, F32.gd, hreg, Form.h5, append_fld, bit_bool, bool_bit, fld_cast, fld_append_hi, fld_append_lo, Nat.reduceSub, fld_all] <;> rfl)

theorem pand (gd : Guard) (d : BitVec 3) (a : BitVec 3) (b : BitVec 3) : Statement (.pand gd d a b) := by
  intro st y hst hf hw
  obtain rfl := Option.some.inj hf
  refine decode_of ?_ rfl hw (by intro h; subst h; first | rfl | exact hst)
  clear hw hf
  obtain ⟨_, _ | _⟩ := gd <;> cases st <;> first
    | exact Bool.noConfusion hst
    | (refine (rfl : _ = some (Instr.pand _ _ _ _)).trans ?_
       simp (disch := decide) only [F32.immOp, F32.rel16, F32.gd, hreg, Form.h5, append_fld, bit_bool, bool_bit, fld_cast, fld_append_hi, fld_append_lo, Nat.reduceSub, fld_all] <;> rfl)

theorem por (gd : Guard) (d : BitVec 3) (a : BitVec 3) (b : BitVec 3) : Statement (.por gd d a b) := by
  intro st y hst hf hw
  obtain rfl := Option.some.inj hf
  refine decode_of ?_ rfl hw (by intro h; subst h; first | rfl | exact hst)
  clear hw hf
  obtain ⟨_, _ | _⟩ := gd <;> cases st <;> first
    | exact Bool.noConfusion hst
    | (refine (rfl : _ = some (Instr.por _ _ _ _)).trans ?_
       simp (disch := decide) only [F32.immOp, F32.rel16, F32.gd, hreg, Form.h5, append_fld, bit_bool, bool_bit, fld_cast, fld_append_hi, fld_append_lo, Nat.reduceSub, fld_all] <;> rfl)

theorem pxor (gd : Guard) (d : BitVec 3) (a : BitVec 3) (b : BitVec 3) : Statement (.pxor gd d a b) := by
  intro st y hst hf hw
  obtain rfl := Option.some.inj hf
  refine decode_of ?_ rfl hw (by intro h; subst h; first | rfl | exact hst)
  clear hw hf
  obtain ⟨_, _ | _⟩ := gd <;> cases st <;> first
    | exact Bool.noConfusion hst
    | (refine (rfl : _ = some (Instr.pxor _ _ _ _)).trans ?_
       simp (disch := decide) only [F32.immOp, F32.rel16, F32.gd, hreg, Form.h5, append_fld, bit_bool, bool_bit, fld_cast, fld_append_hi, fld_append_lo, Nat.reduceSub, fld_all] <;> rfl)

theorem pandn (gd : Guard) (d : BitVec 3) (a : BitVec 3) (b : BitVec 3) : Statement (.pandn gd d a b) := by
  intro st y hst hf hw
  obtain rfl := Option.some.inj hf
  refine decode_of ?_ rfl hw (by intro h; subst h; first | rfl | exact hst)
  clear hw hf
  obtain ⟨_, _ | _⟩ := gd <;> cases st <;> first
    | exact Bool.noConfusion hst
    | (refine (rfl : _ = some (Instr.pandn _ _ _ _)).trans ?_
       simp (disch := decide) only [F32.immOp, F32.rel16, F32.gd, hreg, Form.h5, append_fld, bit_bool, bool_bit, fld_cast, fld_append_hi, fld_append_lo, Nat.reduceSub, fld_all] <;> rfl)

theorem pnot (gd : Guard) (d : BitVec 3) (a : BitVec 3) : Statement (.pnot gd d a) := by
  intro st y hst hf hw
  obtain rfl := Option.some.inj hf
  refine decode_of ?_ rfl hw (by intro h; subst h; first | rfl | exact hst)
  clear hw hf
  obtain ⟨_, _ | _⟩ := gd <;> cases st <;> first
    | exact Bool.noConfusion hst
    | (refine (rfl : _ = some (Instr.pnot _ _ _)).trans ?_
       simp (disch := decide) only [F32.immOp, F32.rel16, F32.gd, hreg, Form.h5, append_fld, bit_bool, bool_bit, fld_cast, fld_append_hi, fld_append_lo, Nat.reduceSub, fld_all] <;> rfl)

theorem pmov (gd : Guard) (d : BitVec 3) (a : BitVec 3) : Statement (.pmov gd d a) := by
  intro st y hst hf hw
  obtain rfl := Option.some.inj hf
  refine decode_of ?_ rfl hw (by intro h; subst h; first | rfl | exact hst)
  clear hw hf
  obtain ⟨_, _ | _⟩ := gd <;> cases st <;> first
    | exact Bool.noConfusion hst
    | (refine (rfl : _ = some (Instr.pmov _ _ _)).trans ?_
       simp (disch := decide) only [F32.immOp, F32.rel16, F32.gd, hreg, Form.h5, append_fld, bit_bool, bool_bit, fld_cast, fld_append_hi, fld_append_lo, Nat.reduceSub, fld_all] <;> rfl)

theorem pset (gd : Guard) (d : BitVec 3) : Statement (.pset gd d) := by
  intro st y hst hf hw
  obtain rfl := Option.some.inj hf
  refine decode_of ?_ rfl hw (by intro h; subst h; first | rfl | exact hst)
  clear hw hf
  obtain ⟨_, _ | _⟩ := gd <;> cases st <;> first
    | exact Bool.noConfusion hst
    | (refine (rfl : _ = some (Instr.pset _ _)).trans ?_
       simp (disch := decide) only [F32.immOp, F32.rel16, F32.gd, hreg, Form.h5, append_fld, bit_bool, bool_bit, fld_cast, fld_append_hi, fld_append_lo, Nat.reduceSub, fld_all] <;> rfl)

theorem pclr (gd : Guard) (d : BitVec 3) : Statement (.pclr gd d) := by
  intro st y hst hf hw
  obtain rfl := Option.some.inj hf
  refine decode_of ?_ rfl hw (by intro h; subst h; first | rfl | exact hst)
  clear hw hf
  obtain ⟨_, _ | _⟩ := gd <;> cases st <;> first
    | exact Bool.noConfusion hst
    | (refine (rfl : _ = some (Instr.pclr _ _)).trans ?_
       simp (disch := decide) only [F32.immOp, F32.rel16, F32.gd, hreg, Form.h5, append_fld, bit_bool, bool_bit, fld_cast, fld_append_hi, fld_append_lo, Nat.reduceSub, fld_all] <;> rfl)

theorem pget (gd : Guard) (d : BitVec 5) : Statement (.pget gd d) := by
  intro st y hst hf hw
  obtain rfl := Option.some.inj hf
  refine decode_of ?_ rfl hw (by intro h; subst h; first | rfl | exact hst)
  clear hw hf
  obtain ⟨_, _ | _⟩ := gd <;> cases st <;> first | exact Bool.noConfusion hst | rfl

theorem pput (gd : Guard) (a : BitVec 5) : Statement (.pput gd a) := by
  intro st y hst hf hw
  obtain rfl := Option.some.inj hf
  refine decode_of ?_ rfl hw (by intro h; subst h; first | rfl | exact hst)
  clear hw hf
  obtain ⟨_, _ | _⟩ := gd <;> cases st <;> first | exact Bool.noConfusion hst | rfl

theorem br (gd : Guard) (r : BitVec 16) (hint : Bool) : Statement (.br gd r hint) := by
  intro st y hst hf hw
  obtain rfl := Option.some.inj hf
  refine decode_of ?_ rfl hw (by intro h; subst h; first | rfl | exact hst)
  clear hw hf
  obtain ⟨_, _ | _⟩ := gd <;> cases hint <;> cases st <;> first
    | exact Bool.noConfusion hst
    | (refine (rfl : _ = some (Instr.br _ _ _)).trans ?_
       simp (disch := decide) only [F32.immOp, F32.rel16, F32.gd, hreg, Form.h5, append_fld, bit_bool, bool_bit, fld_cast, fld_append_hi, fld_append_lo, Nat.reduceSub, fld_all] <;> rfl)

theorem call (gd : Guard) (r : BitVec 16) : Statement (.call gd r) := by
  intro st y hst hf hw
  obtain rfl := Option.some.inj hf
  refine decode_of ?_ rfl hw (by intro h; subst h; first | rfl | exact hst)
  clear hw hf
  obtain ⟨_, _ | _⟩ := gd <;> cases st <;> first
    | exact Bool.noConfusion hst
    | (refine (rfl : _ = some (Instr.call _ _)).trans ?_
       simp (disch := decide) only [F32.immOp, F32.rel16, F32.gd, hreg, Form.h5, append_fld, bit_bool, bool_bit, fld_cast, fld_append_hi, fld_append_lo, Nat.reduceSub, fld_all] <;> rfl)

theorem jmp (gd : Guard) (a : BitVec 5) : Statement (.jmp gd a) := by
  intro st y hst hf hw
  obtain rfl := Option.some.inj hf
  refine decode_of ?_ rfl hw (by intro h; subst h; first | rfl | exact hst)
  clear hw hf
  obtain ⟨_, _ | _⟩ := gd <;> cases st <;> first | exact Bool.noConfusion hst | rfl

theorem callr (gd : Guard) (a : BitVec 5) : Statement (.callr gd a) := by
  intro st y hst hf hw
  obtain rfl := Option.some.inj hf
  refine decode_of ?_ rfl hw (by intro h; subst h; first | rfl | exact hst)
  clear hw hf
  obtain ⟨_, _ | _⟩ := gd <;> cases st <;> first | exact Bool.noConfusion hst | rfl

theorem ret (gd : Guard) : Statement (.ret gd) := by
  intro st y hst hf hw
  obtain rfl := Option.some.inj hf
  refine decode_of ?_ rfl hw (by intro h; subst h; first | rfl | exact hst)
  clear hw hf
  obtain ⟨_, _ | _⟩ := gd <;> cases st <;> first | exact Bool.noConfusion hst | rfl

theorem push (gd : Guard) (q : Bool) (a : BitVec 5) : Statement (.push gd q a) := by
  intro st y hst hf hw
  obtain rfl := Option.some.inj hf
  refine decode_of ?_ rfl hw (by intro h; subst h; first | rfl | exact hst)
  clear hw hf
  obtain ⟨_, _ | _⟩ := gd <;> cases q <;> cases st <;> first | exact Bool.noConfusion hst | rfl

theorem pop (gd : Guard) (x : Bool) (b : BitVec 3) (d : BitVec 5) (f : BitVec 4) : Statement (.pop gd x b d f) := by
  intro st y hst hf hw
  obtain rfl := Option.some.inj hf
  refine decode_of ?_ rfl hw (by intro h; subst h; rfl)
  clear hw hf
  obtain ⟨_, _ | _⟩ := gd <;> cases x <;> cases st <;> first
    | exact Bool.noConfusion hst
    | (refine (rfl : _ = some (Instr.pop _ _ _ _ _)).trans ?_
       simp (disch := decide) only [F32.immOp, F32.rel16, F32.gd, hreg, Form.h5, append_fld, bit_bool, bool_bit, fld_cast, fld_append_hi, fld_append_lo, Nat.reduceSub, fld_all] <;> rfl)
    | (have h1 : f = 1 := by
         have h2 : (!(f != 1) && true) = true := hst
         simpa using h2
       subst h1
       refine (rfl : _ = some (Instr.pop _ _ _ _ _)).trans ?_
       simp (disch := decide) only [F32.immOp, F32.rel16, F32.gd, hreg, Form.h5, append_fld, bit_bool, bool_bit, fld_cast, fld_append_hi, fld_append_lo, Nat.reduceSub, fld_all] <;> rfl)

theorem semp (gd : Guard) (n : BitVec 6) (a : BitVec 5) : Statement (.semp gd n a) := by
  intro st y hst hf hw
  obtain rfl := Option.some.inj hf
  refine decode_of ?_ rfl hw (by intro h; subst h; first | rfl | exact hst)
  clear hw hf
  obtain ⟨_, _ | _⟩ := gd <;> cases st <;> first
    | exact Bool.noConfusion hst
    | (refine (rfl : _ = some (Instr.semp _ _ _)).trans ?_
       simp (disch := decide) only [F32.immOp, F32.rel16, F32.gd, hreg, Form.h5, append_fld, bit_bool, bool_bit, fld_cast, fld_append_hi, fld_append_lo, Nat.reduceSub, fld_all] <;> rfl)

theorem semw (gd : Guard) (n : BitVec 6) (a : BitVec 5) : Statement (.semw gd n a) := by
  intro st y hst hf hw
  obtain rfl := Option.some.inj hf
  refine decode_of ?_ rfl hw (by intro h; subst h; first | rfl | exact hst)
  clear hw hf
  obtain ⟨_, _ | _⟩ := gd <;> cases st <;> first
    | exact Bool.noConfusion hst
    | (refine (rfl : _ = some (Instr.semw _ _ _)).trans ?_
       simp (disch := decide) only [F32.immOp, F32.rel16, F32.gd, hreg, Form.h5, append_fld, bit_bool, bool_bit, fld_cast, fld_append_hi, fld_append_lo, Nat.reduceSub, fld_all] <;> rfl)

theorem mark (gd : Guard) (d : BitVec 5) (e : BitVec 2) : Statement (.mark gd d e) := by
  intro st y hst hf hw
  obtain rfl := Option.some.inj hf
  refine decode_of ?_ rfl hw (by intro h; subst h; first | rfl | exact hst)
  clear hw hf
  obtain ⟨_, _ | _⟩ := gd <;> cases st <;> first
    | exact Bool.noConfusion hst
    | (refine (rfl : _ = some (Instr.mark _ _ _)).trans ?_
       simp (disch := decide) only [F32.immOp, F32.rel16, F32.gd, hreg, Form.h5, append_fld, bit_bool, bool_bit, fld_cast, fld_append_hi, fld_append_lo, Nat.reduceSub, fld_all] <;> rfl)
    | (show (if bit (fld (cat (0#2 ++ e)) 2 1 : BitVec 1) = true then some (Instr.markWait _ _ _) else some (Instr.mark ⟨_, _⟩ d (fld (cat (0#2 ++ e)) 0 2))) = _
       simp (disch := decide) only [fld_cast, fld_append_hi, fld_append_lo, fld_all, Nat.reduceSub]
       rfl)

theorem markWait (gd : Guard) (a : BitVec 5) (e : BitVec 2) : Statement (.markWait gd a e) := by
  intro st y hst hf hw
  obtain rfl := Option.some.inj hf
  refine decode_of ?_ rfl hw (by intro h; subst h; first | rfl | exact hst)
  clear hw hf
  obtain ⟨_, _ | _⟩ := gd <;> cases st <;> first
    | exact Bool.noConfusion hst
    | (refine (rfl : _ = some (Instr.markWait _ _ _)).trans ?_
       simp (disch := decide) only [F32.immOp, F32.rel16, F32.gd, hreg, Form.h5, append_fld, bit_bool, bool_bit, fld_cast, fld_append_hi, fld_append_lo, Nat.reduceSub, fld_all] <;> rfl)
    | (show (if bit (fld (cat (0b01#2 ++ e)) 2 1 : BitVec 1) = true then some (Instr.markWait ⟨_, _⟩ a (fld (cat (0b01#2 ++ e)) 0 2)) else some (Instr.mark _ _ _)) = _
       simp (disch := decide) only [fld_cast, fld_append_hi, fld_append_lo, fld_all, Nat.reduceSub]
       rfl)

theorem rdvw (gd : Guard) (d : BitVec 5) (a : BitVec 5) (k : BitVec 3) : Statement (.rdvw gd d a k) := by
  intro st y hst hf hw
  obtain rfl := Option.some.inj hf
  refine decode_of ?_ rfl hw (by intro h; subst h; first | rfl | exact hst)
  clear hw hf
  obtain ⟨_, _ | _⟩ := gd <;> cases st <;> first
    | exact Bool.noConfusion hst
    | (refine (rfl : _ = some (Instr.rdvw _ _ _ _)).trans ?_
       simp (disch := decide) only [F32.immOp, F32.rel16, F32.gd, hreg, Form.h5, append_fld, bit_bool, bool_bit, fld_cast, fld_append_hi, fld_append_lo, Nat.reduceSub, fld_all] <;> rfl)

theorem bpop (gd : Guard) (d : BitVec 5) : Statement (.bpop gd d) := by
  intro st y hst hf hw
  obtain rfl := Option.some.inj hf
  refine decode_of ?_ rfl hw (by intro h; subst h; first | rfl | exact hst)
  clear hw hf
  obtain ⟨_, _ | _⟩ := gd <;> cases st <;> first | exact Bool.noConfusion hst | rfl

theorem bget (gd : Guard) (d : BitVec 5) (a : BitVec 5) (f : BitVec 4) : Statement (.bget gd d a f) := by
  intro st y hst hf hw
  obtain rfl := Option.some.inj hf
  refine decode_of ?_ rfl hw (by intro h; subst h; first | rfl | exact hst)
  clear hw hf
  obtain ⟨_, _ | _⟩ := gd <;> cases st <;> first | exact Bool.noConfusion hst | rfl

theorem bdone (gd : Guard) (a : BitVec 5) : Statement (.bdone gd a) := by
  intro st y hst hf hw
  obtain rfl := Option.some.inj hf
  refine decode_of ?_ rfl hw (by intro h; subst h; first | rfl | exact hst)
  clear hw hf
  obtain ⟨_, _ | _⟩ := gd <;> cases st <;> first | exact Bool.noConfusion hst | rfl

theorem lease (gd : Guard) : Statement (.lease gd) := by
  intro st y hst hf hw
  obtain rfl := Option.some.inj hf
  refine decode_of ?_ rfl hw (by intro h; subst h; first | rfl | exact hst)
  clear hw hf
  obtain ⟨_, _ | _⟩ := gd <;> cases st <;> first | exact Bool.noConfusion hst | rfl

theorem unlease (gd : Guard) : Statement (.unlease gd) := by
  intro st y hst hf hw
  obtain rfl := Option.some.inj hf
  refine decode_of ?_ rfl hw (by intro h; subst h; first | rfl | exact hst)
  clear hw hf
  obtain ⟨_, _ | _⟩ := gd <;> cases st <;> first | exact Bool.noConfusion hst | rfl

theorem leaseq (gd : Guard) (d : BitVec 5) : Statement (.leaseq gd d) := by
  intro st y hst hf hw
  obtain rfl := Option.some.inj hf
  refine decode_of ?_ rfl hw (by intro h; subst h; first | rfl | exact hst)
  clear hw hf
  obtain ⟨_, _ | _⟩ := gd <;> cases st <;> first | exact Bool.noConfusion hst | rfl

theorem exit (gd : Guard) : Statement (.exit gd) := by
  intro st y hst hf hw
  obtain rfl := Option.some.inj hf
  refine decode_of ?_ rfl hw (by intro h; subst h; first | rfl | exact hst)
  clear hw hf
  obtain ⟨_, _ | _⟩ := gd <;> cases st <;> first | exact Bool.noConfusion hst | rfl

theorem exitA (gd : Guard) : Statement (.exitA gd) := by
  intro st y hst hf hw
  obtain rfl := Option.some.inj hf
  refine decode_of ?_ rfl hw (by intro h; subst h; first | rfl | exact hst)
  clear hw hf
  obtain ⟨_, _ | _⟩ := gd <;> cases st <;> first | exact Bool.noConfusion hst | rfl

theorem trap (gd : Guard) (n : BitVec 10) : Statement (.trap gd n) := by
  intro st y hst hf hw
  obtain rfl := Option.some.inj hf
  refine decode_of ?_ rfl hw (by intro h; subst h; first | rfl | exact hst)
  clear hw hf
  obtain ⟨_, _ | _⟩ := gd <;> cases st <;> first
    | exact Bool.noConfusion hst
    | (refine (rfl : _ = some (Instr.trap _ _)).trans ?_
       simp (disch := decide) only [F32.immOp, F32.rel16, F32.gd, hreg, Form.h5, append_fld, bit_bool, bool_bit, fld_cast, fld_append_hi, fld_append_lo, Nat.reduceSub, fld_all] <;> rfl)

theorem eret (gd : Guard) : Statement (.eret gd) := by
  intro st y hst hf hw
  obtain rfl := Option.some.inj hf
  refine decode_of ?_ rfl hw (by intro h; subst h; first | rfl | exact hst)
  clear hw hf
  obtain ⟨_, _ | _⟩ := gd <;> cases st <;> first | exact Bool.noConfusion hst | rfl

theorem drain (gd : Guard) (m : BitVec 4) : Statement (.drain gd m) := by
  intro st y hst hf hw
  obtain rfl := Option.some.inj hf
  refine decode_of ?_ rfl hw (by intro h; subst h; first | rfl | exact hst)
  clear hw hf
  obtain ⟨_, _ | _⟩ := gd <;> cases st <;> first | exact Bool.noConfusion hst | rfl

theorem ld (o : MemOp) : Statement (.ld o) := by
  intro st y hst hf hw
  obtain rfl := Option.some.inj hf
  refine decode_of ?_ rfl hw (by intro h; subst h; first | rfl | exact hst)
  clear hw hf
  obtain ⟨⟨_, _ | _⟩, _, _, _, _, _, _⟩ := o <;> cases st <;> first
    | exact Bool.noConfusion hst
    | (refine (rfl : _ = some (Instr.ld _)).trans ?_
       simp (disch := decide) only [F48.gd, F48.mem, F48.atom, F48.imm27, hreg, Form.h5, append_fld, bit_bool, bool_bit, fld_cast, fld_append_hi, fld_append_lo, Nat.reduceSub, fld_all] <;> rfl)

theorem st (o : MemOp) : Statement (.st o) := by
  intro st y hst hf hw
  obtain rfl := Option.some.inj hf
  refine decode_of ?_ rfl hw (by intro h; subst h; first | rfl | exact hst)
  clear hw hf
  obtain ⟨⟨_, _ | _⟩, _, _, _, _, _, _⟩ := o <;> cases st <;> first
    | exact Bool.noConfusion hst
    | (refine (rfl : _ = some (Instr.st _)).trans ?_
       simp (disch := decide) only [F48.gd, F48.mem, F48.atom, F48.imm27, hreg, Form.h5, append_fld, bit_bool, bool_bit, fld_cast, fld_append_hi, fld_append_lo, Nat.reduceSub, fld_all] <;> rfl)

theorem amo (o : AtomOp) : Statement (.amo o) := by
  intro st y hst hf hw
  obtain rfl := Option.some.inj hf
  refine decode_of ?_ rfl hw (by intro h; subst h; first | rfl | exact hst)
  clear hw hf
  obtain ⟨⟨_, _ | _⟩, _, _, _, _, _, _, _, _⟩ := o <;> cases st <;> first
    | exact Bool.noConfusion hst
    | (refine (rfl : _ = some (Instr.amo _)).trans ?_
       simp (disch := decide) only [F48.gd, F48.mem, F48.atom, F48.imm27, hreg, Form.h5, append_fld, bit_bool, bool_bit, fld_cast, fld_append_hi, fld_append_lo, Nat.reduceSub, fld_all] <;> rfl)

theorem fence (gd : Guard) (sc : BitVec 3) (mask : BitVec 16) : Statement (.fence gd sc mask) := by
  intro st y hst hf hw
  obtain rfl := Option.some.inj hf
  refine decode_of ?_ rfl hw (by intro h; subst h; first | rfl | exact hst)
  clear hw hf
  obtain ⟨_, _ | _⟩ := gd <;> cases st <;> first
    | exact Bool.noConfusion hst
    | (refine (rfl : _ = some (Instr.fence _ _ _)).trans ?_
       simp (disch := decide) only [F48.gd, F48.mem, F48.atom, F48.imm27, hreg, Form.h5, append_fld, bit_bool, bool_bit, fld_cast, fld_append_hi, fld_append_lo, Nat.reduceSub, fld_all] <;> rfl)

theorem strel (o : MemOp) : Statement (.strel o) := by
  intro st y hst hf hw
  obtain rfl := Option.some.inj hf
  refine decode_of ?_ rfl hw (by intro h; subst h; first | rfl | exact hst)
  clear hw hf
  obtain ⟨⟨_, _ | _⟩, _, _, _, _, _, _⟩ := o <;> cases st <;> first
    | exact Bool.noConfusion hst
    | (refine (rfl : _ = some (Instr.strel _)).trans ?_
       simp (disch := decide) only [F48.gd, F48.mem, F48.atom, F48.imm27, hreg, Form.h5, append_fld, bit_bool, bool_bit, fld_cast, fld_append_hi, fld_append_lo, Nat.reduceSub, fld_all] <;> rfl)

theorem ldacq (o : MemOp) : Statement (.ldacq o) := by
  intro st y hst hf hw
  obtain rfl := Option.some.inj hf
  refine decode_of ?_ rfl hw (by intro h; subst h; first | rfl | exact hst)
  clear hw hf
  obtain ⟨⟨_, _ | _⟩, _, _, _, _, _, _⟩ := o <;> cases st <;> first
    | exact Bool.noConfusion hst
    | (refine (rfl : _ = some (Instr.ldacq _)).trans ?_
       simp (disch := decide) only [F48.gd, F48.mem, F48.atom, F48.imm27, hreg, Form.h5, append_fld, bit_bool, bool_bit, fld_cast, fld_append_hi, fld_append_lo, Nat.reduceSub, fld_all] <;> rfl)

theorem waitaddr (o : MemOp) : Statement (.waitaddr o) := by
  intro st y hst hf hw
  obtain rfl := Option.some.inj hf
  refine decode_of ?_ rfl hw (by intro h; subst h; first | rfl | exact hst)
  clear hw hf
  obtain ⟨⟨_, _ | _⟩, _, _, _, _, _, _⟩ := o <;> cases st <;> first
    | exact Bool.noConfusion hst
    | (refine (rfl : _ = some (Instr.waitaddr _)).trans ?_
       simp (disch := decide) only [F48.gd, F48.mem, F48.atom, F48.imm27, hreg, Form.h5, append_fld, bit_bool, bool_bit, fld_cast, fld_append_hi, fld_append_lo, Nat.reduceSub, fld_all] <;> rfl)

theorem li (gd : Guard) (d : BitVec 5) (imm : BitVec 27) : Statement (.li gd d imm) := by
  intro st y hst hf hw
  obtain rfl := Option.some.inj hf
  refine decode_of ?_ rfl hw (by intro h; subst h; first | rfl | exact hst)
  clear hw hf
  obtain ⟨_, _ | _⟩ := gd <;> cases st <;> first
    | exact Bool.noConfusion hst
    | (refine (rfl : _ = some (Instr.li _ _ _)).trans ?_
       simp (disch := decide) only [F48.gd, F48.mem, F48.atom, F48.imm27, hreg, Form.h5, append_fld, bit_bool, bool_bit, fld_cast, fld_append_hi, fld_append_lo, Nat.reduceSub, fld_all] <;> rfl)

theorem lih (gd : Guard) (d : BitVec 5) (imm : BitVec 27) : Statement (.lih gd d imm) := by
  intro st y hst hf hw
  obtain rfl := Option.some.inj hf
  refine decode_of ?_ rfl hw (by intro h; subst h; first | rfl | exact hst)
  clear hw hf
  obtain ⟨_, _ | _⟩ := gd <;> cases st <;> first
    | exact Bool.noConfusion hst
    | (refine (rfl : _ = some (Instr.lih _ _ _)).trans ?_
       simp (disch := decide) only [F48.gd, F48.mem, F48.atom, F48.imm27, hreg, Form.h5, append_fld, bit_bool, bool_bit, fld_cast, fld_append_hi, fld_append_lo, Nat.reduceSub, fld_all] <;> rfl)

theorem brl (gd : Guard) (r : BitVec 32) (hint : Bool) : Statement (.brl gd r hint) := by
  intro st y hst hf hw
  obtain rfl := Option.some.inj hf
  refine decode_of ?_ rfl hw (by intro h; subst h; first | rfl | exact hst)
  clear hw hf
  obtain ⟨_, _ | _⟩ := gd <;> cases hint <;> cases st <;> first
    | exact Bool.noConfusion hst
    | (refine (rfl : _ = some (Instr.brl _ _ _)).trans ?_
       simp (disch := decide) only [F48.gd, F48.mem, F48.atom, F48.imm27, hreg, Form.h5, append_fld, bit_bool, bool_bit, fld_cast, fld_append_hi, fld_append_lo, Nat.reduceSub, fld_all] <;> rfl)

theorem addpc (gd : Guard) (d : BitVec 5) (imm : BitVec 27) : Statement (.addpc gd d imm) := by
  intro st y hst hf hw
  obtain rfl := Option.some.inj hf
  refine decode_of ?_ rfl hw (by intro h; subst h; first | rfl | exact hst)
  clear hw hf
  obtain ⟨_, _ | _⟩ := gd <;> cases st <;> first
    | exact Bool.noConfusion hst
    | (refine (rfl : _ = some (Instr.addpc _ _ _)).trans ?_
       simp (disch := decide) only [F48.gd, F48.mem, F48.atom, F48.imm27, hreg, Form.h5, append_fld, bit_bool, bool_bit, fld_cast, fld_append_hi, fld_append_lo, Nat.reduceSub, fld_all] <;> rfl)

theorem bfx (gd : Guard) (d : BitVec 5) (a : BitVec 5) (pos : BitVec 6) (len : BitVec 6) : Statement (.bfx gd d a pos len) := by
  intro st y hst hf hw
  obtain rfl := Option.some.inj hf
  refine decode_of ?_ rfl hw (by intro h; subst h; first | rfl | exact hst)
  clear hw hf
  obtain ⟨_, _ | _⟩ := gd <;> cases st <;> first
    | exact Bool.noConfusion hst
    | (refine (rfl : _ = some (Instr.bfx _ _ _ _ _)).trans ?_
       simp (disch := decide) only [F48.gd, F48.mem, F48.atom, F48.imm27, hreg, Form.h5, append_fld, bit_bool, bool_bit, fld_cast, fld_append_hi, fld_append_lo, Nat.reduceSub, fld_all] <;> rfl)
    | (show ((if bit (fld (cat (0b0000#4 ++ len ++ pos)) 12 1 : BitVec 1) = true then some (Instr.bfxs ⟨_, _⟩ d a (fld (cat (0b0000#4 ++ len ++ pos)) 0 6) (fld (cat (0b0000#4 ++ len ++ pos)) 6 6)) else some (Instr.bfx ⟨_, _⟩ d a (fld (cat (0b0000#4 ++ len ++ pos)) 0 6) (fld (cat (0b0000#4 ++ len ++ pos)) 6 6))) <|> _) = _
       simp (disch := decide) only [fld_cast, fld_append_hi, fld_append_lo, fld_all, Nat.reduceSub]
       rfl)

theorem bfxs (gd : Guard) (d : BitVec 5) (a : BitVec 5) (pos : BitVec 6) (len : BitVec 6) : Statement (.bfxs gd d a pos len) := by
  intro st y hst hf hw
  obtain rfl := Option.some.inj hf
  refine decode_of ?_ rfl hw (by intro h; subst h; first | rfl | exact hst)
  clear hw hf
  obtain ⟨_, _ | _⟩ := gd <;> cases st <;> first
    | exact Bool.noConfusion hst
    | (refine (rfl : _ = some (Instr.bfxs _ _ _ _ _)).trans ?_
       simp (disch := decide) only [F48.gd, F48.mem, F48.atom, F48.imm27, hreg, Form.h5, append_fld, bit_bool, bool_bit, fld_cast, fld_append_hi, fld_append_lo, Nat.reduceSub, fld_all] <;> rfl)
    | (show ((if bit (fld (cat (0b0001#4 ++ len ++ pos)) 12 1 : BitVec 1) = true then some (Instr.bfxs ⟨_, _⟩ d a (fld (cat (0b0001#4 ++ len ++ pos)) 0 6) (fld (cat (0b0001#4 ++ len ++ pos)) 6 6)) else some (Instr.bfx ⟨_, _⟩ d a (fld (cat (0b0001#4 ++ len ++ pos)) 0 6) (fld (cat (0b0001#4 ++ len ++ pos)) 6 6))) <|> _) = _
       simp (disch := decide) only [fld_cast, fld_append_hi, fld_append_lo, fld_all, Nat.reduceSub]
       rfl)

theorem bfi (gd : Guard) (d : BitVec 5) (a : BitVec 5) (pos : BitVec 6) (len : BitVec 6) : Statement (.bfi gd d a pos len) := by
  intro st y hst hf hw
  obtain rfl := Option.some.inj hf
  refine decode_of ?_ rfl hw (by intro h; subst h; first | rfl | exact hst)
  clear hw hf
  obtain ⟨_, _ | _⟩ := gd <;> cases st <;> first
    | exact Bool.noConfusion hst
    | (refine (rfl : _ = some (Instr.bfi _ _ _ _ _)).trans ?_
       simp (disch := decide) only [F48.gd, F48.mem, F48.atom, F48.imm27, hreg, Form.h5, append_fld, bit_bool, bool_bit, fld_cast, fld_append_hi, fld_append_lo, Nat.reduceSub, fld_all] <;> rfl)

theorem csrr (gd : Guard) (d : BitVec 5) (n : BitVec 12) : Statement (.csrr gd d n) := by
  intro st y hst hf hw
  obtain rfl := Option.some.inj hf
  refine decode_of ?_ rfl hw (by intro h; subst h; first | rfl | exact hst)
  clear hw hf
  obtain ⟨_, _ | _⟩ := gd <;> cases st <;> first
    | exact Bool.noConfusion hst
    | (refine (rfl : _ = some (Instr.csrr _ _ _)).trans ?_
       simp (disch := decide) only [F48.gd, F48.mem, F48.atom, F48.imm27, hreg, Form.h5, append_fld, bit_bool, bool_bit, fld_cast, fld_append_hi, fld_append_lo, Nat.reduceSub, fld_all] <;> rfl)

theorem csrw (gd : Guard) (a : BitVec 5) (n : BitVec 12) : Statement (.csrw gd a n) := by
  intro st y hst hf hw
  obtain rfl := Option.some.inj hf
  refine decode_of ?_ rfl hw (by intro h; subst h; first | rfl | exact hst)
  clear hw hf
  obtain ⟨_, _ | _⟩ := gd <;> cases st <;> first
    | exact Bool.noConfusion hst
    | (refine (rfl : _ = some (Instr.csrw _ _ _)).trans ?_
       simp (disch := decide) only [F48.gd, F48.mem, F48.atom, F48.imm27, hreg, Form.h5, append_fld, bit_bool, bool_bit, fld_cast, fld_append_hi, fld_append_lo, Nat.reduceSub, fld_all] <;> rfl)

theorem csrx (gd : Guard) (d : BitVec 5) (a : BitVec 5) (n : BitVec 12) : Statement (.csrx gd d a n) := by
  intro st y hst hf hw
  obtain rfl := Option.some.inj hf
  refine decode_of ?_ rfl hw (by intro h; subst h; first | rfl | exact hst)
  clear hw hf
  obtain ⟨_, _ | _⟩ := gd <;> cases st <;> first
    | exact Bool.noConfusion hst
    | (refine (rfl : _ = some (Instr.csrx _ _ _ _)).trans ?_
       simp (disch := decide) only [F48.gd, F48.mem, F48.atom, F48.imm27, hreg, Form.h5, append_fld, bit_bool, bool_bit, fld_cast, fld_append_hi, fld_append_lo, Nat.reduceSub, fld_all] <;> rfl)

theorem csrs (gd : Guard) (d : BitVec 5) (a : BitVec 5) (n : BitVec 12) : Statement (.csrs gd d a n) := by
  intro st y hst hf hw
  obtain rfl := Option.some.inj hf
  refine decode_of ?_ rfl hw (by intro h; subst h; first | rfl | exact hst)
  clear hw hf
  obtain ⟨_, _ | _⟩ := gd <;> cases st <;> first
    | exact Bool.noConfusion hst
    | (refine (rfl : _ = some (Instr.csrs _ _ _ _)).trans ?_
       simp (disch := decide) only [F48.gd, F48.mem, F48.atom, F48.imm27, hreg, Form.h5, append_fld, bit_bool, bool_bit, fld_cast, fld_append_hi, fld_append_lo, Nat.reduceSub, fld_all] <;> rfl)

theorem csrc (gd : Guard) (d : BitVec 5) (a : BitVec 5) (n : BitVec 12) : Statement (.csrc gd d a n) := by
  intro st y hst hf hw
  obtain rfl := Option.some.inj hf
  refine decode_of ?_ rfl hw (by intro h; subst h; first | rfl | exact hst)
  clear hw hf
  obtain ⟨_, _ | _⟩ := gd <;> cases st <;> first
    | exact Bool.noConfusion hst
    | (refine (rfl : _ = some (Instr.csrc _ _ _ _)).trans ?_
       simp (disch := decide) only [F48.gd, F48.mem, F48.atom, F48.imm27, hreg, Form.h5, append_fld, bit_bool, bool_bit, fld_cast, fld_append_hi, fld_append_lo, Nat.reduceSub, fld_all] <;> rfl)

theorem tlbinvRange (gd : Guard) (a : BitVec 5) (b : BitVec 5) (n : BitVec 16) : Statement (.tlbinvRange gd a b n) := by
  intro st y hst hf hw
  obtain rfl := Option.some.inj hf
  refine decode_of ?_ rfl hw (by intro h; subst h; first | rfl | exact hst)
  clear hw hf
  obtain ⟨_, _ | _⟩ := gd <;> cases st <;> first | exact Bool.noConfusion hst | rfl

theorem tlbinvAsid (gd : Guard) (b : BitVec 5) : Statement (.tlbinvAsid gd b) := by
  intro st y hst hf hw
  obtain rfl := Option.some.inj hf
  refine decode_of ?_ rfl hw (by intro h; subst h; first | rfl | exact hst)
  clear hw hf
  obtain ⟨_, _ | _⟩ := gd <;> cases st <;> first | exact Bool.noConfusion hst | rfl

theorem tlbinvAll (gd : Guard) : Statement (.tlbinvAll gd) := by
  intro st y hst hf hw
  obtain rfl := Option.some.inj hf
  refine decode_of ?_ rfl hw (by intro h; subst h; first | rfl | exact hst)
  clear hw hf
  obtain ⟨_, _ | _⟩ := gd <;> cases st <;> first | exact Bool.noConfusion hst | rfl

theorem hmk (gd : Guard) (d : BitVec 4) (a : BitVec 5) (fmt : BitVec 5) (rank : BitVec 3) (cls : BitVec 4) (scaled : Bool) : Statement (.hmk gd d a fmt rank cls scaled) := by
  intro st y hst hf hw
  obtain rfl := Option.some.inj hf
  refine decode_of ?_ rfl hw (by intro h; subst h; first | rfl | exact hst)
  clear hw hf
  obtain ⟨_, _ | _⟩ := gd <;> cases scaled <;> cases st <;> first
    | exact Bool.noConfusion hst
    | (refine (rfl : _ = some (Instr.hmk _ _ _ _ _ _ _)).trans ?_
       simp (disch := decide) only [F48.gd, F48.mem, F48.atom, F48.imm27, hreg, Form.h5, append_fld, bit_bool, bool_bit, fld_cast, fld_append_hi, fld_append_lo, Nat.reduceSub, fld_all] <;> rfl)

theorem hset (gd : Guard) (d : BitVec 4) (sel : BitVec 4) (a : BitVec 5) : Statement (.hset gd d sel a) := by
  intro st y hst hf hw
  obtain rfl := Option.some.inj hf
  refine decode_of ?_ rfl hw (by intro h; subst h; first | rfl | exact hst)
  clear hw hf
  obtain ⟨_, _ | _⟩ := gd <;> cases st <;> first
    | exact Bool.noConfusion hst
    | (refine (rfl : _ = some (Instr.hset _ _ _ _)).trans ?_
       simp (disch := decide) only [F48.gd, F48.mem, F48.atom, F48.imm27, hreg, Form.h5, append_fld, bit_bool, bool_bit, fld_cast, fld_append_hi, fld_append_lo, Nat.reduceSub, fld_all] <;> rfl)

theorem hget (gd : Guard) (d : BitVec 5) (a : BitVec 4) (sel : BitVec 4) : Statement (.hget gd d a sel) := by
  intro st y hst hf hw
  obtain rfl := Option.some.inj hf
  refine decode_of ?_ rfl hw (by intro h; subst h; first | rfl | exact hst)
  clear hw hf
  obtain ⟨_, _ | _⟩ := gd <;> cases st <;> first
    | exact Bool.noConfusion hst
    | (refine (rfl : _ = some (Instr.hget _ _ _ _)).trans ?_
       simp (disch := decide) only [F48.gd, F48.mem, F48.atom, F48.imm27, hreg, Form.h5, append_fld, bit_bool, bool_bit, fld_cast, fld_append_hi, fld_append_lo, Nat.reduceSub, fld_all] <;> rfl)

theorem hadv (gd : Guard) (d : BitVec 4) (a : BitVec 4) (b : BitVec 5) (dim : BitVec 2) : Statement (.hadv gd d a b dim) := by
  intro st y hst hf hw
  obtain rfl := Option.some.inj hf
  refine decode_of ?_ rfl hw (by intro h; subst h; first | rfl | exact hst)
  clear hw hf
  obtain ⟨_, _ | _⟩ := gd <;> cases st <;> first
    | exact Bool.noConfusion hst
    | (refine (rfl : _ = some (Instr.hadv _ _ _ _ _)).trans ?_
       simp (disch := decide) only [F48.gd, F48.mem, F48.atom, F48.imm27, hreg, Form.h5, append_fld, bit_bool, bool_bit, fld_cast, fld_append_hi, fld_append_lo, Nat.reduceSub, fld_all] <;> rfl)

theorem hsub (gd : Guard) (d : BitVec 4) (a : BitVec 4) (b : BitVec 5) : Statement (.hsub gd d a b) := by
  intro st y hst hf hw
  obtain rfl := Option.some.inj hf
  refine decode_of ?_ rfl hw (by intro h; subst h; first | rfl | exact hst)
  clear hw hf
  obtain ⟨_, _ | _⟩ := gd <;> cases st <;> first
    | exact Bool.noConfusion hst
    | (refine (rfl : _ = some (Instr.hsub _ _ _ _)).trans ?_
       simp (disch := decide) only [F48.gd, F48.mem, F48.atom, F48.imm27, hreg, Form.h5, append_fld, bit_bool, bool_bit, fld_cast, fld_append_hi, fld_append_lo, Nat.reduceSub, fld_all] <;> rfl)

theorem hmov (gd : Guard) (d : BitVec 4) (a : BitVec 4) : Statement (.hmov gd d a) := by
  intro st y hst hf hw
  obtain rfl := Option.some.inj hf
  refine decode_of ?_ rfl hw (by intro h; subst h; first | rfl | exact hst)
  clear hw hf
  obtain ⟨_, _ | _⟩ := gd <;> cases st <;> first
    | exact Bool.noConfusion hst
    | (refine (rfl : _ = some (Instr.hmov _ _ _)).trans ?_
       simp (disch := decide) only [F48.gd, F48.mem, F48.atom, F48.imm27, hreg, Form.h5, append_fld, bit_bool, bool_bit, fld_cast, fld_append_hi, fld_append_lo, Nat.reduceSub, fld_all] <;> rfl)

theorem hld (gd : Guard) (d : BitVec 4) (a : BitVec 5) (imm : BitVec 16) (cls : BitVec 4) : Statement (.hld gd d a imm cls) := by
  intro st y hst hf hw
  obtain rfl := Option.some.inj hf
  refine decode_of ?_ rfl hw (by intro h; subst h; first | rfl | exact hst)
  clear hw hf
  obtain ⟨_, _ | _⟩ := gd <;> cases st <;> first
    | exact Bool.noConfusion hst
    | (refine (rfl : _ = some (Instr.hld _ _ _ _ _)).trans ?_
       simp (disch := decide) only [F48.gd, F48.mem, F48.atom, F48.imm27, hreg, Form.h5, append_fld, bit_bool, bool_bit, fld_cast, fld_append_hi, fld_append_lo, Nat.reduceSub, fld_all] <;> rfl)

theorem hst (gd : Guard) (d : BitVec 4) (a : BitVec 5) (imm : BitVec 16) (cls : BitVec 4) : Statement (.hst gd d a imm cls) := by
  intro st y hst hf hw
  obtain rfl := Option.some.inj hf
  refine decode_of ?_ rfl hw (by intro h; subst h; first | rfl | exact hst)
  clear hw hf
  obtain ⟨_, _ | _⟩ := gd <;> cases st <;> first
    | exact Bool.noConfusion hst
    | (refine (rfl : _ = some (Instr.hst _ _ _ _ _)).trans ?_
       simp (disch := decide) only [F48.gd, F48.mem, F48.atom, F48.imm27, hreg, Form.h5, append_fld, bit_bool, bool_bit, fld_cast, fld_append_hi, fld_append_lo, Nat.reduceSub, fld_all] <;> rfl)

theorem kickVe (gd : Guard) (d : BitVec 4) (a : BitVec 5) (nb : BitVec 10) (n : BitVec 3) : Statement (.kickVe gd d a nb n) := by
  intro st y hst hf hw
  obtain rfl := Option.some.inj hf
  refine decode_of ?_ rfl hw (by intro h; subst h; first | rfl | exact hst)
  clear hw hf
  obtain ⟨_, _ | _⟩ := gd <;> cases st <;> first
    | exact Bool.noConfusion hst
    | (refine (rfl : _ = some (Instr.kickVe _ _ _ _ _)).trans ?_
       simp (disch := decide) only [F48.gd, F48.mem, F48.atom, F48.imm27, hreg, Form.h5, append_fld, bit_bool, bool_bit, fld_cast, fld_append_hi, fld_append_lo, Nat.reduceSub, fld_all] <;> rfl)

theorem kickPx (gd : Guard) (d : BitVec 4) (a : BitVec 5) (nb : BitVec 10) (n : BitVec 3) : Statement (.kickPx gd d a nb n) := by
  intro st y hst hf hw
  obtain rfl := Option.some.inj hf
  refine decode_of ?_ rfl hw (by intro h; subst h; first | rfl | exact hst)
  clear hw hf
  obtain ⟨_, _ | _⟩ := gd <;> cases st <;> first
    | exact Bool.noConfusion hst
    | (refine (rfl : _ = some (Instr.kickPx _ _ _ _ _)).trans ?_
       simp (disch := decide) only [F48.gd, F48.mem, F48.atom, F48.imm27, hreg, Form.h5, append_fld, bit_bool, bool_bit, fld_cast, fld_append_hi, fld_append_lo, Nat.reduceSub, fld_all] <;> rfl)

theorem kickHl (gd : Guard) (a : BitVec 5) (push : BitVec 4) (pop : BitVec 4) : Statement (.kickHl gd a push pop) := by
  intro st y hst hf hw
  obtain rfl := Option.some.inj hf
  refine decode_of ?_ rfl hw (by intro h; subst h; first | rfl | exact hst)
  clear hw hf
  obtain ⟨_, _ | _⟩ := gd <;> cases st <;> first
    | exact Bool.noConfusion hst
    | (refine (rfl : _ = some (Instr.kickHl _ _ _ _)).trans ?_
       simp (disch := decide) only [F48.gd, F48.mem, F48.atom, F48.imm27, hreg, Form.h5, append_fld, bit_bool, bool_bit, fld_cast, fld_append_hi, fld_append_lo, Nat.reduceSub, fld_all] <;> rfl)

theorem kickHs (gd : Guard) (a : BitVec 5) (push : BitVec 4) (pop : BitVec 4) : Statement (.kickHs gd a push pop) := by
  intro st y hst hf hw
  obtain rfl := Option.some.inj hf
  refine decode_of ?_ rfl hw (by intro h; subst h; first | rfl | exact hst)
  clear hw hf
  obtain ⟨_, _ | _⟩ := gd <;> cases st <;> first
    | exact Bool.noConfusion hst
    | (refine (rfl : _ = some (Instr.kickHs _ _ _ _)).trans ?_
       simp (disch := decide) only [F48.gd, F48.mem, F48.atom, F48.imm27, hreg, Form.h5, append_fld, bit_bool, bool_bit, fld_cast, fld_append_hi, fld_append_lo, Nat.reduceSub, fld_all] <;> rfl)

theorem nest (gd : Guard) (px : Bool) (a : BitVec 5) (b : BitVec 5) (lvl : BitVec 3) : Statement (.nest gd px a b lvl) := by
  intro st y hst hf hw
  obtain rfl := Option.some.inj hf
  refine decode_of ?_ rfl hw (by intro h; subst h; first | rfl | exact hst)
  clear hw hf
  obtain ⟨_, _ | _⟩ := gd <;> cases px <;> cases st <;> first
    | exact Bool.noConfusion hst
    | (refine (rfl : _ = some (Instr.nest _ _ _ _ _)).trans ?_
       simp (disch := decide) only [F48.gd, F48.mem, F48.atom, F48.imm27, hreg, Form.h5, append_fld, bit_bool, bool_bit, fld_cast, fld_append_hi, fld_append_lo, Nat.reduceSub, fld_all] <;> rfl)

theorem link (gd : Guard) (hs : Bool) (a : BitVec 5) (b : BitVec 5) : Statement (.link gd hs a b) := by
  intro st y hst hf hw
  obtain rfl := Option.some.inj hf
  refine decode_of ?_ rfl hw (by intro h; subst h; first | rfl | exact hst)
  clear hw hf
  obtain ⟨_, _ | _⟩ := gd <;> cases hs <;> cases st <;> first | exact Bool.noConfusion hst | rfl

theorem scmdPmmg (gd : Guard) (d : BitVec 4) (a : BitVec 4) (b : BitVec 4) (carry : Bool) (s : BitVec 4) (e : BitVec 10) : Statement (.scmdPmmg gd d a b carry s e) := by
  intro st y hst hf hw
  obtain rfl := Option.some.inj hf
  refine decode_of ?_ rfl hw (by intro h; subst h; first | rfl | exact hst)
  clear hw hf
  obtain ⟨_, _ | _⟩ := gd <;> cases carry <;> cases st <;> first
    | exact Bool.noConfusion hst
    | (refine (rfl : _ = some (Instr.scmdPmmg _ _ _ _ _ _ _)).trans ?_
       simp (disch := decide) only [F48.gd, F48.mem, F48.atom, F48.imm27, hreg, Form.h5, append_fld, bit_bool, bool_bit, fld_cast, fld_append_hi, fld_append_lo, Nat.reduceSub, fld_all] <;> rfl)

theorem scmdLk (gd : Guard) (a : BitVec 5) (b : BitVec 5) (rid : BitVec 8) : Statement (.scmdLk gd a b rid) := by
  intro st y hst hf hw
  obtain rfl := Option.some.inj hf
  refine decode_of ?_ rfl hw (by intro h; subst h; first | rfl | exact hst)
  clear hw hf
  obtain ⟨_, _ | _⟩ := gd <;> cases st <;> first
    | exact Bool.noConfusion hst
    | (refine (rfl : _ = some (Instr.scmdLk _ _ _ _)).trans ?_
       simp (disch := decide) only [F48.gd, F48.mem, F48.atom, F48.imm27, hreg, Form.h5, append_fld, bit_bool, bool_bit, fld_cast, fld_append_hi, fld_append_lo, Nat.reduceSub, fld_all] <;> rfl)

theorem obsub (gd : Guard) (d : BitVec 5) (a : BitVec 5) : Statement (.obsub gd d a) := by
  intro st y hst hf hw
  obtain rfl := Option.some.inj hf
  refine decode_of ?_ rfl hw (by intro h; subst h; first | rfl | exact hst)
  clear hw hf
  obtain ⟨_, _ | _⟩ := gd <;> cases st <;> first | exact Bool.noConfusion hst | rfl

theorem seqstart (gd : Guard) (d : BitVec 5) (a : BitVec 5) (b : BitVec 5) (step : Bool) : Statement (.seqstart gd d a b step) := by
  intro st y hst hf hw
  obtain rfl := Option.some.inj hf
  refine decode_of ?_ rfl hw (by intro h; subst h; first | rfl | exact hst)
  clear hw hf
  obtain ⟨_, _ | _⟩ := gd <;> cases step <;> cases st <;> first | exact Bool.noConfusion hst | rfl

theorem seqstop (gd : Guard) (d : BitVec 5) : Statement (.seqstop gd d) := by
  intro st y hst hf hw
  obtain rfl := Option.some.inj hf
  refine decode_of ?_ rfl hw (by intro h; subst h; first | rfl | exact hst)
  clear hw hf
  obtain ⟨_, _ | _⟩ := gd <;> cases st <;> first | exact Bool.noConfusion hst | rfl

theorem seqwait (gd : Guard) (d : BitVec 5) : Statement (.seqwait gd d) := by
  intro st y hst hf hw
  obtain rfl := Option.some.inj hf
  refine decode_of ?_ rfl hw (by intro h; subst h; first | rfl | exact hst)
  clear hw hf
  obtain ⟨_, _ | _⟩ := gd <;> cases st <;> first | exact Bool.noConfusion hst | rfl

theorem seqstep (gd : Guard) (d : BitVec 5) (a : BitVec 5) : Statement (.seqstep gd d a) := by
  intro st y hst hf hw
  obtain rfl := Option.some.inj hf
  refine decode_of ?_ rfl hw (by intro h; subst h; first | rfl | exact hst)
  clear hw hf
  obtain ⟨_, _ | _⟩ := gd <;> cases st <;> first | exact Bool.noConfusion hst | rfl

theorem rgndef (gd : Guard) (d : BitVec 5) (a : BitVec 5) (b : BitVec 5) : Statement (.rgndef gd d a b) := by
  intro st y hst hf hw
  obtain rfl := Option.some.inj hf
  refine decode_of ?_ rfl hw (by intro h; subst h; first | rfl | exact hst)
  clear hw hf
  obtain ⟨_, _ | _⟩ := gd <;> cases st <;> first | exact Bool.noConfusion hst | rfl

theorem rgnrd (gd : Guard) (d : BitVec 5) (b : BitVec 5) (sel : BitVec 4) : Statement (.rgnrd gd d b sel) := by
  intro st y hst hf hw
  obtain rfl := Option.some.inj hf
  refine decode_of ?_ rfl hw (by intro h; subst h; first | rfl | exact hst)
  clear hw hf
  obtain ⟨_, _ | _⟩ := gd <;> cases st <;> first
    | exact Bool.noConfusion hst
    | (refine (rfl : _ = some (Instr.rgnrd _ _ _ _)).trans ?_
       simp (disch := decide) only [F48.gd, F48.mem, F48.atom, F48.imm27, hreg, Form.h5, append_fld, bit_bool, bool_bit, fld_cast, fld_append_hi, fld_append_lo, Nat.reduceSub, fld_all] <;> rfl)

theorem rgnclr (gd : Guard) (d : BitVec 5) (b : BitVec 5) (undef : Bool) : Statement (.rgnclr gd d b undef) := by
  intro st y hst hf hw
  obtain rfl := Option.some.inj hf
  refine decode_of ?_ rfl hw (by intro h; subst h; first | rfl | exact hst)
  clear hw hf
  obtain ⟨_, _ | _⟩ := gd <;> cases undef <;> cases st <;> first | exact Bool.noConfusion hst | rfl

theorem reuseq (gd : Guard) (d : BitVec 5) (a : BitVec 5) (sel : BitVec 4) : Statement (.reuseq gd d a sel) := by
  intro st y hst hf hw
  obtain rfl := Option.some.inj hf
  refine decode_of ?_ rfl hw (by intro h; subst h; first | rfl | exact hst)
  clear hw hf
  obtain ⟨_, _ | _⟩ := gd <;> cases st <;> first
    | exact Bool.noConfusion hst
    | (refine (rfl : _ = some (Instr.reuseq _ _ _ _)).trans ?_
       simp (disch := decide) only [F48.gd, F48.mem, F48.atom, F48.imm27, hreg, Form.h5, append_fld, bit_bool, bool_bit, fld_cast, fld_append_hi, fld_append_lo, Nat.reduceSub, fld_all] <;> rfl)

theorem reuseforce (gd : Guard) (d : BitVec 5) (a : BitVec 5) (all : Bool) : Statement (.reuseforce gd d a all) := by
  intro st y hst hf hw
  obtain rfl := Option.some.inj hf
  refine decode_of ?_ rfl hw (by intro h; subst h; first | rfl | exact hst)
  clear hw hf
  obtain ⟨_, _ | _⟩ := gd <;> cases all <;> cases st <;> first | exact Bool.noConfusion hst | rfl

theorem reuseset (gd : Guard) (d : BitVec 5) (a : BitVec 5) (b : BitVec 5) (smax : BitVec 8) (resid : Bool) (rst : Bool) : Statement (.reuseset gd d a b smax resid rst) := by
  intro st y hst hf hw
  obtain rfl := Option.some.inj hf
  refine decode_of ?_ rfl hw (by intro h; subst h; first | rfl | exact hst)
  clear hw hf
  obtain ⟨_, _ | _⟩ := gd <;> cases resid <;> cases rst <;> cases st <;> first
    | exact Bool.noConfusion hst
    | (refine (rfl : _ = some (Instr.reuseset _ _ _ _ _ _ _)).trans ?_
       simp (disch := decide) only [F48.gd, F48.mem, F48.atom, F48.imm27, hreg, Form.h5, append_fld, bit_bool, bool_bit, fld_cast, fld_append_hi, fld_append_lo, Nat.reduceSub, fld_all] <;> rfl)

theorem fqpop (gd : Guard) (d : BitVec 5) (a : BitVec 5) : Statement (.fqpop gd d a) := by
  intro st y hst hf hw
  obtain rfl := Option.some.inj hf
  refine decode_of ?_ rfl hw (by intro h; subst h; first | rfl | exact hst)
  clear hw hf
  obtain ⟨_, _ | _⟩ := gd <;> cases st <;> first | exact Bool.noConfusion hst | rfl

theorem fqresume (gd : Guard) (d : BitVec 5) (a : BitVec 5) : Statement (.fqresume gd d a) := by
  intro st y hst hf hw
  obtain rfl := Option.some.inj hf
  refine decode_of ?_ rfl hw (by intro h; subst h; first | rfl | exact hst)
  clear hw hf
  obtain ⟨_, _ | _⟩ := gd <;> cases st <;> first | exact Bool.noConfusion hst | rfl

theorem fqdrop (gd : Guard) (d : BitVec 5) (a : BitVec 5) : Statement (.fqdrop gd d a) := by
  intro st y hst hf hw
  obtain rfl := Option.some.inj hf
  refine decode_of ?_ rfl hw (by intro h; subst h; first | rfl | exact hst)
  clear hw hf
  obtain ⟨_, _ | _⟩ := gd <;> cases st <;> first | exact Bool.noConfusion hst | rfl

theorem rdvset (gd : Guard) (d : BitVec 5) (a : BitVec 5) (k : BitVec 3) : Statement (.rdvset gd d a k) := by
  intro st y hst hf hw
  obtain rfl := Option.some.inj hf
  refine decode_of ?_ rfl hw (by intro h; subst h; first | rfl | exact hst)
  clear hw hf
  obtain ⟨_, _ | _⟩ := gd <;> cases st <;> first
    | exact Bool.noConfusion hst
    | (refine (rfl : _ = some (Instr.rdvset _ _ _ _)).trans ?_
       simp (disch := decide) only [F48.gd, F48.mem, F48.atom, F48.imm27, hreg, Form.h5, append_fld, bit_bool, bool_bit, fld_cast, fld_append_hi, fld_append_lo, Nat.reduceSub, fld_all] <;> rfl)

theorem semrd (gd : Guard) (d : BitVec 5) (kind : BitVec 2) (n : BitVec 8) : Statement (.semrd gd d kind n) := by
  intro st y hst hf hw
  obtain rfl := Option.some.inj hf
  refine decode_of ?_ rfl hw (by intro h; subst h; first | rfl | exact hst)
  clear hw hf
  obtain ⟨_, _ | _⟩ := gd <;> cases st <;> first
    | exact Bool.noConfusion hst
    | (refine (rfl : _ = some (Instr.semrd _ _ _ _)).trans ?_
       simp (disch := decide) only [F48.gd, F48.mem, F48.atom, F48.imm27, hreg, Form.h5, append_fld, bit_bool, bool_bit, fld_cast, fld_append_hi, fld_append_lo, Nat.reduceSub, fld_all] <;> rfl)

theorem semset (gd : Guard) (d : BitVec 5) (a : BitVec 5) (kind : BitVec 2) (n : BitVec 8) : Statement (.semset gd d a kind n) := by
  intro st y hst hf hw
  obtain rfl := Option.some.inj hf
  refine decode_of ?_ rfl hw (by intro h; subst h; first | rfl | exact hst)
  clear hw hf
  obtain ⟨_, _ | _⟩ := gd <;> cases st <;> first
    | exact Bool.noConfusion hst
    | (refine (rfl : _ = some (Instr.semset _ _ _ _ _)).trans ?_
       simp (disch := decide) only [F48.gd, F48.mem, F48.atom, F48.imm27, hreg, Form.h5, append_fld, bit_bool, bool_bit, fld_cast, fld_append_hi, fld_append_lo, Nat.reduceSub, fld_all] <;> rfl)

theorem scw (gd : Guard) (d : BitVec 5) (a : BitVec 5) (sc : BitVec 3) (c : BitVec 8) : Statement (.scw gd d a sc c) := by
  intro st y hst hf hw
  obtain rfl := Option.some.inj hf
  refine decode_of ?_ rfl hw (by intro h; subst h; first | rfl | exact hst)
  clear hw hf
  obtain ⟨_, _ | _⟩ := gd <;> cases st <;> first
    | exact Bool.noConfusion hst
    | (refine (rfl : _ = some (Instr.scw _ _ _ _ _)).trans ?_
       simp (disch := decide) only [F48.gd, F48.mem, F48.atom, F48.imm27, hreg, Form.h5, append_fld, bit_bool, bool_bit, fld_cast, fld_append_hi, fld_append_lo, Nat.reduceSub, fld_all] <;> rfl)

theorem scp (gd : Guard) (a : BitVec 5) (b : BitVec 5) (sc : BitVec 3) (c : BitVec 8) : Statement (.scp gd a b sc c) := by
  intro st y hst hf hw
  obtain rfl := Option.some.inj hf
  refine decode_of ?_ rfl hw (by intro h; subst h; first | rfl | exact hst)
  clear hw hf
  obtain ⟨_, _ | _⟩ := gd <;> cases st <;> first
    | exact Bool.noConfusion hst
    | (refine (rfl : _ = some (Instr.scp _ _ _ _ _)).trans ?_
       simp (disch := decide) only [F48.gd, F48.mem, F48.atom, F48.imm27, hreg, Form.h5, append_fld, bit_bool, bool_bit, fld_cast, fld_append_hi, fld_append_lo, Nat.reduceSub, fld_all] <;> rfl)

theorem phase (gd : Guard) (a : BitVec 5) (b : BitVec 5) (i : BitVec 4) : Statement (.phase gd a b i) := by
  intro st y hst hf hw
  obtain rfl := Option.some.inj hf
  refine decode_of ?_ rfl hw (by intro h; subst h; first | rfl | exact hst)
  clear hw hf
  obtain ⟨_, _ | _⟩ := gd <;> cases st <;> first
    | exact Bool.noConfusion hst
    | (refine (rfl : _ = some (Instr.phase _ _ _ _)).trans ?_
       simp (disch := decide) only [F48.gd, F48.mem, F48.atom, F48.imm27, hreg, Form.h5, append_fld, bit_bool, bool_bit, fld_cast, fld_append_hi, fld_append_lo, Nat.reduceSub, fld_all] <;> rfl)

theorem pace (gd : Guard) (d : BitVec 5) (a : BitVec 5) (mask : BitVec 4) : Statement (.pace gd d a mask) := by
  intro st y hst hf hw
  obtain rfl := Option.some.inj hf
  refine decode_of ?_ rfl hw (by intro h; subst h; first | rfl | exact hst)
  clear hw hf
  obtain ⟨_, _ | _⟩ := gd <;> cases st <;> first
    | exact Bool.noConfusion hst
    | (refine (rfl : _ = some (Instr.pace _ _ _ _)).trans ?_
       simp (disch := decide) only [F48.gd, F48.mem, F48.atom, F48.imm27, hreg, Form.h5, append_fld, bit_bool, bool_bit, fld_cast, fld_append_hi, fld_append_lo, Nat.reduceSub, fld_all] <;> rfl)

theorem quota (gd : Guard) (d : BitVec 5) (sel : BitVec 2) : Statement (.quota gd d sel) := by
  intro st y hst hf hw
  obtain rfl := Option.some.inj hf
  refine decode_of ?_ rfl hw (by intro h; subst h; first | rfl | exact hst)
  clear hw hf
  obtain ⟨_, _ | _⟩ := gd <;> cases st <;> first
    | exact Bool.noConfusion hst
    | (refine (rfl : _ = some (Instr.quota _ _ _)).trans ?_
       simp (disch := decide) only [F48.gd, F48.mem, F48.atom, F48.imm27, hreg, Form.h5, append_fld, bit_bool, bool_bit, fld_cast, fld_append_hi, fld_append_lo, Nat.reduceSub, fld_all] <;> rfl)

theorem popJob (gd : Guard) (x : Bool) (b : BitVec 3) (d : BitVec 5) : Statement (.popJob gd x b d) := by
  intro st y hst hf hw
  obtain rfl := Option.some.inj hf
  refine decode_of ?_ rfl hw (by intro h; subst h; first | rfl | exact hst)
  clear hw hf
  obtain ⟨_, _ | _⟩ := gd <;> cases x <;> cases st <;> first
    | exact Bool.noConfusion hst
    | (refine (rfl : _ = some (Instr.popJob _ _ _ _)).trans ?_
       simp (disch := decide) only [F32.immOp, F32.rel16, F32.gd, hreg, Form.h5, append_fld, bit_bool, bool_bit, fld_cast, fld_append_hi, fld_append_lo, Nat.reduceSub, fld_all] <;> rfl)

theorem pushDone (gd : Guard) (a : BitVec 5) : Statement (.pushDone gd a) := by
  intro st y hst hf hw
  obtain rfl := Option.some.inj hf
  refine decode_of ?_ rfl hw (by intro h; subst h; first | rfl | exact hst)
  clear hw hf
  obtain ⟨_, _ | _⟩ := gd <;> cases st <;> first | exact Bool.noConfusion hst | rfl

theorem lkaq (gd : Guard) (d : BitVec 5) (a : BitVec 4) (b : BitVec 5) (pois : Bool) (n : BitVec 13) : Statement (.lkaq gd d a b pois n) := by
  intro st y hst hf hw
  obtain rfl := Option.some.inj hf
  refine decode_of ?_ rfl hw (by intro h; subst h; first | rfl | exact hst)
  clear hw hf
  obtain ⟨_, _ | _⟩ := gd <;> cases pois <;> cases st <;> first
    | exact Bool.noConfusion hst
    | (refine (lk_aq _ rfl).trans ?_
       simp (disch := decide) only [F48.gd, V48.vcom, hreg, Form.h5, bit_bool, fld_cast, fld_append_hi, fld_append_lo, fld_all, Nat.reduceSub]
       rfl)

theorem lkaqOne (gd : Guard) (d : BitVec 5) (a : BitVec 4) (b : BitVec 5) (pois : Bool) : Statement (.lkaqOne gd d a b pois) := by
  intro st y hst hf hw
  obtain rfl := Option.some.inj hf
  refine decode_of ?_ rfl hw (by intro h; subst h; first | rfl | exact hst)
  clear hw hf
  obtain ⟨_, _ | _⟩ := gd <;> cases pois <;> cases st <;> first
    | exact Bool.noConfusion hst
    | (refine (lk_aq _ rfl).trans ?_
       simp (disch := decide) only [F48.gd, V48.vcom, hreg, Form.h5, bit_bool, fld_cast, fld_append_hi, fld_append_lo, fld_all, Nat.reduceSub]
       rfl)

theorem lkdq (gd : Guard) (d : BitVec 5) : Statement (.lkdq gd d) := by
  intro st y hst hf hw
  obtain rfl := Option.some.inj hf
  refine decode_of ?_ rfl hw (by intro h; subst h; first | rfl | exact hst)
  clear hw hf
  obtain ⟨_, _ | _⟩ := gd <;> cases st <;> first | exact Bool.noConfusion hst | rfl

theorem lkddp (gd : Guard) (d : BitVec 5) (a : BitVec 5) (b : BitVec 5) (n : BitVec 13) : Statement (.lkddp gd d a b n) := by
  intro st y hst hf hw
  obtain rfl := Option.some.inj hf
  refine decode_of ?_ rfl hw (by intro h; subst h; first | rfl | exact hst)
  clear hw hf
  obtain ⟨_, _ | _⟩ := gd <;> cases st <;> first
    | exact Bool.noConfusion hst
    | (refine (rfl : _ = some (Instr.lkddp _ _ _ _ _)).trans ?_
       simp (disch := decide) only [F48.gd, F48.mem, F48.atom, F48.imm27, hreg, Form.h5, append_fld, bit_bool, bool_bit, fld_cast, fld_append_hi, fld_append_lo, Nat.reduceSub, fld_all] <;> rfl)

theorem lkpool (gd : Guard) (b : BitVec 5) (bag : BitVec 4) (bf : Bool) (one : Bool) (clr : Bool) : Statement (.lkpool gd b bag bf one clr) := by
  intro st y hst hf hw
  obtain rfl := Option.some.inj hf
  refine decode_of ?_ rfl hw (by intro h; subst h; first | rfl | exact hst)
  clear hw hf
  obtain ⟨_, _ | _⟩ := gd <;> cases bf <;> cases one <;> cases clr <;> cases st <;> first
    | exact Bool.noConfusion hst
    | (refine (rfl : _ = some (Instr.lkpool _ _ _ _ _ _)).trans ?_
       simp (disch := decide) only [F48.gd, F48.mem, F48.atom, F48.imm27, hreg, Form.h5, append_fld, bit_bool, bool_bit, fld_cast, fld_append_hi, fld_append_lo, Nat.reduceSub, fld_all] <;> rfl)

theorem lkput (gd : Guard) (a : BitVec 4) (rm : BitVec 4) (bag : BitVec 4) : Statement (.lkput gd a rm bag) := by
  intro st y hst hf hw
  obtain rfl := Option.some.inj hf
  refine decode_of ?_ rfl hw (by intro h; subst h; first | rfl | exact hst)
  clear hw hf
  obtain ⟨_, _ | _⟩ := gd <;> cases st <;> first
    | exact Bool.noConfusion hst
    | (refine (rfl : _ = some (Instr.lkput _ _ _ _)).trans ?_
       simp (disch := decide) only [F48.gd, F48.mem, F48.atom, F48.imm27, hreg, Form.h5, append_fld, bit_bool, bool_bit, fld_cast, fld_append_hi, fld_append_lo, Nat.reduceSub, fld_all] <;> rfl)

theorem lkputRow (gd : Guard) (a : BitVec 4) (rm : BitVec 4) : Statement (.lkputRow gd a rm) := by
  intro st y hst hf hw
  obtain rfl := Option.some.inj hf
  refine decode_of ?_ rfl hw (by intro h; subst h; first | rfl | exact hst)
  clear hw hf
  obtain ⟨_, _ | _⟩ := gd <;> cases st <;> first
    | exact Bool.noConfusion hst
    | (refine (rfl : _ = some (Instr.lkputRow _ _ _)).trans ?_
       simp (disch := decide) only [F48.gd, F48.mem, F48.atom, F48.imm27, hreg, Form.h5, append_fld, bit_bool, bool_bit, fld_cast, fld_append_hi, fld_append_lo, Nat.reduceSub, fld_all] <;> rfl)

theorem kbag (gd : Guard) (a : BitVec 5) (rid : BitVec 8) : Statement (.kbag gd a rid) := by
  intro st y hst hf hw
  obtain rfl := Option.some.inj hf
  refine decode_of ?_ rfl hw (by intro h; subst h; first | rfl | exact hst)
  clear hw hf
  obtain ⟨_, _ | _⟩ := gd <;> cases st <;> first
    | exact Bool.noConfusion hst
    | (refine (rfl : _ = some (Instr.kbag _ _ _)).trans ?_
       simp (disch := decide) only [F48.gd, F48.mem, F48.atom, F48.imm27, hreg, Form.h5, append_fld, bit_bool, bool_bit, fld_cast, fld_append_hi, fld_append_lo, Nat.reduceSub, fld_all] <;> rfl)

theorem vadd (o : VBin) : Statement (.vadd o) := by
  intro st y hst hf hw
  obtain rfl := Option.some.inj hf
  refine decode_of ?_ rfl hw (by intro h; subst h; first | rfl | exact hst)
  clear hw hf
  obtain ⟨_, _ | _, _, _, _⟩ := o <;> cases st <;> first | exact Bool.noConfusion hst | rfl

theorem vsub (o : VBin) : Statement (.vsub o) := by
  intro st y hst hf hw
  obtain rfl := Option.some.inj hf
  refine decode_of ?_ rfl hw (by intro h; subst h; first | rfl | exact hst)
  clear hw hf
  obtain ⟨_, _ | _, _, _, _⟩ := o <;> cases st <;> first | exact Bool.noConfusion hst | rfl

theorem vmul (o : VBin) : Statement (.vmul o) := by
  intro st y hst hf hw
  obtain rfl := Option.some.inj hf
  refine decode_of ?_ rfl hw (by intro h; subst h; first | rfl | exact hst)
  clear hw hf
  obtain ⟨_, _ | _, _, _, _⟩ := o <;> cases st <;> first | exact Bool.noConfusion hst | rfl

theorem vmin (o : VBin) : Statement (.vmin o) := by
  intro st y hst hf hw
  obtain rfl := Option.some.inj hf
  refine decode_of ?_ rfl hw (by intro h; subst h; first | rfl | exact hst)
  clear hw hf
  obtain ⟨_, _ | _, _, _, _⟩ := o <;> cases st <;> first | exact Bool.noConfusion hst | rfl

theorem vmax (o : VBin) : Statement (.vmax o) := by
  intro st y hst hf hw
  obtain rfl := Option.some.inj hf
  refine decode_of ?_ rfl hw (by intro h; subst h; first | rfl | exact hst)
  clear hw hf
  obtain ⟨_, _ | _, _, _, _⟩ := o <;> cases st <;> first | exact Bool.noConfusion hst | rfl

theorem vminz (o : VBin) : Statement (.vminz o) := by
  intro st y hst hf hw
  obtain rfl := Option.some.inj hf
  refine decode_of ?_ rfl hw (by intro h; subst h; first | rfl | exact hst)
  clear hw hf
  obtain ⟨_, _ | _, _, _, _⟩ := o <;> cases st <;> first | exact Bool.noConfusion hst | rfl

theorem vmaxz (o : VBin) : Statement (.vmaxz o) := by
  intro st y hst hf hw
  obtain rfl := Option.some.inj hf
  refine decode_of ?_ rfl hw (by intro h; subst h; first | rfl | exact hst)
  clear hw hf
  obtain ⟨_, _ | _, _, _, _⟩ := o <;> cases st <;> first | exact Bool.noConfusion hst | rfl

theorem vabs (o : VUn) : Statement (.vabs o) := by
  intro st y hst hf hw
  obtain rfl := Option.some.inj hf
  refine decode_of ?_ rfl hw (by intro h; subst h; first | rfl | exact hst)
  clear hw hf
  obtain ⟨_, _ | _, _, _⟩ := o <;> cases st <;> first | exact Bool.noConfusion hst | rfl

theorem vneg (o : VUn) : Statement (.vneg o) := by
  intro st y hst hf hw
  obtain rfl := Option.some.inj hf
  refine decode_of ?_ rfl hw (by intro h; subst h; first | rfl | exact hst)
  clear hw hf
  obtain ⟨_, _ | _, _, _⟩ := o <;> cases st <;> first | exact Bool.noConfusion hst | rfl

theorem vaddsat (o : VBin) : Statement (.vaddsat o) := by
  intro st y hst hf hw
  obtain rfl := Option.some.inj hf
  refine decode_of ?_ rfl hw (by intro h; subst h; first | rfl | exact hst)
  clear hw hf
  obtain ⟨_, _ | _, _, _, _⟩ := o <;> cases st <;> first | exact Bool.noConfusion hst | rfl

theorem vsubsat (o : VBin) : Statement (.vsubsat o) := by
  intro st y hst hf hw
  obtain rfl := Option.some.inj hf
  refine decode_of ?_ rfl hw (by intro h; subst h; first | rfl | exact hst)
  clear hw hf
  obtain ⟨_, _ | _, _, _, _⟩ := o <;> cases st <;> first | exact Bool.noConfusion hst | rfl

theorem vand (o : VBin) : Statement (.vand o) := by
  intro st y hst hf hw
  obtain rfl := Option.some.inj hf
  refine decode_of ?_ rfl hw (by intro h; subst h; first | rfl | exact hst)
  clear hw hf
  obtain ⟨_, _ | _, _, _, _⟩ := o <;> cases st <;> first | exact Bool.noConfusion hst | rfl

theorem vor (o : VBin) : Statement (.vor o) := by
  intro st y hst hf hw
  obtain rfl := Option.some.inj hf
  refine decode_of ?_ rfl hw (by intro h; subst h; first | rfl | exact hst)
  clear hw hf
  obtain ⟨_, _ | _, _, _, _⟩ := o <;> cases st <;> first | exact Bool.noConfusion hst | rfl

theorem vxor (o : VBin) : Statement (.vxor o) := by
  intro st y hst hf hw
  obtain rfl := Option.some.inj hf
  refine decode_of ?_ rfl hw (by intro h; subst h; first | rfl | exact hst)
  clear hw hf
  obtain ⟨_, _ | _, _, _, _⟩ := o <;> cases st <;> first | exact Bool.noConfusion hst | rfl

theorem vshl (o : VBin) : Statement (.vshl o) := by
  intro st y hst hf hw
  obtain rfl := Option.some.inj hf
  refine decode_of ?_ rfl hw (by intro h; subst h; first | rfl | exact hst)
  clear hw hf
  obtain ⟨_, _ | _, _, _, _⟩ := o <;> cases st <;> first | exact Bool.noConfusion hst | rfl

theorem vshr (o : VBin) : Statement (.vshr o) := by
  intro st y hst hf hw
  obtain rfl := Option.some.inj hf
  refine decode_of ?_ rfl hw (by intro h; subst h; first | rfl | exact hst)
  clear hw hf
  obtain ⟨_, _ | _, _, _, _⟩ := o <;> cases st <;> first | exact Bool.noConfusion hst | rfl

theorem vsra (o : VBin) : Statement (.vsra o) := by
  intro st y hst hf hw
  obtain rfl := Option.some.inj hf
  refine decode_of ?_ rfl hw (by intro h; subst h; first | rfl | exact hst)
  clear hw hf
  obtain ⟨_, _ | _, _, _, _⟩ := o <;> cases st <;> first | exact Bool.noConfusion hst | rfl

theorem vclz (o : VUn) : Statement (.vclz o) := by
  intro st y hst hf hw
  obtain rfl := Option.some.inj hf
  refine decode_of ?_ rfl hw (by intro h; subst h; first | rfl | exact hst)
  clear hw hf
  obtain ⟨_, _ | _, _, _⟩ := o <;> cases st <;> first | exact Bool.noConfusion hst | rfl

theorem vpopc (o : VUn) : Statement (.vpopc o) := by
  intro st y hst hf hw
  obtain rfl := Option.some.inj hf
  refine decode_of ?_ rfl hw (by intro h; subst h; first | rfl | exact hst)
  clear hw hf
  obtain ⟨_, _ | _, _, _⟩ := o <;> cases st <;> first | exact Bool.noConfusion hst | rfl

theorem vrcp (o : VUn) : Statement (.vrcp o) := by
  intro st y hst hf hw
  obtain rfl := Option.some.inj hf
  refine decode_of ?_ rfl hw (by intro h; subst h; first | rfl | exact hst)
  clear hw hf
  obtain ⟨_, _ | _, _, _⟩ := o <;> cases st <;> first | exact Bool.noConfusion hst | rfl

theorem vrsq (o : VUn) : Statement (.vrsq o) := by
  intro st y hst hf hw
  obtain rfl := Option.some.inj hf
  refine decode_of ?_ rfl hw (by intro h; subst h; first | rfl | exact hst)
  clear hw hf
  obtain ⟨_, _ | _, _, _⟩ := o <;> cases st <;> first | exact Bool.noConfusion hst | rfl

theorem vsqrt (o : VUn) : Statement (.vsqrt o) := by
  intro st y hst hf hw
  obtain rfl := Option.some.inj hf
  refine decode_of ?_ rfl hw (by intro h; subst h; first | rfl | exact hst)
  clear hw hf
  obtain ⟨_, _ | _, _, _⟩ := o <;> cases st <;> first | exact Bool.noConfusion hst | rfl

theorem vex2 (o : VUn) : Statement (.vex2 o) := by
  intro st y hst hf hw
  obtain rfl := Option.some.inj hf
  refine decode_of ?_ rfl hw (by intro h; subst h; first | rfl | exact hst)
  clear hw hf
  obtain ⟨_, _ | _, _, _⟩ := o <;> cases st <;> first | exact Bool.noConfusion hst | rfl

theorem vlg2 (o : VUn) : Statement (.vlg2 o) := by
  intro st y hst hf hw
  obtain rfl := Option.some.inj hf
  refine decode_of ?_ rfl hw (by intro h; subst h; first | rfl | exact hst)
  clear hw hf
  obtain ⟨_, _ | _, _, _⟩ := o <;> cases st <;> first | exact Bool.noConfusion hst | rfl

theorem vsinp (o : VUn) : Statement (.vsinp o) := by
  intro st y hst hf hw
  obtain rfl := Option.some.inj hf
  refine decode_of ?_ rfl hw (by intro h; subst h; first | rfl | exact hst)
  clear hw hf
  obtain ⟨_, _ | _, _, _⟩ := o <;> cases st <;> first | exact Bool.noConfusion hst | rfl

theorem vcosp (o : VUn) : Statement (.vcosp o) := by
  intro st y hst hf hw
  obtain rfl := Option.some.inj hf
  refine decode_of ?_ rfl hw (by intro h; subst h; first | rfl | exact hst)
  clear hw hf
  obtain ⟨_, _ | _, _, _⟩ := o <;> cases st <;> first | exact Bool.noConfusion hst | rfl

theorem vsig (o : VUn) : Statement (.vsig o) := by
  intro st y hst hf hw
  obtain rfl := Option.some.inj hf
  refine decode_of ?_ rfl hw (by intro h; subst h; first | rfl | exact hst)
  clear hw hf
  obtain ⟨_, _ | _, _, _⟩ := o <;> cases st <;> first | exact Bool.noConfusion hst | rfl

theorem verf (o : VUn) : Statement (.verf o) := by
  intro st y hst hf hw
  obtain rfl := Option.some.inj hf
  refine decode_of ?_ rfl hw (by intro h; subst h; first | rfl | exact hst)
  clear hw hf
  obtain ⟨_, _ | _, _, _⟩ := o <;> cases st <;> first | exact Bool.noConfusion hst | rfl

theorem vmov (o : VUn) : Statement (.vmov o) := by
  intro st y hst hf hw
  obtain rfl := Option.some.inj hf
  refine decode_of ?_ rfl hw (by intro h; subst h; first | rfl | exact hst)
  clear hw hf
  obtain ⟨_, _ | _, _, _⟩ := o <;> cases st <;> first | exact Bool.noConfusion hst | rfl

theorem vsel (c : VCom) (vd : BitVec 5) (va : BitVec 5) (vb : BitVec 5) : Statement (.vsel c vd va vb) := by
  intro st y hst hf hw
  obtain rfl := Option.some.inj hf
  refine decode_of ?_ rfl hw (by intro h; subst h; first | rfl | exact hst)
  clear hw hf
  cases st <;> first | exact Bool.noConfusion hst | rfl

theorem vtrn (c : VCom) (vd : BitVec 5) (va : BitVec 5) : Statement (.vtrn c vd va) := by
  intro st y hst hf hw
  obtain rfl := Option.some.inj hf
  refine decode_of ?_ rfl hw (by intro h; subst h; first | rfl | exact hst)
  clear hw hf
  cases st <;> first | exact Bool.noConfusion hst | rfl

theorem vperm (o : VBin) : Statement (.vperm o) := by
  intro st y hst hf hw
  obtain rfl := Option.some.inj hf
  refine decode_of ?_ rfl hw (by intro h; subst h; first | rfl | exact hst)
  clear hw hf
  obtain ⟨_, _ | _, _, _, _⟩ := o <;> cases st <;> first | exact Bool.noConfusion hst | rfl

theorem vbcl (c : VCom) (m : Bool) (vd : BitVec 5) (k : BitVec 4) : Statement (.vbcl c m vd k) := by
  intro st y hst hf hw
  obtain rfl := Option.some.inj hf
  refine decode_of ?_ rfl hw (by intro h; subst h; first | rfl | exact hst)
  clear hw hf
  cases m <;> cases st <;> first
    | exact Bool.noConfusion hst
    | (refine (rfl : _ = some (Instr.vbcl _ _ _ _)).trans ?_
       simp (disch := decide) only [V32.vcom, hreg, Form.h5, append_fld, bit_bool, bool_bit, fld_cast, fld_append_hi, fld_append_lo, Nat.reduceSub, fld_all] <;> rfl)

theorem vbcs (c : VCom) (m : Bool) (vd : BitVec 5) : Statement (.vbcs c m vd) := by
  intro st y hst hf hw
  obtain rfl := Option.some.inj hf
  refine decode_of ?_ rfl hw (by intro h; subst h; first | rfl | exact hst)
  clear hw hf
  cases m <;> cases st <;> first | exact Bool.noConfusion hst | rfl

theorem mpop (c : VCom) : Statement (.mpop c) := by
  intro st y hst hf hw
  obtain rfl := Option.some.inj hf
  refine decode_of ?_ rfl hw (by intro h; subst h; first | rfl | exact hst)
  clear hw hf
  cases st <;> first | exact Bool.noConfusion hst | rfl

theorem minv (c : VCom) : Statement (.minv c) := by
  intro st y hst hf hw
  obtain rfl := Option.some.inj hf
  refine decode_of ?_ rfl hw (by intro h; subst h; first | rfl | exact hst)
  clear hw hf
  cases st <;> first | exact Bool.noConfusion hst | rfl

theorem mset (c : VCom) (va : BitVec 5) : Statement (.mset c va) := by
  intro st y hst hf hw
  obtain rfl := Option.some.inj hf
  refine decode_of ?_ rfl hw (by intro h; subst h; first | rfl | exact hst)
  clear hw hf
  cases st <;> first | exact Bool.noConfusion hst | rfl

theorem mget (c : VCom) (vd : BitVec 5) : Statement (.mget c vd) := by
  intro st y hst hf hw
  obtain rfl := Option.some.inj hf
  refine decode_of ?_ rfl hw (by intro h; subst h; first | rfl | exact hst)
  clear hw hf
  cases st <;> first | exact Bool.noConfusion hst | rfl

theorem vbrz (c : VCom) (count : BitVec 5) : Statement (.vbrz c count) := by
  intro st y hst hf hw
  obtain rfl := Option.some.inj hf
  refine decode_of ?_ rfl hw (by intro h; subst h; first | rfl | exact hst)
  clear hw hf
  cases st <;> first | exact Bool.noConfusion hst | rfl

theorem vext (c : VCom) (va : BitVec 5) (idx : BitVec 10) : Statement (.vext c va idx) := by
  intro st y hst hf hw
  obtain rfl := Option.some.inj hf
  refine decode_of ?_ rfl hw (by intro h; subst h; first | rfl | exact hst)
  clear hw hf
  cases st <;> first
    | exact Bool.noConfusion hst
    | (refine (rfl : _ = some (Instr.vext _ _ _)).trans ?_
       simp (disch := decide) only [V32.vcom, hreg, Form.h5, append_fld, bit_bool, bool_bit, fld_cast, fld_append_hi, fld_append_lo, Nat.reduceSub, fld_all] <;> rfl)

theorem vdiv (o : VBin) : Statement (.vdiv o) := by
  intro st y hst hf hw
  obtain rfl := Option.some.inj hf
  refine decode_of ?_ rfl hw (by intro h; subst h; first | rfl | exact hst)
  clear hw hf
  obtain ⟨_, _ | _, _, _, _⟩ := o <;> cases st <;> first | exact Bool.noConfusion hst | rfl

theorem vfma (o : VFma) : Statement (.vfma o) := by
  intro st y hst hf hw
  obtain rfl := Option.some.inj hf
  refine decode_of ?_ rfl hw (by intro h; subst h; first | rfl | exact hst)
  clear hw hf
  obtain ⟨_, _ | _, _, _, _, _, _, _⟩ := o <;> cases st <;> first
    | exact Bool.noConfusion hst
    | (refine (rfl : _ = some (Instr.vfma _)).trans ?_
       simp (disch := decide) only [V48.vcom, V48.aux, V48.rm, V48.t, V48.vc, V48.fma, V48.fold, V48.memOp, V48.memX, hreg, Form.h5, append_fld, bit_bool, bool_bit, fld_cast, fld_append_hi, fld_append_lo, Nat.reduceSub, fld_all] <;> rfl)

theorem vfms (o : VFma) : Statement (.vfms o) := by
  intro st y hst hf hw
  obtain rfl := Option.some.inj hf
  refine decode_of ?_ rfl hw (by intro h; subst h; first | rfl | exact hst)
  clear hw hf
  obtain ⟨_, _ | _, _, _, _, _, _, _⟩ := o <;> cases st <;> first
    | exact Bool.noConfusion hst
    | (refine (rfl : _ = some (Instr.vfms _)).trans ?_
       simp (disch := decide) only [V48.vcom, V48.aux, V48.rm, V48.t, V48.vc, V48.fma, V48.fold, V48.memOp, V48.memX, hreg, Form.h5, append_fld, bit_bool, bool_bit, fld_cast, fld_append_hi, fld_append_lo, Nat.reduceSub, fld_all] <;> rfl)

theorem vfnma (o : VFma) : Statement (.vfnma o) := by
  intro st y hst hf hw
  obtain rfl := Option.some.inj hf
  refine decode_of ?_ rfl hw (by intro h; subst h; first | rfl | exact hst)
  clear hw hf
  obtain ⟨_, _ | _, _, _, _, _, _, _⟩ := o <;> cases st <;> first
    | exact Bool.noConfusion hst
    | (refine (rfl : _ = some (Instr.vfnma _)).trans ?_
       simp (disch := decide) only [V48.vcom, V48.aux, V48.rm, V48.t, V48.vc, V48.fma, V48.fold, V48.memOp, V48.memX, hreg, Form.h5, append_fld, bit_bool, bool_bit, fld_cast, fld_append_hi, fld_append_lo, Nat.reduceSub, fld_all] <;> rfl)

theorem vcmp (c : VCom) (va : BitVec 5) (vb : BitVec 5) (t : BitVec 4) (cond : BitVec 4) : Statement (.vcmp c va vb t cond) := by
  intro st y hst hf hw
  obtain rfl := Option.some.inj hf
  refine decode_of ?_ rfl hw (by intro h; subst h; first | rfl | exact hst)
  clear hw hf
  cases st <;> first
    | exact Bool.noConfusion hst
    | (refine (rfl : _ = some (Instr.vcmp _ _ _ _ _)).trans ?_
       simp (disch := decide) only [V48.vcom, V48.aux, V48.rm, V48.t, V48.vc, V48.fma, V48.fold, V48.memOp, V48.memX, hreg, Form.h5, append_fld, bit_bool, bool_bit, fld_cast, fld_append_hi, fld_append_lo, Nat.reduceSub, fld_all] <;> rfl)

theorem vcvt (c : VCom) (m : Bool) (vd : BitVec 5) (va : BitVec 5) (noo : Bool) (t : BitVec 4) (s : BitVec 4) (rm : BitVec 3) : Statement (.vcvt c m vd va noo t s rm) := by
  intro st y hst hf hw
  obtain rfl := Option.some.inj hf
  refine decode_of ?_ rfl hw (by intro h; subst h; first | rfl | exact hst)
  clear hw hf
  cases m <;> cases noo <;> cases st <;> first
    | exact Bool.noConfusion hst
    | (refine (rfl : _ = some (Instr.vcvt _ _ _ _ _ _ _ _)).trans ?_
       simp (disch := decide) only [V48.vcom, V48.aux, V48.rm, V48.t, V48.vc, V48.fma, V48.fold, V48.memOp, V48.memX, hreg, Form.h5, append_fld, bit_bool, bool_bit, fld_cast, fld_append_hi, fld_append_lo, Nat.reduceSub, fld_all] <;> rfl)

theorem vfsh (c : VCom) (m : Bool) (vd : BitVec 5) (va : BitVec 5) (vb : BitVec 5) (vc : BitVec 5) (t : BitVec 4) (left : Bool) : Statement (.vfsh c m vd va vb vc t left) := by
  intro st y hst hf hw
  obtain rfl := Option.some.inj hf
  refine decode_of ?_ rfl hw (by intro h; subst h; first | rfl | exact hst)
  clear hw hf
  cases m <;> cases left <;> cases st <;> first
    | exact Bool.noConfusion hst
    | (refine (rfl : _ = some (Instr.vfsh _ _ _ _ _ _ _ _)).trans ?_
       simp (disch := decide) only [V48.vcom, V48.aux, V48.rm, V48.t, V48.vc, V48.fma, V48.fold, V48.memOp, V48.memX, hreg, Form.h5, append_fld, bit_bool, bool_bit, fld_cast, fld_append_hi, fld_append_lo, Nat.reduceSub, fld_all] <;> rfl)

theorem vred (o : VFold) : Statement (.vred o) := by
  intro st y hst hf hw
  obtain rfl := Option.some.inj hf
  refine decode_of ?_ rfl hw (by intro h; subst h; first | rfl | exact hst)
  clear hw hf
  obtain ⟨_, _ | _, _, _, _, _, _, _ | _, _⟩ := o <;> cases st <;> first
    | exact Bool.noConfusion hst
    | (refine (rfl : _ = some (Instr.vred _)).trans ?_
       simp (disch := decide) only [V48.vcom, V48.aux, V48.rm, V48.t, V48.vc, V48.fma, V48.fold, V48.memOp, V48.memX, hreg, Form.h5, append_fld, bit_bool, bool_bit, fld_cast, fld_append_hi, fld_append_lo, Nat.reduceSub, fld_all] <;> rfl)

theorem vscan (o : VFold) : Statement (.vscan o) := by
  intro st y hst hf hw
  obtain rfl := Option.some.inj hf
  refine decode_of ?_ rfl hw (by intro h; subst h; first | rfl | exact hst)
  clear hw hf
  obtain ⟨_, _ | _, _, _, _, _, _, _ | _, _⟩ := o <;> cases st <;> first
    | exact Bool.noConfusion hst
    | (refine (rfl : _ = some (Instr.vscan _)).trans ?_
       simp (disch := decide) only [V48.vcom, V48.aux, V48.rm, V48.t, V48.vc, V48.fma, V48.fold, V48.memOp, V48.memX, hreg, Form.h5, append_fld, bit_bool, bool_bit, fld_cast, fld_append_hi, fld_append_lo, Nat.reduceSub, fld_all] <;> rfl)

theorem vshape (c : VCom) (t : BitVec 4) (imm : BitVec 15) : Statement (.vshape c t imm) := by
  intro st y hst hf hw
  obtain rfl := Option.some.inj hf
  refine decode_of ?_ rfl hw (by intro h; subst h; first | rfl | exact hst)
  clear hw hf
  cases st <;> first
    | exact Bool.noConfusion hst
    | (refine (rfl : _ = some (Instr.vshape _ _ _)).trans ?_
       simp (disch := decide) only [V48.vcom, V48.aux, V48.rm, V48.t, V48.vc, V48.fma, V48.fold, V48.memOp, V48.memX, hreg, Form.h5, append_fld, bit_bool, bool_bit, fld_cast, fld_append_hi, fld_append_lo, Nat.reduceSub, fld_all] <;> rfl)

theorem vqblk (c : VCom) (vd : BitVec 5) (va : BitVec 5) (vc : BitVec 5) (t : BitVec 4) (s : BitVec 4) (rm : BitVec 3) : Statement (.vqblk c vd va vc t s rm) := by
  intro st y hst hf hw
  obtain rfl := Option.some.inj hf
  refine decode_of ?_ rfl hw (by intro h; subst h; first | rfl | exact hst)
  clear hw hf
  cases st <;> first
    | exact Bool.noConfusion hst
    | (refine (rfl : _ = some (Instr.vqblk _ _ _ _ _ _ _)).trans ?_
       simp (disch := decide) only [V48.vcom, V48.aux, V48.rm, V48.t, V48.vc, V48.fma, V48.fold, V48.memOp, V48.memX, hreg, Form.h5, append_fld, bit_bool, bool_bit, fld_cast, fld_append_hi, fld_append_lo, Nat.reduceSub, fld_all] <;> rfl)

theorem viota (c : VCom) (m : Bool) (vd : BitVec 5) (t : BitVec 4) (kind : BitVec 2) : Statement (.viota c m vd t kind) := by
  intro st y hst hf hw
  obtain rfl := Option.some.inj hf
  refine decode_of ?_ rfl hw (by intro h; subst h; first | rfl | exact hst)
  clear hw hf
  cases m <;> cases st <;> first
    | exact Bool.noConfusion hst
    | (refine (rfl : _ = some (Instr.viota _ _ _ _ _)).trans ?_
       simp (disch := decide) only [V48.vcom, V48.aux, V48.rm, V48.t, V48.vc, V48.fma, V48.fold, V48.memOp, V48.memX, hreg, Form.h5, append_fld, bit_bool, bool_bit, fld_cast, fld_append_hi, fld_append_lo, Nat.reduceSub, fld_all] <;> rfl)

theorem vli (c : VCom) (m : Bool) (vd : BitVec 5) (imm : BitVec 16) : Statement (.vli c m vd imm) := by
  intro st y hst hf hw
  obtain rfl := Option.some.inj hf
  refine decode_of ?_ rfl hw (by intro h; subst h; first | rfl | exact hst)
  clear hw hf
  cases m <;> cases st <;> first | exact Bool.noConfusion hst | rfl

theorem vsprSet (c : VCom) (en : BitVec 7) (val : BitVec 7) : Statement (.vsprSet c en val) := by
  intro st y hst hf hw
  obtain rfl := Option.some.inj hf
  refine decode_of ?_ rfl hw (by intro h; subst h; first | rfl | exact hst)
  clear hw hf
  skip <;> cases st <;> first
    | exact Bool.noConfusion hst
    | (refine (ve_spr _ rfl).trans ?_
       simp (disch := decide) only [F48.gd, V48.vcom, hreg, Form.h5, bit_bool, fld_cast, fld_append_hi, fld_append_lo, fld_all, Nat.reduceSub]
       rfl)

theorem vsprShift (c : VCom) (b : Bool) : Statement (.vsprShift c b) := by
  intro st y hst hf hw
  obtain rfl := Option.some.inj hf
  refine decode_of ?_ rfl hw (by intro h; subst h; first | rfl | exact hst)
  clear hw hf
  cases b <;> cases st <;> first
    | exact Bool.noConfusion hst
    | (refine (ve_spr _ rfl).trans ?_
       simp (disch := decide) only [F48.gd, V48.vcom, hreg, Form.h5, bit_bool, fld_cast, fld_append_hi, fld_append_lo, fld_all, Nat.reduceSub]
       rfl)

theorem vrrbSet (c : VCom) (n : BitVec 4) : Statement (.vrrbSet c n) := by
  intro st y hst hf hw
  obtain rfl := Option.some.inj hf
  refine decode_of ?_ rfl hw (by intro h; subst h; first | rfl | exact hst)
  clear hw hf
  skip <;> cases st <;> first
    | exact Bool.noConfusion hst
    | (refine (ve_rrb _ rfl).trans ?_
       simp (disch := decide) only [F48.gd, V48.vcom, hreg, Form.h5, bit_bool, fld_cast, fld_append_hi, fld_append_lo, fld_all, Nat.reduceSub]
       rfl)

theorem vrrbAdd (c : VCom) (n : BitVec 4) : Statement (.vrrbAdd c n) := by
  intro st y hst hf hw
  obtain rfl := Option.some.inj hf
  refine decode_of ?_ rfl hw (by intro h; subst h; first | rfl | exact hst)
  clear hw hf
  skip <;> cases st <;> first
    | exact Bool.noConfusion hst
    | (refine (ve_rrb _ rfl).trans ?_
       simp (disch := decide) only [F48.gd, V48.vcom, hreg, Form.h5, bit_bool, fld_cast, fld_append_hi, fld_append_lo, fld_all, Nat.reduceSub]
       rfl)

theorem vld (o : VMem) : Statement (.vld o) := by
  intro st y hst hf hw
  obtain rfl := Option.some.inj hf
  refine decode_of ?_ rfl hw (by intro h; subst h; first | rfl | exact hst)
  clear hw hf
  obtain ⟨_, _ | _, _, _, _, _⟩ := o <;> cases st <;> first
    | exact Bool.noConfusion hst
    | (refine (rfl : _ = some (Instr.vld _)).trans ?_
       simp (disch := decide) only [V48.vcom, V48.aux, V48.rm, V48.t, V48.vc, V48.fma, V48.fold, V48.memOp, V48.memX, hreg, Form.h5, append_fld, bit_bool, bool_bit, fld_cast, fld_append_hi, fld_append_lo, Nat.reduceSub, fld_all] <;> rfl)

theorem vst (o : VMem) : Statement (.vst o) := by
  intro st y hst hf hw
  obtain rfl := Option.some.inj hf
  refine decode_of ?_ rfl hw (by intro h; subst h; first | rfl | exact hst)
  clear hw hf
  obtain ⟨_, _ | _, _, _, _, _⟩ := o <;> cases st <;> first
    | exact Bool.noConfusion hst
    | (refine (rfl : _ = some (Instr.vst _)).trans ?_
       simp (disch := decide) only [V48.vcom, V48.aux, V48.rm, V48.t, V48.vc, V48.fma, V48.fold, V48.memOp, V48.memX, hreg, Form.h5, append_fld, bit_bool, bool_bit, fld_cast, fld_append_hi, fld_append_lo, Nat.reduceSub, fld_all] <;> rfl)

theorem vldu (o : VMem) : Statement (.vldu o) := by
  intro st y hst hf hw
  obtain rfl := Option.some.inj hf
  refine decode_of ?_ rfl hw (by intro h; subst h; first | rfl | exact hst)
  clear hw hf
  obtain ⟨_, _ | _, _, _, _, _⟩ := o <;> cases st <;> first
    | exact Bool.noConfusion hst
    | (refine (rfl : _ = some (Instr.vldu _)).trans ?_
       simp (disch := decide) only [V48.vcom, V48.aux, V48.rm, V48.t, V48.vc, V48.fma, V48.fold, V48.memOp, V48.memX, hreg, Form.h5, append_fld, bit_bool, bool_bit, fld_cast, fld_append_hi, fld_append_lo, Nat.reduceSub, fld_all] <;> rfl)

theorem vstb (o : VMemX) : Statement (.vstb o) := by
  intro st y hst hf hw
  obtain rfl := Option.some.inj hf
  refine decode_of ?_ rfl hw (by intro h; subst h; first | rfl | exact hst)
  clear hw hf
  obtain ⟨_, _ | _, _, _, _, _, _⟩ := o <;> cases st <;> first
    | exact Bool.noConfusion hst
    | (refine (rfl : _ = some (Instr.vstb _)).trans ?_
       simp (disch := decide) only [V48.vcom, V48.aux, V48.rm, V48.t, V48.vc, V48.fma, V48.fold, V48.memOp, V48.memX, hreg, Form.h5, append_fld, bit_bool, bool_bit, fld_cast, fld_append_hi, fld_append_lo, Nat.reduceSub, fld_all] <;> rfl)

theorem vgth (o : VMemX) : Statement (.vgth o) := by
  intro st y hst hf hw
  obtain rfl := Option.some.inj hf
  refine decode_of ?_ rfl hw (by intro h; subst h; first | rfl | exact hst)
  clear hw hf
  obtain ⟨_, _ | _, _, _, _, _, _⟩ := o <;> cases st <;> first
    | exact Bool.noConfusion hst
    | (refine (rfl : _ = some (Instr.vgth _)).trans ?_
       simp (disch := decide) only [V48.vcom, V48.aux, V48.rm, V48.t, V48.vc, V48.fma, V48.fold, V48.memOp, V48.memX, hreg, Form.h5, append_fld, bit_bool, bool_bit, fld_cast, fld_append_hi, fld_append_lo, Nat.reduceSub, fld_all] <;> rfl)

theorem vsct (o : VMemX) : Statement (.vsct o) := by
  intro st y hst hf hw
  obtain rfl := Option.some.inj hf
  refine decode_of ?_ rfl hw (by intro h; subst h; first | rfl | exact hst)
  clear hw hf
  obtain ⟨_, _ | _, _, _, _, _, _⟩ := o <;> cases st <;> first
    | exact Bool.noConfusion hst
    | (refine (rfl : _ = some (Instr.vsct _)).trans ?_
       simp (disch := decide) only [V48.vcom, V48.aux, V48.rm, V48.t, V48.vc, V48.fma, V48.fold, V48.memOp, V48.memX, hreg, Form.h5, append_fld, bit_bool, bool_bit, fld_cast, fld_append_hi, fld_append_lo, Nat.reduceSub, fld_all] <;> rfl)

theorem vsca (o : VMemX) : Statement (.vsca o) := by
  intro st y hst hf hw
  obtain rfl := Option.some.inj hf
  refine decode_of ?_ rfl hw (by intro h; subst h; first | rfl | exact hst)
  clear hw hf
  obtain ⟨_, _ | _, _, _, _, _, _⟩ := o <;> cases st <;> first
    | exact Bool.noConfusion hst
    | (refine (rfl : _ = some (Instr.vsca _)).trans ?_
       simp (disch := decide) only [V48.vcom, V48.aux, V48.rm, V48.t, V48.vc, V48.fma, V48.fold, V48.memOp, V48.memX, hreg, Form.h5, append_fld, bit_bool, bool_bit, fld_cast, fld_append_hi, fld_append_lo, Nat.reduceSub, fld_all] <;> rfl)

theorem vldl (o : VMemX) : Statement (.vldl o) := by
  intro st y hst hf hw
  obtain rfl := Option.some.inj hf
  refine decode_of ?_ rfl hw (by intro h; subst h; first | rfl | exact hst)
  clear hw hf
  obtain ⟨_, _ | _, _, _, _, _, _⟩ := o <;> cases st <;> first
    | exact Bool.noConfusion hst
    | (refine (rfl : _ = some (Instr.vldl _)).trans ?_
       simp (disch := decide) only [V48.vcom, V48.aux, V48.rm, V48.t, V48.vc, V48.fma, V48.fold, V48.memOp, V48.memX, hreg, Form.h5, append_fld, bit_bool, bool_bit, fld_cast, fld_append_hi, fld_append_lo, Nat.reduceSub, fld_all] <;> rfl)

theorem vstl (o : VMemX) : Statement (.vstl o) := by
  intro st y hst hf hw
  obtain rfl := Option.some.inj hf
  refine decode_of ?_ rfl hw (by intro h; subst h; first | rfl | exact hst)
  clear hw hf
  obtain ⟨_, _ | _, _, _, _, _, _⟩ := o <;> cases st <;> first
    | exact Bool.noConfusion hst
    | (refine (rfl : _ = some (Instr.vstl _)).trans ?_
       simp (disch := decide) only [V48.vcom, V48.aux, V48.rm, V48.t, V48.vc, V48.fma, V48.fold, V48.memOp, V48.memX, hreg, Form.h5, append_fld, bit_bool, bool_bit, fld_cast, fld_append_hi, fld_append_lo, Nat.reduceSub, fld_all] <;> rfl)

theorem vlda (c : VCom) (m : Bool) (vd : BitVec 5) (s : BitVec 4) (row0 : BitVec 7) (col : BitVec 2) : Statement (.vlda c m vd s row0 col) := by
  intro st y hst hf hw
  obtain rfl := Option.some.inj hf
  refine decode_of ?_ rfl hw (by intro h; subst h; first | rfl | exact hst)
  clear hw hf
  cases m <;> cases st <;> first
    | exact Bool.noConfusion hst
    | (refine (rfl : _ = some (Instr.vlda _ _ _ _ _ _)).trans ?_
       simp (disch := decide) only [V48.vcom, V48.aux, V48.rm, V48.t, V48.vc, V48.fma, V48.fold, V48.memOp, V48.memX, hreg, Form.h5, append_fld, bit_bool, bool_bit, fld_cast, fld_append_hi, fld_append_lo, Nat.reduceSub, fld_all] <;> rfl)

theorem blk (lvl : BitVec 3) (len : BitVec 10) (await : BitVec 6) (raise : BitVec 6) (rep : BitVec 10) : Statement (.blk lvl len await raise rep) := by
  intro st y hst hf hw
  obtain rfl := Option.some.inj hf
  refine decode_of ?_ rfl hw (by intro h; subst h; first | rfl | exact hst)
  clear hw hf
  cases st <;> first | exact Bool.noConfusion hst | rfl

theorem pmm (c : VCom) (slot : BitVec 4) (ha : BitVec 2) (hb : BitVec 2) (carry : Bool) (e : BitVec 10) : Statement (.pmm c slot ha hb carry e) := by
  intro st y hst hf hw
  obtain rfl := Option.some.inj hf
  refine decode_of ?_ rfl hw (by intro h; subst h; first | rfl | exact hst)
  clear hw hf
  cases carry <;> cases st <;> first
    | exact Bool.noConfusion hst
    | (refine (rfl : _ = some (Instr.pmm _ _ _ _ _ _)).trans ?_
       simp (disch := decide) only [P48.vcom, hreg, Form.h5, append_fld, bit_bool, bool_bit, fld_cast, fld_append_hi, fld_append_lo, Nat.reduceSub, fld_all] <;> rfl)

theorem pmmg (c : VCom) (slot : BitVec 4) (ha : BitVec 2) (hb : BitVec 2) (hc : BitVec 2) (carry : Bool) (e : BitVec 10) : Statement (.pmmg c slot ha hb hc carry e) := by
  intro st y hst hf hw
  obtain rfl := Option.some.inj hf
  refine decode_of ?_ rfl hw (by intro h; subst h; first | rfl | exact hst)
  clear hw hf
  cases carry <;> cases st <;> first
    | exact Bool.noConfusion hst
    | (refine (rfl : _ = some (Instr.pmmg _ _ _ _ _ _ _)).trans ?_
       simp (disch := decide) only [P48.vcom, hreg, Form.h5, append_fld, bit_bool, bool_bit, fld_cast, fld_append_hi, fld_append_lo, Nat.reduceSub, fld_all] <;> rfl)

theorem pres (c : VCom) (slot : BitVec 4) (hc : BitVec 2) (rm : BitVec 3) (noo : Bool) (ovn : Bool) (p : BitVec 10) : Statement (.pres c slot hc rm noo ovn p) := by
  intro st y hst hf hw
  obtain rfl := Option.some.inj hf
  refine decode_of ?_ rfl hw (by intro h; subst h; first | rfl | exact hst)
  clear hw hf
  cases noo <;> cases ovn <;> cases st <;> first
    | exact Bool.noConfusion hst
    | (refine (rfl : _ = some (Instr.pres _ _ _ _ _ _ _)).trans ?_
       simp (disch := decide) only [P48.vcom, hreg, Form.h5, append_fld, bit_bool, bool_bit, fld_cast, fld_append_hi, fld_append_lo, Nat.reduceSub, fld_all] <;> rfl)

theorem prel (c : VCom) (slot : BitVec 4) : Statement (.prel c slot) := by
  intro st y hst hf hw
  obtain rfl := Option.some.inj hf
  refine decode_of ?_ rfl hw (by intro h; subst h; first | rfl | exact hst)
  clear hw hf
  cases st <;> first | exact Bool.noConfusion hst | rfl

theorem pstr (c : VCom) (slot : BitVec 4) (hc : BitVec 2) : Statement (.pstr c slot hc) := by
  intro st y hst hf hw
  obtain rfl := Option.some.inj hf
  refine decode_of ?_ rfl hw (by intro h; subst h; first | rfl | exact hst)
  clear hw hf
  cases st <;> first | exact Bool.noConfusion hst | rfl

theorem pldr (c : VCom) (slot : BitVec 4) (hc : BitVec 2) (carry : Bool) (e : BitVec 10) : Statement (.pldr c slot hc carry e) := by
  intro st y hst hf hw
  obtain rfl := Option.some.inj hf
  refine decode_of ?_ rfl hw (by intro h; subst h; first | rfl | exact hst)
  clear hw hf
  cases carry <;> cases st <;> first
    | exact Bool.noConfusion hst
    | (refine (rfl : _ = some (Instr.pldr _ _ _ _ _)).trans ?_
       simp (disch := decide) only [P48.vcom, hreg, Form.h5, append_fld, bit_bool, bool_bit, fld_cast, fld_append_hi, fld_append_lo, Nat.reduceSub, fld_all] <;> rfl)

theorem pscl (c : VCom) (slot : BitVec 4) (d : BitVec 10) : Statement (.pscl c slot d) := by
  intro st y hst hf hw
  obtain rfl := Option.some.inj hf
  refine decode_of ?_ rfl hw (by intro h; subst h; first | rfl | exact hst)
  clear hw hf
  cases st <;> first
    | exact Bool.noConfusion hst
    | (refine (rfl : _ = some (Instr.pscl _ _ _)).trans ?_
       simp (disch := decide) only [P48.vcom, hreg, Form.h5, append_fld, bit_bool, bool_bit, fld_cast, fld_append_hi, fld_append_lo, Nat.reduceSub, fld_all] <;> rfl)

theorem padd (c : VCom) (slot : BitVec 4) (src : BitVec 4) (carry : Bool) (e : BitVec 10) : Statement (.padd c slot src carry e) := by
  intro st y hst hf hw
  obtain rfl := Option.some.inj hf
  refine decode_of ?_ rfl hw (by intro h; subst h; first | rfl | exact hst)
  clear hw hf
  cases carry <;> cases st <;> first
    | exact Bool.noConfusion hst
    | (refine (rfl : _ = some (Instr.padd _ _ _ _ _)).trans ?_
       simp (disch := decide) only [P48.vcom, hreg, Form.h5, append_fld, bit_bool, bool_bit, fld_cast, fld_append_hi, fld_append_lo, Nat.reduceSub, fld_all] <;> rfl)

theorem hcpy (h : HodHdr) (src : Desc) (dst : Desc) (rm : BitVec 3) (stile : BitVec 12) (dtile : BitVec 12) : Statement (.hcpy h src dst rm stile dtile) := by
  intro st y hst hf hw
  obtain rfl := Option.some.inj hf
  refine decode_of ?_ rfl hw (by intro h; subst h; first | rfl | exact hst)
  clear hw hf
  obtain ⟨_, _ | _, _ | _, _ | _, _ | _, _, _, _, _⟩ := h <;> cases st <;> first
    | exact Bool.noConfusion hst
    | (refine (rfl : _ = some (Instr.hcpy _ _ _ _ _ _)).trans ?_
       simp (disch := decide) only [HEntry.hdr, Desc.of_word, hreg, Form.h5, append_fld, bit_bool, bool_bit, fld_cast, fld_append_hi, fld_append_lo, Nat.reduceSub, fld_all] <;> rfl)

theorem hcpyd (h : HodHdr) (src : Desc) (dst : Desc) (rm : BitVec 3) (stile : BitVec 12) (dtile : BitVec 12) (rgn : BitVec 10) : Statement (.hcpyd h src dst rm stile dtile rgn) := by
  intro st y hst hf hw
  obtain rfl := Option.some.inj hf
  refine decode_of ?_ rfl hw (by intro h; subst h; first | rfl | exact hst)
  clear hw hf
  obtain ⟨_, _ | _, _ | _, _ | _, _ | _, _, _, _, _⟩ := h <;> cases st <;> first
    | exact Bool.noConfusion hst
    | (refine (rfl : _ = some (Instr.hcpyd _ _ _ _ _ _ _)).trans ?_
       simp (disch := decide) only [HEntry.hdr, Desc.of_word, hreg, Form.h5, append_fld, bit_bool, bool_bit, fld_cast, fld_append_hi, fld_append_lo, Nat.reduceSub, fld_all] <;> rfl)

theorem hmcs (h : HodHdr) (key : Desc) (dst : Desc) (rm : BitVec 3) (dtile : BitVec 12) : Statement (.hmcs h key dst rm dtile) := by
  intro st y hst hf hw
  obtain rfl := Option.some.inj hf
  refine decode_of ?_ rfl hw (by intro h; subst h; first | rfl | exact hst)
  clear hw hf
  obtain ⟨_, _ | _, _ | _, _ | _, _ | _, _, _, _, _⟩ := h <;> cases st <;> first
    | exact Bool.noConfusion hst
    | (refine (rfl : _ = some (Instr.hmcs _ _ _ _ _)).trans ?_
       simp (disch := decide) only [HEntry.hdr, Desc.of_word, hreg, Form.h5, append_fld, bit_bool, bool_bit, fld_cast, fld_append_hi, fld_append_lo, Nat.reduceSub, fld_all] <;> rfl)

theorem hmsrc (h : HodHdr) (src : Desc) (count : BitVec 52) (stile : BitVec 12) : Statement (.hmsrc h src count stile) := by
  intro st y hst hf hw
  obtain rfl := Option.some.inj hf
  refine decode_of ?_ rfl hw (by intro h; subst h; first | rfl | exact hst)
  clear hw hf
  obtain ⟨_, _ | _, _ | _, _ | _, _ | _, _, _, _, _⟩ := h <;> cases st <;> first
    | exact Bool.noConfusion hst
    | (refine (rfl : _ = some (Instr.hmsrc _ _ _ _)).trans ?_
       simp (disch := decide) only [HEntry.hdr, Desc.of_word, hreg, Form.h5, append_fld, bit_bool, bool_bit, fld_cast, fld_append_hi, fld_append_lo, Nat.reduceSub, fld_all] <;> rfl)

theorem hfill (h : HodHdr) (pattern : BitVec 52) (dst : Desc) (dtile : BitVec 12) : Statement (.hfill h pattern dst dtile) := by
  intro st y hst hf hw
  obtain rfl := Option.some.inj hf
  refine decode_of ?_ rfl hw (by intro h; subst h; first | rfl | exact hst)
  clear hw hf
  obtain ⟨_, _ | _, _ | _, _ | _, _ | _, _, _, _, _⟩ := h <;> cases st <;> first
    | exact Bool.noConfusion hst
    | (refine (rfl : _ = some (Instr.hfill _ _ _ _)).trans ?_
       simp (disch := decide) only [HEntry.hdr, Desc.of_word, hreg, Form.h5, append_fld, bit_bool, bool_bit, fld_cast, fld_append_hi, fld_append_lo, Nat.reduceSub, fld_all] <;> rfl)

theorem hgath (h : HodHdr) (table : Desc) (dst : Desc) (rm : BitVec 3) (stile : BitVec 12) (dtile : BitVec 12) : Statement (.hgath h table dst rm stile dtile) := by
  intro st y hst hf hw
  obtain rfl := Option.some.inj hf
  refine decode_of ?_ rfl hw (by intro h; subst h; first | rfl | exact hst)
  clear hw hf
  obtain ⟨_, _ | _, _ | _, _ | _, _ | _, _, _, _, _⟩ := h <;> cases st <;> first
    | exact Bool.noConfusion hst
    | (refine (rfl : _ = some (Instr.hgath _ _ _ _ _ _)).trans ?_
       simp (disch := decide) only [HEntry.hdr, Desc.of_word, hreg, Form.h5, append_fld, bit_bool, bool_bit, fld_cast, fld_append_hi, fld_append_lo, Nat.reduceSub, fld_all] <;> rfl)

theorem hhalo (h : HodHdr) (src : Desc) (dst : Desc) (rm : BitVec 3) (stile : BitVec 12) (rgn : BitVec 10) : Statement (.hhalo h src dst rm stile rgn) := by
  intro st y hst hf hw
  obtain rfl := Option.some.inj hf
  refine decode_of ?_ rfl hw (by intro h; subst h; first | rfl | exact hst)
  clear hw hf
  obtain ⟨_, _ | _, _ | _, _ | _, _ | _, _, _, _, _⟩ := h <;> cases st <;> first
    | exact Bool.noConfusion hst
    | (refine (rfl : _ = some (Instr.hhalo _ _ _ _ _ _)).trans ?_
       simp (disch := decide) only [HEntry.hdr, Desc.of_word, hreg, Form.h5, append_fld, bit_bool, bool_bit, fld_cast, fld_append_hi, fld_append_lo, Nat.reduceSub, fld_all] <;> rfl)

theorem hwait (h : HodHdr) : Statement (.hwait h) := by
  intro st y hst hf hw
  obtain rfl := Option.some.inj hf
  refine decode_of ?_ rfl hw (by intro h; subst h; first | rfl | exact hst)
  clear hw hf
  obtain ⟨_, _ | _, _ | _, _ | _, _ | _, _, _, _, _⟩ := h <;> cases st <;> first | exact Bool.noConfusion hst | rfl

theorem hpost (h : HodHdr) (target : Option (BitVec 52)) : Statement (.hpost h target) := by
  intro st y hst hf hw
  obtain rfl := Option.some.inj hf
  refine decode_of ?_ rfl hw (by intro h; subst h; first | rfl | exact hst)
  clear hw hf
  obtain ⟨_, _ | _, _ | _, _ | _, _ | _, _, _, _, _⟩ := h <;> cases target <;> cases st <;> first
    | exact Bool.noConfusion hst
    | rfl
    | (refine (rfl : _ = some (Instr.hpost _ (if (Desc.scalar _).word = 0 then none else some (Desc.of (Desc.scalar _).word).base))).trans ?_
       rw [if_neg (scalar_ne _), Desc.of_word]
       rfl)

theorem hlink (h : HodHdr) (next : BitVec 52) : Statement (.hlink h next) := by
  intro st y hst hf hw
  obtain rfl := Option.some.inj hf
  refine decode_of ?_ rfl hw (by intro h; subst h; first | rfl | exact hst)
  clear hw hf
  obtain ⟨_, _ | _, _ | _, _ | _, _ | _, _, _, _, _⟩ := h <;> cases st <;> first
    | exact Bool.noConfusion hst
    | (refine (rfl : _ = some (Instr.hlink _ _)).trans ?_
       simp (disch := decide) only [HEntry.hdr, Desc.of_word, hreg, Form.h5, append_fld, bit_bool, bool_bit, fld_cast, fld_append_hi, fld_append_lo, Nat.reduceSub, fld_all] <;> rfl)

theorem htile (h : HodHdr) (event : BitVec 52) (dtile : BitVec 12) : Statement (.htile h event dtile) := by
  intro st y hst hf hw
  obtain rfl := Option.some.inj hf
  refine decode_of ?_ rfl hw (by intro h; subst h; first | rfl | exact hst)
  clear hw hf
  obtain ⟨_, _ | _, _ | _, _ | _, _ | _, _, _, _, _⟩ := h <;> cases st <;> first
    | exact Bool.noConfusion hst
    | (refine (rfl : _ = some (Instr.htile _ _ _)).trans ?_
       simp (disch := decide) only [HEntry.hdr, Desc.of_word, hreg, Form.h5, append_fld, bit_bool, bool_bit, fld_cast, fld_append_hi, fld_append_lo, Nat.reduceSub, fld_all] <;> rfl)

theorem hend (h : HodHdr) : Statement (.hend h) := by
  intro st y hst hf hw
  obtain rfl := Option.some.inj hf
  refine decode_of ?_ rfl hw (by intro h; subst h; first | rfl | exact hst)
  clear hw hf
  obtain ⟨_, _ | _, _ | _, _ | _, _ | _, _, _, _, _⟩ := h <;> cases st <;> first | exact Bool.noConfusion hst | rfl

theorem waitaddrTimeout (core : Nat) : Statement (.waitaddrTimeout core) := by
  intro st y _ hf
  cases hf

theorem scwTimeout (core : Nat) : Statement (.scwTimeout core) := by
  intro st y _ hf
  cases hf

theorem gatheredCommand (cluster : Nat) : Statement (.gatheredCommand cluster) := by
  intro st y _ hf
  cases hf

theorem hodChainStart (core : Nat) (hs : Bool) : Statement (.hodChainStart core hs) := by
  intro st y _ hf
  cases hf

theorem hodPost (core : Nat) (hs : Bool) : Statement (.hodPost core hs) := by
  intro st y _ hf
  cases hf

theorem engineDequeue (core : Nat) (px : Bool) : Statement (.engineDequeue core px) := by
  intro st y _ hf
  cases hf

theorem blockRaise (core : Nat) (px : Bool) : Statement (.blockRaise core px) := by
  intro st y _ hf
  cases hf

theorem tokenPush (core : Nat) (e : Eng) : Statement (.tokenPush core e) := by
  intro st y _ hf
  cases hf

theorem pacingGapExpiry (core : Nat) (e : Eng) : Statement (.pacingGapExpiry core e) := by
  intro st y _ hf
  cases hf

theorem markerComplete (core : Nat) (e : Eng) : Statement (.markerComplete core e) := by
  intro st y _ hf
  cases hf

theorem storeAck (core : Nat) : Statement (.storeAck core) := by
  intro st y _ hf
  cases hf

theorem postApply (i : Nat) : Statement (.postApply i) := by
  intro st y _ hf
  cases hf

theorem leaseRelease (cluster : Nat) : Statement (.leaseRelease cluster) := by
  intro st y _ hf
  cases hf

theorem brickRetire (core : Nat) (tag : BitVec 3) : Statement (.brickRetire core tag) := by
  intro st y _ hf
  cases hf

theorem dependencyZero (ctx : Nat) (graph : Nat) (ob : Nat) : Statement (.dependencyZero ctx graph ob) := by
  intro st y _ hf
  cases hf

theorem brickPlacement (cluster : Nat) : Statement (.brickPlacement cluster) := by
  intro st y _ hf
  cases hf

theorem dispatchSelection (core : Nat) : Statement (.dispatchSelection core) := by
  intro st y _ hf
  cases hf

theorem idleCoreStart (core : Nat) : Statement (.idleCoreStart core) := by
  intro st y _ hf
  cases hf

theorem stepBoundary (seq : Nat) : Statement (.stepBoundary seq) := by
  intro st y _ hf
  cases hf

theorem rendezvousTimeout (seq : Nat) : Statement (.rendezvousTimeout seq) := by
  intro st y _ hf
  cases hf

theorem regionDelivery (i : Nat) : Statement (.regionDelivery i) := by
  intro st y _ hf
  cases hf

theorem brickOverrun (core : Nat) (tag : BitVec 3) : Statement (.brickOverrun core tag) := by
  intro st y _ hf
  cases hf

theorem contextSuspended (ctx : Nat) : Statement (.contextSuspended ctx) := by
  intro st y _ hf
  cases hf

theorem create (ctx : Nat) : Statement (.create ctx) := by
  intro st y _ hf
  cases hf

theorem suspend (ctx : Nat) : Statement (.suspend ctx) := by
  intro st y _ hf
  cases hf

theorem resume (ctx : Nat) : Statement (.resume ctx) := by
  intro st y _ hf
  cases hf

theorem destroy (ctx : Nat) : Statement (.destroy ctx) := by
  intro st y _ hf
  cases hf

theorem launchObsub (ctx : Nat) : Statement (.launchObsub ctx) := by
  intro st y _ hf
  cases hf

theorem launchSeqstart (ctx : Nat) (n : BitVec 20) (stepped : Bool) : Statement (.launchSeqstart ctx n stepped) := by
  intro st y _ hf
  cases hf

theorem launchSeqstop (ctx : Nat) : Statement (.launchSeqstop ctx) := by
  intro st y _ hf
  cases hf

theorem launchSeqstep (ctx : Nat) : Statement (.launchSeqstep ctx) := by
  intro st y _ hf
  cases hf

theorem preemptionGo (ctx : Nat) : Statement (.preemptionGo ctx) := by
  intro st y _ hf
  cases hf

theorem hardPreemption (ctx : Nat) : Statement (.hardPreemption ctx) := by
  intro st y _ hf
  cases hf

theorem lookupAssign (k : Nat) (v : BitVec 32) : Statement (.lookupAssign k v) := by
  intro st y _ hf
  cases hf

theorem rowFetchIssue (k : Nat) : Statement (.rowFetchIssue k) := by
  intro st y _ hf
  cases hf

theorem rowArrival (k : Nat) (i : Nat) : Statement (.rowArrival k i) := by
  intro st y _ hf
  cases hf

theorem kbagReply (k : Nat) : Statement (.kbagReply k) := by
  intro st y _ hf
  cases hf

theorem capacityDirectoryWrite (t : Nat) (hi : Bool) (v : BitVec 64) : Statement (.capacityDirectoryWrite t hi v) := by
  intro st y _ hf
  cases hf

theorem queuePairWrite (q : Nat) (hi : Bool) (v : BitVec 64) : Statement (.queuePairWrite q hi v) := by
  intro st y _ hf
  cases hf

theorem weightCommit (cluster : Nat) : Statement (.weightCommit cluster) := by
  intro st y _ hf
  cases hf

theorem quotaGrant (ctx : Nat) (g : BitVec 64) : Statement (.quotaGrant ctx g) := by
  intro st y _ hf
  cases hf

theorem watchdogPet : Statement (.watchdogPet) := by
  intro st y _ hf
  cases hf

theorem fallbackForce : Statement (.fallbackForce) := by
  intro st y _ hf
  cases hf

theorem watchdogExpiry : Statement (.watchdogExpiry) := by
  intro st y _ hf
  cases hf

theorem registerWrite (pa : Nat) (wide : Bool) (v : BitVec 64) : Statement (.registerWrite pa wide v) := by
  intro st y _ hf
  cases hf

theorem checkpoint : Statement (.checkpoint) := by
  intro st y _ hf
  cases hf

theorem checkpointComplete : Statement (.checkpointComplete) := by
  intro st y _ hf
  cases hf

theorem restore : Statement (.restore) := by
  intro st y _ hf
  cases hf

theorem powerOnReset : Statement (.powerOnReset) := by
  intro st y _ hf
  cases hf

theorem moduleReset : Statement (.moduleReset) := by
  intro st y _ hf
  cases hf

theorem firmwareRecovery (image : List Byte) (sig : List Byte) : Statement (.firmwareRecovery image sig) := by
  intro st y _ hf
  cases hf

theorem attestationReport (nonce : BitVec 256) : Statement (.attestationReport nonce) := by
  intro st y _ hf
  cases hf

theorem hofLoad (ctx : Nat) (file : List Byte) : Statement (.hofLoad ctx file) := by
  intro st y _ hf
  cases hf

theorem spareTakeover (c : ClusterLoss) : Statement (.spareTakeover c) := by
  intro st y _ hf
  cases hf

theorem refillBoundary : Statement (.refillBoundary) := by
  intro st y _ hf
  cases hf

theorem clampEnd (cluster : Nat) : Statement (.clampEnd cluster) := by
  intro st y _ hf
  cases hf

theorem burstDeclarationExpiry (core : Nat) : Statement (.burstDeclarationExpiry core) := by
  intro st y _ hf
  cases hf

theorem thermalTrip : Statement (.thermalTrip) := by
  intro st y _ hf
  cases hf

theorem thermalTripEnd : Statement (.thermalTripEnd) := by
  intro st y _ hf
  cases hf

theorem signatureRotation : Statement (.signatureRotation) := by
  intro st y _ hf
  cases hf

theorem l1SectorExpiry (core : Nat) (vsec : Nat) : Statement (.l1SectorExpiry core vsec) := by
  intro st y _ hf
  cases hf

theorem signatureSlotExpiry (home : Nat) (key : Nat) : Statement (.signatureSlotExpiry home key) := by
  intro st y _ hf
  cases hf

theorem scrub (key : Nat) (corrected : Bool) : Statement (.scrub key corrected) := by
  intro st y _ hf
  cases hf

theorem flitRead (h : FlitHdr) (pa : Nat) (n : Nat) : Statement (.flitRead h pa n) := by
  intro st y _ hf
  cases hf

theorem flitWrite (h : FlitHdr) (pa : Nat) (data : WriteData) (sig : Option Sig) (poison : Bool) : Statement (.flitWrite h pa data sig poison) := by
  intro st y _ hf
  cases hf

theorem flitAtomic (h : FlitHdr) (pa : Nat) (n : BitVec 4) (op : AtomicOp) (b : BitVec 64) (e : BitVec 64) : Statement (.flitAtomic h pa n op b e) := by
  intro st y _ hf
  cases hf

theorem flitResponse (i : Nat) (data : List Byte) (sig : Option Sig) (st : BitVec 3) : Statement (.flitResponse i data sig st) := by
  intro st y _ hf
  cases hf

theorem postFlit (h : FlitHdr) (core : Nat) (ctr : Nat) (amount : BitVec 32) (sig : Sig) (mark : Option (BitVec 10)) : Statement (.postFlit h core ctr amount sig mark) := by
  intro st y _ hf
  cases hf

theorem haloFlit (h : FlitHdr) (pa : Nat) (va : BitVec 52) (off : BitVec 3) (fmt : BitVec 5) (n : Nat) (data : List Byte) (rgn : BitVec 10) (poison : Bool) : Statement (.haloFlit h pa va off fmt n data rgn poison) := by
  intro st y _ hf
  cases hf

theorem rendezvousFlit (h : FlitHdr) (seq : Nat) (step : BitVec 32) (answer : Bool) : Statement (.rendezvousFlit h seq step answer) := by
  intro st y _ hf
  cases hf

theorem timeFlit (port : Nat) (master : BitVec 64) : Statement (.timeFlit port master) := by
  intro st y _ hf
  cases hf

theorem linkControlFlit (port : Nat) (arg : BitVec 32) : Statement (.linkControlFlit port arg) := by
  intro st y _ hf
  cases hf

theorem flitReservedType (port : Nat) (type : BitVec 4) : Statement (.flitReservedType port type) := by
  intro st y _ hf
  cases hf

theorem flitReplay (port : Nat) (lseq : BitVec 14) : Statement (.flitReplay port lseq) := by
  intro st y _ hf
  cases hf

theorem laneSparing (port : Nat) (lane : Nat) : Statement (.laneSparing port lane) := by
  intro st y _ hf
  cases hf

theorem nodeUnreachable (node : Nat) : Statement (.nodeUnreachable node) := by
  intro st y _ hf
  cases hf

theorem timeOutOfBound : Statement (.timeOutOfBound) := by
  intro st y _ hf
  cases hf

theorem rdmaWrite (h : RoceHdr) (rkey : BitVec 32) (addr : BitVec 52) (data : List Byte) : Statement (.rdmaWrite h rkey addr data) := by
  intro st y _ hf
  cases hf

theorem rdmaWriteWithImmediate (h : RoceHdr) (rkey : BitVec 32) (addr : BitVec 52) (data : List Byte) (imm : BitVec 32) : Statement (.rdmaWriteWithImmediate h rkey addr data imm) := by
  intro st y _ hf
  cases hf

theorem rdmaRead (h : RoceHdr) (rkey : BitVec 32) (addr : BitVec 52) (n : Nat) : Statement (.rdmaRead h rkey addr n) := by
  intro st y _ hf
  cases hf

theorem send (h : RoceHdr) (data : List Byte) : Statement (.send h data) := by
  intro st y _ hf
  cases hf

theorem sendWithImmediate (h : RoceHdr) (data : List Byte) (imm : BitVec 32) : Statement (.sendWithImmediate h data imm) := by
  intro st y _ hf
  cases hf

theorem fetchAdd (h : RoceHdr) (rkey : BitVec 32) (addr : BitVec 52) (v : BitVec 64) : Statement (.fetchAdd h rkey addr v) := by
  intro st y _ hf
  cases hf

theorem compareSwap (h : RoceHdr) (rkey : BitVec 32) (addr : BitVec 52) (cmp : BitVec 64) (new : BitVec 64) : Statement (.compareSwap h rkey addr cmp new) := by
  intro st y _ hf
  cases hf

theorem invalidRequest (h : RoceHdr) : Statement (.invalidRequest h) := by
  intro st y _ hf
  cases hf

theorem roceAcknowledgement (q : Nat) : Statement (.roceAcknowledgement q) := by
  intro st y _ hf
  cases hf

theorem rdmaReadResponse (q : Nat) (data : List Byte) : Statement (.rdmaReadResponse q data) := by
  intro st y _ hf
  cases hf

theorem hardwareError (site : ErrorSite) : Statement (.hardwareError site) := by
  intro st y _ hf
  cases hf

theorem powerLoss : Statement (.powerLoss) := by
  intro st y _ hf
  cases hf

theorem firmwareUpdate (image : List Byte) (sig : List Byte) (keys : Option (List (Option (BitVec 768)))) : Statement (.firmwareUpdate image sig keys) := by
  intro st y _ hf
  cases hf

theorem requesterError (q : Nat) : Statement (.requesterError q) := by
  intro st y _ hf
  cases hf

theorem priorityFlowControl (port : Nat) (prio : Nat) (pause : Bool) : Statement (.priorityFlowControl port prio pause) := by
  intro st y _ hf
  cases hf

theorem congestionNotification (q : Nat) : Statement (.congestionNotification q) := by
  intro st y _ hf
  cases hf

theorem healthStoreFlush : Statement (.healthStoreFlush) := by
  intro st y _ hf
  cases hf

theorem ageingMonitor (cluster : Nat) (ppm : BitVec 16) (eol : BitVec 32) : Statement (.ageingMonitor cluster ppm eol) := by
  intro st y _ hf
  cases hf

end Sys2Proof.Laws.RoundTrip
end

