-- ==== Sys2Proof/Laws/Decode.lean ====
section
/-! SUPPORT. From a form's fields to the bytes of memory and back: the form a stream reads in the bytes of an encoding is the
encoding's own. -/

namespace Sys2Proof

/-! ## Little-endian bytes -/

theorem length_leBytes (n v : Nat) : (leBytes n v).length = n := by
  induction n generalizing v with
  | zero => rfl
  | succ n ih => simp [leBytes, ih]

theorem leNat_leBytes (n v : Nat) : leNat (leBytes n v) = v % 256 ^ n := by
  induction n generalizing v with
  | zero => simp [leBytes, leNat, Nat.mod_one]
  | succ n ih =>
    have h : (BitVec.ofNat 8 v).toNat = v % 256 := by simp
    rw [leBytes, leNat, ih, h, Nat.pow_succ, Nat.mul_comm (256 ^ n) 256, Nat.mod_mul]

theorem take_leBytes (k n v : Nat) (h : k ≤ n) : (leBytes n v).take k = leBytes k v := by
  induction k generalizing n v with
  | zero => rfl
  | succ k ih =>
    cases n with
    | zero => omega
    | succ n => simp [leBytes, ih n (v / 256) (by omega)]

/-! ## The word of a form -/

/-- Parcels of a form. -/
def Form.parcels : Form → Nat
  | .c16 _ => 1 | .c32 _ => 2 | .c48 _ => 3 | .v32 _ => 2 | .v48 _ => 3 | .p48 _ => 3 | .b48 _ => 3 | .hod _ => 32

/-- A form's word of up to three parcels, the parcels after it zero. -/
def Form.word48 : Form → BitVec 48
  | .c16 y => 0#32 ++ y.word | .c32 y => 0#16 ++ y.word | .c48 y => y.word | .v32 y => 0#16 ++ y.word
  | .v48 y => y.word | .p48 y => y.word | .b48 y => y.word | .hod _ => 0

/-- A form of a stream of parcels. -/
def Form.inParcels : Form → Bool
  | .hod _ => false
  | _ => true

theorem toNat_zero_append {n m : Nat} (x : BitVec m) : (0#n ++ x).toNat = x.toNat := by
  rw [BitVec.toNat_append]; simp

theorem Form.bytes_eq (y : Form) (h : y.inParcels = true) : y.bytes = leBytes (2 * y.parcels) y.word48.toNat := by
  cases y <;> first | rfl | (simp [Form.inParcels] at h; done) | simp only [Form.bytes, Form.parcels, Form.word48, toNat_zero_append]

theorem Form.word48_lt (y : Form) : y.word48.toNat < 256 ^ (2 * y.parcels) := by
  cases y with
  | c16 y => simp only [Form.word48, Form.parcels, toNat_zero_append]; exact y.word.isLt
  | c32 y => simp only [Form.word48, Form.parcels, toNat_zero_append]; exact y.word.isLt
  | v32 y => simp only [Form.word48, Form.parcels, toNat_zero_append]; exact y.word.isLt
  | c48 y => exact y.word.isLt
  | v48 y => exact y.word.isLt
  | p48 y => exact y.word.isLt
  | b48 y => exact y.word.isLt
  | hod y => exact Nat.pow_pos (by decide)

/-- The first parcel tells the length (R72). -/
theorem Form.parcels_word48 (y : Form) (h : y.inParcels = true) : Sys2Proof.parcels (fld y.word48 0 16) = y.parcels := by
  have two {w : BitVec 48} (e : fld w 14 2 = 2#2) : Sys2Proof.parcels (fld w 0 16) = 2 := by
    have : fld (fld w 0 16) 14 2 = 2#2 := by
      rw [← e]; apply BitVec.eq_of_getLsbD_eq; intro i hi; simp [hi]
    simp only [Sys2Proof.parcels, this]; decide
  have three {w : BitVec 48} (e : fld w 14 2 = 3#2) : Sys2Proof.parcels (fld w 0 16) = 3 := by
    have : fld (fld w 0 16) 14 2 = 3#2 := by
      rw [← e]; apply BitVec.eq_of_getLsbD_eq; intro i hi; simp [hi]
    simp only [Sys2Proof.parcels, this]; decide
  cases y with
  | c16 y =>
    have e : fld (Form.c16 y).word48 15 1 = 0#1 := by
      simp (disch := decide) only [Form.word48, F16.word, fld_cast, fld_append_hi, fld_append_lo, Nat.reduceSub, fld_all]
    have e2 : fld (fld (Form.c16 y).word48 0 16) 15 1 = 0#1 := by
      rw [← e]; apply BitVec.eq_of_getLsbD_eq; intro i hi; simp [hi]
    have e3 : (fld (fld (Form.c16 y).word48 0 16) 14 2).getLsbD 1 = false := by
      have := congrArg (fun v => v.getLsbD 0) e2
      simpa using this
    have n3 : fld (fld (Form.c16 y).word48 0 16) 14 2 ≠ 3#2 := fun c => by rw [c] at e3; exact absurd e3 (by decide)
    have n2 : fld (fld (Form.c16 y).word48 0 16) 14 2 ≠ 2#2 := fun c => by rw [c] at e3; exact absurd e3 (by decide)
    simp only [Sys2Proof.parcels, if_neg n3, if_neg n2]; rfl
  | c32 y =>
    exact two (by simp (disch := decide) only [Form.word48, F32.word, fld_cast, fld_append_hi, fld_append_lo, Nat.reduceSub, fld_all])
  | v32 y =>
    exact two (by simp (disch := decide) only [Form.word48, V32.word, fld_cast, fld_append_hi, fld_append_lo, Nat.reduceSub, fld_all])
  | c48 y =>
    exact three (by simp (disch := decide) only [Form.word48, F48.word, fld_cast, fld_append_hi, fld_append_lo, Nat.reduceSub, fld_all])
  | v48 y =>
    exact three (by simp (disch := decide) only [Form.word48, V48.word, fld_cast, fld_append_hi, fld_append_lo, Nat.reduceSub, fld_all])
  | p48 y =>
    exact three (by simp (disch := decide) only [Form.word48, P48.word, fld_cast, fld_append_hi, fld_append_lo, Nat.reduceSub, fld_all])
  | b48 y =>
    exact three (by simp (disch := decide) only [Form.word48, B48.word, fld_cast, fld_append_hi, fld_append_lo, Nat.reduceSub, fld_all])
  | hod y => cases h

theorem raw_of_decode {st : Stream} {y : Form} {i : Instr} (h : y.decode st = some i) : y.raw st = some i :=
  (Option.filter_eq_some_iff.1 h).1

/-- The form a stream reads in a form's word is that form, where the stream has it. -/
theorem formOf_word48 {st : Stream} {y : Form} {i : Instr} (hp : y.inParcels = true) (h : y.raw st = some i) :
    formOf st y.parcels y.word48 = some y := by
  cases y with
  | hod y => cases hp
  | c16 y =>
    have e : fld (Form.c16 y).word48 0 16 = y.word := by
      simp (disch := decide) only [Form.word48, fld_append_lo, fld_all]
    cases st <;> first | (cases h; done) | simp [formOf, Form.parcels, e, F16.of_word]
  | c32 y =>
    have e : fld (Form.c32 y).word48 0 32 = y.word := by
      simp (disch := decide) only [Form.word48, fld_append_lo, fld_all]
    cases st <;> first | (cases h; done) | simp [formOf, Form.parcels, e, F32.of_word]
  | v32 y =>
    have e : fld (Form.v32 y).word48 0 32 = y.word := by
      simp (disch := decide) only [Form.word48, fld_append_lo, fld_all]
    cases st <;> first | (cases h; done) | simp [formOf, Form.parcels, e, V32.of_word]
  | c48 y => cases st <;> first | (cases h; done) | simp [formOf, Form.parcels, Form.word48, F48.of_word]
  | b48 y =>
    have e : fld (Form.b48 y).word48 8 6 = 0x3E#6 := by
      simp (disch := decide) only [Form.word48, B48.word, fld_cast, fld_append_hi, fld_append_lo, Nat.reduceSub, fld_all]
    cases st <;> first | (cases h; done) | (simp [formOf, Form.parcels, Form.word48] at e ⊢; simp [e, B48.of_word])
  | v48 y =>
    have e : fld (Form.v48 y).word48 8 6 = y.maj := by
      simp (disch := decide) only [Form.word48, V48.word, fld_cast, fld_append_hi, fld_append_lo, Nat.reduceSub, fld_all]
    have n : y.maj ≠ 0x3E#6 := by
      intro c
      obtain ⟨imm, m, vb, va, vd, maj, tk, stg, fl⟩ := y
      subst c
      cases st <;> cases h
    cases st <;> first | (cases h; done) | (simp [formOf, Form.parcels, Form.word48] at e ⊢; simp [e, n, V48.of_word])
  | p48 y =>
    have e : fld (Form.p48 y).word48 8 6 = y.maj := by
      simp (disch := decide) only [Form.word48, P48.word, fld_cast, fld_append_hi, fld_append_lo, Nat.reduceSub, fld_all]
    have n : y.maj ≠ 0x3E#6 := by
      intro c
      obtain ⟨imm, aux, hc, hb, ha, slot, maj, tk, stg, fl⟩ := y
      subst c
      cases st <;> cases h
    cases st <;> first | (cases h; done) | (simp [formOf, Form.parcels, Form.word48] at e ⊢; simp [e, n, P48.of_word])

/-- A form that decodes to an instruction does so from its word. -/
theorem decodeWord_word48 {st : Stream} {y : Form} {i : Instr} (hp : y.inParcels = true) (h : y.decode st = some i) :
    decodeWord st y.word48 = some i := by
  unfold decodeWord
  rw [Form.parcels_word48 y hp, formOf_word48 hp (raw_of_decode h)]
  exact h

/-- A form that decodes to an instruction does so from its bytes, and leaves what follows them. -/
theorem decode_bytes {st : Stream} {y : Form} {i : Instr} (hp : y.inParcels = true) (h : y.decode st = some i)
    (rest : List Byte) : decode st (y.bytes ++ rest) = .ok (i, rest) := by
  have hlen : y.bytes.length = 2 * y.parcels := by rw [Form.bytes_eq y hp, length_leBytes]
  have hpos : 1 ≤ y.parcels := by cases y <;> simp [Form.parcels]
  have h2 : (y.bytes ++ rest).take 2 = leBytes 2 y.word48.toNat := by
    rw [List.take_append_of_le_length (by omega), Form.bytes_eq y hp, take_leBytes 2 _ _ (by omega)]
  have hq : BitVec.ofNat 16 (leNat (leBytes 2 y.word48.toNat)) = fld y.word48 0 16 := by
    apply BitVec.eq_of_toNat_eq
    rw [leNat_leBytes]; simp [BitVec.extractLsb'_toNat]
  have ht : (y.bytes ++ rest).take (2 * y.parcels) = leBytes (2 * y.parcels) y.word48.toNat := by
    rw [List.take_append_of_le_length (by omega), Form.bytes_eq y hp, take_leBytes _ _ _ (Nat.le_refl _)]
  have hw : BitVec.ofNat 48 (leNat (leBytes (2 * y.parcels) y.word48.toNat)) = y.word48 := by
    rw [leNat_leBytes, Nat.mod_eq_of_lt y.word48_lt]; simp
  have hd : (y.bytes ++ rest).drop (2 * y.parcels) = rest := by
    rw [← hlen]; simp
  have hl : ¬ (y.bytes ++ rest).length < 2 * y.parcels := by simp [hlen]
  have hl2 : ¬ (y.bytes ++ rest).length < 2 := by simp [hlen]; omega
  simp only [decode, h2, hq, Form.parcels_word48 y hp, ht, hw, hd, hl, hl2, if_false, decodeWord_word48 hp h]

/-- A hod entry's word decodes as its form does. -/
theorem decodeHod_word {y : HEntry} {i : Instr} (h : (Form.hod y).decode .cc = some i) : decodeHod y.word = some i := by
  unfold decodeHod
  rw [HEntry.of_word]
  exact h

end Sys2Proof
end

