-- ==== Sys2Proof/Tests/Slice0.lean ====
section
/-! SUPPORT. Tests: words of the spec through the decoder, an ill-formed term for each check of well-formedness, worked
examples of spec/, and for every statement with hypotheses a state and operands that meet them, clause by clause. -/

namespace Sys2Proof.Tests

open Sys2Proof Sys2Proof.Machine

-- One theorem after the other: each kernel evaluation would otherwise hold a thread of its own.
set_option Elab.async false

/-! ## Small states -/

/-- The guard that always holds. -/
def g0 : Guard := ⟨0, false⟩

/-- A leaf entry that maps 2^40 bytes at module address 0 with all rights. -/
def leaf40 : Word := 0xF800000000000000

/-- Contexts 0 and 1 are ACTIVE on clusters 0-3. Their tables, at 0x100000, map 2^40 bytes each of module memory, MMIO, module
3, queue pair 5 (RTS, context 0), and module memory that is read-only. -/
def two : State :=
  let d (a : BitVec 16) : Desc17 :=
    { Desc17.reset with part := 0xF, ptroot := 0x10, asid := a, lstb := 1, lstq := 16, share := 3, st := .active }
  let s := (State.reset.modCtx 0 fun c => { c with d := d 5 }).modCtx 1 fun c => { c with d := { d 6 with seqv := true, seq := 2 } }
  let put (m : Memory) (k : Nat) (e : Word) : Memory := m.write (0x100000 + 8 * k) 8 e.toNat
  let m := put (put (put (put (put s.mem 0 leaf40) 1 0xFA00000030000000) 2 0xF980600000000000) 3 0xF900A00000000000) 4 0xE000000000000000
  { s with mem := m, links := { s.links with qps := [(5, 0x300)] } }

/-- Core p runs context 0 with the register values that f leaves, and its instruction runs. -/
def onCC (p : Nat) (f : CCRegs → CCRegs) : State :=
  ({ two with actor := .cc p }.modProc p fun v => { v with run := .running 0 }).modCC p f

/-- s[d] holds n. -/
def regs (l : List (BitVec 5 × Nat)) (r : CCRegs) : CCRegs := l.foldl (fun r e => r.writeS e.1 (BitVec.ofNat 64 e.2)) r

/-- An access ends well and what it gives holds. -/
def meets (s : State) (m : M Bool) : Bool :=
  match m s with
  | .ok b _ => b
  | .error _ _ => false

/-- An access ends in a fault. -/
def refuses (s : State) (m : M Place) : Bool :=
  match m s with
  | .error (.fault _ _ _ _) _ => true
  | _ => false

/-- What a next state holds. -/
def next (o : Out) (f : State → Bool) : Bool :=
  match o with
  | .next t => f t
  | _ => false

theorem runs_onCC (p : Nat) (f : CCRegs → CCRegs) (gd : Guard) (h : ((onCC p f).cc p).guard gd = true) :
    Runs (onCC p f) p gd := ⟨rfl, h⟩

/-! ## Statements about the registers and register instructions of a core -/

theorem test_hyp_PredicateInstructions :
    ((1 : BitVec 5) ≠ 0 ∧ (31 : BitVec 5) ≠ 0 ∧ (1 : BitVec 3) ≠ 0 ∧ (7 : BitVec 3) ≠ 0) ∧ Runs (onCC 0 id) 0 g0 ∧
    Runs (onCC 271 id) 271 g0 ∧ predTable g0 true 7 1 2 3 4 63 8 ≠ [] :=
  ⟨by decide, runs_onCC _ _ _ (by decide +kernel), runs_onCC _ _ _ (by decide +kernel), by decide⟩

theorem test_hyp_RegInstructions :
    Runs (onCC 0 id) 0 g0 ∧ Runs (onCC 0 fun r => r.writeP 7 true) 0 ⟨7, false⟩ ∧ Runs (onCC 255 id) 255 ⟨1, true⟩ ∧
    unTable ⟨g0, true, 3, 4⟩ ≠ [] ∧ regTable ⟨g0, false, 0, 1, 2⟩ ≠ [] :=
  ⟨runs_onCC _ _ _ (by decide +kernel), runs_onCC _ _ _ (by decide +kernel), runs_onCC _ _ _ (by decide +kernel),
   by simp [unTable], by simp [regTable]⟩

theorem test_hyp_ScalarInstructions :
    ((scalarTable g0 1 2 3 31 ⟨g0, 4, 5, 1023⟩ 15 0x7FFFFFF 15 14 63 0).all fun e => ((onCC 0 id).cc 0).guard e.2.1) = true ∧
    (onCC 0 id).actor = .cc 0 := by decide +kernel

theorem test_hyp_TransfersOfControl :
    Runs (onCC 0 id) 0 always ∧
    ((branchTable g0 7 16 512 0x8000 0x80000000 true).all fun e => ((onCC 0 id).cc 0).guard e.2.1) = true ∧
    ((jumpTable g0 1).all fun e => ((onCC 0 id).cc 0).guard e.2.1 &&
      !(((onCC 0 (regs [(1, 0x2000), (31, 0x4000)])).cc 0).readS e.2.2.1).getLsbD 0) = true ∧
    ((jumpTable g0 1).all fun e => (((onCC 0 (regs [(1, 0x2001), (31, 0x4001)])).cc 0).readS e.2.2.1).getLsbD 0) = true :=
  ⟨runs_onCC _ _ _ (by decide +kernel), by decide +kernel, by decide +kernel, by decide +kernel⟩

/-- Sums past the bound of a handle's subview fault; the others give a handle. -/
theorem test_hyp_HandleInstructions :
    (let r := (regs [(5, 1)] CCRegs.reset).writeH 2 (H.make 0x1000 4 4 0 false)
     let t := handleTable g0 1 2 5 20 4 15 14 true 3
     t.any (fun e => match e.2 r with | .ok _ => true | .error _ => false) &&
     ((handleTable g0 1 2 5 20 4 15 14 true 3).any fun e => match e.2 ((regs [(5, 2 ^ 63)] r)) with
       | .ok _ => false | .error _ => true)) = true ∧
    (14 ≤ 14 ∧ 4 ≤ 7 ∧ (65536 : Word).toNat % 2 ^ 16 = 0 ∧ 8 ≤ 10) ∧ Runs (onCC 0 id) 0 g0 :=
  ⟨by decide +kernel, by decide, runs_onCC _ _ _ (by decide +kernel)⟩

theorem test_hyp_FalseGuardDoesNothing :
    guardOf (.add ⟨⟨0, true⟩, false, 1, 2, 3⟩) = some (⟨0, true⟩, 4) ∧
    (Instr.add ⟨⟨0, true⟩, false, 1, 2, 3⟩).inStream (codeStream 0) = true ∧
    (Instr.add ⟨⟨0, true⟩, false, 1, 2, 3⟩).inStream (codeStream 256) = true ∧
    (onCC 0 fun r => { r with sys := true }).actor = .cc 0 ∧ ((onCC 0 fun r => { r with sys := true }).cc 0).sys = true ∧
    ((onCC 0 fun r => { r with sys := true }).cc 0).guard ⟨0, true⟩ = false := by decide +kernel

theorem test_hyp_CsrInstructions :
    Runs (onCC 0 id) 0 g0 ∧ ((onCC 0 id).cc 0).sys = false ∧ ((onCC 0 fun r => { r with sys := true }).cc 0).sys = true ∧
    csrTable g0 1 2 0 ≠ [] ∧
    (csrDefined 0 ∧ csrDefined 5 ∧ csrDefined 0x97 ∧ lkCsr 0 = true ∧ csrDefined 6 = false ∧ csrDefined 0xFFF = false ∧
     csrDefined 0x80 = true ∧ lkCsr 0x80 = false ∧ ¬ (256 : Nat) < 256) :=
  ⟨runs_onCC _ _ _ (by decide +kernel), by decide +kernel, by decide +kernel, by simp [csrTable], by decide +kernel⟩

theorem test_hyp_TrapEntryAndReturn :
    (let s := onCC 255 fun r => { r with tvec := 0x1000 }
     s.actor = .cc 255 ∧ (s.cc 255).intrap = false ∧ fld (s.cc 255).tvec 12 52 ≠ 0 ∧ (s.proc 255).t0 = none ∧
     (s.cc 255).guard g0 = true ∧ (s.cc 255).sys = false) ∧
    ((Cause.illop.traps && Cause.trapi.traps && Cause.align.traps && Cause.eccu.traps) = true) ∧
    (let s (e : Word) := onCC 0 fun r => { r with sys := true, epc := e }
     ((s 3).cc 0).sys = true ∧ ((s 3).cc 0).epc.getLsbD 0 = true ∧ ((s 2).cc 0).epc.getLsbD 0 = false) := by decide +kernel

/-! ## Statements about memory -/

theorem test_hyp_WindowsAndLocalAccesses :
    (let d := (two.ctx 0).d
     let lo := d.lstb.toNat * 2 ^ 20
     let hi := (d.lstb.toNat + d.lstq.toNat) * 2 ^ 20
     -- LST: first and last byte inside, last before, first after
     (lo ≤ lo ∧ lo + 1 ≤ hi ∧ hi - 1 + 1 ≤ hi ∧ hi ≤ 0x180000000 ∧ ¬ lo ≤ lo - 1 ∧ ¬ hi + 1 ≤ hi)) ∧
    -- SH and SP, own and numbered: the last cluster and core of the partition, and the first past it
    (two.inPart 0 3 = true ∧ two.inPart 0 4 = false ∧ two.inPart 0 (15 / 4) = true ∧ two.inPart 0 (16 / 4) = false ∧
     two.inPart 0 63 = false ∧ 2 ^ 22 - 1 + 1 ≤ 2 ^ 22 ∧ 0xBFFFF + 1 ≤ 0xC0000 ∧ ¬ 0xC0000 + 1 ≤ 0xC0000) ∧
    -- addresses of no window
    (let va := 0xFF00180000000
     0xF000000000000 ≤ va ∧ ¬ va < 0xFF00000000000 + 0x180000000 ∧ ¬ 0xFF80000000000 ≤ va) ∧
    -- places: a window, a cached leaf, an L1 hit, a poisoned sector
    (let pl : Place := { kind := .hbm, peer := 0, key := 0x3000, cache := true, va := 0x3000 }
     let w : Place := { kind := .window, peer := 0, key := 0xFF80000000000, cache := false, va := 0xFF80000000000 }
     let l : L1Sector := ⟨7, 0, 0, .hbm, 0, 0x3000, false⟩
     let s := two.modCoh 0 fun c => { c with l1 := [(5 * 2 ^ 45 + 0x60, some l)] }
     pl.isLocal = true ∧ w.isLocal = true ∧ w.cache = false ∧ pl.kind ≠ .window ∧ pl.cache = true ∧
     s.mem.poisoned pl.key 8 = false ∧ (s.mem.setPoison 0x60 true).poisoned pl.key 8 = true ∧
     l1Hit s 0 ((⟨0, none, 0, 0⟩ : Who).asid s) pl.va = some l) := by decide +kernel

/-- What a walk gives. -/
def gives (r : Except Cause (Nat × Word)) (sz : Nat) (e : Word) : Bool :=
  match r with
  | .ok x => x.1 == sz && x.2 == e
  | .error _ => false

/-- The cause a walk ends in. -/
def fails (r : Except Cause (Nat × Word)) (c : Cause) : Bool :=
  match r with
  | .ok _ => false
  | .error x => decide (x = c)

theorem test_hyp_PageTables :
    (let m := ((Memory.reset.write 0x100000 8 0x8000000000000011).write 0x110000 8 0x8000000000000012).write 0x120000 8
       0xF800000000000020
     let e2 : Word := BitVec.ofNat 64 (m.read 0x100000 8)
     let e1 : Word := BitVec.ofNat 64 (m.read 0x110000 8)
     let e0 : Word := BitVec.ofNat 64 (m.read 0x120000 8)
     -- three levels down to a leaf of 64 KB, and the entry beside each, which is invalid
     inHbm (0x10 * 2 ^ 16) = true ∧ m.poisoned 0x100000 8 = false ∧ pteV e2 = true ∧ pteLeaf e2 = false ∧ ptePointerOk e2 = true ∧
     pteFrame e2 = 0x11 ∧ pteV e1 = true ∧ pteLeaf e1 = false ∧ ptePointerOk e1 = true ∧ pteFrame e1 = 0x12 ∧
     pteV e0 = true ∧ pteLeaf e0 = true ∧ pteLeafOk e0 16 0 = true ∧ pteV (BitVec.ofNat 64 (m.read 0x100008 8)) = false ∧
     -- leaves at the two upper levels, a pointer at the lowest
     pteLeafOk leaf40 40 (Config.hbmBytes - 1) = true ∧ pteLeafOk 0xF800000000001000 28 0 = true ∧ pteV 0x8000000000000000 = true ∧
     pteLeaf 0x8000000000000000 = false) ∧
    -- walks that end in a leaf, in XLATE, and in ECCU, with no cached leaf
    two.mem.trans = [] ∧ gives (walk two.mem 0 3 0x10) 40 leaf40 = true ∧ fails (walk two.mem (2 ^ 51) 3 0x10) .xlate = true ∧
    fails (walk (two.mem.setPoison 0x2000 true) 0 3 0x10) .eccu = true ∧ pteAllows leaf40 .atomic = true ∧ pteKind leaf40 ≠ 2 ∧
    pteAllows 0xE000000000000000 .write = false ∧ gives (walk two.mem (4 * 2 ^ 40) 3 0x10) 40 0xE000000000000000 = true ∧
    0xEFFFFFFFFFFFF < 0xF000000000000 := by decide +kernel

/-- Registers for the accesses below: s1 an address, s2 a value. -/
def atAddr (va : Nat) : State := onCC 0 (regs [(1, va), (2, 5)])

/-- Core 0 as it accesses. -/
def who0 : Who := coreWho (atAddr 0) 0

theorem test_hyp_LoadsAndStores :
    Runs (atAddr 0x2000) 0 g0 ∧
    -- a load and a store of module memory at 1, 8 and 32 bytes, at the last address of HBM too
    ([0x2000, Config.hbmBytes - 32].all fun va => [1, 8, 32].all fun n => decide (va % n = 0) &&
      meets (atAddr va) (do let pl ← resolve who0 va n .read; let _ ← load who0 pl n false; return pl.kind == .hbm) &&
      meets (atAddr va) (do let pl ← resolve who0 va n .write; store who0 pl n 5; return pl.kind != .mmio)) = true ∧
    meets (atAddr 0x2000) (do let pl ← resolve who0 0x2000 8 .read; let _ ← loadAny who0 pl 8 0 0; return true) = true ∧
    -- MMIO: a store of 4 and 8 bytes, after which the core runs on, and a place that is refused to the others
    ([4, 8].all fun n => meets (atAddr (2 ^ 40)) (do
      let pl ← resolve who0 (2 ^ 40) n .write
      let s ← get
      return pl.kind == .mmio && (mmioStore s pl.key n 0 |>.proc 0).ctxOf == (s.proc 0).ctxOf)) = true ∧
    -- faults: alignment, translation, right, window
    (0x2001 % 2 ≠ 0 ∧ refuses two (resolve who0 (2 ^ 51) 8 .read) = true ∧ refuses two (resolve who0 (4 * 2 ^ 40) 8 .write) = true ∧
     refuses two (resolve who0 0xF000000000000 8 .read) = true) ∧
    -- PERM: MMIO at 32 and 2 bytes, a host page
    meets two (do let pl ← resolve who0 (2 ^ 40) 2 .read; return pl.kind == .mmio) = true ∧
    meets two (do let pl ← resolve who0 (3 * 2 ^ 40) 4 .atomic; return pl.kind == .host) = true :=
  ⟨runs_onCC _ _ _ (by decide +kernel), by decide +kernel, by decide +kernel, by decide +kernel, by decide +kernel,
   by decide +kernel, by decide +kernel⟩

theorem test_hyp_Atomics :
    Runs (atAddr 0x2000) 0 g0 ∧
    ([(4, 0), (8, 9), (4, 10), (8, 9)].all fun e => meets (atAddr 0x2000) (do
      let pl ← resolve who0 0x2000 e.1 .atomic
      let _ ← atomically who0 pl e.1 (amoOp e.2 (8 * e.1) 5 0) (BitVec.ofNat 4 e.2) 5 0
      return decide (0x2000 % e.1 = 0) && pl.kind != .mmio && pl.kind != .host)) = true :=
  ⟨runs_onCC _ _ _ (by decide +kernel), by decide +kernel⟩

/-- A write to module 3 that core 0 awaits. -/
def waitsFor3 : Remote := ⟨0, 0, none, false, 3, 2, 1, 0, 0, 0, 8, none, 0, 0, none, none⟩

/-- A write in class 2 at 0 bars an access of its class elsewhere, and one of another class to its bytes; not others. -/
theorem test_hyp_InOrder :
    let s := (atAddr 0).modFl fun f => { f with remotes := [waitsFor3] }
    InOrder (atAddr 0) who0 2 0x2000 8 ∧ InOrder s who0 1 0x2000 8 ∧ ¬ InOrder s who0 2 0x2000 8 ∧ ¬ InOrder s who0 1 7 8 := by
  unfold InOrder
  decide +kernel

theorem test_hyp_OrderingAndWaits :
    Runs (atAddr 0x2000) 0 g0 ∧
    -- a release at .mod and one at .core, and an acquire of each scope, at the home
    ([0, 1, 2, 3, 4].all fun sc => meets (atAddr 0x2000) (do
      let pl ← resolve who0 0x2000 4 .write
      let s ← get
      let g := if sc = 0 then none else some (s.proc 0).coh.ws
      let ok := released s 0 (BitVec.ofNat 3 sc)
      store who0 pl 4 5 ⟨0, BitVec.ofNat 3 sc, 0, g⟩
      doS fun s => l1Drop s 0 (who0.asid s) pl.va
      attach pl g
      return ok && pl.kind != .mmio)) = true ∧
    ([0, 1, 4].all fun sc => meets (atAddr 0x2000) (do
      let pl ← resolve who0 0x2000 4 .read
      let _ ← load who0 pl.bare 4 true
      doS fun s => l1Drop s 0 (who0.asid s) pl.va
      let g ← answerSig who0 pl.bare
      acquire who0 (BitVec.ofNat 3 sc) pl g
      return pl.kind != .mmio)) = true ∧
    -- a fence that waits and one that does not
    ((two.modFl fun f => { f with remotes := [waitsFor3] }).fl.remotes.any
      fun r => r.core == 0 && r.eng.isNone && (0x4 : BitVec 16).getLsbD r.cls.toNat) = true ∧
    (two.fl.remotes.any fun r => r.core == 0) = false ∧
    -- WAITADDR: the word is 0, so EQ 0 holds and EQ 5 does not; a limit that has run out at its last instant, one that has
    -- not, and none
    meets (atAddr 0x2000) (do
      let pl ← resolve who0 0x2000 4 .read
      let t0 ← beginWait 0 none
      let x ← load who0 pl.bare 4 true
      return x == 0 && x != 5 && t0 == 0 && pl.kind == .hbm) = true ∧
    (let s (l : Word) := (onCC 0 fun r => { r with limit := l }).modMod fun m => { m with gts := 100 }
     limitOver (s 100) 0 0 = true ∧ limitOver (s 101) 0 0 = false ∧ limitOver (s 0) 0 0 = false ∧
     (let o : MemOp := ⟨g0, 2, 1, 0, 0, 0, 0⟩
      meets (s 100) (do let t0 ← beginWait 0 none (some o); return t0 == 100) = true ∧
      (((s 100).modProc 0 fun v => { v with t0 := some ⟨0, none, some o⟩ }).proc 0).t0 = some ⟨0, none, some o⟩ ∧
      (((s 100).modProc 271 fun v => { v with t0 := some ⟨0, none, some o⟩ }).proc 271).t0 = some ⟨0, none, some o⟩ ∧ 271 < 272)) :=
  ⟨runs_onCC _ _ _ (by decide +kernel), by decide +kernel, by decide +kernel, by decide +kernel, by decide +kernel,
   by decide +kernel, by decide +kernel⟩

/-! ## Statements about counters between units -/

theorem test_hyp_Semaphores :
    Runs (onCC 255 (regs [(1, 7)])) 255 g0 ∧ (1 : BitVec 6) ≠ 0 ∧ (63 : BitVec 6) ≠ 0 ∧
    (let s := onCC 255 (regs [(1, 7)])
     let w (g : Bool) (n : Nat) : State := s.modProc 255 fun v => { v with semq := [⟨n, none, 7, g⟩] }
     let e : State := s.modProc 255 fun v => { v with semq := [⟨1, some (255, .ve), 1, false⟩] }
     let has (n : BitVec 17) : State := s.modSync 255 fun y => { y with sem := [(1, n)] }
     -- no acknowledgement outstanding, or one; no waiter, an engine that waits, the core waiting or granted
     (s.proc 255).coh.acks = [] ∧ ((s.modCoh 255 fun c => { c with acks := [3] }).proc 255).coh.acks ≠ [] ∧
     (s.proc 255).semq = [] ∧ ((e.proc 255).semq.any fun w => w.sem == 1 && !w.granted) = true ∧
     ((e.proc 255).semq.find? fun w => w.who == none) = none ∧
     ((w true 1).proc 255).semq.find? (fun w => w.who == none) = some ⟨1, none, 7, true⟩ ∧
     ((w false 1).proc 255).semq.find? (fun w => w.who == none) = some ⟨1, none, 7, false⟩ ∧
     -- the amount 7 and words of 7 and 6; the amount 0 is s0's
     7 ≤ ((has 7).sync 255).semVal 1 ∧ ((has 6).sync 255).semVal 1 < 7 ∧ ((s.cc 255).readS 0).toNat % 65536 = 0 ∧
     ((s.cc 255).readS 1).toNat % 65536 ≠ 0) :=
  ⟨runs_onCC _ _ _ (by decide +kernel), by decide, by decide, by decide +kernel⟩

/-- A service of two waiters of which the value pays one. -/
theorem test_semServe :
    (semServe 1 { Sync.reset with sem := [(1, 5)] } [⟨1, none, 4, false⟩, ⟨2, some (0, .px), 1, false⟩, ⟨1, some (0, .ve), 2, false⟩]).2.map
      (·.granted) = [true, false, false] ∧
    ((semServe 1 { Sync.reset with sem := [(1, 5)] } [⟨1, none, 4, false⟩]).1.semVal 1 = 1) := by decide +kernel

theorem test_hyp_MarkersDrainAndExit :
    Runs (onCC 0 id) 0 g0 ∧ Runs (onCC 256 id) 256 g0 ∧
    (let s := onCC 0 id
     let full : State := s.modQ 0 fun k => { k with veq := List.replicate 64 (.marker 0) }
     -- MARK: 63 and 64 commands; MARK.WAIT: the count 2^31 - 1 past the operand, and 2^31
     ((s.modQ 0 fun k => { k with veq := List.replicate 63 (.marker 0) }).proc 0).q.veq.length < 64 ∧
     64 ≤ (full.proc 0).q.veq.length ∧ ((0x7FFFFFFF : BitVec 32) - 0).toNat < 2 ^ 31 ∧ 2 ^ 31 ≤ ((0 : BitVec 32) - 0x80000000).toNat ∧
     -- DRAIN of every engine: idle, and not
     (engines.all fun e => engineDrained s 0 e) = true ∧ engineDrained full 0 .ve = false ∧ (s.proc 0).coh.acks = [] ∧
     s.fl.remotes = [] ∧ (s.proc 0).liveBricks = [] ∧ (15 : BitVec 4) ≠ 0 ∧ (s.proc 0).ctxOf = some 0 ∧
     -- a core that is to end, with its queues empty and not
     (let leaving (u : State) : State := u.modProc 0 fun v => { v with run := .exiting 0 }
      ((leaving s).proc 0).run = .exiting 0 ∧ drained (leaving s) 0 = true ∧ drained (leaving full) 0 = false)) ∧
    -- EXIT of a lookup core: clear, or with a row on its way
    ((two.lookup 0).cur = none ∧ (two.lookup 0).aq = [] ∧ (two.lookup 0).dq = [] ∧ (two.lookup 0).kbags = [] ∧
     ((two.modLookup 0 fun l => { l with aq := [⟨0, 0, [], 0, 0, false, 0, none⟩] }).lookup 0).aq ≠ []) :=
  ⟨runs_onCC _ _ _ (by decide +kernel), runs_onCC _ _ _ (by decide +kernel), by decide +kernel, by decide +kernel⟩

theorem test_hyp_SlotCounters :
    Runs (onCC 0 id) 0 g0 ∧
    (let s := (onCC 0 id).modCtx 0 fun c => { c with member := 2 ^ 767 }
     let acked : State := s.modCoh 0 fun c => { c with acks := [3] }
     -- SCP: own module, in and outside the partition, before and after its release
     Nat.testBit 15 18 = false ∧ s.inPart 0 (15 / 4) = true ∧ s.inPart 0 (16 / 4) = false ∧ released s 0 0 = true ∧
     released s 0 4 = true ∧ (released acked 0 2 = false ∨ released acked 0 4 = false) ∧
     -- another module: the last node, not in the group, past the last
     Nat.testBit (2 ^ 18 + 767 * 256 + 15) 18 = true ∧ (2 ^ 18 + 767 * 256 + 15) / 256 % 1024 = 767 ∧
     (s.ctx 0).member.getLsbD 767 = true ∧ (s.ctx 0).member.getLsbD 766 = false ∧ (767 : Nat) < 768 ∧
     (2 : BitVec 3).toNat < 3 ∧ 3 ≤ (3 : BitVec 3).toNat) ∧
    -- a post with older ones before it: from another source, and to another core
    (let q (c d : Nat) : Post := ⟨.core c, d, 0, 5, 5, 1⟩
     let s := two.modFl fun f => { f with posts := [q 1 3, q 0 4, q 0 3] }
     s.fl.posts[2]? = some (q 0 3) ∧ s.fl.posts[0]? = some (q 1 3) ∧ s.fl.posts[1]? = some (q 0 4) ∧
     (q 1 3).src ≠ (q 0 3).src ∧ (q 0 4).core ≠ (q 0 3).core) ∧
    -- SCW: reached, over, and neither; SCW.TIMEOUT
    (let s (l : Word) := (onCC 0 fun r => { r with limit := l }).modMod fun m => { m with gts := 100 }
     meets (s 100) (do let t0 ← beginWait 0 (some (3, 255)); return t0 == 100) = true ∧ ((0x7FFFFFFF : BitVec 32) - 0).toNat < 2 ^ 31 ∧
     2 ^ 31 ≤ ((0 : BitVec 32) - 1).toNat ∧
     (let t := (s 100).modProc 0 fun v => { v with t0 := some ⟨0, some (3, 255), none⟩ }
      (t.proc 0).t0 = some ⟨0, some (3, 255), none⟩ ∧ limitOver t 0 0 = true ∧
      meets t (do let t0 ← beginWait 0 (some (3, 255)); return t0 == 0) = true) ∧
     limitOver (s 101) 0 0 = false) ∧
    -- SEMRD and SEMSET: the last number of each kind and the first past it
    (63 < 64 ∧ 255 < 256 ∧ 3 < 4 ∧ 7 < 8 ∧ 64 ≤ 64 ∧ 4 ≤ 4 ∧ 8 ≤ 8 ∧ 2 ≤ (2 : BitVec 2).toNat ∧ two.sync 0 = Sync.reset ∧
     (two.proc 0).semq = []) :=
  ⟨runs_onCC _ _ _ (by decide +kernel), by decide +kernel, by decide +kernel, by decide +kernel, by decide +kernel⟩

theorem test_hyp_Rendezvous :
    Runs (onCC 0 id) 0 g0 ∧ (256 ≤ 256 ∧ 256 < 257) ∧
    (let s := (onCC 0 (regs [(1, 3)])).modProc 3 fun v => { v with run := .running 0 }
     let rd (exp : BitVec 9) : State := s.modSync 3 fun y => { y with rdv := [(7, ⟨2, 0, exp, 0⟩)] }
     let arr (g : Option Sig) : State := s.modSync 0 fun y => { y with arrival := some ⟨3, 7, 2, g⟩ }
     let out (exp : BitVec 9) : State :=
       let t := (rd exp).modSync 0 fun y => { y with arrival := some ⟨3, 7, 2, none⟩ }
       rdvSettle (t.modSync 3 fun y => { y with rdv := [(7, ⟨2, 1, exp, 0⟩)] }) 0 3 7
     -- EXP given late: one core has arrived and one is expected
     (1 : BitVec 9) ≠ 0 ∧ (1 : BitVec 9).toNat ≤ (1 : BitVec 9).toNat ∧
     ((arr (some 5)).sync 0).arrival = some ⟨3, 7, 2, some 5⟩ ∧ ((arr none).sync 0).arrival = some ⟨3, 7, 2, none⟩ ∧
     (s.sync 0).arrival = none ∧ s.inPart 0 (3 / 4) = true ∧ s.inPart 0 (255 / 4) = false ∧ released s 0 2 = true ∧
     (SMap.get Rdv.reset (s.sync 3).rdv 7).exp = 0 ∧ (SMap.get Rdv.reset ((rd 1).sync 3).rdv 7).exp ≠ 0 ∧
     -- an arrival that is the last, and one that waits
     ((out 1).sync 0).arrival = some ⟨3, 7, 2, some 0⟩ ∧ ((out 2).sync 0).arrival = some ⟨3, 7, 2, none⟩) :=
  ⟨runs_onCC _ _ _ (by decide +kernel), by decide, by decide +kernel⟩

/-! ## Statements about queues, commands, bricks, graphs, records -/

/-- A brick of context 0 at 1,000 with the OB of number 0 of the graph at 0x7000. -/
def brickOf (core : Nat) : Brick := ⟨1000, 5, 3, 1, 0, 2, false, 3, 4, 0x7000, 0, 0, BitVec.ofNat 1024 core⟩

/-- Core 0 with brick 2 RUNNING and current, and brick 4 RETIRING. -/
def withBrick (f : CCRegs → CCRegs) : State :=
  (onCC 0 f).modProc 0 fun v => { v with
    bricks := [(2, some ⟨brickOf 0, .running, false, 0, 0, false, [], []⟩), (4, some ⟨brickOf 0, .retiring, false, 0, 0, false, [], []⟩)]
    cur := some 2 }

theorem test_hyp_ScalarQueues :
    Runs (onCC 0 id) 0 g0 ∧ Runs (onCC 256 id) 256 g0 ∧
    (let q (f : Queues → Queues) : Queues := ((withBrick id).modQ 0 f).proc 0 |>.q
     ((onCC 0 id).proc 0).cur = none ∧ ((withBrick id).proc 0).cur ≠ none ∧
     (q fun k => { k with toVe := List.replicate 31 ⟨0, 0⟩ }).toVe.length < 32 ∧
     32 ≤ (q fun k => { k with toVe := List.replicate 32 ⟨0, 0⟩ }).toVe.length ∧
     (SMap.get [] (q fun k => { k with tq := [(4, List.replicate 63 0)] }).tq 4).length < 64 ∧
     64 ≤ (SMap.get [] (q fun k => { k with tq := [(4, List.replicate 64 0)] }).tq 4).length ∧
     -- POP of each queue: empty, and with an element; the last field is 4
     (q id).toCc = [] ∧ (q id).reply = [] ∧ SMap.get [] (q id).tq 7 = [] ∧ (4 : BitVec 4) ≤ 4 ∧
     (q fun k => { k with toCc := [⟨7, 1⟩] }).toCc = [⟨7, 1⟩] ∧ (q fun k => { k with reply := [⟨7, 1⟩] }).reply = [⟨7, 1⟩] ∧
     SMap.get [] (q fun k => { k with tq := [(7, [9])] }).tq (4 + 3) = [9]) :=
  ⟨runs_onCC _ _ _ (by decide +kernel), runs_onCC _ _ _ (by decide +kernel), by decide +kernel⟩

theorem test_hyp_EngineCommands :
    Runs (withBrick (regs [(1, 65535), (2, 65536)])) 0 g0 ∧ Runs (onCC 0 id) 0 g0 ∧
    (let s := withBrick (regs [(1, 65535), (2, 65536), (3, 65537), (4, 15), (5, 16)])
     let full : State := s.modQ 0 fun k => { k with veq := List.replicate 64 (.marker 0) }
     (s.proc 0).cur = some 2 ∧ (4 : BitVec 3) ≤ 4 ∧ (12 : BitVec 4).toNat + (4 : BitVec 3).toNat ≤ 16 ∧
     -- KICK to the last entry and past it; NEST of 65,536, of 0 and past; LINK inside the partition and outside
     ((s.cc 0).readS 1).toNat ≤ 65535 ∧ 65535 < ((s.cc 0).readS 2).toNat ∧ 1 ≤ ((s.cc 0).readS 2).toNat ∧
     ((s.cc 0).readS 2).toNat ≤ 65536 ∧ ((s.cc 0).readS 0).toNat = 0 ∧ 65536 < ((s.cc 0).readS 3).toNat ∧
     s.inPart 0 (((s.cc 0).readS 4).toNat % 256 / 4) = true ∧ s.inPart 0 (((s.cc 0).readS 5).toNat % 256 / 4) = false ∧
     (engineQueue (s.proc 0).q .ve).length < 64 ∧ 64 ≤ (engineQueue (full.proc 0).q .ve).length ∧
     ((onCC 0 id).proc 0).cur = none ∧ (11 : BitVec 4) ≤ 11 ∧
     -- SCMD.PMMG: 63 and 64 gathered commands
     (s.cluster 0).press.gathered.length < 64 ∧
     (let g : Gathered := ⟨0, ⟨0, 0, 2, 0, 0, []⟩, none, false, 0, 0, 0, 0, 0⟩
      64 ≤ ((s.modPress 0 fun p => { p with gathered := List.replicate 64 g }).cluster 0).press.gathered.length)) ∧
    -- SCMD.LK: a core that serves the context, one that serves none, and a full job queue
    (let s := (two.modCtx 0 fun c => { c with hof := some ⟨0x8000, some 0x9000, [], [], 0, 0⟩ }).modLookup 15
       fun l => { l with v := true, ctx := 0 }
     let j : Job := ⟨0, 0, 0, 0, 0, 0, 0, false⟩
     (s.lookup 15).v = true ∧ (s.lookup 15).ctx.toNat = 0 ∧ (s.ctx 0).hof = some ⟨0x8000, some 0x9000, [], [], 0, 0⟩ ∧
     (s.lookup 14).v = false ∧ 64 % 64 = 0 ∧ 63 % 64 ≠ 0 ∧ (s.lookup 15).jobs.length < 64 ∧
     64 ≤ ((s.modLookup 15 fun l => { l with jobs := List.replicate 64 j }).lookup 15).jobs.length) :=
  ⟨⟨rfl, by decide +kernel⟩, runs_onCC _ _ _ (by decide +kernel), by decide +kernel, by decide +kernel⟩

theorem test_hyp_BrickInstructions :
    Runs (withBrick (regs [(1, 2), (2, 4), (3, 5)])) 0 g0 ∧
    (let s := withBrick (regs [(1, 2), (2, 4), (3, 5)])
     let full : State := s.modProc 0 fun v => { v with
       bricks := (List.range 8).map fun k => (k, some ⟨brickOf 0, .running, false, 0, 0, false, [], []⟩) }
     let held : State := s.modProc 0 fun v => { v with heldBrick := some (brickOf 0) }
     8 ≤ (full.proc 0).liveBricks.length ∧ (full.proc 0).throttled = false ∧ (held.proc 0).heldBrick = some (brickOf 0) ∧
     (held.proc 0).liveBricks.length < 8 ∧ held.brick 0 7 = none ∧
     s.brick 0 5 = none ∧ s.brick 0 2 = some ⟨brickOf 0, .running, false, 0, 0, false, [], []⟩ ∧
     s.brick 0 4 = some ⟨brickOf 0, .retiring, false, 0, 0, false, [], []⟩ ∧
     (⟨brickOf 0, .running, false, 0, 0, false, [], []⟩ : BrickReg).live = true ∧
     -- LEASE: held, free, held by another with and without a request of this core
     (let p (h : Option Nat) (rel : Bool) (l : List Nat) : Press := { Press.reset with holder := h, releasing := rel, reqs := l }
      ((p (some 0) false []).holder = some (0 % 4) ∧ (p none false []).holder = none ∧ (p (some 3) false [0]).reqs = [0] ∧
       (0 : Nat) ∉ (p (some 3) false [1, 2]).reqs ∧ (p (some 3) false [1, 2]).reqs.length < 8 ∧ 3 < 4))) ∧
    -- the release point at the head of the Press queue, with and without a request
    (let s := ((withBrick id).modPress 0 fun p => { p with holder := some 0, releasing := true, reqs := [3] }).modQ 0
       fun q => { q with pxq := [.release 0] }
     (s.cluster 0).press.holder = some 0 ∧ (s.cluster 0).press.releasing = true ∧ (s.proc 0).q.pxq = [.release 0] ∧
     engineCap (s.proc 0) .px = none ∧ (s.cluster 0).press.gathered = [] ∧ (s.cluster 0).press.reqs = [3] ∧ s.fl.remotes = []) :=
  ⟨⟨rfl, by decide +kernel⟩, by decide +kernel, by decide +kernel⟩

/-- A core is not throttled where its context's quota is off. -/
theorem test_no_throttle : throttleAt (onCC 0 id) 0 = onCC 0 id := rfl

/-- A graph of one OB, in the LST of context 0. -/
def graphAt (s : State) (nob : Nat) : State :=
  let h := 0xFF00000100000
  { s with mem := ((((((s.mem.write h 2 nob).write (h + 8) 8 (h + 0x8000)).write (h + 16) 8 (h + 0x9000)).write (h + 24) 8
      (h + 0xA000)).write (h + 32) 4 1)) }

theorem test_hyp_GraphsAndSequencers :
    Runs (onCC 0 id) 0 g0 ∧
    (let h := 0xFF00000100000
     let s := graphAt (onCC 0 (regs [(1, h)])) 1
     let x1 (t : SeqState) : State :=
       (graphAt ({ two with actor := .cc 0 }.modProc 0 fun v => { v with run := .running 1 }) 1).modStepper 2
         fun _ => { Stepper.reset with st := t, ctx := 1 }
     released s 0 2 = true ∧ released (s.modCoh 0 fun c => { c with acks := [3] }) 0 2 = false ∧
     (s.ctx 0).d.st = .active ∧ ((s.modCtx 0 fun c => { c with d := { c.d with st := .suspended } }).ctx 0).d.st = .suspended ∧
     ((s.modCtx 0 fun c => { c with d := { c.d with st := .idle } }).ctx 0).d.st = .idle ∧
     -- accepted; no OB; a header off its boundary and one outside the LST; the OBT of a graph in flight
     (checkGraph s 0 h none).1 = 0 ∧ (checkGraph (graphAt s 0) 0 h none).1 ≠ 0 ∧ (h + 32) % 64 ≠ 0 ∧
     inLst s 0 (h - 64) 64 = false ∧ (checkGraph s 0 h (some 1)).1 = 0 ∧ (checkGraph s 0 h (some 2)).1 ≠ 0 ∧
     flightFull s 0 (h + 0x8000) = false ∧
     (let g : Graph := ⟨1, 0, h + 0x8000, 0, 0, 0, false, false, true, []⟩
      flightFull (s.modCtx 0 fun c => { c with graphs := [g] }) 0 (h + 0x8000) = true) ∧
     (s.ctx 0).graphs = [] ∧
     -- a context without a sequencer, and one whose sequencer is in each state
     seqOf s 0 = none ∧ seqOf (x1 .idle) 1 = some 2 ∧ ((x1 .idle).stepper 2).st = .idle ∧ ((x1 .run).stepper 2).st = .run ∧
     ((x1 .pause).stepper 2).st = .pause ∧ ((x1 .halt).stepper 2).st = .halt ∧ (1 % 2 ^ 20 ≠ 0 ∧ 2 ^ 20 % 2 ^ 20 = 0) ∧
     ((x1 .run).proc 0).liveBricks = [] ∧ (checkGraph (x1 .idle) 1 h (some 1)).1 = 0) :=
  ⟨runs_onCC _ _ _ (by decide +kernel), by decide +kernel⟩

theorem test_hyp_RegionsAndReuse :
    Runs (onCC 0 id) 0 g0 ∧
    (let s := onCC 0 (regs [(1, 0x6000)])
     let m := ((s.mem.write 0x6000 8 (2 ^ 52 - 64)).write 0x6008 8 64).write 0x6010 2 5
     let t : State := { s with mem := m }
     released s 0 2 = true ∧ (0x6001 % 32 ≠ 0 ∧ 0x6000 % 32 = 0) ∧
     -- a declaration that ends at 2^52, one that ends past it, one of length 0; region 0x3FF and the last other
     meets t (do
       let pl ← resolve (coreWho t 0) 0x6000 32 .read
       let v ← load (coreWho t 0) pl 32 true
       let base := v % 2 ^ 64
       let len := v / 2 ^ 64 % 2 ^ 64
       return decide (base < 2 ^ 52 ∧ 1 ≤ len ∧ len ≤ 2 ^ 46 ∧ v / 2 ^ 136 = 0 ∧ base + len ≤ 2 ^ 52)) = true ∧
     ¬ (2 ^ 52 - 64 + 65 ≤ 2 ^ 52) ∧ 0x7FF % 1024 = 0x3FF ∧ 0x3FE % 1024 ≠ 0x3FF ∧
     -- input regions: none, one defined, one not
     (let s := s.modCtx 0 fun c => { c with regions := [(5, { Region.reset with v := true })] }
      (SMap.get Region.reset (s.ctx 0).regions 5).v = true ∧ (SMap.get Region.reset (s.ctx 0).regions 6).v = false) ∧
     seqOf s 0 = none ∧ seqOf two 1 = some 2 ∧
     ((two.modStepper 2 fun t => { t with st := .run }).stepper 2).st ≠ .idle ∧
     Reuse.reset.rgn.length = 4 ∧ Reuse.reset.prgn.length = 4 ∧ 5 ≤ (5 : BitVec 4).toNat ∧ (8 : BitVec 4).toNat < 9 ∧ (12 : BitVec 4).toNat < 13) :=
  ⟨runs_onCC _ _ _ (by decide +kernel), by decide +kernel⟩

theorem test_hyp_FaultQueueAndInvalidation :
    Runs (onCC 0 id) 0 g0 ∧
    (let s := onCC 0 (regs [(1, 0x6000)])
     let q (n : Nat) : State := s.modCtx 0 fun c => { c with fq := { c.fq with
       count := n, head := 255, pend := [(7, .stopCc 3, 0), (8, .stopCc 4, 0)] } }
     (0x6020 % 64 ≠ 0 ∧ 0x6000 % 64 = 0) ∧
     meets s (do let pl ← resolve (coreWho s 0) 0x6000 64 .write; return pl.kind != .mmio && pl.isLocal) = true ∧
     ((q 0).ctx 0).fq.count = 0 ∧ ((q 256).ctx 0).fq.count ≠ 0 ∧ released s 0 2 = true ∧
     (((q 1).ctx 0).fq.pend.find? fun e => e.1 == 9) = none ∧
     (((q 1).ctx 0).fq.pend.find? fun e => e.1 == 7) = some (7, .stopCc 3, 0) ∧
     ((s.modProc 3 fun v => { v with run := .stopped 0 7 }).proc 3).run = .stopped 0 7 ∧
     -- TLBINV: USER and SYS, the own ASID and another, a remote access in progress and none
     (s.cc 0).sys = false ∧ ((onCC 0 fun r => { r with sys := true }).cc 0).sys = true ∧ (s.ctx 0).d.asid = 5 ∧
     (s.ctx 1).d.asid ≠ 5 ∧ s.fl.remotes = [] ∧ waitsFor3.core = 0 ∧ waitsFor3.eng = none) :=
  ⟨runs_onCC _ _ _ (by decide +kernel), by decide +kernel⟩

theorem test_hyp_PowerInstructions :
    Runs (onCC 255 (regs [(1, 10000000), (2, 10000001), (3, 1)])) 255 g0 ∧
    (let r := (onCC 255 (regs [(1, 10000000), (2, 10000001), (3, 1)])).cc 255
     (r.readS 1).toNat ≤ 10000000 ∧ 10000000 < (r.readS 2).toNat ∧ (r.readS 0).toNat = 0 ∧ (r.readS 3).toNat ≠ 0) :=
  ⟨runs_onCC _ _ _ (by decide +kernel), by decide +kernel⟩

/-! ## Statements about lookup cores -/

/-- A job, a row request, and a table handle of 100 rows of 8 FP16 elements at 0x8000. -/
def job (orphan : Bool) : Job := ⟨0, 77, 0, 5, 2, 0x123440, 1, orphan⟩
def row (i : BitVec 32) (data : Option (List Byte × Bool)) : RowReq := ⟨i, 0x6000, [(0x6000, 16)], 10, 8, false, 1, data⟩
def table : Handle :=
  H.put (H.put (H.put (H.make 0x8000 10 2 0 false) 64 16 8) 80 16 100) 128 24 16

/-- Lookup core 0 (core 256) with a program of context 0. -/
def onLk (l : Lookup → Lookup) (f : CCRegs → CCRegs) : State := (onCC 256 f).modLookup 0 l

theorem test_hyp_LookupJobsAndRows :
    Runs (onCC 256 id) 256 g0 ∧
    (let s := onLk (fun l => { l with cur := some (job false), dq := [row 3 (some ([1, 2], false))], aq := [row 2 none] }) id
     let t := onLk (fun l => { l with jobs := [job false], dq := [row 3 none] }) id
     (s.lookup 0).cur = some (job false) ∧ (job false).orphan = false ∧ (t.lookup 0).cur = none ∧ (t.lookup 0).jobs = [job false] ∧
     ((onCC 256 id).lookup 0).jobs = [] ∧ ((onCC 256 id).lookup 0).aq = [] ∧ ((onCC 256 id).lookup 0).dq = [] ∧
     pusherDone t 5 = true ∧ pusherDone (t.modCoh 5 fun c => { c with acks := [3] }) 5 = false ∧
     quiet s 256 = true ∧ quiet (s.modCoh 256 fun c => { c with acks := [3] }) 256 = false ∧ (s.lookup 0).stall = none ∧
     (s.lookup 0).dq = [row 3 (some ([1, 2], false))] ∧ (row 3 (some ([1, 2], false))).data = some ([1, 2], false) ∧
     (row 3 none).data = none ∧ (s.proc 5).q.reply.length < 64 ∧
     64 ≤ ((s.modQ 5 fun q => { q with reply := List.replicate 64 ⟨0, 0⟩ }).proc 5).q.reply.length ∧
     -- an assignment: idle with and without a program, not idle
     ((onCC 256 id).lookup 0).kbags = [] ∧ (t.lookup 0).jobs ≠ [] ∧
     -- a row request issues: the staging full to its last unit, and past it
     (let d (n : Nat) : List RowReq := List.replicate n (row 3 none)
      (d 511).length < 512 ∧ 512 ≤ (d 512).length ∧ ((d 511).map RowReq.units).sum + (row 2 none).units ≤ 2048) ∧
     -- a row arrives: sound, poisoned
     runsPoisoned s.mem (row 3 none).runs = false ∧ runsPoisoned (s.mem.setPoison 0xC0 true) (row 3 none).runs = true) ∧
    servesLookup ((two.modCtx 0 fun c => { c with hof := some ⟨0x8000, some 0x9000, [], [], 0, 0⟩ }).modLookup 15
      fun l => { l with v := true, ctx := 0 }) 15 0 = true ∧ servesLookup two 15 0 = false ∧
    -- LKAQ: a table; a rank and a format it does not take; a list of the last row, the null index and the first past it
    (let s (h : Handle) := (onCC 256 (regs [(1, 0x6000)])).modCC 256 fun r => r.writeH 3 h
     let ok := s table
     let m := (ok.mem.write 0x6000 4 99).write 0x6004 4 0xFFFFFFFF
     let t : State := { ok with mem := m }
     H.rankOk table = true ∧ H.fmtOk table = true ∧ tableOk table = true ∧ H.size table 1 = 100 ∧
     H.rankOk (H.put table 57 3 0) = false ∧ H.fmtOk (H.put table 52 5 31) = false ∧ (0x6002 % 4 ≠ 0) ∧
     meets t (do
       let w := coreWho t 256
       let l ← loadList w 0x6000 4 0 2
       let _ ← rowRequests w table false 0 l
       return l == [99, 0xFFFFFFFF]) = true ∧
     ¬ ((100 : Nat) = 0xFFFFFFFF ∨ 100 < H.size table 1)) :=
  ⟨runs_onCC _ _ _ (by decide +kernel), by decide +kernel, by decide +kernel, by decide +kernel, by decide +kernel⟩

/-- Words of the capacity directory: table 0 of context 0, 8 rows of 8 FP16 elements at the tier's first byte. -/
def dir0 : BitVec 128 := BitVec.ofNat 128 (2 ^ 127 + 7 * 2 ^ 108 + 2 ^ 96 + 8 * 2 ^ 64 + 0x10000000000)

theorem test_hyp_LookupPoolingAndBags :
    Runs (onCC 256 id) 256 g0 ∧
    -- LKDDP of three indices, two distinct; each address off its boundary
    (let s := onCC 256 id
     let m := ((s.mem.write 0x6000 4 9).write 0x6004 4 0xFFFFFFFF).write 0x6008 4 9
     let t : State := { s with mem := m }
     let w := coreWho t 256
     (0x6002 % 4 ≠ 0 ∧ 0x6000 % 4 = 0 ∧ 0x7002 % 4 ≠ 0 ∧ 0x7000 % 4 = 0) ∧
     meets t (do
       let xs ← loadList w 0x6000 4 0 3
       let u := (xs.filter fun x => x != 0xFFFFFFFF).eraseDups
       let m := xs.map fun x => if x = 0xFFFFFFFF then 0xFFFF else u.findIdx fun y => y == x
       checkRange w 0x7000 4 u.length
       checkRange w 0x700C 2 xs.length
       storeList w 0x7000 4 0x10000 u
       storeList w 0x700C 2 0x20000 m
       return u == [9] && m == [0, 0xFFFF, 0]) = true) ∧
    -- PR: none, null, poisoned and sound; bags: empty, of its size, of another, with the last count and with 65,536
    (let pr (nul sub psn : Bool) : RowReg := ⟨2, 10, [0, 0x3C, 0, 0x40], nul, sub, psn⟩
     let bag (e n : Nat) : Bag := ⟨e, n, false, []⟩
     ((onCC 256 id).lookup 0).pr = none ∧ ((onLk (fun l => { l with pr := some (pr false false false) }) id).lookup 0).pr =
       some (pr false false false) ∧ (pr true false false).nul = true ∧ (pr false true false).sub = true ∧
     (pr false false true).psn = true ∧ (bag 3 1).elems ≠ (pr false false false).elems ∧ (bag 2 1).elems = 2 ∧ Bag.empty.elems = 0 ∧
     (bag 2 65536).count = 65536 ∧ (bag 2 65535).count ≠ 65536 ∧
     -- LKPUT and LKPUT.ROW to a vector of two elements
     (let h := H.put (H.make 0xFFE0000000000 10 1 0 false) 64 16 2
      meets (onCC 256 id) (do
        putVector 256 (coreWho (onCC 256 id) 256) (H.put h 0 52 0xFF80000000000) 0 [.fin false 1 0, .fin false 1 1] false
        return true) = true)) ∧
    -- KBAG: a request of two bags of one row each, with weights
    (let s := (onCC 256 id).modLinks fun l => { l with dir := [(0, dir0)] }
     let m := ((((((s.mem.write 0x6001 1 1).write 0x6003 1 10).write 0x6004 2 2).write 0x6008 8 0x6100).write 0x6010 8
       0x6200).write 0x6018 8 0x6300).write 0x6020 8 0x7000
     let m := (((m.write 0x6028 8 16).write 0x6304 4 1).write 0x6308 4 2).write 0x6104 4 7
     let t : State := { s with mem := m }
     let w := coreWho t 256
     meets t (do
       let pl ← resolveLoad w 0x6000 64 false
       let v ← load w pl 64 false
       let q := bytesN 64 v
       let f (lo n : Nat) : Nat := obField q lo n
       let e := SMap.get 0 (← get).links.dir (f 0 1)
       let off ← loadList w (f 24 8) 4 0x10000 3
       let idx ← loadList w (f 8 8) 4 0x20000 2
       let wgt ← loadList w (f 16 8) 2 0x40000 2
       let outs ← (List.range (f 4 2)).mapM fun n => outElems w (f 32 8 + n * f 40 8) (fmtBits (f 3 1) / 8) (dirElems e)
       return f 1 1 == 1 && f 2 1 == 0 && f 3 1 == 10 && f 4 2 == 2 && f 6 2 == 0 && f 48 16 == 0 && dirV e && dirCtx e == w.ctx &&
         offsetsOk off && (idx.all fun i => i == 0xFFFFFFFF || decide (i < dirRows e)) && decide (dirElems e * 2 ≤ f 40 8) &&
         wgt == [0, 0] && outs.length == 2 && pl.kind != .mmio) = true ∧
     (s.lookup 0).kbags.length < 16 ∧ (0x6020 % 64 ≠ 0 ∧ 0x6000 % 64 = 0)) ∧
    -- its reply: nothing outstanding and room, or 64 replies
    (let r : KReq := ⟨7, 0, dir0, false, false, false, 0, 10, [0, 1, 2], [0, 7], [0, 0], [[[0x7000]], [[0x7010]]], 8, none, false⟩
     let s := onLk (fun l => { l with kbags := [r] }) id
     (s.lookup 0).kbags = [r] ∧ r.written = none ∧ ({ r with written := some true } : KReq).written = some true ∧
     { r with drop := true }.drop = true ∧ quiet s 256 = true ∧ quiet (s.modCoh 256 fun c => { c with acks := [3] }) 256 = false ∧
     r.drop = false ∧ s.fl.remotes = [] ∧ (s.proc 256).q.reply.length < 64 ∧
     64 ≤ ((s.modQ 256 fun q => { q with reply := List.replicate 64 ⟨0, 0⟩ }).proc 256).q.reply.length) :=
  ⟨runs_onCC _ _ _ (by decide +kernel), by decide +kernel, by decide +kernel, by decide +kernel, by decide +kernel⟩

/-! ## Statements about the vector engine and the Press -/

/-- Core 0's command under brick 2, and an instruction without token, stage or flag fields. -/
def cap0 : Capture := ⟨0, 0, 2, 0, 0, []⟩
def c0 : VCom := ⟨0, 0, 0⟩

/-- The VE of core 0, or the Press of cluster 0 leased to core 0, with a paid instruction at the head of its stream. -/
def onStream (px : Bool) (f : VERegs → VERegs) (g : Sequencer → Sequencer) : State :=
  let s := (withBrick id).modProc 0 fun v => { v with bricks := [(2, some ⟨brickOf 0, .running, false, 4, 0, false, [], []⟩)] }
  let s := (s.modVE 0 f).modPress 0 fun p => { p with holder := some 0 }
  let tks : List (BitVec 16) := [0x8000, 0xE800, 0x8400 + 6 * 128, 0, 0x8000, 0xE000, 0x8000]
  let s := modSeqr s 0 px fun q => g { q with cap := some cap0, phase := .paid, pc := 100, blocks := 1, tks := some tks }
  { s with actor := if px then .px 0 else .ve 0 }

/-- VSH with a type, rows and columns. -/
def vsh (t rows cols : Nat) : BitVec 32 := BitVec.ofNat 32 (t * 65536 + (cols - 1) * 64 + (rows - 1))

/-- `Ready` as a test. -/
def ready (s : State) (px : Bool) : Bool :=
  decide (streamCore s px = some 0) && decide ((seqr s 0 px).cap = some cap0) && decide ((seqr s 0 px).token c0.tk = some 0) &&
    streamRuns s 0 (seqr s 0 px) c0 && decide ((seqr s 0 px).phase = .paid)

theorem ready_iff (s : State) (px : Bool) (h : ready s px = true) : Ready s 0 px c0 cap0 0 := by
  simp only [ready, Bool.and_eq_true, decide_eq_true_eq] at h
  exact ⟨h.1.1.1.1, h.1.1.1.2, h.1.1.2, h.1.2, h.2, by simp⟩

theorem test_hyp_StreamInstructionOrder :
    (let s := onStream false id id
     let q := seqr s 0 false
     streamForm (.vadd ⟨c0, false, 1, 2, 3⟩) ≠ none ∧ streamCore s false = some 0 ∧ q.cap = some cap0 ∧
     streamCore (onStream true id id) true = some 0 ∧
     -- token actions: undefined, none, a pop of queue 5 that is empty and one that is not
     q.token 4 = none ∧ q.token 0 = some 0 ∧ q.token 2 = some 0xE800 ∧ (0xE800 : BitVec 16).getLsbD 14 = true ∧ q.popped = none ∧
     tokens (s.proc 0).q 5 = [] ∧ tokens ((s.modQ 0 fun k => setTokens k 5 [7]).proc 0).q 5 = [7] ∧
     -- skipped by a VBRZ, and run
     streamRuns s 0 q c0 = true ∧
     streamRuns s 0 { q with phase := .fresh, block := some ⟨0, 1, 0, [], 100, 0, 0, [1], [], 3⟩ } c0 = false ∧
     -- pacing: over at its last instant, and not
     (let t := (s.modCC 0 fun r => { r with pace := [(0, 100)] }).modMod fun m => { m with gts := 100 }
      paceOver t 0 .ve (some 0) = true ∧ paceOver t 0 .ve (some 1) = false ∧ lastDequeue t 0 false = none) ∧
     -- a token of queue 4, with an access of the core outstanding and without one; writes of a former lease holder
     q.token 6 = some 0xE000 ∧ fld (0xE000 : BitVec 16) 11 3 = 4 ∧ s.fl.remotes = [] ∧ (waitsFor3.q = 0 ∧ waitsFor3.eng = none) ∧
     formerWrites s 0 = false ∧
     formerWrites (s.modFl fun f => { f with remotes := [{ waitsFor3 with q := 1, core := 1, eng := some .px }] }) 0 = true ∧
     (s.ctx 0).quota.en = false ∧
     -- charge: the oldest waiter with a level of its cost, and one that must wait
     admits { Power.reset with level := 7 } 7 false = true ∧ admits { Power.reset with level := 6 } 7 false = false ∧
     ({ Power.reset with waiters := [(0, .ve)] }).waiters.head? = some (0, .ve) ∧
     (seqr (modSeqr s 0 false fun q => { q with phase := .fresh }) 0 false).phase = .fresh ∧
     (seqr (modSeqr s 0 false fun q => { q with phase := .charging }) 0 false).phase = .charging) := by
  refine ⟨?_, ?_⟩
  · simp [streamForm]
  · decide +kernel

/-- Types 5, 8 and 9 (the last integer, the last floating, the first other). -/
theorem test_hyp_ElementwiseInstructions :
    ([4, 5, 6, 8, 9].all fun t => ready (onStream false (fun v => { v with vsh := vsh t 1 32 }) id) false) = true ∧
    (binaryRules.any fun e => (e.2.on 9).isNone) = true ∧ (binaryRules.any fun e => (e.2.on 9).isSome) = true ∧
    (binaryRules.all fun e => (e.2.on 5).isSome) = true ∧ (unaryRules.any fun e => (e.2.on 8).isNone) = true ∧
    (unaryRules.all fun e => (e.2.on 5).isSome) = true ∧ specialRules.length = 9 ∧
    (specialRules.all fun e => (specialResult e.2 .fp32 .nan).isSome) = true ∧
    (6 ≤ (6 : BitVec 4).toNat ∧ (8 : BitVec 4).toNat ≤ 8 ∧ ¬ 6 ≤ (5 : BitVec 4).toNat ∧ ¬ (9 : BitVec 4).toNat ≤ 8) := by
  decide +kernel

theorem test_hyp_ElementInstructions :
    (let v (t r c : Nat) : VERegs := { VERegs.reset with vsh := vsh t r c }
     let s := onStream false (fun w => { w with vsh := vsh 6 4 32 }) id
     ready s false = true ∧
     -- 128 words fit and 129 do not
     (v 6 4 32).fits 6 = true ∧ (v 6 3 43).fits 6 = false ∧ (v 4 16 16).count ≤ 256 ∧ 256 < (v 4 1 257).count ∧
     8 < (v 9 1 1).ty.toNat ∧ (v 8 1 1).ty.toNat ≤ 8 ∧
     -- VBCS: an empty queue, an element with its release made, and not
     (s.proc 0).q.toVe = [] ∧ ((s.modQ 0 fun q => { q with toVe := [⟨5, 1⟩] }).proc 0).q.toVe = [⟨5, 1⟩] ∧ pushReleased s cap0 = true ∧
     pushReleased (s.modFl fun f => { f with remotes := [waitsFor3] }) cap0 = false ∧
     -- VTRN: the last row and column
     (3 < (v 6 4 32).rows ∧ 31 < (v 6 4 32).cols) ∧
     -- VQBLK: 32 and 33 elements; a NaN, an infinity, zeros and a largest magnitude in a block
     (v 8 1 32).count % 32 = 0 ∧ (v 8 1 33).count % 32 ≠ 0 ∧ (v 8 1 32).fits 9 = true ∧ (9 ≤ 9 ∧ 13 ≤ 13 ∧ (1 : BitVec 5) ≠ 0) ∧
     (decodeF .fp32 0x7FC00000).isNaN = true ∧ (decodeF .fp32 0x7F800000 = .inf false) ∧ (decodeF .fp32 0).isZero = true ∧
     magLt (3, 0) (2, 0) = false ∧ magLt (1, 0) (3, -1) = true) := by decide +kernel

theorem test_hyp_MasksShapesAndBlocks :
    (let v (n : BitVec 5) : VERegs := { VERegs.reset with depth := n }
     ready (onStream false id id) false = true ∧
     1 ≤ (v 1).depth.toNat ∧ (v 15).depth.toNat < 16 ∧ 16 ≤ (v 16).depth.toNat ∧ (v 1).depth.toNat < 2 ∧ 2 ≤ (v 2).depth.toNat ∧
     ({ VERegs.reset with vsh := vsh 6 4 32 } : VERegs).fits 6 = true ∧
     -- VBRZ: an active element, and none
     (v 1).top.getLsbD 0 = true ∧ 0 < (v 1).count ∧ ({ v 2 with mask := [(1, 0)] } : VERegs).top = 0) ∧
    (let s := onStream false id fun q => { q with phase := .fresh }
     let w (who : Option (Nat × Eng)) (g : Bool) : State := s.modProc 0 fun v => { v with semq := [⟨7, who, 1, g⟩] }
     let me := some (0, Eng.ve)
     (match s.actor with | .ve _ => true | _ => false) = true ∧ (seqr s 0 false).block = none ∧
     (seqr (modSeqr s 0 false fun q => { q with block := some ⟨0, 1, 0, [], 100, 0, 0, [1], [], 0⟩ }) 0 false).block ≠ none ∧
     (s.proc 0).semq = [] ∧ (s.modSync 0 fun y => { y with sem := [(7, 1)] }).sync 0 = { s.sync 0 with sem := [(7, 1)] } ∧
     (SMap.get 0 (s.sync 0).sem 7).toNat % 65536 = 0 ∧
     ((w none false).proc 0).semq.find? (fun w => w.who == me) = none ∧
     ((w me true).proc 0).semq.find? (fun w => w.who == me) = some ⟨7, me, 1, true⟩ ∧
     ((w me false).proc 0).semq.find? (fun w => w.who == me) = some ⟨7, me, 1, false⟩) := by decide +kernel

theorem test_hyp_FoldsAndExtract :
    (let s := onStream false (fun v => { v with vsh := vsh 6 4 32, mask := [(1, 0)], depth := 2 }) id
     let v := s.ve 0
     ready s false = true ∧ v.fits 6 = true ∧ v.fits 10 = true ∧ ({ v with vsh := vsh 6 3 43 } : VERegs).fits 6 = false ∧
     -- a set with elements and one without
     foldSet v true false 3 ≠ [] ∧ foldSet v true true 3 = [] ∧ (2 : BitVec 5) ≠ 1 ∧
     -- VEXT: the last element and the first past it; room, a full queue, a write on its way
     127 < v.count ∧ v.count ≤ 128 ∧ (s.proc 0).q.toCc.length < 32 ∧ writesDone s 0 .ve = true ∧
     ¬ ((s.modQ 0 fun q => { q with toCc := List.replicate 32 ⟨0, 0⟩ }).proc 0).q.toCc.length < 32 ∧
     writesDone (s.modCoh 0 fun c => { c with acks := [3] }) 0 .ve = false) := by decide +kernel

/-- All runs of bytes are in windows and sound. -/
def onChip (s : State) (w : Who) (l : List (Nat × Nat)) : Bool :=
  l.all fun r => decide (0xF000000000000 ≤ r.1) && (match windowKey s w r.1 r.2 with
    | some key => !s.mem.poisoned key r.2
    | none => false)

theorem onChip_iff (s : State) (w : Who) (l : List (Nat × Nat)) (h : onChip s w l = true) : OnChip s w l := by
  intro r hr
  have := List.all_eq_true.mp h r hr
  simp only [Bool.and_eq_true, decide_eq_true_eq] at this
  refine ⟨this.1, ?_⟩
  have h2 := this.2
  split at h2
  · exact ⟨_, ‹_›, by simpa using h2⟩
  · exact absurd h2 (by simp)

/-- A handle of 2-D elements in the own scratchpad. -/
def spad (fmt : BitVec 5) : Handle :=
  H.put (H.put (H.put (H.make 0xFFE0000001000 fmt 2 0 false) 64 16 32) 80 16 4) 128 24 32

theorem test_hyp_VectorMemory :
    (let s := onStream false (fun v => { v with vsh := vsh 6 4 32, vh := [(1, spad 9)] }) id
     let v := s.ve 0
     let who := (veItem s 0 cap0).who
     let h := v.slot false 1
     let base := (H.base h).toNat
     let row (i : Nat) : Nat × Nat := (base + 4 * i, 4)
     let runs := (v.active false).map row
     ready s false = true ∧ H.rankOk h = true ∧ H.fmt h ≤ 20 ∧ v.fits 6 = true ∧ base % 4 = 0 ∧
     (runs.all fun r => formatFits (streamFormats s 0 false cap0) s who (H.fmt h) (vCode v.ty) r) = true ∧
     windowFails s who runs = none ∧ onChip s who runs = true ∧ s.fl.remotes = [] ∧ s.mem.poison = [] ∧ H.tile h = 0xFFF ∧
     -- each check refused on its own: rank, format, alignment, window
     H.rankOk (H.put h 57 3 0) = false ∧ ¬ H.fmt (H.put h 52 5 31) ≤ 20 ∧ (base + 2) % 4 ≠ 0 ∧
     windowFails s who [(0xFFE00000BFFFE, 4)] = some 0xFFE00000BFFFE ∧
     -- a tile that is READY for the context, and one that is EMPTY
     (let t := s.modCluster 0 fun c => { c with tiles := [(5, ⟨2, 0, 1, 0⟩)] }
      copyPending t 0 0 5 = none ∧ (t.tile 0 5).st = 2 ∧ (t.tile 0 5).ctx = 0 ∧ (s.tile 0 5).st = 0) ∧
     -- VGTH, VSCT and VSCA: 128 elements of 8 bits and more; 4-bit and 6-bit tiles
     v.count ≤ 128 ∧ 8 ≤ vBits v.ty ∧ v.ty.toNat ≤ 8 ∧ (4 * 32) % 8 = 0 ∧ (0 : Int) % 4 = 0 ∧ (32 : Int) % 4 = 0 ∧
     -- a refused page in the middle of an access
     refuses s (resolve who (2 ^ 51) 4 .read) = true ∧ refuses s (resolve who (4 * 2 ^ 40) 4 .atomic) = true) := by decide +kernel

/-- What R56 asks: 6-bit and 4-bit elements in multiples, an offset that is none, and 32-bit elements at any. -/
theorem test_hyp_Counted :
    Counted (spad 12) 6 [0, 32, 8] ∧ Counted (spad 13) 4 [0, 32, 8] ∧ Counted (spad 9) 32 [7] ∧ ¬ Counted (spad 13) 4 [7] := by
  have m : Multiples (spad 12) 4 ∧ Multiples (spad 13) 2 := by
    refine ⟨⟨by decide +kernel, fun j h1 h2 => ?_⟩, ⟨by decide +kernel, fun j h1 h2 => ?_⟩⟩ <;>
      (obtain rfl | rfl | rfl : j = 1 ∨ j = 2 ∨ j = 3 := by omega) <;> decide +kernel
  refine ⟨⟨fun _ => ⟨m.1, by decide⟩, fun h => absurd h (by decide)⟩, ⟨fun h => absurd h (by decide), fun _ => ⟨m.2, by decide⟩⟩,
    ⟨fun h => absurd h (by decide), fun h => absurd h (by decide)⟩, fun h => ?_⟩
  exact absurd ((h.2 rfl).2 7 (by simp)) (by decide)

theorem test_hyp_LanesAndAccumulators :
    (let h (o : Nat) : Handle := H.make (BitVec.ofNat 64 (0xFFF0000000000 + o)) 9 1 0 false
     let s := onStream false (fun v => { v with vsh := vsh 6 4 32, vh := [(1, h 0)] }) id
     let o (base : Nat) (off : Int) (l : Nat) : Int := (base % 1024 : Nat) + 4 * (off + (l % 256 : Nat))
     ready s false = true ∧ H.rankOk (h 0) = true ∧ H.rankOk (H.put (h 0) 57 3 0) = false ∧
     ((H.base (h 1020)).toNat % 4 = 0 ∧ (H.base (h 1022)).toNat % 4 ≠ 0) ∧
     (0xFFF0000000000 ≤ (H.base (h 1020)).toNat ∧ (H.base (h 1023)).toNat < 0xFFF0000000000 + 1024 ∧
      ¬ (H.base (h 1024)).toNat < 0xFFF0000000000 + 1024) ∧
     -- lane words at the last place and past it, and before the first
     (o 0 0 255 = 1020 ∧ 1020 < o 4 0 255 ∧ o 0 (-1) 0 < 0) ∧ s.mem.poisoned (2 ^ 52) 4 = false) ∧
    (let s := onStream false (fun v => { v with vsh := vsh 6 4 32 }) id
     let v := s.ve 0
     let a (r : BitVec 2) : Acc := { Acc.zero with sum := 5, res := r }
     let sl (pz : Bool) (r : BitVec 2) : Slot := ⟨0, 0, 3, false, pz, 2, 0, 1, [(7, a r)]⟩
     let t := s.modPress 0 fun p => { p with slots := [(9, some (sl false 2))] }
     -- rows and columns to the slot's edge and past it
     (124 + v.rows ≤ 128 ∧ ¬ 125 + v.rows ≤ 128 ∧ 3 * 32 + v.cols ≤ 128) ∧
     slotOf t 0 0 3 = some (sl false 2) ∧ (a 2).resOk = true ∧ (a 1).resOk = false ∧ (sl true 2).pz = true ∧ v.active false ≠ []) := by
  decide +kernel

/-- Operands of a product: 2 by 32 FP16 elements in the own scratchpad, 32 by 3 in the own cluster's memory. -/
def opA : Handle := H.put (H.put (H.put (H.make 0xFFE0000000000 10 2 0 false) 64 16 32) 80 16 2) 128 24 32
def opB : Handle := H.put (H.put (H.put (H.make 0xFFC0000000000 10 2 0 false) 64 16 3) 80 16 32) 128 24 3
/-- The list of a gathered product: pairs (1, 127) and the end. -/
def opL : Handle := H.put (H.put (H.put (H.make 0xFFE0000002000 4 2 0 false) 64 16 2) 80 16 2) 128 24 2

/-- The Press with those operands in handles 0-2 and the list in memory. -/
def onPress (slots : SMap (Option Slot)) : State :=
  let s := (onStream true (fun v => { v with ph := [(0, opA), (1, opB), (2, opL)] }) id).modPress 0 fun p => { p with slots := slots }
  let w : Who := ⟨0, some .px, 0, 0⟩
  let at_ (va : Nat) : Nat := (windowKey s w va 2).getD 0
  s.modMem fun m => ((m.write (at_ 0xFFE0000002000) 2 1).write (at_ 0xFFE0000002002) 2 0xFFFF).write (at_ 0xFFE0000002004) 2 127

/-- Slot 3 of core 0, written by brick 2. -/
def slot3 (carried pz : Bool) (cnt : Nat) : Slot := ⟨0, 0, 3, carried, pz, 2, 0, cnt, []⟩

theorem test_hyp_MatrixProducts :
    (let s := onPress []
     let t := pressJob s 0 cap0
     ready s true = true ∧ cap0.core = 0 ∧ operandFault s t opA opB = none ∧ (operands s t opA opB).a.cols = 32 ∧
     operandFault s t opB opB ≠ none ∧ operandFault s t opL opB ≠ none ∧
     -- a slot to bind, one of this brick, one of another, a carried one
     slotOf s 0 0 3 = none ∧ 0 < ((s.brick 0 2).map (·.resv)).getD 0 ∧ ((s.brick 0 2).map (·.b.rst)).getD false = false ∧
     slotOf (onPress [(9, some (slot3 false false 65535))]) 0 0 3 = some (slot3 false false 65535) ∧
     (slot3 false false 65535).btag = cap0.tag ∧ { slot3 false false 0 with btag := 1 }.btag ≠ cap0.tag ∧ (slot3 true true 0).carried = true ∧
     (slot3 false true 0).pz = true ∧
     -- one block: the count reaches 65,536, and would pass it
     (65535 + (32 + 31) / 32 ≤ 65536 ∧ 65536 < 65536 + (32 + 31) / 32) ∧
     H.tile opA = 0xFFF ∧ H.tile opB = 0xFFF ∧ s.mem.poison = []) := by decide +kernel

theorem test_hyp_GatheredProducts :
    (let s := onPress []
     let t := pressJob s 0 cap0
     let at_ (i j : Nat) : Nat := s.mem.read (chipKey s t.who (0xFFE0000002000 + 2 * (2 * i + j)) 2) 2
     ready s true = true ∧ operandFault s t opA opB = none ∧ H.rank opL = 2 ∧ H.size opL 0 = 2 ∧ H.size opL 1 = 2 ∧
     formatOver t.fmts s t.who (H.fmt opL) [(rowRun opL 16 2 0), (rowRun opL 16 2 1)] = some 4 ∧ (H.base opL).toNat % 2 = 0 ∧
     H.tile opL = 0xFFF ∧
     onChip s t.who ((List.range 2).flatMap fun i => (List.range 2).map fun j => (0xFFE0000002000 + 2 * (2 * i + j), 2)) = true ∧
     windowFails s t.who [(rowRun opL 16 2 0), (rowRun opL 16 2 1)] = none ∧
     -- the pair (1, 127) is the last inside; A has 2 rows
     (at_ 0 0 = 1 ∧ at_ 0 1 = 0xFFFF ∧ at_ 1 0 = 127) ∧ (operands s t opA opB).a.rows = 2 ∧ (1 < 2 ∧ 127 ≤ 127 ∧ ¬ 2 < 2 ∧ ¬ 128 ≤ 127) ∧
     (s.proc 0).q.reply.length < 64 ∧ 64 ≤ ((s.modQ 0 fun q => { q with reply := List.replicate 64 ⟨0, 0⟩ }).proc 0).q.reply.length ∧
     writeAllowed s cap0 none true = true ∧ s.mem.poison = [] ∧ ¬ (H.rank opL = 1) ∧ H.rank (H.put opL 57 3 1) = 1) ∧
    -- a gathered command in progress, waiting, and none
    (let g : Gathered := ⟨0, cap0, none, true, 3, 0, opA, opB, opL⟩
     let s (sv : Option Gathered) (ph : Phase) : State := modSeqr (onPress []) 0 true fun q => { q with serving := sv, phase := ph, push := none }
     ((s none .fresh).cluster 0).press.holder = some 0 ∧ (seqr (s none .fresh) 0 true).serving = none ∧
     (seqr (s none .fresh) 0 true).stop = none ∧ (seqr (s none .paid) 0 true).phase ≠ .fresh ∧ ((s none .fresh).cluster 0).press.gathered = [] ∧
     (seqr (s (some g) .paid) 0 true).serving = some g ∧ (seqr (s (some g) .paid) 0 true).phase = .paid ∧ g.cap.core = 0 ∧ g.slot < 16 ∧
     pushReleased (s none .fresh) g.cap = true ∧
     (let t : PressJob := ⟨0, g.cap, snapFormats (s (some g) .paid) 0, 0, g.cap.fmt⟩
      operandFault (s (some g) .paid) t opA opB = none)) := by decide +kernel

theorem unbarred_of_none {s : State} {w : Who} {cls : BitVec 4} {l : List (Nat × Nat)} (h : s.fl.remotes = []) :
    Unbarred s w cls l := by
  intro r _ x hx
  rw [h] at hx
  cases hx

/-- A gathered product that runs to its end: a list that can be read, sound operands, a slot to bind, room for the reply. -/
theorem gathered_ready (s : State) (t : PressJob) (q : Pair) (l : List (Nat × Nat)) (hs : s.fl.remotes = [] ∧ s.mem.poison = [])
    (hl : H.rank opL = 2 ∧ H.size opL 0 ≤ 128 ∧ H.size opL 1 = 2)
    (ht : formatOver t.fmts s t.who (H.fmt opL) [rowRun opL 16 (H.size opL 0) 0, rowRun opL 16 (H.size opL 0) 1] = some 4)
    (hw : windowFails s t.who (View.checked ⟨opL, 16, 2, H.size opL 0⟩ s t.who) = none)
    (hb : onChip s t.who ((List.range 2).flatMap fun i : Nat => (List.range (H.size opL 0)).map fun j : Nat =>
      (trunc 52 ((H.base opL).toNat + 2 * (H.stride opL 1 * (i : Int) + (j : Int))), 2)) = true)
    (hq : H.tile opL = 0xFFF ∧ H.tile q.a.h = 0xFFF ∧ H.tile q.b.h = 0xFFF) :
    ListReady s t opL ∧ OperandsReady s t q l :=
  ⟨⟨hl, ht, hw, .inl hq.1, ⟨onChip_iff _ _ _ hb, unbarred_of_none hs.1⟩⟩,
    ⟨.inl hq.2.1, .inl hq.2.2, unbarred_of_none hs.1, unbarred_of_none hs.1, hs.2⟩⟩

theorem test_hyp_GatheredProducts_complete :
    (let s := onPress []
     let t := pressJob s 0 cap0
     let q := operands s t opA opB
     let l := gatheredPairs s t.who opL
     Ready s 0 true c0 cap0 0 ∧ (s.ve 0).slot true 0 = opA ∧ (s.ve 0).slot true 1 = opB ∧ (s.ve 0).slot true 2 = opL ∧
     ListReady s t opL ∧ OperandsReady s t q l ∧ SlotReady s 0 cap0 3 ((q.a.cols + 31) / 32 * mostShared l) true ∧ l = [(1, 127)] ∧
     operandFault s t opA opB = none ∧ (s.proc 0).q.reply.length < 64 ∧ (s.proc 0).coh.acks = [] ∧
     ((s.modCoh 0 fun c => { c with acks := [3] }).proc 0).coh.acks ≠ []) ∧
    (let g : Gathered := ⟨0, cap0, none, true, 3, 0, opA, opB, opL⟩
     let s := modSeqr (onPress []) 0 true fun q => { q with serving := some g, phase := .paid, push := none }
     let t : PressJob := ⟨0, cap0, g.fmts.getD (snapFormats s 0), 0, cap0.fmt⟩
     let q := operands s t opA opB
     let l := gatheredPairs s t.who opL
     (s.cluster 0).press.holder = some 0 ∧ (seqr s 0 true).stop = none ∧ (seqr s 0 true).serving = some g ∧
     (seqr s 0 true).phase = .paid ∧ pushReleased s cap0 = true ∧
     ListReady s t opL ∧ OperandsReady s t q l ∧ SlotReady s 0 cap0 3 ((q.a.cols + 31) / 32 * mostShared l) true ∧ l = [(1, 127)] ∧
     operandFault s t opA opB = none ∧ (s.proc 0).q.reply.length < 64 ∧ (s.proc 0).coh.acks = []) := by
  refine ⟨?_, ?_⟩
  · intro s t q l
    have k := gathered_ready s t q l (by decide +kernel) (by decide +kernel) (by decide +kernel) (by decide +kernel) (by decide +kernel)
      (by decide +kernel)
    have r : slotOf s 0 0 3 = none := by decide +kernel
    refine ⟨ready_iff _ _ (by decide +kernel), by decide +kernel, by decide +kernel, by decide +kernel, k.1, k.2,
      ⟨by decide +kernel, fun b h => ?_, by decide +kernel⟩, by decide +kernel, by decide +kernel, by decide +kernel, by decide +kernel,
      by decide +kernel⟩
    exact absurd (r.symm.trans h) (by simp)
  · intro g s t q l
    have k := gathered_ready s t q l (by decide +kernel) (by decide +kernel) (by decide +kernel) (by decide +kernel) (by decide +kernel)
      (by decide +kernel)
    have r : slotOf s 0 0 3 = none := by decide +kernel
    refine ⟨by decide +kernel, by decide +kernel, by decide +kernel, by decide +kernel, by decide +kernel, k.1, k.2,
      ⟨by decide +kernel, fun b h => ?_, by decide +kernel⟩, by decide +kernel, by decide +kernel, by decide +kernel, by decide +kernel⟩
    exact absurd (r.symm.trans h) (by simp)

theorem test_hyp_AccumulatorSlots :
    (let a (r : BitVec 2) : Acc := { Acc.zero with sum := 5, res := r }
     let sl (cnt : Nat) (e : BitVec 10) (r : BitVec 2) : Slot := { slot3 false false cnt with e := e, el := [(7, a r)] }
     let s := onPress [(9, some (sl 32768 511 2))]
     ready s true = true ∧ slotOf s 0 0 3 = some (sl 32768 511 2) ∧ slotOf s 0 0 4 = none ∧
     writeAllowed s cap0 (slotOf s 0 0 3) false = true ∧ writeAllowed s cap0 (some { sl 0 0 2 with btag := 1 }) false = false ∧
     -- PREL of a carried slot in a brick with RST, and otherwise
     (slot3 true false 0).carried = true ∧ (sl 0 0 2).carried = false ∧
     ({ brickOf 0 with rst := true } : Brick).rst = true ∧
     -- PSCL: exponents at the edge of the range and past it; counts of 65,536 and past it
     (-512 ≤ (511 : BitVec 10).toInt + 0 ∧ (511 : BitVec 10).toInt + 0 ≤ 511 ∧ ¬ (511 : BitVec 10).toInt + 1 ≤ 511 ∧
      ¬ -512 ≤ (512 : BitVec 10).toInt - 1) ∧ (32768 * 2 ^ 1 ≤ 65536 ∧ 65536 < 32769 * 2 ^ 1) ∧
     -- residues: sound, and not
     (a 2).resOk = true ∧ (a 1).resOk = false ∧ (sl 0 0 1).el = [] ++ (7, a 1) :: [] ∧ (slot3 false true 0).pz = true ∧
     SMap.wf Acc.zero (sl 0 0 2).el = true ∧
     -- PADD: exponents equal and lower
     ((0 : BitVec 10).toInt ≤ (0 : BitVec 10).toInt ∧ (1023 : BitVec 10).toInt < (0 : BitVec 10).toInt)) ∧
    -- PRES, PSTR and PLDR
    (let h : Handle := H.put (H.put (H.put (H.make 0xFFE0000002000 10 2 0 false) 64 16 2) 80 16 2) 128 24 2
     let raw : Handle := H.make 0xFFE0000000000 20 1 0 false
     let s := onPress []
     let t := pressJob s 0 cap0
     let v := viewOf t.fmts s t.who h
     (seqr s 0 true).rows = 0 ∧ (seqr s 0 true).writing = none ∧ (seqr s 0 true).resumed = false ∧ s.fl.remotes = [] ∧
     (seqr (modSeqr s 0 true fun q => { q with resumed := true }) 0 true).resumed = true ∧
     (H.rank h = 2 ∧ v.cols ≤ 128 ∧ v.rows ≤ 128 ∧ packed h v.cols v.bits = true) ∧ formatOver t.fmts s t.who (H.fmt h) v.runs = some 10 ∧
     formatOver t.fmts s t.who 0 v.runs ≠ some 10 ∧ formatOver t.fmts s t.who 20 [(0xFFE0000000000, 278528)] = some 20 ∧
     windowFails s t.who (v.checked s t.who) = none ∧ windowFails s t.who [(0xFFE00000BFFFE, 4)] = some 0xFFE00000BFFFE ∧
     onChip s t.who v.runs = true ∧ s.mem.poison = [] ∧ Acc.zero.resOk = true ∧
     H.rankOk raw = true ∧ H.rankOk (H.put raw 57 3 0) = false ∧ (H.base raw).toNat % 128 = 0 ∧ 0xFFE0000000040 % 128 ≠ 0 ∧
     -- an image that ends at the scratchpad's last byte, and one sector later
     windowKey s t.who (0xFFE0000000000 + 0xC0000 - 278528) 278528 ≠ none ∧
     windowKey s t.who (0xFFE0000000000 + 0xC0000 - 278528 + 128) 278528 = none ∧
     windowFails s t.who (bankRuns 16 0xFFE0000000000 278528) = none ∧
     onChip s t.who (bankRuns 16 0xFFE0000000000 278528) = true ∧ writeAllowed s cap0 none true = true ∧
     writeAllowed s { cap0 with tag := 5 } none true = false ∧
     -- an element as PLDR takes it
     s.mem.read (chipKey s t.who 0xFFE0000000000 1 + 262144 + 16383) 1 < 32 ∧ (0 : Nat) = ((0 : BitVec 64).toInt % 3).toNat) := by
  decide +kernel

/-! ## Statements about hods and tiles -/

/-- The load hod of core 0 at an entry of a chain, its charge paid. -/
def onHod (f : Hod → Hod) : State :=
  let s := modHod (withBrick id) 0 false fun h => f { h with cap := some cap0, phase := .paid, addr := 0xFFE0000000040, fmts := some Formats.reset }
  { s with actor := .hod 0 false }

/-- Entry headers: scope, P kind, W kind, posts, waits; counter 7, value 2, amount 3. -/
def hdr (sc : BitVec 3) (pk wk pe we : Bool) : HodHdr :=
  ⟨sc, pk, wk, pe, we, if we then 7 else 0, if pe then 7 else 0, if we then 2 else 0, if pe then 3 else 0⟩

/-- A descriptor of 3 by 2 elements. -/
def desc (base : Nat) (fmt : BitVec 5) : Desc := ⟨BitVec.ofNat 52 base, fmt, 2, 3, 2, 0, 1, 8, 0⟩

theorem hodReady (s : State) (h : s.actor = .hod 0 false ∧ (hodOf s 0 false).cap = some cap0 ∧ (hodOf s 0 false).phase = .paid ∧
    (hodOf s 0 false).fmts.isSome = true ∧ (hodOf s 0 false).hphase = .body) : HodReady s 0 false cap0 :=
  { unit := h.1, command := h.2.1, paid := h.2.2.1, started := h.2.2.2.1, body := h.2.2.2.2 }

theorem test_hyp_ChainStartsAndWaits :
    (let c : Cmd := .chain cap0 0x9000 (some 5) (some 7)
     let s := (withBrick id).modQ 0 fun q => { q with hlq := [c] }
     (hodOf s 0 false).cap = none ∧ engineQueue (s.proc 0).q .hl = [c] ∧ pushReleased s cap0 = true ∧ 255 < 256 ∧
     pushReleased (s.modFl fun f => { f with remotes := [waitsFor3] }) cap0 = false ∧
     engineQueue ((withBrick id).proc 0).q .hl = [] ∧ tokens (s.proc 0).q 5 = [] ∧
     tokens ((s.modQ 0 fun k => setTokens k 5 [7]).proc 0).q 5 = [7] ∧
     (let t := onHod fun h => { h with hphase := .token }
      (hodOf t 0 false).hphase = .token ∧ (hodOf t 0 false).stop = none ∧ (hodOf t 0 false).cap = some cap0)) ∧
    (let s := onHod fun h => { h with hphase := .entry, islot := some 0 }
     let i : Instr := .hgath (hdr 2 false false false true) (desc 0xFFE0000002000 10) (desc 0xFFC0000003000 10) 0 5 0xFFF
     (hodForm i).isSome = true ∧ s.actor = .hod 0 false ∧ (hodOf s 0 false).cap = some cap0 ∧ (hodOf s 0 false).phase = .paid ∧
     (hodOf s 0 false).hphase = .entry ∧ (hodOf s 0 false).fmts.isSome = true ∧
     (hodOf (modHod s 0 false fun q => { q with fmts := none }) 0 false).fmts = none ∧ (hodOf s 0 false).waitdone = false ∧
     -- waits: a slot counter at its value and one below; value 0; a semaphore with 2 and with 1; waiters
     (2 + 2 ^ 16 - 2) % 2 ^ 16 < 2 ^ 15 ∧ ¬ (1 + 2 ^ 16 - 2) % 2 ^ 16 < 2 ^ 15 ∧ (hdr 2 false true false true).wk = true ∧
     (hdr 2 false false false true).we = true ∧ (hdr 2 false false false true).wval ≠ 0 ∧ (hdr 2 false false false true).wctr ≠ 0 ∧
     { hdr 2 false false false true with wval := 0 }.wval = 0 ∧ (hdr 2 false false false false).we = false ∧
     (s.proc 0).semq = [] ∧ (hdr 2 false false false true).wval.toNat ≤ 2 ∧ 1 < (hdr 2 false false false true).wval.toNat ∧
     (let me := some (0, Eng.hl)
      let w (g : Bool) : State := s.modProc 0 fun v => { v with semq := [⟨7, me, 2, g⟩] }
      ((w true).proc 0).semq.find? (fun w => w.who == me) = some ⟨7, me, 2, true⟩ ∧
      ((w false).proc 0).semq.find? (fun w => w.who == me) = some ⟨7, me, 2, false⟩) ∧
     -- the source tile: of another context, not there yet, and there
     copyPending s 0 0 5 = none ∧ (5 : Nat) ≠ 0xFFF ∧
     (let t (st : BitVec 2) (x : Nat) : Tile := (s.modCluster 0 fun c => { c with tiles := [(5, ⟨st, x, 1, 0⟩)] }).tile 0 5
      (t 2 1).st ≠ 0 ∧ (t 2 1).ctx ≠ cap0.ctx ∧ (s.tile 0 5).st = 0 ∧ (t 1 0).st = 1 ∧ (t 1 0).ctx = cap0.ctx ∧ (t 2 0).st = 2 ∧
      (t 3 0).st = 3)) := by decide +kernel

/-- What a tile entry makes of an event. -/
def tileGives (t : Tile) (e : TileEvent) : Nat :=
  match tileStep t 0 e with
  | .ok _ => 0
  | .refused => 1
  | .wait => 2

theorem test_hyp_ControlEntriesAndPosts :
    (let s := onHod fun h => { h with hphase := .body }
     (s.actor = .hod 0 false ∧ (hodOf s 0 false).cap = some cap0 ∧ (hodOf s 0 false).phase = .paid ∧
      (hodOf s 0 false).fmts.isSome = true ∧ (hodOf s 0 false).hphase = .body) ∧
     (hdr 2 true false true false).pe = true ∧ (hdr 2 true false true false).pk = true ∧ (hdr 2 false false false false).pe = false ∧
     (hdr 2 false false true false).pk = false ∧
     windowKey s (Chain.of s 0 false cap0).who 0xF000000000000 1 = none ∧
     (windowKey s (Chain.of s 0 false cap0).who 0xFFE0000000000 1).isSome = true ∧
     (s.cluster 0).heldTiles = [] ∧ copyPending s 0 0 5 = none ∧ (3 : BitVec 52).toNat ≤ 3) ∧
    -- tile entries: each state, claims at 1, 255 and met
    ((⟨2, 1, 0, 0⟩ : Tile).ctx ≠ 0 ∧ tileGives ⟨0, 0, 0, 0⟩ .draining = 2 ∧ tileGives ⟨1, 0, 2, 1⟩ .filling = 0 ∧
     tileGives ⟨1, 0, 255, 0⟩ .filling = 1 ∧ tileGives ⟨1, 0, 254, 0⟩ .filling = 0 ∧ tileGives ⟨1, 0, 2, 2⟩ .ready = 1 ∧
     tileGives ⟨1, 0, 2, 0⟩ .ready = 0 ∧ tileGives ⟨2, 0, 0, 0⟩ .draining = 0 ∧ tileGives ⟨3, 0, 0, 0⟩ .empty = 0) := by decide +kernel

/-- HOD.POST: each thing owed, on its own, and writes or remote accesses still out. -/
theorem test_hyp_HodPost :
    (let h := hdr 3 true false true false
     let s (f : Hod → Hod) : State := onHod fun q => f { q with hphase := .post }
     let o := hodOf (s fun q => { q with post := some (h, 0, none) }) 0 false
     o.hphase = .post ∧ o.stop = none ∧ o.delta = none ∧ o.tile = none ∧ o.post = some (h, 0, none) ∧
     (hodOf (s fun q => { q with delta := some (5, 1, 2) }) 0 false).delta = some (5, 1, 2) ∧
     (hodOf (s fun q => { q with tile := some (0, 5) }) 0 false).tile = some (0, 5) ∧
     (hodOf (s fun q => { q with post := some (h, 9, some 3) }) 0 false).post = some (h, 9, some 3) ∧
     (hodOf (s fun q => { q with stop := some 5 }) 0 false).stop.isSome = true ∧ ((s id).proc 0).coh.acks = [] ∧ (s id).fl.remotes = [] ∧
     (((s id).modCoh 0 fun c => { c with acks := [3] }).proc 0).coh.acks ≠ [] ∧ (s id).fl.subs = [] ∧
     (waitsFor3.core = 0 ∧ waitsFor3.host = false) ∧ { h with pk := false }.pk = false ∧
     -- a post of the hod that is out counts for no write
     (let r : Remote := { waitsFor3 with eng := some .hl, kind := 4 }
      ¬ (r.q = 0 ∧ r.eng = some .hl ∧ r.kind ≠ 4)) ∧
     tileGives ⟨1, 0, 1, 0⟩ .ready = 0 ∧ ((s id).cluster 0).heldTiles = []) := by decide +kernel

/-- What an entry's checks give. -/
def okE {α : Type} (r : Except (Cause × Nat) α) (f : α → Bool) : Bool :=
  match r with
  | .ok x => f x
  | .error _ => false

/-- Two 32-bit indices in the own scratchpad. -/
def indices : Desc := { desc 0xFFE0000004000 6 with rank := 1, size0 := 2, size1 := 0, stride1 := 0 }

theorem test_hyp_CopyingEntries :
    (let s := (onHod fun h => { h with hphase := .body, islot := some 0 }).modCtx 0 fun c => { c with
       regions := [(5, { Region.reset with v := true, base := 0xFFC0000003000, len := 0x1000 })] }
     let t := Chain.of s 0 false cap0
     let src := desc 0xFFE0000002000 10
     let dst := desc 0xFFC0000003000 11
     (s.actor = .hod 0 false ∧ (hodOf s 0 false).cap = some cap0 ∧ (hodOf s 0 false).phase = .paid ∧
      (hodOf s 0 false).fmts.isSome = true ∧ (hodOf s 0 false).hphase = .body) ∧
     -- equal counts, and not; checks that pass and fail
     descCount src = descCount dst ∧ descCount src ≠ descCount { dst with size0 := 4 } ∧
     meets s (do
       let (a, b) ← copyPair t src dst (List.range 6) (List.range 6)
       return onChip s t.who ((a.el.flatMap fun e => elementRuns e (hodBits e.fmt)) ++ b.el.flatMap fun e => elementRuns e b.bits) &&
         (a.el.all fun e => e.fmt == 10) && (b.el.all fun e => e.fmt == 11)) = true ∧
     meets s (do let _ ← copyPair t { src with base := 0xF000000000000 } dst (List.range 6) (List.range 6); return true) = false ∧
     s.mem.poison = [] ∧ s.fl.remotes = [] ∧ (s.brick cap0.core cap0.tag).isSome = true ∧ meets s (do claimTile t 0xFFF dst.base.toNat; return true) = true ∧
     meets (s.modCluster 0 fun c => { c with tiles := [(5, ⟨2, 1, 0, 0⟩)] }) (do claimTile t 5 dst.base.toNat; return true) = false ∧
     okE (tensorOf t s dst (List.range 6) 0) (fun b => onChip s t.who (b.el.flatMap fun e => elementRuns e b.bits) && b.el.length == 6) = true ∧
     okE (tensorOf t s { dst with fmt := 31 } (List.range 6) 0) (fun _ => true) = false ∧
     -- the region of an HCPYD holds the destination, or ends before it; untyped elements
     ((s.ctx 0).region 5).v = true ∧ ((s.ctx 0).region 5).base.toNat ≤ dst.base.toNat ∧ dst.base.toNat + 32 ≤ 0xFFC0000003000 + 0x1000 ∧
     ((s.ctx 0).region 6).v = false ∧
     okE (tensorOf t s { dst with fmt := 20 } (List.range 6) 0) (fun b => b.el.any fun e => e.fmt == 20 || e.fmt == 0) = true) ∧
    -- HGATH: an index slot of two 32-bit indices, of the last row, the null index, and the first row past it
    (let s := onHod fun h => { h with hphase := .body, islot := some (indices.word.setWidth 512 <<< 64) }
     let t := Chain.of s 0 false cap0
     (indexDesc ((hodOf s 0 false).islot.getD 0)).isSome = true ∧
     (match indexDesc ((hodOf s 0 false).islot.getD 0) with
      | some ix => okE (tensorOf t s ix [0, 1] 0) fun x => x.fmt == 6 && x.el.length == 2 && onChip s t.who (x.el.flatMap fun e => elementRuns e x.bits)
      | none => false) = true ∧
     onChip s t.who [(0xFFC0000003000, 1)] = true ∧ (0 : Nat) < 2 ∧ 2 ^ 32 - 1 = 0xFFFFFFFF) := by decide +kernel

/-- How reading the index slot of an HGATH ends. -/
def slotEnd (s : State) : Nat :=
  match readIndexSlot (Chain.of s 0 false cap0) s with
  | .ok _ _ => 0
  | .error (.fault _ _ _ _) _ => 1
  | .error (.wait _) _ => 2

/-- The index slot is read and good; is ill-formed; lies on a page of module 3. -/
theorem test_hyp_CopyingEntries_slot :
    let s (a : Nat) : State := onHod fun h => { h with hphase := .body, addr := a, islot := none }
    let w := indices.word.toNat
    let t := Chain.of (s 0xFFE0000000040) 0 false cap0
    let put (k : Nat) (s : State) : State := s.modMem fun m => (m.write (chipKey s t.who 0xFFE0000000080 64 + 8) 8 (w % 2 ^ 64)).write
      (chipKey s t.who 0xFFE0000000080 64 + 16) 16 (w / 2 ^ 64 + k)
    (hodOf (s 0) 0 false).islot = none ∧ slotEnd (put 0 (s 0xFFE0000000040)) = 0 ∧ slotEnd (put (2 ^ 127) (s 0xFFE0000000040)) = 1 ∧
    slotEnd ((s (2 * 2 ^ 40)).modCtx 0 fun c => { c with member := 8 }) = 2 := by decide +kernel

/-- A subscriber of core 9's hod. -/
def sub9 (core : Nat) (since : Word) (by_ : Option (Nat × Bool)) (vals : Option (List (Nat × Nat × Option Nat))) (done : Bool)
    (failed : Option (BitVec 8 × Nat)) : Subscriber := ⟨core, false, 0, desc 0xFFE0000002000 10, 16, since, by_, vals, done, failed⟩

theorem test_hyp_MulticastsAndHalos :
    (let s (l : List Subscriber) : State := (onHod fun h => { h with hphase := .body }).modFl fun f => { f with subs := l }
     let src := desc 0xFFE0000002000 10
     let dst := desc 0xFFC0000003000 11
     let t := Chain.of (s []) 0 false cap0
     ((s []).actor = .hod 0 false ∧ (hodOf (s []) 0 false).cap = some cap0 ∧ (hodOf (s []) 0 false).phase = .paid ∧ (hodOf (s []) 0 false).fmts.isSome = true ∧
      (hodOf (s []) 0 false).hphase = .body) ∧
     -- HMCS: counts, no subscription yet, one that waits, one served, one that failed
     descCount src ≠ descCount { dst with size1 := 3 } ∧ descCount src = descCount dst ∧
     okE (tensorOf t (s []) dst (List.range 6) 0) (fun b => b.fmt != 0 && (b.el.all fun e => e.fmt != 20) &&
       onChip (s []) t.who (b.el.flatMap fun e => elementRuns e b.bits)) = true ∧
     (s []).fl.subs = [] ∧ baseFormat t (s []) src = some 10 ∧ baseFormat t (s []) dst = some 11 ∧
     baseFormat t (s []) { dst with fmt := 20 } = some 20 ∧ (s []).fl.remotes = [] ∧
     (let l := [sub9 0 5 none none false none]
      ((s l).fl.subs.find? fun u => u.core == 0 && u.hs == false && !u.done) = some (sub9 0 5 none none false none)) ∧
     (sub9 0 5 none (some [(10, 0x3C00, none)]) false none).vals = some [(10, 0x3C00, none)] ∧ (10 ≠ 20 ∧ 0x3C00 < 2 ^ 128) ∧
     (sub9 0 5 none none false (some (7, 0))).failed = some (7, 0) ∧ meets (s []) (do claimTile t 0xFFF dst.base.toNat; return true) = true ∧
     -- HMSRC: two of three subscribers, in order of time; too few; the writes of those taken done, and not
     (let l := [sub9 9 5 none none false none, sub9 10 3 none none false none, sub9 11 9 none none false none]
      ((s l).fl.subs.filter fun u => u.by_.isNone && u.vals.isNone && u.ctx == 0 && u.key == src && u.failed.isNone).length = 3 ∧ 3 < (4 : BitVec 52).toNat ∧
      (2 : BitVec 52).toNat ≤ 3 ∧ 0 < (2 : BitVec 52).toNat ∧ (l.all fun u => !u.done) = true ∧
      (l.map fun u => (u.core, u.hs)).Nodup ∧ (l.any fun u => u.by_ == some (0, false)) = false) ∧
     okE (tensorOf t (s []) src (List.range 6) 0) (fun a => (a.el.all fun e => e.fmt != 20) &&
       onChip (s []) t.who (a.el.flatMap fun e => elementRuns e a.bits)) = true ∧
     -- what a subscriber of other width sees, and one of none
     okE (tensorOf t (s []) src (List.range 6) 8) (fun a => a.fmt == 10 && a.el.length == 6) = true ∧ (s []).mem.poison = [] ∧
     (hodOf (s []) 0 false).served = false ∧ (hodOf (modHod (s []) 0 false fun h => { h with served := true }) 0 false).served = true ∧
     (sub9 9 5 (some (0, false)) none false none).by_ = some (0, false) ∧ (sub9 9 5 (some (0, false)) none true none).done = true) := by decide +kernel

/-- HHALO: to a page of module 3, and to one of this module; with and without a region. -/
theorem test_hyp_Halos :
    (let s := (onHod fun h => { h with hphase := .body }).modCtx 0 fun c => { c with member := 8 }
     let t := Chain.of s 0 false cap0
     let src := desc 0xFFE0000002000 10
     let places (va : Nat) (f : List Placed → Bool) : Bool := meets s (do
       let (a, b) ← copyPair t src (desc va 11) (List.range 6) (List.range 6)
       let (ps, bad) ← placeMoves t.who (copyMoves a b)
       return bad.isNone && f ps && onChip s t.who (a.el.flatMap fun e => elementRuns e (hodBits e.fmt)))
     places (2 * 2 ^ 40) (fun ps => ps.all fun p => match p.dst with
       | [d] => d.1.kind == .remote && d.1.peer == 3
       | _ => false) = true ∧
     places 0x3000 (fun ps => ps.any fun p => p.dst.any fun d => d.1.kind != .remote) = true ∧
     (s.proc 0).coh.rbuf = [] ∧ s.fl.remotes = [] ∧ s.mem.poison = [] ∧ (hdr 3 false false false false).pk = false ∧
     -- of a measured halo: typed and untyped destinations, the brick, and every element's answer there
     (5 : BitVec 10) ≠ 0x3FF ∧ (s.brick cap0.core cap0.tag).isSome = true ∧
     okE (tensorOf t s { src with fmt := 20 } (List.range 6) 0) (fun b => b.el.any fun e => e.fmt == 20) = true ∧
     places (2 * 2 ^ 40) (fun ps =>
       let got : List (Option Eng × Nat × Option Answer) := ps.filterMap fun p => p.dst.head?.map fun d =>
         (some (hodEng false), Attr.tag ⟨0, 0, 2 * p.m.n, none⟩ 0 d.1, some ⟨[0], none, false⟩)
       got.length == 6 && ((s.modCoh 0 fun c => { c with rbuf := got }).proc 0).coh.rbuf == got) = true ∧ leN [0] ≠ 3 ∧ leN [0] ≠ 4) := by
  decide +kernel


/-! ## Statements about what units and the Mason do between instructions -/

/-- An access of the Vector engine of core 0 that is still out at module 3. -/
def veWaits : Remote := { waitsFor3 with eng := some .ve }

/-- Core 0 with a brick, changed by f. -/
def proc0 (f : Proc → Proc) : State := (withBrick id).modProc 0 f

/-- Its Vector sequencer changed by f. -/
def ve0 (f : Sequencer → Sequencer) : State := proc0 fun v => { v with eng := { v.eng with ve := f v.eng.ve } }

/-- Its Vector queue holds l, and there is a ring. -/
def veq (l : List Cmd) : State := (proc0 fun v => { v with q := { v.q with veq := l } }).modVE 0 fun v => { v with vring := 5 }

theorem test_hyp_EngineEvents :
    -- acknowledgements
    ((proc0 fun v => { v with coh := { v.coh with acks := [3, 4] } }).proc 0).coh.acks = [3, 4] ∧ ((proc0 id).proc 0).coh.acks = [] ∧
    -- starts: idle or not; by core or Press; pushed or not; a ring or none; 0 and 8 handles
    (((veq []).proc 0).eng.ve.cap = none ∧ ((veq []).proc 0).eng.ve.serving = none ∧
     ((ve0 fun g => { g with cap := some cap0 }).proc 0).eng.ve.cap ≠ none ∧
     (((proc0 id).modPress 0 fun p => { p with holder := some 0 }).cluster 0).press.holder = some (0 % 4) ∧
     ((proc0 id).cluster 0).press.holder ≠ some (0 % 4) ∧
     engineQueue ((veq [.kick cap0 3 4 [1, 2], .marker 0]).proc 0).q .ve = .kick cap0 3 4 [1, 2] :: [.marker 0] ∧
     engineQueue ((veq [.nest cap0 6 ⟨1, 2⟩]).proc 0).q .ve = .nest cap0 6 ⟨1, 2⟩ :: [] ∧
     pushReleased (proc0 id) cap0 = true ∧ (proc0 id).fl.remotes = [] ∧
     ((proc0 id).modFl fun f => { f with remotes := [waitsFor3] }).fl.remotes = [waitsFor3] ∧
     (waitsFor3.core = cap0.core ∧ waitsFor3.eng = none) ∧
     (ringDesc (veq []) 0 false).toNat % 16 ≠ 0 ∧ (List.replicate 8 (0 : Handle)).length ≤ 8) := by decide +kernel

theorem test_hyp_EngineEvents_raises_and_markers :
    -- raises and pushes owed, with the writes done, and with one out; a full queue
    (((ve0 id).proc 0).eng.ve.raise = none ∧ ((ve0 fun g => { g with raise := some 9 }).proc 0).eng.ve.raise = some 9 ∧
     veWaits.q = 0 ∧ veWaits.eng = some .ve ∧
     owedToken (ve0 id) 0 .ve = none ∧ owedToken (ve0 fun g => { g with push := some 4 }) 0 .ve = some 4 ∧
     owedToken (proc0 fun v => { v with eng := { v.eng with hl := { v.eng.hl with hphase := .finish, qpush := some 4 } } }) 0 .hl = some 4 ∧
     (SMap.get [] ((proc0 id).proc 0).q.tq 4).length < 64 ∧
     64 ≤ (SMap.get [] ((proc0 fun v => { v with q := { v.q with tq := [(4, List.replicate 64 0)] } }).proc 0).q.tq 4).length) ∧
    -- markers: of a free engine, one behind a write, one behind a post, the Press held by another and with work of the core
    (engineQueue ((veq [.marker 0]).proc 0).q .ve = .marker 0 :: [] ∧ engineCap ((proc0 id).proc 0) .ve = none ∧ (proc0 id).fl.posts = [] ∧
     ((proc0 id).proc 0).ctxOf = some 0 ∧ (⟨.core 0, 9, 0, 1, 3, 4⟩ : Post).ctx = 0 ∧ ((proc0 id).cluster 0).press.gathered = [] ∧
     -- a gathered command pushed before the marker of number 4, and one after it
     (let g (no : Nat) : Gathered := ⟨no, cap0, none, true, 3, 4, 5, 6, 7⟩
      (g 3).cap.core = 0 ∧ ¬ 4 ≤ (g 3).no ∧ 4 ≤ (g 4).no)) := by decide +kernel

/-- An item of the Vector engine before its charge, with a gap of 20 ns, at 100 ns. -/
def paced (last : Option Word) (why : Nat) : State :=
  (((ve0 fun g => { g with phase := .fresh, last := last }).modProc 0 fun v => { v with stall := [(1, why)] }).modCC 0
    fun c => { c with pace := [(0, 20)] }).modMod fun m => { m with gts := 100 }

/-- No item before it; one whose gap ends now; one a nanosecond before; one that is stalled for another cause. -/
theorem test_hyp_EngineEvents_pacing :
    pacedItem (paced none 0x12) 0 .ve = some (.fresh, none, 0) ∧ SMap.get 0 ((paced none 0x12).proc 0).stall (unitKey (some .ve)) = 0x12 ∧
    SMap.get 0 ((paced none 5).proc 0).stall (unitKey (some .ve)) ≠ 0x12 ∧
    pacedItem (paced (some 80) 0x12) 0 .ve = some (.fresh, some 80, 0) ∧
    (SMap.get 0 ((paced none 0x12).cc 0).pace (paceKey .ve)).toNat = 20 ∧
    (80 : Word).toNat + 20 ≤ (paced none 0x12).gts ∧ ¬ (81 : Word).toNat + 20 ≤ (paced none 0x12).gts := by decide +kernel

/-- A graph of context 0 in flight whose OBs are as given. -/
def flying (l : List (Nat × Ob)) : Graph := ⟨1, 0, 0x8000, 0x9000, 0xA000, 4, false, false, true, l⟩

/-- An OB that waits for nothing. -/
def obNew : Ob := { Ob.reset with status := .pending, retired := false, left := 2 }

/-- Context 0 with that graph, its OB 0 in memory: bounds 2 by 3, the control word given, no reuse. -/
def withOb (o : Ob) (bound : Nat) (ctl : Nat) : State :=
  let m := (List.range 6).foldl (fun (m : Memory) k => m.write (0x8080 + 2 * k) 2 (if k = 0 then bound else if k = 1 then 3 else 1)) two.mem
  let m := (m.write 0x80A0 8 ctl).write 0x80AA 2 0xFFFF
  let s : State := { two with mem := m }
  s.modCtx 0 fun c => { c with graphs := [flying [(0, o)]] }

/-- Placement SPREAD, priority 3, 2 slots, at most 9 us. -/
def ctl9 : Nat := 2 ^ 36 + 3 * 2 ^ 33 + 2 * 2 ^ 52 + 9 * 2 ^ 56

theorem test_hyp_BlocksAndDispatch :
    -- an OB whose counter is 0, and others
    (let g (o : Ob) : Graph := flying [(0, o)]
     let s := withOb obNew 2 ctl9
     let bytes (s : State) : List Byte := bytesN 184 (s.mem.read 0x8000 184)
     s.graph 0 0x8000 = some (g obNew) ∧ obWaits s 0 (g obNew) 0 = true ∧ s.graph 0 0x8100 = none ∧
     obWaits s 0 (g { obNew with dep := 1 }) 0 = false ∧ obWaits s 0 (g obNew) 1 = false ∧ (g obNew).obt + 256 * 0 = 0x8000 ∧
     { obNew with pf := true }.pf = true ∧ obNew.pf = false ∧
     obWaits (withOb { obNew with pf := true } 2 ctl9) 0 (g { obNew with pf := true }) 0 = true ∧
     rangePoisoned s.mem 0x8000 184 = false ∧ rangePoisoned (s.mem.setPoison 0x101 true) 0x8000 184 = true ∧
     (rowCtl s 0).getLsbD (16 + obCtl (bytes s) / 2 ^ 48 % 16) = false ∧ obRidx (bytes s) = 0xFFFF ∧
     (let t := (withOb obNew 2 (ctl9 + 2 ^ 48)).modStepper 2 fun _ => { Stepper.reset with st := .run, stepOpen := true, ctl := 0x20000 }
      let u := t.modCtx 0 fun c => { c with d := { c.d with seqv := true, seq := 2 } }
      let v := u.modCtx 1 fun c => { c with d := { c.d with seqv := false } }
      (rowCtl v 0).getLsbD (16 + obCtl (bytes v) / 2 ^ 48 % 16) = true) ∧
     obBad (bytes s) = false ∧ obBad (bytes (withOb obNew 2 (ctl9 + 2))) = true ∧ obCtl (bytes s) % 2 = 0 ∧
     (let e := withOb obNew 2 (ctl9 + 1)
      obBad (bytes e) = false ∧ obCtl (bytes e) % 2 = 1) ∧ (3 : Nat) ∈ partClusters s 0 ∧
     -- a Walker: nothing to place, a brick before the last and the last, a queue with room for one, full, and no cluster named
     (let w (n : Nat) : WalkJob := ⟨0, 0x8000, 0, 0, n, 6⟩
      let o : Ob := { obNew with status := .ready, copy := bytes s }
      let t (l : List Brick) : State := (withOb o 2 ctl9).modCluster 2 fun c => { c with walk := [w 4], brickq := l }
      ((t []).cluster 1).walk = [] ∧ ((t []).cluster 2).walk = w 4 :: [] ∧ (t []).graph 0 0x8000 = some (g o) ∧
      placeCluster (t []) 0 (obCtl o.copy) (obField o.copy 0 32) (brickCoord (obBounds o.copy) 4) 4 = some 0 ∧
      placeCluster (t []) 0 (2 * 2 ^ 36 + 9 * 2 ^ 38) 0 0 5 = none ∧ o.anyPoison = false ∧ ((t []).ctx 0).d.fmode = false ∧
      ((t (List.replicate 511 (brickOf 0))).cluster 2).brickq.length < 512 ∧
      512 ≤ ((t (List.replicate 512 (brickOf 0))).cluster 2).brickq.length ∧ o.status = .ready ∧ 4 + 1 < (w 4).total ∧ ¬ 5 + 1 < (w 5).total)) ∧
    -- dispatch: a core that waits in BPOP, an idle one, one that wants none; candidates and none
    (let q (l : List Brick) (s : State) : State := s.modCluster 0 fun c => { c with brickq := l }
     let b : Brick := { brickOf 0 with ctx := 0, graph := 0x8000 }
     let w := (onCC 0 id).modProc 0 fun v => { v with stall := [(0, bpopWait + 1)] }
     let cands (s : State) (p : Nat) : List Brick := (s.cluster 0).brickq.filter (eligible s p)
     wantsBrick (onCC 0 id) 0 = false ∧ wantsBrick w 0 = true ∧ (w.proc 0).ctxOf = some 0 ∧ wantsBrick two 0 = true ∧
     (two.proc 0).ctxOf = none ∧ two.savedOf 0 0 = none ∧ cands two 0 = [] ∧ cands (q [b] two) 0 = [b] ∧
     cands (q [b, { b with ctx := 1 }] w) 0 = [b, { b with ctx := 1 }]) := by decide +kernel

theorem test_hyp_BrickEvents :
    let b (st : BrickState) (pm rst : Bool) : BrickReg := ⟨{ brickOf 0 with ctx := 0, graph := 0x8000, primary := 0, rst := rst, maxd := 9 }, st, pm, 0, 0, false, [], []⟩
    let s (r : BrickReg) (o : Ob) : State := (withBrick id).modProc 0 (fun v => { v with bricks := [(2, some r)] }) |>.modCtx 0 fun c =>
      { c with graphs := [flying [(0, o)]] }
    -- a register: free, RUNNING, busy; RETIRING with two bricks left and with one; PARKED; POISON_MARK
    ((s (b .retiring false true) obNew).brick 0 3 = none ∧ (s (b .running false true) obNew).brick 0 2 = some (b .running false true) ∧
     (s (b .retiring false true) obNew).brick 0 2 = some (b .retiring false true) ∧ brickBusy (s (b .retiring false true) obNew) 0 2 = false ∧
     brickBusy ((s (b .retiring false true) obNew).modCoh 0 fun c => { c with acks := [3] }) 0 2 = true ∧
     (b .parked false true).st = .parked ∧ ((s (b .retiring false true) obNew).graph 0 0x8000).isSome = true ∧
     1 < ((s (b .retiring false true) obNew).ob 0 0x8000 0).left ∧
     ((s (b .retiring true true) { obNew with left := 1 }).ob 0 0x8000 0).left = 1 ∧
     ((s (b .retiring true true) { obNew with left := 1 }).ob 0 0x8000 0).retired = false ∧
     (⟨0, 0, 3, false, false, 2, 4, 0, []⟩ : Slot).core = 0 % 4) ∧
    -- deliveries: none, to a declared region, the last number, and to one that is not declared
    (let t (l : List Delivery) : State := ((s (b .running false true) obNew).modFl fun f => { f with deliveries := l }).modCtx 0 fun c =>
       { c with regions := [(5, { Region.reset with v := true, nr := 3, nep := 7 })] }
     (t []).fl.deliveries[0]? = none ∧ (t [⟨0, 0, 5, 9, 2 ^ 64 - 1⟩]).fl.deliveries[0]? = some ⟨0, 0, 5, 9, 2 ^ 64 - 1⟩ ∧
     (SMap.get Region.reset ((t []).ctx 0).regions 5).v = true ∧ (SMap.get Region.reset ((t []).ctx 0).regions 0x3FE).v = false ∧
     (0x3FE : Nat) < 0x3FF) ∧
    -- an overrun: none at 9,000 ns, one at 9,001 ns; every brick of the core may restart, and not
    (let t (g : Nat) (rst : Bool) : State := ((s (b .running false rst) obNew).modMod fun m => { m with gts := g }).modCtx 0 fun c =>
       { c with suspending := true }
     let late (s : State) (r : BrickReg) : Bool := r.st != .parked && decide (r.b.maxd.toNat * 1000 < s.gts - r.since.toNat)
     late (t 9000 true) (b .running false true) = false ∧ late (t 9001 true) (b .running false true) = true ∧
     late (t 9001 true) (b .parked false true) = false ∧ ((t 9001 true).ctx 0).suspending = true ∧ quiet (t 9001 true) 0 = true ∧
     quiet ((t 9001 true).modCoh 0 fun c => { c with acks := [3] }) 0 = false ∧ (b .running false true).pm = false ∧
     ((s (b .running false true) obNew).ctx 0).suspending = false ∧ { b .running false true with traced := true }.traced = true ∧
     (b .running false true).traced = false ∧
     (t 9001 true).brick 0 2 = some (b .running false true) ∧ ((t 9001 true).proc 0).run = .running 0 ∧
     (((t 9001 true).proc 0).liveBricks.all fun e => e.2.b.rst) = true ∧
     (((t 9001 false).proc 0).liveBricks.any fun e => !e.2.b.rst) = true) := by decide +kernel

/-- The sequencer 2 as given, of context 1, with a graph whose schedule is at 0xA000. -/
def onSeq (t : Stepper) (o : Ob) (w0 : Nat) : State :=
  let s := (two.modStepper 2 fun _ => { t with ctx := 1, graph := 0x8000 }).modCtx 1 fun c => { c with graphs := [flying [(0, o)]] }
  { s with mem := s.mem.write (0xA000 + 128 * t.done) 8 w0 }

theorem test_hyp_StepEvents :
    let t (f : Stepper → Stepper) : Stepper := f { Stepper.reset with st := .run, n := 5, done := 2, gr := 1 }
    let s (f : Stepper → Stepper) (o : Ob) (w0 : Nat) : State := onSeq (t f) o w0
    let retired (o : Ob) : Bool := ((s id o 0).ctx 1).graphs.all fun g => g.allRetired
    (((s id obNew 0).ctx 1).d.st = .active ∧ (((s id obNew 0).modCtx 1 fun c => { c with d := { c.d with st := .suspended } }).ctx 1).d.st ≠ .active ∧
     ((s (fun t => { t with st := .idle }) obNew 0).stepper 2).st = .idle ∧ ((s (fun t => { t with st := .pause }) obNew 0).stepper 2).st = .pause ∧
     -- HALT, with a stop asked for and not; an open step with an OB left and with none
     ((s (fun t => { t with st := .halt, srq := true }) obNew 0).stepper 2).srq = true ∧ retired Ob.reset = true ∧ retired obNew = false ∧
     ((s id obNew 0).ctx 1).graphs.all (fun g => g.counted) = true ∧
     ((s (fun t => { t with stepOpen := true }) Ob.reset 0).stepper 2).stepOpen = true ∧ (t id).done + 1 ≠ (t id).n ∧
     (t fun t => { t with done := 4 }).done + 1 = (t id).n ∧ (2 : Word).getLsbD 1 = true ∧ (1 : Word).getLsbD 1 = false) ∧
    -- rows: well formed, with PAUSE, with reserved bits, poisoned; a grant left and none
    (let w (w0 : Nat) : Word := BitVec.ofNat 64 ((s id Ob.reset w0).mem.read (0xA000 + 128 * 2) 8)
     ((s id Ob.reset 1).stepper 2).row = none ∧ ((s id Ob.reset 1).graph 1 0x8000).map (·.sched) = some 0xA000 ∧
     (w 1).toNat < 2 ^ 32 ∧ (w 1).toNat / 8 % 2 ^ 13 = 0 ∧ (s id Ob.reset 1).mem.read (0xA000 + 128 * 2 + 8) 8 = 0 ∧
     (w 4).getLsbD 2 = true ∧ (w 1).getLsbD 2 = false ∧ (w 8).toNat / 8 % 2 ^ 13 ≠ 0 ∧ (w (2 ^ 32)).toNat = 2 ^ 32 ∧
     rangePoisoned (s id Ob.reset 1).mem (0xA000 + 128 * 2) 128 = false ∧
     rangePoisoned ((s id Ob.reset 1).mem.setPoison 322 true) (0xA000 + 128 * 2) 128 = true ∧
     ((s (fun t => { t with gr := 0 }) Ob.reset 1).stepper 2).gr = 0 ∧ ((s id Ob.reset 1).stepper 2).gr ≠ 0) ∧
    -- opening: quiet or not, waiting for an answer or not, alone or with module 3
    (let row : List Word := List.replicate 16 1
     ((s (fun t => { t with row := some row }) Ob.reset 1).stepper 2).row = some row ∧ row.length = 16 ∧
     contextQuiet (s id Ob.reset 1) 1 = true ∧
     contextQuiet ((s id Ob.reset 1).modCluster 0 fun c => { c with brickq := [{ brickOf 0 with ctx := 1 }] }) 1 = false ∧
     spansModules (s id Ob.reset 1) 1 = false ∧ spansModules ((s id Ob.reset 1).modCtx 1 fun c => { c with member := 8 }) 1 = true ∧
     -- the answer is due within 10 ms
     (let r (g : Nat) : State := (s (fun t => { t with rdvSince := some 7 }) Ob.reset 1).modMod fun m => { m with gts := g }
      ((r 10000006).stepper 2).rdvSince = some 7 ∧ (r 10000006).gts - (7 : Word).toNat < 10000000 ∧
      10000000 ≤ (r 10000007).gts - (7 : Word).toNat ∧ ((s id Ob.reset 1).stepper 2).rdvSince = none)) := by decide +kernel

theorem test_hyp_ContextCommands :
    let s (st : CtxState) (f : Ctx → Ctx) : State := two.modCtx 1 fun c => f { c with d := { c.d with st := st } }
    let ok (f : Desc17 → Desc17) : Desc17 := ((s .free fun c => { c with d := f c.d }).ctx 1).d
    (((s .free id).ctx 1).d.st = .free ∧ ((s .idle id).ctx 1).d.st = .idle ∧ ((s .active id).ctx 1).d.st = .active ∧
     ((s .suspended id).ctx 1).d.st = .suspended) ∧
    -- a good descriptor, and each check at its boundary
    ((ok id).part ≠ 0 ∧ (ok fun d => { d with part := 0 }).part = 0 ∧ (ok id).lstq ≠ 0 ∧ (ok fun d => { d with lstq := 0 }).lstq = 0 ∧
     ¬ 6144 < (ok fun d => { d with lstb := 6128 }).lstb.toNat + (ok id).lstq.toNat ∧
     6144 < (ok fun d => { d with lstb := 6129 }).lstb.toNat + (ok id).lstq.toNat ∧ (ok id).share ≠ 0 ∧
     (ok fun d => { d with share := 0 }).share = 0 ∧ ¬ Config.hbmBytes < ((s .free id).ctx 1).saveb.toNat + 2 ^ 30 ∧
     Config.hbmBytes < ((s .free fun c => { c with saveb := BitVec.ofNat _ (2 ^ 45) }).ctx 1).saveb.toNat + 2 ^ 30 ∧
     ((List.range 16).all fun y => y == 1 || (two.ctx y).d.st == .free || (two.ctx y).d.asid != (ok id).asid) = true ∧
     ((List.range 16).all fun y => !((two.ctx y).d.seqv && y != 1)) = true ∧ (two.ctx 0).d.asid = 5) ∧
    -- SUSPEND: cores that hold the context and not; a core that is not ready; a core that may be aborted
    (let u : State := (s .active fun c => { c with suspending := true }).modProc 9 fun v => { v with run := .running 1 }
     ((s .active id).ctx 1).suspending = false ∧ (u.ctx 1).suspending = true ∧ (u.proc 9).ctxOf = some 1 ∧ (u.proc 9).heldBrick = none ∧
     coreReady u 9 = false ∧ ((s .active id).procs.all fun e => e.2.ctxOf != some 1) = true ∧
     (let v := (withBrick id).modProc 0 fun v => { v with bricks := [(2, some ⟨brickOf 0, .running, false, 0, 0, false, [], []⟩)] }
      hardEligible v 0 = (brickOf 0).rst ∧ { brickOf 0 with rst := true }.rst = true ∧ (v.proc 0).heldBrick = none) ∧
     (two.cluster 0).heldTiles = [] ∧ (2 : Nat) ∈ partClusters two 1) ∧
    -- RESUME: a copy whose entry is EMPTY; graphs with work left
    (let v := s .suspended fun c => { c with tileCopies := [(4096 * 2 + 7, ⟨2, 1, 0, 0⟩)], graphs := [flying [(0, obNew)]] }
     (SMap.get Tile.empty (v.ctx 1).tileCopies (4096 * 2 + 7)).st ≠ 0 ∧ (v.tile 2 7).st = 0 ∧ (v.cluster 2).heldTiles = [] ∧
     (v.ctx 1).graphs ≠ [] ∧ ((v.ctx 1).graphs.all fun g => g.ofSeq || g.held || !g.allRetired) = true) ∧
    -- DESTROY: a core and a lookup core of the context
    (let v := ((s .idle id).modProc 9 fun v => { v with run := .running 1 }).modLookup 3 fun l => { l with v := true, ctx := 1 }
     (v.proc 9).ctxOf = some 1 ∧ (v.lookup 3).v = true ∧ (v.lookup 3).ctx.toNat = 1) := by decide +kernel

/-! ## Statements about launches, power, time and management -/

theorem test_hyp_LaunchesAndRegisters :
    -- a descriptor's first word with its reserved bits 0, of a FREE context and of one that is not
    (0x1000 : Word).toNat / 2 ^ 28 % 16 = 0 ∧ (State.reset.ctx 0).d.st = .free ∧ (two.ctx 0).d.st ≠ .free ∧
    -- a capacity entry without V, one with V in its limits, one with V out of them
    (let half (v : Word) : BitVec 128 := v ++ (SMap.get 0 two.links.dir 255).setWidth 64
     (half 0).getLsbD 127 = false ∧ (half 0x8000000000000000).getLsbD 127 = true ∧ dirOk (half 0x8000000000000000) = false) ∧
    -- queue pairs in RESET, INIT, RTR, RTS and ERR; states 0 to 3, and above
    (let q (st : Nat) : State := two.modLinks fun l => { l with qps := SMap.set 0 l.qps 1023 (BitVec.ofNat 128 (256 * st)) }
     let was (st : Nat) : Nat := (SMap.get 0 (q st).links.qps 1023).toNat / 2 ^ 8 % 8
     was 0 = 0 ∧ was 1 ≠ 0 ∧ was 1 ≠ 2 ∧ was 2 = 2 ∧ was 3 ≠ 2 ∧ was 4 ≠ 0 ∧ (0x100 : Word).toNat / 2 ^ 8 % 8 = 1 ∧
     (0x200 : Word).toNat / 2 ^ 8 % 8 = 2 ∧ (0x300 : Word).toNat / 2 ^ 8 % 8 = 3 ∧ (0 : Word).toNat / 2 ^ 8 % 8 = 0 ∧
     5 ≤ (0x500 : Word).toNat / 2 ^ 8 % 8) := by decide +kernel

theorem test_hyp_PowerEvents :
    let s (f : Module → Module) : State := two.modMod f
    let pow (f : Power → Power) : State := two.modCluster 3 fun c => { c with pow := f c.pow }
    -- fallback or not, clamps
    ((s fun m => { m with fallback := true }).mod.fallback = true ∧ (s id).mod.fallback = false ∧
     ((pow fun w => { w with clamp := 1 }).cluster 3).pow.clamp = 1 ∧ ((pow fun w => { w with clamp := 2 }).cluster 3).pow.clamp ≠ 1) ∧
    -- a grant that leaves the balance at 0, at -1, and with the policy off
    (let q (b : Word) (pol : Bool) : Quota := { (two.ctx 0).quota with qbal := b, pol := pol }
     ((q (-5) true).qbal + 5).msb = false ∧ (q (-5) true).pol = true ∧ ((q (-6) true).qbal + 5).msb = true ∧ (q 0 false).pol = false) ∧
    -- 2 ms without a pet, and one nanosecond less
    (let t (g : Nat) : State := s fun m => { m with pet := 7, gts := g }
     (t 2000006).gts < (t 0).mod.pet.toNat + 2000000 ∧ (t 0).mod.pet.toNat + 2000000 ≤ (t 2000007).gts ∧
     ((t 0).ctx 2).d.st = .free ∧ ((t 0).ctx 1).d.st ≠ .free) ∧
    -- a refill at its boundary and before it; in a trip, in fallback, neither; over intervals; clamped
    (let t (g : Nat) : State := s fun m => { m with gts := g, refills := 4 }
     (t 4999).gts < 1000 * ((t 0).mod.refills + 1) ∧ 1000 * ((t 0).mod.refills + 1) ≤ (t 5000).gts ∧ (t 0).present 63 = true ∧
     (s fun m => { m with trip := true }).mod.trip = true ∧ (t 0).mod.trip = false ∧ ((t 0).cluster 3).pow.clamp ≤ 1 ∧
     ((t 0).cluster 3).pow.overs = [] ∧ 1 < ((pow fun w => { w with clamp := 2 }).cluster 3).pow.clamp) ∧
    -- declarations
    (let b : Burst := ⟨10, 20, 3, 0, 5⟩
     let t (g : Nat) : State := (s fun m => { m with gts := g }).modProc 9 fun v => { v with burst := some b }
     ((t 19).proc 9).burst = some b ∧ (t 19).gts < b.stop ∧ b.stop ≤ (t 20).gts ∧ (two.proc 9).burst = none) := by decide +kernel

theorem test_hyp_TimeEvents :
    let t (g : Nat) : State := two.modMod fun m => { m with gts := g, rotations := 1, node := 5 }
    (t 131071).gts < 65536 * ((t 0).mod.rotations + 1) ∧ 65536 * ((t 0).mod.rotations + 1) ≤ (t 131072).gts ∧
    -- an L1 sector filled at 7: its last nanosecond, and the next
    (let u (g : Nat) : State := (t g).modCoh 271 fun c => { c with l1 := [(8, some ⟨0, 0, 7, .hbm, 0, 0, false⟩)] }
     SMap.get none ((u 0).proc 271).coh.l1 9 = none ∧ SMap.get none ((u 0).proc 271).coh.l1 8 = some ⟨0, 0, 7, .hbm, 0, 0, false⟩ ∧
     (u 65542).gts < (7 : Word).toNat + 65536 ∧ (7 : Word).toNat + 65536 ≤ (u 65543).gts) ∧
    -- signature slots of a home: valid and not, with that key and with another
    (let v (g : Nat) : State := (t g).modMem fun m => { m with slots := [⟨3, 8, 1, 7⟩, ⟨3, 9, 1, 7⟩] }
     (v 65542).mem.slots.all (fun k => k.valid (v 65542).gts) = true ∧ (v 65543).mem.slots.all (fun k => !k.valid (v 65543).gts) = true) ∧
    -- time flits: to module 5 before it has joined and after, all contexts FREE and not; to module 0
    ((t 9).mod.node ≠ 0 ∧ two.mod.node = 0 ∧ (t 9).links.joined = false ∧ ((State.reset.ctx 15).d.st = .free) ∧ (two.ctx 0).d.st ≠ .free ∧
     ((t 9).modLinks fun l => { l with joined := true }).links.joined = true ∧ (8 : Word).toNat ≤ (t 9).gts ∧ (t 9).gts ≤ (10 : Word).toNat) ∧
    -- time that passes up to a refill boundary, and no further
    (two.mod.powered = true ∧ two.links.behind = 0 ∧ two.gts + 1000 < 2 ^ 64 ∧ two.gts + 1000 ≤ 1000 * (two.mod.refills + 1) ∧
     two.gts + 1000 ≤ 65536 * (two.mod.rotations + 1)) ∧
    -- the bound exceeded for 1 ms, and one nanosecond less
    (let o (g : Nat) : State := (t g).modLinks fun l => { l with toobSince := some 7 }
     (o 0).links.toobSince = some 7 ∧ two.links.toobSince = none ∧ (o 1000006).gts < (7 : Word).toNat + 1000000 ∧
     (7 : Word).toNat + 1000000 ≤ (o 1000007).gts) := by decide +kernel

/-- The vendor key is opaque (Config), and with it whether an image verifies: each clause on it stands under one of its answers, and what
is shown here is everything else. -/
theorem test_hyp_ManagementEvents :
    let s (f : Module → Module) : State := two.modMod f
    let image (n : Nat) : Checkpoint := { checkpointImage State.reset with safesz := BitVec.ofNat _ n, mem := [(5, 7)], ctxs := [] }
    two.mod.powered = true ∧ (s fun m => { m with powered := false }).mod.powered = false ∧
    (inSafe two 0 = false ∧ inHbm 0 = true ∧ inLstKey 0xFF00000000000 = true ∧ inLstKey 0xFFD0000000005 = false ∧
     inHbm 0xFFD0000000005 = false ∧ inSafe two 0xFFD0000000005 = false) ∧
    (s fun m => { m with recovery := true }).mod.recovery = true ∧ two.mod.recovery = false ∧ two.mod.up = true ∧
    (s fun m => { m with force := true }).mod.force = true ∧ (s fun m => { m with up := false }).mod.up = false ∧ two.mod.force = false ∧
    -- a checkpoint: a safe tier of 390 and of 389, one that runs, the module quiet and not
    ((s fun m => { m with safesz := 389 }).mod.safesz.toNat < 390 ∧ 390 ≤ (s fun m => { m with safesz := 390 }).mod.safesz.toNat ∧
     (s fun m => { m with ckbusy := true }).mod.ckbusy = true ∧ two.mod.ckbusy = false ∧ quiescent two = false ∧
     quiescent State.reset = true ∧ ((List.range 256).all fun p => (two.proc p).heldBrick.isNone) = true ∧ (two.ctx 0).d.st = .active) ∧
    -- RESTORE: no image, one of another size, one that fits, with all contexts FREE and not
    (two.mod.image.isNone ∧ (image 400).safesz ≠ (s fun m => { m with safesz := 399 }).mod.safesz ∧
     (image 400).safesz = (s fun m => { m with safesz := 400 }).mod.safesz ∧ (image 400).wf = true ∧
     ((image 400).mem.all fun e => inLstKey e.1 || inHbm e.1) = true ∧ ((List.range 16).all fun x => (State.reset.ctx x).d.st == .free) = true ∧
     (two.ctx 0).d.st ≠ .free) ∧
    -- ageing at its limits
    (¬ 30000 < (30000 : BitVec 16).toInt ∧ 30000 < (30001 : BitVec 16).toInt ∧ ¬ (8760 : BitVec 32).toNat < 8760 ∧
     (8759 : BitVec 32).toNat < 8760) := by decide +kernel

/-- A HOF file of one `.cc` section of one parcel for 0x4000: at most 2 slots and 9 us, key 0. -/
def hof1 : List Byte :=
  bytesN 4 0x00464F48 ++ bytesN 2 1 ++ bytesN 18 0 ++ bytesN 1 2 ++ bytesN 1 0 ++ bytesN 2 9 ++ bytesN 4 1 ++ bytesN 8 256 ++ bytesN 216 0 ++
    bytesN 8 1 ++ bytesN 8 288 ++ bytesN 8 2 ++ bytesN 8 0x4000 ++ bytesN 2 0x1477

/-- Every check of the file but the signature, which is opaque, passes. -/
theorem test_hof_checks : loadStatus two 0 hof1 = if checkSig two hof1 then 0 else 1 := by
  have h : checkHeader hof1 = true ∧ checkSections hof1 = true ∧ checkSlots (obControls two 0 hof1) (fileNat hof1 24 1) = true ∧
      checkTime (obControls two 0 hof1) (fileNat hof1 26 2) = true ∧ checkWaits (fileSync hof1) = true ∧
      checkTokens (fileSync hof1) = true ∧ checkLst two 0 hof1 = true ∧ checkPages two 0 hof1 = true := by decide +kernel
  obtain ⟨h2, h3, h4, h5, h6, h7, h8, h9⟩ := h
  rw [loadStatus, h2, h3]
  simp only [h4, h5, h6, h7, h8, h9]
  cases checkSig two hof1 <;> rfl

theorem test_hyp_LoaderAndErrors :
    -- a file that fails a check; cores of the context
    (checkSig two [] = false ∧ loadStatus two 0 [] ≠ 0 ∧ ((onCC 0 id).proc 0).ctxOf = some 0) ∧
    -- a cluster that is present with spares and without, and one that is absent
    (two.present 63 = true ∧ (two.modCluster 63 fun c => { c with absent := true }).present 63 = false ∧ two.mod.spares ≠ 0 ∧
     (two.modMod fun m => { m with spares := 0 }).mod.spares = 0) ∧
    -- sites at the ends of their ranges, a counter at its end
    (siteExists (.core 255) = true ∧ siteExists (.tile 63 4094) = true ∧ siteExists (.accumulator 63 11 127 127 0) = true ∧
     siteExists (.sigSlot 415 0) = true ∧ ((onCC 0 id).proc 0).run = .running 0 ∧ (1022 : Nat) < 1023 ∧
     SMap.get 0 (two.modMod fun m => { m with health := { m.health with errors := [(3, 0xFFFFFFFF)] } }).mod.health.errors 3 = BitVec.allOnes 32) :=
  by decide +kernel

/-! ## Statements about mortar links, the host and the machine -/

/-- Context 0 has group 7 with modules 3 and 5; region 5 covers 0x3000 to 0x3100. -/
def grouped : State := two.modCtx 0 fun c => { c with
  gid := 7, member := 0x28, regions := [(5, { Region.reset with v := true, base := 0x3000, len := 0x100 })] }

theorem test_hyp_LinkRequests :
    let h (node : Nat) (gid : BitVec 12) : FlitHdr := ⟨node, gid, 2, 1, 17⟩
    let member (h : FlitHdr) (x : Nat) : Bool := (grouped.ctx x).d.st != .free && (grouped.ctx x).gid == h.gid && (grouped.ctx x).member.getLsbD h.snode
    let home (pa n : Nat) : Bool := decide (0 < n) && ((inHbm pa && inHbm (pa + n - 1)) || (inCap pa && inCap (pa + n - 1)))
    let m (f : Memory → Memory) : Memory := (grouped.modMem f).mem
    -- admitted by context 0 alone; another node, another group, the last node
    ((h 3 7).port < 18 ∧ member (h 3 7) 0 = true ∧ ((List.range 16).all fun y => y == 0 || !member (h 3 7) y) = true ∧
     ((List.range 16).all fun y => !member (h 4 7) y && !member (h 3 8) y && !member (h 767 7) y) = true ∧
     grouped.mod.ckbusy = false ∧ (grouped.modMod fun m => { m with ckbusy := true }).mod.ckbusy = true) ∧
    -- ranges: in HBM, to its end, past it, empty
    (home 0x6000 8 = true ∧ home (Config.hbmBytes - 8) 8 = true ∧ home (Config.hbmBytes - 4) 8 = false ∧ home 0x6000 0 = false ∧
     grouped.mem.poisoned 0x6000 8 = false ∧ (m fun m => m.setPoison 0xC0 true).poisoned 0x6000 8 = true ∧
     (List.replicate 128 (1 : Byte)).length = 128) ∧
    -- atomics: aligned or not, of a defined operation or not
    (0x6008 % 8 = 0 ∧ 0x6004 % 8 ≠ 0 ∧ (10 : BitVec 4).toNat ≤ 10 ∧ ¬ (11 : BitVec 4).toNat ≤ 10 ∧ (9 : BitVec 4).toNat ≠ 10) ∧
    -- posts
    ((0 : BitVec 10) ≠ 0x3FF ∧ grouped.inPart 0 (15 / 4) = true ∧ grouped.inPart 0 (16 / 4) = false ∧ 255 < 256) ∧
    -- halos: format at its last value and past it, no region, a region that covers the bytes and not, poisoned bytes
    (let g := SMap.get Region.reset (grouped.ctx 0).regions 5
     (20 : BitVec 5).toNat ≤ 20 ∧ 20 < (21 : BitVec 5).toNat ∧ hodBits 10 = 16 ∧ home 0x6000 ((0 + 16 * 2 + 7) / 8) = true ∧ 8 ∣ 16 ∧
     0 < (10 : BitVec 5).toNat ∧ (10 : BitVec 5).toNat < 20 ∧ (5 : BitVec 10) ≠ 0x3FF ∧ g.covers 0x30FC 4 = true ∧ g.v = true ∧
     g.covers 0x30FD 4 = false) := by decide +kernel

/-- A read of core 0 from module 3. -/
def reads3 : Remote := { waitsFor3 with kind := 0 }

/-- That read, one of its Vector engine from the host, a write of core 0 to module 3. -/
def outstanding : State :=
  (onCC 0 id).modFl fun f => { f with remotes := [reads3, { reads3 with eng := some .ve, host := true, peer := 5 }, { waitsFor3 with kind := 1, x := some 9 }] }

theorem test_hyp_LinkAnswers :
    (reads3.host = false ∧ reads3.kind ≠ 1 ∧ reads3.tag ≠ deadTag ∧ reads3.eng = none) ∧
    outstanding.fl.remotes[0]? = some reads3 ∧ outstanding.fl.remotes[3]? = none ∧
    -- the first has none before it; the third of the same core, node and class waits for it, and is a write
    (let r : Remote := { waitsFor3 with kind := 1, x := some 9 }
     outstanding.fl.remotes[2]? = some r ∧ 0 < 2 ∧ reads3.core = r.core ∧ reads3.peer = r.peer ∧ reads3.cls = r.cls ∧ r.kind = 1 ∧
     (let s := (onCC 0 id).modFl fun f => { f with remotes := [r] }
      s.fl.remotes[0]? = some r ∧ (s.proc r.q).run = .running 0)) ∧
    ((0 : BitVec 3) = 0 ∧ (3 : BitVec 3) ≠ 0 ∧ (3 : BitVec 3) ≠ 2) ∧
    -- the host's: one of queue pair 5, none of 6
    ((outstanding.fl.remotes.filter fun r => r.host && r.peer == 5 && r.kind != 1).length = 1 ∧
     (outstanding.fl.remotes.all fun r => !(r.host && r.peer == 6)) = true) ∧
    ((3 : Nat) ≠ outstanding.mod.node.toNat ∧ 767 ≠ outstanding.mod.node.toNat) ∧
    (let st (q : Nat) : Nat := (SMap.get 0 outstanding.links.qps q).toNat / 2 ^ 8 % 8
     st 5 = 3 ∧ st 1023 ≠ 2 ∧ st 1023 ≠ 3) := by decide +kernel

theorem test_hyp_RendezvousAndPorts :
    let t (f : Stepper → Stepper) (node : Nat) : State :=
      ((onSeq (f { Stepper.reset with st := .run, n := 5, done := 2, rdvSince := some 7 }) Ob.reset 1).modCtx 1 fun c =>
        { c with gid := 7, member := 0x28 }).modMod fun m => { m with node := BitVec.ofNat _ node }
    -- no group, a group; the wrong sequencer, the right one; the answer waited for, and not
    (admitted (t id 5) 8 3 = none ∧ admitted (t id 5) 7 3 = some 1 ∧ seqOf (t id 5) 1 = some 2 ∧ seqOf (t id 5) 1 ≠ some 1 ∧
     ((t id 5).stepper 2).st = .run ∧ ((t id 5).stepper 2).rdvSince = some 7 ∧ BitVec.ofNat 32 ((t id 5).stepper 2).done = 2 ∧
     BitVec.ofNat 32 ((t id 5).stepper 2).done ≠ 3 ∧ ((t (fun t => { t with rdvSince := none }) 5).stepper 2).rdvSince = none) ∧
    -- arrivals at the leader, 3, where the other member has arrived, and at another module
    (leaderOf (t id 3) 1 = (t id 3).mod.node.toNat ∧ leaderOf (t id 5) 1 ≠ (t id 5).mod.node.toNat ∧ (t id 3).fl.arrivals = [] ∧
     (let u := (t id 3).modFl fun f => { f with arrivals := [(2, 2, 3)] }
      (2, 2, 5) ∉ u.fl.arrivals ∧ ((List.range 768).all fun m => !(u.ctx 1).member.getLsbD m || m == 5 || u.fl.arrivals.contains (2, 2, m)) = true)) ∧
    -- types 9 and 15; lanes: three good, two, one
    (9 ≤ (9 : BitVec 4).toNat ∧
     (let good (bad : BitVec 4) : Nat := ((List.range 4).filter fun i => !bad.getLsbD i).length
      2 ≤ good (0 ||| BitVec.ofNat 4 (2 ^ 3)) ∧ 2 ≤ good (1 ||| BitVec.ofNat 4 (2 ^ 3)) ∧ good (5 ||| BitVec.ofNat 4 (2 ^ 3)) < 2)) :=
  by decide +kernel

/-- Queue pair 5 in state st, of context 0, ring 2, counter 9 of core 4; window 3 of 64 KiB at 0x10000 with all rights, key 77. -/
def hosted (st : Nat) : State := two.modLinks fun l => { l with
  qps := [(5, BitVec.ofNat 128 (4 * 2 ^ 40 + 9 * 2 ^ 32 + 2 * 2 ^ 20 + st * 2 ^ 8))]
  wins := [(3, BitVec.ofNat 128 (15 * 2 ^ 124 + 77 * 2 ^ 88 + 2 ^ 64 + 0x10000))] }

theorem test_hyp_HostRequests :
    let st (s : State) : Nat := (SMap.get 0 s.links.qps 5).toNat / 2 ^ 8 % 8
    let win (s : State) (k : BitVec 32) : Option (BitVec 128) :=
      ((List.range 64).map fun j => SMap.get 0 s.links.wins j).find? fun e => e.getLsbD 127 && fld e 88 32 == k
    let within (e : BitVec 128) (right addr n : Nat) : Bool := e.getLsbD right && decide ((fld e 0 52).toNat ≤ addr) &&
      decide (addr + n ≤ (fld e 0 52).toNat + (fld e 64 24).toNat * 65536)
    let e := SMap.get 0 (hosted 3).links.wins 3
    -- open in RTR and RTS, not in INIT, not in a checkpoint
    (st (hosted 2) = 2 ∧ st (hosted 3) = 3 ∧ st (hosted 1) = 1 ∧ (hosted 3).mod.ckbusy = false ∧
     ((hosted 3).modMod fun m => { m with ckbusy := true }).mod.ckbusy = true) ∧
    -- lengths and alignment
    ((1 ≤ 1 ∧ 1 ≤ 2 ^ 31) ∧ ¬ 2 ^ 31 + 1 ≤ 2 ^ 31 ∧ (List.replicate 48 (1 : Byte)).length = 48 ∧ 48 < (List.replicate 49 (1 : Byte)).length ∧
     0x10004 % 8 ≠ 0 ∧ 0x10008 % 8 = 0) ∧
    -- windows: another key, the last byte of the range, one byte past it, no right
    (win (hosted 3) 77 = some e ∧ win (hosted 3) 78 = none ∧ within e 126 0x1FFFF 1 = true ∧ within e 126 0x1FFFF 2 = false ∧
     within (e &&& ~~~(1#128 <<< 125)) 125 0x10000 8 = false ∧ within e 125 0x10000 128 = true ∧ within e 124 0x1FFF8 8 = true ∧
     0x10000 % 128 + 128 ≤ 128) ∧
    -- places
    (match resolve (hostWho (fld e 120 4).toNat) 0x10000 8 .atomic (hosted 3) with
     | .ok pl t => pl.isLocal && !t.mem.poisoned pl.key 8
     | _ => false) = true ∧
    (match resolve (hostWho (fld e 120 4).toNat) 0x10000 128 .write (hosted 3) with
     | .ok pl _ => pl.isLocal
     | _ => false) = true ∧
    (match resolve (hostWho (fld e 120 4).toNat) 0x10000 128 .read (hosted 3) with
     | .ok pl t => pl.isLocal && !t.mem.poisoned pl.key 128
     | _ => false) = true ∧
    -- the receive ring lies in the LST range of the context
    (let qp := SMap.get 0 (hosted 3).links.qps 5
     let off := ((hosted 3).ctx 0).d.lstb.toNat * 2 ^ 20 + (fld qp 20 12).toNat * 2 ^ 14 + 64 * (255 % 256)
     off + 64 ≤ 0x1_8000_0000 ∧ off + 64 ≤ (((hosted 3).ctx 0).d.lstb.toNat + ((hosted 3).ctx 0).d.lstq.toNat) * 2 ^ 20) := by decide +kernel

/-- The agenda a. -/
def onTurn (s : State) (u : Agent) : State := { s with agenda := [.turn u] }

/-- A fetch gives the word w. -/
def reads (m : M (BitVec 48)) (s : State) (w : BitVec 48) : Bool := meets s do
  let v ← m
  return v == w

theorem test_hyp_StepRunsTheDecodedInstruction :
    -- a control core whose code is in its scratchpad: ADDI s3, s4, -9 at offset 0x40
    (let i : Instr := .addi ⟨g0, 3, 4, 0x3F7⟩
     let k := 0xFFD0000000000 + 0x40
     let s := (onTurn (onCC 0 fun r => { r with pc := 0xFFE0000000040 }) (.cc 0)).modMem fun m => m.write k 4 0xFC838207
     let bad := s.modMem fun m => m.write k 6 0xFFFFFFFFFFFF
     s.mod.up = true ∧ s.agenda = .turn (.cc 0) :: [] ∧ (s.proc 0).run = .running 0 ∧ reads (fetchCC 0) s 0xFC838207 = true ∧
     decodeWord .cc 0xFC838207 = some i ∧ reads (fetchCC 0) bad 0xFFFFFFFFFFFF = true ∧ decodeWord .cc 0xFFFFFFFFFFFF = none ∧
     s.inPart 0 (0 / 4) = true ∧ i.wf = true ∧ i.inStream .cc = true ∧ i.form.isSome = true ∧ encode i = [0x07, 0x82, 0x83, 0xFC] ∧
     (encode i).length ≤ 6 ∧ 0xC_0000 - 4 + (encode i).length ≤ 0xC_0000 ∧ (s.cc 0).pc = BitVec.ofNat 64 (0xFFE0000000000 + 0x40) ∧
     ((List.range 4).all fun j => s.mem.read (k + j) 1 == ((encode i).getD j 0).toNat) = true ∧ s.mem.poisoned k 4 = false ∧
     -- one of a lookup core
     (onTurn (onCC 271 id) (.cc 271)).agenda = .turn (.cc 271) :: []) ∧
    -- the streams: VADD v4, v5, v6 under a mask at parcel 100 of the ring, PSCL of slot 1, and words that mean nothing
    (let s (px : Bool) (w : Nat) : State := (onTurn (onStream px (fun v => { v with vring := 5, pring := 5 }) id)
       (if px then .px 0 else .ve 0)).modMem fun m => m.write (0xFFD0000000000 + 200) 6 w
     let q (px : Bool) : Sequencer := seqr (s px 0) 0 px
     (q false).stop = none ∧ (q false).push = none ∧ (q false).raise = none ∧ (q false).cap.isSome = true ∧ (q false).block.isNone = true ∧
     fetchStream (s false 0x18A48045) 0 false (q false) = .word 0x18A48045 ∧ (decodeWord .ve 0x18A48045).isSome = true ∧
     fetchStream (s false 0xFFFFFFFFFFFF) 0 false (q false) = .word 0xFFFFFFFFFFFF ∧ decodeWord .ve 0xFFFFFFFFFFFF = none ∧
     ((s true 0).cluster 0).press.holder = some 0 ∧ (q true).stop = none ∧ (q true).push = none ∧ (q true).raise = none ∧
     (q true).serving.isNone = true ∧ (q true).cap.isSome = true ∧ (q true).phase ≠ .fresh ∧ ((s true 0).cluster 0).press.gathered.isEmpty = true ∧
     fetchStream (s true 0x20001C600) 0 true (q true) = .word 0x20001C600 ∧ (decodeWord .px 0x20001C600).isSome = true ∧
     decodeWord .px 0xFFFFFFFFFFFF = none) ∧
    -- a hod at the entry HEND of a chain, and at one of format 0xFF
    (let e (op : Nat) : Nat := op + 0x1FF8FFFFFF * 2 ^ 448
     let s (op : Nat) : State := (onTurn (onHod fun h => { h with hphase := .entry }) (.hod 0 false)).modMem fun m => m.write (0xFFD0000000000 + 64) 64 (e op)
     let fetched (op : Nat) : Bool := meets (s op) do
       let w ← fetchEntry (Chain.of (s op) 0 false cap0)
       return w == BitVec.ofNat 512 (e op)
     (hodOf (s 0) 0 false).stop = none ∧ (hodOf (s 0) 0 false).cap = some cap0 ∧ (hodOf (s 0) 0 false).hphase = .entry ∧
     fetched 0x0C = true ∧ (decodeHod (BitVec.ofNat 512 (e 0x0C))).isSome = true ∧ fetched 0xFF = true ∧
     decodeHod (BitVec.ofNat 512 (e 0xFF)) = none) ∧
    -- an event, and time
    (Instr.watchdogPet.form = none ∧ ({ two with agenda := [.event .watchdogPet] } : State).agenda = .event .watchdogPet :: [] ∧
     ({ two with agenda := [.tick 7] } : State).agenda = .tick 7 :: []) := by decide +kernel

theorem test_hyp_DecodingUndoesEncoding :
    (let i : Instr := .addi ⟨⟨7, true⟩, 31, 31, 0x3FF⟩
     i.wf = true ∧ i.inStream .cc = true ∧ i.form.isSome = true ∧ (match i.form with | some (.hod _) => false | _ => true) = true) ∧
    (let i : Instr := .hcpy (hdr 4 true true true true) (desc (2 ^ 52 - 1) 20) (desc 0 1) 6 0xFFE 0xFFF
     i.wf = true ∧ i.inStream .cc = true ∧ (match i.form with | some (.hod _) => true | _ => false) = true) := by decide +kernel

theorem test_hyp_DecodedWordsAreEncodings :
    (match decode .cc [0x07, 0x82, 0x83, 0xFC, 0x55] with
     | .ok (i, l) => decide (i = .addi ⟨g0, 3, 4, 0x3F7⟩) && l == [0x55]
     | _ => false) = true ∧
    (decodeHod (BitVec.ofNat 512 (0x0C + 0x1FF8FFFFFF * 2 ^ 448))).isSome = true := by decide +kernel

theorem test_hyp_StepsKeepMemoryCanonical : two.memWf = true ∧ next (step ({ two with agenda := [.tick 7] })) (fun _ => true) = true := by
  decide +kernel

/-! ## Further clauses of the statements above -/

/-- Parcels fetched ahead: clean and poisoned. A stream instruction that was read, and one in a block. -/
theorem test_hyp_StepRunsTheDecodedInstruction_ahead_and_blocks :
    (let s : State := { onCC 0 id with agenda := [.ahead 0 (0xFFE0000000000 + 0x40)] }
     let at_ := 0xFFD0000000000 + 0 * 2 ^ 20 + 0x40
     s.mod.up = true ∧ s.agenda = .ahead 0 (0xFFE0000000000 + 0x40) :: [] ∧ (s.proc 0).run = .running 0 ∧ s.inPart 0 (0 / 4) = true ∧
     0x40 + 2 ≤ 0xC_0000 ∧ 0x40 % 2 = 0 ∧ s.mem.poisoned at_ 2 = false ∧
     (s.modMem fun m => m.setPoison (at_ / 128) true).mem.poisoned at_ 2 = true ∧ (s.cc 0).ahead = []) ∧
    (let b : Block := ⟨0, 2, 0, [some (BitVec.ofNat 16 1)], 100, 0, 0, [2], [], 0⟩
     let q (px : Bool) (blk : Option Block) (w : Option (BitVec 48)) : Sequencer :=
       seqr (onTurn (onStream px id fun q => { q with block := blk, word := w }) (.ve 0)) 0 px
     (q false none (some 5)).word = some 5 ∧ (q false none none).word = none ∧ (q true none (some 5)).word = some 5 ∧
     (q true none none).word = none ∧ (q false (some b) none).block = some b ∧ (q false (some b) none).atBoundary = false ∧
     (q true (some b) none).block = some b ∧ (q true (some b) none).atBoundary = false ∧
     ¬ (⟨0, cap0, none, true, 3, 4, 5, 6, 7⟩ : Gathered).cap.core ≠ 0) := by decide +kernel

theorem test_hyp_TimeAndManagement_more :
    -- this module is the master, or another is
    (timeMaster two = two.mod.node.toNat ∧ timeMaster (two.modMod fun m => { m with node := 5 }) ≠
      (two.modMod fun m => { m with node := 5 }).mod.node.toNat) ∧
    -- a set-up that keeps the size of the safe tier, one of another size; a set-up at its limits, and past each
    (two.mod.bring.safesz = two.mod.safesz ∧ (setUp ⟨400, 767, 2, true⟩ two).mod.bring.safesz ≠ (setUp ⟨400, 767, 2, true⟩ two).mod.safesz ∧
     (setUp ⟨401, 0, 0, false⟩ two).mod.bring = two.mod.bring ∧ (setUp ⟨9, 768, 0, false⟩ two).mod.bring = two.mod.bring ∧
     (setUp ⟨9, 0, 3, false⟩ two).mod.bring = two.mod.bring ∧
     ({ two with agenda := [.setUp ⟨400, 767, 2, true⟩] } : State).agenda = .setUp ⟨400, 767, 2, true⟩ :: []) ∧
    (two.mem.wf = true ∧ ((List.range 64).all fun c => two.present c || (SMap.get [] (checkpointImage State.reset).bricks c).isEmpty) = true ∧
     (two.modCluster 63 fun c => { c with absent := true }).present 63 = false) ∧
    -- SUSPEND of a core that was aborted and whose accesses have not performed
    (let s := ((two.modProc 9 fun v => { v with run := .aborted 1 }).modCoh 9 fun c => { c with acks := [3] })
     (s.proc 9).ctxOf = some 1 ∧ coreReady s 9 = false ∧ abortedReady s 9 = false) := by decide +kernel

/-- Operations, sizes and types of atomics in a request's argument; masked writes. -/
theorem test_hyp_LinkRequests_atomics :
    let sum (arg : BitVec 32) : Bool := vBits (fld arg 8 4) == 8 * (fld arg 4 4).toNat &&
      ((fld arg 0 4).toNat == 0 && vInt (fld arg 8 4) || (fld arg 0 4).toNat == 10 && vFp (fld arg 8 4))
    let amo (arg : BitVec 32) : Bool := (fld arg 4 4).toNat == 4 && decide ((fld arg 0 4).toNat ≤ 10) ||
      (fld arg 4 4).toNat == 8 && decide ((fld arg 0 4).toNat ≤ 9)
    (sum 0x440 = true ∨ ∃ t : Fin 16, sum (BitVec.ofNat 32 (0x40 + 256 * t.val)) = true) ∧ amo 0x48 = true ∧ amo 0x4A = true ∧
    amo 0x8A = false ∧ amo 0x89 = true ∧ 0x6008 % 8 = 0 ∧ amoOp 1 64 3 0 5 ≠ none := by decide +kernel

/-- A refused write of a running control core, of one that stopped, of an engine that has gone on; a post; a CAS that wrote nothing. -/
theorem test_hyp_LinkAnswers_late :
    let w (k : Nat) : Remote := { waitsFor3 with kind := k, x := some 9, loc := 0x40, va := 0x2000 }
    let s (r : Remote) : State := (onCC 0 id).modFl fun f => { f with remotes := [r] }
    let stopped := (s (w 1)).modProc 0 fun v => { v with run := .stopped 0 5 }
    (s (w 1)).fl.remotes[0]? = some (w 1) ∧ (w 1).host = false ∧ (w 4).kind = 4 ∧ (w 1).eng = none ∧ ((s (w 4)).proc 0).run = .running 0 ∧
    (stopped.proc 0).run = .stopped 0 5 ∧ (stopped.proc (w 1).core).ctxOf = some 0 ∧
    { w 1 with eng := some .ve }.current (s (w 1)) .ve = false ∧ ((s (w 1)).proc 0).ctxOf = some 0 ∧
    { w 2 with cas := some 7 }.cas = some 7 ∧ (7 : Nat) ≠ leN [8] ∧ (1 : BitVec 3) ≠ 0 ∧ (1 : BitVec 3) ≠ 2 := by decide +kernel

/-- How the bytes of one packet end. -/
def packet (addr : Nat) (n : Nat) : Bool :=
  meets (hosted 3) do
    let _ ← inboundPacket (hostWho 0) addr (List.replicate n 1)
    return true

/-- A message of two packets, the second past the end of HBM; ports of a split device; the ECN mark. -/
theorem test_hyp_HostRequests_packets :
    let s : State := (hosted 3).modLinks fun l => { l with wins := [(3, BitVec.ofNat 128 (15 * 2 ^ 124 + 77 * 2 ^ 88 + 2 * 2 ^ 64 + 0x5FFFFF0000))] }
    let e := SMap.get 0 s.links.wins 3
    mtuBytes s.links = 1024 ∧ 1024 < 1025 ∧ 1025 ≤ 2 * 1024 ∧ s.fl.remotes = [] ∧ (fld e 120 4).toNat = 0 ∧
    (fld e 0 52).toNat ≤ 0x5FFFFFFC00 ∧ 0x5FFFFFFC00 + 1025 ≤ (fld e 0 52).toNat + (fld e 64 24).toNat * 65536 ∧
    packet 0x5FFFFFFC00 1024 = true ∧ packet 0x6000000000 1 = false ∧
    (2 : Nat) < (if (s.modLinks fun l => { l with split := true }).links.split then 4 else 2) := by decide +kernel

/-! ## Words of the spec (04 R72-R97 and the worked encodings at the ends of the chapters) -/

/-- The words a, b, c of a stream decode to i. -/
def word (st : Stream) (a b c : Nat) (i : Instr) : Bool := decide (decodeWord st (BitVec.ofNat 48 (a + b * 2 ^ 16 + c * 2 ^ 32)) = some i)

/-- Vector common fields: token 0, stage 0, all elements. -/
def v0 : VCom := ⟨0, 0, 0⟩

theorem test_decode_short : word .cc 0x18FD 0 0 (.liC 7 0x1D) && word .cc 0x1477 0 0 (.addiC 3 0x17) = true := by decide +kernel
theorem test_decode_alu : word .cc 0x8207 0xFC83 0 (.addi ⟨g0, 3, 4, 0x3F7⟩) && word .cc 0x8247 0xFC63 0 (.addi ⟨⟨2, false⟩, 3, 3, 0x3F7⟩) = true := by
  decide +kernel
theorem test_decode_memory :
    (word .cc 0xC002 0x1467 0xFFF8 (.ld ⟨g0, 7, 3, 0xFFF8, 0, 5, 2⟩) && word .cc 0xC200 0x4D05 0x0526 (.amo ⟨g0, 5, 8, 6, 2, 9, 2, 3, 0⟩) &&
     word .cc 0xC600 0x9889 0x0040 (.waitaddr ⟨g0, 9, 4, 0x40, 4, 6, 0⟩)) = true := by decide +kernel
theorem test_decode_sync :
    (word .cc 0x9500 0x0065 0 (.semw g0 5 3) && word .cc 0x9401 0x0048 0 (.semp g0 40 2) && word .cc 0x9607 0x00E0 0 (.markWait g0 7 3) &&
     word .cc 0xEB00 0x0089 0x020C (.scw g0 9 4 2 12) && word .cc 0xEC00 0x18A0 0x0307 (.scp g0 5 6 3 7)) = true := by decide +kernel
theorem test_decode_graphs :
    (word .cc 0xE000 0x0103 0 (.obsub g0 3 8) && word .cc 0xE100 0x2503 1 (.seqstart g0 3 8 9 true) && word .cc 0xE102 4 0 (.seqwait g0 4) &&
     word .cc 0xE200 0x2503 0 (.rgndef g0 3 8 9) && word .cc 0xE201 0x2405 1 (.rgnrd g0 5 9 1) &&
     word .cc 0xE302 0x1CC4 2 (.reuseset g0 4 6 7 2 false false) && word .cc 0xE401 0x0103 0 (.fqresume g0 3 8)) = true := by decide +kernel
theorem test_decode_system :
    (word .cc 0xCD00 0x1480 0xF (.tlbinvRange g0 4 5 15) && word .cc 0xF200 9 0 (.quota g0 9 0) && word .cc 0xF100 0x00E6 0xF (.pace g0 6 7 15) &&
     word .cc 0xF000 0x1480 0xC (.phase g0 4 5 12)) = true := by decide +kernel
theorem test_decode_engines :
    (word .cc 0xDA01 0x2920 0 (.link g0 true 9 10) && word .cc 0xD831 0x00E0 0x0042 (.kickPx ⟨1, true⟩ 0 7 1 2) &&
     word .cc 0xD802 0x0080 0x2400 (.kickHl g0 4 9 0) && word .cc 0xD000 0x00A2 0x004A (.hmk g0 2 5 10 2 0 false) &&
     word .cc 0xD400 0x2043 0 (.hsub g0 3 2 8)) = true := by decide +kernel
theorem test_decode_lookup : word .lk 0xFA00 0x0C44 4 (.lkddp g0 4 2 3 4) && word .lk 0xFB00 0 0x60 (.lkpool g0 0 0 false true true) = true := by
  decide +kernel
theorem test_decode_vector :
    (word .ve 0x8045 0x18A4 0 (.vadd ⟨⟨2, 1, 1⟩, false, 4, 5, 6⟩) && word .ve 0xC800 0x01A4 0x0200 (.vld ⟨v0, false, 4, 1, 3, 16⟩) &&
     word .ve 0xCC00 0x0025 0x8020 (.vlda v0 false 5 1 64 1) && word .ve 0xC300 0x0820 0x40C0 (.vcmp v0 1 2 6 4) &&
     word .ve 0x9D00 0x0823 0 (.vsel v0 3 1 2) && word .ve 0xC600 0x8025 0x00C0 (.vred ⟨v0, true, 5, 1, 0, 6, 0, false, 0⟩)) = true := by
  decide +kernel
theorem test_decode_blocks : word .ve 0xFE40 0x0C0C 5 (.blk 2 12 3 5 0) && word .px 0xFE40 0x0C0C 5 (.blk 2 12 3 5 0) = true := by decide +kernel
theorem test_decode_press :
    (word .px 0xC000 0x0042 0x03FC (.pmm v0 2 0 1 false 0x3FC) && word .px 0xC200 0x0201 0 (.pres v0 1 2 0 false false 0) &&
     word .px 0xC600 1 2 (.pscl v0 1 2) && word .px 0xC700 0x0C01 0 (.padd v0 1 3 false 0)) = true := by decide +kernel
theorem test_decode_hod :
    decodeHod (BitVec.ofNat 512 (leNat (0x0C :: List.replicate 55 0 ++ [0xFF, 0xFF, 0xFF, 0xF8, 0x1F, 0, 0, 0]))) =
      some (.hend ⟨0, false, false, false, false, 0, 0, 0, 0⟩) := by decide +kernel

/-- The same opcode stands for a load on a control core and for a Press product in a Press stream (R97). -/
theorem test_streams_differ :
    (decodeWord .cc 0xFFF81467C002).isSome && !(decodeWord .cc 0x20001C600 == decodeWord .px 0x20001C600) = true := by decide +kernel

/-! ## Well-formedness: for each check a term that it refuses -/

theorem test_ill_formed_scalar :
    ([.add ⟨⟨0, true⟩, false, 1, 2, 3⟩, .shli ⟨g0, 1, 2, 64⟩, .shri ⟨g0, 1, 2, 64⟩, .srai ⟨g0, 1, 2, 64⟩, .cmp g0 false 1 2 3 9,
      .cmpi g0 1 2 3 9, .pop g0 false 0 1 5, .pop g0 false 3 1 4, .semp g0 0 1, .semw g0 0 1, .bget g0 1 2 14, .drain g0 0,
      .bfx g0 1 2 1 63, .bfxs g0 1 2 63 1, .bfi g0 1 2 32 32, .csrr g0 1 6, .csrw g0 1 0x14, .csrx g0 1 2 0x23, .csrs g0 1 2 0x98,
      .csrc g0 1 2 0xC1] : List Instr).all (fun i => !i.wf) = true := by decide +kernel

theorem test_ill_formed_memory :
    ([.ld ⟨g0, 1, 2, 0, 5, 0, 0⟩, .ld ⟨g0, 1, 2, 0, 0, 7, 0⟩, .st ⟨g0, 1, 2, 0, 0, 4, 0⟩, .amo ⟨g0, 1, 2, 3, 0, 11, 0, 3, 0⟩,
      .amo ⟨g0, 1, 2, 3, 0, 0, 0, 1, 0⟩, .amo ⟨g0, 1, 2, 3, 0, 10, 0, 3, 0⟩, .fence g0 5 0, .strel ⟨g0, 1, 2, 0, 7, 0, 0⟩,
      .ldacq ⟨g0, 1, 2, 0, 0, 7, 0⟩, .waitaddr ⟨g0, 1, 2, 0, 6, 0, 0⟩] : List Instr).all (fun i => !i.wf) = true := by decide +kernel

theorem test_ill_formed_queues :
    ([.hmk g0 1 2 21 2 0 false, .hmk g0 1 2 0 0 0 false, .hmk g0 1 2 0 5 0 false, .hset g0 1 15 2, .hget g0 1 2 15, .kickVe g0 0 1 1 5,
      .kickPx g0 13 1 1 4, .kickHl g0 1 10 0, .kickHl g0 1 0 9, .kickHs g0 1 8 0, .kickHs g0 1 0 12, .nest g0 false 1 2 0, .nest g0 false 1 2 7,
      .scmdPmmg g0 1 2 3 false 12 0, .rgnrd g0 1 2 5, .reuseq g0 1 2 13, .reuseforce g0 1 2 true, .semrd g0 1 0 64, .semrd g0 1 2 4,
      .semrd g0 1 3 8, .semset g0 1 2 2 0, .semset g0 1 2 0 64, .scw g0 1 2 5 0, .scp g0 1 2 5 0, .popJob g0 false 1 2,
      .lkaq g0 1 2 3 false 4097, .lkddp g0 1 2 3 0, .lkddp g0 1 2 3 4097, .lkpool g0 1 0 false true false, .lkput g0 1 7 0,
      .lkputRow g0 1 7] : List Instr).all (fun i => !i.wf) = true := by decide +kernel

theorem test_ill_formed_vector :
    ([.vadd ⟨⟨0, 0, 3⟩, false, 1, 2, 3⟩, .vbrz v0 0, .vfma ⟨v0, false, 1, 2, 3, 4, 9, 0⟩, .vfms ⟨v0, false, 1, 2, 3, 4, 6, 7⟩,
      .vfnma ⟨v0, false, 1, 2, 3, 4, 0, 1⟩, .vcmp v0 1 2 9 0, .vcmp v0 1 2 0 6, .vcmp v0 1 2 6 8, .vcvt v0 false 1 2 false 0 0 7,
      .vfsh v0 false 1 2 3 4 6 false, .vred ⟨v0, false, 1, 2, 0, 9, 0, false, 0⟩, .vred ⟨v0, false, 1, 2, 1, 6, 0, false, 0⟩,
      .vred ⟨v0, false, 1, 2, 1, 6, 4, false, 0⟩, .vred ⟨v0, false, 1, 2, 0, 6, 6, false, 3⟩, .vred ⟨v0, false, 1, 2, 0, 6, 7, false, 0⟩,
      .vscan ⟨v0, false, 1, 2, 1, 6, 0, false, 0⟩, .vscan ⟨v0, false, 1, 2, 0, 6, 4, false, 0⟩, .vshape v0 6 0x7FFF,
      .vqblk v0 1 2 3 8 6 0, .vqblk v0 1 2 3 9 0 0, .vqblk v0 1 2 1 9 6 0, .vqblk v0 1 2 3 9 6 7, .viota v0 false 1 8 0, .viota v0 false 1 0 3,
      .vstb ⟨v0, true, 1, 0, 0, 0, 2⟩, .vlda v0 false 1 12 0 0, .blk 7 1 0 0 0, .blk 0 0 0 0 0, .blk 1 1 0 0 1, .pmm v0 12 0 1 false 0,
      .pmmg v0 12 0 1 2 false 0, .pres v0 12 0 0 false false 0, .pres v0 1 0 7 false false 0, .prel v0 12, .pstr v0 12 0,
      .pldr v0 12 0 false 0, .pscl v0 12 0, .padd v0 12 0 false 0, .padd v0 0 12 false 0] : List Instr).all (fun i => !i.wf) = true := by
  decide +kernel

theorem test_ill_formed_hod :
    (let h : HodHdr := hdr 2 false false false false
     let a := desc 0x1000 10
     [Instr.hcpy { h with sc := 5 } a a 0 0xFFF 0xFFF, .hcpy h { a with fmt := 21 } a 0 0xFFF 0xFFF, .hcpy h a { a with rank := 0 } 0 0xFFF 0xFFF,
      .hcpy h a a 7 0xFFF 0xFFF, .hcpyd h a a 0 0xFFF 0xFFF 0x3FF, .hmcs h a a 7 0xFFF, .hmsrc h a 0 0xFFF, .hmsrc h a 257 0xFFF,
      .hfill h 0 { a with fmt := 31 } 0xFFF, .hgath h a a 7 0xFFF 0xFFF, .hhalo { h with sc := 2 } a a 0 0xFFF 5, .hwait h, .hpost h none,
      .hlink h 0x1020, .htile h 4 5, .htile h 1 0xFFF, .hend { h with we := true }, .hend { h with we := true, wctr := 64 },
      .hend { h with pe := true }, .hend { h with wval := 1 }, .hend { h with pamt := 1 }, .hend { h with wk := true }].all fun i => !i.wf) = true := by
  decide +kernel

/-- Their neighbours are well formed. -/
theorem test_well_formed :
    ([.add ⟨⟨1, true⟩, false, 1, 2, 3⟩, .shli ⟨g0, 1, 2, 63⟩, .cmp g0 false 1 2 3 8, .pop g0 true 3 1 4, .semp g0 1 1, .bget g0 1 2 13,
      .drain g0 1, .bfx g0 1 2 0 63, .csrr g0 1 0xC0, .ld ⟨g0, 1, 2, 0, 4, 6, 0⟩, .amo ⟨g0, 1, 2, 3, 0, 10, 0, 2, 0⟩, .hmk g0 1 2 20 4 0 false,
      .kickPx g0 12 1 1 4, .kickHs g0 1 15 11, .nest g0 true 1 2 6, .reuseforce g0 1 0 true, .semrd g0 1 0 63, .lkaq g0 1 2 3 false 4096,
      .vfnma ⟨v0, false, 1, 2, 3, 4, 0, 0⟩, .vcmp v0 1 2 6 7, .vred ⟨v0, false, 1, 2, 0, 6, 6, false, 2⟩, .vshape v0 6 0x1C0,
      .blk 0 1 0 0 1, .pmm v0 11 0 1 false 0, .hmsrc (hdr 4 true true true true) (desc 0 20) 256 0xFFF, .hlink (hdr 0 false false false false) 64]
        : List Instr).all (fun i => i.wf) = true := by decide +kernel

/-! ## Worked examples of the spec, one step each -/

/-- The register value of n after an instruction of core 0 whose registers are given. -/
def leaves (i : Instr) (l : List (BitVec 5 × Nat)) (n : BitVec 5) (v : Nat) : Bool :=
  next (exec i (onCC 0 (regs l))) fun t => ((t.cc 0).readS n).toNat == v

/-- R126, R127: addition wraps at 64 bits, `.w` sign-extends its low half. -/
theorem test_add_wraps : leaves (.add ⟨g0, false, 1, 2, 3⟩) [(2, 2 ^ 64 - 1), (3, 2)] 1 1 &&
    leaves (.add ⟨g0, true, 1, 2, 3⟩) [(2, 0x7FFFFFFF), (3, 1)] 1 0xFFFFFFFF80000000 = true := by decide +kernel

/-- The example that ends chapter 06: LIH forms a window address, HSUB moves the base by 0x8020 and cuts the sizes; an index at
SIZE1 raises SHAPE and leaves h3. -/
theorem test_lih : leaves (.lih g0 5 0x20000) [(5, 0x1FFC000)] 5 0xFFE0000020000 = true := by decide +kernel

/-- h2 of that example: FP16, rank 2, 256 by 128. -/
def h2 : Handle := H.put (H.put (H.put (H.make 0xFFE0000020000 10 2 0 false) 64 16 256) 80 16 128) 128 24 256

theorem test_hsub :
    next (exec (.hsub g0 3 2 8) (onCC 0 fun r => (regs [(8, 0x400010)] r).writeH 2 h2)) (fun t =>
      let h := (t.cc 0).readH 3
      H.base h == 0xFFE0000028020 && H.size h 0 == 240 && H.size h 1 == 64 && H.fmt h == 10 && H.rank h == 2) &&
    next (exec (.hsub g0 3 2 8) (onCC 0 fun r => { ((regs [(8, 0x800010)] r).writeH 2 h2) with tvec := 0x5000 })) (fun t =>
      (t.cc 0).cause.toNat % 256 == Cause.shape.code && H.base ((t.cc 0).readH 3) == 0) = true := by decide +kernel

/-- R251: the three hashes of sector 0x2468AD. -/
theorem test_signature_hashes : sigBits 0x2468AD = [0x1B5, 0x2B6, 0x19D] := by decide +kernel

/-- Chapter 13: 1 + 2^-11 lies between two FP16 values and goes to the even one. -/
theorem test_hod_rounds_to_even : hodConvert .rne 0 9 10 0x3F801000 = 0x3C00 := by decide +kernel

/-- The VE of core 0 under a shape of FP32, 1 by n, with the registers given. -/
def onVE (t n : Nat) (l : List (Nat × Nat)) : State :=
  onStream false (fun v => { v with vsh := vsh t 1 n, v := l.foldl (fun m e => SMap.set 0 m e.1 (BitVec.ofNat _ e.2)) v.v }) id

/-- R175: a funnel shift of Z32 by 4, right and left. -/
theorem test_vfsh :
    let s := onVE 5 1 [(1, 0xAB), (2, 0x12000000), (3, 4)]
    next (exec (.vfsh v0 false 4 1 2 3 5 false) s) (fun t => ((t.ve 0).reg 4).toNat % 2 ^ 32 == 0xB1200000) &&
    next (exec (.vfsh v0 false 4 1 2 3 5 true) s) (fun t => ((t.ve 0).reg 4).toNat % 2 ^ 32 == 0xAB1) = true := by decide +kernel

/-- 1.5, -2.0, 0.25, -0.0, 3.0, -0.5, +0.0, 8.0, of the example that ends chapter 07. -/
def eight : Nat := [0x3FC00000, 0xC0000000, 0x3E800000, 0x80000000, 0x40400000, 0xBF000000, 0, 0x41000000].foldr (fun x a => x + a * 2 ^ 32) 0

/-- VCMP.GT pushes 0x95; the masked VRED under the inverse adds the others to -2.5. -/
theorem test_masked_sum :
    next (exec (.vcmp v0 1 2 6 4) (onVE 6 8 [(1, eight)])) (fun t => (t.ve 0).top.toNat % 256 == 0x95 && (t.ve 0).depth == 2) &&
    next (exec (.vred ⟨v0, true, 5, 1, 0, 6, 0, false, 0⟩)
      ((onVE 6 8 [(1, eight)]).modVE 0 fun v => { v with mask := SMap.set 0 v.mask 1 0x6A, depth := 2 })) (fun t =>
      ((t.ve 0).reg 5).toNat % 2 ^ 32 == 0xC0200000) = true := by decide +kernel

/-- Slots a1 and a3 of the example that ends chapter 10. -/
def rescaled (px : Nat) (e : Int) (cnt sum : Nat) (carried : Bool) : Nat × Option Slot :=
  (px, some { slot3 carried false cnt with lslot := px, e := BitVec.ofInt 10 e, el := [(0, { Acc.zero with sum := BitVec.ofNat 64 sum, res := BitVec.ofNat 2 (sum % 3) })] })

/-- PSCL by 2 rounds 110 / 4 to 28 and the count to 1; PADD adds 3 at the finer scale. -/
theorem test_slot_rescaled :
    next (exec (.pscl v0 1 2) (onPress [rescaled 1 (-4) 2 110 true])) (fun t => match slotOf t 0 0 1 with
      | some s => s.e == BitVec.ofInt 10 (-2) && s.cnt == 1 && (SMap.get Acc.zero s.el 0).sum == 28 && (SMap.get Acc.zero s.el 0).res == 1
      | none => false) &&
    next (exec (.padd v0 1 3 false 0) (onPress [rescaled 1 (-2) 1 28 true, rescaled 3 0 1 3 false])) (fun t => match slotOf t 0 0 1 with
      | some s => s.e == BitVec.ofInt 10 (-2) && s.cnt == 5 && (SMap.get Acc.zero s.el 0).sum == 40 && (SMap.get Acc.zero s.el 0).res == 1
      | none => false) = true := by decide +kernel

/-- R31, R77: a step of core 0 fetches ADDI s3, s4, -9 from its scratchpad, runs it and moves past its four bytes. -/
theorem test_step_runs_code :
    next (step ((onTurn (onCC 0 fun r => { (regs [(4, 4)] r) with pc := 0xFFE0000000040 }) (.cc 0)).modMem fun m =>
      m.write (0xFFD0000000000 + 0x40) 4 0xFC838207)) (fun t =>
        ((t.cc 0).readS 3).toNat == 2 ^ 64 - 5 && (t.cc 0).pc == 0xFFE0000000044) = true := by decide +kernel

/-! ## Signatures (log 10): the hash of FIPS 180-4's example, and a signature made with openssl -/

/-- SHA-384 of "abc", the example of FIPS 180-4. -/
theorem test_sha384 : sha384 [0x61, 0x62, 0x63] = 0xCB00753F45A35E8BB5A03D699AC65007272C32AB0EDED1631A8B605A43FF5BED8086072BA1E7CC2358BAECA134C825A7 := by
  decide +kernel

/-- A public key: the two coordinates, 48 bytes each. -/
def someKey : BitVec 768 := 0x7706D147B06EA8CF2AC464D0C88FB851AF079BA017165E23C4934180EED06D2FD89E5A3179153A631D12966E8EA2696A485AB769538DA05FE5775CF538F8B4B4B23934073E3748D23D89D5645EBA3B3309885A655FDB02ABD8AB6E614830779E

/-- R106: a signature over "abc" under that key, r then s, 48 bytes each. -/
def someSig : List Byte := beBytes 96 0x4B07FFB6B369FCBB4C1F8BD7D2006C1741EAB775E694AC3BCCE27E226C2366A8DF0B06C1A4AF94A95AB31C52A1B1A94628E91AC138DE1E3FA72DB5298E373AF5FA35D651D0CEC610D18F7635763EEDD3E09ED4F78525D00579B80470AB0F9E01

theorem test_signature : sigVerifies someKey [0x61, 0x62, 0x63] someSig = true := by decide +kernel
theorem test_signature_of_other_bytes : sigVerifies someKey [0x61, 0x62, 0x64] someSig = false := by decide +kernel


end Sys2Proof.Tests
end

/-! ## How an operation of the monad of meanings runs, and how an instruction of a core ends -/

namespace Sys2Proof.Machine

section Run
variable {α β : Type} (s : State)

theorem bind_run (x : M α) (f : α → M β) : (x >>= f) s = match x s with
    | .ok a t => f a t
    | .error e t => .error e t := by
  simp only [bind, EStateM.bind]
  split <;> simp_all
theorem pure_run (a : α) : (pure a : M α) s = .ok a s := rfl
theorem get_run : (get : M State) s = .ok s s := rfl
theorem doS_run (f : State → State) : doS f s = .ok () (f s) := rfl
theorem getS_run (p : Nat) (r : BitVec 5) : getS p r s = .ok ((s.cc p).readS r) s := rfl
theorem putS_run (p : Nat) (r : BitVec 5) (v : Word) : putS p r v s = .ok () (s.modCC p fun c => c.writeS r v) := rfl
theorem faultM_run (c : Cause) (a : Nat) : (faultM c a : M α) s = .error (.fault c a) s := rfl
theorem need_true (c : Cause) (a : Nat) : need true c a s = .ok () s := rfl
theorem need_false (c : Cause) (a : Nat) : need false c a s = .error (.fault c a) s := rfl
theorem await_true (ev : Nat) : await true ev s = .ok () s := rfl

end Run

section Ends
variable {k : Kind} {gd : Guard} {s t : State} {p n : Nat} {body : Nat → M Flow}

/-- The body completes: PC moves on and t is what is left. -/
theorem ccRun_done (h : Runs s p gd) (hk : k.admits p = true) (hb : body p s = .ok .next t) :
    Done (ccRun k false gd n body s) p n s t := by
  rw [ccRun_runs n body h hk, hb]
  exact ⟨_, rfl, same_retireCC _ _ _⟩

theorem ccRun_fault {c : Cause} {a : Nat} {st : Bool} {d : BitVec 24} (h : Runs s p gd) (hk : k.admits p = true)
    (hb : body p s = .error (.fault c a st d) t) : ccRun k false gd n body s = .next (takeFault t p c a st d) := by
  rw [ccRun_runs n body h hk, hb]

theorem ccRun_wait {ev : Nat} (h : Runs s p gd) (hk : k.admits p = true) (hb : body p s = .error (.wait ev) t) :
    Leaves (ccRun k false gd n body s) t := by
  rw [ccRun_runs n body h hk, hb]
  exact ⟨_, rfl, same_setStall _ _ _ _⟩

end Ends

theorem admits_control {p : Nat} (hp : p < 256) : Kind.control.admits p = true := by simp [Kind.admits, hp]

end Sys2Proof.Machine

/-! ## Brick instructions (12 R282-R285) -/

namespace Sys2Proof.Machine

section Bricks
variable {s : State} {p : Nat} {gd : Guard} {d a : BitVec 5} {f : BitVec 4}

theorem mem_freeTags {t : Nat} : t ∈ freeTags s p ↔ t < 8 ∧ s.brick p (BitVec.ofNat 3 t) = none := by
  simp [freeTags]

/-- A free tag is listed. -/
theorem freeTags_ne_nil (h : ∃ t : BitVec 3, s.brick p t = none) : freeTags s p ≠ [] := by
  obtain ⟨t, ht⟩ := h
  exact List.ne_nil_of_mem (mem_freeTags.2 ⟨t.isLt, by simpa using ht⟩)

/-- The tag that BPOP gives: one of the free ones (R282). -/
def takenTag (s : State) (p : Nat) : BitVec 3 :=
  BitVec.ofNat 3 ((freeTags s p).getD (Config.freeTag s.free % (freeTags s p).length) 0)

theorem brick_takenTag (h : ∃ t : BitVec 3, s.brick p t = none) : s.brick p (takenTag s p) = none := by
  have hlen : 0 < (freeTags s p).length := List.length_pos_iff.2 (freeTags_ne_nil h)
  have hi := Nat.mod_lt (Config.freeTag s.free) hlen
  have hmem := List.getElem_mem hi
  rw [takenTag, List.getD_eq_getElem?_getD, List.getElem?_eq_getElem hi, Option.getD_some]
  exact (mem_freeTags.1 hmem).2

/-- What BPOP leaves as it takes brick b under a tag. -/
def bpopTakes (s : State) (p : Nat) (d : BitVec 5) (b : Brick) (t : BitVec 3) : State :=
  acquireCo (mergePs (((((s.setBrick p t (some ⟨b, .running, false, b.nslot.toNat, s.mod.gts, false, [], []⟩)).modProc p fun v =>
    { v with cur := some t, heldBrick := none }).bump).modCC p fun r => r.writeS d (t.setWidth 64))) p b.sig) p

theorem takeBrick_run (b : Brick) : takeBrick p d b s = .ok () (bpopTakes s p d b (takenTag s p)) := rfl

theorem execBpop_illop (h : Runs s p gd) (hp : p < 256) (hfull : 8 ≤ (s.proc p).liveBricks.length) (ht : throttleAt s p = s) :
    execBpop gd d s = .next (takeFault s p .illop) := by
  refine ccRun_fault h (admits_control hp) ?_
  simp only [bind_run, doS_run, ht, get_run, decide_eq_false (Nat.not_lt.2 hfull), need_false]

theorem execBpop_takes {b : Brick} (h : Runs s p gd) (hp : p < 256) (hheld : (s.proc p).heldBrick = some b)
    (hroom : (s.proc p).liveBricks.length < 8) (ht : throttleAt s p = s) (hfree : ∃ t : BitVec 3, s.brick p t = none) :
    Done (execBpop gd d s) p 4 s (bpopTakes s p d b (takenTag s p)) := by
  refine ccRun_done h (admits_control hp) ?_
  have hne : (!(freeTags s p).isEmpty) = true := by simpa using freeTags_ne_nil hfree
  simp only [bind_run, doS_run, ht, get_run, decide_eq_true hroom, need_true, hne, await_true, hheld, takeBrick_run, pure_run]

/-- A tag names a live brick, or the instruction is ILLOP (R283). -/
theorem liveBrick_run {b : BrickReg} {tag : BitVec 3} (hb : s.brick p tag = some b) (hl : b.live = true) : liveBrick p tag s = .ok b s := by
  simp only [liveBrick, bind_run, get_run, hb, hl, if_true, pure_run]

theorem liveBrick_illop {tag : BitVec 3} (h : ∀ b, s.brick p tag = some b → b.live = false) :
    liveBrick p tag s = .error (.fault .illop 0) s := by
  simp only [liveBrick, bind_run, get_run]
  cases hb : s.brick p tag with
  | none => rfl
  | some b => simp only [h b hb, Bool.false_eq_true, if_false, faultM_run]

/-- The fields of BGET (R284), but for the current brick. -/
def bgetField (s : State) (p : Nat) (b : Brick) (k : Nat) : Word := match k with
  | 6 => BitVec.ofNat 64 b.eidx.toNat
  | 7 => BitVec.ofNat 64 b.ob
  | 8 => BitVec.ofNat 64 p
  | 9 => BitVec.ofNat 64 (obField (brickCopy s b) 142 2 * 65536 + obField (brickCopy s b) 140 2)
  | 10 => BitVec.ofNat 64 (obField (brickCopy s b) 144 8)
  | 11 => BitVec.ofNat 64 (obField (brickCopy s b) 152 8)
  | 13 => BitVec.ofNat 64 (b.nslot.toNat * 256 + b.prio.toNat * 2 + if b.rst then 1 else 0)
  | _ => (fld b.coord (16 * k) 16).setWidth 64

theorem bgetField_coord (s : State) (p : Nat) (b : Brick) {k : Nat} (hk : k ≤ 5) :
    bgetField s p b k = BitVec.ofNat 64 (b.coord.toNat / 2 ^ (16 * k) % 65536) := by
  have hdef : bgetField s p b k = (fld b.coord (16 * k) 16).setWidth 64 :=
    match k, hk with
    | 0, _ | 1, _ | 2, _ | 3, _ | 4, _ | 5, _ => rfl
  rw [hdef]
  apply BitVec.eq_of_toNat_eq
  simp [fld, Nat.shiftRight_eq_div_pow]

theorem execBget_field {b : BrickReg} (h : Runs s p gd) (hp : p < 256)
    (hb : s.brick p (((s.cc p).readS a).setWidth 3) = some b) (hl : b.live = true) (hf : f.toNat ≠ 12) :
    Done (execBget gd d a f s) p 4 s (s.modCC p fun r => r.writeS d (bgetField s p b.b f.toNat)) := by
  refine ccRun_done h (admits_control hp) ?_
  simp only [bind_run, getS_run, liveBrick_run hb hl, get_run, if_neg hf, putS_run, pure_run]
  rfl

theorem execBget_current {b : BrickReg} (h : Runs s p gd) (hp : p < 256)
    (hb : s.brick p (((s.cc p).readS a).setWidth 3) = some b) (hl : b.live = true) (hst : b.st = .running) (hf : f = 12) :
    Done (execBget gd d a f s) p 4 s ((s.modCC p fun r => r.writeS d (match (s.proc p).cur with
      | some t => BitVec.ofNat 64 t.toNat
      | none => 8)).modProc p fun v => { v with cur := some (((s.cc p).readS a).setWidth 3) }) := by
  have hf12 : f.toNat = 12 := by rw [hf]; rfl
  refine ccRun_done h (admits_control hp) ?_
  simp only [bind_run, getS_run, liveBrick_run hb hl, get_run, if_pos hf12, hst, beq_self_eq_true, need_true, putS_run, doS_run, pure_run]
  cases (s.proc p).cur with
  | none => rfl
  | some t => simp only [BitVec.ofNat_toNat]

theorem execBget_illop (h : Runs s p gd) (hp : p < 256)
    (hb : ∀ b, s.brick p (((s.cc p).readS a).setWidth 3) = some b → b.live = false) :
    execBget gd d a f s = .next (takeFault s p .illop) := by
  refine ccRun_fault h (admits_control hp) ?_
  simp only [bind_run, getS_run, liveBrick_illop hb]

theorem execBdone_illop (h : Runs s p gd) (hp : p < 256)
    (hb : ∀ b, s.brick p (((s.cc p).readS a).setWidth 3) = some b → b.live = false) :
    execBdone gd a s = .next (takeFault s p .illop) := by
  refine ccRun_fault h (admits_control hp) ?_
  simp only [bind_run, getS_run, liveBrick_illop hb]

theorem execBdone_retiring {b : BrickReg} (h : Runs s p gd) (hp : p < 256)
    (hb : s.brick p (((s.cc p).readS a).setWidth 3) = some b) (hl : b.live = true) (hst : b.st = .retiring) :
    execBdone gd a s = .next (takeFault s p .illop) := by
  refine ccRun_fault h (admits_control hp) ?_
  simp only [bind_run, getS_run, liveBrick_run hb hl, hst]
  rfl

theorem execBdone_done {b : BrickReg} (h : Runs s p gd) (hp : p < 256)
    (hb : s.brick p (((s.cc p).readS a).setWidth 3) = some b) (hl : b.live = true) (hst : b.st = .running) :
    Done (execBdone gd a s) p 4 s ((s.setBrick p (((s.cc p).readS a).setWidth 3) (some { b with st := .retiring })).modProc p fun v =>
      { v with cur := if v.cur = some (((s.cc p).readS a).setWidth 3) then none else v.cur }) := by
  refine ccRun_done h (admits_control hp) ?_
  simp only [bind_run, getS_run, liveBrick_run hb hl, hst, beq_self_eq_true, need_true, doS_run, pure_run]

end Bricks

/-! ## The Press lease (12 R286, R287) -/

section Lease
variable {s : State} {p : Nat} {gd : Guard} {d : BitVec 5}

theorem leaseState_eq (s : State) (p : Nat) : leaseState s p =
    if (s.cluster (p / 4)).press.holder = some (p % 4) then (if (s.cluster (p / 4)).press.releasing = true then 3 else 2)
    else if p % 4 ∈ (s.cluster (p / 4)).press.reqs then 1 else 0 := by
  simp only [leaseState, clusterOf, List.contains_iff_mem]
  congr

theorem leaseState_held (hk : (s.cluster (p / 4)).press.holder = some (p % 4)) (hr : (s.cluster (p / 4)).press.releasing = false) :
    leaseState s p = 2 := by simp [leaseState_eq, hk, hr]

theorem leaseState_asked (hk : (s.cluster (p / 4)).press.holder ≠ some (p % 4)) (hr : p % 4 ∈ (s.cluster (p / 4)).press.reqs) :
    leaseState s p = 1 := by simp [leaseState_eq, hk, hr]

theorem leaseState_none (hk : (s.cluster (p / 4)).press.holder ≠ some (p % 4)) (hr : p % 4 ∉ (s.cluster (p / 4)).press.reqs) :
    leaseState s p = 0 := by simp [leaseState_eq, hk, hr]

theorem leaseRequest_free (hk : (s.cluster (p / 4)).press.holder = none) (hr : (s.cluster (p / 4)).press.reqs = []) :
    leaseRequest s p = s.modPress (p / 4) fun pr => { pr with holder := some (p % 4), releasing := false } := by
  simp [leaseRequest, State.modPress, State.modCluster, clusterOf, hk, hr]

theorem leaseRequest_taken (hk : (s.cluster (p / 4)).press.holder ≠ none) :
    leaseRequest s p = s.modPress (p / 4) fun pr => { pr with reqs := pr.reqs ++ [p % 4] } := by
  simp [leaseRequest, State.modPress, State.modCluster, clusterOf, hk]

theorem execLease_holds (h : Runs s p gd) (hp : p < 256) (hk : (s.cluster (p / 4)).press.holder = some (p % 4))
    (hr : (s.cluster (p / 4)).press.releasing = false) : Done (execLease gd s) p 4 s s := by
  have hs := leaseState_held hk hr
  refine ccRun_done h (admits_control hp) ?_
  simp only [bind_run, get_run, hs, if_neg (show ¬ 2 = 0 by decide)]
  rfl

theorem execLease_waits (h : Runs s p gd) (hp : p < 256) (hk : (s.cluster (p / 4)).press.holder ≠ some (p % 4))
    (hr : p % 4 ∈ (s.cluster (p / 4)).press.reqs) : Leaves (execLease gd s) s := by
  have hs := leaseState_asked hk hr
  refine ccRun_wait (ev := 0x18) h (admits_control hp) ?_
  simp only [bind_run, get_run, hs, if_neg (show ¬ 1 = 0 by decide)]
  rfl

theorem execLease_free (h : Runs s p gd) (hp : p < 256) (hk : (s.cluster (p / 4)).press.holder = none)
    (hr : (s.cluster (p / 4)).press.reqs = []) :
    Done (execLease gd s) p 4 s (s.modPress (p / 4) fun pr => { pr with holder := some (p % 4), releasing := false }) := by
  have hs : leaseState s p = 0 := leaseState_none (by simp [hk]) (by simp [hr])
  have hgranted : leaseState (leaseRequest s p) p = 2 := by
    rw [leaseRequest_free hk hr]
    exact leaseState_held (by simp [State.modPress]) (by simp [State.modPress])
  refine ccRun_done h (admits_control hp) ?_
  simp only [bind_run, get_run, hs, if_true, doS_run, hgranted, ← leaseRequest_free hk hr]
  rfl

theorem execLease_asks (h : Runs s p gd) (hp : p < 256) (hn : (s.cluster (p / 4)).press.holder ≠ none)
    (hk : (s.cluster (p / 4)).press.holder ≠ some (p % 4)) (hr : p % 4 ∉ (s.cluster (p / 4)).press.reqs) :
    Leaves (execLease gd s) (s.modPress (p / 4) fun pr => { pr with reqs := pr.reqs ++ [p % 4] }) := by
  have hs := leaseState_none hk hr
  have hwaits : leaseState (leaseRequest s p) p = 1 := by
    rw [leaseRequest_taken hn]
    exact leaseState_asked (by simpa [State.modPress] using hk) (by simp [State.modPress])
  refine ccRun_wait (ev := 0x18) h (admits_control hp) ?_
  simp only [bind_run, get_run, hs, if_true, doS_run, hwaits, ← leaseRequest_taken hn]
  rfl

theorem execUnlease_done (h : Runs s p gd) (hp : p < 256) {t : State} (ht : unlease s p = t) : Done (execUnlease gd s) p 4 s t :=
  ccRun_done h (admits_control hp) (congrArg (EStateM.Result.ok Flow.next) ht)

theorem unlease_held (hk : (s.cluster (p / 4)).press.holder = some (p % 4)) (hr : (s.cluster (p / 4)).press.releasing = false) :
    unlease s p = (s.modPress (p / 4) fun pr => { pr with releasing := true }).modQ p fun q =>
      { q with pxq := q.pxq ++ [.release (s.cluster (p / 4)).press.pushes] } := by
  unfold unlease clusterOf
  exact if_pos (by rw [hk, hr]; simp)

theorem unlease_asked (hk : (s.cluster (p / 4)).press.holder ≠ some (p % 4)) (hr : p % 4 ∈ (s.cluster (p / 4)).press.reqs) :
    unlease s p = s.modPress (p / 4) fun pr => { pr with reqs := pr.reqs.filter (· != p % 4) } := by
  simp [unlease, clusterOf, hk, hr]

theorem unlease_none (hk : (s.cluster (p / 4)).press.holder ≠ some (p % 4)) (hr : p % 4 ∉ (s.cluster (p / 4)).press.reqs) :
    unlease s p = s := by simp [unlease, clusterOf, hk, hr]

/-- Bits 4-2 of LEASEQ: whether a core holds the Press, and which (R287). -/
def holderBits : Option Nat → Nat
  | some k => 16 + 4 * k
  | none => 0

theorem holderBits_eq {o : Option Nat} (h : ∀ k, o = some k → k < 4) : (if o.isSome then 16 else 0) + o.getD 0 % 4 * 4 = holderBits o := by
  cases o with
  | none => rfl
  | some k =>
    have hk := h k rfl
    simp only [Option.isSome_some, if_true, Option.getD_some, holderBits]
    omega

theorem execLeaseq_done (h : Runs s p gd) (hp : p < 256) (hq : (s.cluster (p / 4)).press.reqs.length < 8)
    (hk : ∀ k, (s.cluster (p / 4)).press.holder = some k → k < 4) :
    Done (execLeaseq gd d s) p 4 s (s.modCC p fun r => r.writeS d (BitVec.ofNat 64 ((s.cluster (p / 4)).press.reqs.length * 32 +
      holderBits (s.cluster (p / 4)).press.holder + leaseState s p))) := by
  refine ccRun_done h (admits_control hp) ?_
  have hbits := holderBits_eq hk
  simp only [bind_run, get_run, putS_run, pure_run, clusterOf, Nat.mod_eq_of_lt hq, ← hbits, Nat.add_assoc]
  congr

/-- The release point passes the lease on (R286, 10 R224). -/
theorem execLeaseRelease_passes {n : Nat} {rest : List Cmd} (hp : p < 256)
    (hk : (s.cluster (p / 4)).press.holder = some (p % 4)) (hr : (s.cluster (p / 4)).press.releasing = true)
    (hq : (s.proc p).q.pxq = .release n :: rest) (hc : engineCap (s.proc p) .px = none)
    (hg : ∀ g ∈ (s.cluster (p / 4)).press.gathered, g.cap.core = p → n ≤ g.no)
    (hw : ∀ r ∈ s.fl.remotes, r.q = p → r.eng ≠ some .px) :
    execLeaseRelease (p / 4) s = .next (leasePass (s.modQ p fun q => { q with pxq := rest }) (p / 4)) := by
  have hp4 : p / 4 * 4 + p % 4 = p := by omega
  have hcl : p / 4 < 64 := by omega
  have hserving : (s.proc p).eng.px.serving = none := by
    cases hs : (s.proc p).eng.px.serving <;> simp_all [engineCap]
  have hwrites : pressWrites s p = false := by simpa [pressWrites] using hw
  have hgathered : gatheredBefore s p n = false := by
    simpa [gatheredBefore, clusterOf, hserving] using hg
  simp only [execLeaseRelease, hcl, if_true, hk, hp4, hq, hr, hc, hwrites, hgathered]
  rfl

end Lease

/-- The numbered fields of BGET. -/
theorem bgetField_numbered (s : State) (p : Nat) (b : Brick) {e : Nat × Nat}
    (he : e ∈ [(6, b.eidx.toNat), (7, b.ob), (8, p), (9, obField (brickCopy s b) 142 2 * 65536 + obField (brickCopy s b) 140 2),
      (10, obField (brickCopy s b) 144 8), (11, obField (brickCopy s b) 152 8),
      (13, b.nslot.toNat * 256 + b.prio.toNat * 2 + b.rst.toNat)]) :
    e.1 ≠ 12 ∧ bgetField s p b e.1 = BitVec.ofNat 64 e.2 := by
  have hrst : b.rst.toNat = if b.rst then 1 else 0 := by cases b.rst <;> rfl
  simp only [List.mem_cons, List.not_mem_nil, or_false] at he
  rcases he with rfl | rfl | rfl | rfl | rfl | rfl | rfl <;> simp [bgetField, hrst]

/-- Settles O20: each clause is the run of its instruction's body (`ccRun_done`, `ccRun_fault`, `ccRun_wait`), and the release point
passes the lease on (`execLeaseRelease_passes`). -/
theorem brickInstructions : Obligations.BrickInstructions := by
  unfold Obligations.BrickInstructions
  refine ⟨fun s p gd d a f h hp => ?_, fun s p gd d hp => ?_⟩
  · refine ⟨fun hfull ht => execBpop_illop h hp hfull ht, fun b hheld hroom ht hfree => ?_, fun hb => ?_, fun b hb hl => ?_⟩
    · exact ⟨takenTag s p, brick_takenTag hfree, execBpop_takes h hp hheld hroom ht hfree⟩
    · exact ⟨execBget_illop h hp hb, execBdone_illop h hp hb⟩
    · refine ⟨fun hf => ?_, fun e he hf => ?_, fun hf hst => execBget_current h hp hb hl hst hf, execBdone_retiring h hp hb hl,
        execBdone_done h hp hb hl⟩
      · rw [← bgetField_coord s p b.b hf]
        exact execBget_field h hp hb hl (by omega)
      · obtain ⟨hne, hvalue⟩ := bgetField_numbered s p b.b he
        rw [← hf] at hne hvalue
        rw [← hvalue]
        exact execBget_field h hp hb hl hne
  · refine ⟨fun h => ?_, fun n rest hk hr hq hc hg hw => ?_⟩
    · refine ⟨fun ⟨hk, hr⟩ => execLease_holds h hp hk hr, execLease_free h hp, execLease_asks h hp, execLease_waits h hp,
        fun ⟨hk, hr⟩ => execUnlease_done h hp (unlease_held hk hr), fun hk hr => execUnlease_done h hp (unlease_asked hk hr),
        fun hk hr => execUnlease_done h hp (unlease_none hk hr), fun hq hk => ?_⟩
      have hdone := execLeaseq_done (d := d) h hp hq hk
      rw [leaseState_eq] at hdone
      exact hdone
    · exact ⟨_, execLeaseRelease_passes hp hk hr hq hc hg hw, .refl _⟩

end Sys2Proof.Machine

/-! ## What the Mason's accounts leave alone (18 R386-R397)

The Mason's bookkeeping changes contexts and memory alone (`State.apart`), and most of it of a context its graphs alone
(`Ctx.plan`), and of a graph its OBs alone (`Ctx.shape`). -/

namespace Sys2Proof.Machine

/-- What a fold's every step keeps, the fold keeps. -/
theorem foldl_keeps {α β γ : Type} {f : α → β → α} {g : α → γ} (h : ∀ a b, g (f a b) = g a) (l : List β) (a : α) :
    g (l.foldl f a) = g a := by
  induction l generalizing a with
  | nil => rfl
  | cons b l ih => rw [List.foldl_cons, ih, h]

/-- The state but for contexts and memory. -/
def State.apart (s : State) : State := { s with ctxs := [], mem := Memory.reset }

/-- A context but for its graphs. -/
def Ctx.plan (c : Ctx) : Ctx := { c with graphs := [] }

/-- A context's graphs but for their OBs. -/
def Ctx.shape (c : Ctx) : List Graph := c.graphs.map fun g => { g with obs := [] }

section Apart
variable {s t : State} (h : t.apart = s.apart)
include h

theorem State.apart_procs : t.procs = s.procs := by
  change t.apart.procs = s.apart.procs; rw [h]
theorem State.apart_clusters : t.clusters = s.clusters := by
  change t.apart.clusters = s.apart.clusters; rw [h]
theorem State.apart_steppers : t.steppers = s.steppers := by
  change t.apart.steppers = s.apart.steppers; rw [h]
theorem State.apart_fl : t.fl = s.fl := by
  change t.apart.fl = s.apart.fl; rw [h]
theorem State.apart_out : t.out = s.out := by
  change t.apart.out = s.apart.out; rw [h]
theorem State.apart_stepper (q : Nat) : t.stepper q = s.stepper q := by rw [State.stepper, State.stepper, State.apart_steppers h]
theorem State.apart_cluster (c : Nat) : t.cluster c = s.cluster c := by rw [State.cluster, State.cluster, State.apart_clusters h]

end Apart

theorem modOb_of_none {s : State} {x obt : Nat} (h : s.graph x obt = none) (k : Nat) (f : Ob → Ob) : modOb s x obt k f = s := by
  unfold modOb
  rw [h]

/-- An OB's account changes in every graph of its OB table's name, and its STAT in memory (R384). -/
theorem modOb_of_some {s : State} {x obt : Nat} {g : Graph} (h : s.graph x obt = some g) (k : Nat) (f : Ob → Ob) :
    modOb s x obt k f = (modGraph s x obt fun g' => { g' with obs := SMap.set Ob.reset g'.obs k (f (g.ob k)) }).modMem fun m =>
      m.write (g.obt + 256 * k + 184) 8 (f (g.ob k)).stat := by
  unfold modOb
  rw [h]

/-- What both the account and the store of STAT keep, `modOb` keeps. -/
theorem modOb_keeps {γ : Type} {π : State → γ} {s : State} {x obt k : Nat} (f : Ob → Ob) (hm : ∀ s f, π (s.modMem f) = π s)
    (hg : ∀ o, π (modGraph s x obt fun g => { g with obs := SMap.set Ob.reset g.obs k o }) = π s) : π (modOb s x obt k f) = π s := by
  cases h : s.graph x obt with
  | none => rw [modOb_of_none h]
  | some g => rw [modOb_of_some h, hm, hg]

section Accounts
variable (s : State) (x obt k y : Nat)

@[simp] theorem modCtx_apart (f : Ctx → Ctx) : (s.modCtx x f).apart = s.apart := rfl
@[simp] theorem modGraph_apart (f : Graph → Graph) : (modGraph s x obt f).apart = s.apart := rfl

@[simp] theorem modOb_apart (f : Ob → Ob) : (modOb s x obt k f).apart = s.apart :=
  modOb_keeps f (fun _ _ => rfl) fun _ => rfl

@[simp] theorem pendGraph_apart (g : Graph) : (pendGraph s x g).apart = s.apart :=
  foldl_keeps (fun _ _ => modOb_apart _ _ _ _ _) _ _

@[simp] theorem releaseGraphs_apart (b : Bool) : (releaseGraphs s x b).apart = s.apart :=
  (foldl_keeps (fun _ _ => pendGraph_apart _ _ _) _ _).trans (modCtx_apart _ _ _)

@[simp] theorem settleCtx_apart : (settleCtx s x).apart = s.apart := by
  unfold settleCtx
  extract_lets t c
  split
  · exact (modCtx_apart _ _ _).trans (modCtx_apart _ _ _)
  · exact modCtx_apart _ _ _

/-! ### Contexts -/

theorem modCtx_plan {f : Ctx → Ctx} (hf : ∀ c, (f c).plan = c.plan) : ((s.modCtx x f).ctx y).plan = (s.ctx y).plan := by
  rw [State.ctx_modCtx]
  split
  · subst y; exact hf _
  · rfl

@[simp] theorem modGraph_plan (f : Graph → Graph) : ((modGraph s x obt f).ctx y).plan = (s.ctx y).plan :=
  modCtx_plan s x y fun _ => rfl

@[simp] theorem modOb_plan (f : Ob → Ob) : ((modOb s x obt k f).ctx y).plan = (s.ctx y).plan :=
  modOb_keeps (π := fun s => (s.ctx y).plan) f (fun _ _ => rfl) fun _ => modGraph_plan _ _ _ _ _

@[simp] theorem pendGraph_plan (g : Graph) : ((pendGraph s x g).ctx y).plan = (s.ctx y).plan :=
  foldl_keeps (g := fun s : State => (s.ctx y).plan) (fun _ _ => modOb_plan _ _ _ _ _ _) _ _

@[simp] theorem releaseGraphs_plan (b : Bool) : ((releaseGraphs s x b).ctx y).plan = (s.ctx y).plan :=
  (foldl_keeps (g := fun s : State => (s.ctx y).plan) (fun _ _ => pendGraph_plan _ _ _ _) _ _).trans (modCtx_plan _ _ _ fun _ => rfl)

/-! ### Graphs -/

theorem modGraph_shape {f : Graph → Graph} (hf : ∀ g, { f g with obs := [] } = { g with obs := [] }) :
    ((modGraph s x obt f).ctx y).shape = (s.ctx y).shape := by
  unfold modGraph
  rw [State.ctx_modCtx]
  split
  · subst y
    simp only [Ctx.shape, List.map_map]
    refine List.map_congr_left fun g _ => ?_
    simp only [Function.comp_apply]
    split
    · exact hf g
    · rfl
  · rfl

@[simp] theorem modOb_shape (f : Ob → Ob) : ((modOb s x obt k f).ctx y).shape = (s.ctx y).shape :=
  modOb_keeps (π := fun s => (s.ctx y).shape) f (fun _ _ => rfl) fun _ => modGraph_shape _ _ _ _ fun _ => rfl

@[simp] theorem pendGraph_shape (g : Graph) : ((pendGraph s x g).ctx y).shape = (s.ctx y).shape :=
  foldl_keeps (g := fun s : State => (s.ctx y).shape) (fun _ _ => modOb_shape _ _ _ _ _ _) _ _

end Accounts

/-- The released graphs are counted into the step; no graph is held any more (R23). -/
def releasedGraph (withSeq : Bool) (g : Graph) : Graph :=
  if g.held || (withSeq && g.ofSeq) then { g with held := false, counted := withSeq } else g

theorem releaseGraphs_shape (s : State) (x : Nat) (b : Bool) :
    ((releaseGraphs s x b).ctx x).shape = (s.ctx x).shape.map (releasedGraph b) := by
  have hfold := foldl_keeps (g := fun s : State => (s.ctx x).shape) (f := fun s g => pendGraph s x g)
    (fun _ _ => pendGraph_shape _ _ _ _) ((s.ctx x).graphs.filter fun g => g.held || (b && g.ofSeq))
    (s.modCtx x fun c => { c with graphs := c.graphs.map (releasedGraph b) })
  refine hfold.trans ?_
  simp only [State.ctx_modCtx_same, Ctx.shape, List.map_map]
  refine List.map_congr_left fun g _ => ?_
  simp only [Function.comp_apply, releasedGraph]
  split <;> rfl

/-- What a context's graphs do not enter. -/
theorem eq_of_plan {γ : Type} (π : Ctx → γ) {c d : Ctx} (hπ : ∀ c : Ctx, π c.plan = π c) (h : c.plan = d.plan) : π c = π d := by
  rw [← hπ c, h, hπ d]

/-- A property of graphs that their OBs do not enter. -/
theorem forall_mem_graphs {c : Ctx} {P : Graph → Prop} (hP : ∀ g, P { g with obs := [] } ↔ P g) :
    (∀ g ∈ c.graphs, P g) ↔ ∀ g ∈ c.shape, P g := by
  simp only [Ctx.shape, List.forall_mem_map, hP]

/-- The step that opens (R21): everything but contexts and memory. -/
theorem openStep_apart (s : State) (q x : Nat) : (openStep s q x).apart =
    (s.modStepper q fun t => { t with stepOpen := true, ctl := ((s.stepper q).row.getD []).getD 0 0, row := none, rdvSince := none }).apart := by
  unfold openStep
  exact (releaseGraphs_apart _ _ _).trans (modCtx_apart _ _ _)

theorem openStep_stepper (s : State) (q x : Nat) : (openStep s q x).stepper q =
    { s.stepper q with stepOpen := true, ctl := ((s.stepper q).row.getD []).getD 0 0, row := none, rdvSince := none } := by
  rw [State.apart_stepper (openStep_apart s q x), State.stepper_modStepper_same]

end Sys2Proof.Machine

/-! ## Rendezvous between modules (16 R360) -/

namespace Sys2Proof.Machine

section Rendezvous
variable (s : State) (q x : Nat)

@[simp] theorem heard_ctx (node y : Nat) : (heard s node).ctx y = s.ctx y := by
  unfold heard; split <;> rfl
@[simp] theorem heard_stepper (node : Nat) : (heard s node).stepper q = s.stepper q := by
  unfold heard; split <;> rfl
@[simp] theorem heard_mod (node : Nat) : (heard s node).mod = s.mod := by
  unfold heard; split <;> rfl
@[simp] theorem heard_fl (node : Nat) : (heard s node).fl = s.fl := by
  unfold heard; split <;> rfl
@[simp] theorem heard_admitted (node : Nat) (g : BitVec 12) (n : Nat) : admitted (heard s node) g n = admitted s g n := by
  simp [admitted]
@[simp] theorem heard_seqOf (node : Nat) : seqOf (heard s node) x = seqOf s x := by simp [seqOf]

/-- What an acquire by the context's cores leaves alone. -/
theorem acquireContext_keeps {γ : Type} {g : State → γ} (hp : ∀ s p f, g (s.modProc p f) = g s)
    (hs : ∀ (s : State) v, g { s with saved := v } = g s) : g (acquireContext s x) = g s := by
  unfold acquireContext
  extract_lets t
  refine (hs t _).trans (foldl_keeps (fun s e => ?_) _ _)
  split
  · exact hp s e.1 fun v => { v with coh := { v.coh.flush with wsCur := allOnes } }
  · rfl

@[simp] theorem acquireContext_stepper : (acquireContext s x).stepper q = s.stepper q :=
  acquireContext_keeps (g := fun s => s.stepper q) s x (fun _ _ _ => rfl) fun _ _ => rfl
@[simp] theorem acquireContext_fl : (acquireContext s x).fl = s.fl :=
  acquireContext_keeps (g := State.fl) s x (fun _ _ _ => rfl) fun _ _ => rfl
@[simp] theorem acquireContext_out : (acquireContext s x).out = s.out :=
  acquireContext_keeps (g := State.out) s x (fun _ _ _ => rfl) fun _ _ => rfl

end Rendezvous

/-- The leader's answer to one member (R360). -/
def answerMember (q x : Nat) (n : BitVec 32) (s : State) (m : Nat) : State :=
  if (s.ctx x).member.getLsbD m && m != s.mod.node.toNat then s.sendFlit m 6 (s.ctx x).gid q 0 n.toNat rdvAnswer else s

section Answers
variable (q x : Nat) (n : BitVec 32) (s : State)

@[simp] theorem answerMember_ctx (m y : Nat) : (answerMember q x n s m).ctx y = s.ctx y := by
  unfold answerMember; split <;> rfl
@[simp] theorem answerMember_mod (m : Nat) : (answerMember q x n s m).mod = s.mod := by
  unfold answerMember; split <;> rfl
theorem answerMember_out (m : Nat) : s.out <:+ (answerMember q x n s m).out := by
  unfold answerMember
  split
  · exact List.suffix_cons _ _
  · exact List.suffix_refl _

theorem answerMembers_out_mono (l : List Nat) : s.out <:+ (l.foldl (answerMember q x n) s).out := by
  induction l generalizing s with
  | nil => exact List.suffix_refl _
  | cons m l ih => exact (answerMember_out q x n s m).trans (ih _)

/-- Every other member of the list is sent an answer. -/
theorem answer_mem_out {l : List Nat} {m : Nat} (hm : m ∈ l) (hmem : (s.ctx x).member.getLsbD m = true) (hne : m ≠ s.mod.node.toNat) :
    ∃ lseq, Msg.flit m s.mod.node.toNat 6 (s.ctx x).gid q 0 lseq n rdvAnswer ∈ (l.foldl (answerMember q x n) s).out := by
  induction l generalizing s with
  | nil => simp at hm
  | cons j l ih =>
    rcases List.mem_cons.1 hm with rfl | hl
    · refine ⟨Config.freeLseq s.out.length, (answerMembers_out_mono q x n _ l).mem ?_⟩
      unfold answerMember
      rw [if_pos (by simp [hmem, hne])]
      simp only [State.sendFlit, State.out_send, BitVec.ofNat_toNat, BitVec.setWidth_eq]
      exact List.mem_cons_self
    · simpa using ih (answerMember q x n s j) hl (by simpa using hmem) (by simpa using hne)

end Answers

end Sys2Proof.Machine

/-! ## Arrivals, answers and ports (02 R24; 16 R350, R356-R362) -/

namespace Sys2Proof.Machine

section Arrivals
variable (s : State) (q x node : Nat) (n : BitVec 32)

@[simp] theorem recordArrival_ctx (y : Nat) : (recordArrival s q node n).ctx y = s.ctx y := by
  unfold recordArrival; split <;> rfl
@[simp] theorem recordArrival_mod : (recordArrival s q node n).mod = s.mod := by
  unfold recordArrival; split <;> rfl
@[simp] theorem recordArrival_links : (recordArrival s q node n).links = s.links := by
  unfold recordArrival; split <;> rfl
@[simp] theorem recordArrival_leader (y : Nat) : leaderOf (recordArrival s q node n) y = leaderOf s y := by
  simp [leaderOf]

theorem recordArrival_new (h : (q, n, node) ∉ s.fl.arrivals) :
    recordArrival s q node n = s.modFl fun f => { f with arrivals := f.arrivals ++ [(q, n, node)] } := by
  unfold recordArrival
  exact if_neg (by simpa using h)

theorem mem_recordArrival (a : Nat × BitVec 32 × Nat) :
    a ∈ (recordArrival s q node n).fl.arrivals ↔ a = (q, n, node) ∨ a ∈ s.fl.arrivals := by
  unfold recordArrival
  split
  · next h =>
    have hmem : (q, n, node) ∈ s.fl.arrivals := by simpa using h
    constructor
    · exact .inr
    · rintro (rfl | ha)
      · exact hmem
      · exact ha
  · simp [or_comm]

theorem allArrived_iff : allArrived s q x n = true ↔
    ∀ m, m < 768 → (s.ctx x).member.getLsbD m = true → (q, n, m) ∈ s.fl.arrivals := by
  simp only [allArrived, List.all_eq_true, List.mem_range, Bool.or_eq_true, Bool.not_eq_true', List.any_eq_true, beq_iff_eq,
    exists_eq_right]
  exact forall₂_congr fun m _ => by cases (s.ctx x).member.getLsbD m <;> simp

/-- The answers to the members of a list, after which the arrivals of the step are gone. -/
def answered (s : State) (q x : Nat) (n : BitVec 32) (l : List Nat) : State :=
  (l.foldl (answerMember q x n) s).modFl fun f => { f with arrivals := f.arrivals.filter fun a => !(a.1 == q && a.2.1 == n) }

theorem answered_out (l : List Nat) : (answered s q x n l).out = (l.foldl (answerMember q x n) s).out := rfl

/-- The leader answers every member, and opens its own step where its sequencer waits (R360). -/
theorem answerMembers_cases : answerMembers s q x n = answered s q x n (List.range 768) ∨
    answerMembers s q x n = openStep (acquireContext (answered s q x n (List.range 768)) x) q x := by
  unfold answerMembers
  generalize List.range 768 = l
  extract_lets t u
  split
  · exact .inr rfl
  · exact .inl rfl

theorem answerMembers_fl : (answerMembers s q x n).fl = (answered s q x n (List.range 768)).fl := by
  rcases answerMembers_cases s q x n with h | h
  · rw [h]
  · rw [h, State.apart_fl (openStep_apart _ q x), State.modStepper_fl, acquireContext_fl]

theorem answerMembers_out : (answerMembers s q x n).out = (answered s q x n (List.range 768)).out := by
  rcases answerMembers_cases s q x n with h | h
  · rw [h]
  · rw [h, State.apart_out (openStep_apart _ q x), State.modStepper_out, acquireContext_out]

theorem answerMembers_arrivals : ∀ a ∈ (answerMembers s q x n).fl.arrivals, a.1 ≠ q ∨ a.2.1 ≠ n := by
  rw [answerMembers_fl]
  generalize List.range 768 = l
  simp only [answered, State.fl_modFl, List.mem_filter]
  rintro a ⟨-, ha⟩
  by_cases hq : a.1 = q
  · refine .inr fun hn => ?_
    rw [hq, hn, beq_self_eq_true, beq_self_eq_true] at ha
    exact Bool.false_ne_true ha
  · exact .inl hq

theorem answerMembers_answers {m : Nat} (hm : m < 768) (hmem : (s.ctx x).member.getLsbD m = true) (hne : m ≠ s.mod.node.toNat) :
    ∃ lseq, Msg.flit m s.mod.node.toNat 6 (s.ctx x).gid q 0 lseq n rdvAnswer ∈ (answerMembers s q x n).out := by
  rw [answerMembers_out, answered_out]
  exact answer_mem_out q x n s (List.mem_range.2 hm) hmem hne

end Arrivals

section Flit
variable {s : State} {h : FlitHdr} {q x : Nat} {n : BitVec 32} {b : Bool} (hport : h.port < 18) (hnode : h.snode < 768) (hq : q < 8)
include hport hnode hq

theorem rendezvousFlit_ignored (ha : ∀ x, admitted s h.gid h.snode = some x → seqOf s x ≠ some q) :
    execRendezvousFlit h q n b s = .next (heard s h.snode) := by
  have hok : (!hdrOk h || decide (8 ≤ q)) = false := by simp [hdrOk, linkPorts, hport, hnode, hq]
  unfold execRendezvousFlit
  rw [hok]
  simp only [heard_admitted]
  cases hx : admitted s h.gid h.snode with
  | none => rfl
  | some x => simp [ha x hx]

section Admitted
variable (ha : admitted s h.gid h.snode = some x) (hx : seqOf s x = some q)
include ha hx

theorem rendezvousFlit_answer : execRendezvousFlit h q n true s = .next (
    if (s.stepper q).st = .run ∧ (s.stepper q).rdvSince.isSome = true ∧ BitVec.ofNat 32 (s.stepper q).done = n then
      openStep (acquireContext (heard s h.snode) x) q x else heard s h.snode) := by
  have hok : (!hdrOk h || decide (8 ≤ q)) = false := by simp [hdrOk, linkPorts, hport, hnode, hq]
  unfold execRendezvousFlit
  rw [hok]
  simp only [heard_admitted, ha, heard_stepper, heard_seqOf, hx, Bool.false_eq_true, if_false, if_true, ne_eq, not_true_eq_false,
    Bool.and_eq_true, decide_eq_true_eq, beq_iff_eq, and_assoc]
  split <;> rfl

theorem rendezvousFlit_arrival : execRendezvousFlit h q n false s = .next (
    if leaderOf (heard s h.snode) x = s.mod.node.toNat ∧ allArrived (recordArrival (heard s h.snode) q h.snode n) q x n = true then
      answerMembers (recordArrival (heard s h.snode) q h.snode n) q x n else recordArrival (heard s h.snode) q h.snode n) := by
  have hok : (!hdrOk h || decide (8 ≤ q)) = false := by simp [hdrOk, linkPorts, hport, hnode, hq]
  unfold execRendezvousFlit
  rw [hok]
  simp only [heard_admitted, ha, heard_seqOf, hx, recordArrival_leader, recordArrival_mod, heard_mod, Bool.false_eq_true, if_false,
    ne_eq, not_true_eq_false, Bool.and_eq_true, decide_eq_true_eq]
  split <;> rfl

end Admitted
end Flit

section Ports
variable {s : State} {port : Nat} (hp : port < 18)
include hp

theorem port_exists : ¬ linkPorts ≤ port := Nat.not_le.2 hp

theorem linkControlFlit_ignored (arg : BitVec 32) : execLinkControlFlit port arg s = .next s := if_neg (port_exists hp)

theorem flitReservedType_dropped {ty : BitVec 4} (hty : 9 ≤ ty.toNat) :
    execFlitReservedType port ty s = .next (modPort s port fun p => { p with dropped := p.dropped + 1 }) := by
  rw [execFlitReservedType, if_neg (port_exists hp), if_neg (Nat.not_lt.2 hty)]

theorem flitReplay_counted (lseq : BitVec 14) :
    execFlitReplay port lseq s = .next (modPort s port fun p => { p with replays := p.replays + 1 }) := if_neg (port_exists hp)

theorem laneSparing_spares {lane : Nat} (hl : lane < 4) {p : Port} (hport : SMap.get Port.reset s.links.ports port = p) :
    let bad : BitVec 4 := p.bad ||| BitVec.ofNat 4 (2 ^ lane)
    let good := ((List.range 4).filter fun i => !bad.getLsbD i).length
    let spared : Port := { p with bad := bad, lanes := if good < 2 then 0 else 2, down := decide (good < 2) }
    execLaneSparing port lane s = .next (s.modLinks fun l => { l with ports := SMap.set Port.reset l.ports port spared }) := by
  have hcond : ¬ ((decide (linkPorts ≤ port) || decide (4 ≤ lane)) = true) := by
    rw [Bool.or_eq_true, decide_eq_true_eq, decide_eq_true_eq, linkPorts]
    omega
  intro bad good spared
  subst hport
  exact if_neg hcond

end Ports

/-- Settles O53: an arrival is recorded once and answered when all have come, the answer opens the step that waits for it, and the
ports count and spare. -/
theorem rendezvousAndPorts : Obligations.RendezvousAndPorts := by
  unfold Obligations.RendezvousAndPorts
  intro s
  refine ⟨fun h q n answer hport hnode hq => ?_, fun port hport => ?_, fun port prio pause hport hprio => ?_, fun q hq => ?_⟩
  · refine ⟨fun ha => ⟨_, rendezvousFlit_ignored hport hnode hq (by simp [ha]), .refl _⟩, fun x ha => ⟨fun hx => ?_, fun hx => ?_⟩⟩
    · exact ⟨_, rendezvousFlit_ignored hport hnode hq (by simpa [ha] using hx), .refl _⟩
    · refine ⟨fun hno => ?_, fun hst hsince hdone => ?_, fun hnew hleader => ?_, fun hnew hleader hall => ?_⟩
      · refine ⟨_, rendezvousFlit_answer hport hnode hq ha hx, ?_⟩
        rw [if_neg]
        · exact .refl _
        · rintro ⟨hst, hsince, hdone⟩
          rcases hno with hno | hno | hno
          · exact hno hst
          · rw [hno] at hsince; exact Bool.noConfusion hsince
          · exact hno hdone
      · refine ⟨_, rendezvousFlit_answer hport hnode hq ha hx, ?_⟩
        rw [if_pos ⟨hst, hsince, hdone⟩, openStep_stepper]
        simp
      · refine ⟨_, rendezvousFlit_arrival hport hnode hq ha hx, ?_⟩
        rw [if_neg fun hall => hleader hall.1, recordArrival_new _ _ _ _ (by simpa using hnew)]
        exact .refl _
      · have harrived : allArrived (recordArrival (heard s h.snode) q h.snode n) q x n = true := by
          simpa [allArrived_iff, mem_recordArrival] using hall
        refine ⟨_, rendezvousFlit_arrival hport hnode hq ha hx, ?_⟩
        rw [if_pos ⟨hleader, harrived⟩]
        refine ⟨answerMembers_arrivals _ q x n, fun m hm hmem hne => ?_⟩
        simpa using answerMembers_answers (recordArrival (heard s h.snode) q h.snode n) q x n hm (by simpa using hmem) (by simpa using hne)
  · refine ⟨fun arg => linkControlFlit_ignored hport arg, fun ty hty => ⟨_, flitReservedType_dropped hport hty, .refl _⟩,
      fun lseq => ⟨_, flitReplay_counted hport lseq, .refl _⟩, fun lane hl => ⟨fun hgood => ?_, fun hgood => ?_⟩⟩
    · refine ⟨_, laneSparing_spares hport hl rfl, ?_⟩
      rw [if_neg (Nat.not_lt.2 hgood), decide_eq_false (Nat.not_lt.2 hgood)]
      exact .refl _
    · refine ⟨_, laneSparing_spares hport hl rfl, ?_⟩
      rw [if_pos hgood, decide_eq_true hgood]
      exact .refl _
  · exact ⟨_, if_neg (by simp; omega), .refl _⟩
  · exact ⟨_, if_neg (Nat.not_le.2 hq), .refl _⟩

end Sys2Proof.Machine

/-! ## Settling a context, and fault records (18 R397; 15 R334-R337) -/

namespace Sys2Proof.Machine

section Settle
variable (s : State) (x y : Nat)

/-- Settling changes a context's graphs and its STATE alone. -/
theorem settleCtx_keeps {γ : Type} {π : Ctx → γ} (hg : ∀ c gs, π { c with graphs := gs } = π c)
    (hd : ∀ c st, π { c with d := { c.d with st := st } } = π c) : π ((settleCtx s x).ctx y) = π (s.ctx y) := by
  have hkeep (t : State) (f : Ctx → Ctx) (hf : ∀ c, π (f c) = π c) : π ((t.modCtx x f).ctx y) = π (t.ctx y) := by
    rw [State.ctx_modCtx]
    split
    · subst y; exact hf _
    · rfl
  unfold settleCtx
  extract_lets t c
  have ht : π (t.ctx y) = π (s.ctx y) := hkeep s _ fun c => hg c _
  split
  · exact (hkeep t _ fun c => hd c _).trans ht
  · exact ht

@[simp] theorem settleCtx_mem : (settleCtx s x).mem = s.mem := by
  unfold settleCtx
  extract_lets
  split <;> rfl

/-- The graphs that settling leaves were in flight before. -/
theorem settleCtx_graphs_subset : ((settleCtx s x).ctx x).graphs ⊆ (s.ctx x).graphs := by
  have hfilter (f : Graph → Bool) : ((s.modCtx x fun c => { c with graphs := c.graphs.filter f }).ctx x).graphs ⊆ (s.ctx x).graphs := by
    rw [State.ctx_modCtx_same]
    exact fun g hg => (List.mem_filter.1 hg).1
  unfold settleCtx
  extract_lets t c
  split
  · rw [State.ctx_modCtx_same]
    exact hfilter _
  · exact hfilter _

end Settle

section Records
variable (s : State) (x : Nat) (k : RecKind) (r : Rec)

/-- The fault queue of a context after one more record (15 R334, R337). -/
def FaultQ.recorded (q : FaultQ) : FaultQ :=
  if q.count ≥ 256 then { q with seq := q.seq + 1, lost := if q.lost = 255 then 255 else q.lost + 1 }
  else { q with seq := q.seq + 1, count := q.count + 1, seqs := SMap.set 0 q.seqs ((q.head + q.count) % 256) q.seq }

theorem sendPost_ctx (src : PostSource) (a b c : Nat) (n : BitVec 32) (g : Sig) (y : Nat) :
    (sendPost s src a b c n g).ctx y = s.ctx y := rfl

theorem writeRecord_ctx : (writeRecord s x k r).ctx x = { s.ctx x with fq := (s.ctx x).fq.recorded } := by
  unfold writeRecord FaultQ.recorded
  extract_lets q pos w t u
  split
  · rw [State.ctx_modCtx_same]
  · have hu : u.ctx x = { t.ctx x with fq := { q with seq := q.seq + 1, count := q.count + 1, seqs := SMap.set 0 q.seqs pos q.seq } } :=
      State.ctx_modCtx_same t x _
    have ht : t.ctx x = s.ctx x := State.modMem_ctx s _ x
    rw [ht] at hu
    split
    · rw [sendPost_ctx]; exact hu
    · exact hu

/-- A record changes the context, memory and the posts alone. -/
theorem writeRecord_keeps {γ : Type} {π : State → γ} (hc : ∀ s f, π (s.modCtx x f) = π s) (hm : ∀ s f, π (s.modMem f) = π s)
    (hf : ∀ s f, π (s.modFl f) = π s) : π (writeRecord s x k r) = π s := by
  unfold writeRecord
  extract_lets q pos w t u
  split
  · exact hc _ _
  · have hu : π u = π s := (hc t _).trans (hm s _)
    split
    · exact (hf u _).trans hu
    · exact hu

@[simp] theorem writeRecord_stepper (j : Nat) : (writeRecord s x k r).stepper j = s.stepper j :=
  writeRecord_keeps (π := fun s => s.stepper j) s x k r (fun _ _ => rfl) (fun _ _ => rfl) fun _ _ => rfl
@[simp] theorem writeRecord_procs : (writeRecord s x k r).procs = s.procs :=
  writeRecord_keeps (π := State.procs) s x k r (fun _ _ => rfl) (fun _ _ => rfl) fun _ _ => rfl
@[simp] theorem writeRecord_clusters : (writeRecord s x k r).clusters = s.clusters :=
  writeRecord_keeps (π := State.clusters) s x k r (fun _ _ => rfl) (fun _ _ => rfl) fun _ _ => rfl

theorem FaultQ.recorded_of_full {q : FaultQ} (h : 256 ≤ q.count) :
    q.recorded = { q with seq := q.seq + 1, lost := if q.lost = 255 then 255 else q.lost + 1 } := if_pos h
theorem FaultQ.recorded_of_room {q : FaultQ} (h : q.count < 256) : q.recorded =
    { q with seq := q.seq + 1, count := q.count + 1, seqs := SMap.set 0 q.seqs ((q.head + q.count) % 256) q.seq } :=
  if_neg (Nat.not_le.2 h)

/-- LOST counts up to 255. -/
theorem lost_counts (v : BitVec 8) : (if v = 255 then 255 else v + 1).toNat = min (v.toNat + 1) 255 := by
  have := v.isLt
  split
  · next h => subst h; rfl
  · next h =>
    have hne : v.toNat ≠ 255 := fun e => h (BitVec.eq_of_toNat_eq e)
    have h1 : (1 : BitVec 8).toNat = 1 := rfl
    rw [BitVec.toNat_add, h1]
    omega

variable {s x} in
/-- A state whose queue holds the one record more has it recorded. -/
theorem recorded_of_fq {u : State} (h : (u.ctx x).fq = (s.ctx x).fq.recorded) : Recorded s u x := by
  unfold Recorded
  rw [h]
  generalize (s.ctx x).fq = q
  rcases Nat.lt_or_ge q.count 256 with hroom | hfull
  · rw [FaultQ.recorded_of_room hroom]
    exact ⟨rfl, rfl, fun _ => ⟨rfl, rfl, SMap.get_set_same _ _ _ _⟩, fun h => absurd hroom (Nat.not_lt.2 h)⟩
  · rw [FaultQ.recorded_of_full hfull]
    exact ⟨rfl, rfl, fun h => absurd h (Nat.not_lt.2 hfull), fun _ => ⟨rfl, lost_counts _⟩⟩

end Records
end Sys2Proof.Machine

/-! ## Boundaries of a step sequencer (02 R21-R24, 18 R393-R395) -/

namespace Sys2Proof.Machine

section Steps
variable (s : State) (q x : Nat)

@[simp] theorem dropArrivals_stepper (j : Nat) : (dropArrivals s q).stepper j = s.stepper j := rfl
@[simp] theorem dropArrivals_ctx (y : Nat) : (dropArrivals s q).ctx y = s.ctx y := rfl

theorem stepper_modStepper_other {q j : Nat} (f : Stepper → Stepper) (h : j ≠ q) : (s.modStepper q f).stepper j = s.stepper j :=
  SMap.get_set_other _ _ _ h

/-! ### The sequencer falls IDLE -/

/-- The sequencer as `seqEnd` leaves it. -/
def Stepper.ended (t : Stepper) : Stepper := { t with st := .idle, stepOpen := false, row := none, ctl := 0, rdvSince := none }

/-- The state before the held graphs are released and the context settles. -/
def seqStopped (s : State) (q x : Nat) : State :=
  ((if (s.stepper q).srq || (s.stepper q).st != .run then dropArrivals s q else s).modStepper q Stepper.ended).modCtx x fun c =>
    { c with graphs := (c.graphs.filter fun g => !g.ofSeq).map fun g => { g with counted := false } }

theorem seqEnd_eq : seqEnd s q x = settleCtx (releaseGraphs (seqStopped s q x) x false) x := rfl

theorem seqEnd_steppers (j : Nat) : (seqEnd s q x).stepper j = ((s.modStepper q Stepper.ended).stepper j) := by
  rw [seqEnd_eq, State.apart_stepper (settleCtx_apart _ _), State.apart_stepper (releaseGraphs_apart _ _ _), seqStopped]
  split <;> rfl

theorem seqEnd_stepper : (seqEnd s q x).stepper q = (s.stepper q).ended := by
  rw [seqEnd_steppers, State.stepper_modStepper_same]

theorem seqEnd_stepper_other {j : Nat} (h : j ≠ q) : (seqEnd s q x).stepper j = s.stepper j := by
  rw [seqEnd_steppers, stepper_modStepper_other _ _ h]

/-- No graph of the sequencer, and none held, is left (R394, R397). -/
theorem seqEnd_graphs : ∀ g ∈ ((seqEnd s q x).ctx x).graphs, g.ofSeq = false ∧ g.held = false := by
  rw [seqEnd_eq]
  suffices hreleased : ∀ g ∈ ((releaseGraphs (seqStopped s q x) x false).ctx x).graphs, g.ofSeq = false ∧ g.held = false from
    fun g hg => hreleased g (settleCtx_graphs_subset _ _ hg)
  rw [forall_mem_graphs (P := fun g => g.ofSeq = false ∧ g.held = false) (fun _ => Iff.rfl), releaseGraphs_shape, seqStopped,
    State.ctx_modCtx_same]
  simp only [Ctx.shape, List.map_map, List.mem_map, List.mem_filter, Function.comp_apply]
  rintro _ ⟨g, ⟨-, hg⟩, rfl⟩
  have hof : g.ofSeq = false := by simpa using hg
  cases g.held <;> simp [releasedGraph, hof]

theorem seqEnd_prevSig : ((seqEnd s q x).ctx x).prevSig = (s.ctx x).prevSig := by
  rw [seqEnd_eq, settleCtx_keeps (π := Ctx.prevSig) _ _ _ (fun _ _ => rfl) (fun _ _ => rfl)]
  rw [eq_of_plan Ctx.prevSig (fun _ => rfl) (releaseGraphs_plan (seqStopped s q x) x x false), seqStopped, State.ctx_modCtx_same]
  split <;> rfl

end Steps

/-- A sequencer that has fallen IDLE, and no graph of it or held in its context. -/
def FellIdle (u : State) (q x : Nat) : Prop := (u.stepper q).st = .idle ∧ (u.stepper q).stepOpen = false ∧
  ∀ g ∈ (u.ctx x).graphs, g.ofSeq = false ∧ g.held = false

theorem seqEnd_fellIdle (s : State) (q x : Nat) : FellIdle (seqEnd s q x) q x := by
  refine ⟨?_, ?_, seqEnd_graphs s q x⟩ <;> rw [seqEnd_stepper] <;> rfl

/-! ### A step ends -/

section Close
variable (s : State) (q x : Nat)

/-- The step has ended and its graphs count no longer. -/
def stepClosed (s : State) (q x : Nat) : State :=
  (s.modStepper q fun t => { t with done := t.done + 1, stepOpen := false, ctl := 0 }).modCtx x fun c =>
    { c with prevSig := c.stepSig, stepSig := 0, graphs := c.graphs.map fun g => { g with counted := false } }

theorem closeStep_eq : closeStep s q x =
    if (s.stepper q).done + 1 == (s.stepper q).n || (s.stepper q).ctl.getLsbD 1 || (s.stepper q).srq then seqEnd (stepClosed s q x) q x
    else settleCtx (stepClosed s q x) x := rfl

theorem stepClosed_stepper : (stepClosed s q x).stepper q =
    { s.stepper q with done := (s.stepper q).done + 1, stepOpen := false, ctl := 0 } := by
  rw [stepClosed, State.modCtx_stepper, State.stepper_modStepper_same]

theorem stepClosed_stepper_other {j : Nat} (h : j ≠ q) : (stepClosed s q x).stepper j = s.stepper j := by
  rw [stepClosed, State.modCtx_stepper, stepper_modStepper_other _ _ h]

theorem stepClosed_prevSig : ((stepClosed s q x).ctx x).prevSig = (s.ctx x).stepSig := by
  rw [stepClosed, State.ctx_modCtx_same]
  rfl

theorem closeStep_last (h : (s.stepper q).done + 1 = (s.stepper q).n ∨ (s.stepper q).ctl.getLsbD 1 = true ∨ (s.stepper q).srq = true) :
    closeStep s q x = seqEnd (stepClosed s q x) q x := by
  rw [closeStep_eq]
  exact if_pos (by simpa [or_assoc] using h)

theorem closeStep_goes_on (hn : (s.stepper q).done + 1 ≠ (s.stepper q).n) (hl : (s.stepper q).ctl.getLsbD 1 = false)
    (hs : (s.stepper q).srq = false) : closeStep s q x = settleCtx (stepClosed s q x) x := by
  rw [closeStep_eq]
  exact if_neg (by rw [hl, hs]; simpa using hn)

end Close

/-! ### The next row, and halts -/

section Rows
variable (s : State) (q x : Nat) (c : Cause) (loc : Nat)

theorem seqHalt_stepper : (seqHalt s q x c loc).stepper q = { s.stepper q with st := .halt, row := none, rdvSince := none } := by
  rw [seqHalt, State.stepper_modStepper_same, dropArrivals_stepper, writeRecord_stepper]

theorem seqHalt_stepper_other {j : Nat} (h : j ≠ q) : (seqHalt s q x c loc).stepper j = s.stepper j := by
  rw [seqHalt, stepper_modStepper_other _ _ h, dropArrivals_stepper, writeRecord_stepper]

theorem seqHalt_recorded : Recorded s (seqHalt s q x c loc) x := by
  refine recorded_of_fq ?_
  rw [seqHalt, State.modStepper_ctx, dropArrivals_ctx, writeRecord_ctx]

/-- Address and words of the row that a sequencer reads next (R393). -/
def rowAddr (s : State) (q x : Nat) : Nat := ((s.graph x (s.stepper q).graph).map (·.sched)).getD 0 + 128 * (s.stepper q).done
def rowWord (s : State) (q x i : Nat) : Word := BitVec.ofNat 64 (s.mem.read (rowAddr s q x + 8 * i) 8)
def nextRow (s : State) (q x : Nat) : List Word := (List.range 16).map (rowWord s q x)

theorem rowOk_iff : rowOk (nextRow s q x) = true ↔
    rowWord s q x 1 = 0 ∧ (rowWord s q x 0).toNat < 2 ^ 32 ∧ (rowWord s q x 0).toNat / 8 % 2 ^ 13 = 0 := by
  have h0 : (nextRow s q x).getD 0 0 = rowWord s q x 0 := rfl
  have h1 : (nextRow s q x).getD 1 0 = rowWord s q x 1 := rfl
  rw [rowOk, h0, h1]
  generalize rowWord s q x 0 = v
  generalize rowWord s q x 1 = w
  have hv := v.isLt
  have hhigh : fld v 32 32 = 0 ↔ v.toNat < 2 ^ 32 := by
    rw [← BitVec.toNat_inj]
    simp [Nat.shiftRight_eq_div_pow]
    omega
  have hmid : fld v 3 13 = 0 ↔ v.toNat / 8 % 2 ^ 13 = 0 := by
    rw [← BitVec.toNat_inj]
    simp [Nat.shiftRight_eq_div_pow]
  simp only [Bool.and_eq_true, beq_iff_eq, hhigh, hmid, and_assoc]

theorem readRow_stop (h : (s.stepper q).srq = true) : readRow s q x = seqEnd s q x := if_pos h

theorem readRow_halt (h : (s.stepper q).srq = false) (hbad : rangePoisoned s.mem (rowAddr s q x) 128 = true ∨ rowOk (nextRow s q x) = false) :
    ∃ c, readRow s q x = seqHalt s q x c (rowAddr s q x) := by
  have hstop : ¬ (s.stepper q).srq = true := by simp [h]
  unfold readRow
  extract_lets t a row
  rw [if_neg hstop]
  by_cases hp : rangePoisoned s.mem a 128 = true
  · exact ⟨_, if_pos hp⟩
  · have hrow : (!rowOk row) = true := by
      rw [show row = nextRow s q x from rfl, hbad.resolve_left hp]
      rfl
    exact ⟨.shape, by rw [if_neg hp, if_pos hrow]; rfl⟩

theorem readRow_good (h : (s.stepper q).srq = false) (hp : rangePoisoned s.mem (rowAddr s q x) 128 = false)
    (hok : rowOk (nextRow s q x) = true) : readRow s q x = s.modStepper q fun t =>
      if (rowWord s q x 0).getLsbD 2 || t.gr = 0 then { t with st := .pause, row := some (nextRow s q x) }
      else { t with gr := t.gr - 1, row := some (nextRow s q x) } := by
  unfold readRow
  extract_lets t a row
  have hrow : (!rowOk row) = false := by rw [show row = nextRow s q x from rfl, hok]; rfl
  rw [if_neg (by simp [t, h]), if_neg (by rw [show a = rowAddr s q x from rfl, hp]; simp), hrow]
  rfl

/-- What is written to a sequencer counts at its present state alone. -/
theorem modStepper_congr {f g : Stepper → Stepper} (h : f (s.stepper q) = g (s.stepper q)) : s.modStepper q f = s.modStepper q g := by
  rw [State.modStepper, State.modStepper, h]

theorem readRow_pause (h : (s.stepper q).srq = false) (hp : rangePoisoned s.mem (rowAddr s q x) 128 = false)
    (hok : rowOk (nextRow s q x) = true) (hpause : (rowWord s q x 0).getLsbD 2 = true ∨ (s.stepper q).gr = 0) :
    readRow s q x = s.modStepper q fun t => { t with st := .pause, row := some (nextRow s q x) } := by
  rw [readRow_good s q x h hp hok]
  exact modStepper_congr s q (if_pos (by simpa using hpause))

theorem readRow_grant (h : (s.stepper q).srq = false) (hp : rangePoisoned s.mem (rowAddr s q x) 128 = false)
    (hok : rowOk (nextRow s q x) = true) (hl : (rowWord s q x 0).getLsbD 2 = false) (hgr : (s.stepper q).gr ≠ 0) :
    readRow s q x = s.modStepper q fun t => { t with gr := t.gr - 1, row := some (nextRow s q x) } := by
  rw [readRow_good s q x h hp hok]
  exact modStepper_congr s q (if_neg (by rw [hl]; simpa using hgr))

end Rows

/-! ### A step opens -/

section Open
variable (s : State) (q x : Nat)

theorem openStep_procs : (openStep s q x).procs = s.procs := by
  rw [State.apart_procs (openStep_apart s q x), State.modStepper_procs]

theorem openStep_stepper_other {j : Nat} (h : j ≠ q) : (openStep s q x).stepper j = s.stepper j := by
  rw [State.apart_stepper (openStep_apart s q x), stepper_modStepper_other _ _ h]

theorem openStep_plan : ((openStep s q x).ctx x).plan = { (s.ctx x).plan with stepSig := 0 } := by
  unfold openStep
  rw [releaseGraphs_plan, State.ctx_modCtx_same]
  rfl

/-- No graph is held any more as a step opens (R23). -/
theorem openStep_graphs : ∀ g ∈ ((openStep s q x).ctx x).graphs, g.held = false := by
  unfold openStep
  rw [forall_mem_graphs (P := fun g => g.held = false) (fun _ => Iff.rfl), releaseGraphs_shape]
  intro g hg
  obtain ⟨g, -, rfl⟩ := List.mem_map.1 hg
  unfold releasedGraph
  split
  · rfl
  · next h =>
    have hheld : g.held ≠ true := fun hh => h (by simp [hh])
    simpa using hheld

theorem enterStep_apart : (enterStep s q x).apart = s.apart := rfl

theorem enterStep_loops : ((enterStep s q x).ctx x).loops =
    loopValues (s.stepper q).done (s.stepper q).n ((s.stepper q).row.getD []) := by
  unfold enterStep applyPending
  rw [State.ctx_modCtx_same, State.ctx_modCtx_same]

theorem openStep_stepSig : ((openStep s q x).ctx x).stepSig = 0 := by
  have h : ((openStep s q x).ctx x).plan.stepSig = 0 := by rw [openStep_plan]
  exact h

theorem openStep_loops : ((openStep s q x).ctx x).loops = ((s.ctx x).plan).loops := by
  have h : ((openStep s q x).ctx x).plan.loops = (s.ctx x).plan.loops := by rw [openStep_plan]
  exact h

variable {row : List Word} (hrow : (s.stepper q).row = some row)
include hrow

theorem openStep_enterStep_stepper : (openStep (enterStep s q x) q x).stepper q =
    { s.stepper q with stepOpen := true, ctl := row.getD 0 0, row := none, rdvSince := none } := by
  rw [openStep_stepper, State.apart_stepper (enterStep_apart s q x), hrow]
  rfl

theorem openStep_enterStep_loops : ((openStep (enterStep s q x) q x).ctx x).loops =
    loopValues (s.stepper q).done (s.stepper q).n row := by
  rw [openStep_loops, Ctx.plan, enterStep_loops, hrow]
  rfl

end Open

/-- Loop registers 2-15 are words 2-15 of the row (R21). -/
theorem loopValues_get (n total : Nat) (row : List Word) (i : Nat) : SMap.get 0 (loopValues n total row) i =
    if 2 ≤ i ∧ i < 16 then row.getD i 0 else if i = 1 then BitVec.ofNat 64 (total - 1 - n) else if i = 0 then BitVec.ofNat 64 n else 0 := by
  have hfold (k : Nat) (m : SMap Word) : SMap.get 0 ((List.range k).foldl (fun m i => SMap.set 0 m (i + 2) (row.getD (i + 2) 0)) m) i =
      if 2 ≤ i ∧ i < k + 2 then row.getD i 0 else SMap.get 0 m i := by
    induction k with
    | zero => simp; omega
    | succ k ih =>
      rw [List.range_succ, List.foldl_append, List.foldl_cons, List.foldl_nil, SMap.get_set, ih]
      by_cases hi : i = k + 2
      · subst hi; simp
      · simp only [if_neg hi]
        congr 1
        simp only [eq_iff_iff]
        omega
  unfold loopValues
  rw [hfold, SMap.get_set, SMap.get_set]
  rfl


/-! ### STEP_BOUNDARY, by the state of the sequencer -/

section Boundary
variable {s : State} {q : Nat} (hq : q < 8)
include hq

theorem stepBoundary_stands (h : (s.ctx (s.stepper q).ctx).d.st ≠ .active ∨ (s.stepper q).st = .idle ∨ (s.stepper q).st = .pause) :
    execStepBoundary q s = .next s := by
  unfold execStepBoundary
  rw [if_pos hq]
  rcases h with h | h | h
  · exact if_pos h
  · simp only [h]; split <;> rfl
  · simp only [h]; split <;> rfl

variable (ha : (s.ctx (s.stepper q).ctx).d.st = .active)
include ha

theorem stepBoundary_halted (h : (s.stepper q).st = .halt) (hs : (s.stepper q).srq = false) : execStepBoundary q s = .next s := by
  unfold execStepBoundary
  rw [if_pos hq]
  simp only [ha, h, hs, ne_eq, not_true_eq_false, if_false, Bool.false_and, Bool.false_eq_true]

theorem stepBoundary_stopped (h : (s.stepper q).st = .halt) (hs : (s.stepper q).srq = true) (hd : stepDone s (s.stepper q).ctx = true) :
    execStepBoundary q s = .next (seqEnd s q (s.stepper q).ctx) := by
  unfold execStepBoundary
  rw [if_pos hq]
  simp only [ha, h, hs, hd, ne_eq, not_true_eq_false, if_false, Bool.and_self, if_true]

variable (hrun : (s.stepper q).st = .run)
include hrun

theorem stepBoundary_unfinished (h : (s.stepper q).stepOpen = true) (hd : stepDone s (s.stepper q).ctx = false) :
    execStepBoundary q s = .next s := by
  unfold execStepBoundary
  rw [if_pos hq]
  simp only [ha, hrun, h, hd, ne_eq, not_true_eq_false, if_false, if_true, Bool.false_eq_true]

theorem stepBoundary_closes (h : (s.stepper q).stepOpen = true) (hd : stepDone s (s.stepper q).ctx = true) :
    execStepBoundary q s = .next (closeStep s q (s.stepper q).ctx) := by
  unfold execStepBoundary
  rw [if_pos hq]
  simp only [ha, hrun, h, hd, ne_eq, not_true_eq_false, if_false, if_true]

theorem stepBoundary_reads (h : (s.stepper q).stepOpen = false) (hr : (s.stepper q).row = none) :
    execStepBoundary q s = .next (readRow s q (s.stepper q).ctx) := by
  unfold execStepBoundary
  rw [if_pos hq]
  simp only [ha, hrun, h, hr, ne_eq, not_true_eq_false, Bool.false_eq_true, if_false, Option.isNone_none, if_true]

theorem stepBoundary_waits {row : List Word} (h : (s.stepper q).stepOpen = false) (hr : (s.stepper q).row = some row)
    (hw : (s.stepper q).rdvSince.isSome = true ∨ contextQuiet s (s.stepper q).ctx = false) : execStepBoundary q s = .next s := by
  have hwait : ((s.stepper q).rdvSince.isSome || !contextQuiet s (s.stepper q).ctx) = true := by simpa using hw
  unfold execStepBoundary
  rw [if_pos hq]
  simp only [ha, hrun, h, hr, Option.isNone_some, hwait, ne_eq, not_true_eq_false, Bool.false_eq_true, if_false, if_true]

theorem stepBoundary_opens {row : List Word} (h : (s.stepper q).stepOpen = false) (hr : (s.stepper q).row = some row) (hw : (s.stepper q).rdvSince = none)
    (hquiet : contextQuiet s (s.stepper q).ctx = true) (hspan : spansModules s (s.stepper q).ctx = false) :
    execStepBoundary q s = .next (openStep (enterStep s q (s.stepper q).ctx) q (s.stepper q).ctx) := by
  unfold execStepBoundary
  rw [if_pos hq]
  simp only [ha, hrun, h, hr, Option.isNone_some, hw, hquiet, hspan, ne_eq, not_true_eq_false, Bool.false_eq_true, if_false, Option.isSome_none,
    Bool.not_true, Bool.or_self]

end Boundary

theorem stepDone_iff (s : State) (x : Nat) : stepDone s x = true ↔ ∀ g ∈ (s.ctx x).graphs, g.counted = true → g.allRetired = true := by
  simp only [stepDone, List.all_eq_true, Bool.or_eq_true, Bool.not_eq_true']
  exact forall₂_congr fun g _ => by cases g.counted <;> simp

theorem rendezvousTimeout_stands {s : State} {q : Nat} (hq : q < 8)
    (h : ∀ r, (s.stepper q).rdvSince = some r → (s.stepper q).st = .run → s.gts - r.toNat < 10000000) :
    execRendezvousTimeout q s = .next s := by
  unfold execRendezvousTimeout
  rw [if_pos hq]
  cases hr : (s.stepper q).rdvSince with
  | none => rfl
  | some r =>
    refine if_neg fun hc => ?_
    obtain ⟨hst, hlate⟩ : (s.stepper q).st = .run ∧ rendezvousLimit ≤ s.gts - r.toNat := by simpa using hc
    exact absurd (h r hr hst) (Nat.not_lt.2 hlate)

theorem rendezvousTimeout_halts {s : State} {q : Nat} {r : Word} (hq : q < 8) (hr : (s.stepper q).rdvSince = some r)
    (hst : (s.stepper q).st = .run) (hlate : 10000000 ≤ s.gts - r.toNat) :
    execRendezvousTimeout q s = .next (seqHalt s q (s.stepper q).ctx .linkerr 0) := by
  unfold execRendezvousTimeout
  rw [if_pos hq]
  simp only [hr]
  refine if_pos ?_
  rw [Bool.and_eq_true, decide_eq_true_eq, decide_eq_true_eq]
  exact ⟨hst, hlate⟩

/-- The end of a step: the sequencer counts it, and its signatures become those of the step before (R261, R394). -/
theorem closeStep_counts (s : State) (q x : Nat) : ((closeStep s q x).stepper q).done = (s.stepper q).done + 1 ∧
    ((closeStep s q x).stepper q).stepOpen = false ∧ (∀ j, j ≠ q → (closeStep s q x).stepper j = s.stepper j) ∧
    ((closeStep s q x).ctx x).prevSig = (s.ctx x).stepSig := by
  rw [closeStep_eq]
  split
  · rw [seqEnd_stepper, seqEnd_prevSig, stepClosed_stepper, stepClosed_prevSig]
    exact ⟨rfl, rfl, fun j hj => by rw [seqEnd_stepper_other _ _ _ hj, stepClosed_stepper_other _ _ _ hj], rfl⟩
  · rw [State.apart_stepper (settleCtx_apart _ _), settleCtx_keeps (π := Ctx.prevSig) _ _ _ (fun _ _ => rfl) (fun _ _ => rfl),
      stepClosed_stepper, stepClosed_prevSig]
    exact ⟨rfl, rfl, fun j hj => by rw [State.apart_stepper (settleCtx_apart _ _), stepClosed_stepper_other _ _ _ hj], rfl⟩

/-- Between two steps the sequencer runs on. -/
theorem closeStep_runs_on {s : State} {q x : Nat} (hn : (s.stepper q).done + 1 ≠ (s.stepper q).n) (hl : (s.stepper q).ctl.getLsbD 1 = false)
    (hs : (s.stepper q).srq = false) (hst : (s.stepper q).st = .run) :
    ((closeStep s q x).stepper q).st = .run ∧ (closeStep s q x).procs = s.procs ∧ (closeStep s q x).mem = s.mem := by
  rw [closeStep_goes_on s q x hn hl hs, State.apart_stepper (settleCtx_apart _ _), State.apart_procs (settleCtx_apart _ _), settleCtx_mem,
    stepClosed_stepper]
  exact ⟨hst, rfl, rfl⟩

/-- The step that opens at a module boundary's end (R21, R23). -/
theorem openStep_enterStep {s : State} {q x : Nat} {row : List Word} (hrow : (s.stepper q).row = some row) (hlen : row.length = 16) :
    let u := openStep (enterStep s q x) q x
    (u.stepper q).stepOpen = true ∧ (u.stepper q).row = none ∧ some (u.stepper q).ctl = row[0]? ∧ (∀ j, j ≠ q → u.stepper j = s.stepper j) ∧
    (u.ctx x).stepSig = 0 ∧ u.procs = s.procs ∧ (∀ g ∈ (u.ctx x).graphs, g.held = false) ∧
    SMap.get 0 (u.ctx x).loops 0 = BitVec.ofNat 64 (s.stepper q).done ∧
    SMap.get 0 (u.ctx x).loops 1 = BitVec.ofNat 64 ((s.stepper q).n - 1 - (s.stepper q).done) ∧
    ∀ i, 2 ≤ i → i < 16 → some (SMap.get 0 (u.ctx x).loops i) = row[i]? := by
  intro u
  have hword {i : Nat} (hi : i < 16) : some (row.getD i 0) = row[i]? := by
    rw [List.getD_eq_getElem?_getD, List.getElem?_eq_getElem (by omega), Option.getD_some]
  have hstep := openStep_enterStep_stepper s q x hrow
  have hloops := openStep_enterStep_loops s q x hrow
  rw [hstep, openStep_stepSig, hloops, openStep_procs]
  refine ⟨rfl, rfl, hword (by decide), fun j hj => ?_, rfl, State.apart_procs (enterStep_apart s q x), openStep_graphs _ q x, ?_, ?_,
    fun i h2 h16 => ?_⟩
  · rw [openStep_stepper_other _ _ _ hj, State.apart_stepper (enterStep_apart s q x)]
  · rw [loopValues_get]; rfl
  · rw [loopValues_get]; rfl
  · rw [loopValues_get, if_pos ⟨h2, h16⟩, hword h16]

/-- Settles O44, stage by stage of a boundary: the step ends, the next row is read, the step opens; and the limit of a rendezvous. -/
theorem stepEvents : Obligations.StepEvents := by
  unfold Obligations.StepEvents
  intro s q hq
  refine ⟨fun h => ⟨_, stepBoundary_stands hq h, .refl _⟩, fun ha hst => ⟨fun hs => ?_, fun hs hdone => ?_⟩,
    fun ha hst hopen => ⟨fun hleft => ?_, fun hdone => ?_⟩, fun ha hst hopen hrow => ⟨fun hs => ?_, fun hs hbad => ?_, fun hs hp hok => ?_⟩,
    fun row ha hst hopen hrow hlen => ⟨fun hw => ?_, fun hsince hquiet hspan => ?_⟩, fun h => ?_, fun r hr hst => ⟨fun hearly => ?_, fun hlate => ?_⟩⟩
  · exact ⟨_, stepBoundary_halted hq ha hst hs, .refl _⟩
  · exact ⟨_, stepBoundary_stopped hq ha hst hs ((stepDone_iff s _).2 hdone), seqEnd_fellIdle s q _, fun j hj => seqEnd_stepper_other s q _ hj⟩
  · have hnot : stepDone s (s.stepper q).ctx = false := by
      rw [Bool.eq_false_iff, ne_eq, stepDone_iff]
      obtain ⟨g, hg, hc, hr⟩ := hleft
      exact fun hall => by simp [hall g hg hc] at hr
    exact ⟨_, stepBoundary_unfinished hq ha hst hopen hnot, .refl _⟩
  · obtain ⟨hcount, hclosed, hothers, hsig⟩ := closeStep_counts s q (s.stepper q).ctx
    refine ⟨_, stepBoundary_closes hq ha hst hopen ((stepDone_iff s _).2 hdone), hcount, hclosed, hothers, hsig, fun hlast => ?_,
      fun hn hl hs => closeStep_runs_on hn hl hs hst⟩
    rw [closeStep_last s q _ hlast]
    exact seqEnd_fellIdle _ q _
  · refine ⟨_, stepBoundary_reads hq ha hst hopen hrow, ?_⟩
    rw [readRow_stop s q _ hs]
    exact ⟨seqEnd_fellIdle s q _, fun j hj => seqEnd_stepper_other s q _ hj⟩
  · have hrowbad : rangePoisoned s.mem (rowAddr s q (s.stepper q).ctx) 128 = true ∨ rowOk (nextRow s q (s.stepper q).ctx) = false :=
      hbad.imp id fun h => by rw [Bool.eq_false_iff, ne_eq, rowOk_iff]; exact h
    obtain ⟨c, hc⟩ := readRow_halt s q (s.stepper q).ctx hs hrowbad
    refine ⟨_, stepBoundary_reads hq ha hst hopen hrow, ?_⟩
    rw [hc, seqHalt_stepper]
    exact ⟨rfl, rfl, seqHalt_recorded s q _ c _, fun j hj => seqHalt_stepper_other s q _ c _ hj⟩
  · have hread := stepBoundary_reads hq ha hst hopen hrow
    have hok := (rowOk_iff s q (s.stepper q).ctx).2 hok
    refine ⟨fun hpause => ⟨_, hread, ?_⟩, fun hl hgr => ⟨_, hread, ?_⟩⟩
    · rw [readRow_pause s q _ hs hp hok hpause]; exact .refl _
    · rw [readRow_grant s q _ hs hp hok hl hgr]; exact .refl _
  · exact ⟨_, stepBoundary_waits hq ha hst hopen hrow hw, .refl _⟩
  · exact ⟨_, stepBoundary_opens hq ha hst hopen hrow hsince hquiet hspan, openStep_enterStep hrow hlen⟩
  · refine ⟨_, rendezvousTimeout_stands hq fun r hr hst => ?_, .refl _⟩
    exact absurd hst (h.resolve_left (by simp [hr]))
  · exact ⟨_, rendezvousTimeout_stands hq fun r' hr' _ => by cases hr.symm.trans hr'; exact hearly, .refl _⟩
  · refine ⟨_, rendezvousTimeout_halts hq hr hst hlate, ?_⟩
    rw [seqHalt_stepper]
    exact ⟨rfl, rfl, seqHalt_recorded s q _ _ _, fun j hj => seqHalt_stepper_other s q _ _ _ hj⟩

end Sys2Proof.Machine

/-! ## A suspension that frees a tile for another context (17 R371) -/

namespace Sys2Proof.Machine

/-- Context 0 is suspending and holds tile 5 of cluster 0; context 1 has been resumed and waits for its copy of that tile. -/
def tileAwaited : State :=
  let d : Desc17 := { Desc17.reset with part := 1, lstq := 1, share := 1, st := .active }
  { State.reset with
    clusters := [(0, { Cluster.reset with tiles := [(5, ⟨2, 0, 0, 0⟩)] })]
    ctxs := [(0, { Ctx.reset with d := d, suspending := true, busy := true }),
      (1, { Ctx.reset with d := { d with asid := 1, lstb := 1 }, tileCopies := [(5, ⟨2, 1, 0, 0⟩)] })] }

/-- With the suspension of context 0 the waiting copy of context 1 stands in the tile and leaves context 1. -/
theorem tileAwaited_suspended : ∃ u, exec (.contextSuspended 0) tileAwaited = .next u ∧ (u.ctx 1).tileCopies = [] ∧
    u.tile 0 5 = ⟨2, 1, 0, 0⟩ :=
  ⟨_, rfl, by decide +kernel, by decide +kernel⟩

/-- Refutes O45: CONTEXT_SUSPENDED of one context sets its tiles EMPTY, which puts back the copies that a resumed context still
waits for (R371), so that it does not leave every other context as it is. -/
theorem not_contextCommands : ¬ Obligations.ContextCommands := by
  unfold Obligations.ContextCommands
  intro h
  obtain ⟨-, -, -, -, -, hsuspends, -⟩ := h tileAwaited 0 (by decide)
  have noCore (p : Nat) (_ : p < 256) : (tileAwaited.proc p).ctxOf ≠ some 0 := by
    simp [State.proc, tileAwaited, State.reset, Proc.reset, Proc.ctxOf]
  obtain ⟨u, hu, -, -, -, hother, -⟩ := (hsuspends rfl).1 noCore
  obtain ⟨v, hv, hcopies, -⟩ := tileAwaited_suspended
  obtain rfl : u = v := Host.Outcome.next.inj (hu.symm.trans hv)
  rw [hother 1 (by decide)] at hcopies
  exact absurd hcopies (by decide)

end Sys2Proof.Machine

/-! ## The life of an operator block (18 R386-R390)

An OB's account stands in every graph in flight of its OB table's name (`ObHolds`). What the Mason does as an OB retires changes
memory and contexts alone, and of a context never its fault queue (`SparesRecords`). -/

namespace Sys2Proof.Machine

theorem State.graph_obt {s : State} {x hdr : Nat} {g : Graph} (h : s.graph x hdr = some g) : g.obt = hdr := by
  simpa using List.find?_some h

/-- Every graph of context x at hdr has an OB k with property P. -/
def ObHolds (s : State) (x hdr k : Nat) (P : Ob → Prop) : Prop := ∀ g ∈ (s.ctx x).graphs, g.obt = hdr → P (g.ob k)

section Accounts
variable {s : State} {x hdr k : Nat} {P : Ob → Prop}

theorem ObHolds.of_graph {g : Graph} (h : ObHolds s x hdr k P) (hg : s.graph x hdr = some g) : P (g.ob k) :=
  h g (List.mem_of_find?_eq_some hg) (State.graph_obt hg)

/-- Where no graph stands at hdr every property holds. -/
theorem ObHolds.of_none (h : s.graph x hdr = none) : ObHolds s x hdr k P := by
  intro g hg hobt
  have := List.find?_eq_none.1 h g hg
  simp [hobt] at this

theorem ObHolds.modCtx {f : Ctx → Ctx} (h : ObHolds s x hdr k P) (hf : ∀ c, (f c).graphs ⊆ c.graphs) : ObHolds (s.modCtx x f) x hdr k P := by
  intro g hg
  rw [State.ctx_modCtx_same] at hg
  exact h g (hf _ hg)

theorem ObHolds.settleCtx (h : ObHolds s x hdr k P) : ObHolds (settleCtx s x) x hdr k P :=
  fun g hg => h g (settleCtx_graphs_subset s x hg)

/-- The graph at hdr after a change of its account. -/
theorem modOb_graphs {g : Graph} (h : s.graph x hdr = some g) (f : Ob → Ob) : ((modOb s x hdr k f).ctx x).graphs =
    (s.ctx x).graphs.map fun g' => if g'.obt = hdr then { g' with obs := SMap.set Ob.reset g'.obs k (f (g.ob k)) } else g' := by
  rw [modOb_of_some h, State.modMem_ctx, modGraph, State.ctx_modCtx_same]

theorem ob_setObs (g : Graph) (k j : Nat) (o : Ob) : ({ g with obs := SMap.set Ob.reset g.obs k o } : Graph).ob j =
    if j = k then o else g.ob j := SMap.get_set _ _ _ _ _

theorem ObHolds.modOb_self {f : Ob → Ob} (h : ∀ g, s.graph x hdr = some g → P (f (g.ob k))) : ObHolds (modOb s x hdr k f) x hdr k P := by
  cases hg : s.graph x hdr with
  | none => rw [modOb_of_none hg]; exact .of_none hg
  | some g =>
    intro g' hg' hobt
    rw [modOb_graphs hg, List.mem_map] at hg'
    obtain ⟨g₀, -, rfl⟩ := hg'
    by_cases h₀ : g₀.obt = hdr
    · rw [if_pos h₀, ob_setObs, if_pos rfl]; exact h g hg
    · rw [if_neg h₀] at hobt; exact absurd hobt h₀

theorem ObHolds.modOb {f : Ob → Ob} (h : ObHolds s x hdr k P) (hf : ∀ o, P o → P (f o)) (j : Nat) : ObHolds (modOb s x hdr j f) x hdr k P := by
  by_cases hj : k = j
  · subst hj; exact .modOb_self fun g hg => hf _ (h.of_graph hg)
  · cases hg : s.graph x hdr with
    | none => rw [modOb_of_none hg]; exact h
    | some g =>
      intro g' hg' hobt
      rw [modOb_graphs hg, List.mem_map] at hg'
      obtain ⟨g₀, hg₀, rfl⟩ := hg'
      by_cases h₀ : g₀.obt = hdr
      · rw [if_pos h₀, ob_setObs, if_neg hj]; exact h g₀ hg₀ h₀
      · rw [if_neg h₀] at hobt; exact absurd hobt h₀

/-- A graph in flight stays at its place as its fields but the name change. -/
theorem graph_modGraph {f : Graph → Graph} (hf : ∀ g, (f g).obt = g.obt) : (modGraph s x hdr f).graph x hdr = (s.graph x hdr).map f := by
  unfold modGraph State.graph
  rw [State.ctx_modCtx_same]
  induction (s.ctx x).graphs with
  | nil => rfl
  | cons g l ih =>
    by_cases h : g.obt = hdr
    · simp [h, hf]
    · simpa [h] using ih

theorem graph_modMem (f : Memory → Memory) : (s.modMem f).graph x hdr = s.graph x hdr := rfl

theorem ob_modOb {g : Graph} (h : s.graph x hdr = some g) (f : Ob → Ob) : (modOb s x hdr k f).ob x hdr k = f (g.ob k) := by
  have hgraph : (modOb s x hdr k f).graph x hdr = some { g with obs := SMap.set Ob.reset g.obs k (f (g.ob k)) } := by
    rw [modOb_of_some h, graph_modMem, graph_modGraph, h, Option.map_some]
    exact fun _ => rfl
  rw [State.ob, hgraph]
  exact (ob_setObs g k k _).trans (if_pos rfl)

end Accounts

/-! ### What a retirement leaves alone -/

/-- A view of the state that neither memory nor a context's fields but its fault queue enter. -/
structure SparesRecords {γ : Type} (π : State → γ) : Prop where
  ctx : ∀ s x f, (∀ c : Ctx, (f c).fq = c.fq) → π (s.modCtx x f) = π s
  mem : ∀ s f, π (s.modMem f) = π s

theorem sparesRecords_apart : SparesRecords State.apart := ⟨fun _ _ _ _ => rfl, fun _ _ => rfl⟩

theorem sparesRecords_fq (y : Nat) : SparesRecords fun s => (s.ctx y).fq where
  ctx s x f hf := by
    rw [State.ctx_modCtx]
    split
    · subst y; exact hf _
    · rfl
  mem _ _ := rfl

namespace SparesRecords
variable {γ : Type} {π : State → γ} (h : SparesRecords π) (s : State) (x obt k : Nat)
include h

theorem modGraph (f : Graph → Graph) : π (modGraph s x obt f) = π s := h.ctx _ _ _ fun _ => rfl
theorem modOb (f : Ob → Ob) : π (modOb s x obt k f) = π s := modOb_keeps f h.mem fun _ => h.modGraph _ _ _ _
theorem decrement (p : Bool) (g : Sig) : π (decrement s x obt k p g) = π s := h.modOb _ _ _ _ _
theorem modRegion (f : Region → Region) : π (modRegion s x k f) = π s := by
  unfold Machine.modRegion
  split
  · rfl
  · exact h.ctx _ _ _ fun _ => rfl
theorem modReuse (f : Reuse → Reuse) : π (modReuse s x k f) = π s := h.ctx _ _ _ fun _ => rfl

theorem settleCtx : π (settleCtx s x) = π s := by
  unfold Machine.settleCtx
  extract_lets t c
  have ht : π t = π s := h.ctx _ _ _ fun _ => rfl
  split
  · have hidle : π (t.modCtx x fun c => { c with d := { c.d with st := .idle } }) = π t := h.ctx _ _ _ fun _ => rfl
    exact hidle.trans ht
  · exact ht

theorem markRegions (b : Bool) (rs : List Nat) : π (rs.foldl (fun s r => Machine.modRegion s x r fun g => { g with pzn := b }) s) = π s :=
  foldl_keeps (fun _ _ => h.modRegion _ _ _ _) _ _

theorem retireOb (st : ObStatus) : π (retireOb s x obt k st) = π s := by
  unfold Machine.retireOb
  extract_lets o poisoned mark s₁ s₂ g s₃ s₄
  have h₁ : π s₁ = π s := by
    dsimp only [s₁, mark]
    split
    · exact h.markRegions _ _ _ _
    · split <;> exact h.markRegions _ _ _ _
  have h₂ : π s₂ = π s₁ := by
    dsimp only [s₂]
    split
    · split
      · exact h.modReuse _ _ _ _
      · rfl
    · rfl
  have h₃ : π s₃ = π s₂ := h.modOb _ _ _ _ _
  have h₄ : π s₄ = π s₃ := h.ctx _ _ _ fun _ => rfl
  rw [h.settleCtx, foldl_keeps (fun _ _ => h.decrement _ _ _ _ _ _), h₄, h₃, h₂, h₁]

theorem bricksGone (n : Nat) (poisoned : Bool) (g : Sig) : π (bricksGone s x obt k n poisoned g) = π s := by
  unfold Machine.bricksGone
  extract_lets t o
  have ht : π t = π s := h.modOb _ _ _ _ _
  split
  · exact (h.retireOb _ _ _ _ _).trans ht
  · exact ht

end SparesRecords

/-- The OB has retired with the status it retires with. -/
theorem retireOb_retired (s : State) (x hdr k : Nat) (st : ObStatus) : Retired (retireOb s x hdr k st) x hdr k st := by
  suffices hall : ObHolds (retireOb s x hdr k st) x hdr k fun o => o.retired = true ∧ o.status = st from fun g hg => hall.of_graph hg
  have hdec (l : List Nat) (p : Bool) (g : Sig) {t : State} (ht : ObHolds t x hdr k fun o => o.retired = true ∧ o.status = st) :
      ObHolds (l.foldl (fun s j => decrement s x hdr j p g) t) x hdr k fun o => o.retired = true ∧ o.status = st := by
    induction l generalizing t with
    | nil => exact ht
    | cons j l ih =>
      refine ih (ht.modOb ?_ j)
      exact fun _ => id
  unfold retireOb
  extract_lets o poisoned mark s₁ s₂ g s₃ s₄
  have h₃ : ObHolds s₃ x hdr k fun o => o.retired = true ∧ o.status = st := .modOb_self fun _ _ => ⟨rfl, rfl⟩
  have h₄ : ObHolds s₄ x hdr k fun o => o.retired = true ∧ o.status = st := h₃.modCtx fun c => List.Subset.refl c.graphs
  exact (hdec _ _ _ h₄).settleCtx

theorem retireOb_fq (s : State) (x hdr k y : Nat) (st : ObStatus) : ((retireOb s x hdr k st).ctx y).fq = (s.ctx y).fq :=
  (sparesRecords_fq y).retireOb s x hdr k st

/-- An OB retires POISONED with one record. -/
theorem poisonOb_retired (s : State) (x hdr k : Nat) (c : Cause) (loc : Nat) :
    Retired (poisonOb s x hdr k c loc) x hdr k .poisoned := retireOb_retired _ _ _ _ _

theorem poisonOb_fq (s : State) (x hdr k : Nat) (c : Cause) (loc : Nat) : ((poisonOb s x hdr k c loc).ctx x).fq = (s.ctx x).fq.recorded := by
  rw [poisonOb, retireOb_fq, writeRecord_ctx]

end Sys2Proof.Machine

/-! ## DEPENDENCY_ZERO (02 R26-R28, 18 R386-R388) -/

namespace Sys2Proof.Machine

theorem bits_eq (v hi lo : Nat) : bits v hi lo = v / 2 ^ lo % 2 ^ (hi + 1 - lo) := by rw [bits, Nat.shiftRight_eq_div_pow]

/-- The group of an OB, bits 51-48 of its control word (R382, R393). -/
theorem obGroup_eq (c : List Byte) : bits (obCtl c) 51 48 = obCtl c / 2 ^ 48 % 16 := bits_eq _ _ _

/-- The Walker that an OB goes to: of the fewest bricks left the lowest (R26). -/
theorem bestWalker_spec (s : State) {l : List Nat} (hl : l.Pairwise (· < ·)) (hne : l ≠ []) :
    ∃ w ∈ l, bestWalker s l = some w ∧ ∀ v ∈ l, walkLoad (s.cluster w) ≤ walkLoad (s.cluster v) ∧
      (v < w → walkLoad (s.cluster w) < walkLoad (s.cluster v)) := by
  induction l with
  | nil => exact absurd rfl hne
  | cons c cs ih =>
    obtain ⟨hlow, hcs⟩ := List.pairwise_cons.1 hl
    cases cs with
    | nil => exact ⟨c, by simp, rfl, fun v hv => by obtain rfl := List.mem_singleton.1 hv; simp⟩
    | cons e es =>
      obtain ⟨d, hd, hbest, hmin⟩ := ih hcs (by simp)
      rcases Nat.lt_or_ge (walkLoad (s.cluster d)) (walkLoad (s.cluster c)) with hlt | hge
      · refine ⟨d, List.mem_cons_of_mem _ hd, by rw [bestWalker, hbest]; exact if_pos hlt, fun v hv => ?_⟩
        rcases List.mem_cons.1 hv with rfl | hv
        · exact ⟨Nat.le_of_lt hlt, fun _ => hlt⟩
        · exact hmin v hv
      · refine ⟨c, List.mem_cons_self, by rw [bestWalker, hbest]; exact if_neg (Nat.not_lt.2 hge), fun v hv => ?_⟩
        rcases List.mem_cons.1 hv with rfl | hv
        · exact ⟨Nat.le_refl _, fun h => absurd h (Nat.lt_irrefl _)⟩
        · exact ⟨Nat.le_trans hge (hmin v hv).1, fun h => absurd h (Nat.lt_asymm (hlow v hv))⟩

theorem partClusters_sorted (s : State) (x : Nat) : (partClusters s x).Pairwise (· < ·) := List.pairwise_lt_range.filter _

section Congruence
variable {s t : State} {x : Nat} (hd : (t.ctx x).d = (s.ctx x).d)
include hd

theorem partClusters_congr (hc : t.clusters = s.clusters) : partClusters t x = partClusters s x := by
  have hcl (c : Nat) : t.cluster c = s.cluster c := by rw [State.cluster, State.cluster, hc]
  simp only [partClusters, State.inPart, State.present, hd, hcl]

theorem rowCtl_congr (hs : t.steppers = s.steppers) : rowCtl t x = rowCtl s x := by
  have hst (q : Nat) : t.stepper q = s.stepper q := by rw [State.stepper, State.stepper, hs]
  have hseq : seqOf t x = seqOf s x := by simp only [seqOf, hd]
  simp only [rowCtl, hseq, hst]

end Congruence

/-! ### The OB is read and checked -/

/-- The state once the Mason holds a copy of an OB's bytes (R386). -/
def obCopied (s : State) (x : Nat) (g : Graph) (k : Nat) : State := modGraph s x g.obt fun g' =>
  { g' with obs := SMap.set Ob.reset g'.obs k { g'.ob k with copy := (readOb s.mem (g.obt + 256 * k)).getD [] } }

section Ready
variable {s : State} {x k : Nat} {g : Graph}

theorem obReady_eq : obReady s x g k =
    if (g.ob k).pf then retireOb (obCopied s x g k) x g.obt k .poisoned
    else match readOb s.mem (g.obt + 256 * k) with
      | none => poisonOb (obCopied s x g k) x g.obt k .eccu (g.obt + 256 * k)
      | some c =>
        if (rowCtl (obCopied s x g k) x).getLsbD (16 + bits (obCtl c) 51 48) then retireOb (obCopied s x g k) x g.obt k .skipped
        else match reuseIndex (obRidx c) with
          | none => expandOb (obCopied s x g k) x g.obt k k c false (g.obt + 256 * k)
          | some e => match decideReuse (obCopied s x g k) x k e with
            | (0, s) => expandOb (modGraph s x g.obt fun g => { g with obs := SMap.set Ob.reset g.obs k { g.ob k with computed := true } })
                x g.obt k k c false (g.obt + 256 * k)
            | (1, s) => retireOb s x g.obt k .skipped
            | (_, s) => runAlternate s x g k c := rfl

theorem obCopied_apart : (obCopied s x g k).apart = s.apart := modGraph_apart _ _ _ _
theorem obCopied_plan (y : Nat) : ((obCopied s x g k).ctx y).plan = (s.ctx y).plan := modGraph_plan _ _ _ _ _
theorem obCopied_fq (y : Nat) : ((obCopied s x g k).ctx y).fq = (s.ctx y).fq := (sparesRecords_fq y).modGraph _ _ _ _
theorem obCopied_d (y : Nat) : ((obCopied s x g k).ctx y).d = (s.ctx y).d := eq_of_plan Ctx.d (fun _ => rfl) (obCopied_plan y)
theorem obCopied_rowCtl : rowCtl (obCopied s x g k) x = rowCtl s x := rowCtl_congr (obCopied_d x) (State.apart_steppers obCopied_apart)
theorem obCopied_partClusters : partClusters (obCopied s x g k) x = partClusters s x :=
  partClusters_congr (obCopied_d x) (State.apart_clusters obCopied_apart)

theorem obCopied_graph (h : s.graph x g.obt = some g) : (obCopied s x g k).graph x g.obt =
    some { g with obs := SMap.set Ob.reset g.obs k { g.ob k with copy := (readOb s.mem (g.obt + 256 * k)).getD [] } } := by
  rw [obCopied, graph_modGraph, h, Option.map_some]
  exact fun _ => rfl

theorem readOb_poisoned {m : Memory} {a : Nat} (h : rangePoisoned m a 184 = true) : readOb m a = none := if_pos h
theorem readOb_good {m : Memory} {a : Nat} (h : rangePoisoned m a 184 = false) : readOb m a = some (bytesN 184 (m.read a 184)) :=
  if_neg (by simp [h])

theorem obReady_poisoned (hpf : (g.ob k).pf = true) : obReady s x g k = retireOb (obCopied s x g k) x g.obt k .poisoned := by
  rw [obReady_eq, if_pos hpf]

variable (hpf : (g.ob k).pf = false)
include hpf

theorem obReady_unread (hp : rangePoisoned s.mem (g.obt + 256 * k) 184 = true) :
    obReady s x g k = poisonOb (obCopied s x g k) x g.obt k .eccu (g.obt + 256 * k) := by
  rw [obReady_eq, if_neg (by simp [hpf]), readOb_poisoned hp]

variable {c : List Byte} (hread : readOb s.mem (g.obt + 256 * k) = some c)
include hread

theorem obReady_off (hoff : (rowCtl s x).getLsbD (16 + obCtl c / 2 ^ 48 % 16) = true) :
    obReady s x g k = retireOb (obCopied s x g k) x g.obt k .skipped := by
  rw [obReady_eq, if_neg (by simp [hpf]), hread]
  dsimp only
  rw [obCopied_rowCtl, obGroup_eq, if_pos hoff]

theorem obReady_expands (hoff : ¬ (rowCtl s x).getLsbD (16 + obCtl c / 2 ^ 48 % 16) = true) (hridx : obRidx c = 0xFFFF) :
    obReady s x g k = expandOb (obCopied s x g k) x g.obt k k c false (g.obt + 256 * k) := by
  have hreuse : reuseIndex (obRidx c) = none := if_pos hridx
  rw [obReady_eq, if_neg (by simp [hpf]), hread]
  dsimp only
  rw [obCopied_rowCtl, obGroup_eq, if_neg hoff, hreuse]

end Ready

section Expand
variable {s : State} {x obt k run loc : Nat} {c : List Byte}

theorem expandOb_bad (h : obBad c = true) : expandOb s x obt k run c false loc = poisonOb s x obt k .shape loc := if_pos h

theorem expandOb_empty (h : obBad c = false) (he : obCtl c % 2 = 1) : expandOb s x obt k run c false loc = retireOb s x obt k .done := by
  have hbit : (obCtl c).testBit 0 = true := by simpa [Nat.testBit_zero] using he
  unfold expandOb
  rw [if_neg (by simp [h])]
  simp only [hbit, if_true, Bool.false_eq_true, if_false]

/-- The OB as its Walker takes it: READY, every brick left (R27, R384). -/
def Ob.taken (bricks : Nat) (o : Ob) : Ob := { o with left := bricks, sig := 0, status := .ready }

theorem expandOb_walks (h : obBad c = false) (he : obCtl c % 2 = 0) {w : Nat} (hw : bestWalker s (partClusters s x) = some w) :
    expandOb s x obt k run c false loc = (modOb s x obt k (Ob.taken ((obBounds c).foldl (· * ·) 1))).modCluster w fun v =>
      { v with walk := v.walk ++ [⟨x, obt, k, run, 0, (obBounds c).foldl (· * ·) 1⟩] } := by
  have hbit : (obCtl c).testBit 0 = false := by simp [Nat.testBit_zero, he]
  unfold expandOb
  rw [if_neg (by simp [h])]
  simp only [hbit, Bool.false_eq_true, if_false, hw]
  rfl

end Expand

/-- An OB that is not EMPTY goes to the Walker with the fewest bricks left (R26, R27). -/
theorem expandOb_chooses {s : State} {x obt k run loc : Nat} {c : List Byte} {g : Graph} (hg : s.graph x obt = some g) (h : obBad c = false)
    (he : obCtl c % 2 = 0) (hne : partClusters s x ≠ []) :
    ∃ w ∈ partClusters s x, (∀ v ∈ partClusters s x, walkLoad (s.cluster w) ≤ walkLoad (s.cluster v) ∧
        (v < w → walkLoad (s.cluster w) < walkLoad (s.cluster v))) ∧
      ((expandOb s x obt k run c false loc).cluster w).walk =
        (s.cluster w).walk ++ [⟨x, obt, k, run, 0, (obBounds c).foldl (· * ·) 1⟩] ∧
      (∀ v, v ≠ w → ((expandOb s x obt k run c false loc).cluster v).walk = (s.cluster v).walk) ∧
      (expandOb s x obt k run c false loc).ob x obt k = Ob.taken ((obBounds c).foldl (· * ·) 1) (g.ob k) := by
  obtain ⟨w, hw, hbest, hmin⟩ := bestWalker_spec s (partClusters_sorted s x) hne
  have hcl (v : Nat) : (modOb s x obt k (Ob.taken ((obBounds c).foldl (· * ·) 1))).cluster v = s.cluster v :=
    State.apart_cluster (modOb_apart _ _ _ _ _) v
  refine ⟨w, hw, hmin, ?_, fun v hv => ?_, ?_⟩ <;> rw [expandOb_walks h he hbest]
  · rw [State.cluster_modCluster_same, hcl]
  · rw [State.cluster_modCluster_other _ _ hv, hcl]
  · exact ob_modOb hg _

/-! ### The event -/

section Event
variable {s : State} {x hdr k : Nat} (hx : x < 16)
include hx

theorem dependencyZero_stands (h : ∀ g, s.graph x hdr ≠ some g ∨ obWaits s x g k = false) : execDependencyZero x hdr k s = .next s := by
  unfold execDependencyZero
  rw [if_pos hx]
  cases hg : s.graph x hdr with
  | none => rfl
  | some g => exact if_neg (by simp [(h g).resolve_left (by simp [hg])])

theorem dependencyZero_ready {g : Graph} (hg : s.graph x hdr = some g) (hw : obWaits s x g k = true) :
    execDependencyZero x hdr k s = .next (obReady s x g k) := by
  unfold execDependencyZero
  rw [if_pos hx, hg]
  exact if_pos hw

end Event

/-- An OB that waits is PENDING with DEP 0 in an ACTIVE context (R26, R386). -/
theorem obWaits_pending {s : State} {x k : Nat} {g : Graph} (h : obWaits s x g k = true) :
    (s.ctx x).d.st = .active ∧ (g.ob k).status = .pending ∧ (g.ob k).dep = 0 := by
  simp only [obWaits, Bool.and_eq_true, beq_iff_eq] at h
  obtain ⟨⟨⟨⟨⟨hst, -⟩, -⟩, hpending⟩, -⟩, hdep⟩ := h
  exact ⟨hst, hpending, hdep⟩

/-- What becomes of OB k of the graph at hdr as its counter has reached 0. -/
theorem obReady_outcomes {s : State} {x hdr k : Nat} {g : Graph} (hg : s.graph x hdr = some g) :
    let a := g.obt + 256 * k
    let o := g.ob k
    let bytes := bytesN 184 (s.mem.read a 184)
    let ctl := obCtl bytes
    let off := (rowCtl s x).getLsbD (16 + ctl / 2 ^ 48 % 16) = true
    let bricks := (obBounds bytes).foldl (· * ·) 1
    let u := obReady s x g k
    (o.pf = true → Retired u x hdr k .poisoned ∧ (u.ctx x).fq = (s.ctx x).fq) ∧
    (o.pf = false → rangePoisoned s.mem a 184 = true → Retired u x hdr k .poisoned ∧ Recorded s u x) ∧
    (o.pf = false → rangePoisoned s.mem a 184 = false →
      (off → Retired u x hdr k .skipped ∧ (u.ctx x).fq = (s.ctx x).fq) ∧
      (¬ off → obRidx bytes = 0xFFFF →
        (obBad bytes = true → Retired u x hdr k .poisoned ∧ Recorded s u x) ∧
        (obBad bytes = false → ctl % 2 = 1 → Retired u x hdr k .done) ∧
        (obBad bytes = false → ctl % 2 = 0 → ∀ c, c ∈ partClusters s x →
          ∃ w ∈ partClusters s x, (∀ v ∈ partClusters s x, walkLoad (s.cluster w) ≤ walkLoad (s.cluster v) ∧
              (v < w → walkLoad (s.cluster w) < walkLoad (s.cluster v))) ∧
            (u.cluster w).walk = (s.cluster w).walk ++ [⟨x, hdr, k, k, 0, bricks⟩] ∧
            (∀ v, v ≠ w → (u.cluster v).walk = (s.cluster v).walk) ∧
            (u.ob x hdr k).status = .ready ∧ (u.ob x hdr k).left = bricks ∧ (u.ob x hdr k).copy = bytes))) := by
  obtain rfl := State.graph_obt hg
  intro a o bytes ctl off bricks u
  have hretired (st : ObStatus) : Retired (retireOb (obCopied s x g k) x g.obt k st) x g.obt k st ∧
      ((retireOb (obCopied s x g k) x g.obt k st).ctx x).fq = (s.ctx x).fq :=
    ⟨retireOb_retired _ _ _ _ _, by rw [retireOb_fq, obCopied_fq]⟩
  have hpoisoned (c : Cause) : Retired (poisonOb (obCopied s x g k) x g.obt k c a) x g.obt k .poisoned ∧
      Recorded s (poisonOb (obCopied s x g k) x g.obt k c a) x :=
    ⟨poisonOb_retired _ _ _ _ _ _, recorded_of_fq (by rw [poisonOb_fq, obCopied_fq])⟩
  refine ⟨fun hpf => ?_, fun hpf hp => ?_, fun hpf hp => ⟨fun hoff => ?_, fun hoff hridx => ?_⟩⟩
  · rw [show u = _ from obReady_poisoned hpf]; exact hretired .poisoned
  · rw [show u = _ from obReady_unread hpf hp]; exact hpoisoned .eccu
  · rw [show u = _ from obReady_off hpf (readOb_good hp) hoff]; exact hretired .skipped
  · have hu : u = expandOb (obCopied s x g k) x g.obt k k bytes false a := obReady_expands hpf (readOb_good hp) hoff hridx
    rw [hu]
    refine ⟨fun hbad => ?_, fun hgood he => ?_, fun hgood he c hc => ?_⟩
    · rw [expandOb_bad hbad]; exact hpoisoned .shape
    · rw [expandOb_empty hgood he]; exact (hretired .done).1
    · have hgraph := obCopied_graph (k := k) hg
      rw [readOb_good hp] at hgraph
      obtain ⟨w, hw, hmin, hwalk, hothers, hob⟩ := expandOb_chooses (k := k) (run := k) (loc := a) hgraph hgood he
        (by rw [obCopied_partClusters]; exact List.ne_nil_of_mem hc)
      have hcl (v : Nat) : (obCopied s x g k).cluster v = s.cluster v := State.apart_cluster obCopied_apart v
      simp only [obCopied_partClusters, hcl] at hw hmin hwalk hothers
      rw [ob_setObs, if_pos rfl] at hob
      refine ⟨w, hw, hmin, hwalk, hothers, ?_⟩
      rw [hob]
      exact ⟨rfl, rfl, rfl⟩

end Sys2Proof.Machine

/-! ## BRICK_PLACEMENT (02 R29, 18 R391) -/

namespace Sys2Proof.Machine

namespace SMap
variable {V : Type} {d : V} {k : Nat}

theorem get_of_not_mem {m : SMap V} (h : ∀ e ∈ m, e.1 ≠ k) : get d m k = d := by
  induction m with
  | nil => rfl
  | cons e m ih => rw [get_cons, if_neg (h e List.mem_cons_self), ih fun e he => h e (List.mem_cons_of_mem _ he)]

theorem mem_insert {m : SMap V} {v : V} {e : Nat × V} (h : e ∈ insert k v m) : e = (k, v) ∨ e ∈ m := by
  induction m with
  | nil => simpa [insert] using h
  | cons e' m ih =>
    rw [insert] at h
    split at h
    · simpa using h
    · rcases List.mem_cons.1 h with rfl | h
      · exact .inr List.mem_cons_self
      · exact (ih h).imp_right (List.mem_cons_of_mem _)

variable [DecidableEq V]

/-- A written key holds nothing but what was written. -/
theorem value_of_mem_set {m : SMap V} {v : V} {e : Nat × V} (h : e ∈ set d m k v) (hk : e.1 = k) : e.2 = v := by
  unfold set at h
  split at h
  · exact absurd hk (mem_erase h).1
  · rcases mem_insert h with rfl | h
    · rfl
    · exact absurd hk (mem_erase h).1

/-- A change of every entry, entries then at the default unlisted, keeps at a key what it keeps of every value. -/
theorem get_map_filter {γ : Type} {π : V → γ} {f : V → V} (hf : ∀ v, π (f v) = π v) {m : SMap V} {v : V} (h : ∀ e ∈ m, e.1 = k → e.2 = v) :
    π (get d ((m.map fun e => (e.1, f e.2)).filter fun e => e.2 != d) k) = π (get d m k) := by
  induction m with
  | nil => rfl
  | cons e m ih =>
    obtain ⟨j, w⟩ := e
    have hm : ∀ e ∈ m, e.1 = k → e.2 = v := fun e he => h e (List.mem_cons_of_mem _ he)
    by_cases hjk : j = k
    · obtain rfl : w = v := h (j, w) List.mem_cons_self hjk
      rw [get_cons, if_pos hjk, List.map_cons, List.filter_cons]
      by_cases hd : f w = d
      · rw [if_neg (by simp [hd]), get_of_not_mem, ← hd, hf]
        intro e he hek
        obtain ⟨he, hne⟩ := List.mem_filter.1 he
        obtain ⟨e, hmem, rfl⟩ := List.mem_map.1 he
        simp [hm e hmem hek, hd] at hne
      · rw [if_pos (by simpa using hd), get_cons, if_pos hjk, hf]
    · rw [get_cons, if_neg hjk, List.map_cons, List.filter_cons]
      split
      · rw [get_cons, if_neg hjk, ih hm]
      · exact ih hm

end SMap

/-! ### A Walker goes on -/

/-- What a Walker has left once its brick is placed. -/
def walkOn : List WalkJob → List WalkJob
  | [] => []
  | j :: js => if j.next + 1 < j.total then { j with next := j.next + 1 } :: js else js

section Emitted
variable (s : State) (cl : Nat) (w : WalkJob)

theorem advanceWalk_eq : advanceWalk s cl = s.modCluster cl fun c => { c with walk := walkOn c.walk } := by
  unfold advanceWalk walkOn
  congr

theorem advanceWalk_walk : ((advanceWalk s cl).cluster cl).walk = walkOn (s.cluster cl).walk := by
  rw [advanceWalk_eq, State.cluster_modCluster_same]

theorem advanceWalk_brickq (v : Nat) : ((advanceWalk s cl).cluster v).brickq = (s.cluster v).brickq := by
  rw [advanceWalk_eq, State.cluster_modCluster]
  split
  · next h => subst h; rfl
  · rfl

/-- What the brick's leaving changes beside the Walker's work is its OB's account. -/
theorem brickEmitted_spares {γ : Type} {π : State → γ} (h : SparesRecords π) : π (brickEmitted s cl w) = π (advanceWalk s cl) := by
  unfold brickEmitted
  extract_lets t
  split
  · exact h.modOb _ _ _ _ _
  · rfl

theorem brickEmitted_clusters : (brickEmitted s cl w).clusters = (advanceWalk s cl).clusters :=
  State.apart_clusters (brickEmitted_spares s cl w sparesRecords_apart)
theorem brickEmitted_cluster (v : Nat) : (brickEmitted s cl w).cluster v = (advanceWalk s cl).cluster v :=
  State.apart_cluster (brickEmitted_spares s cl w sparesRecords_apart) v
theorem brickEmitted_procs : (brickEmitted s cl w).procs = s.procs :=
  (State.apart_procs (brickEmitted_spares s cl w sparesRecords_apart)).trans (State.modCluster_procs s cl _)
theorem brickEmitted_fq (y : Nat) : ((brickEmitted s cl w).ctx y).fq = (s.ctx y).fq :=
  brickEmitted_spares s cl w (sparesRecords_fq y)

/-- READY becomes RUNNING with the first brick (R388). -/
theorem brickEmitted_running {g : Graph} (hg : s.graph w.ctx w.graph = some g) (h : (g.ob w.primary).status = .ready) :
    ((brickEmitted s cl w).ob w.ctx w.graph w.primary).status = .running := by
  have hgraph : (advanceWalk s cl).graph w.ctx w.graph = some g := hg
  have hready : ((advanceWalk s cl).ob w.ctx w.graph w.primary).status = .ready := by rw [State.ob, hgraph]; exact h
  unfold brickEmitted
  rw [if_pos hready, ob_modOb hgraph]

end Emitted

/-! ### The bricks of a poisoned OB leave -/

/-- A removal of bricks from the queues changes no Walker's work, where the cluster is listed once. -/
theorem poisonObBricks_walk {t : State} (x obt k : Nat) {c : Nat} {v : Cluster} (h : ∀ e ∈ t.clusters, e.1 = c → e.2 = v) :
    ((poisonObBricks t x obt k).cluster c).walk = (t.cluster c).walk := by
  unfold poisonObBricks
  split
  · rfl
  · extract_lets mine n s₁ s₂ s₃
    have h₂ : (s₂.cluster c).walk = (t.cluster c).walk :=
      SMap.get_map_filter (π := Cluster.walk) (f := fun v => { v with brickq := v.brickq.filter fun b => !mine b }) (fun _ => rfl) h
    rw [State.apart_cluster (sparesRecords_apart.bricksGone s₃ x obt k n true 0), ← h₂, State.apart_cluster (modOb_apart _ _ _ _ _)]

theorem poisonObBricks_fq (t : State) (x obt k y : Nat) : ((poisonObBricks t x obt k).ctx y).fq = (t.ctx y).fq := by
  unfold poisonObBricks
  split
  · rfl
  · extract_lets mine n s₁ s₂ s₃
    exact ((sparesRecords_fq y).bricksGone _ _ _ _ _ _ _).trans ((sparesRecords_fq y).modOb _ _ _ _ _)

/-! ### The event -/

section Place
variable {s : State} {cl : Nat} {w : WalkJob} {g : Graph}

/-- The bytes of the OB that a Walker places: the alternate's where it runs (R390). -/
def Ob.bytes (o : Ob) : List Byte := if o.altr then o.alt else o.copy

/-- The brick that a Walker places next, and its cluster. -/
def nextBrick (s : State) (w : WalkJob) (g : Graph) : Brick := makeBrick s w (g.ob w.primary).bytes g
def nextPlace (s : State) (w : WalkJob) (g : Graph) : Option Nat :=
  placeCluster s w.ctx (obCtl (g.ob w.primary).bytes) (obField (g.ob w.primary).bytes 0 32) (nextBrick s w g).coord w.next

theorem placeBrick_eq : placeBrick s cl w g = match nextPlace s w g with
    | none => bricksGone (poisonObBricks (writeRecord (brickEmitted s cl w) w.ctx .poison
        { cause := .window, unit := 6, loc := (nextBrick s w g).ob, brick := some ((nextBrick s w g).word 0 false false) })
        w.ctx w.graph w.primary) w.ctx w.graph w.primary 1 true 0
    | some t =>
      if (g.ob w.primary).anyPoison && !(s.ctx w.ctx).d.fmode then bricksGone (brickEmitted s cl w) w.ctx w.graph w.primary 1 true 0
      else if 512 ≤ (s.cluster t).brickq.length then s
      else (brickEmitted s cl w).modCluster t fun k => { k with brickq := k.brickq ++ [nextBrick s w g] } := rfl

section
variable {t : Nat} (ht : nextPlace s w g = some t) (hp : (s.ctx w.ctx).d.fmode = true ∨ (g.ob w.primary).anyPoison = false)
include ht hp

theorem placeBrick_runs : placeBrick s cl w g = if 512 ≤ (s.cluster t).brickq.length then s
    else (brickEmitted s cl w).modCluster t fun k => { k with brickq := k.brickq ++ [nextBrick s w g] } := by
  have hgoes : ((g.ob w.primary).anyPoison && !(s.ctx w.ctx).d.fmode) = false := by rcases hp with h | h <;> simp [h]
  rw [placeBrick_eq, ht]
  exact if_neg (by rw [hgoes]; exact Bool.false_ne_true)

theorem placeBrick_full (h : 512 ≤ (s.cluster t).brickq.length) : placeBrick s cl w g = s := by
  rw [placeBrick_runs ht hp, if_pos h]

theorem placeBrick_room (h : (s.cluster t).brickq.length < 512) : placeBrick s cl w g =
    (brickEmitted s cl w).modCluster t fun k => { k with brickq := k.brickq ++ [nextBrick s w g] } := by
  rw [placeBrick_runs ht hp, if_neg (Nat.not_le.2 h)]

end

theorem placeBrick_nowhere (ht : nextPlace s w g = none) :
    ∃ r, placeBrick s cl w g = bricksGone (poisonObBricks (writeRecord (brickEmitted s cl w) w.ctx .poison r) w.ctx w.graph w.primary)
      w.ctx w.graph w.primary 1 true 0 := by
  rw [placeBrick_eq, ht]
  exact ⟨_, rfl⟩

theorem brickPlacement_stands (hc : cl < 64) (h : (s.cluster cl).walk = []) : execBrickPlacement cl s = .next s := by
  unfold execBrickPlacement
  rw [if_pos hc, h]

theorem brickPlacement_places {l : List WalkJob} (hc : cl < 64) (h : (s.cluster cl).walk = w :: l) (hg : s.graph w.ctx w.graph = some g) :
    execBrickPlacement cl s = .next (placeBrick s cl w g) := by
  unfold execBrickPlacement
  rw [if_pos hc, h]
  simp only [hg]

/-- A brick that no cluster of the partition takes leaves with one record (R29). -/
theorem placeBrick_recorded (ht : nextPlace s w g = none) :
    Recorded s (placeBrick s cl w g) w.ctx ∧ ((placeBrick s cl w g).cluster cl).walk = walkOn (s.cluster cl).walk := by
  obtain ⟨r, hr⟩ := placeBrick_nowhere (cl := cl) ht
  rw [hr]
  constructor
  · refine recorded_of_fq ?_
    rw [(sparesRecords_fq w.ctx).bricksGone, poisonObBricks_fq, writeRecord_ctx, brickEmitted_fq]
  · have hclusters : (writeRecord (brickEmitted s cl w) w.ctx .poison r).clusters = (advanceWalk s cl).clusters := by
      rw [writeRecord_clusters, brickEmitted_clusters]
    have hcluster : (writeRecord (brickEmitted s cl w) w.ctx .poison r).cluster cl = (advanceWalk s cl).cluster cl := by
      rw [State.cluster, State.cluster, hclusters]
    have hlisted : ∀ e ∈ (advanceWalk s cl).clusters, e.1 = cl → e.2 = _ := fun e he => SMap.value_of_mem_set he
    rw [← hclusters] at hlisted
    rw [State.apart_cluster (sparesRecords_apart.bricksGone _ _ _ _ _ _ _), poisonObBricks_walk _ _ _ hlisted, hcluster, advanceWalk_walk]

/-- The brick that a Walker makes (R28, R281). -/
theorem makeBrick_fields (s : State) (w : WalkJob) (c : List Byte) (g : Graph) :
    let b := makeBrick s w c g
    b.eidx.toNat = w.next % 2 ^ 24 ∧ b.obn.toNat = w.ob % 2 ^ 16 ∧ b.prio.toNat = obCtl c / 2 ^ 33 % 8 ∧
    b.rst = (obCtl c).testBit 32 ∧ b.nslot.toNat = obCtl c / 2 ^ 52 % 16 ∧ b.maxd.toNat = obCtl c / 2 ^ 56 % 2 ^ 8 ∧
    b.egts = s.mod.gts ∧ b.coord = brickCoord (obBounds c) w.next := by
  have hfield (n v : Nat) : (BitVec.ofNat n (v % 2 ^ n)).toNat = v % 2 ^ n := by rw [BitVec.toNat_ofNat, Nat.mod_mod]
  refine ⟨BitVec.toNat_ofNat _ _, BitVec.toNat_ofNat _ _, ?_, rfl, ?_, ?_, rfl, rfl⟩
  · exact (congrArg (fun v => (BitVec.ofNat 3 v).toNat) (bits_eq _ 35 33)).trans (hfield 3 _)
  · exact (congrArg (fun v => (BitVec.ofNat 4 v).toNat) (bits_eq _ 55 52)).trans (hfield 4 _)
  · exact (congrArg (fun v => (BitVec.ofNat 8 v).toNat) (bits_eq _ 63 56)).trans (hfield 8 _)

/-- A brick goes to the end of its cluster's queue (R29). -/
theorem placeBrick_queued {t : Nat} (hg : s.graph w.ctx w.graph = some g) (ht : nextPlace s w g = some t)
    (hp : (s.ctx w.ctx).d.fmode = true ∨ (g.ob w.primary).anyPoison = false) (h : (s.cluster t).brickq.length < 512) :
    let u := placeBrick s cl w g
    (u.cluster t).brickq = (s.cluster t).brickq ++ [nextBrick s w g] ∧
    (∀ v, v ≠ t → (u.cluster v).brickq = (s.cluster v).brickq) ∧ (u.cluster cl).walk = walkOn (s.cluster cl).walk ∧
    ((g.ob w.primary).status = .ready → (u.ob w.ctx w.graph w.primary).status = .running) ∧ u.procs = s.procs := by
  intro u
  have hu : u = _ := placeBrick_room ht hp h
  have hq (v : Nat) : ((brickEmitted s cl w).cluster v).brickq = (s.cluster v).brickq := by rw [brickEmitted_cluster, advanceWalk_brickq]
  rw [hu]
  refine ⟨?_, fun v hv => ?_, ?_, fun hready => brickEmitted_running s cl w hg hready, brickEmitted_procs s cl w⟩
  · rw [State.cluster_modCluster_same, hq]
  · rw [State.cluster_modCluster_other _ _ hv, hq]
  · have hwalk := advanceWalk_walk s cl
    rw [← brickEmitted_cluster s cl w] at hwalk
    rw [← hwalk, State.cluster_modCluster]
    split
    · next hct => rw [hct]
    · rfl

end Place

end Sys2Proof.Machine

/-! ## The choice of a brick (02 R30) -/

namespace Sys2Proof.Machine

/-- A context of the highest credit is chosen. -/
theorem bestCtx_spec (credit : SMap Int) {l : List Nat} (h : l ≠ []) :
    ∃ x ∈ l, bestCtx credit l = some x ∧ ∀ y ∈ l, SMap.get 0 credit y ≤ SMap.get 0 credit x := by
  induction l with
  | nil => exact absurd rfl h
  | cons c cs ih =>
    cases cs with
    | nil => exact ⟨c, by simp, rfl, by simp⟩
    | cons e es =>
      obtain ⟨x, hx, hbest, hmax⟩ := ih (by simp)
      by_cases hlt : SMap.get 0 credit c < SMap.get 0 credit x
      · refine ⟨x, List.mem_cons_of_mem _ hx, by rw [bestCtx, hbest]; exact if_pos hlt, fun y hy => ?_⟩
        rcases List.mem_cons.1 hy with rfl | hy
        · exact Int.le_of_lt hlt
        · exact hmax y hy
      · refine ⟨c, List.mem_cons_self, by rw [bestCtx, hbest]; exact if_neg hlt, fun y hy => ?_⟩
        rcases List.mem_cons.1 hy with rfl | hy
        · exact Int.le_refl _
        · exact Int.le_trans (hmax y hy) (Int.not_lt.1 hlt)

/-- The order of R30 as one number, the least first. -/
def dispatchOrder (s : State) (c : Brick) : Nat := ((7 - effPrio s c) * 2 ^ 64 + c.egts.toNat) * 2 ^ 24 + c.eidx.toNat

theorem dispatchOrder_le_of_before {s : State} {a b : Brick} (h : before s a b = true) : dispatchOrder s a ≤ dispatchOrder s b := by
  change (decide (dispatchOrder s a < dispatchOrder s b) || (dispatchOrder s a == dispatchOrder s b && decide (a.ob < b.ob))) = true at h
  simp only [Bool.or_eq_true, decide_eq_true_eq, Bool.and_eq_true, beq_iff_eq] at h
  omega

theorem dispatchOrder_le_of_not_before {s : State} {a b : Brick} (h : ¬ before s a b = true) : dispatchOrder s b ≤ dispatchOrder s a := by
  change ¬ (decide (dispatchOrder s a < dispatchOrder s b) || (dispatchOrder s a == dispatchOrder s b && decide (a.ob < b.ob))) = true at h
  simp only [Bool.or_eq_true, decide_eq_true_eq, Bool.and_eq_true, beq_iff_eq, not_or] at h
  omega

theorem bestBrick_spec (s : State) {l : List Brick} (h : l ≠ []) :
    ∃ b ∈ l, bestBrick s l = some b ∧ ∀ c ∈ l, dispatchOrder s b ≤ dispatchOrder s c := by
  induction l with
  | nil => exact absurd rfl h
  | cons c cs ih =>
    cases cs with
    | nil => exact ⟨c, by simp, rfl, by simp⟩
    | cons e es =>
      obtain ⟨b, hb, hbest, hmin⟩ := ih (by simp)
      by_cases hlt : before s b c = true
      · refine ⟨b, List.mem_cons_of_mem _ hb, by rw [bestBrick, hbest]; exact if_pos hlt, fun d hd => ?_⟩
        rcases List.mem_cons.1 hd with rfl | hd
        · exact dispatchOrder_le_of_before hlt
        · exact hmin d hd
      · refine ⟨c, List.mem_cons_self, by rw [bestBrick, hbest]; exact if_neg hlt, fun d hd => ?_⟩
        rcases List.mem_cons.1 hd with rfl | hd
        · exact Nat.le_refl _
        · exact Nat.le_trans (dispatchOrder_le_of_not_before hlt) (hmin d hd)

/-- First by effective priority, then by age, then by order (R30). -/
theorem dispatchOrder_le {s : State} {b c : Brick} (h : dispatchOrder s b ≤ dispatchOrder s c) : effPrio s c ≤ effPrio s b ∧
    (effPrio s c = effPrio s b → b.egts.toNat ≤ c.egts.toNat ∧ (c.egts = b.egts → b.eidx.toNat ≤ c.eidx.toNat)) := by
  have hprio (d : Brick) : effPrio s d ≤ 7 := Nat.min_le_left _ _
  have hb := hprio b
  have hc := hprio c
  have hbt := b.egts.isLt
  have hct := c.egts.isLt
  have hbi := b.eidx.isLt
  have hci := c.eidx.isLt
  unfold dispatchOrder at h
  refine ⟨by omega, fun he => ⟨by omega, fun ht => ?_⟩⟩
  rw [ht] at h
  omega

/-! ### Credit -/

/-- Every context with a brick that waits earns its share once. -/
theorem raised_credit (share : Nat → Int) {xs : List Nat} (h : xs.Nodup) (m : SMap Int) {y : Nat} (hy : y ∈ xs) :
    SMap.get 0 (xs.foldl (fun m x => SMap.set 0 m x (SMap.get 0 m x + share x)) m) y = SMap.get 0 m y + share y := by
  have hrest (xs : List Nat) (m : SMap Int) (hy : y ∉ xs) :
      SMap.get 0 (xs.foldl (fun m x => SMap.set 0 m x (SMap.get 0 m x + share x)) m) y = SMap.get 0 m y := by
    induction xs generalizing m with
    | nil => rfl
    | cons x xs ih =>
      obtain ⟨hne, hmem⟩ := not_or.1 (mt List.mem_cons.2 hy)
      rw [List.foldl_cons, ih _ hmem, SMap.get_set_other _ _ _ hne]
  induction xs generalizing m with
  | nil => simp at hy
  | cons x xs ih =>
    obtain ⟨hx, hxs⟩ := List.nodup_cons.1 h
    rw [List.foldl_cons]
    by_cases hyx : y = x
    · subst hyx
      rw [hrest xs _ hx, SMap.get_set_same]
    · rw [ih hxs _ ((List.mem_cons.1 hy).resolve_left hyx), SMap.get_set_other _ _ _ hyx]

/-! ### The selection -/

section Select
variable (s : State) (p : Nat)

/-- The bricks that may be selected for core p (R392). -/
def candidates : List Brick := ((s.cluster (clusterOf p)).brickq.take brickMax).filter (eligible s p)

/-- The credit of a context with its share of this selection. -/
def earnedCredit (x : Nat) : Int := SMap.get 0 (s.cluster (clusterOf p)).credit x + ((s.ctx x).d.share.toNat : Int)

/-- The contexts with such a brick. -/
def candidateCtxs : List Nat := (List.range 16).filter fun x => (candidates s p).any fun b => b.ctx.toNat == x

/-- Their credit once each has earned its share. -/
def raisedCredit : SMap Int :=
  (candidateCtxs s p).foldl (fun m x => SMap.set 0 m x (SMap.get 0 m x + ((s.ctx x).d.share.toNat : Int))) (s.cluster (clusterOf p)).credit

/-- The brick has left the queue and is paid for. -/
def brickTaken (x : Nat) (b : Brick) : State :=
  let total := (candidateCtxs s p).foldl (fun (n : Int) x => n + ((s.ctx x).d.share.toNat : Int)) 0
  let t := s.modCluster (clusterOf p) fun c => { c with
    credit := SMap.set 0 (raisedCredit s p) x (SMap.get 0 (raisedCredit s p) x - total), brickq := dropFirst b c.brickq }
  perfAdd (perfAdd t (clusterOf p) 0x16 p x 1) (clusterOf p) 0x17 p x (t.gts - b.egts.toNat)

/-- The core holds the brick, after a switch of context where it needs one. -/
def brickHeld (x : Nat) (b : Brick) : State :=
  (if ((brickTaken s p x b).proc p).ctxOf = some x then brickTaken s p x b
    else restoreCore (saveCore (brickTaken s p x b) p false) p x).modProc p fun v => { v with heldBrick := some b }

theorem selectBrick_eq : selectBrick s p =
    match bestCtx (raisedCredit s p) (candidateCtxs s p) with
    | none => none
    | some x => match bestBrick s ((candidates s p).filter fun b => b.ctx.toNat == x) with
      | none => none
      | some b => some (brickHeld s p x b) := rfl

theorem selectBrick_none (h : candidates s p = []) : selectBrick s p = none := by
  have hctxs : candidateCtxs s p = [] := by simp [candidateCtxs, h]
  rw [selectBrick_eq, hctxs]
  rfl

variable {s p} in
theorem mem_candidateCtxs {b : Brick} (h : b ∈ candidates s p) : b.ctx.toNat ∈ candidateCtxs s p :=
  List.mem_filter.2 ⟨List.mem_range.2 b.ctx.isLt, List.any_eq_true.2 ⟨b, h, beq_self_eq_true _⟩⟩

theorem candidateCtxs_nodup : (candidateCtxs s p).Nodup := List.nodup_range.filter _

/-- The brick that is selected (R30). -/
theorem selectBrick_some (h : candidates s p ≠ []) : ∃ b ∈ candidates s p, selectBrick s p = some (brickHeld s p b.ctx.toNat b) ∧
    (∀ c ∈ candidates s p, earnedCredit s p c.ctx.toNat ≤ earnedCredit s p b.ctx.toNat) ∧
    ∀ c ∈ candidates s p, c.ctx = b.ctx → dispatchOrder s b ≤ dispatchOrder s c := by
  obtain ⟨b₀, hb₀⟩ := List.exists_mem_of_ne_nil _ h
  obtain ⟨x, hx, hctx, hcredit⟩ := bestCtx_spec (raisedCredit s p) (List.ne_nil_of_mem (mem_candidateCtxs hb₀))
  obtain ⟨b₁, hb₁, hb₁x⟩ := List.any_eq_true.1 (List.mem_filter.1 hx).2
  obtain ⟨b, hb, hbest, hturn⟩ := bestBrick_spec s (l := (candidates s p).filter fun b => b.ctx.toNat == x)
    (List.ne_nil_of_mem (List.mem_filter.2 ⟨hb₁, hb₁x⟩))
  replace ⟨hb, hbx⟩ := List.mem_filter.1 hb
  obtain rfl : b.ctx.toNat = x := by simpa using hbx
  refine ⟨b, hb, by rw [selectBrick_eq, hctx]; simp only [hbest], fun c hc => ?_, fun c hc hcb => ?_⟩
  · have hle := hcredit _ (mem_candidateCtxs hc)
    rwa [raisedCredit, raised_credit _ (candidateCtxs_nodup s p) _ (mem_candidateCtxs hc),
      raised_credit _ (candidateCtxs_nodup s p) _ (mem_candidateCtxs hb)] at hle
  · exact hturn c (List.mem_filter.2 ⟨hc, by simp [hcb]⟩)

end Select

end Sys2Proof.Machine


/-! ## The switch of a core's context (02 R41, R486; 15 R345) -/

namespace Sys2Proof.Machine

/-- Clusters after a change that keeps their brick queues. -/
theorem modCluster_brickq (s : State) (c v : Nat) {f : Cluster → Cluster} (hf : ∀ c, (f c).brickq = c.brickq) :
    ((s.modCluster c f).cluster v).brickq = (s.cluster v).brickq := by
  rw [State.cluster_modCluster]
  split
  · next h => subst h; exact hf _
  · rfl

theorem modPress_brickq (s : State) (c v : Nat) (f : Press → Press) : ((s.modPress c f).cluster v).brickq = (s.cluster v).brickq :=
  modCluster_brickq s c v fun _ => rfl

section Switch
variable (s : State) (p x v : Nat)

/-! ### Performance counters -/

section Perf
variable (ev core n : Nat)

theorem perfAdd_keeps {γ : Type} {π : State → γ} (h : ∀ f : Cluster → Cluster, (∀ c, (f c).brickq = c.brickq) → π (s.modCluster v f) = π s) :
    π (perfAdd s v ev core x n) = π s := by
  unfold perfAdd
  split
  · rfl
  · exact h _ fun _ => rfl

theorem perfAdd_brickq (j : Nat) : ((perfAdd s v ev core x n).cluster j).brickq = (s.cluster j).brickq :=
  perfAdd_keeps (π := fun s => (s.cluster j).brickq) s x v ev core n fun _ hf => modCluster_brickq s v j hf
theorem perfAdd_proc (j : Nat) : (perfAdd s v ev core x n).proc j = s.proc j :=
  perfAdd_keeps (π := fun s => s.proc j) s x v ev core n fun _ _ => rfl
theorem perfAdd_ctxs : (perfAdd s v ev core x n).ctxs = s.ctxs := perfAdd_keeps s x v ev core n fun _ _ => rfl
theorem perfAdd_saved : (perfAdd s v ev core x n).saved = s.saved := perfAdd_keeps s x v ev core n fun _ _ => rfl

end Perf

/-! ### The save -/

theorem emptyAux_brickq : ((emptyAux s p x).cluster v).brickq = (s.cluster v).brickq := by
  refine Eq.trans ?_ (foldl_keeps (g := fun s : State => (s.cluster v).brickq)
    (f := fun s e => traceRec s (clusterOf p) 2 p x false (e.1 + e.2 * 2 ^ 64)) (fun s e => ?_) (auxElements (s.proc p).q) s)
  · rfl
  · exact modCluster_brickq s _ v fun _ => rfl

theorem completeMarkers_clusters : (completeMarkers s p).clusters = s.clusters := by
  unfold completeMarkers
  refine foldl_keeps (g := State.clusters) (fun s u => ?_) engines s
  rw [State.modQ_clusters, markDone, State.modSync_clusters]

theorem semLeave_clusters (who : Option (Nat × Eng)) : (semLeave s p who).clusters = s.clusters := by
  unfold semLeave
  split <;> rfl

theorem leasePass_brickq (c : Nat) : ((leasePass s c).cluster v).brickq = (s.cluster v).brickq := modPress_brickq _ _ _ _

theorem leaseDrop_brickq : ((leaseDrop s p).cluster v).brickq = (s.cluster v).brickq := by
  unfold leaseDrop
  extract_lets cl pr t
  split
  · exact leasePass_brickq t v cl
  · exact modPress_brickq t cl v _

theorem returnHeld_none (h : (s.proc p).heldBrick = none) : returnHeld s p = s := by
  unfold returnHeld
  rw [h]

/-- The core's queues, markers and semaphores as it is saved (R345). -/
def coreEmptied : State := semLeave (completeMarkers (emptyAux (returnHeld s p) p x) p) p none

/-- The records of the slots whose residues do not match as they are resolved (10 R240). -/
def slotsNoted (done : List (Slot × Option Nat)) : State :=
  done.foldl (fun s d => match d.2 with
    | some k => writeRecord s x .note { cause := .accerr, unit := 8, core := p, detail := BitVec.ofNat 24 (d.1.lslot * 2 ^ 18 + k) }
    | none => s) s

theorem slotsNoted_clusters (done : List (Slot × Option Nat)) : (slotsNoted s p x done).clusters = s.clusters := by
  refine foldl_keeps (g := State.clusters) (fun s d => ?_) done s
  split
  · exact writeRecord_clusters _ _ _ _
  · rfl

theorem saveCore_idle (fresh : Bool) (h : (s.proc p).ctxOf = none) : saveCore s p fresh = s := by
  unfold saveCore
  rw [h]

/-- A save: the core is emptied, its Press slots and lease are given up, its image is stored, and it has no program. -/
theorem saveCore_eq (fresh : Bool) (h : (s.proc p).ctxOf = some x) : ∃ done mine v, saveCore s p fresh =
    (storeImage ((leaseDrop (freeSlots (slotsNoted (coreEmptied s p x) p x done) (clusterOf p) mine) p).setSaved x p (some v)) x p v).modProc p
      fun v => { v with run := .idle, img := Image.reset, semq := [], t0 := none, cur := none, stall := [], throttled := false } := by
  unfold saveCore
  rw [h]
  exact ⟨_, _, _, rfl⟩

/-- The saved context's image stands. -/
theorem saveCore_saved (fresh : Bool) (h : (s.proc p).ctxOf = some x) : ((saveCore s p fresh).savedOf x p).isSome = true := by
  obtain ⟨done, mine, v, hsave⟩ := saveCore_eq s p x fresh h
  rw [hsave, State.savedOf, State.modProc_saved, storeImage, State.modMem_saved, State.setSaved, SMap.get_set_same]
  rfl

/-- A core without a selected brick leaves every queue as it is. -/
theorem saveCore_brickq (fresh : Bool) (h : (s.proc p).heldBrick = none) :
    ((saveCore s p fresh).cluster v).brickq = (s.cluster v).brickq := by
  have hcl {s t : State} (h : t.clusters = s.clusters) : (t.cluster v).brickq = (s.cluster v).brickq := by rw [State.cluster, State.cluster, h]
  cases hctx : (s.proc p).ctxOf with
  | none => rw [saveCore_idle s p fresh hctx]
  | some x =>
    obtain ⟨done, mine, w, hsave⟩ := saveCore_eq s p x fresh hctx
    rw [hsave, State.modProc_cluster, storeImage, State.modMem_cluster, State.setSaved_cluster, leaseDrop_brickq, freeSlots, modPress_brickq,
      hcl (slotsNoted_clusters _ _ _ _), coreEmptied, hcl (semLeave_clusters _ _ _), hcl (completeMarkers_clusters _ _), emptyAux_brickq,
      returnHeld_none s p h]

/-! ### The restore -/

/-- What a core takes of a saved image, or of the start image. -/
def takenImage : Saved × Bool :=
  match s.savedOf x p with
  | some v => readImage s x p v
  | none => (⟨startImage s x p, [], false, 0⟩, false)

def restored : Saved :=
  if (SMap.get none s.startTvec (x * 512 + p)).isNone then
    { (takenImage s p x).1 with img := { (takenImage s p x).1.img with cc := startCC s x p } }
  else (takenImage s p x).1

/-- The state with the image taken, before the Press takes its slots and requests. -/
def imageTaken : State :=
  let s₁ := if (takenImage s p x).2 then writeRecord s x .note { cause := .eccu, unit := 8, core := p } else s
  let s₂ := s₁.setSaved x p none
  ({ s₂ with startTvec := SMap.set none s₂.startTvec (x * 512 + p) (some (startVector s₁ x p)) } : State).modProc p fun c =>
    { c with run := .running x, img := { (restored s p x).img with cc := (restored s p x).img.cc.transfer },
             coh := { c.coh with wsCur := c.coh.wsCur ||| (restored s p x).sig } }

/-- The Press is all that a restore changes beside. -/
theorem restoreCore_keeps {γ : Type} {π : State → γ} (h : ∀ s c f, π (State.modPress s c f) = π s) :
    π (restoreCore s p x) = π (imageTaken s p x) := by
  unfold restoreCore
  extract_lets _ _ _ _ _ _ _ _ _ _ _ taken
  have htaken : π taken = π (imageTaken s p x) := h _ _ _
  split
  · exact (h _ _ _).trans htaken
  · exact htaken

theorem restoreCore_proc : (restoreCore s p x).proc p = { s.proc p with
    run := .running x, img := { (restored s p x).img with cc := (restored s p x).img.cc.transfer },
    coh := { (s.proc p).coh with wsCur := (s.proc p).coh.wsCur ||| (restored s p x).sig } } := by
  rw [restoreCore_keeps (π := fun s => s.proc p) s p x fun _ _ _ => rfl, imageTaken, State.proc_modProc_same]
  have hproc (t : State) (h : t.procs = s.procs) : t.proc p = s.proc p := by rw [State.proc, State.proc, h]
  rw [hproc]
  dsimp only [State.setSaved]
  split
  · exact writeRecord_procs _ _ _ _
  · rfl

theorem restoreCore_brickq : ((restoreCore s p x).cluster v).brickq = (s.cluster v).brickq := by
  rw [restoreCore_keeps (π := fun s => (s.cluster v).brickq) s p x fun _ _ _ => modPress_brickq _ _ _ _]
  have hcl : (imageTaken s p x).clusters = s.clusters := by
    unfold imageTaken
    extract_lets s₁ s₂
    change s₁.clusters = s.clusters
    dsimp only [s₁]
    split
    · exact writeRecord_clusters _ _ _ _
    · rfl
  rw [State.cluster, State.cluster, hcl]

@[simp] theorem writeRecord_saved (k : RecKind) (r : Rec) : (writeRecord s x k r).saved = s.saved :=
  writeRecord_keeps (π := State.saved) s x k r (fun _ _ => rfl) (fun _ _ => rfl) fun _ _ => rfl

theorem restoreCore_saved_other {y : Nat} (h : y ≠ x) : (restoreCore s p x).savedOf y p = s.savedOf y p := by
  rw [restoreCore_keeps (π := fun s => s.savedOf y p) s p x fun _ _ _ => rfl]
  unfold imageTaken
  extract_lets s₁ s₂
  have h₁ : s₁.saved = s.saved := by
    dsimp only [s₁]
    split
    · exact writeRecord_saved _ _ _ _
    · rfl
  calc SMap.get none (SMap.set none s₁.saved (x * 512 + p) none) (y * 512 + p) = SMap.get none s₁.saved (y * 512 + p) :=
        SMap.get_set_other _ _ _ (by omega)
    _ = s.savedOf y p := by rw [h₁]; rfl

/-- A context that has no image on the core starts at its entry (R112, R486). -/
theorem restored_pc (h : s.savedOf x p = none) : (restored s p x).img.cc.pc = (startCC s x p).pc := by
  have htaken : takenImage s p x = (⟨startImage s x p, [], false, 0⟩, false) := by
    unfold takenImage
    rw [h]
  unfold restored
  rw [htaken]
  split <;> rfl

end Switch

end Sys2Proof.Machine

/-! ## DISPATCH_SELECTION and IDLE_CORE_START (02 R30, R41; 18 R392, R486) -/

namespace Sys2Proof.Machine

section Held
variable (s : State) (p x : Nat) (b : Brick)

theorem brickTaken_proc (j : Nat) : (brickTaken s p x b).proc j = s.proc j :=
  (perfAdd_proc _ _ _ _ _ _ _).trans (perfAdd_proc _ _ _ _ _ _ _)
theorem brickTaken_ctxs : (brickTaken s p x b).ctxs = s.ctxs := (perfAdd_ctxs _ _ _ _ _ _).trans (perfAdd_ctxs _ _ _ _ _ _)
theorem brickTaken_saved : (brickTaken s p x b).saved = s.saved := (perfAdd_saved _ _ _ _ _ _).trans (perfAdd_saved _ _ _ _ _ _)

theorem brickTaken_brickq : ((brickTaken s p x b).cluster (clusterOf p)).brickq = dropFirst b (s.cluster (clusterOf p)).brickq := by
  refine (perfAdd_brickq _ _ _ _ _ _ _).trans ((perfAdd_brickq _ _ _ _ _ _ _).trans ?_)
  rw [State.cluster_modCluster_same]

theorem brickHeld_proc : ((brickHeld s p x b).proc p).heldBrick = some b := by
  unfold brickHeld
  rw [State.proc_modProc_same]

variable {s p x b}

/-- A core of the same context keeps its program. -/
theorem brickHeld_same (h : (s.proc p).ctxOf = some x) :
    brickHeld s p x b = (brickTaken s p x b).modProc p fun v => { v with heldBrick := some b } := by
  unfold brickHeld
  rw [if_pos (by rw [brickTaken_proc]; exact h)]

/-- Any other core is saved and takes the context's image. -/
theorem brickHeld_switched (h : (s.proc p).ctxOf ≠ some x) : brickHeld s p x b =
    (restoreCore (saveCore (brickTaken s p x b) p false) p x).modProc p fun v => { v with heldBrick := some b } := by
  unfold brickHeld
  rw [if_neg (by rw [brickTaken_proc]; exact h)]

theorem brickHeld_run {y : Nat} (h : (s.proc p).run = .running y ∨ (s.proc p).run = .idle) : ((brickHeld s p x b).proc p).run = .running x := by
  by_cases hx : (s.proc p).ctxOf = some x
  · rw [brickHeld_same hx, State.proc_modProc_same, brickTaken_proc]
    rcases h with h | h <;> simp only [Proc.ctxOf, h, Option.some.injEq, reduceCtorEq] at hx
    rw [← hx]; exact h
  · rw [brickHeld_switched hx, State.proc_modProc_same, restoreCore_proc]

theorem brickHeld_brickq (h : (s.proc p).heldBrick = none) :
    ((brickHeld s p x b).cluster (clusterOf p)).brickq = dropFirst b (s.cluster (clusterOf p)).brickq := by
  rw [← brickTaken_brickq s p x b]
  by_cases hx : (s.proc p).ctxOf = some x
  · rw [brickHeld_same hx, State.modProc_cluster]
  · rw [brickHeld_switched hx, State.modProc_cluster, restoreCore_brickq, saveCore_brickq]
    rw [brickTaken_proc]; exact h

theorem brickHeld_img (h : (s.proc p).ctxOf = some x) : ((brickHeld s p x b).proc p).img = (s.proc p).img := by
  rw [brickHeld_same h, State.proc_modProc_same, brickTaken_proc]

theorem brickHeld_saved {y : Nat} (h : (s.proc p).ctxOf = some y) (hy : y ≠ x) : ((brickHeld s p x b).savedOf y p).isSome = true := by
  rw [brickHeld_switched (by rw [h]; simpa using hy)]
  change ((restoreCore (saveCore (brickTaken s p x b) p false) p x).savedOf y p).isSome = true
  rw [restoreCore_saved_other _ _ _ hy, saveCore_saved]
  rw [brickTaken_proc]; exact h

theorem startCC_pc_congr {t : State} (h : t.ctxs = s.ctxs) : (startCC t x p).pc = (startCC s x p).pc := by
  have hctx : t.ctx x = s.ctx x := by rw [State.ctx, State.ctx, h]
  unfold startCC
  rw [hctx]

theorem brickHeld_starts (h : (s.proc p).ctxOf = none) (hs : s.savedOf x p = none) :
    ((brickHeld s p x b).proc p).img.cc.pc = (startImage s x p).cc.pc := by
  rw [brickHeld_switched (by rw [h]; simp), saveCore_idle _ _ _ (by rw [brickTaken_proc]; exact h), State.proc_modProc_same, restoreCore_proc]
  refine (restored_pc _ _ _ ?_).trans (startCC_pc_congr (brickTaken_ctxs s p x b))
  rw [State.savedOf, brickTaken_saved]
  exact hs

end Held

section Events
variable {s : State} {p : Nat}

theorem wantsBrick_heldBrick (h : wantsBrick s p = true) : (s.proc p).heldBrick = none := by
  simp only [wantsBrick, Bool.and_eq_true, Option.isNone_iff_eq_none] at h
  exact h.1

variable (hp : p < 256)
include hp

theorem dispatch_stands (h : wantsBrick s p = false) : execDispatchSelection p s = .next s ∧ execIdleCoreStart p s = .next s := by
  unfold execDispatchSelection execIdleCoreStart
  simp only [if_pos hp, h, Bool.and_false, Bool.false_eq_true, if_false, and_self]

theorem dispatchSelection_selects {y : Nat} (h : wantsBrick s p = true) (hrun : (s.proc p).run = .running y) :
    execDispatchSelection p s = .next ((selectBrick s p).getD s) := by
  have hctx : (s.proc p).ctxOf = some y := by rw [Proc.ctxOf, hrun]
  unfold execDispatchSelection
  rw [if_pos hp, if_pos (by rw [hctx, h]; rfl)]

theorem idleCoreStart_selects (h : wantsBrick s p = true) (hrun : (s.proc p).run = .idle) :
    execIdleCoreStart p s = .next ((selectBrick s p).getD s) := by
  have hctx : (s.proc p).ctxOf = none := by rw [Proc.ctxOf, hrun]
  unfold execIdleCoreStart
  rw [if_pos hp, if_pos (by rw [hctx, h]; rfl)]

end Events

/-- What a core that waits gets: the eligible brick that comes first, and its context's program (R30, R41, R486). -/
theorem selection_outcomes {s : State} {p y : Nat} (hw : wantsBrick s p = true)
    (hrun : (s.proc p).run = .running y ∨ (s.proc p).run = .idle) {o : Out} (ho : o = .next ((selectBrick s p).getD s)) :
    (candidates s p = [] → Leaves o s) ∧
    (candidates s p ≠ [] → ∃ u b, o = .next u ∧ b ∈ candidates s p ∧ (u.proc p).heldBrick = some b ∧
      (u.proc p).run = .running b.ctx.toNat ∧
      (∀ c ∈ candidates s p, earnedCredit s p c.ctx.toNat ≤ earnedCredit s p b.ctx.toNat) ∧
      (∀ c ∈ candidates s p, c.ctx = b.ctx → effPrio s c ≤ effPrio s b ∧
        (effPrio s c = effPrio s b → b.egts.toNat ≤ c.egts.toNat ∧ (c.egts = b.egts → b.eidx.toNat ≤ c.eidx.toNat))) ∧
      (u.cluster (clusterOf p)).brickq = dropFirst b (s.cluster (clusterOf p)).brickq ∧
      ((s.proc p).ctxOf = some b.ctx.toNat → (u.proc p).img = (s.proc p).img) ∧
      (∀ z, (s.proc p).ctxOf = some z → z ≠ b.ctx.toNat → (u.savedOf z p).isSome = true) ∧
      ((s.proc p).ctxOf = none → s.savedOf b.ctx.toNat p = none → (u.proc p).img.cc.pc = (startImage s b.ctx.toNat p).cc.pc)) := by
  subst ho
  refine ⟨fun h => ⟨s, by rw [selectBrick_none s p h]; rfl, .refl _⟩, fun h => ?_⟩
  obtain ⟨b, hb, hselect, hcredit, horder⟩ := selectBrick_some s p h
  exact ⟨brickHeld s p b.ctx.toNat b, b, by rw [hselect]; rfl, hb, brickHeld_proc s p _ b, brickHeld_run hrun, hcredit,
    fun c hc hctx => dispatchOrder_le (horder c hc hctx), brickHeld_brickq (wantsBrick_heldBrick hw), brickHeld_img,
    fun _ => brickHeld_saved, brickHeld_starts⟩

/-- Settles O42: an OB whose counter has reached 0 (`obReady_outcomes`), a Walker's next brick (`placeBrick_queued`,
`placeBrick_recorded`), and the brick that a core which waits gets (`selection_outcomes`). -/
theorem blocksAndDispatch : Obligations.BlocksAndDispatch := by
  unfold Obligations.BlocksAndDispatch
  refine ⟨fun s x hdr k hx => ⟨fun h => ?_, fun g hg hw => ?_, fun c hc => ⟨fun h => ?_, fun w l g h hg => ?_⟩⟩,
    fun s p hp => ⟨fun h => ?_, fun h y hrun => ?_, fun h hrun => ?_⟩⟩
  · exact ⟨_, dependencyZero_stands hx h, .refl _⟩
  · exact ⟨obWaits_pending hw, _, dependencyZero_ready hx hg hw, obReady_outcomes hg⟩
  · exact ⟨_, brickPlacement_stands hc h, .refl _⟩
  · have hplace := brickPlacement_places hc h hg
    refine ⟨makeBrick_fields s w _ g, fun t ht hpoison => ⟨fun hfull => ?_, fun hroom => ?_⟩, fun ht => ?_⟩
    · rw [placeBrick_full ht hpoison hfull] at hplace
      exact ⟨_, hplace, .refl _⟩
    · obtain ⟨hqueue, hothers, hwalk, hrunning, hprocs⟩ := placeBrick_queued (cl := c) hg ht hpoison hroom
      rw [h] at hwalk
      exact ⟨_, hplace, hqueue, hothers, hwalk, hrunning, hprocs⟩
    · obtain ⟨hrecord, hwalk⟩ := placeBrick_recorded (cl := c) ht
      rw [h] at hwalk
      exact ⟨_, hplace, hrecord, hwalk⟩
  · obtain ⟨hdispatch, hidle⟩ := dispatch_stands hp h
    exact ⟨⟨_, hdispatch, .refl _⟩, ⟨_, hidle, .refl _⟩⟩
  · exact selection_outcomes h (.inl hrun) (dispatchSelection_selects hp h hrun)
  · exact selection_outcomes (y := 0) h (.inr hrun) (idleCoreStart_selects hp h hrun)

end Sys2Proof.Machine

/-! ## What the fates of bricks and cores spare (02 R32-R40; 12 R289; 15 R329-R343, R348)

Bricks and commands leave, cores stop and records are written, but nothing of this touches the module's own registers or poison,
brings an absent cluster back, or gives a vacant core a program (`Spared`). Only a save, which stores an image, may clear poison. -/

namespace Sys2Proof.Machine

namespace SMap
variable {V : Type} {d : V} {k : Nat}

/-- What the default has and every listed value has, every key's value has. -/
theorem get_of_forall {P : V → Prop} (hd : P d) {m : SMap V} (h : ∀ e ∈ m, e.1 = k → P e.2) : P (get d m k) := by
  induction m with
  | nil => exact hd
  | cons e m ih =>
    rw [get_cons]
    split
    · next hk => exact h e List.mem_cons_self hk
    · exact ih fun e he => h e (List.mem_cons_of_mem _ he)

/-- A change of every entry, entries then at the default unlisted, keeps what it keeps of every value and the default lacks. -/
theorem get_map_filter_of [DecidableEq V] {P : V → Prop} {f : V → V} (hf : ∀ v, P v → P (f v)) (hd : ¬ P d) {m : SMap V} (h : P (get d m k)) :
    P (get d ((m.map fun e => (e.1, f e.2)).filter fun e => e.2 != d) k) := by
  induction m with
  | nil => exact absurd h hd
  | cons e m ih =>
    obtain ⟨j, v⟩ := e
    rw [get_cons] at h
    rw [List.map_cons, List.filter_cons]
    by_cases hjk : j = k
    · rw [if_pos hjk] at h
      have hne : f v ≠ d := fun heq => hd (heq ▸ hf v h)
      rw [if_pos (by simpa using hne), get_cons, if_pos hjk]
      exact hf v h
    · rw [if_neg hjk] at h
      split
      · rw [get_cons, if_neg hjk]; exact ih h
      · exact ih h

end SMap

theorem Memory.write_poison (m : Memory) (key n v : Nat) : (m.write key n v).poison = m.poison := by
  induction n generalizing m key v with
  | zero => rfl
  | succ n ih => rw [Memory.write, ih]

theorem State.apart_mod {s t : State} (h : t.apart = s.apart) : t.mod = s.mod := by
  change t.apart.mod = s.apart.mod
  rw [h]

/-- A core without a program, a brick or a waiter, its registers at reset (15 R348). -/
structure Proc.Vacant (v : Proc) : Prop where
  run : v.run = .idle
  bricks : v.bricks = []
  img : v.img = Image.reset
  semq : v.semq = []

/-- Core p, however often it is listed, is vacant. -/
def State.Vacant (s : State) (p : Nat) : Prop := ∀ e ∈ s.procs, e.1 = p → e.2.Vacant

theorem State.Vacant.proc {s : State} {p : Nat} (h : s.Vacant p) : (s.proc p).Vacant :=
  SMap.get_of_forall ⟨rfl, rfl, rfl, rfl⟩ h

theorem not_vacant_of_brick {s : State} {p : Nat} {tag : BitVec 3} {b : BrickReg} (h : s.brick p tag = some b) : ¬ s.Vacant p := by
  intro hv
  rw [State.brick, hv.proc.bricks] at h
  exact absurd h (by simp)

theorem not_vacant_of_ctxOf {s : State} {p x : Nat} (h : (s.proc p).ctxOf = some x) : ¬ s.Vacant p := by
  intro hv
  rw [Proc.ctxOf, hv.proc.run] at h
  exact absurd h (by simp)

/-- The module's registers and the poison stand, an absent cluster stays absent, a vacant core vacant. -/
structure Spared (s u : State) : Prop where
  mod : u.mod = s.mod
  poison : u.mem.poison = s.mem.poison
  absent : ∀ c, (s.cluster c).absent = true → (u.cluster c).absent = true
  vacant : ∀ p, s.Vacant p → u.Vacant p

theorem Spared.refl (s : State) : Spared s s := ⟨rfl, rfl, fun _ => id, fun _ => id⟩

theorem Spared.trans {s t u : State} (h : Spared s t) (h' : Spared t u) : Spared s u :=
  ⟨h'.mod.trans h.mod, h'.poison.trans h.poison, fun c hc => h'.absent c (h.absent c hc), fun p hp => h'.vacant p (h.vacant p hp)⟩

/-- A change that reaches neither the module's registers nor poison, a cluster or a core. -/
theorem Spared.of_eq {s t u : State} (h : Spared s t) (hmod : u.mod = t.mod) (hpoison : u.mem.poison = t.mem.poison)
    (hclusters : u.clusters = t.clusters) (hprocs : u.procs = t.procs) : Spared s u :=
  h.trans ⟨hmod, hpoison, fun c hc => by rwa [State.cluster, hclusters], fun p hp => by rwa [State.Vacant, hprocs]⟩

theorem Spared.foldl {α : Type} {s : State} {f : State → α → State} (hf : ∀ t a, Spared s t → Spared s (f t a)) (l : List α)
    {t : State} (h : Spared s t) : Spared s (l.foldl f t) := by
  induction l generalizing t with
  | nil => exact h
  | cons a l ih => exact ih (hf t a h)

/-- What commands a predicate on captures keeps of a core's queues, and of a Press's gathered commands. -/
def Cmd.kept (keep : Capture → Bool) (c : Cmd) : Bool := match c.cap with
  | some c => keep c
  | none => true
def Proc.kept (keep : Capture → Bool) (v : Proc) : Proc := { v with q := { v.q with
  veq := v.q.veq.filter (Cmd.kept keep), pxq := v.q.pxq.filter (Cmd.kept keep)
  hlq := v.q.hlq.filter (Cmd.kept keep), hsq := v.q.hsq.filter (Cmd.kept keep) } }
def Cluster.kept (keep : Capture → Bool) (v : Cluster) : Cluster :=
  { v with press := { v.press with gathered := v.press.gathered.filter fun g => keep g.cap } }

section Spared
variable {s t : State} (h : Spared s t)
include h

/-! ### Updates of the state -/

theorem setProc_spared {p : Nat} {v : Proc} (hv : s.Vacant p → v.Vacant) : Spared s (t.setProc p v) where
  mod := h.mod
  poison := h.poison
  absent := h.absent
  vacant q hq e he heq := by
    by_cases hpq : p = q
    · subst hpq
      rw [SMap.value_of_mem_set he heq]
      exact hv hq
    · refine h.vacant q hq e ?_ heq
      simp only [State.setProc, SMap.set] at he
      split at he
      · exact (SMap.mem_erase he).2
      · rcases SMap.mem_insert he with rfl | he
        · exact absurd heq hpq
        · exact (SMap.mem_erase he).2

theorem modProc_spared {p : Nat} {f : Proc → Proc} (hf : ∀ v : Proc, v.Vacant → (f v).Vacant) : Spared s (t.modProc p f) :=
  setProc_spared h fun hp => hf _ (h.vacant p hp).proc

/-- What happens to a core that was not vacant leaves the vacant ones alone. -/
theorem modProc_spared_of_not_vacant {p : Nat} {f : Proc → Proc} (hp : ¬ s.Vacant p) : Spared s (t.modProc p f) :=
  setProc_spared h fun hv => absurd hv hp

theorem modCoh_spared {p : Nat} {f : Coh → Coh} : Spared s (t.modCoh p f) :=
  modProc_spared h fun _ hv => ⟨hv.run, hv.bricks, hv.img, hv.semq⟩
theorem modQ_spared {p : Nat} {f : Queues → Queues} : Spared s (t.modQ p f) :=
  modProc_spared h fun _ hv => ⟨hv.run, hv.bricks, hv.img, hv.semq⟩
theorem modEng_spared {p : Nat} {f : Engines → Engines} : Spared s (t.modEng p f) :=
  modProc_spared h fun _ hv => ⟨hv.run, hv.bricks, hv.img, hv.semq⟩

/-- Registers of a core that stand at reset keep a vacant core vacant. -/
theorem modCC_spared {p : Nat} {f : CCRegs → CCRegs} (hf : f CCRegs.reset = CCRegs.reset) : Spared s (t.modCC p f) := by
  refine modProc_spared h fun v hv => ⟨hv.run, hv.bricks, ?_, hv.semq⟩
  dsimp only
  rw [hv.img]
  exact congrArg (fun c => { Image.reset with cc := c }) hf

theorem modSync_spared {p : Nat} {f : Sync → Sync} (hf : f Sync.reset = Sync.reset) : Spared s (t.modSync p f) := by
  refine modProc_spared h fun v hv => ⟨hv.run, hv.bricks, ?_, hv.semq⟩
  dsimp only
  rw [hv.img]
  exact congrArg (fun y => { Image.reset with sync := y }) hf

theorem mapProcs_spared {f : Proc → Proc} (hf : ∀ v : Proc, v.Vacant → (f v).Vacant) : Spared s (t.mapProcs f) where
  mod := h.mod
  poison := h.poison
  absent := h.absent
  vacant p hp e he heq := by
    obtain ⟨e, he', rfl⟩ := List.mem_map.1 (List.mem_filter.1 he).1
    exact hf _ (h.vacant p hp e he' heq)

theorem modCluster_spared {c : Nat} {f : Cluster → Cluster} (hf : ∀ v : Cluster, v.absent = true → (f v).absent = true) : Spared s (t.modCluster c f) where
  mod := h.mod
  poison := h.poison
  absent j hj := by
    rw [State.cluster_modCluster]
    split
    · next hjc => exact hf _ (hjc ▸ h.absent j hj)
    · exact h.absent j hj
  vacant := h.vacant

theorem modPress_spared {c : Nat} {f : Press → Press} : Spared s (t.modPress c f) := modCluster_spared h fun _ => id

theorem mapClusters_spared {f : Cluster → Cluster} (hf : ∀ v : Cluster, v.absent = true → (f v).absent = true) : Spared s (t.mapClusters f) where
  mod := h.mod
  poison := h.poison
  absent j hj := SMap.get_map_filter_of (P := fun v : Cluster => v.absent = true) hf (by decide) (h.absent j hj)
  vacant := h.vacant

theorem modCtx_spared {x : Nat} {f : Ctx → Ctx} : Spared s (t.modCtx x f) := h.of_eq rfl rfl rfl rfl
theorem modMem_spared {f : Memory → Memory} (hf : ∀ m, (f m).poison = m.poison) : Spared s (t.modMem f) :=
  h.of_eq rfl (hf _) rfl rfl
theorem modFl_spared {f : Flight → Flight} : Spared s (t.modFl f) := h.of_eq rfl rfl rfl rfl
theorem setSaved_spared {x p : Nat} {v : Option Saved} : Spared s (t.setSaved x p v) := h.of_eq rfl rfl rfl rfl
theorem modLookup_spared {k : Nat} {f : Lookup → Lookup} : Spared s (t.modLookup k f) := h.of_eq rfl rfl rfl rfl

/-! ### Records and accounts of the Mason -/

theorem writeRecord_spared {x : Nat} {k : RecKind} {r : Rec} : Spared s (writeRecord t x k r) := by
  unfold writeRecord
  extract_lets q pos w t₁ t₂
  split
  · exact modCtx_spared h
  · have h₂ : Spared s t₂ := modCtx_spared (modMem_spared h fun _ => Memory.write_poison _ _ _ _)
    split
    · exact modFl_spared h₂
    · exact h₂

theorem writeActionable_spared {x : Nat} {k : RecKind} {r : Rec} {a : Actionable} : Spared s (writeActionable t x k r a) := by
  unfold writeActionable
  exact modCtx_spared (writeRecord_spared h)

theorem dropPending_spared {x : Nat} {f : Actionable → Bool} : Spared s (dropPending t x f) := modCtx_spared h

theorem modRegion_spared {x r : Nat} {f : Region → Region} : Spared s (modRegion t x r f) := by
  unfold modRegion
  split
  · exact h
  · exact modCtx_spared h

theorem modReuse_spared {x e : Nat} {f : Reuse → Reuse} : Spared s (modReuse t x e f) := modCtx_spared h

theorem modOb_spared {x obt k : Nat} {f : Ob → Ob} : Spared s (modOb t x obt k f) := by
  cases hg : t.graph x obt with
  | none => rw [modOb_of_none hg]; exact h
  | some g => rw [modOb_of_some hg]; exact modMem_spared (modCtx_spared h) fun _ => Memory.write_poison _ _ _ _

theorem settleCtx_spared {x : Nat} : Spared s (settleCtx t x) :=
  h.of_eq (State.apart_mod (settleCtx_apart t x)) (congrArg Memory.poison (settleCtx_mem t x)) (State.apart_clusters (settleCtx_apart t x))
    (State.apart_procs (settleCtx_apart t x))

theorem retireOb_spared {x obt k : Nat} {st : ObStatus} : Spared s (retireOb t x obt k st) := by
  unfold retireOb
  extract_lets o poisoned mark t₁ t₂ g t₃ t₄
  have hmark {u : State} (hu : Spared s u) (b : Bool) (rs : List Nat) : Spared s (mark b u rs) :=
    .foldl (fun _ _ hu => modRegion_spared hu) rs hu
  have h₁ : Spared s t₁ := by
    dsimp only [t₁]
    split
    · exact hmark h _ _
    · split
      · exact hmark h _ _
      · exact hmark h _ _
  have h₂ : Spared s t₂ := by
    dsimp only [t₂]
    split
    · split
      · exact modReuse_spared h₁
      · exact h₁
    · exact h₁
  have h₄ : Spared s t₄ := modCtx_spared (modOb_spared h₂)
  exact settleCtx_spared (.foldl (fun _ _ hu => modOb_spared hu) _ h₄)

theorem bricksGone_spared {x obt k n : Nat} {poisoned : Bool} {g : Sig} : Spared s (bricksGone t x obt k n poisoned g) := by
  unfold bricksGone
  extract_lets u o
  have hu : Spared s u := modOb_spared h
  split
  · exact retireOb_spared hu
  · exact hu

theorem poisonObBricks_spared {x obt k : Nat} : Spared s (poisonObBricks t x obt k) := by
  unfold poisonObBricks
  split
  · exact h
  · extract_lets mine n s₁ s₂ s₃
    have h₁ : Spared s s₁ := mapProcs_spared h fun v hv => by
      split
      · exact ⟨hv.run, hv.bricks, hv.img, hv.semq⟩
      · exact hv
    have h₂ : Spared s s₂ := mapClusters_spared (f := fun v => { v with brickq := v.brickq.filter fun b => !mine b }) h₁ fun _ => id
    exact bricksGone_spared (modOb_spared h₂)

theorem obParked_spared {x obt k : Nat} : Spared s (obParked t x obt k) := modOb_spared h

theorem perfAdd_spared {c ev core x n : Nat} : Spared s (perfAdd t c ev core x n) := by
  unfold perfAdd
  split
  · exact h
  · exact modCluster_spared h fun _ => id

theorem traceRec_spared {c type core x : Nat} {ms : Bool} {body : Nat} : Spared s (traceRec t c type core x ms body) :=
  modCluster_spared h fun _ => id

/-! ### Tiles -/

theorem setTile_spared {c tid : Nat} {v : Tile} : Spared s (t.setTile c tid v) := modCluster_spared h fun _ => id

theorem restoreCopy_spared {c tid : Nat} {l : List Nat} : Spared s (restoreCopy t c tid l) := by
  induction l with
  | nil => exact h
  | cons x l ih =>
    unfold restoreCopy
    split
    · exact modCtx_spared (setTile_spared h)
    · exact ih

theorem settleTile_spared {c tid n : Nat} : Spared s (settleTile t c tid n) := by
  induction n generalizing t with
  | zero => exact h
  | succ n ih =>
    unfold settleTile
    extract_lets u
    have hu : Spared s u := by
      dsimp only [u]
      split
      · exact restoreCopy_spared h
      · exact h
    split
    · exact hu
    · exact ih (modCluster_spared (setTile_spared hu) fun _ => id)

theorem tileChange_spared {c tid : Nat} {v : Tile} : Spared s (tileChange t c tid v) := settleTile_spared (setTile_spared h)

theorem withdrawTile_spared {x c tid : Nat} : Spared s (withdrawTile t x c tid) := by
  unfold withdrawTile
  split
  · exact tileChange_spared h
  · exact h

theorem dropHeld_spared {c : Nat} {who : Agent} : Spared s (dropHeld t c who) := by
  unfold dropHeld
  split
  · exact h
  · extract_lets u
    have hu : Spared s u := modCluster_spared h fun _ => id
    split
    · exact withdrawTile_spared hu
    · exact hu

/-! ### Commands -/

theorem filterCommands_spared {keep : Capture → Bool} : Spared s (filterCommands t keep) :=
  mapClusters_spared (f := Cluster.kept keep)
    (mapProcs_spared (f := Proc.kept keep) h fun _ hv => ⟨hv.run, hv.bricks, hv.img, hv.semq⟩) fun _ => id

theorem discardTag_spared {core : Nat} {tag : BitVec 3} : Spared s (discardTag t core tag) := filterCommands_spared h

theorem dropWaiter_spared {p : Nat} {e : Eng} : Spared s (dropWaiter t p e) := by
  unfold dropWaiter
  extract_lets c
  split
  · exact modCluster_spared h fun _ => id
  · exact h

theorem clearAnswers_spared {p : Nat} {u : Option Eng} : Spared s (clearAnswers p u t) := by
  unfold clearAnswers
  extract_lets v
  have hv : Spared s v := by
    dsimp only [v]
    split
    · exact modCoh_spared h
    · exact h
  split
  · exact modFl_spared hv
  · exact hv

/-- A unit leaves a semaphore's queue only where it stands in it. -/
theorem semLeave_spared {p : Nat} {who : Option (Nat × Eng)} : Spared s (semLeave t p who) := by
  unfold semLeave
  split
  · exact h
  · next w hw =>
    have hp : ¬ t.Vacant p := fun hv => by
      rw [hv.proc.semq] at hw
      exact absurd hw (by simp)
    exact h.trans (modProc_spared_of_not_vacant (modProc_spared_of_not_vacant (.refl t) hp) hp)

theorem haltHod_spared {core : Nat} {hs : Bool} : Spared s (haltHod t core hs) := by
  unfold haltHod
  extract_lets hod issuer x t₁ t₂ t₃ t₄
  have h₁ : Spared s t₁ := by
    dsimp only [t₁]
    split
    · exact withdrawTile_spared h
    · exact h
  have h₂ : Spared s t₂ := .foldl (fun _ _ hu => dropHeld_spared hu) _ h₁
  have h₄ : Spared s t₄ := modFl_spared (semLeave_spared h₂)
  exact modEng_spared (dropWaiter_spared (clearAnswers_spared h₄))

theorem haltChains_spared {mine : Capture → Bool} : Spared s (haltChains t mine) := by
  unfold haltChains
  refine .foldl (fun t e ht => ?_) _ h
  extract_lets one
  have hone {u : State} (hu : Spared s u) (hs : Bool) (c : Option Capture) : Spared s (one u hs c) := by
    dsimp only [one]
    split
    · split
      · exact haltHod_spared (dropPending_spared hu)
      · exact hu
    · exact hu
  exact hone (hone ht _ _) _ _

theorem clearRowprog_spared {core : Nat} : Spared s (clearRowprog t core) :=
  modCC_spared h (by simp [CCRegs.reset])

theorem poisonWritten_spared {core : Nat} {v : Proc} : Spared s (poisonWritten t core v) := by
  unfold poisonWritten
  split
  · exact h
  · exact modPress_spared h

theorem haltCommands_spared {core : Nat} {tag : Option (BitVec 3)} {pz : Bool} : Spared s (haltCommands t core tag pz) := by
  unfold haltCommands
  extract_lets mine t₁ t₂ x t₃ t₄ t₅
  have h₁ : Spared s t₁ := by
    refine .foldl (fun t u ht => ?_) _ h
    split
    · split
      · exact dropPending_spared ht
      · exact ht
    · exact ht
  have h₂ : Spared s t₂ := haltChains_spared h₁
  have h₃ : Spared s t₃ := by
    dsimp only [t₃]
    split
    · exact dropWaiter_spared (clearAnswers_spared (semLeave_spared (modEng_spared h₂)))
    · exact h₂
  have h₄ : Spared s t₄ := by
    dsimp only [t₄]
    split
    · exact poisonWritten_spared h₃
    · exact h₃
  have h₅ : Spared s t₅ := by
    dsimp only [t₅]
    split
    · exact dropWaiter_spared (clearAnswers_spared (modEng_spared h₄))
    · exact h₄
  have hrowprog {u : State} (hu : Spared s u) : Spared s ((if x.eng.px.stop.isSome then (clearRowprog · core) else id) u) := by
    split
    · exact clearRowprog_spared hu
    · exact hu
  split
  · exact hrowprog (dropWaiter_spared (clearAnswers_spared (semLeave_spared (modEng_spared h₅))))
  · exact h₅

theorem discardCore_spared {p : Nat} : Spared s (discardCore t p) := by
  unfold discardCore discardMarkers
  exact modSync_spared (modQ_spared (filterCommands_spared h)) rfl

/-! ### Bricks -/

theorem freeSlots_spared {c : Nat} {f : Slot → Bool} : Spared s (freeSlots t c f) := by
  unfold freeSlots
  exact modPress_spared h

theorem freeBrickSlots_spared {p : Nat} {tag : BitVec 3} : Spared s (freeBrickSlots t p tag) := freeSlots_spared h

theorem dropBrick_spared {p : Nat} {tag : BitVec 3} : Spared s (dropBrick t p tag) := by
  refine modProc_spared h fun v hv => ⟨hv.run, ?_, hv.img, hv.semq⟩
  dsimp only
  rw [hv.bricks]
  rfl

theorem setBrick_spared {p : Nat} {tag : BitVec 3} {b : Option BrickReg} (hp : ¬ s.Vacant p) : Spared s (t.setBrick p tag b) :=
  modProc_spared_of_not_vacant h hp

theorem markRegions_spared {p : Nat} {b : BrickReg} : Spared s (markRegions t p b) := by
  unfold markRegions
  refine .foldl (fun t halo ht => ?_) _ (.foldl (fun t r ht => ?_) _ h)
  · exact ht.of_eq rfl rfl rfl rfl
  · exact modRegion_spared ht

theorem countOverrun_spared {p : Nat} {tag : BitVec 3} : Spared s (countOverrun t p tag) := by
  unfold countOverrun
  split
  · next b hb =>
    split
    · exact h.trans (setBrick_spared (traceRec_spared (.refl t)) (not_vacant_of_brick hb))
    · exact h
  · exact h

theorem endStoppedPress_spared {p : Nat} {tag : BitVec 3} : Spared s (endStoppedPress t p tag) := by
  unfold endStoppedPress
  extract_lets q
  split
  · split
    · exact modEng_spared (dropPending_spared h)
    · exact h
  · exact h

theorem endBrickWork_spared {p : Nat} {tag : BitVec 3} : Spared s (endBrickWork t p tag) :=
  endStoppedPress_spared (haltChains_spared (discardTag_spared h))

theorem brickFault_spared {p : Nat} {tag : BitVec 3} {r : Rec} {force : Bool} : Spared s (brickFault t p tag r force) := by
  unfold brickFault
  split
  · exact h
  · next b hb =>
    have hp := not_vacant_of_brick hb
    refine h.trans ?_
    extract_lets x r' uncur t₁ b' t₂ t₃ t₄ t₅
    have huncur {u : State} (hu : Spared t u) : Spared t (uncur u) := modProc_spared_of_not_vacant hu hp
    have h₁ : Spared t t₁ := countOverrun_spared (.refl t)
    split
    · exact writeRecord_spared (.refl t)
    · split
      · have h₃ : Spared t t₃ := markRegions_spared (setBrick_spared (writeActionable_spared h₁) hp)
        exact obParked_spared (endBrickWork_spared (huncur h₃))
      · have h₅ : Spared t t₅ := huncur (setBrick_spared (writeRecord_spared h₁) hp)
        exact poisonObBricks_spared (endBrickWork_spared h₅)

theorem retireBrick_spared {p : Nat} {tag : BitVec 3} : Spared s (retireBrick t p tag) := by
  unfold retireBrick
  split
  · exact h
  · extract_lets x u
    have hu : Spared s u := dropBrick_spared (freeBrickSlots_spared (countOverrun_spared h))
    split
    · exact hu
    · exact bricksGone_spared hu

theorem requeue_spared {c : Nat} {b : Brick} : Spared s (requeue t c b) := by
  unfold requeue
  extract_lets x put copy u
  have hput (c : Nat) : Spared s (put t c) := modCluster_spared h fun _ => id
  split
  · exact bricksGone_spared h
  · split
    · exact hput c
    · split
      · exact hput _
      · exact bricksGone_spared (poisonObBricks_spared (writeRecord_spared h))

theorem abortBrick_spared {p : Nat} {tag : BitVec 3} : Spared s (abortBrick t p tag) := by
  unfold abortBrick
  split
  · exact h
  · extract_lets t₁ orphan t₂
    have h₂ : Spared s t₂ := (markRegions_spared (countOverrun_spared h)).of_eq rfl rfl rfl rfl
    exact requeue_spared (dropBrick_spared (freeBrickSlots_spared h₂))

theorem lostBrick_spared {p : Nat} {tag : BitVec 3} : Spared s (lostBrick t p tag) := by
  unfold lostBrick
  split
  · exact h
  · extract_lets u
    have hu : Spared s u := discardTag_spared (haltCommands_spared h)
    split
    · exact abortBrick_spared hu
    · split
      · exact brickFault_spared hu
      · exact hu

/-! ### Cores -/

theorem returnHeld_spared {p : Nat} : Spared s (returnHeld t p) := by
  unfold returnHeld
  split
  · exact h
  · have hfree : Spared s (t.modProc p fun v => { v with heldBrick := none }) :=
      modProc_spared h fun _ hv => ⟨hv.run, hv.bricks, hv.img, hv.semq⟩
    exact requeue_spared hfree

theorem leasePass_spared {c : Nat} : Spared s (leasePass t c) := by
  unfold leasePass
  exact modPress_spared h

theorem leaseDrop_spared {p : Nat} : Spared s (leaseDrop t p) := by
  unfold leaseDrop
  extract_lets cl pr u
  have hu : Spared s u := modQ_spared h
  split
  · exact leasePass_spared hu
  · exact modPress_spared hu

theorem emptyAux_spared {p x : Nat} : Spared s (emptyAux t p x) := by
  unfold emptyAux
  exact modQ_spared (.foldl (fun _ _ hu => traceRec_spared hu) _ h)

theorem abandonCore_spared {p : Nat} {r : Rec} {coreFault force : Bool} : Spared s (abandonCore t p r coreFault force) := by
  unfold abandonCore
  split
  · exact h
  · next x hx =>
    refine h.trans ?_
    extract_lets cur live t₁ t₂ t₃ t₄
    have h₁ : Spared t t₁ := by
      dsimp only [t₁]
      split
      · exact writeRecord_spared (.refl t)
      · exact .refl t
    have h₂ : Spared t t₂ := by
      refine .foldl (fun u e hu => ?_) _ h₁
      split
      · exact brickFault_spared hu
      · exact brickFault_spared hu
    exact modProc_spared_of_not_vacant (clearAnswers_spared (semLeave_spared (haltChains_spared (discardCore_spared h₂))))
      (not_vacant_of_ctxOf hx)

theorem completeMarkers_spared {p : Nat} (hp : ¬ s.Vacant p) : Spared s (completeMarkers t p) := by
  unfold completeMarkers
  refine .foldl (fun u e hu => ?_) _ h
  extract_lets q v
  have hv : Spared s v := by
    dsimp only [v, markDone]
    exact modProc_spared_of_not_vacant hu hp
  exact modQ_spared hv

theorem slotsNoted_spared {p x : Nat} {done : List (Slot × Option Nat)} : Spared s (slotsNoted t p x done) := by
  unfold slotsNoted
  refine .foldl (fun u d hu => ?_) _ h
  split
  · exact writeRecord_spared hu
  · exact hu

/-- A save stores the image, which may clear poison; the module's registers stand. -/
theorem saveCore_mod (p : Nat) (fresh : Bool) : (saveCore t p fresh).mod = s.mod := by
  cases hctx : (t.proc p).ctxOf with
  | none => rw [saveCore_idle t p fresh hctx]; exact h.mod
  | some x =>
    obtain ⟨done, mine, v, hsave⟩ := saveCore_eq t p x fresh hctx
    have hemptied : Spared t (coreEmptied t p x) :=
      semLeave_spared (completeMarkers_spared (emptyAux_spared (returnHeld_spared (.refl t))) (not_vacant_of_ctxOf hctx))
    have hdropped : Spared t (leaseDrop (freeSlots (slotsNoted (coreEmptied t p x) p x done) (clusterOf p) mine) p) :=
      leaseDrop_spared (freeSlots_spared (slotsNoted_spared hemptied))
    rw [hsave]
    exact hdropped.mod.trans h.mod

theorem emptyEngines_spared {p : Nat} : Spared s (emptyEngines t p) := by
  unfold emptyEngines
  extract_lets one v
  have hone {u : State} (hu : Spared s u) (hs : Bool) (c : Option Capture) : Spared s (one u hs c) := by
    dsimp only [one]
    split
    · exact haltHod_spared (dropPending_spared hu)
    · exact hu
  exact modQ_spared (hone (hone h _ _) _ _)

theorem abortCore_spared {p : Nat} : Spared s (abortCore t p) := by
  unfold abortCore
  split
  · exact h
  · next x hx =>
    extract_lets t₁ t₂ t₃ t₄ t₅
    have h₂ : Spared t t₂ := leaseDrop_spared (emptyEngines_spared (haltCommands_spared (discardCore_spared (.refl t))))
    have h₄ : Spared t t₄ := dropPending_spared (emptyAux_spared h₂)
    have h₅ : Spared t t₅ := .foldl (fun _ _ hu => abortBrick_spared hu) _ h₄
    exact h.trans (modProc_spared_of_not_vacant (clearAnswers_spared h₅) (not_vacant_of_ctxOf hx))

theorem hardPreemptCore_mod (p : Nat) : (hardPreemptCore t p).mod = s.mod := by
  unfold hardPreemptCore
  extract_lets u
  have hu : Spared s u := abortCore_spared h
  split
  · exact saveCore_mod hu p true
  · split
    · exact hu.mod
    · exact hu.mod

/-! ### Faults of engines and of a core's instruction -/

theorem setStall_spared {p : Nat} {u : Option Eng} {n : Nat} : Spared s (setStall t p u n) := by
  unfold setStall
  split
  · exact h
  · exact modProc_spared h fun _ hv => ⟨hv.run, hv.bricks, hv.img, hv.semq⟩

theorem modSeqr_spared {p : Nat} {px : Bool} {f : Sequencer → Sequencer} : Spared s (modSeqr t p px f) := modEng_spared h
theorem modHod_spared {core : Nat} {hs : Bool} {f : Hod → Hod} : Spared s (modHod t core hs f) := modEng_spared h

theorem endCommand_spared {core : Nat} {e : Eng} : Spared s (endCommand t core e) := by
  unfold endCommand
  split
  · exact modEng_spared h
  · exact modEng_spared h
  · exact haltHod_spared h
  · exact haltHod_spared h

theorem engineFault_spared {core : Nat} {e : Eng} {c : Capture} {r : Rec} : Spared s (engineFault t core e c r) := by
  unfold engineFault
  extract_lets stop r' seq
  split
  · exact modEng_spared (writeActionable_spared h)
  · exact brickFault_spared (endCommand_spared h)

theorem streamFault_spared {p addr loc : Nat} {px : Bool} {cap : Capture} {c : Cause} {detail : BitVec 24} :
    Spared s (streamFault t p px cap c addr loc detail) := by
  unfold streamFault
  extract_lets e q desc u v
  have hdesc : Spared s desc := by
    dsimp only [desc]
    split
    · exact modQ_spared h
    · exact h
  exact engineFault_spared (dropWaiter_spared (clearAnswers_spared (setStall_spared (modSeqr_spared hdesc))))

theorem gatheredFault_spared {p addr : Nat} {g : Gathered} {c : Cause} {detail : BitVec 24} :
    Spared s (gatheredFault t p g c addr detail) := by
  unfold gatheredFault
  extract_lets u r seq
  have hu : Spared s u := dropWaiter_spared (clearAnswers_spared (setStall_spared h))
  split
  · exact modEng_spared (writeActionable_spared hu)
  · exact brickFault_spared (modSeqr_spared hu)

theorem failTaken_spared {core addr : Nat} {hs : Bool} {c : Cause} : Spared s (failTaken t core hs c addr) := by
  unfold failTaken
  exact modFl_spared h

theorem chainFault_spared {core addr : Nat} {hs : Bool} {cap : Capture} {c : Cause} {site : Option Site} :
    Spared s (chainFault t core hs cap c addr site) := by
  unfold chainFault
  extract_lets e hod t₁ t₂ t₃ at_ unit
  have h₁ : Spared s t₁ := by
    dsimp only [t₁]
    split
    · exact h
    · exact failTaken_spared h
  exact engineFault_spared (dropWaiter_spared (clearAnswers_spared (setStall_spared (modHod_spared h₁))))

theorem engineInHand_spared {core va : Nat} {e : Eng} {c : Cause} {site : Site} : Spared s (engineInHand t core e c va site) := by
  unfold engineInHand
  extract_lets v
  cases e with
  | ve =>
    dsimp only
    split
    · exact streamFault_spared h
    · exact h
  | px =>
    dsimp only
    split
    · exact gatheredFault_spared h
    · exact streamFault_spared h
    · exact h
  | hl =>
    dsimp only
    split
    · exact chainFault_spared h
    · exact h
  | hs =>
    dsimp only
    split
    · exact chainFault_spared h
    · exact h

theorem dropWait_spared {p : Nat} : Spared s (dropWait t p) := by
  unfold dropWait
  split
  · exact h
  · exact modProc_spared h fun _ hv => ⟨hv.run, hv.bricks, hv.img, hv.semq⟩

theorem poisonCurrent_spared {x : Nat} : Spared s (poisonCurrent t x) := by
  unfold poisonCurrent
  extract_lets r l ob
  split
  · exact writeRecord_spared h
  · exact .foldl (fun _ _ hu => brickFault_spared hu) _ h

theorem loseQueued_spared {l : List Brick} : Spared s (loseQueued t l) := by
  unfold loseQueued
  refine .foldl (fun u b hu => ?_) _ h
  exact bricksGone_spared (poisonObBricks_spared (writeRecord_spared hu))

theorem loseBrickQueue_spared {c : Nat} : Spared s (loseBrickQueue t c) := by
  unfold loseBrickQueue
  extract_lets q
  have hqueue : Spared s (t.modCluster c fun v => { v with brickq := q.drop 512 }) := modCluster_spared h fun _ => id
  exact loseQueued_spared hqueue

theorem lookupAbandon_spared {p : Nat} {r : Rec} {coreFault force : Bool} : Spared s (lookupAbandon t p r coreFault force) := by
  unfold lookupAbandon
  split
  · exact h
  · next x hx =>
    refine h.trans ?_
    extract_lets k t₁ t₂ t₃ t₄
    have h₁ : Spared t t₁ := by
      dsimp only [t₁]
      split
      · exact writeRecord_spared (.refl t)
      · exact .refl t
    have h₂ : Spared t t₂ := by
      dsimp only [t₂]
      split
      · split
        · exact h₁
        · exact brickFault_spared h₁
      · exact h₁
    have h₃ : Spared t t₃ := .foldl (fun _ _ hu => dropHeld_spared hu) _ h₂
    exact modProc_spared_of_not_vacant (clearAnswers_spared (modLookup_spared h₃)) (not_vacant_of_ctxOf hx)

theorem coreFault_spared {p : Nat} {r : Rec} {force : Bool} : Spared s (coreFault t p r force) := by
  unfold coreFault
  split
  · exact abandonCore_spared h
  · exact lookupAbandon_spared h

/-- The loss of a core spares the others. -/
theorem loseCore_spared {p : Nat} : Spared s (loseCore t p) := by
  unfold loseCore
  extract_lets t₁ tags t₂ t₃ t₄ t₅
  have h₁ : Spared s t₁ := .foldl (fun _ _ hu => lostBrick_spared hu) _ h
  have h₂ : Spared s t₂ := .foldl (fun _ _ hu => retireBrick_spared (lostBrick_spared hu)) _ h₁
  have h₄ : Spared s t₄ := modFl_spared (leaseDrop_spared (returnHeld_spared (haltCommands_spared (discardCore_spared h₂))))
  have h₅ : Spared s t₅ := by
    dsimp only [t₅]
    split
    · exact h₄
    · exact setSaved_spared (dropPending_spared h₄)
  exact setProc_spared h₅ fun _ => ⟨rfl, rfl, rfl, rfl⟩

theorem emptyTiles_spared {c : Nat} : Spared s (emptyTiles t c) := by
  unfold emptyTiles
  exact .foldl (fun _ _ hu => tileChange_spared hu) _ h

end Spared

/-! ## A core faults (15 R327-R329) -/

theorem dropWait_run (s : State) (p : Nat) : ((dropWait s p).proc p).run = (s.proc p).run := by
  unfold dropWait
  split
  · rfl
  · rw [State.proc_modProc_same]

/-- The core as a fault finds it: no stall, no answer and no wait is left of its instruction. -/
def faultSettled (s : State) (p : Nat) : State := dropWait (clearAnswers p none (setStall s p none 0)) p

theorem faultSettled_spared (s : State) (p : Nat) : Spared s (faultSettled s p) :=
  dropWait_spared (clearAnswers_spared (setStall_spared (.refl s)))

theorem faultSettled_run (s : State) (p : Nat) : ((faultSettled s p).proc p).run = (s.proc p).run :=
  (dropWait_run _ p).trans (congrArg Proc.run (((same_clearAnswers _ p none).trans (same_setStall s p none 0)).procs p) :)

/-- ECCU never stops a core: its handler takes the fault, or the core faults (R325). -/
theorem takeFault_eccu (s : State) (p : Nat) :
    takeFault s p .eccu = (faultSettled s p).modCC p (fun r => r.trapEntry .eccu 0 false 0) ∨
    ∃ r, takeFault s p .eccu = coreFault (faultSettled s p) p r := by
  have heccu : Cause.stops .eccu = false := rfl
  unfold takeFault
  simp only [heccu, Bool.false_and, Bool.false_eq_true, if_false]
  split
  · exact .inl rfl
  · exact .inr ⟨_, rfl⟩

theorem abandonCore_run {s : State} {p x : Nat} (h : (s.proc p).ctxOf = some x) (r : Rec) (coreFault force : Bool) :
    ((abandonCore s p r coreFault force).proc p).run = .exiting x := by
  unfold abandonCore
  rw [h]
  dsimp only
  rw [State.proc_modProc_same]

theorem takeFault_eccu_mod (s : State) (p : Nat) : (takeFault s p .eccu).mod = s.mod := by
  rcases takeFault_eccu s p with htrap | ⟨r, hfault⟩
  · rw [htrap]; exact (faultSettled_spared s p).mod
  · rw [hfault]; exact (coreFault_spared (faultSettled_spared s p)).mod

/-- A running control core goes on in its handler, or drains. -/
theorem takeFault_eccu_run {s : State} {p y : Nat} (hp : p < 256) (h : (s.proc p).run = .running y) :
    ((takeFault s p .eccu).proc p).run ≠ .idle := by
  have hrun : ((faultSettled s p).proc p).run = .running y := (faultSettled_run s p).trans h
  rcases takeFault_eccu s p with htrap | ⟨r, hfault⟩
  · rw [htrap, State.proc_modCC_same]
    exact fun hidle => by rw [hrun] at hidle; exact absurd hidle (by simp)
  · have hctx : ((faultSettled s p).proc p).ctxOf = some y := by rw [Proc.ctxOf, hrun]
    rw [hfault, coreFault, if_pos hp, abandonCore_run hctx]
    simp

end Sys2Proof.Machine

/-! ## Hardware errors (08 R192-R194; 22 R461) -/

namespace Sys2Proof.Machine

/-- A count goes up by one in its own class, up to its end (R461). -/
theorem countError_errors (s : State) (k : Nat) :
    (let v := SMap.get 0 s.mod.health.errors k
     SMap.get 0 (countError s k).mod.health.errors k = if v = BitVec.allOnes 32 then v else v + 1) ∧
    ∀ j, j ≠ k → SMap.get 0 (countError s k).mod.health.errors j = SMap.get 0 s.mod.health.errors j :=
  ⟨SMap.get_set_same _ _ _ _, fun _ hj => SMap.get_set_other _ _ _ hj⟩

section Sites
variable (s : State)

/-- A core's work that is lost (R32, R40, R329). -/
theorem errorAt_core_mod (p : Nat) : (errorAt s (.core p)).mod = s.mod := by
  simp only [errorAt]
  split
  · exact hardPreemptCore_mod (.refl s) p
  · have hlost : Spared s (((s.proc p).liveBricks).foldl (fun s e => if e.2.b.rst then lostBrick s p e.1 else s) s) := by
      refine .foldl (fun u e hu => ?_) _ (.refl s)
      split
      · exact lostBrick_spared hu
      · exact hu
    split
    · exact hlost.mod
    · exact (coreFault_spared hlost).mod

theorem errorAt_register_mod (p : Nat) (e : Option Eng) : (errorAt s (.register p e)).mod = s.mod := by
  cases e with
  | none =>
    simp only [errorAt]
    split
    · exact takeFault_eccu_mod s p
    · rfl
  | some e => exact (engineInHand_spared (.refl s)).mod

theorem errorAt_tile_mod (c tid : Nat) : (errorAt s (.tile c tid)).mod = s.mod := by
  simp only [errorAt]
  have hempty : Spared s (tileChange s c tid Tile.empty) := tileChange_spared (.refl s)
  split
  · exact hempty.mod
  · exact (poisonCurrent_spared hempty).mod

theorem errorAt_queue_mod (p : Nat) : (errorAt s (.queue p)).mod = s.mod := by
  simp only [errorAt]
  split
  · exact (poisonCurrent_spared (.refl s)).mod
  · rfl

theorem errorAt_brickQueue_mod (c k : Nat) : (errorAt s (.brickQueue c k)).mod = s.mod := by
  simp only [errorAt]
  split
  · have herased : Spared s (s.modCluster c fun v => { v with brickq := v.brickq.eraseIdx k }) := modCluster_spared (.refl s) fun _ => id
    exact (poisonCurrent_spared (loseQueued_spared herased)).mod
  · rfl

theorem errorAt_contextTable_mod (x : Nat) : (errorAt s (.contextTable x)).mod = s.mod := by
  simp only [errorAt]
  split
  · rfl
  · exact (poisonCurrent_spared (.refl s)).mod

theorem errorAt_sigSlot_mod (home key : Nat) : (errorAt s (.sigSlot home key)).mod = s.mod := by
  simp only [errorAt]
  split <;> rfl

theorem errorAt_replay_mod (p : Nat) : (errorAt s (.replay p)).mod = s.mod := by
  simp only [errorAt]
  split
  · exact (perfAdd_spared (perfAdd_spared (.refl s))).mod
  · rfl

/-- What an error does leaves the module's registers, the counts among them, alone. -/
theorem errorAt_mod (site : ErrorSite) : (errorAt s site).mod = s.mod := by
  cases site with
  | core p => exact errorAt_core_mod s p
  | register p e => exact errorAt_register_mod s p e
  | sector key => rfl
  | tile c tid => exact errorAt_tile_mod s c tid
  | queue p => exact errorAt_queue_mod s p
  | brickQueue c k => exact errorAt_brickQueue_mod s c k
  | contextTable x => exact errorAt_contextTable_mod s x
  | region x r => exact (writeRecord_spared (modRegion_spared (.refl s))).mod
  | reuse x e => exact (writeRecord_spared (modReuse_spared (.refl s))).mod
  | accumulator c k row col res => rfl
  | bucket c => rfl
  | burst p => rfl
  | perf c k => rfl
  | signature p post prv => rfl
  | sigSlot home key => exact errorAt_sigSlot_mod s home key
  | transCache asid vpn => rfl
  | trace c slot => rfl
  | l1 p vsec => rfl
  | corrected c cls => exact (perfAdd_spared (.refl s)).mod
  | replay p => exact errorAt_replay_mod s p

/-- The counter of an error at a site. -/
def siteCounter (site : ErrorSite) : Nat := 2 * siteClass site + if siteCorrected site then 0 else 1

/-- An error is counted, and then takes its site's path. -/
theorem hardwareError_takes {site : ErrorSite} (h : siteExists site = true) :
    exec (.hardwareError site) s = .next (errorAt (countError s (siteCounter site)) site) := if_pos h

theorem hardwareError_counts (site : ErrorSite) :
    (let v := SMap.get 0 s.mod.health.errors (siteCounter site)
     SMap.get 0 (errorAt (countError s (siteCounter site)) site).mod.health.errors (siteCounter site) =
      if v = BitVec.allOnes 32 then v else v + 1) ∧
    ∀ j, j ≠ siteCounter site → SMap.get 0 (errorAt (countError s (siteCounter site)) site).mod.health.errors j =
      SMap.get 0 s.mod.health.errors j := by
  rw [errorAt_mod]
  exact countError_errors s _

theorem sector_poisoned (key : Nat) : (errorAt s (.sector key)).mem.poisoned key 1 = true := by
  rw [Memory.poisoned, Bool.or_eq_true]
  exact .inl (SMap.get_set_same false s.mem.poison (key / 128) true)

/-- A region that an error strikes is poisoned, and its tags are out of date (R408). -/
theorem errorAt_region (x : Nat) {r : Nat} (hr : r < 1023) : Recorded s (errorAt s (.region x r)) x ∧
    SMap.get Region.reset ((errorAt s (.region x r)).ctx x).regions r =
      { (s.ctx x).region r with pzn := true, tgen := ((s.ctx x).region r).tgen + 1 } := by
  have hregion : modRegion s x r (fun g => { g with pzn := true, tgen := g.tgen + 1 }) = s.modCtx x fun c => { c with
      regions := SMap.set Region.reset c.regions r { c.region r with pzn := true, tgen := (c.region r).tgen + 1 } } :=
    if_neg (by omega)
  simp only [errorAt, hregion]
  refine ⟨recorded_of_fq ?_, ?_⟩
  · rw [writeRecord_ctx, State.ctx_modCtx_same]
  · rw [writeRecord_ctx, State.ctx_modCtx_same]
    exact SMap.get_set_same _ _ _ _

/-- A reuse entry that an error strikes holds no cached value (R408). -/
theorem errorAt_reuse (x e : Nat) : Recorded s (errorAt s (.reuse x e)) x ∧
    SMap.get Reuse.reset ((errorAt s (.reuse x e)).ctx x).reuse e = { (s.ctx x).reuseOf e with cv := false } := by
  simp only [errorAt, modReuse]
  refine ⟨recorded_of_fq ?_, ?_⟩
  · rw [writeRecord_ctx, State.ctx_modCtx_same]
  · rw [writeRecord_ctx, State.ctx_modCtx_same]
    exact SMap.get_set_same _ _ _ _

theorem errorAt_register_run {p y : Nat} (hp : p < 256) (h : (s.proc p).run = .running y) :
    ((errorAt s (.register p none)).proc p).run ≠ .idle := by
  simp only [errorAt, h]
  exact takeFault_eccu_run hp h

end Sites

end Sys2Proof.Machine

/-! ## Spare takeover (15 R348; 28 R483; 01 R13) -/

namespace Sys2Proof.Machine

namespace SMap
variable {V : Type} {d : V} {k : Nat}

theorem get_append (a b : SMap V) : get d (a ++ b : List _) k = get (get d b k) a k := by
  induction a with
  | nil => rfl
  | cons e a ih => rw [List.cons_append, get_cons, get_cons, ih]

theorem get_filter_of {p : Nat × V → Bool} (hp : ∀ v, p (k, v) = true) (m : SMap V) : get d (m.filter p) k = get d m k := by
  induction m with
  | nil => rfl
  | cons e m ih =>
    obtain ⟨j, v⟩ := e
    by_cases hjk : j = k
    · rw [hjk, List.filter_cons_of_pos (hp v), get_cons, get_cons, if_pos rfl, if_pos rfl]
    · rw [get_cons, if_neg hjk, List.filter_cons]
      split
      · rw [get_cons, if_neg hjk, ih]
      · exact ih

/-- A listed key whose entries all hold one value reads as it. -/
theorem get_of_mem {m : SMap V} {v : V} (hmem : (k, v) ∈ m) (h : ∀ e ∈ m, e.1 = k → e.2 = v) : get d m k = v := by
  induction m with
  | nil => exact absurd hmem List.not_mem_nil
  | cons e m ih =>
    rw [get_cons]
    split
    · next hk => exact h e List.mem_cons_self hk
    · next hk =>
      refine ih ?_ fun e he => h e (List.mem_cons_of_mem _ he)
      rcases List.mem_cons.1 hmem with rfl | hmem
      · exact absurd rfl hk
      · exact hmem

end SMap

/-- A range poisons its sectors and leaves the others as they are. -/
theorem poisonRange_get (m : Memory) (lo n k : Nat) :
    SMap.get false (m.poisonRange lo n).poison k = if lo ≤ k ∧ k < lo + n then true else SMap.get false m.poison k := by
  have hbelow (d : Bool) (hk : lo ≤ k) : SMap.get d (m.poison.filter fun e => decide (e.1 < lo)) k = d :=
    SMap.get_of_not_mem fun e he hek => by
      have := of_decide_eq_true (List.mem_filter.1 he).2
      omega
  have habove (d : Bool) (hk : k < lo + n) : SMap.get d (m.poison.filter fun e => decide (lo + n ≤ e.1)) k = d :=
    SMap.get_of_not_mem fun e he hek => by
      have := of_decide_eq_true (List.mem_filter.1 he).2
      omega
  have houtside (d : Bool) (hk : ¬ (lo ≤ k ∧ k < lo + n)) : SMap.get d ((List.range n).map fun i => (lo + i, true)) k = d :=
    SMap.get_of_not_mem fun e he hek => by
      obtain ⟨i, hi, rfl⟩ := List.mem_map.1 he
      have := List.mem_range.1 hi
      dsimp only at hek
      omega
  change SMap.get false ((m.poison.filter fun e => decide (e.1 < lo)) ++ ((List.range n).map fun i => (lo + i, true)) ++
    m.poison.filter fun e => decide (lo + n ≤ e.1)) k = _
  rw [SMap.get_append, SMap.get_append]
  split
  · next hk =>
    rw [hbelow _ hk.1]
    have hlisted : (k, true) ∈ (List.range n).map fun i => (lo + i, true) :=
      List.mem_map.2 ⟨k - lo, List.mem_range.2 (by omega), by rw [Nat.add_sub_cancel' hk.1]⟩
    exact SMap.get_of_mem hlisted fun e he _ => by
      obtain ⟨i, _, rfl⟩ := List.mem_map.1 he
      rfl
  · next hk =>
    rw [houtside _ hk]
    rcases Nat.lt_or_ge k lo with hlt | hge
    · rw [habove _ (by omega)]
      exact SMap.get_filter_of (fun _ => decide_eq_true hlt) m.poison
    · rw [hbelow _ hge]
      exact SMap.get_filter_of (fun _ => decide_eq_true (by omega)) m.poison

/-- A range takes poison from no sector. -/
theorem poisonRange_keeps {m : Memory} {k : Nat} (h : SMap.get false m.poison k = true) (lo n : Nat) :
    SMap.get false (m.poisonRange lo n).poison k = true := by
  rw [poisonRange_get]
  split
  · rfl
  · exact h

theorem poisonRange_poisons (m : Memory) {lo n k : Nat} (hlo : lo ≤ k) (hk : k < lo + n) :
    SMap.get false (m.poisonRange lo n).poison k = true := by
  rw [poisonRange_get, if_pos ⟨hlo, hk⟩]

/-- The poison of a scratchpad of a lost cluster. -/
def poisonScratchpad (c : Nat) (m : Memory) (k : Nat) : Memory :=
  m.poisonRange ((spBase + (c * 4 + k) * 2 ^ 20) / 128) (Config.spBytes / 128)

theorem poisonScratchpads_keep {m : Memory} {j : Nat} (h : SMap.get false m.poison j = true) (c : Nat) (l : List Nat) :
    SMap.get false (l.foldl (poisonScratchpad c) m).poison j = true := by
  induction l generalizing m with
  | nil => exact h
  | cons k l ih => exact ih (poisonRange_keeps h _ _)

theorem poisonCluster_eq (m : Memory) (c : Nat) : poisonCluster m c =
    ((List.range 4).foldl (poisonScratchpad c) (m.poisonRange ((shBase + c * 2 ^ 22) / 128) (2 ^ 15))).poisonRange
      (laneKey (c * 4) 0 0 / 128) (2 ^ 12) := rfl

theorem poisonCluster_shared (m : Memory) (c : Nat) :
    SMap.get false (poisonCluster m c).poison ((shBase + c * 2 ^ 22) / 128) = true := by
  rw [poisonCluster_eq]
  exact poisonRange_keeps (poisonScratchpads_keep (poisonRange_poisons m (Nat.le_refl _) (by omega)) c _) _ _

theorem poisonCluster_scratchpad (m : Memory) (c : Nat) :
    SMap.get false (poisonCluster m c).poison ((spBase + c * 4 * 2 ^ 20) / 128) = true := by
  rw [poisonCluster_eq]
  have hfirst (m : Memory) : SMap.get false (poisonScratchpad c m 0).poison ((spBase + c * 4 * 2 ^ 20) / 128) = true :=
    poisonRange_poisons m (Nat.le_refl _) (by rw [Nat.add_zero, Config.spBytes]; omega)
  have hcores : List.range 4 = [0, 1, 2, 3] := rfl
  rw [hcores, List.foldl_cons]
  exact poisonRange_keeps (poisonScratchpads_keep (hfirst _) c _) _ _

/-! ### The state of a cluster that is lost -/

section Takeover
variable (s : State) (c : Nat)

theorem setProc_vacant (p : Nat) {v : Proc} (hv : v.Vacant) : (s.setProc p v).Vacant p := fun e he hep => by
  rw [SMap.value_of_mem_set he hep]
  exact hv

theorem loseCore_vacant (p : Nat) : (loseCore s p).Vacant p := setProc_vacant _ p ⟨rfl, rfl, rfl, rfl⟩

/-- The cores of a cluster are lost in turn. -/
theorem loseCores_vacant {l : List Nat} {k : Nat} (hk : k ∈ l) :
    (l.foldl (fun s k => loseCore s (c * 4 + k)) s).Vacant (c * 4 + k) := by
  induction l generalizing s with
  | nil => exact absurd hk List.not_mem_nil
  | cons j l ih =>
    rcases List.mem_cons.1 hk with rfl | hk
    · have hrest (t : State) : Spared t (l.foldl (fun s k => loseCore s (c * 4 + k)) t) := .foldl (fun _ _ hu => loseCore_spared hu) l (.refl t)
      rw [List.foldl_cons]
      exact (hrest _).vacant _ (loseCore_vacant s _)
    · rw [List.foldl_cons]
      exact ih _ hk

/-- The cores of the cluster are lost, and with them its brick queue where its storage is. -/
def coresLost (lost : Bool) : State :=
  (List.range 4).foldl (fun s k => loseCore s (c * 4 + k)) (if lost then loseBrickQueue s c else s)

/-- The Press keeps the slots carried, poisoned, and the memories of the cluster are poisoned. -/
def memoriesLost : State :=
  (s.modPress c fun pr =>
    { pr with slots := pr.slots.filterMap fun e => e.2.bind fun sl =>
        if sl.carried then some (e.1, some { sl with pz := true, el := [] }) else none }).modMem fun m => poisonCluster m c

/-- What is left of a lost cluster before a spare or none takes its number. -/
def clusterLost (lost : Bool) : State := emptyTiles (memoriesLost (coresLost s c lost) c) c

theorem memoriesLost_mod : (memoriesLost s c).mod = s.mod := rfl
theorem memoriesLost_poison : (memoriesLost s c).mem.poison = (poisonCluster s.mem c).poison := rfl
theorem memoriesLost_vacant {p : Nat} (hp : s.Vacant p) : (memoriesLost s c).Vacant p := hp

theorem coresLost_spared (lost : Bool) : Spared s (coresLost s c lost) := by
  refine .foldl (fun _ _ hu => loseCore_spared hu) _ ?_
  split
  · exact loseBrickQueue_spared (.refl s)
  · exact .refl s

theorem coresLost_vacant (lost : Bool) {k : Nat} (hk : k < 4) : (coresLost s c lost).Vacant (c * 4 + k) :=
  loseCores_vacant _ c (List.mem_range.2 hk)

theorem clusterLost_spared (lost : Bool) : Spared (memoriesLost (coresLost s c lost) c) (clusterLost s c lost) :=
  emptyTiles_spared (.refl _)

theorem clusterLost_mod (lost : Bool) : (clusterLost s c lost).mod = s.mod := by
  rw [(clusterLost_spared s c lost).mod, memoriesLost_mod, (coresLost_spared s c lost).mod]

theorem clusterLost_poison (lost : Bool) : (clusterLost s c lost).mem.poison = (poisonCluster (coresLost s c lost).mem c).poison := by
  rw [(clusterLost_spared s c lost).poison, memoriesLost_poison]

theorem clusterLost_vacant (lost : Bool) {k : Nat} (hk : k < 4) : (clusterLost s c lost).Vacant (c * 4 + k) :=
  (clusterLost_spared s c lost).vacant _ (memoriesLost_vacant _ c (coresLost_vacant s c lost hk))

/-! ### A spare serves the number, or it becomes absent -/

/-- The number becomes absent, and the bricks of its queue are placed again. -/
def clusterAbsent : State :=
  (s.cluster c).brickq.foldl (fun s b => requeue s c b) (s.modCluster c fun v => { v with absent := true, brickq := [] })

theorem replaceCluster_spare (h : s.mod.spares ≠ 0) : replaceCluster s c =
    (s.modCluster c fun v => { v with spared := true }).modMod fun m => { m with spares := m.spares - 1 } := if_neg h

theorem replaceCluster_absent (h : s.mod.spares = 0) : replaceCluster s c =
    (clusterAbsent s c).modMod fun m => { m with health := { m.health with hflag := m.health.hflag ||| 4 } } := if_pos h

theorem requeued_spared (l : List Brick) : Spared s (l.foldl (fun s b => requeue s c b) s) :=
  .foldl (fun _ _ hu => requeue_spared hu) l (.refl s)

theorem clusterAbsent_spared : Spared s (clusterAbsent s c) := by
  have habsent : Spared s (s.modCluster c fun v => { v with absent := true, brickq := [] }) := modCluster_spared (.refl s) fun _ _ => rfl
  exact habsent.trans (requeued_spared _ c _)

theorem clusterAbsent_absent : ((clusterAbsent s c).cluster c).absent = true :=
  (requeued_spared _ c _).absent c (by rw [State.cluster_modCluster_same])

theorem replaceCluster_poison : (replaceCluster s c).mem.poison = s.mem.poison := by
  by_cases h : s.mod.spares = 0
  · rw [replaceCluster_absent s c h]; exact (clusterAbsent_spared s c).poison
  · rw [replaceCluster_spare s c h]; rfl

theorem replaceCluster_vacant {p : Nat} (hp : s.Vacant p) : (replaceCluster s c).Vacant p := by
  by_cases h : s.mod.spares = 0
  · rw [replaceCluster_absent s c h]; exact (clusterAbsent_spared s c).vacant p hp
  · rw [replaceCluster_spare s c h]; exact hp

theorem replaceCluster_serves (h : s.mod.spares ≠ 0) : ((replaceCluster s c).cluster c).spared = true ∧
    (replaceCluster s c).mod.spares = s.mod.spares - 1 ∧ (replaceCluster s c).mod.health.hflag = s.mod.health.hflag := by
  rw [replaceCluster_spare s c h]
  exact ⟨by rw [State.modMod_cluster, State.cluster_modCluster_same], rfl, rfl⟩

theorem replaceCluster_lacks (h : s.mod.spares = 0) : ((replaceCluster s c).cluster c).absent = true ∧
    (replaceCluster s c).mod.spares = 0 ∧ (replaceCluster s c).mod.health.hflag = s.mod.health.hflag ||| 4 := by
  have hmod := (clusterAbsent_spared s c).mod
  rw [replaceCluster_absent s c h]
  exact ⟨clusterAbsent_absent s c, (congrArg Module.spares hmod).trans h, congrArg (fun m => m.health.hflag ||| 4) hmod⟩

variable {c} (hc : c < 64) (lost : Bool)
include hc

theorem spareTakeover_stands (h : s.present c = false) : exec (.spareTakeover ⟨c, lost⟩) s = .next s := by
  change execSpareTakeover ⟨c, lost⟩ s = _
  unfold execSpareTakeover
  simp [h, hc]

theorem spareTakeover_replaces (h : s.present c = true) :
    exec (.spareTakeover ⟨c, lost⟩) s = .next (replaceCluster (clusterLost s c lost) c) :=
  if_pos (by simp [h, hc])

end Takeover

end Sys2Proof.Machine

/-! ## The loader (05 R105-R112) -/

namespace Sys2Proof.Machine

/-- What a change of every entry under its own key reads as. -/
theorem SMap.get_map_entries {V : Type} {d : V} {k : Nat} {f : Nat × V → Nat × V} (hkey : ∀ e, (f e).1 = e.1) (hd : (f (k, d)).2 = d)
    (m : SMap V) : SMap.get d (m.map f) k = (f (k, SMap.get d m k)).2 := by
  induction m with
  | nil => exact hd.symm
  | cons e m ih =>
    obtain ⟨j, v⟩ := e
    have hj : f (j, v) = (j, (f (j, v)).2) := Prod.ext (hkey _) rfl
    rw [List.map_cons, hj, SMap.get_cons, SMap.get_cons]
    split
    · next hjk => rw [hjk]
    · exact ih

/-- The state but for memory. -/
def State.offMemory (s : State) : State := { s with mem := Memory.reset }

section Loader
variable (s : State) (x : Nat) (file : List Byte)

theorem putTranslated_offMemory (n va : Nat) (b : List Byte) : (putTranslated x n va b s).offMemory = s.offMemory := by
  induction n generalizing va b s with
  | zero => rfl
  | succ n ih =>
    unfold putTranslated
    split
    · rfl
    · extract_lets k t
      rw [ih]
      dsimp only [t]
      split
      · rfl
      · rfl

/-- A section goes to memory. -/
theorem loadSection_offMemory (sec : Section) : (loadSection x file s sec).offMemory = s.offMemory := by
  unfold loadSection
  split
  · rfl
  · split
    · rfl
    · split
      · rfl
      · split
        · refine foldl_keeps (g := State.offMemory) (fun t p => ?_) _ s
          rfl
        · exact putTranslated_offMemory s x _ _ _

/-- The sections of a file at their places. -/
def sectionsLoaded : State := (fileSections file).foldl (loadSection x file) (s.send (.loaderStatus x 0))

theorem sectionsLoaded_offMemory : (sectionsLoaded s x file).offMemory = (s.send (.loaderStatus x 0)).offMemory :=
  foldl_keeps (g := State.offMemory) (fun s sec => loadSection_offMemory s x file sec) _ _

theorem sectionsLoaded_procs : (sectionsLoaded s x file).procs = s.procs :=
  (congrArg State.procs (sectionsLoaded_offMemory s x file) :)
theorem sectionsLoaded_ctx (y : Nat) : (sectionsLoaded s x file).ctx y = s.ctx y :=
  (congrArg (fun s => s.ctx y) (sectionsLoaded_offMemory s x file) :)
theorem sectionsLoaded_out : (sectionsLoaded s x file).out = (s.send (.loaderStatus x 0)).out :=
  (congrArg State.out (sectionsLoaded_offMemory s x file) :)

theorem served_ve (v : Proc) : v.served.img.ve = v.img.ve := by
  unfold Proc.served
  refine foldl_keeps (g := fun v : Proc => v.img.ve) (fun v n => ?_) _ v
  rfl

theorem installHof_ctx (h : Hof) (y : Nat) : (installHof s x h).ctx y = (s.modCtx x fun c => { c with hof := some h }).ctx y := rfl

/-- A core that runs the context takes the loader's rings (R107, R269). -/
theorem installHof_ve {h : Hof} {p : Nat} (hp : p < 256) (hctx : (s.proc p).ctxOf = some x) :
    ((installHof s x h).proc p).img.ve = { (s.proc p).img.ve with vring := h.vring, pring := h.pring } := by
  have hproc : (installHof s x h).proc p = { s.proc p with img := (s.proc p).img.loaded h }.served := by
    refine (SMap.get_map_entries (fun e => ?_) rfl s.procs).trans ?_
    · split <;> rfl
    · exact congrArg Prod.snd (if_pos (by simpa [hp, State.proc] using hctx))
  rw [hproc, served_ve]
  rfl

variable {x} (hx : x < 16)
include hx

theorem hofLoad_refused (h : loadStatus s x file ≠ 0) :
    exec (.hofLoad x file) s = .next (s.send (.loaderStatus x (loadStatus s x file))) :=
  (if_pos hx).trans (if_neg h)

theorem hofLoad_loads (h : loadStatus s x file = 0) :
    exec (.hofLoad x file) s = .next (installHof (sectionsLoaded s x file) x (hofOf file)) := by
  refine ((if_pos hx).trans (if_pos h)).trans ?_
  rw [h]
  rfl

end Loader

/-! ## The statement -/

theorem hofLoad_outcomes (s : State) {x : Nat} (file : List Byte) (hx : x < 16) : ∃ u, exec (.hofLoad x file) s = .next u ∧
    (∀ y, y ≠ x → u.ctx y = s.ctx y) ∧ (loadStatus s x file ≠ 0 → u = s.send (.loaderStatus x (loadStatus s x file))) ∧
    (loadStatus s x file = 0 → u.out = (s.send (.loaderStatus x 0)).out ∧ (u.ctx x).hof = some (hofOf file) ∧
      (∀ p, p < 256 → (s.proc p).ctxOf = some x → (u.proc p).img.ve.vring = (hofOf file).vring ∧
        (u.proc p).img.ve.pring = (hofOf file).pring)) := by
  by_cases h : loadStatus s x file = 0
  · refine ⟨_, hofLoad_loads s file hx h, fun y hy => ?_, fun hne => absurd h hne, fun _ => ⟨?_, ?_, fun p hp hctx => ?_⟩⟩
    · rw [installHof_ctx, State.ctx_modCtx_other _ _ hy, sectionsLoaded_ctx]
    · exact sectionsLoaded_out s x file
    · rw [installHof_ctx, State.ctx_modCtx_same]
    · have hproc : (sectionsLoaded s x file).proc p = s.proc p := congrArg (fun m => SMap.get Proc.reset m p) (sectionsLoaded_procs s x file)
      rw [installHof_ve _ x hp (hproc ▸ hctx)]
      exact ⟨rfl, rfl⟩
  · exact ⟨_, hofLoad_refused s file hx h, fun _ _ => rfl, fun _ => rfl, fun h0 => absurd h0 h⟩

theorem spareTakeover_outcomes (s : State) {c : Nat} (hc : c < 64) (lost : Bool) (h : s.present c = true) :
    ∃ u, exec (.spareTakeover ⟨c, lost⟩) s = .next u ∧
      (∀ k, k < 4 → (u.proc (c * 4 + k)).run = .idle ∧ (u.proc (c * 4 + k)).bricks = [] ∧ (u.proc (c * 4 + k)).img = Image.reset) ∧
      (s.mod.spares ≠ 0 → (u.cluster c).spared = true ∧ u.mod.spares = s.mod.spares - 1 ∧ u.mod.health.hflag = s.mod.health.hflag) ∧
      (s.mod.spares = 0 → (u.cluster c).absent = true ∧ u.mod.spares = 0 ∧ u.mod.health.hflag = s.mod.health.hflag ||| 4) ∧
      u.mem.poisoned (spBase + c * 4 * 2 ^ 20) 1 = true ∧ u.mem.poisoned (shBase + c * 2 ^ 22) 1 = true := by
  have hmod := clusterLost_mod s c lost
  have hpoison : (replaceCluster (clusterLost s c lost) c).mem.poison = (poisonCluster (coresLost s c lost).mem c).poison :=
    (replaceCluster_poison _ c).trans (clusterLost_poison s c lost)
  refine ⟨_, spareTakeover_replaces s hc lost h, fun k hk => ?_, fun hspare => ?_, fun hnone => ?_, ?_, ?_⟩
  · have hvacant := (replaceCluster_vacant _ c (clusterLost_vacant s c lost hk)).proc
    exact ⟨hvacant.run, hvacant.bricks, hvacant.img⟩
  · rw [← hmod] at hspare ⊢
    exact replaceCluster_serves _ c hspare
  · rw [← hmod] at hnone ⊢
    exact replaceCluster_lacks _ c hnone
  · rw [Memory.poisoned, hpoison, poisonCluster_scratchpad, Bool.true_or]
  · rw [Memory.poisoned, hpoison, poisonCluster_shared, Bool.true_or]

/-- Settles O50: a HOF refused or loaded (`hofLoad_outcomes`), a lost cluster replaced (`spareTakeover_outcomes`), an error
counted in its class by paths that leave the module's registers alone (`hardwareError_counts`), and what each site's path does. -/
theorem loaderAndErrors : Obligations.LoaderAndErrors := by
  unfold Obligations.LoaderAndErrors
  refine fun s => ⟨fun x file hx => hofLoad_outcomes s file hx, fun c lost hc => ⟨fun h => ?_, spareTakeover_outcomes s hc lost⟩,
    fun _ _ => rfl, ?_⟩
  · exact ⟨s, spareTakeover_stands s hc lost h, .refl s⟩
  extract_lets counted
  have hsite {n : Nat} (h : n < 272) : decide (n < 272) = true := decide_eq_true h
  refine ⟨fun site h => ?_, fun key => ?_, fun p y hp hrun => ?_, fun x r hx hr => ?_, fun x e hx he => ?_, fun c hc => ?_,
    fun p hp => ?_, fun p v hp => ?_, fun p hp => ?_, fun a v => ?_⟩
  · exact ⟨_, hardwareError_takes s h, hardwareError_counts s site⟩
  · exact ⟨_, hardwareError_takes s rfl, sector_poisoned _ key, rfl, rfl, rfl⟩
  · exact ⟨_, hardwareError_takes s (hsite (by omega)), hardwareError_counts s (.register p none), errorAt_register_run _ hp hrun⟩
  · obtain ⟨hrecord, hregion⟩ := errorAt_region (countError s (siteCounter (.region x r))) x hr
    refine ⟨_, hardwareError_takes s (by simp [siteExists, hx, hr]), hrecord, ?_⟩
    rw [hregion]
    exact ⟨rfl, rfl⟩
  · obtain ⟨hrecord, hreuse⟩ := errorAt_reuse (countError s (siteCounter (.reuse x e))) x e
    refine ⟨_, hardwareError_takes s (by simp [siteExists, hx, he]), hrecord, ?_⟩
    rw [hreuse]
  · exact ⟨_, hardwareError_takes s (decide_eq_true hc), congrArg (fun v => v.pow.level) (State.cluster_modCluster_same _ _ _)⟩
  · exact ⟨_, hardwareError_takes s (decide_eq_true hp), congrArg Proc.burst (State.proc_modProc_same _ _ _)⟩
  · refine ⟨_, hardwareError_takes s (hsite hp), ?_⟩
    simp only [errorAt]
    rw [State.proc_modCoh_same]
    exact SMap.get_set_same none _ v none
  · exact ⟨_, hardwareError_takes s (hsite hp), congrArg (fun v => v.coh.psCur) (State.proc_modCoh_same _ _ _)⟩
  · refine ⟨_, hardwareError_takes s rfl, fun t ht => ?_⟩
    have hother := (List.mem_filter.1 ht).2
    simp only [Bool.not_and, Bool.or_eq_true, Bool.not_eq_true', beq_eq_false_iff_ne] at hother
    exact hother

end Sys2Proof.Machine
